-- ==== Sys2Proof/Word.lean ====
section
/-! DEFINITION. The word types of the HX4 (R2, R43, R90): scalar registers, bytes, token payloads and the small register numbers. -/

namespace Sys2Proof

/-- A 64-bit scalar register, address or control word (R43). -/
abbrev Word := BitVec 64

/-- One byte of memory (R3). -/
abbrev Byte := BitVec 8

/-- The 512 payload bits of a token or the 64 bytes of a descriptor image (R28, R297). -/
abbrev Pay := BitVec 512

/-- A scalar register number s0 to s31 (R43). -/
abbrev Reg := BitVec 5

/-- A predicate register number p0 to p7 (R43). -/
abbrev PReg := BitVec 3

/-- A descriptor register number d0 to d15 (R43). -/
abbrev DReg := BitVec 4

/-- A port number q0 to q127 (R10). -/
abbrev Port := BitVec 7

end Sys2Proof
end

