-- ==== Sys2Proof/Syntax.lean ====
section
/-! DEFINITION. The instruction set as syntax: one constructor of Instr for each row of the opcode table. Control words (R43 to R56), fabric slot words (R63 to R70), and the part's events with the operands that name what they act on. -/

namespace Sys2Proof

/-- The guard of a control word: predicate number and its negation (R46). It stands beside an instruction, not inside it. -/
structure Guard where
  g : PReg
  neg : Bool
deriving DecidableEq, Repr

/-- The condition codes of R53. -/
inductive Cond where
  | eq | ne | lt | ge | ltn | gen | le | gt | len | gtn
deriving DecidableEq, Repr

/-- The scope codes of R54. -/
inductive Scope where
  | cell | sector | gang | die | module | domain
deriving DecidableEq, Repr

/-- The access sizes of R46. -/
inductive Size where
  | b | h | w | d
deriving DecidableEq, Repr

/-- The atomic operations of R56 but for cas, which has its own instruction. -/
inductive AmoOp where
  | add | and | or | xor | min | max | minn | maxn | swap
deriving DecidableEq, Repr

/-- The operating points of R19. -/
inductive OpPoint where
  | a | b | c | d
deriving DecidableEq, Repr

/-- The system registers that R397 assigns. -/
inductive SysReg where
  | cyc | ctxid | sectid | opstate | flags | phase | stretchcnt | decrev | preemptcfg | ltag
  | trapcause | trappc | trapval | elogArray | elogXfer
deriving DecidableEq, Repr

/-- Where a tmap takes its image from: the CONST section or an address (R297). -/
inductive TmapSrc where
  | const (off : BitVec 15)
  | addr (ra : Reg)
deriving DecidableEq, Repr

/-- The ports an sbar names (R212). -/
inductive BarSel where
  | port (q : Port)
  | all
deriving DecidableEq, Repr

/-- The destination class of a cpy or gath: the address itself, or an edge slice (R309). -/
inductive EngDst where
  | mem
  | edge (prog : Bool) (slice : BitVec 7)
deriving DecidableEq, Repr

/-- The scopes a coll accepts (R312). -/
inductive CollScope where
  | gang | domain
deriving DecidableEq, Repr

/-- The fields of a fabric instruction word beside its opcode (R63). -/
structure FabW where
  fmt : BitVec 4
  rnd : BitVec 3
  sat : Bool
  t0 : BitVec 10
  t1 : BitVec 10
  ik : BitVec 2
  imm : BitVec 16
  x : BitVec 10
deriving DecidableEq, Repr

/-- A block of one image under one activated configuration of an instance of a task (R29, R60, R223). -/
structure BlkRef where
  task : Nat
  inst : Nat
  gen : Nat
  img : Nat
  blk : Nat
deriving DecidableEq, Repr

/-- One slot of a block (R60). -/
structure SlotRef where
  b : BlkRef
  slot : Nat
deriving DecidableEq, Repr

/-- An access that a host or a peer makes (R388, R394). -/
inductive ExtAcc where
  | read (n : BitVec 7)
  | write (n : BitVec 7) (data : Pay)
  | atomic (op : AmoOp) (dbl : Bool) (data : Word)
  | cas (dbl : Bool) (expect data : Word)
deriving DecidableEq, Repr

/-- A master: 0 to 3 host root ports, 4 the management controller (R390). -/
abbrev Master := BitVec 3

/-- The instructions and events of the HX4, one constructor per row of the opcode table. -/
inductive Instr where
  -- the integer group (R52, R113)
  | add (rd ra rb : Reg) | sub (rd ra rb : Reg) | mul (rd ra rb : Reg) | mulh (rd ra rb : Reg)
  | mulhn (rd ra rb : Reg) | div (rd ra rb : Reg) | divn (rd ra rb : Reg) | rem (rd ra rb : Reg)
  | remn (rd ra rb : Reg) | and (rd ra rb : Reg) | or (rd ra rb : Reg) | xor (rd ra rb : Reg)
  | shl (rd ra rb : Reg) | shr (rd ra rb : Reg) | sra (rd ra rb : Reg) | min (rd ra rb : Reg)
  | max (rd ra rb : Reg) | minn (rd ra rb : Reg) | maxn (rd ra rb : Reg) | slt (rd ra rb : Reg)
  | sltn (rd ra rb : Reg) | clz (rd ra : Reg) | popc (rd ra : Reg)
  | sel (rd : Reg) (p : PReg) (ra rb : Reg)
  -- the immediate group (R114)
  | addi (rd ra : Reg) (imm : BitVec 32) | andi (rd ra : Reg) (imm : BitVec 32)
  | ori (rd ra : Reg) (imm : BitVec 32) | xori (rd ra : Reg) (imm : BitVec 32)
  | shli (rd ra : Reg) (n : BitVec 6) | shri (rd ra : Reg) (n : BitVec 6)
  | srai (rd ra : Reg) (n : BitVec 6) | slti (rd ra : Reg) (imm : BitVec 32)
  | li (rd : Reg) (imm : BitVec 32) | lhi (rd ra : Reg) (imm : BitVec 32)
  -- compares and predicate logic (R115, R116)
  | cmp (c : Cond) (pd : PReg) (ra rb : Reg) | cmpi (c : Cond) (pd : PReg) (ra : Reg) (imm : BitVec 32)
  | pand (pd pa pb : PReg) | por (pd pa pb : PReg) | pxor (pd pa pb : PReg)
  | pandn (pd pa pb : PReg) | porn (pd pa pb : PReg) | pmov (pd pa : PReg) | pnot (pd pa : PReg)
  -- transfers (R218)
  | j (off : BitVec 32) | jal (off : BitVec 32) | jr (ra : Reg) | jalr (rd ra : Reg)
  | bcc (c : Cond) (ra rb : Reg) (off : BitVec 32) | loop (ra : Reg) (off : BitVec 32)
  -- memory (R288 to R296)
  | ld (sz : Size) (rd ra : Reg) (imm : BitVec 32) | ldn (sz : Size) (rd ra : Reg) (imm : BitVec 32)
  | st (sz : Size) (rv ra : Reg) (imm : BitVec 32)
  | amo (op : AmoOp) (dbl : Bool) (rd ra rb : Reg) | amoCas (dbl : Bool) (rd ra rb rc : Reg)
  | ldv (sc : Scope) (rd ra rb : Reg) | stv (sc : Scope) (ra rb : Reg) | vrcl (ra rb : Reg)
  | fence (sc : Scope) | fenceLayer | pfch (ra : Reg) (imm : BitVec 32)
  -- configuration (R225 to R232)
  | cfgld (rd : Reg) (dr : DReg) (ra : Reg) | cfgarm (rd : Reg) | cfgsw (rd : Reg)
  | sdrain (rd : Reg) | sdrainGo (rd : Reg)
  -- streams (R212 to R216), mark (R245)
  | sbindRd (q : Port) (dr : DReg) (ra : Reg) (eos : Bool) | sbindWr (q : Port) (dr : DReg) (ra : Reg)
  | sbar (sel : BarSel) | seos (rd : Reg) (q : Port)
  | tinjData (q : Port) (ra rb : Reg) (tag : BitVec 4) (bcast : Bool) | tinjThread (ra rb : Reg)
  | mark (rd : Reg) | sstat (rd : Reg) (q : Port)
  -- descriptors (R297)
  | tmap (dr : DReg) (src : TmapSrc) | tmapPat (dr : DReg) (src : TmapSrc)
  | tmapRing (dr : DReg) (src : TmapSrc) | tmapWin (dr : DReg) (src : TmapSrc)
  | tmapCopy (dm dn : DReg) (ra : Reg)
  -- engines (R309 to R314, R348, R352)
  | cpy (rd : Reg) (dh dm : DReg) (ra rb : Reg) (dst : EngDst)
  | gath (rd : Reg) (dh dm : DReg) (ra rb : Reg) (dst : EngDst)
  | scat (rd : Reg) (dh dm : DReg) (ra rb : Reg) | publ (rd : Reg) (dr : DReg) (ra rb : Reg)
  | inst (rd : Reg) (dh dm : DReg) (ra rb : Reg) (key : Option (BitVec 4))
  | stage (rd : Reg) (dh dm : DReg) (rb : Reg) (key : Option (BitVec 4))
  | rstr (rd : Reg) (dh : DReg) (ra rb : Reg)
  | collSum (fmt : BitVec 4) (sc : CollScope) (rd : Reg) (dh dm : DReg) (ra rb : Reg)
  | collMax (fmt : BitVec 4) (sc : CollScope) (rd : Reg) (dh dm : DReg) (ra rb : Reg)
  | collMin (fmt : BitVec 4) (sc : CollScope) (rd : Reg) (dh dm : DReg) (ra rb : Reg)
  | collGather (fmt : BitVec 4) (sc : CollScope) (rd : Reg) (dh dm : DReg) (ra rb : Reg)
  | collBcast (fmt : BitVec 4) (sc : CollScope) (rd : Reg) (dh dm : DReg) (ra rb : Reg)
  -- waits (R316 to R319), barriers and signals (R219, R220)
  | twait (ra : Reg) | twaitRel (ra : Reg) | bmwait (ra rb rc : Reg) | gbar | sig (n : BitVec 8)
  | rwaitFill (rd : Reg) (dr : DReg) (ra : Reg) | rwaitFree (rd : Reg) (dr : DReg) (ra : Reg)
  | radvFill (rd : Reg) (dr : DReg) (ra : Reg) | radvFree (rd : Reg) (dr : DReg) (ra : Reg)
  -- system (R398 to R400, R417, R418, R221, R222, R255)
  | sysrd (rd : Reg) (n : SysReg) | syswr (n : SysReg) (ra : Reg) | svc (code : BitVec 16)
  | trap (code : BitVec 16) | tret | halt | tinv (sc : Scope) (ra : Reg) | pwrq (t : OpPoint) (ra : Reg) | nop
  -- fabric: integer elements (R120 to R123)
  | vadd (w : FabW) | vsub (w : FabW) | vaddsat (w : FabW) | vsubsat (w : FabW) | vmul (w : FabW)
  | vmulh (w : FabW) | vmad (w : FabW) | vabs (w : FabW) | vneg (w : FabW) | vmin (w : FabW)
  | vmax (w : FabW) | vand (w : FabW) | vor (w : FabW) | vxor (w : FabW) | vnot (w : FabW)
  | vshl (w : FabW) | vshr (w : FabW) | vsra (w : FabW) | vclz (w : FabW) | vpopc (w : FabW)
  | vcmp (w : FabW) | vsel (w : FabW)
  -- fabric: floating elements (R124 to R129)
  | fadd (w : FabW) | fsub (w : FabW) | fmul (w : FabW) | ffma (w : FabW) | fmin (w : FabW)
  | fmax (w : FabW) | fabs (w : FabW) | fneg (w : FabW) | fcmp (w : FabW) | frcp (w : FabW)
  | frsq (w : FabW) | fsqrt (w : FabW) | fexp2 (w : FabW) | flog2 (w : FabW) | fldx (w : FabW)
  | fexpo (w : FabW)
  -- fabric: conversion, reduction, lanes (R130 to R137)
  | cvt (w : FabW) | pack (w : FabW) | unpk (w : FabW) | scl (w : FabW) | amax (w : FabW)
  | vred (w : FabW) | fred (w : FabW) | vshuf (w : FabW) | vbc (w : FabW) | vrot (w : FabW)
  | vlane (w : FabW)
  -- fabric: accumulators (R144 to R156)
  | mma (w : FabW) | mclr (w : FabW) | mnrm (w : FabW) | mrd (w : FabW) | mdrn (w : FabW)
  -- fabric: router operators (R201 to R203)
  | steer (w : FabW) | merge (w : FabW) | carry (w : FabW) | inv (w : FabW) | join (w : FabW)
  | fan (w : FabW) | sink (w : FabW) | iter (w : FabW)
  -- fabric: memory nodes (R320 to R326)
  | mld (w : FabW) | mst (w : FabW) | matm (w : FabW) | mldv (w : FabW) | mstv (w : FabW) | otok (w : FabW)
  -- fabric: ports and constants (R205 to R210)
  | pin (w : FabW) | pout (w : FabW) | pass (w : FabW) | dly (w : FabW) | const (w : FabW) | eosq (w : FabW)
  -- events of the fabric
  | waveFire (b : BlkRef) | waveCommit (b : BlkRef) (w : Nat)
  | ownerShareRelease (b : BlkRef) (w : Nat) (owner : Nat)
  | regionStretch (sid : BitVec 8) | sentinelWindow | threadTokenDelivery (task pkt : Nat)
  -- events of queues and scheduling
  | wqEnable (m : Master) (q : BitVec 11) (v : Word) | wqDisable (m : Master) (q : BitVec 11) (v : Word)
  | doorbell (m : Master) (q : BitVec 11) (v : Word) | wqFaultClear (m : Master) (q : BitVec 11) (v : Word)
  | fetch (q : BitVec 11) | scrubDone (sid : BitVec 8) | reservationStart (launch : Nat)
  | taskEnd (task : Nat) | sectorFree (task : Nat) | blockSchedulerDecision (task : Nat)
  | hostDrainSwap (task : Nat) | drainSwap (task inst : Nat) | sdrainQuiescent (task inst : Nat)
  | groupSwitch (sid : BitVec 8) (grp : Nat) | sbarComplete (sid : BitVec 8) | graceDeadline (task : Nat)
  | takeMarker (r : SlotRef) | saveSnapshot (task : Nat) | saveDone (task : Nat)
  -- events of power
  | railReached (g : BitVec 6) | opSwap (g : BitVec 6) | clockHoldEnd (g : BitVec 6)
  | thermalThrottle (die : BitVec 2) (reading : BitVec 16) (delay : BitVec 8) | throttleExpire (g : BitVec 6)
  | ballastStart (amps : BitVec 16) | ballastLimit | capThrottle (power : BitVec 16) (delay : BitVec 8)
  | emergencyThrottle (power : BitVec 16) | emergencyEnd (power : BitVec 16) | selfRefreshEnter (ch : BitVec 8)
  -- events of engines and memory
  | chunkCommit (op k : Nat) | engineComplete (op : Nat) | publishStep (op : Nat) | dupWritePerformed (k : Nat)
  | cutOver (op : Nat) | stagingFill (stack : BitVec 2) (page : BitVec 26)
  | installPageProgram (op : Nat) (bad bad2 : Bool) | installFinish (op : Nat) | stageBlock (op : Nat)
  | stageFinish (op : Nat) | leftRefill (c : BitVec 8) | spillReplay (sid : BitVec 8) (q : Port)
  -- events of faults and traps
  | faultRetry (m : Master) (token : BitVec 32) | faultFail (m : Master) (token : BitVec 32)
  | trapRecord (sid : BitVec 8) | traprespResume (m : Master) (token : BitVec 32)
  | traprespSkip (m : Master) (token : BitVec 32)
  | traprespHandle (m : Master) (token : BitVec 32) (toff : BitVec 29) | traprespFail (m : Master) (token : BitVec 32)
  -- events of the host registers
  | rtWrite (m : Master) (c : BitVec 8) (idx : BitVec 16) | rtClear (m : Master) (c : BitVec 8) (idx : BitVec 16)
  | rtRead (m : Master) (c : BitVec 8) (idx : BitVec 16) | rtSwap
  | ctxCreate (m : Master) (c : BitVec 8) (v : Word) | ctxEnd (m : Master) (c : BitVec 8) (v : Word)
  | ctxFreed (c : BitVec 8)
  | handleLoad (m : Master) (c slot : BitVec 8) | handleUnload (m : Master) (c slot : BitVec 8) | unloadDone
  | keyLoad (m : Master) (c : BitVec 8) (slot : BitVec 4) | keyClear (m : Master) (c : BitVec 8) (slot : BitVec 4)
  | hostWindowAccess (m : Master) (w : BitVec 3) (o : BitVec 36) (a : ExtAcc)
  | claim (m : Master) (lease : BitVec 16) (force : Bool) | release (m : Master) (lease : BitVec 16)
  | offer (m : Master) (lease : BitVec 16) (target : Master) | offerLapse | leaseExpire
  | peerAccess (modn : BitVec 6) (c : BitVec 8) (a : BitVec 57) (acc : ExtAcc) | linkTimeout (sid : BitVec 8)
  | attestRequest (m : Master) (c : BitVec 8) (incl : Bool) | attestReady
  | mctpRead (tag : BitVec 8) (off : Word) | mctpWrite (tag : BitVec 8) (off data : Word)
  | mctpCertRead (tag : BitVec 8) (idx : Word)
  -- events of error recovery
  | busRetry (k : Nat) (bad : Option (BitVec 5)) | laneSwapDone (k : Nat) (bad : Bool) | rowSpareDone (k : Nat)
  | layerDisable (die : BitVec 2) (layer : BitVec 2)
  -- resets, firmware, housekeeping
  | powerOn | pcieFundamentalReset | coldReset (m : Master) (v : Word) | warmReset (m : Master) (v : Word)
  | fatalReset (hostUp : Bool) | boot | flscrub (m : Master) (v : Word) | flscrubDone
  | twaitDeadline (sid : BitVec 8) | bmwaitDeadline (sid : BitVec 8)
  | registerWrite (m : Master) (off v : Word) | energyRepaid (delay : BitVec 8)
deriving DecidableEq, Repr

end Sys2Proof
end

