-- ==== Sys2Proof/Decode.lean ====
section
/-! DEFINITION. The decoder of control words (R46 to R56 and the descriptions it points to) and of fabric slot words (R63 to R71), total and rejecting; after it the encoder, written from the same tables. -/

namespace Sys2Proof

/-- Bits [lo + n - 1 : lo] of a 64-bit word (R2). -/
def fld (w : Word) (lo n : Nat) : BitVec n := BitVec.ofNat n (w.toNat / 2 ^ lo)

/-- One field of a word at its place. -/
def plc {n : Nat} (v : BitVec n) (lo : Nat) : Nat := v.toNat * 2 ^ lo

/-! ### The five control formats (R46) -/

/-- The fields of format C.R. -/
structure FmtR where
  sd : Reg
  sa : Reg
  sb : Reg
  sc : Reg
  fn : BitVec 8
  low : BitVec 24
deriving DecidableEq, Repr

/-- The fields of format C.I. -/
structure FmtI where
  sd : Reg
  sa : Reg
  sz : BitVec 2
  fn : BitVec 8
  imm : BitVec 32
deriving DecidableEq, Repr

/-- The fields of format C.B. -/
structure FmtB where
  sa : Reg
  sb : Reg
  cond : BitVec 4
  low : BitVec 6
  off : BitVec 32
deriving DecidableEq, Repr

/-- The fields of format C.S. -/
structure FmtS where
  sd : Reg
  sa : Reg
  sb : Reg
  dr : BitVec 4
  q : Port
  fn : BitVec 8
  opt : BitVec 18
deriving DecidableEq, Repr

/-- The fields of format C.Y. -/
structure FmtY where
  sd : Reg
  sa : Reg
  fn : BitVec 10
  imm : BitVec 32
deriving DecidableEq, Repr

/-- Reading format C.R. -/
def getR (w : Word) : FmtR := ⟨fld w 47 5, fld w 42 5, fld w 37 5, fld w 32 5, fld w 24 8, fld w 0 24⟩

/-- Reading format C.I. -/
def getI (w : Word) : FmtI := ⟨fld w 47 5, fld w 42 5, fld w 40 2, fld w 32 8, fld w 0 32⟩

/-- Reading format C.B. -/
def getB (w : Word) : FmtB := ⟨fld w 47 5, fld w 42 5, fld w 38 4, fld w 32 6, fld w 0 32⟩

/-- Reading format C.S. -/
def getS (w : Word) : FmtS := ⟨fld w 47 5, fld w 42 5, fld w 37 5, fld w 33 4, fld w 26 7, fld w 18 8, fld w 0 18⟩

/-- Reading format C.Y. -/
def getY (w : Word) : FmtY := ⟨fld w 47 5, fld w 42 5, fld w 32 10, fld w 0 32⟩

/-- The common top of every control word: opcode and guard (R46). -/
def putTop (op : BitVec 8) (g : Guard) : Nat := plc op 56 + plc g.g 53 + (if g.neg then 2 ^ 52 else 0)

/-- Writing format C.R. -/
def putR (op : BitVec 8) (g : Guard) (f : FmtR) : Word :=
  BitVec.ofNat 64 (putTop op g + plc f.sd 47 + plc f.sa 42 + plc f.sb 37 + plc f.sc 32 + plc f.fn 24 + plc f.low 0)

/-- Writing format C.I. -/
def putI (op : BitVec 8) (g : Guard) (f : FmtI) : Word :=
  BitVec.ofNat 64 (putTop op g + plc f.sd 47 + plc f.sa 42 + plc f.sz 40 + plc f.fn 32 + plc f.imm 0)

/-- Writing format C.B. -/
def putB (op : BitVec 8) (g : Guard) (f : FmtB) : Word :=
  BitVec.ofNat 64 (putTop op g + plc f.sa 47 + plc f.sb 42 + plc f.cond 38 + plc f.low 32 + plc f.off 0)

/-- Writing format C.S. -/
def putS (op : BitVec 8) (g : Guard) (f : FmtS) : Word :=
  BitVec.ofNat 64 (putTop op g + plc f.sd 47 + plc f.sa 42 + plc f.sb 37 + plc f.dr 33 + plc f.q 26 + plc f.fn 18
    + plc f.opt 0)

/-- Writing format C.Y. -/
def putY (op : BitVec 8) (g : Guard) (f : FmtY) : Word :=
  BitVec.ofNat 64 (putTop op g + plc f.sd 47 + plc f.sa 42 + plc f.fn 32 + plc f.imm 0)

/-! ### Codes of the small enumerations -/

/-- The condition of a code (R53). -/
def condOf : Nat → Option Cond
  | 0 => some .eq | 1 => some .ne | 2 => some .lt | 3 => some .ge | 4 => some .ltn
  | 5 => some .gen | 6 => some .le | 7 => some .gt | 8 => some .len | 9 => some .gtn
  | _ => none

/-- The code of a condition (R53). -/
def Cond.code : Cond → Nat
  | .eq => 0 | .ne => 1 | .lt => 2 | .ge => 3 | .ltn => 4 | .gen => 5 | .le => 6 | .gt => 7 | .len => 8 | .gtn => 9

/-- The scope of a code (R54). -/
def scopeOf : Nat → Option Scope
  | 0 => some .cell | 1 => some .sector | 2 => some .gang | 3 => some .die | 4 => some .module | 5 => some .domain
  | _ => none

/-- The code of a scope (R54). -/
def Scope.code : Scope → Nat
  | .cell => 0 | .sector => 1 | .gang => 2 | .die => 3 | .module => 4 | .domain => 5

/-- The size of an sz code (R46). -/
def sizeOf : Nat → Size
  | 0 => .b | 1 => .h | 2 => .w | _ => .d

/-- The sz code of a size (R46). -/
def Size.code : Size → Nat
  | .b => 0 | .h => 1 | .w => 2 | .d => 3

/-- The atomic operation of a code, but for cas (R56). -/
def amoOf : Nat → Option AmoOp
  | 0 => some .add | 1 => some .and | 2 => some .or | 3 => some .xor | 4 => some .min | 5 => some .max
  | 6 => some .minn | 7 => some .maxn | 8 => some .swap
  | _ => none

/-- The code of an atomic operation (R56). -/
def AmoOp.code : AmoOp → Nat
  | .add => 0 | .and => 1 | .or => 2 | .xor => 3 | .min => 4 | .max => 5 | .minn => 6 | .maxn => 7 | .swap => 8

/-- The operating point of a code (R253, R255). -/
def opPointOf : Nat → OpPoint
  | 0 => .a | 1 => .b | 2 => .c | _ => .d

/-- The code of an operating point (R253, R255). -/
def OpPoint.code : OpPoint → Nat
  | .a => 0 | .b => 1 | .c => 2 | .d => 3

/-- The system register of a number (R397). -/
def sysRegOf : Nat → Option SysReg
  | 0x000 => some .cyc | 0x001 => some .ctxid | 0x002 => some .sectid | 0x003 => some .opstate
  | 0x004 => some .flags | 0x005 => some .phase | 0x006 => some .stretchcnt | 0x007 => some .decrev
  | 0x008 => some .preemptcfg | 0x009 => some .ltag | 0x010 => some .trapcause | 0x011 => some .trappc
  | 0x012 => some .trapval | 0x020 => some .elogArray | 0x021 => some .elogXfer
  | _ => none

/-- The number of a system register (R397). -/
def SysReg.code : SysReg → Nat
  | .cyc => 0x000 | .ctxid => 0x001 | .sectid => 0x002 | .opstate => 0x003 | .flags => 0x004 | .phase => 0x005
  | .stretchcnt => 0x006 | .decrev => 0x007 | .preemptcfg => 0x008 | .ltag => 0x009 | .trapcause => 0x010
  | .trappc => 0x011 | .trapval => 0x012 | .elogArray => 0x020 | .elogXfer => 0x021

/-! ### Control words -/

/-- A value where a condition holds, else a refusal. -/
def need {α : Type} (b : Bool) (a : α) : Option α := if b then some a else none

/-- A 5-bit field that names a predicate: its top two bits are zero (R46). -/
def predOk (r : Reg) : Bool := decide (r.toNat < 8)

/-- The predicate a 5-bit field names. -/
def predOf (r : Reg) : PReg := r.setWidth 3

/-- The integer group (R51, R52, R113). -/
def decInt (f : FmtR) : Option Instr :=
  if f.low ≠ 0 then none else
  match f.fn.toNat with
  | 0 => need (f.sc == 0) (.add f.sd f.sa f.sb)
  | 1 => need (f.sc == 0) (.sub f.sd f.sa f.sb)
  | 2 => need (f.sc == 0) (.mul f.sd f.sa f.sb)
  | 3 => need (f.sc == 0) (.mulh f.sd f.sa f.sb)
  | 4 => need (f.sc == 0) (.mulhn f.sd f.sa f.sb)
  | 5 => need (f.sc == 0) (.div f.sd f.sa f.sb)
  | 6 => need (f.sc == 0) (.divn f.sd f.sa f.sb)
  | 7 => need (f.sc == 0) (.rem f.sd f.sa f.sb)
  | 8 => need (f.sc == 0) (.remn f.sd f.sa f.sb)
  | 9 => need (f.sc == 0) (.and f.sd f.sa f.sb)
  | 10 => need (f.sc == 0) (.or f.sd f.sa f.sb)
  | 11 => need (f.sc == 0) (.xor f.sd f.sa f.sb)
  | 12 => need (f.sc == 0) (.shl f.sd f.sa f.sb)
  | 13 => need (f.sc == 0) (.shr f.sd f.sa f.sb)
  | 14 => need (f.sc == 0) (.sra f.sd f.sa f.sb)
  | 15 => need (f.sc == 0) (.min f.sd f.sa f.sb)
  | 16 => need (f.sc == 0) (.max f.sd f.sa f.sb)
  | 17 => need (f.sc == 0) (.minn f.sd f.sa f.sb)
  | 18 => need (f.sc == 0) (.maxn f.sd f.sa f.sb)
  | 19 => need (f.sc == 0) (.slt f.sd f.sa f.sb)
  | 20 => need (f.sc == 0) (.sltn f.sd f.sa f.sb)
  | 21 => need (f.sc == 0 && f.sb == 0) (.clz f.sd f.sa)
  | 22 => need (f.sc == 0 && f.sb == 0) (.popc f.sd f.sa)
  | 23 => need (predOk f.sc) (.sel f.sd (predOf f.sc) f.sa f.sb)
  | _ => none

/-- A C.I word with fn and sz zero (R114). -/
def decImm (f : FmtI) (i : Instr) : Option Instr := need (f.fn == 0 && f.sz == 0) i

/-- A shift count of an immediate shift (R47). -/
def decShift (f : FmtI) (k : BitVec 6 → Instr) : Option Instr :=
  need (f.fn == 0 && f.sz == 0 && decide (f.imm.toNat < 64)) (k (f.imm.setWidth 6))

/-- Compares (R115). -/
def decCmp (f : FmtR) : Option Instr :=
  if predOk f.sd && f.sc == 0 && f.low == 0 then
    (condOf f.fn.toNat).map fun c => .cmp c (predOf f.sd) f.sa f.sb
  else none

/-- Compares with an immediate (R115). -/
def decCmpi (f : FmtI) : Option Instr :=
  if predOk f.sd && f.sz == 0 then
    (condOf f.fn.toNat).map fun c => .cmpi c (predOf f.sd) f.sa f.imm
  else none

/-- Predicate logic (R55, R116). -/
def decPlog (f : FmtR) : Option Instr :=
  if predOk f.sd && predOk f.sa && predOk f.sb && f.sc == 0 && f.low == 0 then
    match f.fn.toNat with
    | 0 => some (.pand (predOf f.sd) (predOf f.sa) (predOf f.sb))
    | 1 => some (.por (predOf f.sd) (predOf f.sa) (predOf f.sb))
    | 2 => some (.pxor (predOf f.sd) (predOf f.sa) (predOf f.sb))
    | 3 => some (.pandn (predOf f.sd) (predOf f.sa) (predOf f.sb))
    | 4 => some (.porn (predOf f.sd) (predOf f.sa) (predOf f.sb))
    | 5 => need (f.sb == 0) (.pmov (predOf f.sd) (predOf f.sa))
    | 6 => need (f.sb == 0) (.pnot (predOf f.sd) (predOf f.sa))
    | _ => none
  else none

/-- A jump by an offset (R51). -/
def decJump (f : FmtB) (k : BitVec 32 → Instr) : Option Instr :=
  need (f.sa == 0 && f.sb == 0 && f.cond == 0 && f.low == 0) (k f.off)

/-- Loads (R288). -/
def decLoad (f : FmtI) : Option Instr :=
  match f.fn.toNat with
  | 0 => some (.ld (sizeOf f.sz.toNat) f.sd f.sa f.imm)
  | 1 => need (f.sz != 3) (.ldn (sizeOf f.sz.toNat) f.sd f.sa f.imm)
  | _ => none

/-- A scope field that does not accept cell (R291, R294). -/
def decScope (n : Nat) : Option Scope := if n = 0 then none else scopeOf n

/-- Atomics (R56, R290). -/
def decAmo (f : FmtR) : Option Instr :=
  if f.low ≠ 0 then none else
  let dbl := f.fn.toNat % 16 == 3
  if f.fn.toNat % 16 ≠ 2 ∧ f.fn.toNat % 16 ≠ 3 then none
  else if f.fn.toNat / 16 = 9 then some (.amoCas dbl f.sd f.sa f.sb f.sc)
  else if f.sc ≠ 0 then none
  else (amoOf (f.fn.toNat / 16)).map fun o => .amo o dbl f.sd f.sa f.sb

/-- Fences (R294, R295). -/
def decFence (f : FmtY) : Option Instr :=
  if f.sd == 0 && f.sa == 0 && f.imm == 0 then
    if f.fn = 16 then some .fenceLayer else (decScope f.fn.toNat).map .fence
  else none

/-- The image source of a tmap (R297). -/
def decTmapSrc (f : FmtS) : Option TmapSrc :=
  if f.opt.toNat / 2 ^ 15 % 2 = 1 then need (f.sa == 0) (.const (f.opt.setWidth 15))
  else need (f.opt.toNat % 2 ^ 15 == 0) (.addr f.sa)

/-- Descriptor forming (R297). -/
def decTmap (f : FmtS) : Option Instr :=
  if f.sd = 0 ∧ f.q = 0 then
    match f.fn.toNat with
    | 0 =>
      if f.sb ≠ 0 then none else
      match f.opt.toNat / 2 ^ 16 with
      | 0 => (decTmapSrc f).map (.tmap f.dr)
      | 1 => (decTmapSrc f).map (.tmapPat f.dr)
      | 2 => (decTmapSrc f).map (.tmapRing f.dr)
      | _ => none
    | 1 => if f.sb = 0 ∧ f.opt.toNat / 2 ^ 16 = 0 then (decTmapSrc f).map (.tmapWin f.dr) else none
    | 2 => need (f.opt == 0 && decide (f.sb.toNat < 16)) (.tmapCopy f.dr (f.sb.setWidth 4) f.sa)
    | _ => none
  else none

/-- The handle register of an engine word: q[3:0] (R305). -/
def decHandle (f : FmtS) : Option DReg := need (decide (f.q.toNat < 16)) (f.q.setWidth 4)

/-- The destination of a cpy or gath (R309). -/
def decDst (opt : BitVec 18) : Option EngDst :=
  if opt = 0 then some .mem
  else if opt.toNat / 2 ^ 17 = 1 ∧ opt.toNat / 2 ^ 8 % 2 ^ 9 = 0 then
    some (.edge (opt.toNat / 2 ^ 7 % 2 == 1) (opt.setWidth 7))
  else none

/-- The optional key slot of an inst or stage (R348). -/
def decKey (opt : BitVec 18) : Option (Option (BitVec 4)) :=
  if opt = 0 then some none
  else if opt.toNat / 2 ^ 8 = 1 ∧ opt.toNat / 2 ^ 4 % 2 ^ 4 = 0 then some (some (opt.setWidth 4))
  else none

/-- An element format that sum, max and min take (R312). -/
def collFmtOk (fmt : BitVec 4) : Bool := decide (1 ≤ fmt.toNat ∧ fmt.toNat ≤ 9)

/-- The collectives (R312). -/
def decColl (f : FmtS) : Option Instr :=
  if f.opt.toNat / 2 ^ 7 ≠ 0 then none else
  let fmt : BitVec 4 := f.opt.setWidth 4
  (decHandle f).bind fun h =>
  (match f.opt.toNat / 2 ^ 4 % 8 with
    | 2 => need (f.sb == 0) CollScope.gang
    | 5 => some CollScope.domain
    | _ => none).bind fun sc =>
  match f.fn.toNat with
  | 0 => need (collFmtOk fmt) (.collSum fmt sc f.sd h f.dr f.sa f.sb)
  | 1 => need (collFmtOk fmt) (.collMax fmt sc f.sd h f.dr f.sa f.sb)
  | 2 => need (collFmtOk fmt) (.collMin fmt sc f.sd h f.dr f.sa f.sb)
  | 3 => some (.collGather fmt sc f.sd h f.dr f.sa f.sb)
  | 4 => some (.collBcast fmt sc f.sd h f.dr f.sa f.sb)
  | _ => none

/-- System register words (R398). -/
def decSys (f : FmtY) (k : SysReg → Instr) : Option Instr :=
  if f.fn = 0 ∧ f.imm.toNat < 2 ^ 12 then (sysRegOf f.imm.toNat).map k else none

/-- A system word with only an immediate of 16 bits (R399, R417). -/
def decCode (f : FmtY) (k : BitVec 16 → Instr) : Option Instr :=
  need (f.fn == 0 && f.sd == 0 && f.sa == 0 && decide (f.imm.toNat < 2 ^ 16)) (k (f.imm.setWidth 16))

/-- A system word without operands (R221, R222, R418). -/
def decBare (f : FmtY) (i : Instr) : Option Instr := need (f.fn == 0 && f.sd == 0 && f.sa == 0 && f.imm == 0) i

/-- A control word without its guard: opcode, function and reserved bits (R48, R51). -/
def decOp (w : Word) : Option Instr :=
  let r := getR w
  let i := getI w
  let b := getB w
  let s := getS w
  let y := getY w
  match (fld w 56 8).toNat with
  | 0x01 => decInt r
  | 0x02 => decImm i (.addi i.sd i.sa i.imm)
  | 0x03 => decImm i (.andi i.sd i.sa i.imm)
  | 0x04 => decImm i (.ori i.sd i.sa i.imm)
  | 0x05 => decImm i (.xori i.sd i.sa i.imm)
  | 0x06 => decShift i (.shli i.sd i.sa)
  | 0x07 => decShift i (.shri i.sd i.sa)
  | 0x08 => decShift i (.srai i.sd i.sa)
  | 0x09 => decImm i (.slti i.sd i.sa i.imm)
  | 0x0A => if i.sa = 0 then decImm i (.li i.sd i.imm) else none
  | 0x0B => decImm i (.lhi i.sd i.sa i.imm)
  | 0x0C => decCmp r
  | 0x0D => decCmpi i
  | 0x0E => decPlog r
  | 0x20 => decJump b .j
  | 0x21 => decJump b .jal
  | 0x22 => need (r.sd == 0 && r.sb == 0 && r.sc == 0 && r.fn == 0 && r.low == 0) (.jr r.sa)
  | 0x23 => need (r.sb == 0 && r.sc == 0 && r.fn == 0 && r.low == 0) (.jalr r.sd r.sa)
  | 0x24 => if b.low = 0 then (condOf b.cond.toNat).map fun c => .bcc c b.sa b.sb b.off else none
  | 0x25 => need (b.sb == 0 && b.cond == 0 && b.low == 0) (.loop b.sa b.off)
  | 0x30 => decLoad i
  | 0x31 => need (i.fn == 0) (.st (sizeOf i.sz.toNat) i.sd i.sa i.imm)
  | 0x32 => if r.sc = 0 ∧ r.low = 0 then (decScope r.fn.toNat).map fun c => .ldv c r.sd r.sa r.sb else none
  | 0x33 => if r.sd = 0 ∧ r.sc = 0 ∧ r.low = 0 then (decScope r.fn.toNat).map fun c => .stv c r.sa r.sb else none
  | 0x34 => need (r.sd == 0 && r.sc == 0 && r.fn == 0 && r.low == 0) (.vrcl r.sa r.sb)
  | 0x35 => decAmo r
  | 0x36 => decFence y
  | 0x37 => need (i.fn == 0 && i.sd == 0 && i.sz == 0) (.pfch i.sa i.imm)
  | 0x50 => need (s.sb == 0 && s.q == 0 && s.fn == 0 && s.opt == 0) (.cfgld s.sd s.dr s.sa)
  | 0x51 => need (s.sa == 0 && s.sb == 0 && s.dr == 0 && s.q == 0 && s.fn == 0 && s.opt == 0) (.cfgarm s.sd)
  | 0x52 => need (s.sa == 0 && s.sb == 0 && s.dr == 0 && s.q == 0 && s.fn == 0 && s.opt == 0) (.cfgsw s.sd)
  | 0x53 =>
    if s.sa = 0 ∧ s.sb = 0 ∧ s.dr = 0 ∧ s.q = 0 ∧ s.fn = 0 then
      match s.opt.toNat with
      | 0 => some (.sdrain s.sd)
      | 1 => some (.sdrainGo s.sd)
      | _ => none
    else none
  | 0x54 =>
    if s.sd = 0 ∧ s.sb = 0 then
      match s.fn.toNat with
      | 0 => need (decide (s.opt.toNat < 2)) (.sbindRd s.q s.dr s.sa (s.opt == 1))
      | 1 => need (s.opt == 0) (.sbindWr s.q s.dr s.sa)
      | _ => none
    else none
  | 0x55 =>
    if s.sd = 0 ∧ s.sa = 0 ∧ s.sb = 0 ∧ s.dr = 0 ∧ s.fn = 0 then
      match s.opt.toNat with
      | 0 => some (.sbar (.port s.q))
      | 1 => need (s.q == 0) (.sbar .all)
      | _ => none
    else none
  | 0x56 => need (s.sa == 0 && s.sb == 0 && s.dr == 0 && s.fn == 0 && s.opt == 0) (.seos s.sd s.q)
  | 0x57 =>
    if s.sd = 0 ∧ s.dr = 0 then
      match s.fn.toNat with
      | 0 => need (decide (s.opt.toNat < 32))
          (.tinjData s.q s.sa s.sb (s.opt.setWidth 4) (decide (16 ≤ s.opt.toNat)))
      | 1 => need (s.q == 0 && s.opt == 0) (.tinjThread s.sa s.sb)
      | _ => none
    else none
  | 0x58 => need (s.sa == 0 && s.sb == 0 && s.dr == 0 && s.q == 0 && s.fn == 0 && s.opt == 0) (.mark s.sd)
  | 0x59 => need (s.sa == 0 && s.sb == 0 && s.dr == 0 && s.fn == 0 && s.opt == 0) (.sstat s.sd s.q)
  | 0x60 => decTmap s
  | 0x61 =>
    if s.fn = 0 then
      (decHandle s).bind fun h => (decDst s.opt).map fun d => .cpy s.sd h s.dr s.sa s.sb d
    else none
  | 0x62 =>
    if s.fn = 0 then
      (decHandle s).bind fun h => (decDst s.opt).map fun d => .gath s.sd h s.dr s.sa s.sb d
    else none
  | 0x63 => if s.fn = 0 ∧ s.opt = 0 then (decHandle s).map fun h => .scat s.sd h s.dr s.sa s.sb else none
  | 0x64 => need (s.q == 0 && s.fn == 0 && s.opt == 0) (.publ s.sd s.dr s.sa s.sb)
  | 0x65 =>
    if s.fn = 0 then
      (decHandle s).bind fun h => (decKey s.opt).map fun k => .inst s.sd h s.dr s.sa s.sb k
    else none
  | 0x66 =>
    if s.fn = 0 ∧ s.sa = 0 then
      (decHandle s).bind fun h => (decKey s.opt).map fun k => .stage s.sd h s.dr s.sb k
    else none
  | 0x67 => if s.fn = 0 ∧ s.opt = 0 ∧ s.dr = 0 then (decHandle s).map fun h => .rstr s.sd h s.sa s.sb else none
  | 0x68 => decColl s
  | 0x70 =>
    if r.sd = 0 ∧ r.sb = 0 ∧ r.sc = 0 ∧ r.low = 0 then
      match r.fn.toNat with
      | 0 => some (.twait r.sa)
      | 1 => some (.twaitRel r.sa)
      | _ => none
    else none
  | 0x71 => need (r.sd == 0 && r.fn == 0 && r.low == 0) (.bmwait r.sa r.sb r.sc)
  | 0x72 => decBare y .gbar
  | 0x73 => need (y.fn == 0 && y.sd == 0 && y.sa == 0 && decide (y.imm.toNat < 256)) (.sig (y.imm.setWidth 8))
  | 0x74 =>
    if s.sb = 0 ∧ s.q = 0 ∧ s.opt = 0 then
      match s.fn.toNat with
      | 0 => some (.rwaitFill s.sd s.dr s.sa)
      | 1 => some (.rwaitFree s.sd s.dr s.sa)
      | _ => none
    else none
  | 0x75 =>
    if s.sb = 0 ∧ s.q = 0 ∧ s.opt = 0 then
      match s.fn.toNat with
      | 0 => some (.radvFill s.sd s.dr s.sa)
      | 1 => some (.radvFree s.sd s.dr s.sa)
      | _ => none
    else none
  | 0x80 => if y.sa = 0 then decSys y (.sysrd y.sd) else none
  | 0x81 => if y.sd = 0 then decSys y fun n => .syswr n y.sa else none
  | 0x82 => decCode y .svc
  | 0x83 => decCode y .trap
  | 0x84 => decBare y .tret
  | 0x85 => decBare y .halt
  | 0x86 =>
    if y.sd = 0 ∧ y.imm = 0 then
      match scopeOf y.fn.toNat with
      | some .sector => some (.tinv .sector y.sa)
      | some .gang => some (.tinv .gang y.sa)
      | some .die => some (.tinv .die y.sa)
      | some .module => some (.tinv .module y.sa)
      | _ => none
    else none
  | 0x87 => need (y.fn == 0 && y.sd == 0 && decide (y.imm.toNat < 4)) (.pwrq (opPointOf y.imm.toNat) y.sa)
  | 0x88 => decBare y .nop
  | _ => none

/-- A control word with its guard; gn set with g = 0 is illegal (R46, R48). -/
def decodeCtl (w : Word) : Option (Guard × Instr) :=
  let g : Guard := ⟨fld w 53 3, fld w 52 1 == 1⟩
  if g.neg ∧ g.g = 0 then none else (decOp w).map fun i => (g, i)

/-! ### Fabric words -/

/-- Width in bits of an element of a format (R90, R91). -/
def fmtWidth (f : BitVec 4) : Nat :=
  match f.toNat with
  | 1 | 2 | 10 | 11 | 13 | 14 => 8
  | 3 | 4 | 8 | 9 => 16
  | 12 => 4
  | _ => 32

/-- The integer formats (R94). -/
def fmtInt (f : BitVec 4) : Bool := decide (1 ≤ f.toNat ∧ f.toNat ≤ 6)

/-- The signed integer formats (R94). -/
def fmtSigned (f : BitVec 4) : Bool := f == 1 || f == 3 || f == 5

/-- The IEEE formats f32, bf16 and f16 (R95). -/
def fmtIeee (f : BitVec 4) : Bool := decide (7 ≤ f.toNat ∧ f.toNat ≤ 9)

/-- Every tag but raw, pred and e8m0 (R70). -/
def fmtNumeric (f : BitVec 4) : Bool := decide (1 ≤ f.toNat ∧ f.toNat ≤ 13)

/-- The opcode a fabric word carries, and its fields (R63). -/
structure FabOp where
  op : BitVec 8
  w : FabW
deriving DecidableEq, Repr

/-- Reading a fabric word (R63). -/
def getF (w : Word) : FabOp :=
  ⟨fld w 56 8, ⟨fld w 52 4, fld w 49 3, fld w 48 1 == 1, fld w 38 10, fld w 28 10, fld w 26 2, fld w 10 16, fld w 0 10⟩⟩

/-- Writing a fabric word (R63). -/
def putF (f : FabOp) : Word :=
  BitVec.ofNat 64 (plc f.op 56 + plc f.w.fmt 52 + plc f.w.rnd 49 + (if f.w.sat then 2 ^ 48 else 0) + plc f.w.t0 38
    + plc f.w.t1 28 + plc f.w.ik 26 + plc f.w.imm 10 + plc f.w.x 0)

/-- The target code that means none (R65). -/
def tgtNone : BitVec 10 := 0x3FF

/-- A target names an exit (R65). -/
def tgtExit (t : BitVec 10) : Bool := decide (512 ≤ t.toNat) && t != tgtNone

/-- A target is none, a slot target, or an exit target with its low bits zero (R65). -/
def tgtOk (t : BitVec 10) : Bool := t == tgtNone || decide (t.toNat < 512) || decide (t.toNat % 4 = 0)

/-- The formats an opcode accepts (R70). -/
def fabFmtOk (op : Nat) (f : BitVec 4) : Bool :=
  if op ≤ 0x16 then
    fmtInt f || ((decide (0x0C ≤ op ∧ op ≤ 0x0F) || op == 0x16) && (f == 0 || f == 15))
  else if op ≤ 0x2F then fmtIeee f
  else if op ≤ 0x33 then f != 15
  else if op = 0x34 then fmtNumeric f
  else if op = 0x35 then fmtInt f
  else if op = 0x36 then fmtIeee f
  else if op ≤ 0x3A then true
  else if op = 0x40 then f == 10 || f == 11 || f == 13 || f == 1 || f == 12 || f == 8 || f == 9 || f == 3
  else if op = 0x42 then f == 8 || f == 10 || f == 13
  else if op = 0x43 then fmtNumeric f
  else if op ≤ 0x57 then f == 0
  else if op ≤ 0x65 then true
  else if op = 0x70 ∨ op = 0x74 then true
  else f == 0

/-- The rounding codes an opcode accepts (R64, R70). -/
def fabRndOk (op : Nat) (r : BitVec 3) : Bool :=
  let free := decide (r.toNat ≤ 5)
  if op = 0x20 ∨ op = 0x21 ∨ op = 0x22 ∨ op = 0x23 ∨ (0x29 ≤ op ∧ op ≤ 0x2E) then free
  else if op = 0x30 ∨ op = 0x31 ∨ op = 0x33 ∨ op = 0x43 then free
  else if op = 0x42 then r == 0 || r == 5
  else r == 0

/-- The saturation codes an opcode accepts (R64, R70). -/
def fabSatOk (op : Nat) (s : Bool) : Bool :=
  let free := op == 0x01 || op == 0x02 || op == 0x05 || op == 0x07 || op == 0x08 || op == 0x09 || op == 0x10
    || decide (0x20 ≤ op ∧ op ≤ 0x23) || decide (0x29 ≤ op ∧ op ≤ 0x2E)
    || op == 0x30 || op == 0x31 || op == 0x33 || op == 0x35 || op == 0x43
  free || !s

/-- The opcode uses operand b (R120 to R137). -/
def arithUsesB (op : Nat) : Bool :=
  decide (op ≤ 0x07) || decide (0x0A ≤ op ∧ op ≤ 0x0E) || decide (0x10 ≤ op ∧ op ≤ 0x12) || op == 0x15 || op == 0x16
    || decide (0x20 ≤ op ∧ op ≤ 0x25) || op == 0x28 || op == 0x2E || op == 0x31 || op == 0x33 || op == 0x34
    || op == 0x37 || op == 0x3A

/-- The bits of imm16 that the format's immediate element needs zero are zero (R67). -/
def immOk (f : BitVec 4) (imm : BitVec 16) : Bool :=
  match f.toNat with
  | 1 => imm == (imm.setWidth 8).signExtend 16
  | 2 | 10 | 11 | 13 | 14 => decide (imm.toNat < 256)
  | 12 => decide (imm.toNat < 16)
  | _ => true

/-- The immediate kind of a word (R67). -/
def fabIkOk (op : Nat) (w : FabW) : Bool :=
  match w.ik.toNat with
  | 0 => w.imm == 0 && !(decide (0x40 ≤ op ∧ op ≤ 0x44) || op == 0x74)
  | 1 => decide (op ≤ 0x3A) && arithUsesB op && op != 0x2E && op != 0x33 && op != 0x37 && immOk w.fmt w.imm
  | 2 => decide (op ≤ 0x3A) && op != 0x31 && immOk w.fmt w.imm
  | _ => decide (0x40 ≤ op ∧ op ≤ 0x44) || (op == 0x74 && immOk w.fmt w.imm)

/-- The pairs that unpk accepts (R132). -/
def unpkOk (src dst : BitVec 4) : Bool :=
  match src.toNat with
  | 1 => dst == 3 || dst == 5 || dst == 8 || dst == 9 || dst == 7
  | 2 => dst == 4 || dst == 6 || dst == 3 || dst == 5 || dst == 8 || dst == 9 || dst == 7
  | 3 => dst == 5 || dst == 7
  | 4 => dst == 6 || dst == 5 || dst == 7
  | 10 | 11 | 12 | 13 => dst == 8 || dst == 9 || dst == 7
  | 14 => dst == 8 || dst == 7
  | 8 | 9 => dst == 7
  | _ => false

/-- The source format field of cvt, pack, unpk and scl (R119). -/
def FabW.srcFmt (w : FabW) : BitVec 4 := w.x.setWidth 4

/-- The part field of pack, unpk and scl (R119). -/
def FabW.part (w : FabW) : Nat := w.x.toNat / 16 % 8

/-- Rows M of a matrix M code (R144). -/
def mRows (c : Nat) : Nat := 16 * 2 ^ c

/-- Tile and M code of an accumulator slot are in range (R144, R151). -/
def tileOk (tile c : Nat) : Bool := decide (c < 3) && decide (tile < 64 / mRows c)

/-- The op-specific field and the targets of a word (R68, R119, R138, R144, R151, R155 to R157, R201, R204 to R210, R321 to R327). -/
def fabXOk (op : Nat) (w : FabW) : Bool :=
  let x := w.x.toNat
  let ws := fmtWidth w.srcFmt
  let wd := fmtWidth w.fmt
  match op with
  | 0x07 | 0x35 => decide (x < 2) && (x == 0 || decide (wd ≤ 16))
  | 0x36 => decide (x < 2) && (x == 0 || w.fmt != 7)
  | 0x15 => decide (x ≤ 5)
  | 0x28 => decide (x ≤ 6)
  | 0x30 => decide (x < 16) && w.srcFmt != 15 && decide (wd ≤ ws) &&
      (!(w.fmt == 0 || w.srcFmt == 0) || (ws == 32 && wd == 32))
  | 0x31 => decide (x < 128) && w.srcFmt != 15 && w.srcFmt != 0 && w.fmt != 0 && decide (wd < ws) && decide (w.part < ws / wd)
  | 0x32 => decide (x < 128) && unpkOk w.srcFmt w.fmt && decide (w.part < wd / ws)
  | 0x33 => decide (x < 128) && w.fmt != 0 && w.srcFmt != 0 && w.srcFmt != 15 && w.srcFmt != 14 &&
      (if wd ≤ ws then w.part == 0 else decide (w.part < wd / ws))
  | 0x38 | 0x39 | 0x3A => decide (x < 16)
  | 0x40 => tileOk (w.imm.toNat % 4) (x / 64 % 4) && decide (w.imm.toNat < 2 ^ 15) &&
      !(decide (512 ≤ x) && (w.fmt == 1 || w.fmt == 3))
  | 0x41 | 0x42 | 0x44 => tileOk (x % 4) (x / 4 % 4) && decide (x < 16) && decide (w.imm.toNat < 64)
  | 0x43 => tileOk (x % 4) (x / 4 % 4) && decide (w.imm.toNat < 64) &&
      (if x / 64 % 2 = 1 then w.t1 == tgtNone && tgtExit w.t0 else decide (x < 64))
  | 0x50 => decide (x < 2)
  | 0x52 | 0x53 => decide (x = 0) && w.t0 != tgtNone
  | 0x57 => decide (x < 2) && w.t0 != tgtNone
  | 0x55 => decide (x = 0) && !tgtExit w.t0 && !tgtExit w.t1
  | 0x56 => decide (x = 0) && w.t0 == tgtNone && w.t1 == tgtNone
  | 0x60 => decide (x < 2)
  | 0x61 => decide (x < 512) && (x / 2 % 2 == 1 || x / 4 == 0) && w.t0 == tgtNone && w.t1 == tgtNone
  | 0x62 => decide (x < 32) && decide (x % 16 ≤ 9)
  | 0x63 | 0x64 => decide (x ≤ 5)
  | 0x65 => decide (x ≤ 5) && w.t1 == tgtNone && decide (w.t0.toNat < 512) && decide (w.t0.toNat % 4 = 3)
  | 0x71 => decide (x = 0) && w.t0 == tgtNone && w.t1 == tgtNone
  | 0x73 => decide (x < 256)
  | 0x74 => decide (x < 32)
  | 0x75 => decide (x < 2) && w.t1 != tgtNone
  | _ => decide (x = 0)

/-- A fabric word keeps every rule that the word alone decides (R64 to R71). -/
def fabOk (op : BitVec 8) (w : FabW) : Bool :=
  fabFmtOk op.toNat w.fmt && fabRndOk op.toNat w.rnd && fabSatOk op.toNat w.sat && fabIkOk op.toNat w &&
    fabXOk op.toNat w && tgtOk w.t0 && tgtOk w.t1 && !(w.t0 == tgtNone && w.t1 != tgtNone)

/-- The instruction of a fabric opcode (R70, R71). -/
def fabOf (op : Nat) (w : FabW) : Option Instr :=
  match op with
  | 0x01 => some (.vadd w)
  | 0x02 => some (.vsub w)
  | 0x03 => some (.vaddsat w)
  | 0x04 => some (.vsubsat w)
  | 0x05 => some (.vmul w)
  | 0x06 => some (.vmulh w)
  | 0x07 => some (.vmad w)
  | 0x08 => some (.vabs w)
  | 0x09 => some (.vneg w)
  | 0x0A => some (.vmin w)
  | 0x0B => some (.vmax w)
  | 0x0C => some (.vand w)
  | 0x0D => some (.vor w)
  | 0x0E => some (.vxor w)
  | 0x0F => some (.vnot w)
  | 0x10 => some (.vshl w)
  | 0x11 => some (.vshr w)
  | 0x12 => some (.vsra w)
  | 0x13 => some (.vclz w)
  | 0x14 => some (.vpopc w)
  | 0x15 => some (.vcmp w)
  | 0x16 => some (.vsel w)
  | 0x20 => some (.fadd w)
  | 0x21 => some (.fsub w)
  | 0x22 => some (.fmul w)
  | 0x23 => some (.ffma w)
  | 0x24 => some (.fmin w)
  | 0x25 => some (.fmax w)
  | 0x26 => some (.fabs w)
  | 0x27 => some (.fneg w)
  | 0x28 => some (.fcmp w)
  | 0x29 => some (.frcp w)
  | 0x2A => some (.frsq w)
  | 0x2B => some (.fsqrt w)
  | 0x2C => some (.fexp2 w)
  | 0x2D => some (.flog2 w)
  | 0x2E => some (.fldx w)
  | 0x2F => some (.fexpo w)
  | 0x30 => some (.cvt w)
  | 0x31 => some (.pack w)
  | 0x32 => some (.unpk w)
  | 0x33 => some (.scl w)
  | 0x34 => some (.amax w)
  | 0x35 => some (.vred w)
  | 0x36 => some (.fred w)
  | 0x37 => some (.vshuf w)
  | 0x38 => some (.vbc w)
  | 0x39 => some (.vrot w)
  | 0x3A => some (.vlane w)
  | 0x40 => some (.mma w)
  | 0x41 => some (.mclr w)
  | 0x42 => some (.mrd w)
  | 0x43 => some (.mdrn w)
  | 0x44 => some (.mnrm w)
  | 0x50 => some (.steer w)
  | 0x51 => some (.merge w)
  | 0x52 => some (.carry w)
  | 0x53 => some (.inv w)
  | 0x54 => some (.join w)
  | 0x55 => some (.fan w)
  | 0x56 => some (.sink w)
  | 0x57 => some (.iter w)
  | 0x60 => some (.mld w)
  | 0x61 => some (.mst w)
  | 0x62 => some (.matm w)
  | 0x63 => some (.mldv w)
  | 0x64 => some (.mstv w)
  | 0x65 => some (.otok w)
  | 0x70 => some (.pin w)
  | 0x71 => some (.pout w)
  | 0x72 => some (.pass w)
  | 0x73 => some (.dly w)
  | 0x74 => some (.const w)
  | 0x75 => some (.eosq w)
  | _ => none

/-- A fabric word: its opcode is assigned and the word keeps the rules that it alone decides (R63 to R71). -/
def decodeFab (w : Word) : Option Instr :=
  let f := getF w
  if fabOk f.op f.w then fabOf f.op.toNat f.w else none

/-! ### The encoder -/

/-- Opcode and fields of a fabric instruction (R70). -/
def fabParts : Instr → Option FabOp
  | .vadd w => some ⟨0x01, w⟩
  | .vsub w => some ⟨0x02, w⟩
  | .vaddsat w => some ⟨0x03, w⟩
  | .vsubsat w => some ⟨0x04, w⟩
  | .vmul w => some ⟨0x05, w⟩
  | .vmulh w => some ⟨0x06, w⟩
  | .vmad w => some ⟨0x07, w⟩
  | .vabs w => some ⟨0x08, w⟩
  | .vneg w => some ⟨0x09, w⟩
  | .vmin w => some ⟨0x0A, w⟩
  | .vmax w => some ⟨0x0B, w⟩
  | .vand w => some ⟨0x0C, w⟩
  | .vor w => some ⟨0x0D, w⟩
  | .vxor w => some ⟨0x0E, w⟩
  | .vnot w => some ⟨0x0F, w⟩
  | .vshl w => some ⟨0x10, w⟩
  | .vshr w => some ⟨0x11, w⟩
  | .vsra w => some ⟨0x12, w⟩
  | .vclz w => some ⟨0x13, w⟩
  | .vpopc w => some ⟨0x14, w⟩
  | .vcmp w => some ⟨0x15, w⟩
  | .vsel w => some ⟨0x16, w⟩
  | .fadd w => some ⟨0x20, w⟩
  | .fsub w => some ⟨0x21, w⟩
  | .fmul w => some ⟨0x22, w⟩
  | .ffma w => some ⟨0x23, w⟩
  | .fmin w => some ⟨0x24, w⟩
  | .fmax w => some ⟨0x25, w⟩
  | .fabs w => some ⟨0x26, w⟩
  | .fneg w => some ⟨0x27, w⟩
  | .fcmp w => some ⟨0x28, w⟩
  | .frcp w => some ⟨0x29, w⟩
  | .frsq w => some ⟨0x2A, w⟩
  | .fsqrt w => some ⟨0x2B, w⟩
  | .fexp2 w => some ⟨0x2C, w⟩
  | .flog2 w => some ⟨0x2D, w⟩
  | .fldx w => some ⟨0x2E, w⟩
  | .fexpo w => some ⟨0x2F, w⟩
  | .cvt w => some ⟨0x30, w⟩
  | .pack w => some ⟨0x31, w⟩
  | .unpk w => some ⟨0x32, w⟩
  | .scl w => some ⟨0x33, w⟩
  | .amax w => some ⟨0x34, w⟩
  | .vred w => some ⟨0x35, w⟩
  | .fred w => some ⟨0x36, w⟩
  | .vshuf w => some ⟨0x37, w⟩
  | .vbc w => some ⟨0x38, w⟩
  | .vrot w => some ⟨0x39, w⟩
  | .vlane w => some ⟨0x3A, w⟩
  | .mma w => some ⟨0x40, w⟩
  | .mclr w => some ⟨0x41, w⟩
  | .mrd w => some ⟨0x42, w⟩
  | .mdrn w => some ⟨0x43, w⟩
  | .mnrm w => some ⟨0x44, w⟩
  | .steer w => some ⟨0x50, w⟩
  | .merge w => some ⟨0x51, w⟩
  | .carry w => some ⟨0x52, w⟩
  | .inv w => some ⟨0x53, w⟩
  | .join w => some ⟨0x54, w⟩
  | .fan w => some ⟨0x55, w⟩
  | .sink w => some ⟨0x56, w⟩
  | .iter w => some ⟨0x57, w⟩
  | .mld w => some ⟨0x60, w⟩
  | .mst w => some ⟨0x61, w⟩
  | .matm w => some ⟨0x62, w⟩
  | .mldv w => some ⟨0x63, w⟩
  | .mstv w => some ⟨0x64, w⟩
  | .otok w => some ⟨0x65, w⟩
  | .pin w => some ⟨0x70, w⟩
  | .pout w => some ⟨0x71, w⟩
  | .pass w => some ⟨0x72, w⟩
  | .dly w => some ⟨0x73, w⟩
  | .const w => some ⟨0x74, w⟩
  | .eosq w => some ⟨0x75, w⟩
  | _ => none

/-- The word of a fabric instruction (R63). -/
def encodeFab (i : Instr) : Option Word := (fabParts i).map putF

/-- A register field of a predicate. -/
def prReg (p : PReg) : Reg := p.setWidth 5

/-- opt of a tmap's source (R297). -/
def tmapOpt (k : Nat) : TmapSrc → BitVec 18
  | .const off => BitVec.ofNat 18 (k * 2 ^ 16 + 2 ^ 15 + off.toNat)
  | .addr _ => BitVec.ofNat 18 (k * 2 ^ 16)

/-- sa of a tmap's source (R297). -/
def tmapSa : TmapSrc → Reg
  | .const _ => 0
  | .addr ra => ra

/-- opt of a cpy or gath (R309). -/
def dstOpt : EngDst → BitVec 18
  | .mem => 0
  | .edge prog slice => BitVec.ofNat 18 (2 ^ 17 + (if prog then 2 ^ 7 else 0) + slice.toNat)

/-- opt of an inst or stage (R348). -/
def keyOpt : Option (BitVec 4) → BitVec 18
  | none => 0
  | some k => BitVec.ofNat 18 (2 ^ 8 + k.toNat)

/-- opt of a coll (R312). -/
def collOpt (fmt : BitVec 4) : CollScope → BitVec 18
  | .gang => BitVec.ofNat 18 (2 * 16 + fmt.toNat)
  | .domain => BitVec.ofNat 18 (5 * 16 + fmt.toNat)

/-- The word of a control instruction under a guard, by the tables of R46 to R56 and the descriptions. -/
def encodeCtl (g : Guard) : Instr → Option Word
  | .add rd ra rb => some (putR 0x01 g ⟨rd, ra, rb, 0, 0, 0⟩)
  | .sub rd ra rb => some (putR 0x01 g ⟨rd, ra, rb, 0, 1, 0⟩)
  | .mul rd ra rb => some (putR 0x01 g ⟨rd, ra, rb, 0, 2, 0⟩)
  | .mulh rd ra rb => some (putR 0x01 g ⟨rd, ra, rb, 0, 3, 0⟩)
  | .mulhn rd ra rb => some (putR 0x01 g ⟨rd, ra, rb, 0, 4, 0⟩)
  | .div rd ra rb => some (putR 0x01 g ⟨rd, ra, rb, 0, 5, 0⟩)
  | .divn rd ra rb => some (putR 0x01 g ⟨rd, ra, rb, 0, 6, 0⟩)
  | .rem rd ra rb => some (putR 0x01 g ⟨rd, ra, rb, 0, 7, 0⟩)
  | .remn rd ra rb => some (putR 0x01 g ⟨rd, ra, rb, 0, 8, 0⟩)
  | .and rd ra rb => some (putR 0x01 g ⟨rd, ra, rb, 0, 9, 0⟩)
  | .or rd ra rb => some (putR 0x01 g ⟨rd, ra, rb, 0, 10, 0⟩)
  | .xor rd ra rb => some (putR 0x01 g ⟨rd, ra, rb, 0, 11, 0⟩)
  | .shl rd ra rb => some (putR 0x01 g ⟨rd, ra, rb, 0, 12, 0⟩)
  | .shr rd ra rb => some (putR 0x01 g ⟨rd, ra, rb, 0, 13, 0⟩)
  | .sra rd ra rb => some (putR 0x01 g ⟨rd, ra, rb, 0, 14, 0⟩)
  | .min rd ra rb => some (putR 0x01 g ⟨rd, ra, rb, 0, 15, 0⟩)
  | .max rd ra rb => some (putR 0x01 g ⟨rd, ra, rb, 0, 16, 0⟩)
  | .minn rd ra rb => some (putR 0x01 g ⟨rd, ra, rb, 0, 17, 0⟩)
  | .maxn rd ra rb => some (putR 0x01 g ⟨rd, ra, rb, 0, 18, 0⟩)
  | .slt rd ra rb => some (putR 0x01 g ⟨rd, ra, rb, 0, 19, 0⟩)
  | .sltn rd ra rb => some (putR 0x01 g ⟨rd, ra, rb, 0, 20, 0⟩)
  | .clz rd ra => some (putR 0x01 g ⟨rd, ra, 0, 0, 0x15, 0⟩)
  | .popc rd ra => some (putR 0x01 g ⟨rd, ra, 0, 0, 0x16, 0⟩)
  | .sel rd p ra rb => some (putR 0x01 g ⟨rd, ra, rb, prReg p, 0x17, 0⟩)
  | .addi rd ra imm => some (putI 0x02 g ⟨rd, ra, 0, 0, imm⟩)
  | .andi rd ra imm => some (putI 0x03 g ⟨rd, ra, 0, 0, imm⟩)
  | .ori rd ra imm => some (putI 0x04 g ⟨rd, ra, 0, 0, imm⟩)
  | .xori rd ra imm => some (putI 0x05 g ⟨rd, ra, 0, 0, imm⟩)
  | .shli rd ra n => some (putI 0x06 g ⟨rd, ra, 0, 0, n.setWidth 32⟩)
  | .shri rd ra n => some (putI 0x07 g ⟨rd, ra, 0, 0, n.setWidth 32⟩)
  | .srai rd ra n => some (putI 0x08 g ⟨rd, ra, 0, 0, n.setWidth 32⟩)
  | .slti rd ra imm => some (putI 0x09 g ⟨rd, ra, 0, 0, imm⟩)
  | .li rd imm => some (putI 0x0A g ⟨rd, 0, 0, 0, imm⟩)
  | .lhi rd ra imm => some (putI 0x0B g ⟨rd, ra, 0, 0, imm⟩)
  | .cmp c pd ra rb => some (putR 0x0C g ⟨prReg pd, ra, rb, 0, BitVec.ofNat 8 c.code, 0⟩)
  | .cmpi c pd ra imm => some (putI 0x0D g ⟨prReg pd, ra, 0, BitVec.ofNat 8 c.code, imm⟩)
  | .pand pd pa pb => some (putR 0x0E g ⟨prReg pd, prReg pa, prReg pb, 0, 0, 0⟩)
  | .por pd pa pb => some (putR 0x0E g ⟨prReg pd, prReg pa, prReg pb, 0, 1, 0⟩)
  | .pxor pd pa pb => some (putR 0x0E g ⟨prReg pd, prReg pa, prReg pb, 0, 2, 0⟩)
  | .pandn pd pa pb => some (putR 0x0E g ⟨prReg pd, prReg pa, prReg pb, 0, 3, 0⟩)
  | .porn pd pa pb => some (putR 0x0E g ⟨prReg pd, prReg pa, prReg pb, 0, 4, 0⟩)
  | .pmov pd pa => some (putR 0x0E g ⟨prReg pd, prReg pa, 0, 0, 5, 0⟩)
  | .pnot pd pa => some (putR 0x0E g ⟨prReg pd, prReg pa, 0, 0, 6, 0⟩)
  | .j off => some (putB 0x20 g ⟨0, 0, 0, 0, off⟩)
  | .jal off => some (putB 0x21 g ⟨0, 0, 0, 0, off⟩)
  | .jr ra => some (putR 0x22 g ⟨0, ra, 0, 0, 0, 0⟩)
  | .jalr rd ra => some (putR 0x23 g ⟨rd, ra, 0, 0, 0, 0⟩)
  | .bcc c ra rb off => some (putB 0x24 g ⟨ra, rb, BitVec.ofNat 4 c.code, 0, off⟩)
  | .loop ra off => some (putB 0x25 g ⟨ra, 0, 0, 0, off⟩)
  | .ld sz rd ra imm => some (putI 0x30 g ⟨rd, ra, BitVec.ofNat 2 sz.code, 0, imm⟩)
  | .ldn sz rd ra imm => some (putI 0x30 g ⟨rd, ra, BitVec.ofNat 2 sz.code, 1, imm⟩)
  | .st sz rv ra imm => some (putI 0x31 g ⟨rv, ra, BitVec.ofNat 2 sz.code, 0, imm⟩)
  | .ldv sc rd ra rb => some (putR 0x32 g ⟨rd, ra, rb, 0, BitVec.ofNat 8 sc.code, 0⟩)
  | .stv sc ra rb => some (putR 0x33 g ⟨0, ra, rb, 0, BitVec.ofNat 8 sc.code, 0⟩)
  | .vrcl ra rb => some (putR 0x34 g ⟨0, ra, rb, 0, 0, 0⟩)
  | .amo o dbl rd ra rb => some (putR 0x35 g ⟨rd, ra, rb, 0, BitVec.ofNat 8 (o.code * 16 + if dbl then 3 else 2), 0⟩)
  | .amoCas dbl rd ra rb rc => some (putR 0x35 g ⟨rd, ra, rb, rc, if dbl then 0x93 else 0x92, 0⟩)
  | .fence sc => some (putY 0x36 g ⟨0, 0, BitVec.ofNat 10 sc.code, 0⟩)
  | .fenceLayer => some (putY 0x36 g ⟨0, 0, 16, 0⟩)
  | .pfch ra imm => some (putI 0x37 g ⟨0, ra, 0, 0, imm⟩)
  | .cfgld rd dr ra => some (putS 0x50 g ⟨rd, ra, 0, dr, 0, 0, 0⟩)
  | .cfgarm rd => some (putS 0x51 g ⟨rd, 0, 0, 0, 0, 0, 0⟩)
  | .cfgsw rd => some (putS 0x52 g ⟨rd, 0, 0, 0, 0, 0, 0⟩)
  | .sdrain rd => some (putS 0x53 g ⟨rd, 0, 0, 0, 0, 0, 0⟩)
  | .sdrainGo rd => some (putS 0x53 g ⟨rd, 0, 0, 0, 0, 0, 1⟩)
  | .sbindRd q dr ra eos => some (putS 0x54 g ⟨0, ra, 0, dr, q, 0, if eos then 1 else 0⟩)
  | .sbindWr q dr ra => some (putS 0x54 g ⟨0, ra, 0, dr, q, 1, 0⟩)
  | .sbar (.port q) => some (putS 0x55 g ⟨0, 0, 0, 0, q, 0, 0⟩)
  | .sbar .all => some (putS 0x55 g ⟨0, 0, 0, 0, 0, 0, 1⟩)
  | .seos rd q => some (putS 0x56 g ⟨rd, 0, 0, 0, q, 0, 0⟩)
  | .tinjData q ra rb tag bcast =>
    some (putS 0x57 g ⟨0, ra, rb, 0, q, 0, BitVec.ofNat 18 (tag.toNat + if bcast then 16 else 0)⟩)
  | .tinjThread ra rb => some (putS 0x57 g ⟨0, ra, rb, 0, 0, 1, 0⟩)
  | .mark rd => some (putS 0x58 g ⟨rd, 0, 0, 0, 0, 0, 0⟩)
  | .sstat rd q => some (putS 0x59 g ⟨rd, 0, 0, 0, q, 0, 0⟩)
  | .tmap dr src => some (putS 0x60 g ⟨0, tmapSa src, 0, dr, 0, 0, tmapOpt 0 src⟩)
  | .tmapPat dr src => some (putS 0x60 g ⟨0, tmapSa src, 0, dr, 0, 0, tmapOpt 1 src⟩)
  | .tmapRing dr src => some (putS 0x60 g ⟨0, tmapSa src, 0, dr, 0, 0, tmapOpt 2 src⟩)
  | .tmapWin dr src => some (putS 0x60 g ⟨0, tmapSa src, 0, dr, 0, 1, tmapOpt 0 src⟩)
  | .tmapCopy dm dn ra => some (putS 0x60 g ⟨0, ra, dn.setWidth 5, dm, 0, 2, 0⟩)
  | .cpy rd dh dm ra rb dst => some (putS 0x61 g ⟨rd, ra, rb, dm, dh.setWidth 7, 0, dstOpt dst⟩)
  | .gath rd dh dm ra rb dst => some (putS 0x62 g ⟨rd, ra, rb, dm, dh.setWidth 7, 0, dstOpt dst⟩)
  | .scat rd dh dm ra rb => some (putS 0x63 g ⟨rd, ra, rb, dm, dh.setWidth 7, 0, 0⟩)
  | .publ rd dr ra rb => some (putS 0x64 g ⟨rd, ra, rb, dr, 0, 0, 0⟩)
  | .inst rd dh dm ra rb key => some (putS 0x65 g ⟨rd, ra, rb, dm, dh.setWidth 7, 0, keyOpt key⟩)
  | .stage rd dh dm rb key => some (putS 0x66 g ⟨rd, 0, rb, dm, dh.setWidth 7, 0, keyOpt key⟩)
  | .rstr rd dh ra rb => some (putS 0x67 g ⟨rd, ra, rb, 0, dh.setWidth 7, 0, 0⟩)
  | .collSum fmt sc rd dh dm ra rb => some (putS 0x68 g ⟨rd, ra, rb, dm, dh.setWidth 7, 0, collOpt fmt sc⟩)
  | .collMax fmt sc rd dh dm ra rb => some (putS 0x68 g ⟨rd, ra, rb, dm, dh.setWidth 7, 1, collOpt fmt sc⟩)
  | .collMin fmt sc rd dh dm ra rb => some (putS 0x68 g ⟨rd, ra, rb, dm, dh.setWidth 7, 2, collOpt fmt sc⟩)
  | .collGather fmt sc rd dh dm ra rb => some (putS 0x68 g ⟨rd, ra, rb, dm, dh.setWidth 7, 3, collOpt fmt sc⟩)
  | .collBcast fmt sc rd dh dm ra rb => some (putS 0x68 g ⟨rd, ra, rb, dm, dh.setWidth 7, 4, collOpt fmt sc⟩)
  | .twait ra => some (putR 0x70 g ⟨0, ra, 0, 0, 0, 0⟩)
  | .twaitRel ra => some (putR 0x70 g ⟨0, ra, 0, 0, 1, 0⟩)
  | .bmwait ra rb rc => some (putR 0x71 g ⟨0, ra, rb, rc, 0, 0⟩)
  | .gbar => some (putY 0x72 g ⟨0, 0, 0, 0⟩)
  | .sig n => some (putY 0x73 g ⟨0, 0, 0, n.setWidth 32⟩)
  | .rwaitFill rd dr ra => some (putS 0x74 g ⟨rd, ra, 0, dr, 0, 0, 0⟩)
  | .rwaitFree rd dr ra => some (putS 0x74 g ⟨rd, ra, 0, dr, 0, 1, 0⟩)
  | .radvFill rd dr ra => some (putS 0x75 g ⟨rd, ra, 0, dr, 0, 0, 0⟩)
  | .radvFree rd dr ra => some (putS 0x75 g ⟨rd, ra, 0, dr, 0, 1, 0⟩)
  | .sysrd rd n => some (putY 0x80 g ⟨rd, 0, 0, BitVec.ofNat 32 n.code⟩)
  | .syswr n ra => some (putY 0x81 g ⟨0, ra, 0, BitVec.ofNat 32 n.code⟩)
  | .svc code => some (putY 0x82 g ⟨0, 0, 0, code.setWidth 32⟩)
  | .trap code => some (putY 0x83 g ⟨0, 0, 0, code.setWidth 32⟩)
  | .tret => some (putY 0x84 g ⟨0, 0, 0, 0⟩)
  | .halt => some (putY 0x85 g ⟨0, 0, 0, 0⟩)
  | .tinv sc ra => some (putY 0x86 g ⟨0, ra, BitVec.ofNat 10 sc.code, 0⟩)
  | .pwrq t ra => some (putY 0x87 g ⟨0, ra, 0, BitVec.ofNat 32 t.code⟩)
  | .nop => some (putY 0x88 g ⟨0, 0, 0, 0⟩)
  | _ => none

/-- The word of an instruction: of a control instruction with an always true guard, or of a fabric instruction; an event has no word. -/
def encode (i : Instr) : Option Word := (encodeCtl ⟨0, false⟩ i).orElse fun _ => encodeFab i

/-- The instruction read from a word of nbits, numbered as the opcode table numbers bits: as a control word, else as a fabric slot word. Both kinds are one 64-bit word stored least significant byte first (R3), so the word's bits are w. -/
def decodeTableWord (nbits w : Nat) : Option Instr :=
  let v : Word := BitVec.ofNat 64 (w % 2 ^ nbits)
  match decodeCtl v with
  | some (_, i) => some i
  | none => decodeFab v

end Sys2Proof
end

