-- ==== Sys2Proof/Config.lean ====
section
/-! DEFINITION. What the spec leaves open: free values as opaque constants without a body, and the values an implementation fixes. No proof can see what they are. -/

namespace Sys2Proof

/-- A firmware image in the reserved area of FS0 (R429): its bytes, signature, security version and decode table. -/
structure Machine.Firmware where
  code : List Byte := []
  sig : List Byte := []
  svn : BitVec 32 := 0
  table : List Byte := []
  tableSig : List Byte := []
  tableRev : BitVec 16 := 0x0003
deriving DecidableEq, Repr

/-- A physical error, or another input of the machine that has no row in the opcode table (R226, R394, R395, R404, R405, R430, R431). An array error and a parity failure wait for the next access that meets them, a configuration-write error for the next load; the others take effect at once. -/
inductive Upset where
  | array (die layer bank row unit : Nat) (bits : BitVec 2) (bit : BitVec 8) (dirty : Bool)
  | parity (die sect lane : Nat)
  | cfgWrite (sid : Nat)
  | cfgActive (sid site : Nat)
  | cfgShadow (sid site : Nat)
  | regs (sid : Nat)
  | granule (g : Nat)
  | staged (page : Nat)
  | accum (sid cell tile : Nat)
  | token (task inst key : Nat)
  | packet (task pkt : Nat)
  | linkDown (m : Nat)
  | linkUp (m : Nat)
  | rangeTable (c : BitVec 8)
  | peerMap (m : Nat) (c : BitVec 8) (page rd wr : Nat)
  | firmware (f : Machine.Firmware)
  | mctpOther (op tag : BitVec 8)
deriving DecidableEq, Repr

/-- Who takes a turn: a control thread by its SECTID, a fabric slot, an event, or a physical error that arrives. -/
inductive Agent where
  | thread (sid : BitVec 8)
  | slot (s : SlotRef)
  | event (i : Instr)
  | upset (u : Upset)
deriving DecidableEq, Repr

/-- One turn of the machine: how many reference cycles pass, and who then acts. -/
structure Turn where
  dt : Nat
  who : Agent
deriving DecidableEq, Repr

/-- The turn taken when the agenda is empty: no rule orders the parties, so it is a free value (R432, R6). DESIGN CHOICE (log 1). -/
opaque Config.nextTurn : Nat → Option Turn

/-- A free 64-bit value, fresh for each value of State.fresh. DESIGN CHOICE (log 2, 9). -/
opaque Config.freeWord : Nat → Word

/-- The engine's estimate behind a promised time, beyond the least of 32 CYC (R305, R432). DESIGN CHOICE (log 2). -/
opaque Config.promiseExtra : Nat → BitVec 32

/-- The frame that the device allocates for a re-stripe, if it finds one (R313). DESIGN CHOICE (log 31). -/
opaque Config.rstrFrame : Nat → Option Word

/-- A pair of digest bytes is signed by the Nelnik key: ML-DSA-87 verification of firmware (R85, R429). DESIGN CHOICE (log 99). -/
opaque Config.mlDsaVerify : List Byte → List Byte → Bool

/-- The ML-DSA-87 signature over a report by the device identity key, which is derived from a fused seed and the firmware's SVN (R396, R430). DESIGN CHOICE (log 99). -/
opaque Config.mlDsaSign : BitVec 32 → List Byte → List Byte

/-- The bytes that a number of a report takes: 0 MODNUM, 1 DOMID, 2 DECREV, 3 CTX, 4 the number of SEALED slots, 5 a slot number in their digest. No rule gives them; the order is the rule's (R396). DEDUCED (log 80). -/
opaque Config.reportWidth : Nat → Nat

/-- The erase block of a stack that the device fills next with programmed pages (R346, R347). DESIGN CHOICE (log 130). -/
opaque Config.flashBlock : Nat → Nat

/-- The delay of a slot by its word, at an operating point, under a decode table of another revision than 0x0003: whole cycles and the ticks of the last (R85, R164). DESIGN CHOICE (log 128). -/
opaque Config.tableDelay : Nat → Nat → Word → Nat × Nat

/-- The CYC that a LOAD takes before its object's bytes are read, a time that no rule states (R384, R432). DESIGN CHOICE (log 116). -/
opaque Config.loadTime : Nat → BitVec 32

/-- The module power over the last 1 ms that a master reads in PWRSTAT (R262). DESIGN CHOICE (log 68). -/
opaque Config.power : Nat → BitVec 16

/-- A chunk of the device certificate (R430, R431). DESIGN CHOICE (log 7). -/
opaque Config.certChunk : Word → Word

/-- The SHA3-512 digest of the boot ROM (R396, R429). DESIGN CHOICE (log 7). -/
opaque Config.bootRomDigest : Pay

/-- The part's device stepping (R72, R87). DESIGN CHOICE (log 7). -/
opaque Config.stepping : BitVec 8

end Sys2Proof
end

