-- ==== Sys2Proof/Machine/State.lean ====
section
/-! DEFINITION. The state of the HX4 as plain data, its value after reset, and the reasons a step can stop. -/

namespace Sys2Proof.Machine

open Sys2Proof

/-! ### Objects, images and configurations -/

/-- A schedule entry (R73). -/
structure SchedE where
  dx : Nat := 0
  dy : Nat := 0
  stage : Nat := 0
  cycle : Nat := 0
  tick : Nat := 0
  chain : Bool := false
  early : Bool := false
  pad : Nat := 0
deriving DecidableEq, Repr

/-- A block: the fields of its header and its words (R60, R61). -/
structure Blk where
  ca : Bool := false
  awc : Bool := false
  scl : Bool := false
  enm1 : Nat := 0
  exits : Nat := 0
  dtrev : Nat := 0
  id : BitVec 32 := 0
  emap : BitVec 32 := 0
  words : List Word := []
deriving DecidableEq, Repr

/-- A route record (R78). -/
structure Route where
  src : Nat := 0
  exit : Nat := 0
  kind : Nat := 0
  dst : Nat := 0
  ent : Nat := 0
  ext : Nat := 0
deriving DecidableEq, Repr

/-- A schedule section of one operating point (R72). -/
structure Sched where
  op : Nat := 0
  gen : Nat := 0
  step : Nat := 0
  dtrev : Nat := 0
  blks : List (List SchedE) := []
deriving DecidableEq, Repr

/-- An image table entry with its blocks, routes and sections (R77). -/
structure Image where
  w : Nat := 1
  h : Nat := 1
  centry : Nat := 0
  qlog : Nat := 4
  phase : BitVec 5 := 0
  opmask : BitVec 4 := 0
  qv : Bool := false
  qent : Nat := 0
  qblk : Nat := 0
  blks : List Blk := []
  routes : List Route := []
  scheds : List Sched := []
deriving DecidableEq, Repr

/-- A sealed object as the loader has read it (R75 to R81, R385). -/
structure Obj where
  va : Word := 0
  size : Nat := 0
  textOff : Nat := 0
  textSize : Nat := 0
  constOff : Nat := 0
  constSize : Nat := 0
  images : List Image := []
  gangs : List (List Nat) := []
  sealDigest : Pay := 0
deriving DecidableEq, Repr

/-- A sector's share of a configuration: the image it belongs to, the activation it takes part in, the captured phase, and the section in force (R223, R225). -/
structure Share where
  gen : Nat := 0
  img : Nat := 0
  image : Image := {}
  phase : BitVec 5 := 0
  op : Nat := 0
  retimed : Bool := false
  sched : List (List SchedE) := []
deriving DecidableEq, Repr

/-- The states of a shadow (R224). -/
inductive ShadowSt where
  | empty | loading | complete | armed
deriving DecidableEq, Repr

/-! ### Tokens and streams -/

/-- Token kinds (R194). -/
inductive TokKind where
  | data | thread | eos | marker | handover | order | drain
deriving DecidableEq, Repr

/-- A token with the parts of its link tag that operations see (R193), and the wave it belongs to (R197). -/
structure Token where
  kind : TokKind := .data
  fmt : BitVec 4 := 0
  pay : Pay := 0
  poison : Bool := false
  replay : Bool := false
  wave : Nat := 0
deriving DecidableEq, Repr

/-- A descriptor: its type tag and image (R45). -/
structure Desc where
  tag : BitVec 4 := 0
  img : Pay := 0
deriving DecidableEq, Repr

/-- A stream binding (R211). -/
structure Bind where
  desc : Desc := {}
  base : Word := 0
  write : Bool := false
  eos : Bool := false
  pos : Nat := 0
  id : Nat := 0
deriving DecidableEq, Repr

/-- A spill-queue entry (R373), and likewise an element held at its fault: got once DATA holds its bytes, with their poison, and the order in which its answer came. -/
structure Spill where
  pos : Nat := 0
  va : Word := 0
  cause : BitVec 8 := 0
  st : Nat := 0
  token : BitVec 32 := 0
  data : Pay := 0
  got : Option Bool := none
  order : Nat := 0
deriving DecidableEq, Repr

/-- A stream port (R211, R215, R367). full: its element held stands there for want of room in the spill queue (R372). -/
structure PortSt where
  act : Option Bind := none
  pend : Option Bind := none
  entry : Option Nat := none
  spill : List Spill := []
  held : Option Spill := none
  full : Bool := false
  eosd : Bool := false
  lastPos : Nat := 0
  stopping : Bool := false
  head : List Token := []
  bars : List Nat := []
deriving DecidableEq, Repr

/-! ### Sectors -/

/-- What a control thread waits for inside a waiting word or a trap (R217, R240, R411). -/
inductive Wait where
  | none
  | until (t : Nat)
  | met (kind n : Nat)
  | done (v : Word)
  | bar (id : Nat) (ports : List Nat)
  | link (t : Nat)
  | record (t : Nat)
  | answer (token : BitVec 32)
deriving DecidableEq, Repr

/-- A held fetch block: the address of its first byte, its bytes as far as they lie in the TEXT section, and the offsets of its poisoned granules (R369, R410). -/
structure FetchBlk where
  base : Nat := 0
  bytes : List Byte := []
  bad : List Nat := []
deriving DecidableEq, Repr

/-- The control thread of a sector (R43, R412); word is the word in execution, which is not fetched again while it waits (R375, R400). barHeld is the wait of an sbar that a notice or a stop has broken into: its address, its drain token and its ports (R213, R244). -/
structure Thread where
  live : Bool := false
  halted : Bool := false
  stopped : Bool := false
  pc : Word := 0
  regs : Tab Word := []
  preds : BitVec 8 := 1
  descs : Tab Desc := []
  cause : BitVec 8 := 0
  ts : Bool := false
  trapPc : Word := 0
  trapVal : Word := 0
  wait : Wait := .none
  notice : Option Nat := none
  answer : Option (Nat × Word) := none
  meets : Tab Nat := []
  markSd : Option Reg := none
  fblk : Option FetchBlk := none
  word : Option Word := none
  barHeld : Option (Word × Nat × List Nat) := none
deriving DecidableEq, Repr

/-- The accumulator store, tile state and phase counter of a compute cell (R12, R142, R104). -/
structure CellSt where
  mant : Tab (BitVec 48) := []
  exp : Tab (BitVec 10) := []
  head : Tab (BitVec 6) := []
  rc : Tab (BitVec 16) := []
  tcw : Tab (BitVec 16) := []
  phase : BitVec 5 := 0
deriving DecidableEq, Repr

/-- A sector (R9, R10): owner tag, thread, chunk bitmap, ports, cells, configurations, logs. -/
structure Sector where
  v : Bool := false
  ctx : BitVec 8 := 0
  lastCtx : Option (BitVec 8) := none
  scrub : Option Nat := none
  task : Nat := 0
  inst : Nat := 0
  s4 : Nat := 0
  s6 : Nat := 0
  ownq : Tab Nat := []
  th : Thread := {}
  flags : BitVec 7 := 0
  phase : BitVec 5 := 0
  count : BitVec 32 := 0
  elogA : Word := 0
  elogX : Word := 0
  bitmap : Tab Bool := []
  chunkOp : Tab Nat := []
  rcache : List Nat := []
  ports : Tab PortSt := []
  cells : Tab CellSt := []
  act : Option Share := none
  shadow : Option Share := none
  shSt : ShadowSt := .empty
  switched : List Nat := []
  stopped : Bool := false
  badSites : List Nat := []
  badShadow : List Nat := []
  busLanes : Tab Nat := []
  busDead : Bool := false
deriving DecidableEq, Repr

/-! ### Tasks and image instances -/

/-- State of an operator between firings: carry and inv (R202), iter (R203), mma with the next group of its A token (R145, R150), outputs not yet sent, whether it has sent its EOS and the inputs on which it has taken one (R234, R235), marker taken (R242), and for a pin the wave it owes its token (R197). -/
structure OpSt where
  st : Nat := 0
  hold : Option Token := none
  k : Nat := 0
  step : Nat := 0
  pos : Nat := 0
  grp : Nat := 0
  panel : List Token := []
  scales : List Token := []
  outq : List (Nat × Token) := []
  eosSent : Bool := false
  eosIn : List Nat := []
  marked : Bool := false
  wait : Option (BitVec 32) := none
  owe : Option Nat := none
deriving DecidableEq, Repr

/-- What a fabric store does when it is released: bytes of scratch, bytes or a version of a page by its translation (R206, R322, R325). -/
inductive StoreKind where
  | bytes (phys : Nat) (data : List (Option Byte))
  | page (idx pw frame off : Nat) (data : List (Option Byte))
  | version (idx pw frame off : Nat) (v : Word)
deriving DecidableEq, Repr

/-- A store held until its wave commits (R29, R269): bad once its transfer is contained or its module was out of reach for too long, due while it waits for that module (R395, R405). slot, unit and aux are the slot that made it and what a fault record names of it; ask is the token of the record that waits while the sector it is mapped to is not held (R370, R381). -/
structure PStore where
  b : BlkRef
  wave : Nat
  owner : Nat
  sid : Nat
  k : StoreKind
  seq : Nat := 0
  port : Option Nat := none
  bad : Bool := false
  due : Option Nat := none
  slot : Nat := 0
  unit : Nat := 0
  aux : BitVec 32 := 0
  blkId : BitVec 32 := 0
  ask : Option (BitVec 32) := none
deriving DecidableEq, Repr

/-- A wave that has fired and not committed: whether its block commits it atomically, its flags by sector, whether a share of it has been released, and the tiles that it has written (R29, R108). -/
structure WaveRec where
  b : BlkRef
  w : Nat
  awc : Bool := false
  flags : Tab (BitVec 7) := []
  released : Bool := false
  tiles : List (Nat × Nat × Nat) := []
deriving DecidableEq, Repr

/-- A thread token on its way from a gate to an entry queue (R79). -/
structure Packet where
  id : Nat
  gate : Nat
  inst : Nat
  img : Nat
  pay : Word
  poison : Bool := false
deriving DecidableEq, Repr

/-- A hand-over that an old owner still owes a new one (R323). -/
structure HandOver where
  sid : Nat
  cell : Nat
  old : Nat
  new : Nat
  seq : Nat
deriving DecidableEq, Repr

/-- The block scheduler's state of a host instance (R190). -/
structure HostSt where
  cands : List Nat := []
  ages : Tab Nat := []
  resident : Option Nat := none
  fired : Nat := 0
  quant : Nat := 0
  chosen : Option Nat := none
deriving DecidableEq, Repr

/-- An image instance (R23, R25, R30): its rectangle, channels, waves, operator states and queues. turns counts the firings of the slots of its lockstep regions (R34, R199). drain says what waits for its quiescence: 1 a cfgsw, 2 an sdrain, 3 a swap of the block scheduler (R191, R230, R232); wasStopped says whether its sources had been stopped before a cfgsw stopped them. -/
structure Inst where
  img : Nat := 0
  w : Nat := 1
  h : Nat := 1
  die : Nat := 0
  ox : Nat := 0
  oy : Nat := 0
  chans : Tab (List Token) := []
  waves : Tab Nat := []
  ops : Tab OpSt := []
  turns : Tab Nat := []
  fill : Tab Nat := []
  free : Tab Nat := []
  qtop : Tab Nat := []
  qlen : Tab Nat := []
  host : Option HostSt := none
  drain : Nat := 0
  wasStopped : Bool := false
  hands : List HandOver := []
  drained : List (Nat × Nat × Nat) := []
deriving DecidableEq, Repr

/-- The stages of a pre-emption (R239). -/
inductive PreSt where
  | none | notice (t : Nat) | threads | markers | snapped
deriving DecidableEq, Repr

/-- The states of a task (R185); failing is a failed task whose sectors are not freed yet (R420). -/
inductive TaskSt where
  | resident | draining | failing | ended | failed | saved
deriving DecidableEq, Repr

/-- A task (R23, R185). -/
structure Task where
  id : Nat
  launch : Nat
  ctx : BitVec 8
  idx : Nat
  st : TaskSt := .resident
  pre : PreSt := .none
  insts : List Inst := []
  nsect : Nat := 0
  stores : List PStore := []
  wrecs : List WaveRec := []
  packets : List Packet := []
  placedAt : Nat := 0
  savedAt : Nat := 0
deriving DecidableEq, Repr

/-- The states of a launch (R184); closing is a launch whose completion version waits for its write (R39). -/
inductive LaunchSt where
  | depwait | ready | running | closing | complete
deriving DecidableEq, Repr

/-- A launch: the fields of its entry (R181) and its progress (R184, R186). Of its dependences those stand in it that are not met yet, those of them whose test waits for a held address (R183, R364), and those whose version a launch behind it in its own queue has created, which are never met (R42, R183). -/
structure Launch where
  id : Nat
  q : Nat
  ctx : BitVec 8
  tcount : Nat := 0
  hslot : Nat := 0
  gang : Nat := 0
  prio : Nat := 0
  param : Word := 0
  cw : Word := 0
  deps : List (Word × Word) := []
  retest : List (Word × Word) := []
  never : List (Word × Word) := []
  host : Nat := 0
  xcnt : Nat := 0
  xbase : Nat := 0
  quant : Nat := 0
  tag : BitVec 32 := 0
  st : LaunchSt := .depwait
  status : BitVec 8 := 0
  next : Nat := 0
  ok : Nat := 0
  isOver : Nat := 0
  failIdx : Option Nat := none
  readyAt : Nat := 0
deriving DecidableEq, Repr

/-- The saved state of one sector of a gang (R247): its scratch bytes and the poisoned granules among them by offset (R246, R410), and the place of its record in the context's save area (R379). wait is the wait that its thread stood in, engs the operations of its engine records in their order (R247). -/
structure SaveRec where
  task : Nat
  s4 : Nat
  ctx : BitVec 8
  cyc : Nat
  sec : Sector
  scratch : List (Nat × Byte) := []
  poison : List Nat := []
  place : Nat := 0
  rem : Option Nat := none
  wait : Wait := .none
  engs : List Nat := []
  refused : List (Nat × Nat × Word) := []
deriving DecidableEq, Repr

/-! ### Engines -/

/-- The kinds of engine operations (R305, R348, R352). -/
inductive EngKind where
  | cpy | gath | scat | rstr | inst | stage
  | coll (f : Nat) (fmt : BitVec 4) (dom : Bool)
deriving DecidableEq, Repr

/-- Where an engine operation writes (R306). -/
inductive EngTo where
  | scratch (off : Nat)
  | edge (prog : Bool) (slice off : Nat)
  | virt (va : Word)
deriving DecidableEq, Repr

/-- The progress of an engine operation. -/
inductive EngSt where
  | running | waiting (token : BitVec 32) | complete | failed
deriving DecidableEq, Repr

/-- An engine operation, install or stage (R305 to R314, R349, R352). The index of its task and the sectors of its gang are noted at issue, since it may outlive its task (R420). dkind is the kind of the pages that its destination has met (R306). A re-stripe that drains holds the accesses of its page (R286); linkAt is the end of a wait for an unreachable module (R395), and contained lists the granules of its shadow whose transfer was contained (R405). stAt is the place of its status word as it was translated at issue: the range-table entry and the page offset (R314, R348). given lists the times that its promise stood at before its gang was saved, which registers may still hold (R249). -/
structure EngOp where
  id : Nat
  kind : EngKind
  sid : Nat
  ctx : BitVec 8
  task : Nat
  s4 : Nat := 0
  tidx : Nat := 0
  parties : Nat := 0
  st : EngSt := .running
  status : BitVec 8 := 0
  desc : Desc := {}
  base : Word := 0
  src : Word := 0
  tgt : EngTo := .scratch 0
  len : Nat := 0
  index : List (BitVec 32) := []
  done : List Nat := []
  shadow : List (Nat × Byte) := []
  promise : Nat := 0
  due : Nat := 0
  given : List Nat := []
  failAddr : Word := 0
  live : Bool := true
  publ : Option (Word × Word) := none
  pubWait : Option (BitVec 32) := none
  order : Nat := 0
  seqn : Nat := 0
  key : Word := 0
  keySlot : Option (BitVec 4) := none
  word : Word := 0
  nremap : Nat := 0
  checked : Bool := false
  result : List Byte := []
  entry : Nat := 0
  pw : BitVec 32 := 0
  frame : Word := 0
  charged : Nat := 0
  started : Bool := false
  replay : List Nat := []
  dkind : Option Nat := none
  draining : Bool := false
  contained : List Nat := []
  linkAt : Option Nat := none
  stAt : Option (Nat × Nat) := none
deriving DecidableEq, Repr

/-! ### Contexts, queues, rails -/

/-- The states of a context (R377). -/
inductive CtxSt where
  | free | active | ending
deriving DecidableEq, Repr

/-- The states of a handle slot (R384). -/
inductive HandleSt where
  | empty | loading | sealed | unloading
deriving DecidableEq, Repr

/-- A run of an HBM frame's backing: the placement, the frame, the length of its page, and the run's offset and bytes. -/
structure Seg where
  pw : Nat
  frame : Nat
  len : Nat
  off : Nat
  n : Nat
deriving DecidableEq, Repr

/-- A handle slot (R384), with the frames that the bytes of its object stand in. -/
structure Handle where
  st : HandleSt := .empty
  obj : Obj := {}
  segs : List Seg := []
deriving DecidableEq, Repr

/-- A range-table entry, its four words as stored (R362). -/
structure RtEnt where
  w0 : Word := 0
  w1 : Word := 0
  w2 : Word := 0
  w3 : Word := 0
deriving DecidableEq, Repr

/-- A ring's registers (R377, R383). -/
structure Ring where
  base : Word := 0
  nlog : Nat := 4
  head : BitVec 16 := 0
  tail : BitVec 16 := 0
deriving DecidableEq, Repr

/-- A record on its way to a ring or in it and unanswered: its words, the ring, its token and what waits for the answer. -/
structure Rec where
  ctx : BitVec 8
  sig : Bool := false
  words : List Word := []
  token : BitVec 32 := 0
  trap : Bool := false
  who : Nat := 0
  q : Nat := 0
  slot : Option SlotRef := none
  sid : Nat := 0
  cause : BitVec 8 := 0
  task : Nat := 0
  posted : Bool := false
deriving DecidableEq, Repr

/-- A context's registers and tables (R377, R384, R386, R244, R346). -/
structure Ctx where
  st : CtxSt := .free
  res : BitVec 8 := 0
  saven : Nat := 0
  sectmax : Nat := 0
  hloc : Bool := false
  poolHLen : Nat := 0
  poolHBase : Nat := 0
  poolFLen : Nat := 0
  poolFBase : Nat := 0
  fr : Ring := {}
  sr : Ring := {}
  svec : BitVec 11 := 0
  fvec : BitVec 11 := 0
  grace : BitVec 8 := 0
  noticeOn : Bool := false
  handles : Tab Handle := []
  keys : Tab (BitVec 256) := []
  rt : Tab RtEnt := []
  allow : BitVec 32 := 0
  left : Nat := 0
  acc : Nat := 0
  accAt : Nat := 0
deriving DecidableEq, Repr

/-- A work queue's registers (R177). -/
structure Wq where
  base : Word := 0
  ctx : BitVec 8 := 0
  qlog : Nat := 4
  weight : Nat := 0
  en : Bool := false
  tail : BitVec 16 := 0
  head : BitVec 16 := 0
  flt : Bool := false
  fcause : BitVec 4 := 0
deriving DecidableEq, Repr

/-- The move states of a rail group (R256). -/
inductive RailSt where
  | steady | raiseV (t : Nat) | swap | hold (t : Nat) | lowerV (t : Nat)
deriving DecidableEq, Repr

/-- A rail group (R253, R260, R172). thrEnd is the end of its throttle after a STRETCH event, heat and excess are the DELAYs that Gamboge has set for its temperature and for the cap (R261, R263). -/
structure Rail where
  cur : Nat := 0
  tgt : Nat := 0
  mv : RailSt := .steady
  pend : Option (Nat × BitVec 8) := none
  res : BitVec 4 := 0
  delay : BitVec 8 := 0
  why : BitVec 2 := 0
  thrEnd : Option Nat := none
  heat : Option (BitVec 8) := none
  excess : Option (BitVec 8) := none
  gwin : Nat := 0
  events : Nat := 0
  winEvent : Bool := false
deriving DecidableEq, Repr

/-! ### Errors, flash, host -/

/-- A bus transfer that failed parity and is being retried (R405); with repair, the swap of a lasting lane in which no transfer is retried (R408). sid is the party whose access it is, a sector below 256; gone says that the party no longer waits for it (R38). -/
structure Retry where
  die : Nat
  sect : Nat
  lanes : List Nat
  tries : Nat
  sid : Nat
  due : Nat
  layer : Nat
  swapping : Bool := false
  failed : Bool := false
  repair : Bool := false
  gone : Bool := false
  line : Nat
deriving DecidableEq, Repr

/-- A site whose events Umber counts (R407): its key and the CYC of its events. -/
structure SiteCnt where
  key : Nat
  times : List Nat
deriving DecidableEq, Repr

/-- A row copy in progress (R408). -/
structure RowCopy where
  die : Nat
  layer : Nat
  bank : Nat
  row : Nat
deriving DecidableEq, Repr

/-- Something the module sends outside. -/
inductive Out where
  | msix (vec : BitVec 11)
  | hostData (m : Master) (data : Option Pay)
  | poisonTlp (m : Master)
  | unsupported (m : Master)
  | regAck (op tag status : BitVec 8) (data : Word)
  | peerReply (m : BitVec 6) (data : Option Pay) (cause : BitVec 8)
deriving DecidableEq, Repr

/-- The ownership of the module (R390, R391). -/
structure Own where
  owner : Nat := 7
  leaseEnd : Nat := 0
  offer : Option (Nat × Nat) := none
deriving DecidableEq, Repr

/-- The register command in progress of RTCMD (R364). -/
structure RtCmd where
  ctx : Nat
  idx : Nat
  ent : RtEnt
deriving DecidableEq, Repr

/-- A staged flash page: its marks (R353, R354), and poison beyond its code's correction (R404). -/
structure Staged where
  checked : Bool := false
  failed : Bool := false
  poison : Bool := false
  held : List Nat := []
  at_ : Nat := 0
  badAt : Word := 0
deriving DecidableEq, Repr

/-- The flash stacks (R345, R346): staged pages; by stack the pages programmed and the spare blocks used; and by stack and erase block the cycles of the block that stands there now. -/
structure Flash where
  staged : Tab Staged := []
  wear : Tab Nat := []
  spares : Tab Nat := []
  worn : Tab Nat := []
  days : Nat := 1826
deriving DecidableEq, Repr

/-- A LOAD in progress: when it goes on, and HSRC, HVA and HDATA as its command found them (R384). -/
structure LoadCmd where
  due : Nat
  src : Word
  va : Word
  data : Word
deriving DecidableEq, Repr

/-- The module registers that stand outside contexts and queues (R364, R384, R386, R388, R393, R394, R396, R428). HREP is 0 at reset, as R384 gives REPORT, though R83 gives BLOCKID of a load report all ones: DESIGN CHOICE (log 131). -/
structure Regs where
  rte : RtEnt := {}
  rtCmd : Option RtCmd := none
  rtCode : BitVec 8 := 0
  hsrc : Word := 0
  hva : Word := 0
  hdata : Word := 0
  hcmd : Option (Nat × Nat) := none
  hload : Option LoadCmd := none
  hcode : BitVec 8 := 0
  hrep : Word := 0
  key : BitVec 256 := 0
  wbase : Tab Word := []
  wcfg : Tab Word := []
  domcfg : Word := 0
  lroute : Tab (BitVec 16) := []
  peermap : Tab Word := []
  attNonce : BitVec 256 := 0
  attCmd : Option (BitVec 8 × Bool × BitVec 256) := none
  attBuf : List Byte := []
  carve : Nat := 64
  carveNow : Nat := 64
  warmCnt : BitVec 32 := 0
  lost : Bool := false
  rstCause : BitVec 4 := 0
  flscrub : Option (Nat × Nat) := none
  svn : BitVec 32 := 0
  bootCode : BitVec 8 := 0
  temp : Tab (BitVec 16) := []
  layerstat : BitVec 12 := 0
  decrev : BitVec 16 := 0x0003
  slope : BitVec 16 := 400
  win : BitVec 8 := 10
  capw : BitVec 16 := 3400
  ballastUs : BitVec 32 := 0
  emerg : Bool := false
  isOver : Bool := false
  ballast : Option Nat := none
  ballastEnd : Nat := 0
  ballastFirst : Bool := false
  resetAt : Nat := 0
deriving DecidableEq, Repr

/-- Boot state (R429, R430): whether the boot that follows a reset is still to come, the images held, the one that the reset has chosen with its result, the fused minimum, and the measurements. -/
structure Boot where
  due : Bool := true
  current : Option Firmware := none
  newer : Option Firmware := none
  chosen : Option Firmware := none
  result : BitVec 8 := 0x01
  minSvn : BitVec 32 := 0
  romDigest : Pay := 0
  fwDigest : Pay := 0
  tabDigest : Pay := 0
deriving DecidableEq, Repr

/-- Umber's state (R407 to R409), and what lies beyond the links: the modules that no port delivers to (R395), and what a peer's tables answer to a context's accesses of a page of 64 KiB, 1 with XLATE_FAULT and 2 with PERMISSION, for reads and writes (R394). -/
structure Umber where
  sites : List SiteCnt := []
  retries : List Retry := []
  copies : List RowCopy := []
  sparesUsed : Tab Nat := []
  retired : List (Nat × Nat × Nat × Nat) := []
  lost : List (Nat × Nat × Nat) := []
  linkDown : List Nat := []
  peers : Tab (Nat × Nat) := []
deriving DecidableEq, Repr

/-- A write to a read-duplicated line that waits for its acknowledgements (R282). -/
structure DupWrite where
  sid : Nat
  ctx : BitVec 8
  idx : Nat
  va : Word
  phys : Nat
  data : List Byte
deriving DecidableEq, Repr

/-- What has been done in this reference cycle, where a rule orders it against other things of the same cycle: a write of OWNCTL (R391), a reset (R425), a request for a rail group (R255), flags of sectors set by a commit (R108), a stretch (R172), a dithered token of a cell's stage (R104). -/
inductive Mark where
  | own (m : Nat)
  | reset (cause : Nat)
  | request (g sid : Nat)
  | commit (sids : List Nat)
  | stretch (sid : Nat)
  | dither (sid cell stage : Nat)
deriving DecidableEq, Repr

/-- The state of the HX4. The comments say which rule names a field; MODEL marks the model's own. -/
structure State where
  -- MODEL: the schedule of coming turns, the counters of free turns and free values
  agenda : List Turn := []
  turn : Nat := 0
  fresh : Nat := 0
  -- MODEL: the sector whose thread acts, the slot that acts
  cur : Nat := 0
  slot : SlotRef := ⟨⟨0, 0, 0, 0, 0⟩, 0⟩
  -- MODEL: physical errors to come, messages sent, the next identity
  upsets : List Upset := []
  outbox : List Out := []
  nextId : Nat := 0
  -- CYC (R18), what this reference cycle has seen; memory (R13 to R16) and poison (R410)
  cyc : Nat := 0
  now : List Mark := []
  mem : Tab Byte := []
  poison : Tab Bool := []
  -- sectors (R9), rail groups (R20), contexts (R376), work queues (R177)
  sectors : Tab Sector := []
  rails : Tab Rail := []
  ctxs : Tab Ctx := []
  wqs : Tab Wq := []
  -- launches, tasks, save records (R184, R185, R247)
  launches : List Launch := []
  tasks : List Task := []
  saves : List SaveRec := []
  turns : Tab (Nat × Nat) := []
  reserving : Option Nat := none
  -- MODEL: a placement opportunity has come and is tried before the next turn (R187)
  placeDue : Bool := false
  -- engines (R305), read-duplicated writes (R282), edge TLBs (R368)
  ops : List EngOp := []
  dups : List DupWrite := []
  edgeTlb : Tab (List (Nat × Nat)) := []
  -- accesses that wait for an unreachable module: who, a host, a peer, a loader, a ring or a queue; the address; the end of the wait (R395)
  linkWaits : List (Nat × Word × Nat) := []
  -- records (R370, R401, R414)
  recs : List Rec := []
  tokenSeq : BitVec 32 := 1
  -- module registers, ownership, flash, boot, recovery, HBM channels asleep and their last use
  regs : Regs := {}
  own : Own := {}
  flash : Flash := {}
  boot : Boot := {}
  umber : Umber := {}
  asleep : Tab Bool := []
  lastUse : Tab Nat := []
  -- MODEL: the CYC from which a sleeping channel that is being woken is awake (R265)
  waking : Tab Nat := []
deriving DecidableEq, Repr

/-- The machine right after power-on reset: every field at the value its rule states (R425 to R428 and the Reset columns); the values that no rule states are named in the assumption log. -/
def State.reset : State := {}

/-- The reasons a step faults. -/
inductive Fault where
  /-- Raised by step when a turn names a fabric slot that the active configuration does not hold: no such unit exists. Safe: the machine stops where the hardware has nothing that could act. -/
  | noSuchSlot
deriving DecidableEq, Repr

/-- The reasons an instruction is refused. -/
inductive Refusal where
  /-- Raised by exec for an instruction without a meaning yet. Safe: nothing can be proved of it. -/
  | notModelled (mnemonic : String)
deriving DecidableEq, Repr

end Sys2Proof.Machine
end

