-- ==== Sys2Proof/Machine/Base.lean ====
section
/-! DEFINITION. The named operations on bytes, memory, poison, sectors, registers and the program counter (R2, R3, R43, R44, R410), and the parts of taking a trap that touch the thread alone (R411, R413). -/

namespace Sys2Proof.Machine

open Sys2Proof

/-! ### Bytes (R3) -/

/-- The n low bytes of a number, least significant first. -/
def bytesOf : Nat → Nat → List Byte
  | 0, _ => []
  | n + 1, v => BitVec.ofNat 8 v :: bytesOf n (v / 256)

/-- The number of a list of bytes, least significant first. -/
def natOf : List Byte → Nat
  | [] => 0
  | b :: t => b.toNat + 256 * natOf t

/-- Bits [lo + n - 1 : lo] of a number. -/
def bitsAt (v lo n : Nat) : Nat := v / 2 ^ lo % 2 ^ n

/-- One bit of a number. -/
def bitAt (v lo : Nat) : Bool := v / 2 ^ lo % 2 == 1

/-- A field of w bits read as signed. -/
def sintOf (v w : Nat) : Int := if v % 2 ^ w < 2 ^ (w - 1) then (v % 2 ^ w : Nat) else ((v % 2 ^ w : Nat) : Int) - (2 ^ w : Nat)

/-- A word of a 64-byte image (R297). -/
def imgWord (p : Pay) (i : Nat) : Word := BitVec.ofNat 64 (p.toNat / 2 ^ (64 * i))

/-- The 64-byte image of eight words. -/
def imgOf (ws : List Word) : Pay := BitVec.ofNat 512 (ws.foldr (fun w acc => w.toNat + 2 ^ 64 * acc) 0)

/-! ### Places: one flat space of physical bytes -/

/-- An HBM byte by stack, channel and offset; HBM fills the places below 2^39 (R15, R281). -/
def hbmAt (stack ch off : Nat) : Nat := (stack * 32 + ch) * 2 ^ 31 + off

/-- A byte of a sector's scratch (R13). -/
def scratchAt (sid off : Nat) : Nat := 2 ^ 40 + sid * 2 ^ 22 + off

/-- A byte of an edge slice's data (R14, R273). -/
def edgeAt (die j off : Nat) : Nat := 2 ^ 41 + (die * 128 + j) * 2 ^ 20 + off

/-- A byte of an edge slice's program (R274). -/
def edgeProgAt (die j off : Nat) : Nat := 2 ^ 42 + (die * 128 + j) * 256 + off

/-- A byte of a flash stack's address space (R16, R345). -/
def flashAt (stack off : Nat) : Nat := 2 ^ 43 + stack * 2 ^ 40 + off

/-- A byte of host or peer memory: destination and address (R363). -/
def extAt (dest addr : Nat) : Nat := 2 ^ 64 + dest * 2 ^ 57 + addr

/-! ### Memory -/

/-- What an unlisted byte reads as (R425, R345; log 5). -/
def blank : Byte := 0

/-- One byte of memory. -/
def State.rdByte (s : State) (a : Nat) : Byte := Tab.get blank s.mem a

/-- Memory with one byte written. -/
def State.wrByte (s : State) (a : Nat) (b : Byte) : State := { s with mem := Tab.set blank s.mem a b }

/-- n bytes from an address on. -/
def State.rdBytes (s : State) (a : Nat) : Nat → List Byte
  | 0 => []
  | n + 1 => s.rdByte a :: s.rdBytes (a + 1) n

/-- Bytes written from an address on. -/
def State.wrBytes (s : State) (a : Nat) : List Byte → State
  | [] => s
  | b :: t => (s.wrByte a b).wrBytes (a + 1) t

/-- The canonical form of memory. -/
def State.memWf (s : State) : Bool := Tab.wf blank s.mem

/-- A byte's granule is poisoned (R410). -/
def State.isPoison (s : State) (a : Nat) : Bool := Tab.get false s.poison (a / 64)

/-- Some byte of a run lies in a poisoned granule (R410). -/
def State.poisonIn (s : State) (a n : Nat) : Bool :=
  s.poison.any fun p => p.2 && decide (a < (p.1 + 1) * 64) && decide (p.1 * 64 < a + n)

/-- The granule of a byte poisoned or cleaned. -/
def State.setPoison (s : State) (a : Nat) (b : Bool) : State := { s with poison := Tab.set false s.poison (a / 64) b }

/-- The poison left after a store of n bytes: a granule that the store covers whole is no longer poisoned, a partial write leaves it so (R410). -/
def poisonAfter (p : Tab Bool) (a n : Nat) : Tab Bool :=
  p.filter fun g => !(decide (a ≤ g.1 * 64) && decide ((g.1 + 1) * 64 ≤ a + n))

/-- A store of bytes at one physical run (R410). -/
def State.store (s : State) (a : Nat) (l : List Byte) : State :=
  { s.wrBytes a l with poison := poisonAfter s.poison a l.length }

/-! ### Sectors, contexts, queues, rails -/

/-- A sector by its SECTID (R9). -/
def State.sec (s : State) (k : Nat) : Sector := Tab.get {} s.sectors k

/-- A sector replaced. -/
def State.setSec (s : State) (k : Nat) (v : Sector) : State := { s with sectors := Tab.put s.sectors k v }

/-- A sector changed. -/
def State.modSec (s : State) (k : Nat) (f : Sector → Sector) : State := s.setSec k (f (s.sec k))

/-- A context (R376). -/
def State.ctx (s : State) (c : BitVec 8) : Ctx := Tab.get {} s.ctxs c.toNat

/-- A context replaced. -/
def State.setCtx (s : State) (c : BitVec 8) (v : Ctx) : State := { s with ctxs := Tab.put s.ctxs c.toNat v }

/-- A context changed. -/
def State.modCtx (s : State) (c : BitVec 8) (f : Ctx → Ctx) : State := s.setCtx c (f (s.ctx c))

/-- A work queue (R177). -/
def State.wq (s : State) (q : Nat) : Wq := Tab.get {} s.wqs q

/-- A work queue replaced. -/
def State.setWq (s : State) (q : Nat) (v : Wq) : State := { s with wqs := Tab.put s.wqs q v }

/-- A rail group: 16 times the die plus k (R20, R260). -/
def State.rail (s : State) (g : Nat) : Rail := Tab.get {} s.rails g

/-- A rail group replaced. -/
def State.setRail (s : State) (g : Nat) (v : Rail) : State := { s with rails := Tab.put s.rails g v }

/-- The rail group of a sector: 16 times its die plus k, where sx div 2 = k mod 4 and sy div 2 = k div 4 (R9, R20). -/
def railOf (sid : Nat) : Nat := sid / 64 * 16 + sid % 8 / 2 + sid % 64 / 8 / 2 * 4

/-- The die of a sector (R9). -/
def dieOf (sid : Nat) : Nat := sid / 64

/-- A port of a sector (R211). -/
def Sector.port (x : Sector) (q : Nat) : PortSt := Tab.get {} x.ports q

/-- A port replaced. -/
def Sector.setPort (x : Sector) (q : Nat) (p : PortSt) : Sector := { x with ports := Tab.put x.ports q p }

/-- A compute cell of a sector (R12). -/
def Sector.cell (x : Sector) (c : Nat) : CellSt := Tab.get {} x.cells c

/-- A compute cell replaced. -/
def Sector.setCell (x : Sector) (c : Nat) (v : CellSt) : Sector := { x with cells := Tab.put x.cells c v }

/-- A chunk's completion bit (R13). -/
def Sector.bit (x : Sector) (k : Nat) : Bool := Tab.get false x.bitmap k

/-- A task by its identity. -/
def State.task? (s : State) (t : Nat) : Option Task := s.tasks.find? fun x => x.id == t

/-- A task replaced by its identity. -/
def State.setTask (s : State) (t : Task) : State :=
  { s with tasks := s.tasks.map fun x => if x.id = t.id then t else x }

/-- A launch by its identity. -/
def State.launch? (s : State) (l : Nat) : Option Launch := s.launches.find? fun x => x.id == l

/-- A launch replaced by its identity. -/
def State.setLaunch (s : State) (l : Launch) : State :=
  { s with launches := s.launches.map fun x => if x.id = l.id then l else x }

/-- An engine operation by its identity. -/
def State.op? (s : State) (o : Nat) : Option EngOp := s.ops.find? fun x => x.id == o

/-- An engine operation replaced by its identity. -/
def State.setOp (s : State) (o : EngOp) : State :=
  { s with ops := s.ops.map fun x => if x.id = o.id then o else x }

/-- An engine operation changed. -/
def State.modOp (s : State) (id : Nat) (f : EngOp → EngOp) : State :=
  { s with ops := s.ops.map fun x => if x.id = id then f x else x }

/-- CYC as a 64-bit register (R18). -/
def State.cycW (s : State) : Word := BitVec.ofNat 64 s.cyc

/-- A message sent outside. -/
def State.emit (s : State) (o : Out) : State := { s with outbox := s.outbox ++ [o] }

/-! ### The registers of a control thread (R43 to R45) -/

/-- s0 reads zero; the others read what they hold. -/
def Thread.rdS (t : Thread) (r : Reg) : Word := if r = 0 then 0 else Tab.get 0 t.regs r.toNat

/-- A write to s0 is discarded. -/
def Thread.wrS (t : Thread) (r : Reg) (v : Word) : Thread :=
  if r = 0 then t else { t with regs := Tab.set 0 t.regs r.toNat v }

/-- p0 reads true. -/
def Thread.rdP (t : Thread) (p : PReg) : Bool := p == 0 || t.preds.getLsbD p.toNat

/-- A predicate register file with one bit written. -/
def predSet (v : BitVec 8) (p : PReg) (b : Bool) : BitVec 8 :=
  if b then v ||| (1#8 <<< p.toNat) else v &&& ~~~(1#8 <<< p.toNat)

/-- A write to p0 is discarded. -/
def Thread.wrP (t : Thread) (p : PReg) (b : Bool) : Thread :=
  if p = 0 then t else { t with preds := predSet t.preds p b }

/-- A descriptor register with its tag. -/
def Thread.rdD (t : Thread) (d : DReg) : Desc := Tab.get {} t.descs d.toNat

/-- A descriptor register written. -/
def Thread.wrD (t : Thread) (d : DReg) (v : Desc) : Thread := { t with descs := Tab.set {} t.descs d.toNat v }

/-- The acting thread. -/
def State.th (s : State) : Thread := (s.sec s.cur).th

/-- The thread of a sector changed. -/
def State.modThOf (s : State) (k : Nat) (f : Thread → Thread) : State := s.modSec k fun x => { x with th := f x.th }

/-- The acting thread changed. -/
def State.modTh (s : State) (f : Thread → Thread) : State := s.modThOf s.cur f

/-- A scalar register of the acting thread. -/
def State.rdS (s : State) (r : Reg) : Word := s.th.rdS r

/-- A scalar register of the acting thread written. -/
def State.wrS (s : State) (r : Reg) (v : Word) : State := s.modTh fun t => t.wrS r v

/-- A predicate register of the acting thread. -/
def State.rdP (s : State) (p : PReg) : Bool := s.th.rdP p

/-- A predicate register of the acting thread written. -/
def State.wrP (s : State) (p : PReg) (b : Bool) : State := s.modTh fun t => t.wrP p b

/-- A descriptor register of the acting thread. -/
def State.rdD (s : State) (d : DReg) : Desc := s.th.rdD d

/-- A descriptor register of the acting thread written. -/
def State.wrD (s : State) (d : DReg) (v : Desc) : State := s.modTh fun t => t.wrD d v

/-- The program counter of the acting thread. -/
def State.pc (s : State) : Word := s.th.pc

/-- The program counter of the acting thread set; a wait that its word was in is over. -/
def State.setPc (s : State) (v : Word) : State := s.modTh fun t => { t with pc := v, wait := .none, word := none }

/-- The acting thread goes on to the next word; a wait that its word was in is over. -/
def State.advance (s : State) : State := s.modTh fun t => { t with pc := t.pc + 8, wait := .none, word := none }

/-- The acting thread's wait set. -/
def State.setWait (s : State) (w : Wait) : State := s.modTh fun t => { t with wait := w }

/-! ### Traps (R411 to R413) -/

/-- The causes of R413. -/
inductive Cause where
  | illegal | misaligned | fetchFault | xlateFault | permission | versionRetired | promiseMissed | poison
  | handle | regionFault | format | svc | trapInsn | preemptNotice
deriving DecidableEq, Repr

/-- The code of a cause (R413). -/
def Cause.code : Cause → BitVec 8
  | .illegal => 0x01 | .misaligned => 0x02 | .fetchFault => 0x03 | .xlateFault => 0x04 | .permission => 0x05
  | .versionRetired => 0x06 | .promiseMissed => 0x07 | .poison => 0x08 | .handle => 0x09 | .regionFault => 0x0A
  | .format => 0x0B | .svc => 0x0C | .trapInsn => 0x0D | .preemptNotice => 0x0E

/-- How a word's checks and effect can end: done, a trap, or a wait that makes no change (R48, R217). -/
inductive Res (α : Type) where
  | ok (a : α)
  | trap (c : Cause) (v : Word)
  | hold
deriving DecidableEq, Repr

/-- A check after another. -/
def Res.bind {α β : Type} (r : Res α) (f : α → Res β) : Res β :=
  match r with
  | .ok a => f a
  | .trap c v => .trap c v
  | .hold => .hold

/-- A condition that must hold, else a trap. -/
def Res.check (b : Bool) (c : Cause) (v : Word) : Res Unit := if b then .ok () else .trap c v

/-- The sbar that a thread stands in: its address, its drain token and its ports (R213). -/
def Thread.inBar (t : Thread) : Option (Word × Nat × List Nat) :=
  match t.wait with
  | .bar id ports => some (t.pc, id, ports)
  | _ => none

/-- The trap registers written and the thread in trap state: step 1 of R411. An sbar that the trap breaks into goes on when the thread comes back to it (R240). -/
def Thread.enterTrap (t : Thread) (cyc : Nat) (c : Cause) (v : Word) : Thread :=
  { t with cause := c.code, ts := true, trapPc := t.pc, trapVal := v, wait := .record cyc, word := none, barHeld := t.inBar.orElse fun _ => t.barHeld }

/-- The resume point: the next word for SVC and TRAP_INSN, else the trapping word (R411). -/
def Thread.resumePc (t : Thread) : Word :=
  if t.cause = Cause.svc.code ∨ t.cause = Cause.trapInsn.code then t.trapPc + 8 else t.trapPc

end Sys2Proof.Machine
end

