-- ==== Sys2Proof/Machine/Flags.lean ====
section
/-! DEFINITION. The status flags of FLAGS (R107), how a write clears them (R4, R107), and how flags of a wave reach the sectors (R108). -/

namespace Sys2Proof.Machine

open Sys2Proof

/-- A set of the seven flags of R107. -/
abbrev FlagSet := BitVec 7

/-- Invalid. -/
def fNV : FlagSet := 1
/-- An exact infinite result from a finite operand. -/
def fDZ : FlagSet := 2
/-- Overflow. -/
def fOF : FlagSet := 4
/-- Underflow. -/
def fUF : FlagSet := 8
/-- Inexact. -/
def fNX : FlagSet := 16
/-- A saturation limit replaced a result. -/
def fSV : FlagSet := 32
/-- An integer-mode accumulator saturated. -/
def fAOV : FlagSet := 64

/-- No flag. -/
def fNone : FlagSet := 0

/-- A flag raised under a condition. -/
def fIf (b : Bool) (f : FlagSet) : FlagSet := if b then f else fNone

/-- FLAGS after a write: a written 1 clears its bit (R107 W1C). -/
def flagsWrite (f : FlagSet) (v : Word) : FlagSet := f &&& ~~~(v.setWidth 7)

/-- Flags of one wave gathered for a sector (R108). -/
def gatherFlags (t : Tab FlagSet) (sid : Nat) (f : FlagSet) : Tab FlagSet :=
  Tab.set fNone t sid (Tab.get fNone t sid ||| f)

/-- The gathered flags ORed into FLAGS of each sector at a wave's commit (R108). -/
def State.commitFlags (s : State) (t : Tab FlagSet) : State :=
  t.foldl (fun s p => s.modSec p.1 fun x => { x with flags := x.flags ||| p.2 }) s

end Sys2Proof.Machine
end

