-- ==== Sys2Proof/Machine/Num.lean ====
section
/-! DEFINITION. Numbers bit by bit: decoding an element to its exact value (R94 to R100), rounding an exact value once (R101 to R106), and the conversion of one element (R109 to R111). -/

namespace Sys2Proof.Machine

open Sys2Proof

/-- An exact value: a NaN, an infinity, or a signed multiple of a power of two; m = 0 is a signed zero. -/
inductive Val where
  | nan
  | inf (neg : Bool)
  | fin (neg : Bool) (m : Nat) (e : Int)
deriving DecidableEq, Repr

/-- Floor of the binary logarithm, 0 for 0. -/
def lg (n : Nat) : Nat := Nat.log2 n

/-- 2 to a power, where negative powers read as 1. -/
def pw2 (k : Int) : Nat := 2 ^ k.toNat

/-! ### Format parameters (R95, R97) -/

/-- A float format: fraction bits, least normal exponent, and the code of the largest finite magnitude. -/
structure FloatP where
  p : Nat
  emin : Int
  maxCode : Nat
deriving DecidableEq, Repr

/-- The float formats with sign, exponent and fraction fields. -/
def floatP (f : BitVec 4) : Option FloatP :=
  match f.toNat with
  | 7 => some ⟨23, -126, 0x7F7FFFFF⟩
  | 8 => some ⟨7, -126, 0x7F7F⟩
  | 9 => some ⟨10, -14, 0x7BFF⟩
  | 10 => some ⟨3, -6, 0x7E⟩
  | 11 => some ⟨2, -14, 0x7B⟩
  | 12 => some ⟨1, 0, 0x7⟩
  | _ => none

/-- The width of an element as a number of bits. -/
def fw (f : BitVec 4) : Nat := fmtWidth f

/-- The largest value of an integer format (R94). -/
def intMax (f : BitVec 4) : Int := if fmtSigned f then (2 ^ (fw f - 1) : Nat) - 1 else (2 ^ fw f : Nat) - 1

/-- The least value of an integer format (R94). -/
def intMin (f : BitVec 4) : Int := if fmtSigned f then -((2 ^ (fw f - 1) : Nat) : Int) else 0

/-- The code of an integer in w bits. -/
def intCode (w : Nat) (v : Int) : Nat := (v % ((2 ^ w : Nat) : Int)).toNat

/-- An integer element read as its format reads it (R94, R120 Val). -/
def intVal (f : BitVec 4) (x : Nat) : Int := if fmtSigned f then sintOf x (fw f) else (x % 2 ^ fw f : Nat)

/-! ### mk8 (R99) -/

/-- Bits of an mk8 magnitude code below the marker, for a code that is not zero. -/
def mk8Below (m : Nat) : Nat := lg m

/-- The magnitude of a non-zero mk8 magnitude code in units of 2^-15. -/
def mk8Mag (m : Nat) : Nat :=
  let n := lg m
  let z := 6 - n
  let ew := if z ≤ 4 then 2 else if z = 5 then 1 else 0
  let fwd := n - ew
  let e := if ew = 0 then 0 else m % 2 ^ n / 2 ^ fwd
  let f := m % 2 ^ fwd
  let eb : Int := [-2, 2, -6, 6, -10, 10, -11].getD z 0
  (2 ^ fwd + f) * pw2 (eb + e + 15 - fwd)

/-- The magnitude codes of mk8 in the order of their values: the ranges z = 6, 4, 2, 0, 1, 3, 5. -/
def mk8Order : List Nat :=
  [0x01] ++ (List.range 4).map (· + 0x04) ++ (List.range 16).map (· + 0x10) ++ (List.range 64).map (· + 0x40) ++
    (List.range 32).map (· + 0x20) ++ (List.range 8).map (· + 0x08) ++ [0x02, 0x03]

/-! ### Decoding an element -/

/-- The exact value of a float code. -/
def decodeFloat (f : BitVec 4) (P : FloatP) (x : Nat) : Val :=
  let w := fw f
  let neg := bitAt x (w - 1)
  let mag := x % 2 ^ (w - 1)
  if mag > P.maxCode then
    if f = 10 then .nan
    else if mag % 2 ^ P.p = 0 then .inf neg else .nan
  else
    let ef := mag / 2 ^ P.p
    let fr := mag % 2 ^ P.p
    if ef = 0 then .fin neg fr (P.emin - P.p) else .fin neg (2 ^ P.p + fr) (P.emin - P.p + (ef - 1))

/-- The exact value of an element (R109 Decode). -/
def decodeVal (f : BitVec 4) (x : Nat) : Val :=
  match floatP f with
  | some P => decodeFloat f P x
  | none =>
    if f = 13 then
      if x % 128 = 0 then (if bitAt x 7 then .nan else .fin false 0 0)
      else .fin (bitAt x 7) (mk8Mag (x % 128)) (-15)
    else if f = 14 then (if x % 256 = 255 then .nan else .fin false 1 ((x % 256 : Nat) - 127))
    else
      let v := intVal f x
      .fin (decide (v < 0)) v.natAbs 0

/-- A signalling NaN: the IEEE formats and e5m2 have them (R96, R97). -/
def isSnan (f : BitVec 4) (x : Nat) : Bool :=
  match floatP f with
  | some P => f != 10 && decodeFloat f P x == .nan && !bitAt x (P.p - 1)
  | none => false

/-- The canonical NaN of a format (R96). -/
def canonNan (f : BitVec 4) : Nat :=
  match f.toNat with
  | 7 => 0x7FC00000 | 8 => 0x7FC0 | 9 => 0x7E00 | 10 => 0x7F | 11 => 0x7E | 13 => 0x80 | 14 => 0xFF
  | _ => 0

/-! ### Rounding (R101 to R104) -/

/-- The dither table: the 5-bit bit-reversal (R104). -/
def ditherD (j : Nat) : Nat :=
  j % 2 * 16 + j / 2 % 2 * 8 + j / 4 % 2 * 4 + j / 8 % 2 * 2 + j / 16 % 2

/-- The choice of the higher neighbour for a magnitude a between lo and hi on one scale (R102). -/
def pickHi (rnd : BitVec 3) (neg : Bool) (idx a lo hi : Nat) (loEven : Bool) : Bool :=
  match rnd.toNat with
  | 0 => decide (2 * (a - lo) > hi - lo) || (decide (2 * (a - lo) = hi - lo) && !loEven)
  | 1 => false
  | 2 => neg
  | 3 => !neg
  | 4 => decide (2 * (a - lo) ≥ hi - lo)
  | _ => decide (32 * (a - lo) / (hi - lo) > ditherD (idx % 32))

/-- A magnitude m 2^e rounded to a multiple of 2^q: the multiple, and whether it is exact. -/
def roundGrid (rnd : BitVec 3) (neg : Bool) (idx m : Nat) (e q : Int) : Nat × Bool :=
  if q ≤ e then (m * pw2 (e - q), true)
  else
    let k := pw2 (q - e)
    let n := m / k
    if m % k = 0 then (n, true)
    else (if pickHi rnd neg idx m (n * k) ((n + 1) * k) (n % 2 == 0) then n + 1 else n, false)

/-- A magnitude far below the least exponent of interest replaced by one with the same roundings, so that no operation builds a huge number. -/
def clampLow (m : Nat) (e lim : Int) : Nat × Int :=
  if m ≠ 0 ∧ e + lg m < lim - 64 then (1, lim - 64) else (m, e)

/-- A result's code with its flags. -/
abbrev Coded := Nat × FlagSet

/-- The sign bit of a format at its place. -/
def signAt (f : BitVec 4) (neg : Bool) : Nat := if neg then 2 ^ (fw f - 1) else 0

/-- The outcome of an overflow by destination (R105). -/
def overflowTo (f : BitVec 4) (rnd : BitVec 3) (sat neg : Bool) : Coded :=
  match f.toNat with
  | 10 => if sat then (signAt f neg + 0x7E, fOF ||| fNX ||| fSV) else (0x7F, fOF ||| fNX)
  | 12 => (signAt f neg + 7, fOF ||| fNX ||| fSV)
  | 13 => if sat then (signAt f neg + 3, fOF ||| fNX ||| fSV) else (0x80, fOF ||| fNX)
  | 14 => if sat then (0xFE, fOF ||| fNX ||| fSV) else (0xFF, fOF ||| fNX)
  | _ =>
    match floatP f with
    | none => (intCode (fw f) (if neg then intMin f else intMax f), fNV)
    | some P =>
      let inf := (P.maxCode / 2 ^ P.p + 1) * 2 ^ P.p
      if sat then (signAt f neg + P.maxCode, fOF ||| fNX ||| fSV)
      else
        let big := match rnd.toNat with
          | 1 => false
          | 2 => neg
          | 3 => !neg
          | _ => true
        (signAt f neg + (if big then inf else P.maxCode), fOF ||| fNX)

/-- The code of a zero (R106). -/
def zeroTo (f : BitVec 4) (neg : Bool) : Coded :=
  if f = 14 then (0, fUF)
  else if (floatP f).isSome then (signAt f neg, fNone)
  else (0, fNone)

/-- A finite non-zero magnitude rounded into a float format with fields (R101 to R106, R109). Tininess after rounding (R95, R124) is the test of R109 for every operation: the magnitude as rounded to the format's own grid lies below its smallest normal number; IEEE 754 may also test the magnitude as it would be rounded with an unbounded exponent. DESIGN CHOICE (log 131). -/
def roundFloat (f : BitVec 4) (P : FloatP) (rnd : BitVec 3) (sat : Bool) (idx : Nat) (neg : Bool) (m0 : Nat) (e0 : Int) : Coded :=
  let (m, e) := clampLow m0 e0 (P.emin - P.p)
  let q := max (e + lg m) P.emin - P.p
  let (n, exact) := roundGrid rnd neg idx m e q
  let steps := (q - (P.emin - P.p)).toNat
  let code := if n < 2 ^ P.p then n else (steps + 1) * 2 ^ P.p + (n - 2 ^ P.p)
  if code > P.maxCode then overflowTo f rnd sat neg
  else if exact then (signAt f neg + code, fNone)
  else if n = 0 then (signAt f neg, fNX ||| fUF)
  else (signAt f neg + code, fNX ||| fIf (code < 2 ^ P.p) fUF)

/-- The neighbours of a magnitude in units of 2^-15 among the mk8 values: code and value of the lower, then of the higher; 128 stands for the virtual neighbour 4096 (R101). -/
def mk8Around : List Nat → Nat → Nat × Nat → (Nat × Nat) × (Nat × Nat)
  | [], _, lo => (lo, (128, 4096 * 2 ^ 15))
  | c :: t, a, lo => if a < mk8Mag c then (lo, (c, mk8Mag c)) else mk8Around t a (c, mk8Mag c)

/-- A finite non-zero magnitude rounded into mk8 (R99, R101 to R106). -/
def roundMk8 (rnd : BitVec 3) (sat : Bool) (idx : Nat) (neg : Bool) (m0 : Nat) (e0 : Int) : Coded :=
  let (m, e) := clampLow m0 e0 (-15)
  if 12 ≤ e + lg m then overflowTo 13 rnd sat neg
  else
    let sc := pw2 (-15 - e)
    let a := m * pw2 (e + 15)
    let (lo, hi) := mk8Around mk8Order (a / sc) (0, 0)
    if a = lo.2 * sc then (signAt 13 neg + lo.1, fNone)
    else
      let hiEven := hi.1 % 2 == 0 && hi.1 != 128
      let loEven := lo.1 % 2 == 0
      if pickHi rnd neg idx a (lo.2 * sc) (hi.2 * sc) (!(hiEven && !loEven)) then
        if hi.1 = 128 then overflowTo 13 rnd sat neg else (signAt 13 neg + hi.1, fNX)
      else if lo.1 = 0 then (0, fNX ||| fUF)
      else (signAt 13 neg + lo.1, fNX)

/-- A finite non-zero magnitude rounded into e8m0 (R100 to R106); a negative one gives NaN with NV (R110). -/
def roundE8m0 (rnd : BitVec 3) (sat : Bool) (idx : Nat) (neg : Bool) (m0 : Nat) (e0 : Int) : Coded :=
  if neg then (0xFF, fNV)
  else
    let (m, e) := clampLow m0 e0 (-127)
    let L := e + lg m
    if L < -127 then
      let k := pw2 (-127 - e)
      if pickHi rnd false idx m 0 k true then (0, fNX) else (0, fNX ||| fUF)
    else
      let lo := 2 ^ lg m
      let c := (L + 127).toNat
      let up := m != lo && pickHi rnd false idx m lo (2 * lo) (c % 2 == 0)
      let code := if up then c + 1 else c
      if code > 254 then overflowTo 14 rnd sat false
      else (code, fIf (m != lo) fNX)

/-- A finite non-zero value rounded to an integer and brought into an integer format with the rules of a float source (R102, R105, R106). -/
def roundInt (f : BitVec 4) (rnd : BitVec 3) (idx : Nat) (neg : Bool) (m0 : Nat) (e0 : Int) : Coded :=
  let (m, e) := clampLow m0 e0 0
  if 70 < e + lg m then overflowTo f rnd false neg
  else
    let (n, exact) := roundGrid rnd neg idx m e 0
    let v : Int := if neg then -(n : Int) else n
    if v < intMin f ∨ intMax f < v then overflowTo f rnd false neg
    else if exact then (intCode (fw f) v, fNone)
    else (intCode (fw f) v, fNX ||| fIf (n == 0) fUF)

/-- An exact value rounded once into a format, with the rules of a float source (R101 to R106, R110). -/
def roundVal (f : BitVec 4) (rnd : BitVec 3) (sat : Bool) (idx : Nat) : Val → Coded
  | .nan => if f = 12 then (0, fNV) else if fmtInt f then (0, fNV) else (canonNan f, fNone)
  | .inf neg =>
    match f.toNat with
    | 7 | 8 | 9 | 11 =>
      match floatP f with
      | some P => (signAt f neg + (P.maxCode / 2 ^ P.p + 1) * 2 ^ P.p, fNone)
      | none => (0, fNone)
    | 12 => (signAt f neg + 7, fOF ||| fSV ||| fNX)
    | 14 => if neg then (0xFF, fNV) else overflowTo f rnd sat neg
    | _ => overflowTo f rnd sat neg
  | .fin neg m e =>
    if m = 0 then zeroTo f neg
    else
      match floatP f with
      | some P => roundFloat f P rnd sat idx neg m e
      | none =>
        if f = 13 then roundMk8 rnd sat idx neg m e
        else if f = 14 then roundE8m0 rnd sat idx neg m e
        else roundInt f rnd idx neg m e

/-- An exact integer brought into an integer format: wrapping, or to the nearest limit with SV (R94, R111). -/
def fitInt (f : BitVec 4) (sat : Bool) (v : Int) : Coded :=
  if sat then
    if intMax f < v then (intCode (fw f) (intMax f), fSV)
    else if v < intMin f then (intCode (fw f) (intMin f), fSV)
    else (intCode (fw f) v, fNone)
  else (intCode (fw f) v, fNone)

/-- The conversion of one element (R109 to R111). -/
def convert (src dst : BitVec 4) (rnd : BitVec 3) (sat : Bool) (idx x : Nat) : Coded :=
  if fmtInt src && fmtInt dst then fitInt dst sat (intVal src x)
  else
    let r := roundVal dst rnd sat idx (decodeVal src x)
    (r.1, r.2 ||| fIf (isSnan src x) fNV)

/-! ### Exact arithmetic on values -/

/-- The sign of a value. -/
def Val.neg : Val → Bool
  | .nan => false
  | .inf n => n
  | .fin n _ _ => n

/-- A value with the opposite sign. -/
def Val.negate : Val → Val
  | .nan => .nan
  | .inf n => .inf !n
  | .fin n m e => .fin (!n) m e

/-- A signed integer multiple of 2^e as a value; zero takes the sign given. -/
def Val.ofInt (z : Bool) (v : Int) (e : Int) : Val := if v = 0 then .fin z 0 0 else .fin (decide (v < 0)) v.natAbs e

/-- The exact product of two values, and whether it is invalid (R125). -/
def Val.mul : Val → Val → Val × Bool
  | .nan, _ => (.nan, false)
  | _, .nan => (.nan, false)
  | .inf a, .inf b => (.inf (a != b), false)
  | .inf a, .fin b m _ => if m = 0 then (.nan, true) else (.inf (a != b), false)
  | .fin b m _, .inf a => if m = 0 then (.nan, true) else (.inf (a != b), false)
  | .fin a m e, .fin b n g => (.fin (a != b) (m * n) (e + g), false)

/-- The exact sum of two finite magnitudes; the sign of a zero sum follows R125. -/
def addFin (rdn : Bool) (a : Bool) (m : Nat) (e : Int) (b : Bool) (n : Nat) (g : Int) : Val :=
  if m = 0 then
    if n = 0 then (if a = b then .fin a 0 0 else .fin rdn 0 0) else .fin b n g
  else if n = 0 then .fin a m e
  else
    let k := min e g
    let x : Int := (m * pw2 (e - k) : Nat)
    let y : Int := (n * pw2 (g - k) : Nat)
    Val.ofInt rdn ((if a then -x else x) + (if b then -y else y)) k

/-- The exact sum of two values, and whether it is invalid (R125). -/
def Val.add (rdn : Bool) : Val → Val → Val × Bool
  | .nan, _ => (.nan, false)
  | _, .nan => (.nan, false)
  | .inf a, .inf b => if a = b then (.inf a, false) else (.nan, true)
  | .inf a, _ => (.inf a, false)
  | _, .inf b => (.inf b, false)
  | .fin a m e, .fin b n g => (addFin rdn a m e b n g, false)

/-- Order of two values that are not NaN: less. -/
def Val.lt : Val → Val → Bool
  | .inf a, .inf b => a && !b
  | .inf a, _ => a
  | _, .inf b => !b
  | .fin a m e, .fin b n g =>
    let k := min e g
    let x : Int := (m * pw2 (e - k) : Nat)
    let y : Int := (n * pw2 (g - k) : Nat)
    decide ((if a then -x else x) < (if b then -y else y))
  | _, _ => false

end Sys2Proof.Machine
end

