-- ==== Sys2Proof/Machine/Operands.lean ====
section
/-! DEFINITION. The operand forms of control words (R44, R47, R50, R53) and of fabric words (R67, R90, R93): immediates, conditions, branch targets, effective addresses, elements of tokens. -/

namespace Sys2Proof

/-- A condition on two values (R53). -/
def Cond.holds (c : Cond) (a b : Word) : Bool :=
  match c with
  | .eq => a == b
  | .ne => a != b
  | .lt => a.slt b
  | .ge => !a.slt b
  | .ltn => a.ult b
  | .gen => !a.ult b
  | .le => !b.slt a
  | .gt => b.slt a
  | .len => !b.ult a
  | .gtn => b.ult a

/-- A number of w bits read as signed. -/
def signedOf (w v : Nat) : Int := if v < 2 ^ (w - 1) then v else (v : Int) - (2 ^ w : Nat)

/-- What an atomic writes, from the old value and the operand, in w bits (R56). -/
def AmoOp.val (o : AmoOp) (w old x : Nat) : Nat :=
  match o with
  | .add => (old + x) % 2 ^ w
  | .and => old &&& x
  | .or => old ||| x
  | .xor => old ^^^ x
  | .min => if signedOf w x < signedOf w old then x else old
  | .max => if signedOf w old < signedOf w x then x else old
  | .minn => Nat.min old x
  | .maxn => Nat.max old x
  | .swap => x

namespace Machine

/-! ### Control words -/

/-- imm32 and off32 are sign-extended (R47, R50). -/
def sx (imm : BitVec 32) : Word := imm.signExtend 64

/-- The target of a taken branch: off32 counts words (R50). -/
def State.branchTo (s : State) (off : BitVec 32) : Word := s.pc + sx off * 8

/-- The effective address of a memory operand: base plus offset (R288, R57). -/
def State.ea (s : State) (ra : Reg) (imm : BitVec 32) : Word := s.rdS ra + sx imm

/-- The bytes of an access size (R46). -/
def szBytes : Size → Nat
  | .b => 1 | .h => 2 | .w => 4 | .d => 8

/-! ### Fabric words -/

/-- The elements of a token in w bits each, in element order (R90). -/
def elemsOf (w : Nat) (p : Pay) : List Nat := (List.range (512 / w)).map fun k => bitsAt p.toNat (w * k) w

/-- The payload with the given elements of w bits, in element order. -/
def payOf (w : Nat) (l : List Nat) : Pay := BitVec.ofNat 512 (l.foldr (fun x acc => x % 2 ^ w + 2 ^ w * acc) 0)

/-- The 16 lanes of a token. -/
def lanesOf (p : Pay) : List Nat := elemsOf 32 p

/-- The same element in every place. -/
def splat (w x : Nat) : Pay := payOf w (List.replicate (512 / w) x)

/-- The immediate element of a format (R67). -/
def immElem (f : BitVec 4) (imm : BitVec 16) : Nat :=
  match f.toNat with
  | 1 => (imm.setWidth 8).toNat
  | 3 => imm.toNat
  | 5 => (imm.signExtend 32).toNat
  | 7 => imm.toNat * 2 ^ 16
  | 10 | 11 | 13 | 14 | 2 => imm.toNat % 256
  | 12 => imm.toNat % 16
  | _ => imm.toNat

/-- An immediate operand: the same in every lane and every packed element (R67). -/
def immPay (f : BitVec 4) (imm : BitVec 16) : Pay := splat (fmtWidth f) (immElem f imm)

/-- The predicate bit of element k of a format of width w (R93). -/
def predBit (w : Nat) (p : Pay) (k : Nat) : Bool := bitAt p.toNat (32 * (k / (32 / w)) + k % (32 / w))

/-- A pred token with one bit per element of width w (R93). -/
def predPay (w : Nat) (l : List Bool) : Pay :=
  payOf 32 ((List.range 16).map fun i =>
    ((l.drop (i * (32 / w))).take (32 / w)).foldr (fun b acc => (if b then 1 else 0) + 2 * acc) 0)

/-- The same predicate in bit 0 of every lane (R203, R210). -/
def predAll (b : Bool) : Pay := splat 32 (if b then 1 else 0)

end Machine

end Sys2Proof
end

