-- ==== Sys2Proof/Machine/Xlate.lean ====
section
/-! DEFINITION. Translation and the places of memory: address classes (R267), range tables (R361 to R363), placement words (R278 to R281), cache homes and their holds (R276, R409), versioned pages (R283, R284), flash reads (R345), entry-queue bytes (R31), and reads and writes at a translated place. -/

namespace Sys2Proof.Machine

open Sys2Proof

/-! ### Placement words (R278 to R281) -/

/-- The set bits of an n-bit mask, lowest first. -/
def maskBits (n m : Nat) : List Nat := (List.range n).filter fun i => bitAt m i

/-- The versioned-page bit. -/
def pwVer (pw : Nat) : Bool := bitAt pw 31
/-- The read-duplicated bit. -/
def pwRdup (pw : Nat) : Bool := bitAt pw 30
/-- The memory kind (R277): 0 HBM, 1 SF, 2 scratch-mapped, 3 host or peer. -/
def pwKind (pw : Nat) : Nat := bitsAt pw 28 2
/-- The cache policy (R279): 0 bypass, 3 resident. -/
def pwPol (pw : Nat) : Nat := bitsAt pw 26 2
/-- The cache-layer mask. -/
def pwLayers (pw : Nat) : Nat := bitsAt pw 23 3
/-- The interleave granule in bytes. -/
def pwGran (pw : Nat) : Nat := 256 * 2 ^ bitsAt pw 20 3
/-- The first channel. -/
def pwChBase (pw : Nat) : Nat := bitsAt pw 15 5
/-- log2 of the channels per stack. -/
def pwChLog (pw : Nat) : Nat := bitsAt pw 12 3
/-- The HBM stack mask. -/
def pwStacks (pw : Nat) : Nat := bitsAt pw 4 8
/-- The die mask. -/
def pwDies (pw : Nat) : Nat := bitsAt pw 0 4

/-- A placement word is valid for its kind (R280). A scratch-mapped word names the die of the mapped sector, which the frame gives. -/
def pwValid (pw : Nat) (frame : Nat) : Bool :=
  let layersOk := pwPol pw == 0 || pwLayers pw != 0
  let verOk := !pwVer pw || (pwKind pw == 0 && !pwRdup pw)
  verOk &&
  match pwKind pw with
  | 0 => pwDies pw != 0 && pwStacks pw != 0 && layersOk && decide (pwChLog pw ≤ 5)
  | 1 => pwDies pw != 0 && layersOk && pwStacks pw == 0 && pwChBase pw == 0 && pwChLog pw == 0
      && decide (6 ≤ bitsAt pw 20 3) && !pwVer pw && !pwRdup pw
  | 2 => pwDies pw == 2 ^ (bitsAt frame 56 8 / 64) && pwPol pw == 0 && pwStacks pw == 0 && pwLayers pw == 0
      && pwChBase pw == 0 && pwChLog pw == 0 && bitsAt pw 20 3 == 0 && !pwVer pw && !pwRdup pw
  | _ => pw == 3 * 2 ^ 28

/-- The stack, channel and channel position of a page offset on an HBM page (R281). -/
def hbmSpot (pw frame o : Nat) : Nat × Nat × Nat :=
  let gb := pwGran pw
  let st := maskBits 8 (pwStacks pw)
  let g := o / gb
  let c := 2 ^ pwChLog pw
  (st.getD (g % st.length) 0, (pwChBase pw + g / st.length % c) % 32, frame + g / (st.length * c) * gb + o % gb)

/-- The byte of an HBM page offset. -/
def hbmPhys (pw frame o : Nat) : Nat :=
  let p := hbmSpot pw frame o
  hbmAt p.1 p.2.1 p.2.2

/-- The byte of an SF page offset: granules striped over the flash stacks of the dies (R281). -/
def sfPhys (pw frame o : Nat) : Nat :=
  let gb := pwGran pw
  let st := maskBits 4 (pwDies pw)
  let g := o / gb
  flashAt (st.getD (g % st.length) 0) (frame + g / st.length * gb + o % gb)

/-- The byte of a page offset by its kind (R281, R363). -/
def pagePhys (pw frame o : Nat) : Nat :=
  match pwKind pw with
  | 0 => hbmPhys pw frame o
  | 1 => sfPhys pw frame o
  | 2 => scratchAt (bitsAt frame 56 8) (bitsAt frame 0 22 + o)
  | _ => extAt (bitsAt frame 57 7) (bitsAt frame 0 57 + o)

/-- The layers of a placement word that are enabled on a die (R281, R409). -/
def State.layersOn (s : State) (die pw : Nat) : List Nat :=
  (maskBits 3 (pwLayers pw)).filter fun i => !bitAt s.regs.layerstat.toNat (3 * die + i)

/-- The cache home of a line of a page: die, layer and bank; none where the line has no home (R281, R409, R423). -/
def State.lineHome (s : State) (pw o : Nat) : Option (Nat × Nat × Nat) :=
  let l := o / 128
  let ds := maskBits 4 (pwDies pw)
  let die := ds.getD (l % ds.length) 0
  let ls := s.layersOn die pw
  if pwPol pw = 0 ∨ ls = [] then none
  else some (die, ls.getD (l / ds.length % ls.length) 0, l / (ds.length * ls.length) % 64)

/-! ### Range-table entries (R362) -/

/-- First virtual address of an entry. -/
def RtEnt.vbase (e : RtEnt) : Nat := bitsAt e.w0.toNat 16 39 * 2 ^ 16
/-- Length of an entry in bytes. -/
def RtEnt.len (e : RtEnt) : Nat := (bitsAt e.w1.toNat 0 24 + 1) * 2 ^ 16
/-- Frame of an entry. -/
def RtEnt.frame (e : RtEnt) : Nat := e.w2.toNat
/-- Placement word of an entry. -/
def RtEnt.pw (e : RtEnt) : Nat := bitsAt e.w3.toNat 0 32
/-- Entry present. -/
def RtEnt.v (e : RtEnt) : Bool := bitAt e.w3.toNat 39
/-- Read permitted. -/
def RtEnt.r (e : RtEnt) : Bool := bitAt e.w3.toNat 38
/-- Write permitted. -/
def RtEnt.w (e : RtEnt) : Bool := bitAt e.w3.toNat 37
/-- Fetch permitted. -/
def RtEnt.x (e : RtEnt) : Bool := bitAt e.w3.toNat 36
/-- A re-stripe is in progress. -/
def RtEnt.mig (e : RtEnt) : Bool := bitAt e.w3.toNat 35

/-- The present entry whose range holds a virtual address (R361 step 1). -/
def findRt (t : Tab RtEnt) (va : Nat) : Option (Nat × RtEnt) :=
  t.find? fun p => p.2.v && decide (p.2.vbase ≤ va) && decide (va < p.2.vbase + p.2.len)

/-- The kinds of access and what they need (R361). -/
inductive Acc where
  | read | write | both | fetch
deriving DecidableEq, Repr

/-- An entry grants an access. -/
def RtEnt.grants (e : RtEnt) : Acc → Bool
  | .read => e.r
  | .write => e.w
  | .both => e.r && e.w
  | .fetch => e.x

/-- A translated place: the entry's index (none for S-space), its placement word and frame, the page offset, and the physical byte. -/
structure Tgt where
  idx : Option Nat := none
  pw : Nat := 0
  frame : Nat := 0
  off : Nat := 0
  phys : Nat := 0
deriving DecidableEq, Repr

/-- The outcome of a translation: a place, a translation fault, a permission fault, or a hold (R361, R364, R409). -/
inductive Xl where
  | ok (t : Tgt)
  | fault
  | perm
  | hold
deriving DecidableEq, Repr

/-- An address is virtual (R267). -/
def isVirt (a : Word) : Bool := decide (a.toNat < 2 ^ 55)

/-- An address is S-space (R267). -/
def isS (a : Word) : Bool := decide (2 ^ 64 - 2 ^ 22 ≤ a.toNat)

/-- The S-space offset of an address (R267). -/
def sOff (a : Word) : Nat := a.toNat % 2 ^ 22

/-- The first scratch offset that the entry queues of an instance reserve (R31). -/
def Inst.queueFloor (i : Inst) : Nat := i.qtop.foldl (fun m p => min m p.2) (2 ^ 22)

/-- The first reserved scratch offset of a sector: the entry queues stand in the sector with index 0 of its instance (R31). -/
def State.queueFloor (s : State) (sid : Nat) : Nat :=
  let x := s.sec sid
  if x.v ∧ x.s6 = 0 then
    match s.task? x.task with
    | some t => ((t.insts[x.inst]?).map Inst.queueFloor).getD (2 ^ 22)
    | none => 2 ^ 22
  else 2 ^ 22

/-- A physical run of n bytes touches reserved entry-queue bytes (R31). -/
def State.reserved (s : State) (phys n : Nat) : Bool :=
  decide (2 ^ 40 ≤ phys ∧ phys < 2 ^ 41) && decide (s.queueFloor ((phys - 2 ^ 40) / 2 ^ 22) < (phys - 2 ^ 40) % 2 ^ 22 + n)

/-- The offset in a page's backing of an access at a page offset: a versioned object's line (R281, R283). -/
def backOff (pw off : Nat) : Nat := if pwVer pw then 8 * (off / 8 * 8) else off

/-- A line is homed in a layer that is being lost, so its accesses are held (R409 step 1). -/
def State.layerHeld (s : State) (pw off : Nat) : Bool :=
  match s.lineHome pw (backOff pw off) with
  | some (d, l, _) => s.umber.lost.any fun x => x.1 == d && x.2.1 == l
  | none => false

/-- A command of the update registers is replacing an entry (R364). -/
def State.rtPending (s : State) (c : BitVec 8) (idx : Nat) : Bool :=
  match s.regs.rtCmd with
  | some k => k.ctx == c.toNat && k.idx == idx
  | none => false

/-- A re-stripe of an entry that runs. -/
def EngOp.restripes (o : EngOp) (c : BitVec 8) (idx : Nat) : Bool := o.kind == .rstr && o.st == .running && o.ctx == c && o.entry == idx

/-- An entry of a context is being replaced, or its page drained for a cut-over, so its accesses are held (R364 step 1, R286 step 2). -/
def State.rtHeld (s : State) (c : BitVec 8) (idx : Nat) : Bool :=
  s.rtPending c idx || s.ops.any fun o => o.restripes c idx && o.draining

/-- The lines of an entry's range that are resident in the cache layers of a die: those of its backing (R279, R283). -/
def RtEnt.residentLines (e : RtEnt) (die : Nat) : Nat :=
  if e.v && pwValid e.pw e.frame && pwPol e.pw == 3 then
    let ds := maskBits 4 (pwDies e.pw)
    match ds.findIdx? fun d => d == die with
    | some i => ((if pwVer e.pw then 8 * e.len else e.len) / 128 + ds.length - 1 - i) / ds.length
    | none => 0
  else 0

/-- An entry with its placement word replaced (R313). -/
def RtEnt.setPw (e : RtEnt) (pw : Nat) : RtEnt := { e with w3 := BitVec.ofNat 64 (e.w3.toNat / 2 ^ 32 * 2 ^ 32 + pw) }

/-- The entries that stand at an index of a context or are accepted to follow there: the one in force, it with the words of the re-stripes that run, and the one of a pending command (R285, R364). -/
def State.entriesAt (s : State) (c : Nat) (idx : Nat) (e : RtEnt) : List RtEnt :=
  e :: ((s.ops.filter fun o => o.restripes (BitVec.ofNat 8 c) idx).map fun o => e.setPw o.pw.toNat) ++
    match s.regs.rtCmd with
    | some k => if k.ctx = c ∧ k.idx = idx then [k.ent] else []
    | none => []

/-- The resident lines that a context's entries hold in a die, each counted at the most that it may come to. -/
def State.residentOf (s : State) (die c : Nat) (x : Ctx) : Nat :=
  (x.rt.foldl (fun n e => n + ((s.entriesAt c e.1 e.2).map fun k => k.residentLines die).foldl max 0) 0) +
    match s.regs.rtCmd with
    | some k => if k.ctx = c ∧ (Tab.find x.rt k.idx).isNone then k.ent.residentLines die else 0
    | none => 0

/-- Resident lines of all contexts fill at most 192 MiB of each die's cache layers (R279), whichever of the accepted words are in force. DEDUCED (log 111). -/
def State.residentOk (s : State) : Bool :=
  (List.range 4).all fun die => decide ((s.ctxs.foldl (fun n c => n + s.residentOf die c.1 c.2) 0) * 128 ≤ 192 * 2 ^ 20)

/-- A range-table entry of a context replaced. -/
def State.setRt (s : State) (c : BitVec 8) (idx : Nat) (e : RtEnt) : State := s.modCtx c fun x => { x with rt := Tab.put x.rt idx e }

/-- MIG set or cleared. -/
def RtEnt.setMig (e : RtEnt) (b : Bool) : RtEnt :=
  { e with w3 := if b then e.w3 ||| 0x800000000 else e.w3 &&& ~~~(0x800000000 : Word) }

/-- A module cannot be reached: its route is empty or its links are down (R393, R395). -/
def State.cutOff (s : State) (m : Nat) : Bool := Tab.get 0 s.regs.lroute m == 0 || s.umber.linkDown.contains m

/-- The key of a page of 64 KiB of a peer, as a context's accesses name it. -/
def peerKey (m : Nat) (c : BitVec 8) (page : Nat) : Nat := (m * 2 ^ 8 + c.toNat) * 2 ^ 39 + page

/-- What a peer module answers to an access of a context of this one: XLATE_FAULT where [56:55] of the address are not zero, else as its own map and tables say, which stand outside this module (R394). Host memory, destination 127, has none. -/
def State.peerSays (s : State) (c : BitVec 8) (e : RtEnt) (off : Nat) (acc : Acc) : Option Xl :=
  let m := bitsAt e.frame 57 7
  let a := bitsAt e.frame 0 57 + off
  if pwKind e.pw ≠ 3 ∨ m = 127 ∨ s.cutOff m then none
  else if 2 ^ 55 ≤ a then some .fault
  else
    let r := Tab.get (0, 0) s.umber.peers (peerKey m c (a / 2 ^ 16))
    match acc with
    | .write => peerXl r.2
    | .both => (peerXl r.1).orElse fun _ => peerXl r.2
    | _ => peerXl r.1
where
  /-- The outcome of a peer's answer. -/
  peerXl : Nat → Option Xl
  | 1 => some .fault
  | 2 => some .perm
  | _ => none

/-- Translation of a virtual address in a context (R361). The page-kind rules of the access are applied by its user. -/
def State.xlateV (s : State) (c : BitVec 8) (va : Nat) (acc : Acc) : Xl :=
  match findRt (s.ctx c).rt va with
  | none => .fault
  | some (idx, e) =>
    if s.rtHeld c idx then .hold
    else if !pwValid e.pw e.frame then .fault
    else
      let off := va - e.vbase
      if !e.grants acc then .perm
      else if pwKind e.pw = 2 ∧ ¬((s.sec (bitsAt e.frame 56 8)).v ∧ (s.sec (bitsAt e.frame 56 8)).ctx = c) then .fault
      else if s.layerHeld e.pw off then .hold
      else (s.peerSays c e off acc).getD <| .ok ⟨some idx, e.pw, e.frame, off, pagePhys e.pw e.frame off⟩

/-- Translation of an address for a sector's thread, nodes or engines (R267, R360, R361). -/
def State.xlate (s : State) (c : BitVec 8) (sid : Nat) (a : Word) (acc : Acc) : Xl :=
  if isS a then .ok { off := sOff a, phys := scratchAt sid (sOff a) }
  else if isVirt a then s.xlateV c a.toNat acc
  else .fault

/-- A place in scratch by address class: S-space or a scratch-mapped page. -/
def Tgt.isScratch (t : Tgt) : Bool := t.idx == none || pwKind t.pw == 2

/-- A place on a versioned page. -/
def Tgt.ver (t : Tgt) : Bool := t.idx != none && pwVer t.pw

/-- A place on an SF page. -/
def Tgt.sf (t : Tgt) : Bool := t.idx != none && pwKind t.pw == 1

/-- A place on a host or peer page. -/
def Tgt.ext (t : Tgt) : Bool := t.idx != none && pwKind t.pw == 3

/-- A place on a read-duplicated page. -/
def Tgt.rdup (t : Tgt) : Bool := t.idx != none && pwRdup t.pw

/-! ### Versioned objects (R283, R284) -/

/-- The backing line of an object: 64 bytes at frame + 8 o. -/
def Tgt.line (t : Tgt) : Nat := hbmPhys t.pw t.frame (8 * (t.off / 8 * 8))

/-- A 64-bit word of memory. -/
def State.rdWord (s : State) (a : Nat) : Word := BitVec.ofNat 64 (natOf (s.rdBytes a 8))

/-- A 64-bit word of memory stored. -/
def State.wrWord (s : State) (a : Nat) (v : Word) : State := s.store a (bytesOf 8 v.toNat)

/-- NEXT of an object's line. -/
def State.vNext (s : State) (line : Nat) : Nat := (s.rdWord line).toNat

/-- FLOOR of an object's line. -/
def State.vFloor (s : State) (line : Nat) : Nat := (s.rdWord (line + 8)).toNat

/-- The stored value of a version. -/
def State.vVal (s : State) (line v : Nat) : Word := s.rdWord (line + 16 + 8 * (v % 4))

/-- The value of the newest existing version, or zero. -/
def State.vNewest (s : State) (line : Nat) : Word :=
  if s.vFloor line < s.vNext line then s.vVal line (s.vNext line - 1) else 0

/-- Four versions are live, so a creation waits (R284). -/
def State.vFull (s : State) (line : Nat) : Bool := decide (4 ≤ s.vNext line - s.vFloor line)

/-- A version created: VAL written, then NEXT advanced (R284). A line moves only whole, so its granule keeps no poison. -/
def State.vCreate (s : State) (line : Nat) (v : Word) : State :=
  let n := s.vNext line
  (s.wrWord (line + 16 + 8 * (n % 4)) v).wrWord line (BitVec.ofNat 64 (n + 1))

/-- Versions below v retired (R284). -/
def State.vRetire (s : State) (line : Nat) (v : Nat) : State :=
  s.wrWord (line + 8) (BitVec.ofNat 64 (max (s.vFloor line) (min v (s.vNext line))))

/-! ### Flash pages (R345) -/

/-- The flash page of a physical byte: stack times 2^26 plus page. -/
def flashPage (phys : Nat) : Nat := (phys - 2 ^ 43) / 2 ^ 14

/-- A flash page's staging. -/
def State.staged? (s : State) (page : Nat) : Option Staged := Tab.find s.flash.staged page

/-! ### Reading and writing at a place -/

/-- The place i bytes further: on a page its own placement decides (R281). -/
def Tgt.shift (t : Tgt) (i : Nat) : Tgt :=
  { t with off := t.off + i, phys := if t.idx = none then t.phys + i else pagePhys t.pw t.frame (t.off + i) }

/-- Byte i from a place on, as a control thread, engine or host reads it: a versioned page gives its objects' newest versions, entry-queue bytes read zero (R31, R269, R284). R31 names thread loads and engine reads; a fabric load of them reads zero too. DESIGN CHOICE (log 138). -/
def State.rdTgtByte (s : State) (t : Tgt) (i : Nat) : Byte :=
  if t.ver then
    let o := t.off + i
    let line := hbmPhys t.pw t.frame (8 * (o / 8 * 8))
    BitVec.ofNat 8 ((s.vNewest line).toNat / 2 ^ (8 * (o % 8)))
  else if s.reserved (t.shift i).phys 1 then 0
  else s.rdByte (t.shift i).phys

/-- n bytes from a place on. -/
def State.rdTgt (s : State) (t : Tgt) (n : Nat) : List Byte := (List.range n).map fun i => s.rdTgtByte t i

/-- The bytes a read of n bytes at a place touches are poisoned (R410), or its staged flash page failed its check or is poisoned (R353, R404). -/
def State.tgtPoison (s : State) (t : Tgt) (n : Nat) : Bool :=
  if t.ver then (List.range n).any fun i => s.poisonIn (t.shift i).line 64
  else s.poisonIn t.phys n ||
    (t.sf && match s.staged? (flashPage t.phys) with
      | some p => p.failed || p.poison
      | none => false)

/-- A read must wait: its flash page is not staged (R345). -/
def State.flashHeld (s : State) (t : Tgt) : Bool := t.sf && (s.staged? (flashPage t.phys)).isNone

/-- A writer's own writes to a page are not all performed, so its loads of the page wait (R282). -/
def State.dupHeld (s : State) (c : BitVec 8) (who : Nat) (t : Tgt) : Bool :=
  t.rdup && s.dups.any fun d => d.sid == who && d.ctx == c && some d.idx == t.idx

/-- A control thread's read must wait (R282, R345). -/
def State.readHeld (s : State) (sid : Nat) (t : Tgt) : Bool := s.flashHeld t || s.dupHeld (s.sec sid).ctx sid t

/-- A peer module cannot be reached: its route is empty or its links are down (R393, R395). Host memory, destination 127, is reached over PCIe. -/
def State.unreachable (s : State) (t : Tgt) : Bool :=
  t.ext &&
  decide (bitsAt t.frame 57 7 ≠ 127) && s.cutOff (bitsAt t.frame 57 7)

/-- A plain store at a place: at once, or held for acknowledgements on a read-duplicated page (R269, R276, R282, R289). -/
def State.wrTgt (s : State) (c : BitVec 8) (sid : Nat) (t : Tgt) (l : List Byte) : State :=
  if t.rdup then
    { s with dups := s.dups ++ [⟨sid, c, t.idx.getD 0, BitVec.ofNat 64 t.off, t.phys, l⟩] }
  else s.store t.phys l

/-- Bytes stored where they are given: a whole run as one store, else byte by byte (R410). -/
def State.wrSome (s : State) (a : Nat) (l : List (Option Byte)) : State :=
  if l.all Option.isSome then s.store a (l.filterMap id)
  else l.zipIdx.foldl (fun (s : State) p => match p.1 with
    | some b => s.wrByte (a + p.2) b
    | none => s) s

/-- A place that no plain store reaches: SF pages, versioned pages, entry-queue bytes (R31, R277, R284). -/
def State.storeBarred (s : State) (t : Tgt) (n : Nat) : Bool := t.sf || t.ver || (t.isScratch && s.reserved t.phys n)

end Sys2Proof.Machine
end

