-- ==== Sys2Proof/Machine/ErrOps.lean ====
section
/-! DEFINITION. Errors met by an access: the bus a line travels on (R423), array errors (R404), parity failures and their retries (R405), the count of lasting sites and their repair (R407, R408), the logs (R421, R422, R424), and the wait for a module out of reach (R395). -/

namespace Sys2Proof.Machine

open Sys2Proof

/-! ### Lasting sites (R407) -/

/-- The key of an array row's site. -/
def rowKey (die layer bank row : Nat) : Nat := die * 2 ^ 32 + ((layer * 64 + bank) * 512 + row) * 2

/-- The key of a bus lane's site. -/
def laneKeyOf (die sect lane : Nat) : Nat := die * 2 ^ 32 + (sect * 32 + lane) * 2 + 1

/-- The events of a site that still count at a time (R407). -/
def liveTimes (l : List Nat) (cyc : Nat) : List Nat := l.filter fun t => decide (cyc - t < 940000000)

/-- The site of a die whose latest event is oldest. -/
def oldestSite (l : List SiteCnt) : Option SiteCnt :=
  l.foldl (fun m x => match m with
    | none => some x
    | some y => if x.times.foldl max 0 < y.times.foldl max 0 then some x else some y) none

/-- One event counted at a site: the count it reaches (R407). -/
def State.countSite (s : State) (key : Nat) : Nat × State :=
  let l := s.umber.sites
  match l.find? fun x => x.key == key with
  | some x =>
    let ts := liveTimes x.times s.cyc ++ [s.cyc]
    (ts.length, { s with umber := { s.umber with sites := l.map fun y => if y.key = key then { y with times := ts } else y } })
  | none =>
    let same := l.filter fun y => y.key / 2 ^ 32 == key / 2 ^ 32
    let l' := if same.length < 4096 then l else match oldestSite same with
      | some o => l.filter fun y => y.key != o.key
      | none => l
    (1, { s with umber := { s.umber with sites := l' ++ [({ key := key, times := [s.cyc] } : SiteCnt)] } })

/-- A repaired site starts a new count (R408). -/
def State.clearSite (s : State) (key : Nat) : State :=
  { s with umber := { s.umber with sites := s.umber.sites.filter fun y => y.key != key } }

/-! ### Logs (R421, R422) -/

/-- A log register overwritten; OVF is set if V was set. -/
def elogPut (old : Word) (fields : Nat) : Word :=
  BitVec.ofNat 64 (2 ^ 63 + (if bitAt old.toNat 63 then 2 ^ 62 else 0) + fields)

/-- Sharp limit of a WCNT field. -/
def wcnt (n : Nat) : Nat := min n 7

/-- The party of an engine operation, which a sector has issued. -/
def engWho (id sid : Nat) : Nat := (id + 1) * 2 ^ 32 + sid

/-- The sector on whose behalf a party accesses, if it is below 256 (R424). -/
def whoSid (who : Nat) : Nat := who % 2 ^ 32

/-- An event logged in ELOG_ARRAY of the sector on whose behalf the access was made, if one was (R421, R424). -/
def State.logArray (s : State) (who cls layer bank row unit bits act cnt bit die : Nat) : State :=
  let w :=
    (cls * 2 ^ 60 + layer * 2 ^ 58 + bank * 2 ^ 52 + row % 512 * 2 ^ 43 + unit % 256 * 2 ^ 35 + bits * 2 ^ 33 + act * 2 ^ 30
      + wcnt cnt * 2 ^ 27 + (if bits = 1 then bit % 256 * 2 ^ 18 else 0) + die * 2 ^ 16)
  if whoSid who < 256 then s.modSec (whoSid who) fun x => { x with elogA := elogPut x.elogA w } else s

/-- An event logged in ELOG_XFER of the sector on whose behalf the access was made, if one was (R422, R424). -/
def State.logXfer (s : State) (who cls die sect lane spare tries act cnt used layer : Nat) : State :=
  let w :=
    (cls * 2 ^ 60 + die * 2 ^ 58 + sect * 2 ^ 52 + lane * 2 ^ 47 + spare * 2 ^ 45 + tries * 2 ^ 42 + act * 2 ^ 39
      + wcnt cnt * 2 ^ 36 + used * 2 ^ 34 + layer * 2 ^ 32)
  if whoSid who < 256 then s.modSec (whoSid who) fun x => { x with elogX := elogPut x.elogX w } else s

/-! ### Lanes and columns (R405, R408, R423) -/

/-- The bus column that a line travels on: its bank's sector, or the next of the die whose column is not retired (R423). -/
def State.liveColumn (s : State) (die b : Nat) : Nat :=
  ((List.range 64).map fun k => (b + k) % 64).find? (fun k => !(s.sec (die * 64 + k)).busDead) |>.getD b

/-- The bus of a line of an HBM or SF page and its layer, 3 for a line without a cache home (R423). -/
def State.lineBus (s : State) (t : Tgt) (l : Nat) : Nat × Nat × Nat :=
  match s.lineHome t.pw (l * 128) with
  | some (d, ly, b) => (d, s.liveColumn d b, ly)
  | none =>
    let ds := maskBits 4 (pwDies t.pw)
    let d := ds.getD (l % ds.length) 0
    (d, s.liveColumn d (l / ds.length % 64), 3)

/-- The spare lanes of a sector's bus in use: they are taken from the lowest on. -/
def Sector.lanesUsed (x : Sector) : Nat := x.busLanes.foldl (fun n p => max n p.2) 0

/-- A lane carried by the lowest free spare; none when no spare is free. -/
def Sector.swapLane (x : Sector) (lane : Nat) : Option Sector :=
  if x.lanesUsed < 2 then some { x with busLanes := Tab.put x.busLanes lane (x.lanesUsed + 1) } else none

/-- The lane that failed in the most attempts, the lowest on a tie. -/
def worstLane (l : List Nat) : Nat :=
  let count := fun (k : Nat) => (l.filter fun x => x == k).length
  (List.range 32).foldl (fun m k => if count m < count k then k else m) (l.foldl min 31)

/-- The lanes of a bus whose swap is in progress and takes a spare (R405, R408). -/
def State.lanesSwapping (s : State) (die sect : Nat) : List Nat :=
  (s.umber.retries.filter fun r => r.swapping && !r.failed && r.die == die && r.sect == sect).map fun r => worstLane r.lanes

/-- A bus column retired: no transfer crosses the bus again, so those under retry there start afresh on another (R408, R423). -/
def State.retireColumn (s : State) (die sect : Nat) : State :=
  let s1 := s.modSec (die * 64 + sect) fun x => { x with busDead := true }
  { s1 with umber := { s1.umber with retries := s1.umber.retries.filter fun r => r.failed || r.die != die || r.sect != sect } }

/-- A lasting lane repaired: its swap begins and takes 200 CYC, or its column is retired; nothing is repaired where a spare carries it already, and its count stays (R405, R407, R408). The action code of R422 comes with the state. -/
def State.repairLane (s : State) (die sect lane : Nat) : Nat × State :=
  let x := s.sec (die * 64 + sect)
  let s1 := s.clearSite (laneKeyOf die sect lane)
  let under := s.lanesSwapping die sect
  if (Tab.find x.busLanes lane).isSome ∨ under.contains lane then (0, s)
  else if x.lanesUsed + under.length < 2 then
    let r : Retry := { die := die, sect := sect, lanes := [lane], tries := 0, sid := 256, due := s.cyc + 200, layer := 3, swapping := true, repair := true, line := 0 }
    (1, { s1 with umber := { s1.umber with retries := s1.umber.retries ++ [r] } })
  else (3, s1.retireColumn die sect)

/-- A lasting row repaired: its copy begins, or the row is retired (R408). The action code of R421 comes with the state. -/
def State.repairRow (s : State) (die layer bank row : Nat) : Nat × State :=
  let key := (die * 3 + layer) * 64 + bank
  let used := Tab.get 0 s.umber.sparesUsed key
  let s1 := s.clearSite (rowKey die layer bank row)
  if used < 16 then
    (1, { s1 with umber := { s1.umber with
      sparesUsed := Tab.set 0 s1.umber.sparesUsed key (used + 1)
      copies := s1.umber.copies ++ [({ die := die, layer := layer, bank := bank, row := row } : RowCopy)] } })
  else (2, { s1 with umber := { s1.umber with retired := s1.umber.retired ++ [(die, layer, bank, row)] } })

/-! ### The end of a transfer (R405, R407) -/

/-- The spare that carries a lane, with the swaps in progress counted as done: 0 none, 1 or 2 (R422). -/
def State.spareOf (s : State) (die sect lane : Nat) : Nat :=
  let x := s.sec (die * 64 + sect)
  match Tab.find x.busLanes lane with
  | some k => k
  | none => ((s.lanesSwapping die sect).findIdx? fun k => k == lane).elim 0 fun i => x.lanesUsed + i + 1

/-- A transfer that has ended: each lane that failed counts one event, a lasting lane is repaired, and the event is logged, with the swap that the event began (R405, R407, R408, R422). -/
def State.endTransfer (s : State) (r : Retry) : State :=
  let lane := worstLane r.lanes
  let step := fun (acc : Nat × Nat × State) (k : Nat) =>
    let c := acc.2.2.countSite (laneKeyOf r.die r.sect k)
    let rep := if 4 ≤ c.1 then c.2.repairLane r.die r.sect k else (0, c.2)
    (if k = lane then c.1 else acc.1, if rep.1 ≠ 0 then rep.1 else acc.2.1, rep.2)
  let e := r.lanes.eraseDups.foldl step (0, 0, s)
  let x := e.2.2.sec (r.die * 64 + r.sect)
  let act := if r.failed then 2 else if r.swapping then 1 else e.2.1
  e.2.2.logXfer r.sid (if r.failed then 2 else 1) r.die r.sect lane (e.2.2.spareOf r.die r.sect lane) r.tries act e.1
    (min 2 (x.lanesUsed + (e.2.2.lanesSwapping r.die r.sect).length)) r.layer

/-! ### What an access meets -/

/-- The lines of an HBM or SF page that an access touches; of a versioned page those of its backing (R283). -/
def Tgt.lines (t : Tgt) (n : Nat) : List Nat :=
  if t.idx = none ∨ pwKind t.pw ≥ 2 then []
  else
    let a := backOff t.pw t.off
    let e := if pwVer t.pw then backOff t.pw (t.off + n - 1) + 64 else t.off + n
    (List.range ((e - a) / 128 + 2)).map (fun k => a / 128 + k) |>.filter fun l => decide (l * 128 < e)

/-- The granules that a run of bytes touches poisoned (R405, R410). -/
def State.poisonRun (s : State) (a n : Nat) : State :=
  { s with poison := (List.range ((a + n - 1) / 64 - a / 64 + 1)).foldl (fun p k => Tab.set false p (a / 64 + k) true) s.poison }

/-- The physical line number of a line of a page. -/
def Tgt.physLine (t : Tgt) (l : Nat) : Nat := pagePhys t.pw t.frame (l * 128) / 128

/-- CYC of 10 microseconds (R18, R395). -/
def linkWait : Nat := 9400

/-- What an access meets: nothing that stops it, a wait, or a contained transfer. -/
inductive Strike where
  | go (s : State)
  | wait (s : State)
  | bad (s : State)
deriving DecidableEq, Repr

/-- A row that is retired, by itself or with its bus column: its lines are performed at the channel (R408). -/
def State.rowRetired (s : State) (die layer bank row : Nat) : Bool :=
  (s.sec (die * 64 + bank)).busDead || s.umber.retired.contains (die, layer, bank, row)

/-- A physical error that strikes a line. -/
def State.hits (s : State) (t : Tgt) (l : Nat) : Upset → Bool
  | .array d ly b row _ _ _ _ => s.lineHome t.pw (l * 128) == some (d, ly, b) && !s.rowRetired d ly b row
  | .parity d k _ => let b := s.lineBus t l; b.1 == d && b.2.1 == k
  | _ => false

/-- The first waiting error that strikes one of some lines, with the line. -/
def State.nextHit (s : State) (t : Tgt) (ls : List Nat) : Option (Upset × Nat) :=
  s.upsets.findSome? fun u => (ls.find? fun l => s.hits t l u).map fun l => (u, l)

/-- A staged flash page is the latest used (R345). -/
def State.touch (s : State) (t : Tgt) : State :=
  match t.sf, s.staged? (flashPage t.phys) with
  | true, some p => { s with flash := { s.flash with staged := Tab.put s.flash.staged (flashPage t.phys) { p with at_ := s.cyc } } }
  | _, _ => s

/-- The transfers under retry of a party's access to some lines (R405). -/
def State.retriesOf (s : State) (who : Nat) (t : Tgt) (ls : List Nat) : List Retry :=
  s.umber.retries.filter fun r => r.sid == who && !r.repair && !r.gone && ls.any fun l => t.physLine l == r.line

/-- A bus is in the 200 CYC of a lane swap, which every transfer that needs it waits out (R405, R423). -/
def State.busSwapping (s : State) (die sect : Nat) : Bool :=
  s.umber.retries.any fun r => r.swapping && !r.failed && (r.repair || decide (s.cyc + 16 < r.due)) && r.die == die && r.sect == sect

/-- An access by a party meets what waits for it: a transfer of its own under retry, a bus that is being swapped, or a waiting error (R404, R405, R423). A contained transfer stays noted, so that the access may be tried again as a whole. What it meets is logged in the sector on whose behalf it is made (R424). -/
def State.meet (s : State) (who : Nat) (t : Tgt) (n : Nat) : Strike :=
  let ls := t.lines n
  match s.retriesOf who t ls with
  | r :: _ => if r.failed then .bad s else .wait s
  | [] =>
    if ls.any fun l => let b := s.lineBus t l
        s.busSwapping b.1 b.2.1
    then .wait s
    else match s.nextHit t ls with
      | none => .go (s.touch t)
      | some (u, l) =>
        let s1 := { s with upsets := s.upsets.erase u }
        match u with
        | .parity d k lane =>
          let r : Retry :=
            { die := d, sect := k, lanes := [lane % 32], tries := 0, sid := who, due := s.cyc + 16
              layer := (s.lineBus t l).2.2, line := t.physLine l }
          .wait { s1 with umber := { s1.umber with retries := s1.umber.retries ++ [r] } }
        | .array d ly b row unit bits bit dirty =>
          let c := s1.countSite (rowKey d ly b row)
          let rep := if 4 ≤ c.1 then c.2.repairRow d ly b row else (0, c.2)
          if bits = 1 then .go ((rep.2.logArray who 0 ly b row unit 1 rep.1 c.1 bit.toNat d).touch t)
          else if dirty && pwKind t.pw == 0 then
            let s2 := { rep.2 with umber := { rep.2.umber with lost := rep.2.umber.lost ++ [(d, ly, t.physLine l)] } }
            .wait (s2.logArray who 2 ly b row unit (max bits.toNat 2) 3 c.1 0 d)
          else .go ((rep.2.logArray who 1 ly b row unit (max bits.toNat 2) rep.1 c.1 0 d).touch t)
        | _ => .go s1

/-- The contained transfers of an access that is over are noted no more. -/
def State.forget (s : State) (who : Nat) (t : Tgt) (n : Nat) : State :=
  let mine := s.retriesOf who t (t.lines n)
  { s with umber := { s.umber with retries := s.umber.retries.filter fun r => !(r.failed && mine.contains r) } }

/-- The contained transfers of a party whose access is over are noted no more. -/
def State.forgetAll (s : State) (who : Nat) : State :=
  { s with umber := { s.umber with retries := s.umber.retries.filter fun r => !(r.failed && r.sid == who) } }

/-- An access of one run meets what waits for it, and a contained transfer ends it (R404, R405, R423). -/
def State.strike (s : State) (who : Nat) (t : Tgt) (n : Nat) : Strike :=
  match s.meet who t n with
  | .bad u => .bad (u.forget who t n)
  | r => r

/-- The runs of n bytes at a place, each within one line of its page. -/
def Tgt.lineRuns (t : Tgt) : Nat → Nat → List (Tgt × Nat)
  | 0, _ => []
  | fuel + 1, n =>
    if n = 0 then []
    else
      let k := min n (128 - t.off % 128)
      (t, k) :: (t.shift k).lineRuns fuel (n - k)

/-- Runs of one access met, each by itself: whether each is contained, none while one of them waits (R405 step 1). -/
def State.meetRuns (s : State) (who : Nat) : List (Tgt × Nat) → State × Option (List Bool)
  | [] => (s, some [])
  | p :: l =>
    match s.meet who p.1 p.2 with
    | .go u => let r := u.meetRuns who l; (r.1, r.2.map fun k => false :: k)
    | .bad u => let r := u.meetRuns who l; (r.1, r.2.map fun k => true :: k)
    | .wait u => ((u.meetRuns who l).1, none)

/-- The contained transfers of some runs are noted no more. -/
def State.forgetRuns (s : State) (who : Nat) (l : List (Tgt × Nat)) : State := l.foldl (fun (s : State) p => s.forget who p.1 p.2) s

/-- The lines of a page of len bytes, as runs of its page offsets: a line of a versioned page backs two objects (R283). -/
def Tgt.pageRuns (t : Tgt) (len : Nat) : List (Tgt × Nat) :=
  let k := if pwVer t.pw then 16 else 128
  (List.range (len / k)).map fun i => (t.shift (i * k), k)

/-- A whole page met by a party: the lines of it whose transfer is contained, none while one of them waits (R404, R405, R423). -/
def State.meetPage (s : State) (who : Nat) (t : Tgt) (len : Nat) : State × Option (List Nat) :=
  if s.upsets.isEmpty && s.umber.retries.isEmpty then (s, some [])
  else
    let runs := t.pageRuns len
    let r := s.meetRuns who runs
    (r.1, r.2.map fun bads => ((runs.zip bads).filter Prod.snd).map fun p => backOff t.pw p.1.1.off / 128)

/-! ### A module out of reach (R395) -/

/-- How long a party's access has waited for a module out of reach: the end of its wait, if it has begun. -/
def State.linkAt (s : State) (who : Nat) (va : Word) : Option Nat := (s.linkWaits.find? fun x => x.1 == who && x.2.1 == va).map fun x => x.2.2

/-- The waits of a party are over. -/
def State.endLink (s : State) (who : Nat) : State := { s with linkWaits := s.linkWaits.filter fun x => x.1 != who }

/-- The wait of a party's access for a module out of reach: the state while it lasts, none after 10 microseconds (R395). -/
def State.extLink (s : State) (who : Nat) (va : Word) : Option State :=
  match s.linkAt who va with
  | some t => if s.cyc < t then some s else none
  | none => some { s with linkWaits := s.linkWaits ++ [(who, va, s.cyc + linkWait)] }

/-- The party that loads objects (R384). -/
def whoLoad : Nat := 1024

/-- The party that appends the records of a context's ring (R383). -/
def whoRing (c : BitVec 8) (sig : Bool) : Nat := (if sig then 1536 else 1280) + c.toNat

/-- The party that fetches the entries of a queue (R178). -/
def whoQueue (q : Nat) : Nat := 2048 + q

/-- The party that creates the completion version of a launch (R39). -/
def whoLaunch (l : Nat) : Nat := 4096 + l

end Sys2Proof.Machine
end

