-- ==== Sys2Proof/Machine/Ops.lean ====
section
/-! DEFINITION. Records and rings (R370, R383, R401, R414), ending a context (R380 step 1), failing a task (R420), taking a trap and returning from one (R411, R416, R418), and what the creation of a version sets off: dependence checks and completion versions (R39, R183). -/

namespace Sys2Proof.Machine

open Sys2Proof

/-! ### Rectangles -/

/-- The SECTIDs of an instance's rectangle in row-major order (R9, R26). -/
def Inst.sids (i : Inst) : List Nat :=
  (List.range (i.w * i.h)).map fun k => i.die * 64 + (i.oy + k / i.w) * 8 + (i.ox + k % i.w)

/-- The SECTIDs of a gang in the order of s4 (R26). -/
def Task.sids (t : Task) : List Nat := t.insts.flatMap Inst.sids

/-- A task is resident: its sectors are placed and it has not failed (R185). -/
def Task.runs (t : Task) : Bool := t.st == .resident || t.st == .draining

/-- Every sector of a list changed. -/
def State.modSecs (s : State) (ks : List Nat) (f : Sector → Sector) : State := ks.foldl (fun s k => s.modSec k f) s

/-! ### Records (R370, R401, R414) -/

/-- Word 2 of a record: task index, cause, sector and context, and the low 16 bits. -/
def recWord2 (task : Nat) (cause : BitVec 8) (sid : Nat) (c : BitVec 8) (low : Nat) : Word :=
  BitVec.ofNat 64 (task % 2 ^ 24 * 2 ^ 40 + cause.toNat * 2 ^ 32 + sid % 256 * 2 ^ 24 + c.toNat * 2 ^ 16 + low)

/-- The token after a token: 1 after 0xFFFF_FFFF (R401). -/
def tokenAfter (k : BitVec 32) : BitVec 32 := if k = 0xFFFFFFFF then 1 else k + 1

/-- The first token from k on that no unanswered record holds (R401). -/
def freeToken (held : List (BitVec 32)) : Nat → BitVec 32 → BitVec 32
  | 0, k => k
  | n + 1, k => if held.contains k then freeToken held n (tokenAfter k) else k

/-- The next token of the module-wide sequence (R401). -/
def State.newToken (s : State) : BitVec 32 × State :=
  let held := s.recs.map Rec.token
  let k := freeToken held (held.length + 1) s.tokenSeq
  (k, { s with tokenSeq := tokenAfter k })

/-- The ring is full (R383). -/
def Ring.full (r : Ring) : Bool := (r.tail - r.head).toNat == 2 ^ r.nlog

/-- A queue is stopped by a fault (R180). -/
def Wq.faulted (q : Wq) (cause : BitVec 4) : Wq := { q with flt := true, fcause := cause }

/-- STATE of WQSTAT: 0 DISABLED, 1 IDLE, 2 ACTIVE, 3 FAULTED (R177, R180). -/
def Wq.state (q : Wq) : Nat := if !q.en then 0 else if q.flt then 3 else if q.head = q.tail then 1 else 2

/-- A launch cut short by its context's end: ABORTED, its failures those of the tasks that failed before (R39, R40, R380, R420). -/
def Launch.aborted (l : Launch) (ts : List Task) : Launch :=
  { l with
    st := .closing, status := 0x02
    failIdx := (ts.filter fun t => t.launch == l.id && t.st == .failing).foldl
      (fun m t => some (min t.idx (m.getD t.idx))) l.failIdx }

/-- The context stops being ACTIVE: each of its queues that runs faults with cause CTX, its launches, tasks and operations end, unpublished shadows and unanswered records go (R380 steps 1 and 2, R383). The held stores of its waves are dropped, of those that have fired whole too: R380 says only that tasks stop, where a failing task keeps these (R29). DESIGN CHOICE (log 138). -/
def State.endCtx (s : State) (c : BitVec 8) : State :=
  let s1 := s.modCtx c fun x => { x with st := .ending, res := 0 }
  { s1 with
    wqs := s1.wqs.map fun p => if p.2.ctx = c ∧ p.2.en ∧ !p.2.flt then (p.1, p.2.faulted 0x4) else p
    launches := s1.launches.map fun (l : Launch) =>
      if l.ctx = c ∧ l.st ≠ .complete ∧ l.st ≠ .closing then l.aborted s1.tasks else l
    tasks := s1.tasks.map fun (t : Task) =>
      if t.ctx = c ∧ (t.runs ∨ t.st = .failing) then { t with st := .failing, pre := .none, stores := [], wrecs := [], packets := [] } else t
    sectors := s1.sectors.map fun (p : Nat × Sector) =>
      if p.2.v ∧ p.2.ctx = c then (p.1, { p.2 with th := { p.2.th with stopped := true, wait := .none, notice := none } }) else p
    ops := s1.ops.map fun (o : EngOp) =>
      if o.ctx = c ∧ o.st ≠ .complete ∧ o.st ≠ .failed then
        { o with st := .failed, pubWait := none, shadow := [], status := if o.kind = .inst ∨ o.kind = .stage then 0x07 else 0x08 }
      else if o.ctx = c then { o with pubWait := none, shadow := [] } else o
    recs := s1.recs.filter fun r => r.ctx ≠ c
    linkWaits := s1.linkWaits.filter fun x => x.1 ≠ whoRing c false ∧ x.1 ≠ whoRing c true }

/-- A ring of a context: of signals or of faults. -/
def Ctx.ring (x : Ctx) (sig : Bool) : Ring := if sig then x.sr else x.fr

/-- The bytes of a record (R383). -/
def recSize (sig : Bool) : Nat := if sig then 16 else 32

/-- The address of a ring's next record (R383). -/
def Ring.next (r : Ring) (sig : Bool) : Nat := r.base.toNat + recSize sig * (r.tail.toNat % 2 ^ r.nlog)

/-- An append's second and third step: TAIL, and the vector (R383). -/
def State.ringOn (s : State) (r : Rec) : State :=
  let x := s.ctx r.ctx
  (s.modCtx r.ctx fun x =>
    if r.sig then { x with sr := { x.sr with tail := x.sr.tail + 1 } } else { x with fr := { x.fr with tail := x.fr.tail + 1 } }).emit
    (.msix (if r.sig then x.svec else x.fvec))

/-- A record stored at its ring's tail, if the ring has room: the store, TAIL, the vector. A faulting append ends the context (R383). A store whose transfer is contained, or that cannot reach its module within 10 microseconds, is not performed, and the append goes on (R395, R405; DESIGN CHOICE, log 134). The answer says whether the record left the queue of waiting records. -/
def State.postRec (s : State) (r : Rec) : State × Bool :=
  let ring := (s.ctx r.ctx).ring r.sig
  let size := recSize r.sig
  let who := whoRing r.ctx r.sig
  let va := ring.next r.sig
  if ring.full then (s, false)
  else match (if va < 2 ^ 55 then s.xlateV r.ctx va .write else .fault) with
    | .hold => (s, false)
    | .ok t =>
      if s.storeBarred t size then (s.endCtx r.ctx, true)
      else if s.unreachable t then match s.extLink who (BitVec.ofNat 64 va) with
        | some u => (u, false)
        | none => ((s.endLink who).ringOn r, true)
      else match s.strike who t size with
        | .wait u => (u, false)
        | .bad u => ((u.poisonRun t.phys size).ringOn r, true)
        | .go u => (((u.endLink who).store t.phys (r.words.flatMap fun w => bytesOf 8 w.toNat)).ringOn r, true)
    | _ => (s.endCtx r.ctx, true)

/-- The waiting records of the list tried in order; a context whose record has to wait holds back its later ones. -/
def State.flushFrom (s : State) (stuck : List (BitVec 8)) : List Rec → State × List Rec
  | [] => (s, [])
  | r :: t =>
    if r.posted then
      let p := s.flushFrom stuck t
      (p.1, r :: p.2)
    else if stuck.contains r.ctx then
      let p := s.flushFrom stuck t
      (p.1, r :: p.2)
    else
      let q := s.postRec r
      if q.2 then
        let p := q.1.flushFrom stuck t
        (p.1, if r.token = 0 then p.2 else { r with posted := true } :: p.2)
      else
        let p := q.1.flushFrom (r.ctx :: stuck) t
        (p.1, r :: p.2)

/-- Every record that waits for room is tried (R383). -/
def State.flushRecs (s : State) : State :=
  let p := s.flushFrom [] s.recs
  { p.1 with recs := p.2.filter fun r => decide ((p.1.ctx r.ctx).st = .active) || !r.posted && decide ((p.1.ctx r.ctx).st = .active) }

/-- A record appended to its context's ring, or queued until the ring has room. -/
def State.addRec (s : State) (r : Rec) : State := { s with recs := s.recs ++ [r] }.flushRecs

/-- A fault record of R370 that waits for its answer; the answer token. -/
def State.faultRec (s : State) (c : BitVec 8) (taskId taskIdx sid : Nat) (va : Word) (cause : Cause) (src acc unit : Nat)
    (aux : BitVec 32) (who : Nat) (slot : Option SlotRef) : BitVec 32 × State :=
  let p := s.newToken
  (p.1, p.2.addRec
    { ctx := c, token := p.1, who := who, slot := slot, sid := sid, cause := cause.code, task := taskId, q := unit
      words := [s.cycW, va, recWord2 taskIdx cause.code sid c (src * 2 ^ 13 + acc * 2 ^ 11 + unit % 128),
        BitVec.ofNat 64 (p.1.toNat * 2 ^ 32 + aux.toNat)] })

/-- An ERROR record: a page's first address and the granules poisoned by the event (R414). -/
def State.errorRec (s : State) (c : BitVec 8) (taskIdx sid : Nat) (va : Word) (n : Nat) : State :=
  s.addRec { ctx := c, words := [s.cycW, va, recWord2 taskIdx Cause.poison.code sid c (5 * 2 ^ 7), BitVec.ofNat 64 n] }

/-! ### Failing a task (R420) -/

/-- The scratch byte of slot n of an image's entry queue, in the sector with index 0 (R30, R31). -/
def Inst.queueSlot (i : Inst) (img n : Nat) : Nat :=
  scratchAt (i.sids.headD 0) (Tab.get (2 ^ 22) i.qtop img + n % Tab.get 1 i.qlen img * 8)

/-- The payload that an ITEM record reports of a token: a poisoned value reaches no host, so that of a poisoned token is a free value (R410, R414; log 117). -/
def State.itemPay (s : State) (poison : Bool) (v : Word) : Word := if poison then Config.freeWord s.fresh else v

/-- The thread tokens that wait in an entry queue, in queue order (R30, R420). -/
def State.queueItems (s : State) (i : Inst) (img : Nat) : List Word :=
  let free := Tab.get 0 i.free img
  (List.range (Tab.get 0 i.fill img - free)).map fun k =>
    let a := i.queueSlot img (free + k)
    s.itemPay (s.isPoison a) (s.rdWord a)

/-- The 64-bit payload of a thread token (R30). -/
def Token.payload (t : Token) : Word := BitVec.ofNat 64 t.pay.toNat

/-- The thread tokens of an instance's queues and channels with the image that held each (R414, R420). -/
def State.instItems (s : State) (i : Inst) : List (Nat × Word) :=
  (i.qtop.flatMap fun p => (s.queueItems i p.1).map fun w => (p.1, w)) ++
    i.chans.flatMap fun p => (p.2.filter fun t => t.kind == .thread).map fun t => (p.1 / 2 ^ 20 % 256, s.itemPay t.poison t.payload)

/-- An instance with every token discarded (R420 step 2). -/
def Inst.emptied (i : Inst) : Inst := { i with chans := [], ops := [], free := i.fill, drain := 0 }

/-- Where a channel's key names its image: the key is ((((gen 256 + img) 1024 + blk) 128 + slot) 8 + pos). -/
def chanKey (b : BlkRef) (slot pos : Nat) : Nat := (((b.gen * 256 + b.img) * 1024 + b.blk) * 128 + slot) * 8 + pos

/-- The key of a block's wave count. -/
def waveKey (b : BlkRef) : Nat := (b.gen * 256 + b.img) * 1024 + b.blk

/-- Every slot of the waves of a block up to one has fired: neither the channels and routes to ports nor the operators of the block hold a token of theirs. -/
def Inst.waveDone (i : Inst) (b : BlkRef) (w : Nat) : Bool :=
  !(i.chans.any fun c => c.1 / 1024 == waveKey b && decide (c.1 % 8 < 5 ∨ c.1 % 8 = 7) && c.2.any fun t => decide (t.wave ≤ w)) &&
    !(i.ops.any fun o => o.1 / 128 == waveKey b &&
      ((o.2.hold.any fun t => decide (t.wave ≤ w)) || (o.2.outq.any fun p => decide (p.2.wave ≤ w)) || (o.2.owe.any fun x => decide (x ≤ w))))

/-- A wave of a task that has fired whole, so its owners still release its stores after the task has failed (R29, R419). -/
def Task.whole (t : Task) (b : BlkRef) (w : Nat) : Bool := (t.insts.getD b.inst {}).waveDone b w

/-- A task stopped: its tokens go, and of its waves those stay whose owners still release their stores. -/
def Task.halted (t : Task) : Task :=
  { t with
    st := .failing, pre := .none, insts := t.insts.map Inst.emptied, packets := []
    stores := t.stores.filter fun p => t.whole p.b p.wave
    wrecs := t.wrecs.filter fun r => t.whole r.b r.w }

/-- A task fails: its gang stops, its tokens are discarded and reported, its answers become unknown (R419, R420). -/
def State.taskFail (s : State) (id : Nat) (cause : BitVec 8) (sid : Nat) : State :=
  match s.task? id with
  | none => s
  | some t =>
    if !t.runs then s
    else
      let l := (s.launch? t.launch).getD { id := 0, q := 0, ctx := t.ctx }
      let items := t.insts.flatMap s.instItems ++ t.packets.map fun p => (p.img, s.itemPay p.poison p.pay)
      let s1 := s.setTask t.halted
      let s2 := s1.modSecs t.sids fun x => { x with th := { x.th with stopped := true, wait := .none, notice := none } }
      let s3 := { s2 with recs := s2.recs.filterMap fun (r : Rec) =>
        if r.task = id ∧ r.who ≠ 2 then (if r.posted then none else some { r with token := 0 }) else some r }
      let s4 := s3.addRec
        { ctx := t.ctx, task := id
          words := [s.cycW, BitVec.ofNat 64 (l.tag.toNat * 2 ^ 32 + l.q * 2 ^ 16), recWord2 t.idx cause sid t.ctx (3 * 2 ^ 7),
            BitVec.ofNat 64 items.length] }
      items.foldl (fun s p => s.addRec
        { ctx := t.ctx, task := id
          words := [p.2, BitVec.ofNat 64 (2 ^ 16 + p.1), recWord2 t.idx cause sid t.ctx (4 * 2 ^ 7), 0] }) s4

/-! ### Traps (R411, R416, R418) -/

/-- The acting thread takes a trap. In trap state the task fails instead, with no TRAP record (R416). -/
def State.takeTrap (s : State) (c : Cause) (v : Word) : State :=
  if s.th.ts then s.taskFail (s.sec s.cur).task c.code s.cur
  else s.modTh fun t => t.enterTrap s.cyc c v

/-- A thread takes PREEMPT_NOTICE: TRAPVAL is the deadline (R244). -/
def Thread.takeNotice (t : Thread) (cyc : Nat) : Thread :=
  match t.notice with
  | some d => if t.ts then t else { t.enterTrap cyc .preemptNotice (BitVec.ofNat 64 d) with notice := none }
  | none => t

/-- A thread leaves trap state at an address; a held PREEMPT_NOTICE is raised there (R415, R416, R418). An sbar that a notice had broken into is kept if it stands there (R213, R240). -/
def Thread.leaveTrap (t : Thread) (cyc : Nat) (pc : Word) : Thread :=
  { t with ts := false, pc := pc, wait := .none, word := none, barHeld := t.barHeld.filter fun b => b.1 == pc }.takeNotice cyc

/-- A chunk refused at the save of a gang is still to be replayed, so nothing of the gang goes on (R250, R252). -/
def State.replayingTask (s : State) (task : Nat) : Bool :=
  s.ops.any fun o => o.task == task && (o.replay.any fun k => !o.done.contains k) && match o.st with
    | .running => true
    | .waiting _ => true
    | _ => false

/-- The outcome of a word: its next state, its trap taken, or no change while it waits (R48, R217). -/
def State.finish (s : State) (r : Res State) : Host.Outcome State Fault Refusal :=
  match r with
  | .ok t => .next t
  | .trap c v => .next (s.takeTrap c v)
  | .hold => .next s

/-! ### Completion versions and dependences (R36, R39 to R41, R183, R184) -/

/-- The value of a completion version (R39). -/
def Launch.value (l : Launch) : Word :=
  BitVec.ofNat 64 ((l.failIdx.getD (2 ^ 25 - 1)) * 2 ^ 39 + l.ok * 2 ^ 8 + l.status.toNat)

/-- A dependence's test: not met, or not tested; held with its address, and tested once that is free (R364); met with its status; an address that faults (R36, R183). -/
inductive Dep where
  | waits | held | met (status : BitVec 8) | bad
deriving DecidableEq, Repr

/-- One dependence tested: version v of the object exists, or it has been retired (R183). R36 and R183 say nothing of a poisoned line: it counts as an address that faults. DESIGN CHOICE (log 112). -/
def State.depTest (s : State) (c : BitVec 8) (d : Word × Word) : Dep :=
  match (if isVirt d.1 then s.xlateV c d.1.toNat .read else .fault) with
  | .ok t =>
    if !t.ver then .bad
    else if s.poisonIn t.line 64 then .bad
    else if d.2.toNat < s.vFloor t.line then .met 0
    else if d.2.toNat < s.vNext t.line then .met ((s.vVal t.line d.2.toNat).setWidth 8)
    else .waits
  | .hold => .held
  | _ => .bad

/-- The backing line of a dependence's word under the entry in force, whatever holds its accesses and whatever it permits: a version created there makes its test due (R183). -/
def State.depLine (s : State) (c : BitVec 8) (d : Word × Word) : Option Nat :=
  match (if isVirt d.1 then findRt (s.ctx c).rt d.1.toNat else none) with
  | some (i, e) =>
    if pwValid e.pw e.frame && pwVer e.pw then some (Tgt.line ⟨some i, e.pw, e.frame, d.1.toNat - e.vbase, 0⟩) else none
  | none => none

/-- A dependence's word has its backing line among some lines. -/
def State.depOn (s : State) (c : BitVec 8) (lines : List Nat) (d : Word × Word) : Bool := (s.depLine c d).any lines.contains

/-- A launch in DEPWAIT after a test of those of its dependences that are due, and of those whose test was held (R183, R184). A dependence that is met with status zero is not tested again, and one on a launch behind it in its own queue is never met (R42). -/
def State.depStep (s : State) (due : Word × Word → Bool) (l : Launch) : Launch :=
  let rs := l.deps.map fun d => (d, if (due d ∨ l.retest.contains d) ∧ !l.never.contains d then s.depTest l.ctx d else .waits)
  let ds := rs.map Prod.snd
  if ds.any fun d => d == .bad then { l with st := .closing, status := 0x03 }
  else if ds.any fun d => match d with
      | .met k => k != 0
      | _ => false
    then { l with st := .closing, status := 0x04 }
  else if ds.all fun d => d == .met 0 then { l with st := .ready, readyAt := s.cyc }
  else { l with deps := (rs.filter fun p => p.2 != .met 0).map Prod.fst, retest := (rs.filter fun p => p.2 == .held).map Prod.fst }

/-- A store of a task of a launch waits for its acknowledgements (R282). -/
def State.launchWrites (s : State) (l : Launch) : Bool :=
  s.tasks.any fun t => t.launch == l.id && s.dups.any fun d => t.sids.contains d.sid

/-- A launch has a dependence on a version of an object, and waits before another in the other's queue (R42). -/
def State.waitsFor (s : State) (k l : Launch) (line n : Nat) (d : Word × Word) : Bool :=
  k.st == .depwait && k.q == l.q && decide (k.id < l.id) && d.2.toNat == n && s.depLine k.ctx d == some line

/-- Version n of an object is a launch's completion: the dependences on it of the launches before it in its queue are never met (R42, R183). -/
def State.neverMet (s : State) (l : Launch) (line n : Nat) : State :=
  { s with launches := s.launches.map fun (k : Launch) => { k with never := k.never ++ k.deps.filter (s.waitsFor k l line n) } }

/-- The fault record of a completion word (R39). -/
def State.cwFault (s : State) (l : Launch) (c : Cause) : State := (s.faultRec l.ctx l.id 0 0 l.cw c 4 1 0 (BitVec.ofNat 32 l.q) 4 none).2

/-- A launch whose completion version is due: the version is created, waits, or its fault is reported (R39). It waits for the stores of its tasks (R41), and meets the errors of its transfer: contained, it poisons its line and so meets poison (R404, R405). A launch that waits for an answer keeps its record. -/
def State.closeLaunch (s : State) (l : Launch) : State :=
  if s.launchWrites l ∨ s.recs.any (fun r => r.who == 4 && r.q == 0 && r.task == l.id) then s
  else
    match (if isVirt l.cw then s.xlateV l.ctx l.cw.toNat .write else .fault) with
    | .hold => s
    | .ok t =>
      if !t.ver ∨ t.off % 8 ≠ 0 then s.cwFault l .permission
      else if s.poisonIn t.line 64 then s.cwFault l .poison
      else if s.vFull t.line then s
      else match s.strike (whoLaunch l.id) t 8 with
        | .wait u => u
        | .bad u => (u.poisonRun t.line 64).cwFault l .poison
        | .go u => (((u.neverMet l t.line (u.vNext t.line)).vCreate t.line l.value)).setLaunch { l with st := .complete }
    | .fault => s.cwFault l .xlateFault
    | .perm => s.cwFault l .permission

/-- The backing lines at which launches that were closing have created their completion versions. -/
def State.closedLines (s : State) (old : List Launch) : List Nat :=
  (old.filter fun l => l.st == LaunchSt.closing && s.launches.any fun k => k.id == l.id && k.st == .complete).filterMap fun l =>
    match s.xlateV l.ctx l.cw.toNat .write with
    | .ok t => some t.line
    | _ => none

/-- The dependences on words of some backing lines are tested, with those whose test was held, and every launch that waits for its completion version is tried; a version so created may meet others. -/
def State.settleN : Nat → List Nat → State → State
  | 0, _, s => s
  | n + 1, lines, s =>
    let s1 := { s with launches := s.launches.map fun (l : Launch) => if l.st = LaunchSt.depwait then s.depStep (s.depOn l.ctx lines) l else l }
    let s2 := s1.launches.foldl (fun (s : State) (l : Launch) => if l.st = LaunchSt.closing then s.closeLaunch l else s) s1
    if s2.launches = s.launches then s2 else State.settleN n (s2.closedLines s1.launches) s2

/-- The dependence checks and completions that the creation of versions at some backing lines sets off (R183). A launch that has become READY is a placement opportunity (R187). -/
def State.settleAt (s : State) (lines : List Nat) : State :=
  let t := State.settleN (2 * s.launches.length) lines s
  if t.launches = s.launches then t else { t with placeDue := true }

/-- The completions, and the checks of held addresses, that a change of mapping, an answer or an end sets off. -/
def State.settle (s : State) : State := s.settleAt []

/-- A version created at a place, with what it sets off (R183, R284). -/
def State.makeVersion (s : State) (t : Tgt) (v : Word) : State := (s.vCreate t.line v).settleAt [t.line]

end Sys2Proof.Machine
end

