-- ==== Sys2Proof/Machine/Desc.lean ====
section
/-! DEFINITION. Descriptors: the images of tensor maps, windows, patterns and rings (R271, R297 to R300), their checks (R301), the elements that a stream walks (R274, R298, R299), and index lists. -/

namespace Sys2Proof.Machine

open Sys2Proof

/-! ### Type tags (R45) -/

/-- No descriptor. -/
def tagNull : BitVec 4 := 0
/-- A tensor map. -/
def tagTmap : BitVec 4 := 1
/-- A port pattern. -/
def tagPattern : BitVec 4 := 2
/-- An object handle. -/
def tagObject : BitVec 4 := 3
/-- A ring. -/
def tagRing : BitVec 4 := 4
/-- An engine handle. -/
def tagEngine : BitVec 4 := 5

/-! ### Fields of images -/

/-- A bit field of word i of an image. -/
def Desc.fld (d : Desc) (i lo n : Nat) : Nat := bitsAt d.img.toNat (64 * i + lo) n

/-- BASE. -/
def Desc.base (d : Desc) : Nat := d.fld 0 0 64
/-- ESZ. -/
def Desc.esz (d : Desc) : Nat := d.fld 1 0 13
/-- Dimensions. -/
def Desc.dims (d : Desc) : Nat := d.fld 1 13 2 + 1
/-- IDX. -/
def Desc.idx (d : Desc) : Bool := d.fld 1 15 1 == 1
/-- WIN. -/
def Desc.win (d : Desc) : Bool := d.fld 1 16 1 == 1
/-- The count of a dimension. -/
def Desc.cnt (d : Desc) (k : Nat) : Nat := d.fld (2 + k) 0 24 + 1
/-- The stride of a dimension. -/
def Desc.stride (d : Desc) (k : Nat) : Int := sintOf (d.fld (2 + k) 24 40) 40
/-- IDXOFF. -/
def Desc.idxOff (d : Desc) : Nat := d.fld 6 0 22

/-- C of a window image. -/
def Desc.wc (d : Desc) : Nat := d.fld 1 17 8 + 1
/-- KH. -/
def Desc.kh (d : Desc) : Nat := d.fld 1 25 4 + 1
/-- KW. -/
def Desc.kw (d : Desc) : Nat := d.fld 1 29 4 + 1
/-- H. -/
def Desc.hh (d : Desc) : Nat := d.fld 2 0 16
/-- W. -/
def Desc.ww (d : Desc) : Nat := d.fld 2 16 16
/-- PADT. -/
def Desc.padt (d : Desc) : Nat := d.fld 2 32 8
/-- PADL. -/
def Desc.padl (d : Desc) : Nat := d.fld 2 40 8
/-- SH. -/
def Desc.sh (d : Desc) : Nat := d.fld 2 48 4 + 1
/-- SW. -/
def Desc.sw (d : Desc) : Nat := d.fld 2 52 4 + 1
/-- OH. -/
def Desc.oh (d : Desc) : Nat := d.fld 3 0 16
/-- OW. -/
def Desc.ow (d : Desc) : Nat := d.fld 3 16 16
/-- KPAD. -/
def Desc.kpad (d : Desc) : Nat := d.fld 3 32 12
/-- MPAD. -/
def Desc.mpad (d : Desc) : Nat := d.fld 3 44 8
/-- ROWSTR. -/
def Desc.rowStr (d : Desc) : Int := sintOf (d.fld 4 0 40) 40
/-- COLSTR. -/
def Desc.colStr (d : Desc) : Int := sintOf (d.fld 5 0 40) 40
/-- FILL. -/
def Desc.fill (d : Desc) : Nat := d.fld 6 0 32

/-- K of a window image. -/
def Desc.kk (d : Desc) : Nat := d.kh * d.kw * d.wc
/-- Q, the windows that exist. -/
def Desc.qq (d : Desc) : Nat := d.oh * d.ow
/-- P, the windows that the walk emits. -/
def Desc.pp (d : Desc) : Nat := if d.mpad = 0 then d.qq else (d.qq + d.mpad - 1) / d.mpad * d.mpad

/-- BASE with a value added (R212, R297). -/
def Desc.addBase (d : Desc) (v : Word) : Desc :=
  { d with img := BitVec.ofNat 512 (d.img.toNat / 2 ^ 64 * 2 ^ 64 + (BitVec.ofNat 64 d.base + v).toNat) }

/-! ### Checks (R271, R298 to R301): the first failing word -/

/-- The first index whose check fails. -/
def firstBad (l : List Bool) : Option Nat := l.findIdx? fun b => !b

/-- A plain image (R298): BASE is virtual or S-space (R267). -/
def Desc.plainBad (d : Desc) : Option Nat :=
  let dimOk := fun (k : Nat) => decide (k < d.dims) || d.fld (2 + k) 0 64 == 0
  firstBad
    [ decide (d.fld 0 0 64 < 2 ^ 55 ∨ 2 ^ 64 - 2 ^ 22 ≤ d.fld 0 0 64)
    , decide (1 ≤ d.esz ∧ d.esz ≤ 4096) && d.fld 1 16 48 == 0 && (!d.idx || decide (2 ≤ d.dims))
    , dimOk 0, dimOk 1, dimOk 2, dimOk 3
    , d.fld 6 22 42 == 0 && decide (d.idxOff % 4 = 0) &&
        (if d.idx then decide (d.idxOff + 4 * d.cnt 1 ≤ 2 ^ 22) else d.idxOff == 0)
    , d.fld 7 0 64 == 0 ]

/-- A window image (R299). -/
def Desc.winBad (d : Desc) : Option Nat :=
  firstBad
    [ true
    , (d.esz == 1 || d.esz == 2 || d.esz == 4) && d.win && d.fld 1 13 3 == 0 && d.fld 1 33 31 == 0
    , d.hh != 0 && d.ww != 0 && d.fld 2 56 8 == 0
    , d.oh != 0 && d.ow != 0 && d.kpad != 0 && decide (d.kk ≤ d.kpad) && decide (d.kpad * d.esz % 64 = 0) && d.fld 3 52 12 == 0
    , d.fld 4 40 24 == 0, d.fld 5 40 24 == 0, d.fld 6 32 32 == 0, d.fld 7 0 64 == 0 ]

/-- A pattern image (R300). -/
def Desc.patBad (d : Desc) : Option Nat :=
  firstBad ([d.fld 0 7 57 == 0] ++ (List.range 7).map fun k => d.fld (k + 1) 0 64 == 0)

/-- Bytes of a ring's slot. -/
def Desc.ringSlot (d : Desc) : Nat := 8 * 2 ^ d.fld 0 22 3
/-- Slots of a ring. -/
def Desc.ringN (d : Desc) : Nat := 2 ^ d.fld 0 25 5
/-- Scratch offset of slot 0. -/
def Desc.ringBase (d : Desc) : Nat := d.fld 0 0 22
/-- Scratch offset of the header. -/
def Desc.ringHdr (d : Desc) : Nat := d.fld 0 32 22

/-- A ring image (R271). -/
def Desc.ringBad (d : Desc) : Option Nat :=
  let e := d.ringBase + d.ringN * d.ringSlot
  firstBad ([ decide (d.fld 0 22 3 ≤ 6) && decide (1 ≤ d.fld 0 25 5 ∧ d.fld 0 25 5 ≤ 16) && d.fld 0 30 2 == 0 && d.fld 0 54 10 == 0
      && decide (d.ringBase % d.ringSlot = 0) && decide (d.ringHdr % 16 = 0) && decide (e ≤ 2 ^ 22)
      && (decide (d.ringHdr + 16 ≤ d.ringBase) || decide (e ≤ d.ringHdr)) ]
    ++ (List.range 7).map fun k => d.fld (k + 1) 0 64 == 0)

/-! ### Elements of a plain map (R298) -/

/-- Elements of a plain map. -/
def Desc.elems (d : Desc) : Nat := ((List.range d.dims).map d.cnt).foldl (· * ·) 1

/-- The index list's entry, read from the scratch of the sector that uses the descriptor. -/
def State.indexAt (s : State) (sid : Nat) (d : Desc) (i : Nat) : Nat :=
  let a := scratchAt sid (d.idxOff + 4 * i)
  if s.reserved a 4 then 0 else natOf (s.rdBytes a 4)

/-- The address of element number i; index gives Index[i1]. -/
def Desc.elemAddr (d : Desc) (index : Nat → Nat) (i : Nat) : Word :=
  let i0 := i % d.cnt 0
  let i1 := i / d.cnt 0 % d.cnt 1
  let i2 := i / (d.cnt 0 * d.cnt 1) % d.cnt 2
  let i3 := i / (d.cnt 0 * d.cnt 1 * d.cnt 2)
  let j := if d.idx then index i1 else i1
  BitVec.ofInt 64 ((d.base : Int) + i0 * d.stride 0 + j * d.stride 1 + i2 * d.stride 2 + i3 * d.stride 3)

/-! ### Elements of a window walk (R299) -/

/-- The input address of walk element e, or none where the walk emits FILL or zero; the second part is that constant. -/
def Desc.winElem (d : Desc) (e : Nat) : Option Word × Nat :=
  let p := e / d.kpad
  let k := e % d.kpad
  if d.qq ≤ p ∨ d.kk ≤ k then (none, 0)
  else
    let kr := k / (d.kw * d.wc)
    let ks := k / d.wc % d.kw
    let c := k % d.wc
    let y : Int := (p / d.ow * d.sh : Nat) - (d.padt : Int) + kr
    let x : Int := (p % d.ow * d.sw : Nat) - (d.padl : Int) + ks
    if 0 ≤ y ∧ y < d.hh ∧ 0 ≤ x ∧ x < d.ww then
      (some (BitVec.ofInt 64 ((d.base : Int) + y * d.rowStr + x * d.colStr + (c * d.esz : Nat))), 0)
    else (none, d.fill % 2 ^ (8 * d.esz))

/-! ### Push programs (R274) -/

/-- What a push program gives at an element position. -/
inductive Push where
  | elem (off : Nat)
  | ended
  | bad
  | poison
deriving DecidableEq, Repr

/-- A push record's word 0 and word 1; none where it is poisoned. -/
abbrev PushRec := Option (Nat × Nat)

/-- The element at a position of a program (R274). -/
def pushAt : List PushRec → Nat → Push
  | [], _ => .bad
  | none :: _, _ => .poison
  | some (w0, w1) :: t, pos =>
    if bitsAt w0 51 13 ≠ 0 ∨ w1 ≠ 0 then .bad
    else
      let n := bitsAt w0 14 14 + 1
      let total := n * (bitsAt w0 42 8 + 1)
      if pos < total then
        .elem ((((bitsAt w0 0 14 : Nat) : Int) + ((pos % n : Nat) : Int) * sintOf (bitsAt w0 28 14) 14) % 16384).toNat
      else if bitAt w0 50 then .ended
      else pushAt t (pos - total)

/-- The push program of a slice. A poisoned record gives no value (R343, R410). -/
def State.pushProg (s : State) (die j : Nat) : List PushRec :=
  (List.range 16).map fun k =>
    let a := edgeProgAt die j (16 * k)
    if s.isPoison a then none else some ((s.rdWord a).toNat, (s.rdWord (a + 8)).toNat)

/-- The port that an edge slice of a die feeds: its sector and its number (R273). -/
def slicePort (die j : Nat) : Nat × Nat :=
  let sx := j % 64 / 8
  if j < 64 then (die * 64 + sx, 2 * (j % 8) + 1) else (die * 64 + 56 + sx, 112 + 2 * (j % 8))

/-! ### What a stream moves at a position -/

/-- One piece of a 64-byte element: bytes of memory, bytes of an edge slice, constant bytes, or bytes whose place stands in poisoned memory. -/
inductive Piece where
  | mem (va : Word) (n : Nat)
  | slice (phys n : Nat)
  | const (v n : Nat)
  | poison (n : Nat)
deriving DecidableEq, Repr

/-- The element of a binding at a position: its pieces, the end of its pattern, or a bad push record. -/
inductive Plan where
  | elem (l : List Piece)
  | ended
  | bad
deriving DecidableEq, Repr

/-- The descriptor of a binding with its base offset (R212). -/
def Bind.map (b : Bind) : Desc := b.desc.addBase b.base

/-- Bytes of memory as the pieces of one access: each lies in one aligned granule of 64 bytes, so that each is translated for itself (R281, R361). -/
def memPieces (va : Word) (n : Nat) : List Piece :=
  let k := min n (64 - va.toNat % 64)
  if k = n then [.mem va n] else [.mem va k, .mem (va + BitVec.ofNat 64 k) (n - k)]

/-- The word of an index list that gives an element's dimension 1 is poisoned (R343, R410). -/
def State.indexPoison (s : State) (sid : Nat) (d : Desc) (pos : Nat) : Bool :=
  d.idx && s.isPoison (scratchAt sid (d.idxOff + 4 * (pos / d.cnt 0 % d.cnt 1)))

/-- What a binding of a sector moves at a position (R298, R299, R303). An element whose index or push record is poisoned arrives poisoned. DESIGN CHOICE (log 136). -/
def State.plan (s : State) (sid : Nat) (b : Bind) (pos : Nat) : Plan :=
  let d := b.map
  if d.tag = tagPattern then
    let j := d.fld 0 0 7
    match pushAt (s.pushProg (dieOf sid) j) pos with
    | .elem off => .elem [.slice (edgeAt (dieOf sid) j (64 * off)) 64]
    | .ended => .ended
    | .bad => .bad
    | .poison => .elem [.poison 64]
  else if d.win then
    let per := 64 / d.esz
    if d.pp * d.kpad / per ≤ pos then .ended
    else .elem ((List.range per).flatMap fun k =>
      match d.winElem (pos * per + k) with
      | (some va, _) => memPieces va d.esz
      | (none, v) => [.const v d.esz])
  else if d.elems ≤ pos then .ended
  else if s.indexPoison sid d pos then .elem [.poison 64]
  else .elem [.mem (d.elemAddr (s.indexAt sid d) pos) 64]

end Sys2Proof.Machine
end

