-- ==== Sys2Proof/Machine/ArithCtl.lean ====
section
/-! DEFINITION. The control arithmetic: the integer group (R113), the immediate group (R114), compares (R115) and predicate logic (R116). Each reads its sources, writes one destination and goes on to the next word (R112). -/

namespace Sys2Proof.Machine

open Sys2Proof

/-- The outcome of a step. -/
abbrev Out1 := Host.Outcome State Fault Refusal

/-- A scalar result written, then the next word. -/
def State.putS (s : State) (rd : Reg) (v : Word) : Out1 := .next (s.wrS rd v).advance

/-- A predicate result written, then the next word. -/
def State.putP (s : State) (pd : PReg) (b : Bool) : Out1 := .next (s.wrP pd b).advance

/-- A truth value as a scalar. -/
def boolW (b : Bool) : Word := if b then 1 else 0

/-- A shift count: the low six bits (R113). -/
def shCount (b : Word) : Nat := b.toNat % 64

/-- The quotient of div with its borderline cases (R113). -/
def divS (a b : Word) : Word :=
  if b = 0 then BitVec.allOnes 64
  else if a.toInt = -2 ^ 63 ∧ b.toInt = -1 then a
  else BitVec.ofInt 64 (a.toInt.tdiv b.toInt)

/-- The remainder of rem with its borderline cases (R113). -/
def remS (a b : Word) : Word :=
  if b = 0 then a
  else if a.toInt = -2 ^ 63 ∧ b.toInt = -1 then 0
  else BitVec.ofInt 64 (a.toInt - b.toInt * a.toInt.tdiv b.toInt)

/-- Leading zeros of n low bits. -/
def clzN : Nat → Nat → Nat
  | 0, _ => 0
  | n + 1, v => if bitAt v n then 0 else 1 + clzN n v

/-- One bits among the n low bits. -/
def popN : Nat → Nat → Nat
  | 0, _ => 0
  | n + 1, v => (if bitAt v n then 1 else 0) + popN n v

/-! ### The integer group (R113) -/

/-- R113 add. -/
def execAdd (rd ra rb : Reg) (s : State) : Out1 := s.putS rd (s.rdS ra + s.rdS rb)
/-- R113 sub. -/
def execSub (rd ra rb : Reg) (s : State) : Out1 := s.putS rd (s.rdS ra - s.rdS rb)
/-- R113 mul, low half. -/
def execMul (rd ra rb : Reg) (s : State) : Out1 := s.putS rd (BitVec.ofInt 64 ((s.rdS ra).toInt * (s.rdS rb).toInt))
/-- R113 mulh, signed high half. -/
def execMulh (rd ra rb : Reg) (s : State) : Out1 := s.putS rd (BitVec.ofInt 64 ((s.rdS ra).toInt * (s.rdS rb).toInt / 2 ^ 64))
/-- R113 mulhn, unsigned high half. -/
def execMulhn (rd ra rb : Reg) (s : State) : Out1 := s.putS rd (BitVec.ofNat 64 ((s.rdS ra).toNat * (s.rdS rb).toNat / 2 ^ 64))
/-- R113 div. -/
def execDiv (rd ra rb : Reg) (s : State) : Out1 := s.putS rd (divS (s.rdS ra) (s.rdS rb))
/-- R113 divn. -/
def execDivn (rd ra rb : Reg) (s : State) : Out1 :=
  s.putS rd (if s.rdS rb = 0 then BitVec.allOnes 64 else s.rdS ra / s.rdS rb)
/-- R113 rem. -/
def execRem (rd ra rb : Reg) (s : State) : Out1 := s.putS rd (remS (s.rdS ra) (s.rdS rb))
/-- R113 remn. -/
def execRemn (rd ra rb : Reg) (s : State) : Out1 :=
  s.putS rd (if s.rdS rb = 0 then s.rdS ra else s.rdS ra % s.rdS rb)
/-- R113 and. -/
def execAnd (rd ra rb : Reg) (s : State) : Out1 := s.putS rd (s.rdS ra &&& s.rdS rb)
/-- R113 or. -/
def execOr (rd ra rb : Reg) (s : State) : Out1 := s.putS rd (s.rdS ra ||| s.rdS rb)
/-- R113 xor. -/
def execXor (rd ra rb : Reg) (s : State) : Out1 := s.putS rd (s.rdS ra ^^^ s.rdS rb)
/-- R113 shl. -/
def execShl (rd ra rb : Reg) (s : State) : Out1 := s.putS rd (s.rdS ra <<< shCount (s.rdS rb))
/-- R113 shr, zero fill. -/
def execShr (rd ra rb : Reg) (s : State) : Out1 := s.putS rd (s.rdS ra >>> shCount (s.rdS rb))
/-- R113 sra, sign fill. -/
def execSra (rd ra rb : Reg) (s : State) : Out1 := s.putS rd ((s.rdS ra).sshiftRight (shCount (s.rdS rb)))
/-- R113 min, signed. -/
def execMin (rd ra rb : Reg) (s : State) : Out1 := s.putS rd (if (s.rdS ra).slt (s.rdS rb) then s.rdS ra else s.rdS rb)
/-- R113 max, signed. -/
def execMax (rd ra rb : Reg) (s : State) : Out1 := s.putS rd (if (s.rdS rb).slt (s.rdS ra) then s.rdS ra else s.rdS rb)
/-- R113 minn, unsigned. -/
def execMinn (rd ra rb : Reg) (s : State) : Out1 := s.putS rd (if (s.rdS ra).ult (s.rdS rb) then s.rdS ra else s.rdS rb)
/-- R113 maxn, unsigned. -/
def execMaxn (rd ra rb : Reg) (s : State) : Out1 := s.putS rd (if (s.rdS rb).ult (s.rdS ra) then s.rdS ra else s.rdS rb)
/-- R113 slt. -/
def execSlt (rd ra rb : Reg) (s : State) : Out1 := s.putS rd (boolW ((s.rdS ra).slt (s.rdS rb)))
/-- R113 sltn. -/
def execSltn (rd ra rb : Reg) (s : State) : Out1 := s.putS rd (boolW ((s.rdS ra).ult (s.rdS rb)))
/-- R113 clz. -/
def execClz (rd ra : Reg) (s : State) : Out1 := s.putS rd (BitVec.ofNat 64 (clzN 64 (s.rdS ra).toNat))
/-- R113 popc. -/
def execPopc (rd ra : Reg) (s : State) : Out1 := s.putS rd (BitVec.ofNat 64 (popN 64 (s.rdS ra).toNat))
/-- R113 sel. -/
def execSel (rd : Reg) (p : PReg) (ra rb : Reg) (s : State) : Out1 := s.putS rd (if s.rdP p then s.rdS ra else s.rdS rb)

/-! ### The immediate group (R114) -/

/-- R114 addi. -/
def execAddi (rd ra : Reg) (imm : BitVec 32) (s : State) : Out1 := s.putS rd (s.rdS ra + sx imm)
/-- R114 andi. -/
def execAndi (rd ra : Reg) (imm : BitVec 32) (s : State) : Out1 := s.putS rd (s.rdS ra &&& sx imm)
/-- R114 ori. -/
def execOri (rd ra : Reg) (imm : BitVec 32) (s : State) : Out1 := s.putS rd (s.rdS ra ||| sx imm)
/-- R114 xori. -/
def execXori (rd ra : Reg) (imm : BitVec 32) (s : State) : Out1 := s.putS rd (s.rdS ra ^^^ sx imm)
/-- R114 shli. -/
def execShli (rd ra : Reg) (n : BitVec 6) (s : State) : Out1 := s.putS rd (s.rdS ra <<< n.toNat)
/-- R114 shri. -/
def execShri (rd ra : Reg) (n : BitVec 6) (s : State) : Out1 := s.putS rd (s.rdS ra >>> n.toNat)
/-- R114 srai. -/
def execSrai (rd ra : Reg) (n : BitVec 6) (s : State) : Out1 := s.putS rd ((s.rdS ra).sshiftRight n.toNat)
/-- R114 slti. -/
def execSlti (rd ra : Reg) (imm : BitVec 32) (s : State) : Out1 := s.putS rd (boolW ((s.rdS ra).slt (sx imm)))
/-- R47, R114 li. -/
def execLi (rd : Reg) (imm : BitVec 32) (s : State) : Out1 := s.putS rd (sx imm)
/-- R47, R114 lhi. -/
def execLhi (rd ra : Reg) (imm : BitVec 32) (s : State) : Out1 := s.putS rd (imm ++ (s.rdS ra).setWidth 32)

/-! ### Compares and predicate logic (R115, R116) -/

/-- R115 cmp. -/
def execCmp (c : Cond) (pd : PReg) (ra rb : Reg) (s : State) : Out1 := s.putP pd (c.holds (s.rdS ra) (s.rdS rb))
/-- R115 cmpi. -/
def execCmpi (c : Cond) (pd : PReg) (ra : Reg) (imm : BitVec 32) (s : State) : Out1 := s.putP pd (c.holds (s.rdS ra) (sx imm))
/-- R55 pand. -/
def execPand (pd pa pb : PReg) (s : State) : Out1 := s.putP pd (s.rdP pa && s.rdP pb)
/-- R55 por. -/
def execPor (pd pa pb : PReg) (s : State) : Out1 := s.putP pd (s.rdP pa || s.rdP pb)
/-- R55 pxor. -/
def execPxor (pd pa pb : PReg) (s : State) : Out1 := s.putP pd (s.rdP pa != s.rdP pb)
/-- R55 pandn. -/
def execPandn (pd pa pb : PReg) (s : State) : Out1 := s.putP pd (s.rdP pa && !s.rdP pb)
/-- R55 porn. -/
def execPorn (pd pa pb : PReg) (s : State) : Out1 := s.putP pd (s.rdP pa || !s.rdP pb)
/-- R55 pmov. -/
def execPmov (pd pa : PReg) (s : State) : Out1 := s.putP pd (s.rdP pa)
/-- R55 pnot. -/
def execPnot (pd pa : PReg) (s : State) : Out1 := s.putP pd (!s.rdP pa)

end Sys2Proof.Machine
end

