-- ==== Sys2Proof/Machine/Fetch.lean ====
section
/-! DEFINITION. What stands around the effect of a control word: the fetch of fetch blocks (R369, R375, R385), the checks of R48 in their order, and the guard (R46, R49). -/

namespace Sys2Proof.Machine

open Sys2Proof

/-- The first address of the TEXT section of a sector's sealed object, and its size (R385). -/
def State.textSpan (s : State) (x : Sector) : Option (Nat × Nat) :=
  match s.task? x.task with
  | none => none
  | some t =>
    match s.launch? t.launch with
    | none => none
    | some l =>
      let o := (Tab.get {} (s.ctx t.ctx).handles l.hslot).obj
      some (o.va.toNat + o.textOff, o.textSize)

/-- The word at an address in a held block. -/
def FetchBlk.word (b : FetchBlk) (pc : Nat) : Option Word :=
  if b.base ≤ pc ∧ pc + 8 ≤ b.base + b.bytes.length then
    some (BitVec.ofNat 64 (natOf ((b.bytes.drop (pc - b.base)).take 8)))
  else none

/-- A word of a held block lies in a granule that was poisoned when the block was fetched (R410). -/
def FetchBlk.poisoned (b : FetchBlk) (pc : Nat) : Bool := b.bad.contains (pc / 64)

/-- The outcome of the fetch of one word. -/
inductive Fetched where
  | word (s : State) (w : Word)
  | trap (s : State) (c : Cause) (v : Word)
  | hold (s : State)
deriving DecidableEq, Repr

/-- The trap FETCH_FAULT. No rule names its TRAPVAL, so that is a free value (log 9). -/
def State.fetchFault (s : State) : Fetched :=
  .trap { s with fresh := s.fresh + 1 } .fetchFault (Config.freeWord s.fresh)

/-- The range cache of the acting core after a lookup: 16 entries (R366, R369). -/
def State.noteRc (s : State) (t : Tgt) : State :=
  match t.idx with
  | none => s
  | some i => s.modSec s.cur fun x => { x with rcache := i :: (x.rcache.filter fun k => k != i).take 15 }

/-- The range cache after a lookup of an address by a check at an issue: an absent or invalid entry fills nothing (R366, R369). -/
def State.noteRcAt (s : State) (va : Word) : State :=
  match (if isVirt va then findRt (s.ctx (s.sec s.cur).ctx).rt va.toNat else none) with
  | some (i, e) => if pwValid e.pw e.frame then s.noteRc { idx := some i } else s
  | none => s

/-- The wait in which a thread begins the word at its program counter: that of the sbar there that a notice or a stop had broken into, else none (R213, R240). -/
def Thread.waitHere (t : Thread) : Wait :=
  match t.barHeld with
  | some b => if b.1 = t.pc then .bar b.2.1 b.2.2 else .none
  | none => .none

/-- The fetch block that holds an address, translated once and read (R369). Each of its lines meets the errors of its own transfer (R404, R405, R424); the granules of a line that arrives contained are poisoned in it, and so are all of a block whose module stays out of reach for 10 microseconds (R395; DESIGN CHOICE, log 135). -/
def State.fetchBlock (s : State) (pc : Nat) : Fetched ⊕ (State × FetchBlk) :=
  let x := s.sec s.cur
  match s.textSpan x with
  | none => .inl s.fetchFault
  | some (lo, n) =>
    if pc < lo ∨ lo + n < pc + 8 then .inl s.fetchFault
    else
      let b := max lo (pc / 512 * 512)
      let e := min (lo + n) (pc / 512 * 512 + 512)
      match (if pc < 2 ^ 55 then s.xlateV x.ctx b .fetch else .fault) with
      | .hold => .inl (.hold s)
      | .ok t =>
        let gs := (List.range 8).map fun i => pc / 512 * 8 + i
        let blk := fun (u : State) (lost : Nat → Bool) =>
          Sum.inr (u.noteRc t, ({ base := b, bytes := u.rdTgt t (e - b), bad := gs.filter fun g => lost g || u.tgtPoison (t.shift (g * 64 - b)) 64 } : FetchBlk))
        if s.unreachable t then match s.th.wait with
          | .link k => if k = 0 then blk s fun _ => true else .inl (.hold s)
          | _ => .inl (.hold (s.setWait (.link (s.cyc + linkWait))))
        else if s.readHeld s.cur t then .inl (.hold s)
        else
          let runs := t.lineRuns 5 (e - b)
          match s.meetRuns s.cur runs with
          | (u, none) => .inl (.hold u)
          | (u, some bads) => blk (u.forgetRuns s.cur runs) fun g => (runs.zip bads).any fun p =>
              let a := b + (p.1.1.off - t.off)
              p.2 && decide (g * 64 < a + p.1.2) && decide (a < (g + 1) * 64)
      | _ => .inl s.fetchFault

/-- The word at a thread's program counter, from the held block or from the block fetched now. -/
def State.fetchAt (s : State) : Fetched ⊕ (State × FetchBlk × Word) :=
  let pc := s.pc.toNat
  match s.th.fblk.bind fun b => (b.word pc).map fun w => (s, b, w) with
  | some p => .inr p
  | none =>
    match s.fetchBlock pc with
    | .inl f => .inl f
    | .inr (u, b) =>
      match b.word pc with
      | some w => .inr (u, b, w)
      | none => .inl s.fetchFault

/-- The next word of a thread (R48 FetchWord). The word in execution stays while it waits (R375, R400). A poisoned word is not held: reaching it again fetches again (log 9). An sbar that was broken into goes on in its wait (R240). -/
def State.fetch (s : State) : Fetched :=
  match s.th.word with
  | some w => .word s w
  | none =>
    match s.fetchAt with
    | .inl f => f
    | .inr (u, b, w) =>
      if b.poisoned s.pc.toNat then .trap (u.modTh fun t => { t with fblk := none }) .poison s.pc
      else .word (u.modTh fun t => { t with fblk := some b, word := some w, wait := t.waitHere, barHeld := none }) w

/-- What a control thread's turn comes to: an instruction to perform, or a state already reached. -/
inductive CtlTurn where
  | exec (i : Instr) (s : State)
  | done (s : State)
deriving DecidableEq, Repr

/-- The guard holds (R46). -/
def State.taken (s : State) (g : Guard) : Bool := s.rdP g.g != g.neg

/-- The thread can take a turn: it lives, has not halted, is not stopped, and waits for no handler (R27, R240, R411). -/
def Thread.runs (t : Thread) : Bool :=
  t.live && !t.halted && !t.stopped &&
  match t.wait with
  | .record _ => false
  | .answer _ => false
  | _ => true

/-- The thread of a sector waits for the replay of the chunks refused at its gang's save (R250, R252). -/
def State.replaying (s : State) (sid : Nat) : Bool := s.replayingTask (s.sec sid).task

/-- A control thread's turn up to the effect of its word: a held notice, the fetch, the checks, the guard (R48, R49, R244). -/
def State.ctlTurn (s0 : State) (sid : Nat) : CtlTurn :=
  let s := { s0 with cur := sid }
  if !s.th.runs || s.replaying sid then .done s
  else if s.th.notice.isSome ∧ !s.th.ts then .done (s.modTh fun t => t.takeNotice s.cyc)
  else
    match s.fetch with
    | .hold u => .done u
    | .trap s1 c v => .done (s1.takeTrap c v)
    | .word s1 w =>
      match decodeCtl w with
      | none => .done (s1.takeTrap .illegal w)
      | some (g, i) => if s1.taken g then .exec i s1 else .done s1.advance

end Sys2Proof.Machine
end

