-- ==== Sys2Proof/Machine/MemCtl.lean ====
section
/-! DEFINITION. The memory instructions of control threads: loads and stores (R288, R289), atomics (R290), versions (R291 to R293), fences (R294, R295) and prefetch (R296). -/

namespace Sys2Proof.Machine

open Sys2Proof

/-! ### Places of a thread's accesses -/

/-- The context of the acting thread. -/
def State.ctxId (s : State) : BitVec 8 := (s.sec s.cur).ctx

/-- A thread that waits for an unreachable module: the time-out comes after 10 microseconds, and lost says what follows (R395). -/
def State.linkHold (s : State) (lost : Res State) : Res State :=
  match s.th.wait with
  | .link t => if t = 0 then lost else .hold
  | _ => .ok (s.setWait (.link (s.cyc + 9400)))

/-- The place of a thread's access of n aligned bytes (R267, R288, R361): MISALIGNED, XLATE_FAULT, PERMISSION with TRAPVAL the address, then the waits of R345, R282 and R395 and the errors it meets. bad says what a contained transfer or a module out of reach does. -/
def State.place (s : State) (ea : Word) (n : Nat) (acc : Acc) (barred : Tgt → Bool) (k : State → Tgt → Res State) (bad : State → Tgt → Res State) :
    Res State :=
  if ea.toNat % n ≠ 0 then .trap .misaligned ea
  else match s.xlate s.ctxId s.cur ea acc with
    | .hold => .hold
    | .fault => .trap .xlateFault ea
    | .perm => .trap .permission ea
    | .ok t =>
      if barred t then .trap .permission ea
      else if s.unreachable t then s.linkHold (bad s t)
      else if acc ≠ .write ∧ s.readHeld s.cur t then .hold
      else match s.strike s.cur t n with
        | .wait u => .ok u
        | .bad u => bad u t
        | .go u => k (u.noteRc t) t

/-- A read or an atomic that met a contained transfer, or whose module is out of reach, takes POISON (R395, R405, R410). -/
def poisonTrap (ea : Word) : State → Tgt → Res State := fun _ _ => .trap .poison ea

/-- A plain load of n bytes (R288). POISON goes before R31's zero: entry-queue bytes of a poisoned granule are not read as zero, by a thread or an engine. DESIGN CHOICE (log 117). -/
def State.load (s : State) (ea : Word) (n : Nat) (k : State → Nat → State) : Res State :=
  s.place ea n .read (fun _ => false)
    (fun u t => if u.tgtPoison t n then .trap .poison ea else .ok (k u (natOf (u.rdTgt t n)))) (poisonTrap ea)

/-- A plain store (R288): PERMISSION on SF and versioned pages and on entry-queue bytes (R31, R277, R284). A write whose transfer is contained is not performed, and its granules are poisoned (R405); one that cannot reach its module is reported (R395). -/
def State.storeTo (s : State) (ea : Word) (l : List Byte) : Res State :=
  s.place ea l.length .write (fun t => s.storeBarred t l.length)
    (fun u t => .ok (u.wrTgt u.ctxId u.cur t l).advance)
    (fun u t =>
      if t.ext then
        .ok (u.errorRec u.ctxId (((u.task? (u.sec u.cur).task).map Task.idx).getD 0) u.cur (BitVec.ofNat 64 (ea.toNat - t.off)) 0).advance
      else .ok (u.poisonRun t.phys l.length).advance)

/-- No plain store of a sector waits for its acknowledgements (R282). -/
def State.writesDone (s : State) (sid : Nat) : Bool := !(s.dups.any fun d => d.sid == sid)

/-! ### Loads and stores -/

/-- R288 ld: sign-extended. -/
def execLd (sz : Size) (rd ra : Reg) (imm : BitVec 32) (s : State) : Host.Outcome State Fault Refusal :=
  s.finish (s.load (s.ea ra imm) (szBytes sz) fun u v => (u.wrS rd (BitVec.ofInt 64 (signedOf (8 * szBytes sz) v))).advance)
/-- R288 ldn: zero-extended. -/
def execLdn (sz : Size) (rd ra : Reg) (imm : BitVec 32) (s : State) : Host.Outcome State Fault Refusal :=
  s.finish (s.load (s.ea ra imm) (szBytes sz) fun u v => (u.wrS rd (BitVec.ofNat 64 v)).advance)
/-- R288 st. -/
def execSt (sz : Size) (rv ra : Reg) (imm : BitVec 32) (s : State) : Host.Outcome State Fault Refusal :=
  s.finish (s.storeTo (s.ea ra imm) (bytesOf (szBytes sz) (s.rdS rv).toNat))

/-! ### Atomics (R290) -/

/-- The bytes of an atomic's width. -/
def amoBytes (dbl : Bool) : Nat := if dbl then 8 else 4

/-- An atomic at its home: g gives what is written, if anything, from the old value (R290). PERMISSION on SF and versioned pages and on entry-queue bytes. -/
def State.atomic (s : State) (ea : Word) (n : Nat) (rd : Reg) (g : Nat → Option Nat) : Res State :=
  s.place ea n .both (fun t => s.storeBarred t n)
    (fun u t =>
      if u.tgtPoison t n then .trap .poison ea
      else
        let old := natOf (u.rdTgt t n)
        let u1 := match g old with
          | some v => u.store t.phys (bytesOf n v)
          | none => u
        .ok (u1.wrS rd (BitVec.ofNat 64 old)).advance)
    (poisonTrap ea)

/-- R56, R290 amo. -/
def execAmo (op : AmoOp) (dbl : Bool) (rd ra rb : Reg) (s : State) : Host.Outcome State Fault Refusal :=
  let n := amoBytes dbl
  s.finish (s.atomic (s.rdS ra) n rd fun old => some (op.val (8 * n) old ((s.rdS rb).toNat % 2 ^ (8 * n))))
/-- R56, R290 amo.cas. -/
def execAmoCas (dbl : Bool) (rd ra rb rc : Reg) (s : State) : Host.Outcome State Fault Refusal :=
  let n := amoBytes dbl
  s.finish (s.atomic (s.rdS ra) n rd fun old =>
    if old = (s.rdS rc).toNat % 2 ^ (8 * n) then some ((s.rdS rb).toNat % 2 ^ (8 * n)) else none)

/-! ### Versions (R291 to R293) -/

/-- A version instruction's access to an object: a page that is not versioned takes PERMISSION, a poisoned line POISON (R291, R410). -/
def State.object (s : State) (ea : Word) (acc : Acc) (k : State → Tgt → Res State) : Res State :=
  s.place ea 8 acc (fun t => !t.ver)
    (fun u t => if u.poisonIn t.line 64 then .trap .poison ea else k u t) (poisonTrap ea)

/-- R291 ldv: it waits for a version that does not exist. The scope orders accesses that other observers see (R335). -/
def execLdv (_sc : Scope) (rd ra rb : Reg) (s : State) : Host.Outcome State Fault Refusal :=
  s.finish (s.object (s.rdS ra) .read fun u t =>
    let v := (s.rdS rb).toNat
    if v < u.vFloor t.line then .trap .versionRetired (s.rdS rb)
    else if v < u.vNext t.line then .ok (u.wrS rd (u.vVal t.line v)).advance
    else .hold)
/-- R292 stv: it waits while four versions are live, and, as a release, for the thread's own writes (R282, R335). -/
def execStv (_sc : Scope) (ra rb : Reg) (s : State) : Host.Outcome State Fault Refusal :=
  s.finish (s.object (s.rdS ra) .both fun u t =>
    if u.vFull t.line || !u.writesDone u.cur then .hold
    else .ok (u.makeVersion t (s.rdS rb)).advance)
/-- R293 vrcl. -/
def execVrcl (ra rb : Reg) (s : State) : Host.Outcome State Fault Refusal :=
  s.finish (s.object (s.rdS ra) .both fun u t => .ok (u.vRetire t.line (s.rdS rb).toNat).settle.advance)

/-! ### Fences and prefetch (R294 to R296) -/

/-- R294 fence: every earlier access has been performed once no write of the thread waits (R282). -/
def execFence (_sc : Scope) (s : State) : Host.Outcome State Fault Refusal :=
  .next (if s.writesDone s.cur then s.advance else s)
/-- R295 fence.layer. -/
def execFenceLayer (s : State) : Host.Outcome State Fault Refusal :=
  .next (if s.writesDone s.cur then s.advance else s)

/-- R296 pfch: it asks for a line, and takes no trap. Bringing a line in, or staging it, changes no value. -/
def execPfch (_ra : Reg) (_imm : BitVec 32) (s : State) : Host.Outcome State Fault Refusal := .next s.advance

end Sys2Proof.Machine
end

