-- ==== Sys2Proof/Machine/FlowCtl.lean ====
section
/-! DEFINITION. Transfers (R50, R218), barriers, signals, halt and nop (R219 to R222), and the meetings of threads (R33, R219, R227). -/

namespace Sys2Proof.Machine

open Sys2Proof

/-! ### Transfers (R218) -/

/-- A jump to an address; the held fetch block serves it while it lies inside (R369). -/
def State.jump (s : State) (v : Word) : Out1 := .next (s.setPc v)

/-- R218 j. -/
def execJ (off : BitVec 32) (s : State) : Host.Outcome State Fault Refusal := s.jump (s.branchTo off)
/-- R218 jal: the link is s31. -/
def execJal (off : BitVec 32) (s : State) : Host.Outcome State Fault Refusal := (s.wrS 31 (s.pc + 8)).jump (s.branchTo off)
/-- R218 jr; R50 MISALIGNED. -/
def execJr (ra : Reg) (s : State) : Host.Outcome State Fault Refusal :=
  s.finish (if (s.rdS ra).toNat % 8 = 0 then .ok (s.setPc (s.rdS ra)) else .trap .misaligned (s.rdS ra))
/-- R218 jalr: sa is read before sd is written. -/
def execJalr (rd ra : Reg) (s : State) : Host.Outcome State Fault Refusal :=
  s.finish (if (s.rdS ra).toNat % 8 = 0 then .ok ((s.wrS rd (s.pc + 8)).setPc (s.rdS ra)) else .trap .misaligned (s.rdS ra))
/-- R218 bcc. -/
def execBcc (c : Cond) (ra rb : Reg) (off : BitVec 32) (s : State) : Host.Outcome State Fault Refusal :=
  if c.holds (s.rdS ra) (s.rdS rb) then s.jump (s.branchTo off) else .next s.advance
/-- R218 loop. -/
def execLoop (ra : Reg) (off : BitVec 32) (s : State) : Host.Outcome State Fault Refusal :=
  let v := s.rdS ra - 1
  if v ≠ 0 then (s.wrS ra v).jump (s.branchTo off) else .next (s.wrS ra v).advance

/-! ### Meetings -/

/-- The kinds of words that threads meet at, each with its own count; sdrain is one with its option or without (R33, R227, R319). -/
inductive Meet where
  | gbar | cfgarm | cfgsw | sdrain | coll
deriving DecidableEq, Repr

/-- The number of a kind. -/
def Meet.code : Meet → Nat
  | .gbar => 0 | .cfgarm => 1 | .cfgsw => 2 | .sdrain => 3 | .coll => 4

/-- How many words of a kind a thread has completed. -/
def Thread.count (t : Thread) (k : Meet) : Nat := Tab.get 0 t.meets k.code

/-- One more word of a kind completed. -/
def Thread.counted (t : Thread) (k : Meet) : Thread := { t with meets := Tab.put t.meets k.code (t.count k + 1) }

/-- A thread has reached the n-th word of a kind: it has completed it, or waits in it. -/
def Thread.reached (t : Thread) (k : Meet) (n : Nat) : Bool := decide (n ≤ t.count k) || t.wait == .met k.code n

/-- Every thread of the sectors listed has reached the n-th word of a kind. -/
def State.allMet (s : State) (sids : List Nat) (k : Meet) (n : Nat) : Bool := sids.all fun i => (s.sec i).th.reached k n

/-- The acting thread waits in its next word of a kind; its number. -/
def State.arrive (s : State) (k : Meet) : State × Nat :=
  let n := s.th.count k + 1
  (s.setWait (.met k.code n), n)

/-- The sectors of the acting gang. -/
def State.gangSids (s : State) : List Nat :=
  match s.task? (s.sec s.cur).task with
  | some t => t.sids
  | none => [s.cur]

/-- The sectors of the acting instance. -/
def State.instSids (s : State) : List Nat :=
  match s.task? (s.sec s.cur).task with
  | some t => (t.insts.getD (s.sec s.cur).inst {}).sids
  | none => [s.cur]

/-! ### gbar, sig, halt, nop -/

/-- R33, R219 gbar: a release and an acquire, so the thread's own writes are performed first (R282). -/
def execGbar (s : State) : Host.Outcome State Fault Refusal :=
  if !s.writesDone s.cur then .next s
  else
    let a := s.arrive .gbar
    if a.1.allMet a.1.gangSids .gbar a.2 then .next (a.1.modTh fun t => t.counted .gbar).advance
    else .next a.1

/-- The words of a signal record (R220). -/
def State.sigWords (s : State) (n : BitVec 8) : List Word :=
  let x := s.sec s.cur
  [s.cycW, recWord2 (((s.task? x.task).map Task.idx).getD 0) n s.cur x.ctx 0]

/-- R220 sig: it waits while the ring is full; as a release it follows the thread's own writes. A faulting append ends the context (R383). -/
def execSig (n : BitVec 8) (s : State) : Host.Outcome State Fault Refusal :=
  if (s.ctx s.ctxId).sr.full || !s.writesDone s.cur then .next s
  else
    let p := s.postRec { ctx := s.ctxId, sig := true, words := s.sigWords n, task := (s.sec s.cur).task }
    .next (if p.2 then p.1.advance else p.1)

/-- A resident task whose threads have all halted is DRAINING (R185). -/
def State.drainTask (s : State) (id : Nat) : State :=
  match s.task? id with
  | some t => if t.st = .resident ∧ t.sids.all fun k => (s.sec k).th.halted then s.setTask { t with st := .draining } else s
  | none => s

/-- R221 halt. -/
def execHalt (s : State) : Host.Outcome State Fault Refusal :=
  .next ((s.modTh fun t => { t with halted := true, wait := .none, word := none }).drainTask (s.sec s.cur).task)
/-- R222 nop. -/
def execNop (s : State) : Host.Outcome State Fault Refusal := .next s.advance

end Sys2Proof.Machine
end

