-- ==== Sys2Proof/Machine/DescCtl.lean ====
section
/-! DEFINITION. The descriptor instructions (R297 to R301) and the ring instructions (R318, R319). -/

namespace Sys2Proof.Machine

open Sys2Proof

/-! ### tmap (R297) -/

/-- The sealed object that holds the acting thread's code (R385). -/
def State.ownObj (s : State) : Option Obj :=
  match s.task? (s.sec s.cur).task with
  | none => none
  | some t => (s.launch? t.launch).map fun l => (Tab.get {} (s.ctx t.ctx).handles l.hslot).obj

/-- The trap HANDLE of a word that finds another tag (R45). -/
def tagTrap {α : Type} (d : Desc) : Res α := .trap .handle (d.tag.setWidth 64)

/-- The image of a tmap read as one load of 64 bytes (R288, R297). -/
def State.image (s : State) (src : TmapSrc) (k : State → Pay → Res State) : Res State :=
  let rd := fun (ea : Word) => s.place ea 64 .read (fun _ => false)
    (fun u t => if u.tgtPoison t 64 then .trap .poison ea else k u (BitVec.ofNat 512 (natOf (u.rdTgt t 64)))) (poisonTrap ea)
  match src with
  | .addr ra => rd (s.rdS ra)
  | .const off =>
    match s.ownObj with
    | none => .trap .handle 0x1FF
    | some o =>
      if o.constSize < off.toNat * 64 + 64 then .trap .handle 0x1FF
      else rd (o.va + BitVec.ofNat 64 (o.constOff + off.toNat * 64))

/-- A descriptor formed from an image that has passed its checks (R301). -/
def State.form (s : State) (dr : DReg) (src : TmapSrc) (tag : BitVec 4) (bad : Desc → Option Nat) : Host.Outcome State Fault Refusal :=
  s.finish (s.image src fun u p =>
    let d : Desc := { tag := tag, img := p }
    match bad d with
    | some i => .trap .handle (BitVec.ofNat 64 (0x100 + i))
    | none => .ok (u.wrD dr d).advance)

/-- R297, R298 tmap. -/
def execTmap (dr : DReg) (src : TmapSrc) (s : State) : Host.Outcome State Fault Refusal := s.form dr src tagTmap Desc.plainBad
/-- R297, R300 tmap.pat. -/
def execTmapPat (dr : DReg) (src : TmapSrc) (s : State) : Host.Outcome State Fault Refusal := s.form dr src tagPattern Desc.patBad
/-- R271, R297 tmap.ring. -/
def execTmapRing (dr : DReg) (src : TmapSrc) (s : State) : Host.Outcome State Fault Refusal := s.form dr src tagRing Desc.ringBad
/-- R297, R299 tmap.win. -/
def execTmapWin (dr : DReg) (src : TmapSrc) (s : State) : Host.Outcome State Fault Refusal := s.form dr src tagTmap Desc.winBad
/-- R297 tmap.copy: S[sa] is added to BASE of a TMAP; with another tag a non-zero S[sa] takes HANDLE. -/
def execTmapCopy (dm dn : DReg) (ra : Reg) (s : State) : Host.Outcome State Fault Refusal :=
  let d := s.rdD dn
  s.finish (if s.rdS ra = 0 then .ok (s.wrD dm d).advance
    else if d.tag ≠ tagTmap then tagTrap d
    else .ok (s.wrD dm (d.addBase (s.rdS ra))).advance)

/-! ### Rings (R272, R318, R319) -/

/-- The S-space address of a scratch offset. -/
def sAddr (off : Nat) : Word := BitVec.ofNat 64 (2 ^ 64 - 2 ^ 22 + off % 2 ^ 22)

/-- FILL and FREE of a ring's header, as a thread reads them. -/
def State.ringPtrs (s : State) (d : Desc) : Word × Word :=
  let a := scratchAt s.cur d.ringHdr
  if s.reserved a 16 then (0, 0) else (s.rdWord a, s.rdWord (a + 8))

/-- The checks that a ring instruction makes before it reads its header (R45, R410). -/
def State.ringOk (s : State) (d : Desc) (k : Res State) : Res State :=
  if d.tag ≠ tagRing then tagTrap d
  else if s.poisonIn (scratchAt s.cur d.ringHdr) 16 then .trap .poison (sAddr d.ringHdr)
  else k

/-- rwait: the filled or free slots are enough, and the pointer of the first comes back (R318). -/
def State.rwait (s : State) (rd : Reg) (d : Desc) (n : Word) (fill : Bool) : Res State :=
  s.ringOk d
    (let p := s.ringPtrs d
     let used := p.1 - p.2
     if d.ringN < n.toNat then .trap .handle n
     else if d.ringN < used.toNat then .trap .handle used
     else if (if fill then used.toNat else d.ringN - used.toNat) < n.toNat then .hold
     else .ok (s.wrS rd (if fill then p.2 else p.1)).advance)

/-- radv: a pointer advanced in one atomic access; the old pointer comes back (R319). A header out of range fails it, as it fails rwait (R272). No rule states the TRAPVAL of a refused addition: a free value (log 9). As a release it follows the thread's own writes. -/
def State.radv (s : State) (rd : Reg) (d : Desc) (n : Word) (fill : Bool) : Res State :=
  s.ringOk d
    (let p := s.ringPtrs d
     let used := (p.1 - p.2).toNat
     let a := scratchAt s.cur d.ringHdr
     if !s.writesDone s.cur then .hold
     else if decide (d.ringN < used) || (if fill then decide (d.ringN < used + n.toNat) else decide (used < n.toNat)) then
       .trap .handle (Config.freeWord s.fresh)
     else if s.reserved a 16 then .trap .permission (sAddr d.ringHdr)
     else if fill then .ok ((s.wrWord a (p.1 + n)).wrS rd p.1).advance
     else .ok ((s.wrWord (a + 8) (p.2 + n)).wrS rd p.2).advance)

/-- R318 rwait.fill. -/
def execRwaitFill (rd : Reg) (dr : DReg) (ra : Reg) (s : State) : Host.Outcome State Fault Refusal :=
  s.finish (s.rwait rd (s.rdD dr) (s.rdS ra) true)
/-- R318 rwait.free. -/
def execRwaitFree (rd : Reg) (dr : DReg) (ra : Reg) (s : State) : Host.Outcome State Fault Refusal :=
  s.finish (s.rwait rd (s.rdD dr) (s.rdS ra) false)
/-- R319 radv.fill. A refused addition draws its TRAPVAL, so the counter of free values moves on. -/
def execRadvFill (rd : Reg) (dr : DReg) (ra : Reg) (s : State) : Host.Outcome State Fault Refusal :=
  ({ s with fresh := s.fresh + 1 } : State).finish (s.radv rd (s.rdD dr) (s.rdS ra) true)
/-- R319 radv.free. -/
def execRadvFree (rd : Reg) (dr : DReg) (ra : Reg) (s : State) : Host.Outcome State Fault Refusal :=
  ({ s with fresh := s.fresh + 1 } : State).finish (s.radv rd (s.rdD dr) (s.rdS ra) false)

end Sys2Proof.Machine
end

