-- ==== Sys2Proof/Machine/Block.lean ====
section
/-! DEFINITION. The structure of a block: who feeds an operand position (R65, R66), loop inputs (R433), lockstep regions (R34), sources (R197), places of sites (R9, R10, R73), channel capacities (R198). -/

namespace Sys2Proof

/-- A target names a slot (R65). -/
def tgtIsSlot (t : BitVec 10) : Bool := decide (t.toNat < 512)

/-- The slot of a target. -/
def tgtSlot (t : BitVec 10) : Nat := t.toNat / 4 % 128

/-- The operand position of a target: 0 a, 1 b, 2 p, 3 o. -/
def tgtPos (t : BitVec 10) : Nat := t.toNat % 4

/-- The targets that a word names (R65). -/
def FabW.targets (w : FabW) : List (BitVec 10) := [w.t0, w.t1].filter fun t => t != tgtNone

/-- The slots that a word's targets name. -/
def FabW.nextSlots (w : FabW) : List Nat := (w.targets.filter tgtIsSlot).map tgtSlot

/-- An mld with its key local (R321). -/
def FabOp.isLocal (f : FabOp) : Bool := f.op == 0x60 && f.w.x.getLsbD 0

/-- A slot may stand in a lockstep region (R34). -/
def FabOp.eligible (f : FabOp) : Bool :=
  let o := f.op.toNat
  !(o == 0x70 || o == 0x71 || o == 0x72 || decide (0x40 ≤ o ∧ o ≤ 0x44) ||
    (decide (0x60 ≤ o ∧ o ≤ 0x65) && !f.isLocal))

namespace Machine

/-! ### Words and targets -/

/-- The slot word of a slot, in its fields. -/
def Blk.op (b : Blk) (k : Nat) : FabOp := getF (b.words.getD k 0)

/-- The opcode of a slot. -/
def Blk.opc (b : Blk) (k : Nat) : Nat := (b.op k).op.toNat

/-- The number of slots. -/
def Blk.n (b : Blk) : Nat := b.words.length

/-- Exits that a word feeds: its exit targets, and with steering the run of exits from t0 on (R156). -/
def fedExits (f : FabOp) : List Nat :=
  if f.op = 0x43 ∧ f.w.x.toNat / 64 % 2 = 1 then (List.range (f.w.x.toNat / 128 + 1)).map fun k => tgtSlot f.w.t0 + k
  else (f.w.targets.filter tgtExit).map tgtSlot

/-- The slot that feeds an exit (R66, R156). -/
def Blk.exitFeeder (b : Blk) (x : Nat) : Option Nat := (List.range b.n).find? fun k => (fedExits (b.op k)).contains x

/-- The number of entries (R61). -/
def Blk.entries (b : Blk) : Nat := b.enm1 + 1

/-- The slot that receives an entry at operand a (R61). -/
def Blk.entrySlot (b : Blk) (e : Nat) : Nat := bitsAt b.emap.toNat (8 * e) 7

/-- The entry that feeds a slot at operand a. -/
def Blk.entryOf (b : Blk) (slot : Nat) : Option Nat := (List.range b.entries).find? fun e => b.entrySlot e == slot

/-- The slots whose targets name a position. -/
def Blk.feeders (b : Blk) (slot pos : Nat) : List Nat :=
  (List.range b.n).filter fun k => (b.op k).w.targets.any fun t => tgtIsSlot t && tgtSlot t == slot && tgtPos t == pos

/-- A token channel feeds a position (R66). -/
def Blk.fed (b : Blk) (slot pos : Nat) : Bool := !(b.feeders slot pos).isEmpty || (pos == 0 && (b.entryOf slot).isSome)

/-! ### Loops and regions -/

/-- The slots reached from a list of slots along targets, in at most so many rounds. -/
def Blk.reachN (b : Blk) : Nat → List Nat → List Nat
  | 0, l => l
  | n + 1, l =>
    let more := (l.flatMap fun k => (b.op k).w.nextSlots).filter fun k => !l.contains k
    if more.isEmpty then l else b.reachN n (l ++ more.eraseDups)

/-- A target path of at least one edge leads from a slot to another. -/
def Blk.reaches (b : Blk) (p q : Nat) : Bool := (b.reachN b.n (b.op p).w.nextSlots.eraseDups).contains q

/-- A fed position is a loop input (R433). -/
def Blk.loopInput (b : Blk) (slot pos : Nat) : Bool :=
  let o := b.opc slot
  (o == 0x52 || o == 0x53 || o == 0x57) && (b.feeders slot pos).any fun p => b.reaches slot p || p == slot

/-- A router control operator. -/
def isRouterOp (o : Nat) : Bool := decide (0x50 ≤ o ∧ o ≤ 0x57)

/-- The place of a slot under a schedule. -/
def siteOf (sched : List (List SchedE)) (blk slot : Nat) : SchedE := (sched.getD blk []).getD slot {}

/-- Two slots stand at one site, or one is a local mld directly south of the other's compute site (R34). -/
def sameRegionSite (f g : FabOp) (e h : SchedE) : Bool :=
  (e.dx == h.dx && e.dy == h.dy) ||
  (e.dx == h.dx && ((f.isLocal && e.dy == h.dy + 1 && h.dy % 2 == 0) || (g.isLocal && h.dy == e.dy + 1 && e.dy % 2 == 0)))

/-- A target edge is in-region (R34). -/
def Blk.inRegion (b : Blk) (sched : List (List SchedE)) (blk p q pos : Nat) : Bool :=
  (b.op p).eligible && (b.op q).eligible && !b.loopInput q pos &&
    sameRegionSite (b.op p) (b.op q) (siteOf sched blk p) (siteOf sched blk q)

/-- The in-region edges of a block: producer, consumer, position. -/
def Blk.regionEdges (b : Blk) (sched : List (List SchedE)) (blk : Nat) : List (Nat × Nat × Nat) :=
  (List.range b.n).flatMap fun p =>
    (((b.op p).w.targets.filter tgtIsSlot).map fun t => (p, tgtSlot t, tgtPos t)).filter fun x =>
      b.inRegion sched blk x.1 x.2.1 x.2.2

/-- The positions of a slot that a channel feeds from outside its region; position 4 is the trigger of a const that fires once per wave (R34, R209). -/
def Blk.outerInputs (b : Blk) (sched : List (List SchedE)) (blk slot : Nat) : List Nat :=
  ((List.range 4).filter fun pos => b.fed slot pos && !((b.feeders slot pos).any fun p => b.inRegion sched blk p slot pos)) ++
    (if b.opc slot = 0x74 ∧ !b.fed slot 3 then [4] else [])

/-- Labels made equal over edges, in at most so many rounds. -/
def spreadLabels (edges : List (Nat × Nat × Nat)) : Nat → List Nat → List Nat
  | 0, l => l
  | n + 1, l =>
    let l' := edges.foldl (fun l e =>
      let m := min (l.getD e.1 0) (l.getD e.2.1 0)
      (l.set e.1 m).set e.2.1 m) l
    if l' = l then l else spreadLabels edges n l'

/-- The region label of each slot of a block: the lowest slot of its maximal set (R34). -/
def Blk.labels (b : Blk) (sched : List (List SchedE)) (blk : Nat) : List Nat :=
  spreadLabels (b.regionEdges sched blk) (b.n + 1) (List.range b.n)

/-- The slots of the region of a slot; a channel boundary stands alone. -/
def Blk.regionOf (b : Blk) (sched : List (List SchedE)) (blk slot : Nat) : List Nat :=
  let l := b.labels sched blk
  (List.range b.n).filter fun k => l.getD k k == l.getD slot slot

/-- A slot belongs to a lockstep region rather than being a channel boundary (R34). -/
def Blk.inARegion (b : Blk) (sched : List (List SchedE)) (blk slot : Nat) : Bool :=
  let f := b.op slot
  f.eligible &&
    (decide (f.op.toNat < 0x40) || decide (1 < (b.regionOf sched blk slot).length))

/-- The slots of a region that fire once for each wave the region fires: all but the operators that choose among inputs or repeat, and what stands in the region behind an operator that chooses among targets (R201 to R203, R210). DEDUCED (log 118). -/
def Blk.steady (b : Blk) (sched : List (List SchedE)) (blk slot : Nat) : List Nat :=
  let ks := b.regionOf sched blk slot
  let edges := b.regionEdges sched blk
  let next := fun (l : List Nat) => (edges.filter fun e => l.contains e.1).map fun e => e.2.1
  let varies := ks.filter fun k => [0x50, 0x51, 0x52, 0x53, 0x57, 0x75].contains (b.opc k)
  let behind := ks.foldl (fun (l : List Nat) _ => (l ++ next l).eraseDups) (next varies)
  ks.filter fun k => !behind.contains k && !([0x51, 0x52, 0x53, 0x57].contains (b.opc k))

/-! ### Sites, hops and capacities -/

/-- A site holds a compute cell (R9). -/
def SchedE.compute (e : SchedE) : Bool := e.dy % 2 == 0

/-- The in-sector index of a site's compute or scratch cell (R9, R10). -/
def SchedE.cell (e : SchedE) : Nat := e.dy % 16 / 2 * 16 + e.dx % 16

/-- A site by its place in its sector. -/
def SchedE.inSector (e : SchedE) : Nat := e.dy % 16 * 16 + e.dx % 16

/-- Router hops between two sites, counted dimension-ordered. -/
def hops (e h : SchedE) : Nat := (max e.dx h.dx - min e.dx h.dx) + (max e.dy h.dy - min e.dy h.dy)

/-- Both sites lie in one rail group by their sectors' places; k counts two by two sectors (R20). -/
def sameRail (ox oy : Nat) (e h : SchedE) : Bool :=
  (ox + e.dx / 16) / 2 == (ox + h.dx / 16) / 2 && (oy + e.dy / 16) / 2 == (oy + h.dy / 16) / 2

/-- The tokens a channel holds between two sites, with a synchroniser's two where it crosses rail groups (R198). -/
def chanCap (ox oy : Nat) (e h : SchedE) : Nat := 2 + 2 * hops e h + (if sameRail ox oy e h then 0 else 2)

/-- The cells of an accumulator slot's footprint; no other slot has one (R140, R144, R151). -/
def accCells (f : FabOp) : Nat :=
  if f.op = 0x40 then f.w.x.toNat % 64 + 1
  else if 0x41 ≤ f.op.toNat ∧ f.op.toNat ≤ 0x44 then f.w.imm.toNat % 64 + 1 else 0

/-- A slot placed at e occupies a site: its own, and an accumulator slot every compute site of its footprint (R157, R233). -/
def occupiesSite (f : FabOp) (e g : SchedE) : Bool :=
  (e.dx == g.dx && e.dy == g.dy) ||
    (g.compute && e.dx / 16 == g.dx / 16 && e.dy / 16 == g.dy / 16 && decide (e.cell ≤ g.cell) && decide (g.cell < e.cell + accCells f))

/-- A slot placed at e occupies the stage of a place at its site: an mma the dot unit of stages 2 to 4 (R157). -/
def occupiesStage (f : FabOp) (e g : SchedE) : Bool :=
  if f.op = 0x40 then decide (2 ≤ g.stage ∧ g.stage ≤ 4) else e.stage == g.stage

/-- The tokens that a pass slot holds itself (R207). -/
def passRoom (o : Nat) : Nat := if o = 0x72 then 8 else 0

/-! ### Sources (R197) -/

/-- The route that feeds an entry of a block: some exit's record of kind 00 names it. -/
def Image.routed (m : Image) (blk e : Nat) : Bool := m.routes.any fun r => r.kind == 0 && r.dst == blk && r.ent == e

/-- The entry queue feeds an entry of a block (R30, R77). -/
def Image.queueFed (m : Image) (blk e : Nat) : Bool := m.qv && m.qblk == blk && m.qent == e

/-- The entries of a block that are sources. -/
def Image.srcEntries (m : Image) (blk : Nat) : List Nat :=
  (List.range (m.blks.getD blk {}).entries).filter fun e => m.routed blk e || m.queueFed blk e

/-- The pin slots of a block. -/
def Blk.pins (b : Blk) : List Nat := (List.range b.n).filter fun k => b.opc k == 0x70

/-- The const slots of a block that fire once per wave. -/
def Blk.waveConsts (b : Blk) : List Nat := (List.range b.n).filter fun k => b.opc k == 0x74 && !b.fed k 3

end Machine

end Sys2Proof
end

