-- ==== Sys2Proof/Machine/Fabric.lean ====
section
/-! DEFINITION. What the slots of the fabric share: which configuration is in force at a slot (R223, R234), its channels (R198), how it takes and sends tokens (R195, R199), the wave its tokens belong to (R197), its flags (R108), and its region fault (R419). -/

namespace Sys2Proof.Machine

open Sys2Proof

/-! ### Instances and their channels -/

/-- An image instance of a task. -/
def State.inst? (s : State) (b : BlkRef) : Option Inst :=
  match s.task? b.task with
  | some t => t.insts[b.inst]?
  | none => none

/-- An image instance of a task, empty where there is none. -/
def State.instOf (s : State) (b : BlkRef) : Inst := (s.inst? b).getD {}

/-- A task changed. -/
def State.modTask (s : State) (id : Nat) (f : Task → Task) : State :=
  { s with tasks := s.tasks.map fun t => if t.id = id then f t else t }

/-- An image instance changed. -/
def State.modInst (s : State) (b : BlkRef) (f : Inst → Inst) : State :=
  s.modTask b.task fun t => { t with insts := t.insts.modify b.inst f }

/-- The tokens of a channel. -/
def Inst.chan (i : Inst) (key : Nat) : List Token := Tab.get [] i.chans key

/-- A channel's tokens replaced. -/
def Inst.setChan (i : Inst) (key : Nat) (l : List Token) : Inst := { i with chans := Tab.set [] i.chans key l }

/-- The key of an operator's state. -/
def opKey (b : BlkRef) (slot : Nat) : Nat := chanKey b slot 0 / 8

/-- The sector of a site of an instance's rectangle (R9). -/
def Inst.siteSid (i : Inst) (e : SchedE) : Nat := i.die * 64 + (i.oy + e.dy / 16) * 8 + (i.ox + e.dx / 16)

/-! ### The configuration in force -/

/-- A sector's share of the configuration of a generation, active or armed. -/
def Sector.shareOf (x : Sector) (gen img : Nat) : Option Share :=
  match x.act with
  | some a =>
    if a.gen = gen ∧ a.img = img then some a
    else match x.shadow with
      | some h => if x.shSt = .armed ∧ h.gen = gen ∧ h.img = img then some h else none
      | none => none
  | none =>
    match x.shadow with
    | some h => if x.shSt = .armed ∧ h.gen = gen ∧ h.img = img then some h else none
    | none => none

/-- The schedule of an instance whose sectors stand at different operating points: each slot's entry is that of the share of the sector where it stands (R173). -/
def Inst.mergeScheds (i : Inst) (l : List (Nat × Share)) (sched : List (List SchedE)) : List (List SchedE) :=
  sched.zipIdx.map fun r => r.1.zipIdx.map fun e =>
    (l.findSome? fun p =>
      let g := siteOf p.2.sched r.2 e.2
      if i.siteSid g = p.1 then some g else none).getD e.1

/-- The share of a configuration that an instance's sectors hold; every sector's names the same slots, and each sector's own schedule places those that stand in it (R173). -/
def State.share? (s : State) (i : Inst) (gen img : Nat) : Option Share :=
  match i.sids.filterMap fun k => ((s.sec k).shareOf gen img).map fun h => (k, h) with
  | [] => none
  | (k, h) :: l => if l.all fun p => p.2.sched == h.sched then some h else some { h with sched := i.mergeScheds ((k, h) :: l) h.sched }

/-- The slots of a share whose word and place meet a test, as block times 128 plus slot. -/
def Share.slotsWith (sh : Share) (p : FabOp → SchedE → Bool) : List Nat :=
  (List.range sh.image.blks.length).flatMap fun b =>
    ((List.range (sh.image.blks.getD b {}).n).filter fun k => p ((sh.image.blks.getD b {}).op k) (siteOf sh.sched b k)).map fun k => b * 128 + k

/-- The slots of a share that occupy a site (R157, R233). -/
def Share.slotsAt (sh : Share) (e : SchedE) : List Nat := sh.slotsWith fun f g => occupiesSite f g e

/-- The active slots in whose place a slot at e comes: those that occupy its site and stage, and where there are none those that occupy its site (R233, R234; DEDUCED, log 24). -/
def Share.before (a : Share) (e : SchedE) : List Nat :=
  let same := a.slotsWith fun f g => occupiesSite f g e && occupiesStage f g e
  if same.isEmpty then a.slotsAt e else same

/-- A slot of a configuration is in force: an active slot until its switch group has switched, a slot of an armed shadow once every active slot in whose place it comes has switched (R223, R234). -/
def Sector.slotLive (x : Sector) (b : BlkRef) (slot : Nat) (e : SchedE) : Bool :=
  match x.act with
  | some a =>
    if a.gen = b.gen ∧ a.img = b.img then !(x.shSt == .armed && x.switched.contains (b.blk * 128 + slot))
    else x.shSt == .armed && (a.before e).all fun k => x.switched.contains k
  | none => x.shSt == .armed

/-- A configuration of a sector is to end by a wavefront: it is active, and the shadow is armed (R234). -/
def Sector.ends (x : Sector) (b : BlkRef) : Bool := x.shSt == .armed && x.act.any fun a => a.gen == b.gen

/-! ### The acting slot -/

/-- The acting slot with what its configuration says of it. -/
structure Fab where
  b : BlkRef
  slot : Nat
  w : FabW
  sh : Share
  blk : Blk
  e : SchedE
  sid : Nat
  ox : Nat
  oy : Nat
deriving DecidableEq, Repr

/-- The in-sector index of the slot's cell. -/
def Fab.cell (f : Fab) : Nat := f.e.cell

/-- The operator state of the acting slot. -/
def State.opSt (s : State) (f : Fab) : OpSt := Tab.get {} (s.instOf f.b).ops (opKey f.b f.slot)

/-- The operator state of the acting slot replaced. -/
def State.setOpSt (s : State) (f : Fab) (o : OpSt) : State :=
  s.modInst f.b fun i => { i with ops := Tab.set {} i.ops (opKey f.b f.slot) o }

/-- The clock of a sector's rail group is held (R256). -/
def State.clockHeld (s : State) (sid : Nat) : Bool :=
  match (s.rail (railOf sid)).mv with
  | .hold _ => true
  | _ => false

/-- How often a slot of a region has fired. -/
def Inst.turnsOf (i : Inst) (b : BlkRef) (slot : Nat) : Nat := Tab.get 0 i.turns (opKey b slot)

/-- The waves that some slots have begun. -/
def Inst.begun (i : Inst) (b : BlkRef) (ks : List Nat) : Nat := ks.foldl (fun m k => max m (i.turnsOf b k)) 0

/-- The waves that all of some slots have fired. -/
def Inst.through (i : Inst) (b : BlkRef) (ks : List Nat) : Nat := ks.foldl (fun m k => min m (i.turnsOf b k)) (i.begun b ks)

/-- A lockstep region is between waves: its slots have fired equally often, and the channels inside it are empty (R173, R242). -/
def Inst.regionIdle (i : Inst) (b : BlkRef) (sh : Share) (blk : Blk) (slot : Nat) : Bool :=
  let ks := blk.steady sh.sched b.blk slot
  i.through b ks == i.begun b ks &&
  (blk.regionOf sh.sched b.blk slot).all fun k => (List.range 4).all fun pos =>
    !((blk.feeders k pos).any fun p => blk.inRegion sh.sched b.blk p k pos) || (i.chan (chanKey b k pos)).isEmpty

/-- The tokens that wait in the channels inside its region before a slot. -/
def Inst.pendingAt (i : Inst) (b : BlkRef) (sh : Share) (blk : Blk) (k : Nat) : Nat :=
  (List.range 4).foldl (fun m pos =>
    if (blk.feeders k pos).any fun p => blk.inRegion sh.sched b.blk p k pos then max m (i.chan (chanKey b k pos)).length else m) 0

/-- The waves in flight in a region: those begun and not through its slots that fire once for each, and those that wait before the others (R199). -/
def Inst.inFlight (i : Inst) (b : BlkRef) (sh : Share) (blk : Blk) (slot : Nat) : Nat :=
  let ks := blk.steady sh.sched b.blk slot
  (((blk.regionOf sh.sched b.blk slot).filter fun k => !ks.contains k).map (i.pendingAt b sh blk)).foldl (· + ·) (i.begun b ks - i.through b ks)

/-- A slot's state or its channels still hold a token of a wave, or a pin owes it one. -/
def Inst.busy (i : Inst) (b : BlkRef) (slot w : Nat) : Bool :=
  let o := Tab.get {} i.ops (opKey b slot)
  ((List.range 5).any fun pos => (i.chan (chanKey b slot pos)).any fun t => decide (t.wave ≤ w)) ||
    (o.hold.any fun t => decide (t.wave ≤ w)) || (o.outq.any fun p => decide (p.2.wave ≤ w)) || (o.owe.any fun x => decide (x ≤ w))

/-- A slot that has taken its marker holds a token of a wave, which goes on only in the resumed run (R242). -/
def Inst.stranded (i : Inst) (b : BlkRef) (n w : Nat) : Bool :=
  (List.range n).any fun k => (Tab.get {} i.ops (opKey b k)).marked && i.busy b k w

/-- A slot that holds stores for the commit of its wave: mst, mstv, pout (R206, R322, R325). -/
def holdsStores (o : Nat) : Bool := o == 0x61 || o == 0x64 || o == 0x71

/-- The task of a block can fire slots: it is resident and has not reached its snapshot (R239, R420). -/
def Task.fires (t : Task) : Bool :=
  t.runs && match t.pre with
    | .snapped => false
    | _ => true

/-! ### Taking tokens -/

/-- The key of a channel into a position of the acting slot. -/
def Fab.key (f : Fab) (pos : Nat) : Nat := chanKey f.b f.slot pos

/-- A channel feeds a position of the acting slot (R66); position 4 is the trigger of a const that fires once per wave. -/
def Fab.fed (f : Fab) (pos : Nat) : Bool := f.blk.fed f.slot pos

/-- The token at the head of a position. Behind an EOS that ends the slot's configuration there, it is none of the slot's (R234). -/
def State.head (s : State) (f : Fab) (pos : Nat) : Option Token :=
  if (s.sec f.sid).ends f.b ∧ (s.opSt f).eosIn.contains pos then none else ((s.instOf f.b).chan (f.key pos)).head?

/-- The heads of the fed positions among those listed; none while one of them is missing. -/
def State.heads (s : State) (f : Fab) : List Nat → Option (List (Nat × Token))
  | [] => some []
  | p :: ps =>
    if f.fed p then
      match s.head f p, s.heads f ps with
      | some t, some l => some ((p, t) :: l)
      | _, _ => none
    else s.heads f ps

/-- The head token of a position consumed. -/
def State.take (s : State) (f : Fab) (pos : Nat) : State :=
  s.modInst f.b fun i => i.setChan (f.key pos) ((i.chan (f.key pos)).drop 1)

/-- One more firing of a slot of a region (R199). -/
def State.countTurn (s : State) (f : Fab) : State :=
  if f.blk.inARegion f.sh.sched f.b.blk f.slot then
    s.modInst f.b fun i => { i with turns := Tab.set 0 i.turns (opKey f.b f.slot) (i.turnsOf f.b f.slot + 1) }
  else s

/-- The inputs on each of which an EOS must come before a slot's configuration ends there: those fed at which it can take one. A predicate is no EOS, and none comes back from a loop (R195, R196, R202, R235; log 25). -/
def Fab.endInputs (f : Fab) : List Nat :=
  let o := f.blk.opc f.slot
  [0, 1, 2, 3].filter fun p => f.fed p && !(p == 2 && decide (0x50 ≤ o ∧ o ≤ 0x53)) && !(p == 1 && o == 0x52)

/-- A slot's state once it has consumed some tokens: the inputs on which it has taken an EOS, and with the last of them its own EOS sent (R234, R235). -/
def Fab.noteEos (f : Fab) (o : OpSt) (l : List (Nat × Token)) : OpSt :=
  let seen := (l.filter fun p => decide (p.1 < 4) && p.2.kind == .eos).map Prod.fst
  if seen.isEmpty then o
  else
    let ins := (o.eosIn ++ seen).eraseDups
    { o with eosIn := ins, eosSent := o.eosSent || f.endInputs.all fun p => ins.contains p }

/-- An EOS that a firing has taken at o is noted (R195, R235). -/
def State.noteO (s : State) (f : Fab) (l : List (Nat × Token)) : State :=
  let o := l.filter fun p => p.1 == 3 && p.2.kind == .eos
  if o.isEmpty then s else s.setOpSt f (f.noteEos (s.opSt f) o)

/-- A firing consumes the head tokens of the listed positions. -/
def State.takeAll (s : State) (f : Fab) (l : List (Nat × Token)) : State :=
  let t := (l.foldl (fun s p => s.take f p.1) s).noteO f l
  if l.isEmpty then t else t.countTurn f

/-- The wave of a firing: the latest among the tokens it consumes (R197). -/
def waveOf (l : List (Nat × Token)) : Nat := l.foldl (fun m p => max m p.2.wave) 0

/-! ### Sending tokens -/

/-- The instance a thread token addressed to an image goes to: the sender's own when it is of that image or hosts it, else the lowest (R357). -/
def Task.queueInst (t : Task) (own img : Nat) : Option Nat :=
  let has := fun (i : Inst) => i.img == img || i.host.any fun h => h.cands.contains img
  if (t.insts[own]?).any has then some own else t.insts.findIdx? has

/-- A thread token on its way from a gate, if the gate still has room for it: fewer than n packets from it to that queue wait (R79). -/
def State.toGate (s : State) (task gate own img n : Nat) (pay : Word) (poison : Bool) : Option State :=
  match s.task? task with
  | none => none
  | some t =>
    match t.queueInst own img with
    | none => none
    | some k =>
      if n ≤ (t.packets.filter fun p => p.gate == gate && p.inst == k && p.img == img).length then none
      else some ({ s with nextId := s.nextId + 1 }.modTask task fun t =>
        { t with packets := t.packets ++ [({ id := s.nextId, gate := gate, inst := k, img := img, pay := pay, poison := poison } : Packet)] })

/-- A token put at the tail of a channel with room for it. -/
def State.push (s : State) (b : BlkRef) (key cap : Nat) (t : Token) : Option State :=
  if cap ≤ ((s.instOf b).chan key).length then none
  else some (s.modInst b fun i => i.setChan key (i.chan key ++ [t]))

/-- The generation under which tokens wait at an input that no configuration consumes: by site and stage, above every other generation. -/
def strayGen (e : SchedE) : Nat := 2 ^ 60 + (e.dy * 256 + e.dx) * 8 + e.stage

/-- The channel in which tokens wait at an input that no configuration consumes (R235). -/
def strayKey (b : BlkRef) (e : SchedE) (pos : Nat) : Nat := chanKey { b with gen := strayGen e, blk := 0 } 0 pos

/-- The channel in which a slot takes the tokens that wait at an input: the position's own when targets feed it, an entry's when a route feeds that. -/
def Share.inputOf (sh : Share) (b : BlkRef) (slot pos : Nat) : Option Nat :=
  let blk := sh.image.blks.getD b.blk {}
  if !(blk.feeders slot pos).isEmpty then some (chanKey b slot pos)
  else match (if pos = 0 then blk.entryOf slot else none) with
    | some e => if sh.image.routed b.blk e then some (chanKey b e 6) else none
    | none => none

/-- A slot of an active configuration has switched, so what comes to its inputs now belongs to a later configuration (R234). -/
def Sector.left (x : Sector) (b : BlkRef) (slot : Nat) : Bool :=
  match x.act with
  | some a => if a.gen = b.gen ∧ a.img = b.img then x.shSt == .armed && x.switched.contains (b.blk * 128 + slot) else decide (b.gen < a.gen)
  | none => false

/-- The latest configuration of a sector that is in force somewhere: an armed shadow, else the active one. -/
def Sector.latest (x : Sector) : Option Share := if x.shSt = .armed then x.shadow else x.act

/-- The block and slot of the latest configuration that take what stands at an input of a place, with the channel. -/
def Sector.taker (x : Sector) (b : BlkRef) (e : SchedE) (pos : Nat) : Option (BlkRef × Nat) :=
  match x.latest with
  | none => none
  | some h => (h.slotsWith fun _ g => g.dx == e.dx && g.dy == e.dy && g.stage == e.stage).findSome? fun n =>
      let r : BlkRef := { b with gen := h.gen, img := h.img, blk := n / 128 }
      if x.slotLive r (n % 128) e then (h.inputOf r (n % 128) pos).map fun k => (r, k) else none

/-- The wave that a token left behind an EOS belongs to where a block takes it: the block's next. DEDUCED (log 119). -/
def Inst.nextWave (i : Inst) (b : BlkRef) : Nat := Tab.get 0 i.waves (waveKey b)

/-- The place of a port: its scratch cell in the sector of a site (R10). -/
def portSite (e : SchedE) (q : Nat) : SchedE := { dx := e.dx / 16 * 16 + q % 16, dy := e.dy / 16 * 16 + q / 16 * 2 + 1, stage := 6 }

/-- Where a token sent to a target goes: nowhere; into a channel with its capacity, with a wave where it stands behind an EOS; or to the token gate for an image with the capacity of its route. -/
inductive Way where
  | nowhere
  | chan (key cap : Nat) (wave : Option Nat)
  | gate (img cap : Nat)
deriving DecidableEq, Repr

/-- The way into an input of a consumer: its channel, or once the consumer has switched the input of what has come in its place (R234, R235). -/
def State.wayIn (s : State) (f : Fab) (b : BlkRef) (slot pos key cap : Nat) (e : SchedE) : Way :=
  let i := s.instOf f.b
  let x := s.sec (i.siteSid e)
  if x.left b slot then
    match x.taker b e pos with
    | some p => .chan p.2 cap (some (i.nextWave p.1))
    | none => .chan (strayKey b e pos) cap none
  else .chan key cap none

/-- The way from a slot through an exit of its block (R78, R79, R198). A route to a port leads to the pout that serves the port in the exit's sector (log 12). -/
def State.wayOut (s : State) (f : Fab) (x : Nat) : Way :=
  match f.sh.image.routes.find? fun r => r.src == f.b.blk && r.exit == x with
  | none => .nowhere
  | some r =>
    if r.kind = 0 then
      let d : BlkRef := { f.b with blk := r.dst }
      let k := (f.sh.image.blks.getD r.dst {}).entrySlot r.ent
      let dst := siteOf f.sh.sched r.dst k
      s.wayIn f d k 0 (chanKey d r.ent 6) (chanCap f.ox f.oy f.e dst + 8 * r.ext) dst
    else if r.kind = 2 then
      let gate : SchedE := { dx := f.e.dx / 16 * 16, dy := f.e.dy / 16 * 16 }
      .gate r.dst (2 + 2 * hops f.e gate + 8 * r.ext)
    else .chan (chanKey f.b x 7) (2 + 2 * hops f.e (portSite f.e r.dst) + 8 * r.ext) none

/-- The way to a target of a slot (R65). -/
def State.way (s : State) (f : Fab) (tgt : BitVec 10) : Way :=
  if tgt = tgtNone then .nowhere
  else if tgtIsSlot tgt then
    let k := tgtSlot tgt
    let dst := siteOf f.sh.sched f.b.blk k
    s.wayIn f f.b k (tgtPos tgt) (chanKey f.b k (tgtPos tgt)) (chanCap f.ox f.oy f.e dst + passRoom (f.blk.opc k)) dst
  else s.wayOut f (tgtSlot tgt)

/-- The packets that wait at a gate for an entry queue. -/
def Task.atGate (t : Task) (gate k img : Nat) : Nat := (t.packets.filter fun p => p.gate == gate && p.inst == k && p.img == img).length

/-- The tokens that a way still has room for; no number bounds what goes nowhere. -/
def State.roomOn (s : State) (f : Fab) : Way → Option Nat
  | .nowhere => none
  | .chan key cap _ => some (cap - ((s.instOf f.b).chan key).length)
  | .gate img cap => match s.task? f.b.task with
    | some t => (t.queueInst f.b.inst img).map fun k => cap - t.atGate f.sid k img
    | none => none

/-- A token sent to one target (R65). An EOS token ends at an entry queue (log 11). -/
def State.sendTo (s : State) (f : Fab) (tgt : BitVec 10) (t : Token) : Option State :=
  match s.way f tgt with
  | .nowhere => some s
  | .chan key cap w => s.push f.b key cap (w.elim t fun w => { t with wave := w })
  | .gate img cap => if t.kind = .eos then some s else s.toGate f.b.task f.sid f.b.inst img cap t.payload t.poison

/-- Tokens sent to targets, all of them or none (R199). -/
def State.sendAll (s : State) (f : Fab) : List (BitVec 10 × Token) → Option State
  | [] => some s
  | p :: l =>
    match s.sendTo f p.1 p.2 with
    | none => none
    | some s1 => s1.sendAll f l

/-! ### Lockstep regions (R34, R173, R199) -/

/-- Another slot of the acting slot's block. -/
def Fab.at (f : Fab) (i : Inst) (k : Nat) : Fab :=
  let e := siteOf f.sh.sched f.b.blk k
  { f with slot := k, w := (f.blk.op k).w, e := e, sid := i.siteSid e }

/-- The acting slot belongs to a lockstep region. -/
def Fab.inRegion (f : Fab) : Bool := f.blk.inARegion f.sh.sched f.b.blk f.slot

/-- Every output of the slot's region has room for more than n tokens (R199). -/
def State.regionRoom (s : State) (f : Fab) (i : Inst) (n : Nat) : Bool :=
  (f.blk.regionOf f.sh.sched f.b.blk f.slot).all fun j =>
    ((f.blk.op j).w.targets.filter fun t => !(tgtIsSlot t && f.blk.inRegion f.sh.sched f.b.blk j (tgtSlot t) (tgtPos t))).all fun t =>
      match s.roomOn (f.at i j) (s.way (f.at i j) t) with
      | some r => decide (n < r)
      | none => true

/-- A region can fire its next wave as a whole: every input of it from outside holds that wave's token, since no dependence is checked inside it (R34), and every output has room for every token of every wave in flight (R199). DEDUCED (log 118). -/
def State.regionReady (s : State) (f : Fab) (i : Inst) : Bool :=
  let ks := f.blk.steady f.sh.sched f.b.blk f.slot
  let n := i.begun f.b ks
  (ks.all fun j => (f.blk.outerInputs f.sh.sched f.b.blk j).all fun pos =>
    decide (n - i.turnsOf f.b j < (i.chan (chanKey f.b j pos)).length)) &&
  s.regionRoom f i (i.inFlight f.b f.sh f.blk f.slot)

/-- The slot would begin its region's next wave: it has fired in every wave that the region has begun (R173, R199). -/
def Fab.begins (f : Fab) (i : Inst) : Bool :=
  let ks := f.blk.steady f.sh.sched f.b.blk f.slot
  ks.contains f.slot && i.turnsOf f.b f.slot == i.begun f.b ks

/-- The positions that the next firing of an operator that chooses among inputs or repeats takes a token from (R201 to R203). -/
def State.nextInputs (s : State) (f : Fab) : List Nat :=
  let o := s.opSt f
  match f.blk.opc f.slot with
  | 0x51 => match s.head f 2 with
    | some p => if bitAt p.pay.toNat 0 then [0, 2] else [1, 2]
    | none => []
  | 0x52 => if o.st = 0 then [0] else if o.st = 1 then [2] else [1]
  | 0x53 => if o.st = 0 then [0] else [2]
  | 0x57 => if o.hold.isNone then [0] else []
  | _ => [0, 1, 2, 3]

/-- A position of the slot is fed from inside its region (R34). -/
def Fab.inner (f : Fab) (pos : Nat) : Bool := (f.blk.feeders f.slot pos).any fun p => f.blk.inRegion f.sh.sched f.b.blk p f.slot pos

/-- A slot that does not fire once for each wave brings a new one into its region: its firing takes nothing that is in flight there (R173, R199; log 118). -/
def State.enters (s : State) (f : Fab) : Bool :=
  !(f.blk.steady f.sh.sched f.b.blk f.slot).contains f.slot && !((s.nextInputs f).any f.inner)

/-- Room for the firing of a slot that does not fire once for each wave: as for a wave when it brings one in, and for an operator of a loop as for the wave that it takes up again (R199; log 118). -/
def State.firingRoom (s : State) (f : Fab) (i : Inst) : Bool :=
  let n := i.inFlight f.b f.sh f.blk f.slot
  if s.enters f then s.regionRoom f i n
  else !([0x52, 0x53, 0x57].contains (f.blk.opc f.slot)) || s.regionRoom f i (n - 1)

/-- The latest wave of the tokens at the heads of the slot's inputs. -/
def Fab.headWave (f : Fab) (i : Inst) : Nat :=
  (List.range 4).foldl (fun m pos => max m (((i.chan (chanKey f.b f.slot pos)).head?.map Token.wave).getD 0)) 0

/-- A wave may go on at the slot. A region begins a wave only as a whole, and none while its rail group waits for its swap (R173, R199). While a pre-emption sends its markers, neither a region nor a store takes up a wave of which a slot that has taken its marker keeps a token (R242; log 120). -/
def State.waveMayGo (s : State) (f : Fab) (i : Inst) (t : Task) : Bool :=
  let begins := f.begins i
  let new := f.inRegion && (begins || s.enters f)
  let steady := (f.blk.steady f.sh.sched f.b.blk f.slot).contains f.slot
  !(new && (s.rail (railOf f.sid)).mv == .swap) && !(f.inRegion && begins && !s.regionReady f i) && !(f.inRegion && !steady && !s.firingRoom f i) &&
    !(t.pre == .markers && (new || holdsStores (f.blk.opc f.slot)) && i.stranded f.b f.blk.n (f.headWave i))

/-- The slot that acts, if its configuration is in force there, its task runs, it has not taken its marker (R242), it has not sent the EOS that switches it (R234), its clock runs, its wave may go on there, and no pin gives an element before the chunks refused at a save are replayed (R252). -/
def State.fab? (s : State) (w : FabW) : Option Fab :=
  let r := s.slot
  match s.task? r.b.task, s.inst? r.b with
  | some t, some i =>
    match s.share? i r.b.gen r.b.img with
    | some sh =>
      let blk := sh.image.blks.getD r.b.blk {}
      let e := siteOf sh.sched r.b.blk r.slot
      let sid := i.siteSid e
      let x := s.sec sid
      let o := Tab.get {} i.ops (opKey r.b r.slot)
      let f : Fab := ⟨r.b, r.slot, w, sh, blk, e, sid, i.ox, i.oy⟩
      if t.fires && decide (r.slot < blk.n) && x.v && x.slotLive r.b r.slot e && !o.marked && !(x.ends r.b && o.eosSent) &&
          !s.clockHeld sid && !(blk.opc r.slot == 0x70 && s.replayingTask r.b.task) && s.waveMayGo f i t
      then some f
      else none
    | none => none
  | _, _ => none

/-! ### Results -/

/-- One token for each named target. -/
def Fab.both (f : Fab) (t : Token) : List (BitVec 10 × Token) := f.w.targets.map fun x => (x, t)

/-- The EOS token of a wave (R194). -/
def eosToken (wave : Nat) : Token := { kind := .eos, wave := wave }

/-- A data token. -/
def dataToken (fmt : BitVec 4) (pay : Pay) (wave : Nat) : Token := { fmt := fmt, pay := pay, wave := wave }

/-! ### Waves -/

/-- The record of a wave that has fired and not committed. -/
def Task.wave? (t : Task) (b : BlkRef) (w : Nat) : Option WaveRec := t.wrecs.find? fun r => r.b == b && r.w == w

/-- A wave's record changed. -/
def State.modWave (s : State) (b : BlkRef) (w : Nat) (g : WaveRec → WaveRec) : State :=
  s.modTask b.task fun t => { t with wrecs := t.wrecs.map fun r => if r.b = b ∧ r.w = w then g r else r }

/-- Flags raised for a wave in the acting slot's sector (R108). -/
def State.raise (s : State) (f : Fab) (wave : Nat) (fl : FlagSet) : State :=
  if fl = 0 then s else s.modWave f.b wave fun r => { r with flags := gatherFlags r.flags f.sid fl }

/-- AUX of a fault record of a held store: the position in its port's binding, or its node's BLOCKID (R370). -/
def State.storeAux (s : State) (f : Fab) (port : Option Nat) : BitVec 32 :=
  match port with
  | some q => BitVec.ofNat 32 ((((s.sec f.sid).port q).act.map Bind.pos).getD 0)
  | none => f.blk.id

/-- A store held for the commit of its wave (R29). -/
def State.holdStore (s : State) (f : Fab) (wave owner : Nat) (k : StoreKind) (port : Option Nat) : State :=
  let p : PStore := { b := f.b, wave := wave, owner := owner, sid := f.sid, k := k, seq := s.nextId, port := port, slot := f.slot, unit := f.cell
                      aux := s.storeAux f port, blkId := f.blk.id }
  { s with nextId := s.nextId + 1 }.modTask f.b.task fun t => { t with stores := t.stores ++ [p] }

/-! ### Region faults (R419) -/

/-- The tiles that took addends of a faulted wave set TAINT (R159). -/
def State.taint (s : State) (l : List (Nat × Nat × Nat)) : State :=
  l.foldl (fun s p => s.modSec p.1 fun x =>
    let c := x.cell p.2.1
    x.setCell p.2.1 { c with tcw := Tab.set 0 c.tcw p.2.2 (Tab.get 0 c.tcw p.2.2 ||| 8) }) s

/-- A region fault of a block's slot at a cell of a sector: its wave is dropped, one REGION record is appended, the task fails (R414, R419, R420). -/
def State.faultAt (s : State) (b : BlkRef) (slot sid cell : Nat) (id : BitVec 32) (c : Cause) (wave elem : Nat) : State :=
  match s.task? b.task with
  | none => s
  | some t =>
    let tiles := ((t.wave? b wave).map WaveRec.tiles).getD []
    let s1 := (s.taint tiles).modTask t.id fun t =>
      { t with
        stores := t.stores.filter fun p => !(p.b == b && p.wave == wave)
        wrecs := t.wrecs.filter fun r => !(r.b == b && r.w == wave) }
    let s2 := s1.addRec
      { ctx := t.ctx, task := t.id
        words := [s.cycW, BitVec.ofNat 64 wave, recWord2 t.idx c.code sid t.ctx (2 * 2 ^ 7 + cell),
          BitVec.ofNat 64 (id.toNat * 2 ^ 32 + slot * 2 ^ 25 + elem * 2 ^ 18)] }
    s2.taskFail t.id c.code sid

/-- A region fault of the acting slot (R419). -/
def State.regionFault (s : State) (f : Fab) (c : Cause) (wave elem : Nat) : State := s.faultAt f.b f.slot f.sid f.cell f.blk.id c wave elem

/-- How a slot's attempt to fire ends. -/
inductive Fire where
  | wait
  | fault (c : Cause) (wave elem : Nat)
  | done (s : State)
deriving DecidableEq, Repr

/-- A sent result or a wait for room (R199). -/
def Fire.sent (o : Option State) (k : State → State) : Fire :=
  match o with
  | some s => .done (k s)
  | none => .wait

/-- A slot of the acting slot's region stands on a poisoned site (R226). -/
def State.badSite (s : State) (f : Fab) : Bool :=
  (f.blk.regionOf f.sh.sched f.b.blk f.slot).any fun k =>
    let e := siteOf f.sh.sched f.b.blk k
    let x := s.sec ((s.instOf f.b).siteSid e)
    x.badSites.contains e.inSector || (x.badShadow.contains e.inSector && x.shadow.any fun h => h.gen == f.b.gen)

/-- The outcome of a fabric slot's turn: it fires, waits without a change, or takes its region fault. -/
def State.fabric (s : State) (w : FabW) (go : Fab → Fire) : Host.Outcome State Fault Refusal :=
  match s.fab? w with
  | none => .next s
  | some f =>
    if s.badSite f ∧ (s.heads f [0, 1, 2, 3]).any (fun l => !l.isEmpty) then
      .next (s.regionFault f .regionFault (waveOf ((s.heads f [0, 1, 2, 3]).getD [])) 0)
    else
      match go f with
      | .wait => .next s
      | .fault c wave elem => .next (s.regionFault f c wave elem)
      | .done t => .next t

/-! ### The common firing (R117, R195) -/

/-- The EOS outcome of a firing's data heads: none when no token is EOS, some true when all are. -/
def eosOf (l : List (Nat × Token)) : Option Bool :=
  let d := l.filter fun p => decide (p.1 < 3)
  if d.any fun p => p.2.kind == .eos then some (d.all fun p => p.2.kind == .eos) else none

/-- The tags of the data heads are those required; positions without a requirement are not checked. -/
def tagsOk (need : List (Nat × BitVec 4)) (l : List (Nat × Token)) : Bool :=
  l.all fun p => match need.find? fun n => n.1 == p.1 with
    | some n => p.2.fmt == n.2
    | none => true

/-- All the tokens taken are EOS: they are consumed, and one EOS goes to each target (R195). A poisoned token is one, as at every other firing (R410). -/
def State.passEos (s : State) (f : Fab) (l : List (Nat × Token)) : Fire :=
  if l.any fun p => p.2.poison then .fault .poison (waveOf l) 0
  else Fire.sent (s.sendAll f (f.both (eosToken (waveOf l)))) fun t =>
    (t.takeAll f l).setOpSt f (f.noteEos (t.opSt f) l)

/-- The checks every slot but a router operator makes before it computes: tokens present, EOS agreement, poison, tags (R64, R195, R410). -/
def State.checked (s : State) (f : Fab) (need : List (Nat × BitVec 4)) (go : List (Nat × Token) → Fire) : Fire :=
  match s.heads f [0, 1, 2, 3] with
  | none => .wait
  | some l =>
    if l.isEmpty then .wait
    else match eosOf l with
      | some true => s.passEos f l
      | some false => .fault .format (waveOf l) 0
      | none =>
        if l.any fun p => p.2.poison then .fault .poison (waveOf l) 0
        else if !tagsOk need l then .fault .format (waveOf l) 0
        else go l

/-- The payload at a position: its token, else the immediate (R67). -/
def Fab.operand (f : Fab) (l : List (Nat × Token)) (pos : Nat) : Pay :=
  match l.find? fun p => p.1 == pos with
  | some p => p.2.pay
  | none => immPay f.w.fmt f.w.imm

/-- The phase counter of a cell of a sector (R104). -/
def State.phaseOf (s : State) (f : Fab) : Nat := ((s.sec f.sid).cell f.cell).phase.toNat

/-- The phase counter advanced by 7 after a token a dithering operation has produced (R104). -/
def State.stepPhase (s : State) (f : Fab) : State :=
  ({ s with now := s.now ++ [.dither f.sid f.cell f.e.stage] } : State).modSec f.sid fun x =>
    x.setCell f.cell { x.cell f.cell with phase := (x.cell f.cell).phase + 7 }

/-- A dithering operation comes too late in its cycle: one of a later stage of its cell has taken the counter already, so it takes its turn in a later one (R104; log 121). -/
def State.ditherLate (s : State) (f : Fab) : Bool :=
  f.w.rnd == 5 && s.now.any fun (m : Mark) => match m with
    | .dither sid cell stage => sid == f.sid && cell == f.cell && decide (f.e.stage < stage)
    | _ => false

/-- A result token with the tag it carries and the flags it raises. -/
structure Made where
  pay : Pay
  tag : BitVec 4
  fl : FlagSet := 0
deriving DecidableEq, Repr

/-- An element operation: it consumes one token of each fed position and sends one result to every target (R117). The result is computed from the payloads at a, b and p and the phase counter. A word with the rounding dth counts as a dithering operation, a cvt.raw that copies its bits among them. DESIGN CHOICE (log 128). -/
def State.fireElem (s : State) (f : Fab) (need : List (Nat × BitVec 4)) (go : Pay → Pay → Pay → Nat → Made) : Fire :=
  if s.ditherLate f then .wait
  else s.checked f need fun l =>
    let m := go (f.operand l 0) (f.operand l 1) (f.operand l 2) (s.phaseOf f)
    Fire.sent (s.sendAll f (f.both (dataToken m.tag m.pay (waveOf l)))) fun t =>
      let u := (t.takeAll f l).raise f (waveOf l) m.fl
      if f.w.rnd = 5 then u.stepPhase f else u

end Sys2Proof.Machine
end

