-- ==== Sys2Proof/Machine/FabricInt.lean ====
section
/-! DEFINITION. The integer element operations of the fabric (R120 to R123) and the integer reduction (R135). -/

namespace Sys2Proof.Machine

open Sys2Proof

/-- n coded elements of w bits as a payload, with their flags together. -/
def packCoded (w : Nat) (l : List Coded) : Pay × FlagSet := (payOf w (l.map Prod.fst), l.foldl (fun fl c => fl ||| c.2) 0)

/-- A result with one coded element for each element index. -/
def madeElems (tag : BitVec 4) (g : Nat → Coded) : Made :=
  let p := packCoded (fmtWidth tag) ((List.range (512 / fmtWidth tag)).map g)
  { pay := p.1, tag := tag, fl := p.2 }

/-- Element k of a payload in w bits. -/
def elem (w : Nat) (p : Pay) (k : Nat) : Nat := bitsAt p.toNat (w * k) w

/-- An integer operation on the values of the elements of a and b (R120). -/
def intOp (fmt : BitVec 4) (sat : Bool) (v : Int → Int → Int) (a b : Pay) : Made :=
  let w := fmtWidth fmt
  madeElems fmt fun k => fitInt fmt sat (v (intVal fmt (elem w a k)) (intVal fmt (elem w b k)))

/-- A bitwise operation on the elements of a and b. -/
def bitOp (fmt : BitVec 4) (g : Nat → Nat → Nat) (a b : Pay) : Made :=
  let w := fmtWidth fmt
  madeElems fmt fun k => (g (elem w a k) (elem w b k) % 2 ^ w, 0)

/-- A left shift by an element's count (R120). -/
def shlVal (fmt : BitVec 4) (sat : Bool) (x : Int) (count : Nat) : Coded :=
  if count < fmtWidth fmt then fitInt fmt sat (x * (2 ^ count : Nat))
  else if sat ∧ x ≠ 0 then (intCode (fmtWidth fmt) (if x < 0 then intMin fmt else intMax fmt), fSV)
  else (0, 0)

/-- An arithmetic right shift of the signed reading of the bits (R120). -/
def sraVal (w x count : Nat) : Nat :=
  let v := sintOf x w
  intCode w (if count < w then v / (2 ^ count : Nat) else if v < 0 then -1 else 0)

/-- The tags that the two-operand element operations need. -/
def needAB (f : BitVec 4) : List (Nat × BitVec 4) := [(0, f), (1, f)]

/-- The tag of a 32-bit sum of a format's elements (R121, R135). -/
def wideTag (f : BitVec 4) : BitVec 4 := if fmtSigned f then 5 else 6

/-- The elements of lane i of a payload in w bits. -/
def laneElems (w : Nat) (p : Pay) (i : Nat) : List Nat := (List.range (32 / w)).map fun j => elem w p (i * (32 / w) + j)

/-- R121 vmad. -/
def vmadMake (w : FabW) (a b c : Pay) : Made :=
  if w.x = 0 then
    let wd := fmtWidth w.fmt
    madeElems w.fmt fun k => fitInt w.fmt w.sat
      (intVal w.fmt (elem wd a k) * intVal w.fmt (elem wd b k) + intVal w.fmt (elem wd c k))
  else
    let t := wideTag w.fmt
    madeElems t fun i => fitInt t w.sat (((laneElems (fmtWidth w.fmt) a i).zip (laneElems (fmtWidth w.fmt) b i)).foldl
      (fun acc p => acc + intVal w.fmt p.1 * intVal w.fmt p.2) (intVal t (elem 32 c i)))

/-- The conditions of vcmp and fcmp on a comparison: less and equal (R119). -/
def condBit (c : Nat) (lt eq : Bool) : Bool :=
  match c with
  | 0 => eq
  | 1 => !eq
  | 2 => lt
  | 3 => !lt
  | 4 => lt || eq
  | _ => !(lt || eq)

/-- R122 vcmp. -/
def vcmpMake (w : FabW) (a b : Pay) : Made :=
  let wd := fmtWidth w.fmt
  { tag := 15
    pay := predPay wd ((List.range (512 / wd)).map fun k =>
      let x := intVal w.fmt (elem wd a k)
      let y := intVal w.fmt (elem wd b k)
      condBit w.x.toNat (decide (x < y)) (decide (x = y))) }

/-- R123 vsel. -/
def vselMake (w : FabW) (a b p : Pay) : Made :=
  let wd := fmtWidth w.fmt
  madeElems w.fmt fun k => (if predBit wd p k then elem wd a k else elem wd b k, 0)

/-- One level of a pairwise tree: adjacent pairs combined (R135). -/
def pairUp {α : Type} (g : α → α → α) : List α → List α
  | a :: b :: t => g a b :: pairUp g t
  | l => l

/-- A pairwise tree of at most n levels. -/
def pairTree {α : Type} (g : α → α → α) : Nat → List α → List α
  | 0, l => l
  | n + 1, l => pairTree g n (pairUp g l)

/-- Two partial sums added with an operation, flags together. -/
def addCoded (g : Nat → Nat → Coded) (x y : Coded) : Coded :=
  let r := g x.1 y.1
  (r.1, x.2 ||| y.2 ||| r.2)

/-- R135 vred. -/
def vredMake (w : FabW) (a : Pay) : Made :=
  let l := elemsOf (fmtWidth w.fmt) a
  if w.x = 0 then
    let r := (pairTree (addCoded fun x y => fitInt w.fmt w.sat (intVal w.fmt x + intVal w.fmt y)) 7 (l.map fun x => (x, 0))).headD (0, 0)
    { pay := splat (fmtWidth w.fmt) r.1, tag := w.fmt, fl := r.2 }
  else
    let t := wideTag w.fmt
    let r := fitInt t w.sat (l.foldl (fun acc x => acc + intVal w.fmt x) 0)
    { pay := splat 32 r.1, tag := t, fl := r.2 }

/-! ### Meanings -/

/-- R120 vadd. -/
def execVadd (w : FabW) (s : State) : Host.Outcome State Fault Refusal :=
  s.fabric w fun f => s.fireElem f (needAB w.fmt) fun a b _ _ => intOp w.fmt w.sat (· + ·) a b
/-- R120 vsub. -/
def execVsub (w : FabW) (s : State) : Host.Outcome State Fault Refusal :=
  s.fabric w fun f => s.fireElem f (needAB w.fmt) fun a b _ _ => intOp w.fmt w.sat (· - ·) a b
/-- R120 vaddsat. -/
def execVaddsat (w : FabW) (s : State) : Host.Outcome State Fault Refusal :=
  s.fabric w fun f => s.fireElem f (needAB w.fmt) fun a b _ _ => intOp w.fmt true (· + ·) a b
/-- R120 vsubsat. -/
def execVsubsat (w : FabW) (s : State) : Host.Outcome State Fault Refusal :=
  s.fabric w fun f => s.fireElem f (needAB w.fmt) fun a b _ _ => intOp w.fmt true (· - ·) a b
/-- R120 vmul. -/
def execVmul (w : FabW) (s : State) : Host.Outcome State Fault Refusal :=
  s.fabric w fun f => s.fireElem f (needAB w.fmt) fun a b _ _ => intOp w.fmt w.sat (· * ·) a b
/-- R120 vmulh. -/
def execVmulh (w : FabW) (s : State) : Host.Outcome State Fault Refusal :=
  s.fabric w fun f => s.fireElem f (needAB w.fmt) fun a b _ _ =>
    intOp w.fmt false (fun x y => x * y / (2 ^ fmtWidth w.fmt : Nat)) a b
/-- R121 vmad. -/
def execVmad (w : FabW) (s : State) : Host.Outcome State Fault Refusal :=
  s.fabric w fun f => s.fireElem f ((2, if w.x = 0 then w.fmt else wideTag w.fmt) :: needAB w.fmt) fun a b c _ => vmadMake w a b c
/-- R120 vabs. -/
def execVabs (w : FabW) (s : State) : Host.Outcome State Fault Refusal :=
  s.fabric w fun f => s.fireElem f (needAB w.fmt) fun a _ _ _ => intOp w.fmt w.sat (fun x _ => x.natAbs) a a
/-- R120 vneg. -/
def execVneg (w : FabW) (s : State) : Host.Outcome State Fault Refusal :=
  s.fabric w fun f => s.fireElem f (needAB w.fmt) fun a _ _ _ => intOp w.fmt w.sat (fun x _ => -x) a a
/-- R120 vmin. -/
def execVmin (w : FabW) (s : State) : Host.Outcome State Fault Refusal :=
  s.fabric w fun f => s.fireElem f (needAB w.fmt) fun a b _ _ => intOp w.fmt false min a b
/-- R120 vmax. -/
def execVmax (w : FabW) (s : State) : Host.Outcome State Fault Refusal :=
  s.fabric w fun f => s.fireElem f (needAB w.fmt) fun a b _ _ => intOp w.fmt false max a b
/-- R120 vand. -/
def execVand (w : FabW) (s : State) : Host.Outcome State Fault Refusal :=
  s.fabric w fun f => s.fireElem f (needAB w.fmt) fun a b _ _ => bitOp w.fmt (· &&& ·) a b
/-- R120 vor. -/
def execVor (w : FabW) (s : State) : Host.Outcome State Fault Refusal :=
  s.fabric w fun f => s.fireElem f (needAB w.fmt) fun a b _ _ => bitOp w.fmt (· ||| ·) a b
/-- R120 vxor. -/
def execVxor (w : FabW) (s : State) : Host.Outcome State Fault Refusal :=
  s.fabric w fun f => s.fireElem f (needAB w.fmt) fun a b _ _ => bitOp w.fmt (· ^^^ ·) a b
/-- R120 vnot. -/
def execVnot (w : FabW) (s : State) : Host.Outcome State Fault Refusal :=
  s.fabric w fun f => s.fireElem f (needAB w.fmt) fun a _ _ _ => bitOp w.fmt (fun x _ => 2 ^ fmtWidth w.fmt - 1 - x) a a
/-- R120 vshl. -/
def execVshl (w : FabW) (s : State) : Host.Outcome State Fault Refusal :=
  s.fabric w fun f => s.fireElem f (needAB w.fmt) fun a b _ _ =>
    madeElems w.fmt fun k => shlVal w.fmt w.sat (intVal w.fmt (elem (fmtWidth w.fmt) a k)) (elem (fmtWidth w.fmt) b k)
/-- R120 vshr. -/
def execVshr (w : FabW) (s : State) : Host.Outcome State Fault Refusal :=
  s.fabric w fun f => s.fireElem f (needAB w.fmt) fun a b _ _ =>
    bitOp w.fmt (fun x n => if n < fmtWidth w.fmt then x / 2 ^ n else 0) a b
/-- R120 vsra. -/
def execVsra (w : FabW) (s : State) : Host.Outcome State Fault Refusal :=
  s.fabric w fun f => s.fireElem f (needAB w.fmt) fun a b _ _ => bitOp w.fmt (sraVal (fmtWidth w.fmt)) a b
/-- R120 vclz. -/
def execVclz (w : FabW) (s : State) : Host.Outcome State Fault Refusal :=
  s.fabric w fun f => s.fireElem f (needAB w.fmt) fun a _ _ _ =>
    bitOp w.fmt (fun x _ => if x = 0 then fmtWidth w.fmt else fmtWidth w.fmt - 1 - lg x) a a
/-- R120 vpopc. -/
def execVpopc (w : FabW) (s : State) : Host.Outcome State Fault Refusal :=
  s.fabric w fun f => s.fireElem f (needAB w.fmt) fun a _ _ _ =>
    bitOp w.fmt (fun x _ => ((List.range (fmtWidth w.fmt)).filter fun k => bitAt x k).length) a a
/-- R122 vcmp. -/
def execVcmp (w : FabW) (s : State) : Host.Outcome State Fault Refusal :=
  s.fabric w fun f => s.fireElem f (needAB w.fmt) fun a b _ _ => vcmpMake w a b
/-- R123 vsel. -/
def execVsel (w : FabW) (s : State) : Host.Outcome State Fault Refusal :=
  s.fabric w fun f => s.fireElem f ((2, 15) :: needAB w.fmt) fun a b p _ => vselMake w a b p
/-- R135 vred. -/
def execVred (w : FabW) (s : State) : Host.Outcome State Fault Refusal :=
  s.fabric w fun f => s.fireElem f (needAB w.fmt) fun a _ _ _ => vredMake w a

end Sys2Proof.Machine
end

