-- ==== Sys2Proof/Machine/Func.lean ====
section
/-! DEFINITION. The one-operand functions 1/a, the square root, 1/√a, 2^a and log2 a as exact values to be rounded once (R124, R128). A value that is no multiple of a power of two is given to so many bits, with a last bit that stands for the rest, that one rounding of it is the rounding of the exact value (log 10). -/

namespace Sys2Proof.Machine

open Sys2Proof

/-- Floor of the square root, found from bit k - 1 down. -/
def isqrtFrom (n : Nat) : Nat → Nat → Nat
  | 0, r => r
  | k + 1, r => isqrtFrom n k (if (r + 2 ^ k) * (r + 2 ^ k) ≤ n then r + 2 ^ k else r)

/-- Floor of the square root. -/
def isqrt (n : Nat) : Nat := isqrtFrom n (lg n / 2 + 1) 0

/-- A magnitude n 2^e, with a last bit for a rest when it is not exact. -/
def withRest (neg : Bool) (n : Nat) (e : Int) (exact : Bool) : Val :=
  if exact then .fin neg n e else .fin neg (2 * n + 1) (e - 1)

/-- 1 / (m 2^e) for a non-zero m. -/
def recipVal (neg : Bool) (m : Nat) (e : Int) : Val :=
  let k := lg m + 96
  withRest neg (2 ^ k / m) (-(k : Int) - e) (2 ^ k % m == 0)

/-- m and e changed so that e is even. -/
def evenExp (m : Nat) (e : Int) : Nat × Int := if e % 2 = 0 then (m, e) else (2 * m, e - 1)

/-- The square root of m 2^e. -/
def sqrtVal (m : Nat) (e : Int) : Val :=
  let p := evenExp m e
  let n := p.1 * 2 ^ 192
  let r := isqrt n
  withRest false r (p.2 / 2 - 96) (r * r == n)

/-- 1 / the square root of m 2^e, for a non-zero m. -/
def rsqrtVal (m : Nat) (e : Int) : Val :=
  let p := evenExp m e
  let k := lg p.1 + 96
  let n := 2 ^ (2 * k) / p.1
  let r := isqrt n
  withRest false r (-(k : Int) - p.2 / 2) (r * r * p.1 == 2 ^ (2 * k))

/-- The natural logarithm of 2 in units of 2^-256. -/
def ln2Fix : Nat := 0xb17217f7d1cf79abc9e3b39803f2f6af40f343267298b62d8a0d175b8baafa2b

/-- The sum of the terms of the exponential series from a term on, in units of 2^-256. -/
def expSum (x : Nat) : Nat → Nat → Nat → Nat
  | 0, _, _ => 0
  | n + 1, i, t => t + expSum x n (i + 1) (t * x / 2 ^ 256 / (i + 1))

/-- 2 to the power ± m 2^e. -/
def exp2Val (neg : Bool) (m : Nat) (e : Int) : Val :=
  if 0 ≤ e then .fin false 1 ((if neg then -1 else 1) * ((m * pw2 e : Nat) : Int))
  else
    let k := pw2 (-e)
    let v : Int := if neg then -(m : Int) else m
    let i := v / (k : Int)
    let r := (v % (k : Int)).toNat
    if r = 0 then .fin false 1 i
    else
      let x := r * 2 ^ 256 / k * ln2Fix / 2 ^ 256
      withRest false (expSum x 64 0 (2 ^ 256) / 2 ^ 56) (i - 200) false

/-- The binary digits of log2 of x / 2^320, for x from 2^320 up to 2^321: n digits put after those found. -/
def logBits : Nat → Nat → Nat → Nat
  | 0, _, acc => acc
  | n + 1, x, acc =>
    let y := x * x / 2 ^ 320
    if 2 ^ 321 ≤ y then logBits n (y / 2) (2 * acc + 1) else logBits n y (2 * acc)

/-- The binary logarithm of m 2^e, for a non-zero m. -/
def log2Val (m : Nat) (e : Int) : Val :=
  let i := e + lg m
  if m = 2 ^ lg m then Val.ofInt false i 0
  else
    let v : Int := i * (2 ^ 140 : Nat) + (logBits 140 (m * 2 ^ 320 / 2 ^ lg m) 0 : Nat)
    if 0 ≤ v then withRest false v.toNat (-140) false
    else withRest true (-v - 1).toNat (-140) false

/-- The one-operand functions of R124. -/
inductive Fun1 where
  | rcp | rsq | sqrt | exp2 | log2
deriving DecidableEq, Repr

/-- The exact result of a function and the flags its operand raises by itself (R125, R128). -/
def fun1 (f : Fun1) (v : Val) : Val × FlagSet :=
  match f, v with
  | _, .nan => (.nan, fNone)
  | .rcp, .inf n => (.fin n 0 0, fNone)
  | .rcp, .fin n m e => if m = 0 then (.inf n, fDZ) else (recipVal n m e, fNone)
  | .rsq, .inf n => if n then (.nan, fNV) else (.fin false 0 0, fNone)
  | .rsq, .fin n m e => if m = 0 then (.inf n, fDZ) else if n then (.nan, fNV) else (rsqrtVal m e, fNone)
  | .sqrt, .inf n => if n then (.nan, fNV) else (.inf false, fNone)
  | .sqrt, .fin n m e => if m = 0 then (.fin n 0 0, fNone) else if n then (.nan, fNV) else (sqrtVal m e, fNone)
  | .exp2, .inf n => if n then (.fin false 0 0, fNone) else (.inf false, fNone)
  | .exp2, .fin n m e => if m = 0 then (.fin false 1 0, fNone) else (exp2Val n m e, fNone)
  | .log2, .inf n => if n then (.nan, fNV) else (.inf false, fNone)
  | .log2, .fin n m e => if m = 0 then (.inf true, fDZ) else if n then (.nan, fNV) else (log2Val m e, fNone)

end Sys2Proof.Machine
end

