-- ==== Sys2Proof/Machine/FabricFloat.lean ====
section
/-! DEFINITION. The floating element operations of the fabric (R124 to R129) and the floating reduction (R136). -/

namespace Sys2Proof.Machine

open Sys2Proof

/-- The flag of a signalling NaN among the operands (R96). -/
def snanFlag (f : BitVec 4) (l : List Nat) : FlagSet := fIf (l.any fun x => isSnan f x) fNV

/-- A value with its validity rounded into a format, with the flags of its operands (R124). -/
def roundOp (f : BitVec 4) (rnd : BitVec 3) (sat : Bool) (idx : Nat) (fl : FlagSet) (v : Val × Bool) : Coded :=
  let r := roundVal f rnd sat idx v.1
  (r.1, r.2 ||| fl ||| fIf v.2 fNV)

/-- The sum of two codes rounded once (R124, R125). -/
def faddCode (f : BitVec 4) (rnd : BitVec 3) (sat : Bool) (idx x y : Nat) : Coded :=
  roundOp f rnd sat idx (snanFlag f [x, y]) ((decodeVal f x).add (rnd == 2) (decodeVal f y))

/-- The difference of two codes rounded once (R124, R125). -/
def fsubCode (f : BitVec 4) (rnd : BitVec 3) (sat : Bool) (idx x y : Nat) : Coded :=
  roundOp f rnd sat idx (snanFlag f [x, y]) ((decodeVal f x).add (rnd == 2) (decodeVal f y).negate)

/-- The product of two codes rounded once (R124, R125). -/
def fmulCode (f : BitVec 4) (rnd : BitVec 3) (sat : Bool) (idx x y : Nat) : Coded :=
  roundOp f rnd sat idx (snanFlag f [x, y]) ((decodeVal f x).mul (decodeVal f y))

/-- The fused product and sum rounded once (R124, R125). -/
def ffmaCode (f : BitVec 4) (rnd : BitVec 3) (sat : Bool) (idx x y z : Nat) : Coded :=
  let p := (decodeVal f x).mul (decodeVal f y)
  let r := p.1.add (rnd == 2) (decodeVal f z)
  roundOp f rnd sat idx (snanFlag f [x, y, z]) (r.1, p.2 || r.2)

/-- fmin or fmax of two codes: the other operand where one is a NaN, −0 below +0 (R126). -/
def fminCode (f : BitVec 4) (maxi : Bool) (x y : Nat) : Coded :=
  let a := decodeVal f x
  let b := decodeVal f y
  let fl := snanFlag f [x, y]
  if a = .nan then (if b = .nan then (canonNan f, fl) else (y, fl))
  else if b = .nan then (x, fl)
  else
    let less := a.lt b || (!b.lt a && a.neg && !b.neg)
    (if less != maxi then x else y, fl)

/-- fcmp of two codes (R127). -/
def fcmpBit (f : BitVec 4) (c x y : Nat) : Bool :=
  let a := decodeVal f x
  let b := decodeVal f y
  let un := a == .nan || b == .nan
  if c = 6 then un else if un then c == 1 else condBit c (a.lt b) (!a.lt b && !b.lt a)

/-- A one-operand function of a code rounded once (R124, R128). -/
def funCode (g : Fun1) (f : BitVec 4) (rnd : BitVec 3) (sat : Bool) (idx x : Nat) : Coded :=
  let v := fun1 g (decodeVal f x)
  roundOp f rnd sat idx (snanFlag f [x] ||| v.2) (v.1, false)

/-- The tag of the integer operand of fldx and of the result of fexpo (R129). -/
def expTag (f : BitVec 4) : BitVec 4 := if f = 7 then 5 else 3

/-- fldx of a code by an integer (R129). -/
def fldxCode (f : BitVec 4) (rnd : BitVec 3) (sat : Bool) (idx x : Nat) (n : Int) : Coded :=
  let v := match decodeVal f x with
    | .fin s m e => if m = 0 then .fin s 0 0 else .fin s m (e + n)
    | v => v
  roundOp f rnd sat idx (snanFlag f [x]) (v, false)

/-- fexpo of a code (R129). -/
def fexpoCode (f : BitVec 4) (x : Nat) : Coded :=
  let t := expTag f
  match decodeVal f x with
  | .nan => (intCode (fmtWidth t) (intMin t), fNV)
  | .inf _ => (intCode (fmtWidth t) (intMax t), fNV)
  | .fin _ m e => if m = 0 then (intCode (fmtWidth t) (intMin t), fDZ) else (intCode (fmtWidth t) (e + lg m), 0)

/-- Elements of two payloads combined in a float format, with the dither index of each (R104, R124). -/
def floatOp (w : FabW) (phase : Nat) (g : Nat → Nat → Nat → Coded) (a b : Pay) : Made :=
  madeElems w.fmt fun k => g ((k + phase) % 32) (elem (fmtWidth w.fmt) a k) (elem (fmtWidth w.fmt) b k)

/-- R136 fred. -/
def fredMake (w : FabW) (a : Pay) : Made :=
  let l := elemsOf (fmtWidth w.fmt) a
  if w.x = 0 then
    let r := (pairTree (addCoded (faddCode w.fmt 0 false 0)) 7 (l.map fun x => (x, 0))).headD (0, 0)
    { pay := splat (fmtWidth w.fmt) r.1, tag := w.fmt, fl := r.2 }
  else
    let r := (pairTree (addCoded (faddCode 7 0 false 0)) 7 (l.map fun x => convert w.fmt 7 0 false 0 x)).headD (0, 0)
    { pay := splat 32 r.1, tag := 7, fl := r.2 }

/-- R127 fcmp. -/
def fcmpMake (w : FabW) (a b : Pay) : Made :=
  let wd := fmtWidth w.fmt
  let ks := List.range (512 / wd)
  { tag := 15
    pay := predPay wd (ks.map fun k => fcmpBit w.fmt w.x.toNat (elem wd a k) (elem wd b k))
    fl := ks.foldl (fun fl k => fl ||| snanFlag w.fmt [elem wd a k, elem wd b k]) 0 }

/-! ### Meanings -/

/-- R124 fadd. -/
def execFadd (w : FabW) (s : State) : Host.Outcome State Fault Refusal :=
  s.fabric w fun f => s.fireElem f (needAB w.fmt) fun a b _ ph => floatOp w ph (faddCode w.fmt w.rnd w.sat) a b
/-- R124 fsub. -/
def execFsub (w : FabW) (s : State) : Host.Outcome State Fault Refusal :=
  s.fabric w fun f => s.fireElem f (needAB w.fmt) fun a b _ ph => floatOp w ph (fsubCode w.fmt w.rnd w.sat) a b
/-- R124 fmul. -/
def execFmul (w : FabW) (s : State) : Host.Outcome State Fault Refusal :=
  s.fabric w fun f => s.fireElem f (needAB w.fmt) fun a b _ ph => floatOp w ph (fmulCode w.fmt w.rnd w.sat) a b
/-- R124 ffma: the addend stands at p. -/
def execFfma (w : FabW) (s : State) : Host.Outcome State Fault Refusal :=
  s.fabric w fun f => s.fireElem f ((2, w.fmt) :: needAB w.fmt) fun a b c ph =>
    madeElems w.fmt fun k => ffmaCode w.fmt w.rnd w.sat ((k + ph) % 32)
      (elem (fmtWidth w.fmt) a k) (elem (fmtWidth w.fmt) b k) (elem (fmtWidth w.fmt) c k)
/-- R126 fmin. -/
def execFmin (w : FabW) (s : State) : Host.Outcome State Fault Refusal :=
  s.fabric w fun f => s.fireElem f (needAB w.fmt) fun a b _ ph => floatOp w ph (fun _ x y => fminCode w.fmt false x y) a b
/-- R126 fmax. -/
def execFmax (w : FabW) (s : State) : Host.Outcome State Fault Refusal :=
  s.fabric w fun f => s.fireElem f (needAB w.fmt) fun a b _ ph => floatOp w ph (fun _ x y => fminCode w.fmt true x y) a b
/-- R126 fabs. -/
def execFabs (w : FabW) (s : State) : Host.Outcome State Fault Refusal :=
  s.fabric w fun f => s.fireElem f (needAB w.fmt) fun a _ _ _ => bitOp w.fmt (fun x _ => x % 2 ^ (fmtWidth w.fmt - 1)) a a
/-- R126 fneg. -/
def execFneg (w : FabW) (s : State) : Host.Outcome State Fault Refusal :=
  s.fabric w fun f => s.fireElem f (needAB w.fmt) fun a _ _ _ => bitOp w.fmt (fun x _ => x + 2 ^ (fmtWidth w.fmt - 1)) a a
/-- R127 fcmp. -/
def execFcmp (w : FabW) (s : State) : Host.Outcome State Fault Refusal :=
  s.fabric w fun f => s.fireElem f (needAB w.fmt) fun a b _ _ => fcmpMake w a b
/-- R124, R128 frcp. -/
def execFrcp (w : FabW) (s : State) : Host.Outcome State Fault Refusal :=
  s.fabric w fun f => s.fireElem f (needAB w.fmt) fun a _ _ ph => floatOp w ph (fun i x _ => funCode .rcp w.fmt w.rnd w.sat i x) a a
/-- R124, R128 frsq. -/
def execFrsq (w : FabW) (s : State) : Host.Outcome State Fault Refusal :=
  s.fabric w fun f => s.fireElem f (needAB w.fmt) fun a _ _ ph => floatOp w ph (fun i x _ => funCode .rsq w.fmt w.rnd w.sat i x) a a
/-- R124, R128 fsqrt. -/
def execFsqrt (w : FabW) (s : State) : Host.Outcome State Fault Refusal :=
  s.fabric w fun f => s.fireElem f (needAB w.fmt) fun a _ _ ph => floatOp w ph (fun i x _ => funCode .sqrt w.fmt w.rnd w.sat i x) a a
/-- R124, R128 fexp2. -/
def execFexp2 (w : FabW) (s : State) : Host.Outcome State Fault Refusal :=
  s.fabric w fun f => s.fireElem f (needAB w.fmt) fun a _ _ ph => floatOp w ph (fun i x _ => funCode .exp2 w.fmt w.rnd w.sat i x) a a
/-- R124, R128 flog2. -/
def execFlog2 (w : FabW) (s : State) : Host.Outcome State Fault Refusal :=
  s.fabric w fun f => s.fireElem f (needAB w.fmt) fun a _ _ ph => floatOp w ph (fun i x _ => funCode .log2 w.fmt w.rnd w.sat i x) a a
/-- R129 fldx: b carries i32 for f32, i16 for bf16 and f16. -/
def execFldx (w : FabW) (s : State) : Host.Outcome State Fault Refusal :=
  s.fabric w fun f => s.fireElem f [(0, w.fmt), (1, expTag w.fmt)] fun a b _ ph =>
    floatOp w ph (fun i x y => fldxCode w.fmt w.rnd w.sat i x (intVal (expTag w.fmt) y)) a b
/-- R129 fexpo. -/
def execFexpo (w : FabW) (s : State) : Host.Outcome State Fault Refusal :=
  s.fabric w fun f => s.fireElem f (needAB w.fmt) fun a _ _ _ =>
    madeElems (expTag w.fmt) fun k => fexpoCode w.fmt (elem (fmtWidth w.fmt) a k)
/-- R136 fred. -/
def execFred (w : FabW) (s : State) : Host.Outcome State Fault Refusal :=
  s.fabric w fun f => s.fireElem f (needAB w.fmt) fun a _ _ _ => fredMake w a

end Sys2Proof.Machine
end

