-- ==== Sys2Proof/Machine/Engine.lean ====
section
/-! DEFINITION. What the engine operations share (R305 to R308): their sizes and destinations, the bytes they read, the bytes they write, the meeting of a collective (R312), and the issue of one. -/

namespace Sys2Proof.Machine

open Sys2Proof

/-! ### Sizes and runs -/

/-- Elements of a map, with a window's padded ones (R298, R299). -/
def Desc.count (d : Desc) : Nat := if d.win then d.pp * d.kpad else d.elems

/-- Dense bytes of a map. -/
def Desc.bytes (d : Desc) : Nat := d.count * d.esz

/-- The first run of at most n bytes at a dense position of a map: it ends with its element, or at a 128-byte line. -/
def Desc.runAt (d : Desc) (index : Nat → Nat) (p n : Nat) : Piece :=
  let e := p / d.esz
  let o := p % d.esz
  let at_ := fun (a : Word) =>
    let va := a + BitVec.ofNat 64 o
    Piece.mem va (min (min n (d.esz - o)) (128 - va.toNat % 128))
  if d.win then
    match d.winElem e with
    | (some a, _) => at_ a
    | (none, v) => .const (v / 2 ^ (8 * o)) (min n (d.esz - o))
  else at_ (d.elemAddr index e)

/-- The bytes of a run. -/
def Piece.size : Piece → Nat
  | .mem _ n => n
  | .slice _ n => n
  | .const _ n => n
  | .poison n => n

/-- The runs of n bytes at a dense position of a map. -/
def Desc.runs (d : Desc) (index : Nat → Nat) : Nat → Nat → Nat → List Piece
  | 0, _, _ => []
  | fuel + 1, p, n =>
    if n = 0 then []
    else
      let r := d.runAt index p n
      r :: d.runs index fuel (p + r.size) (n - r.size)

/-- The runs of n consecutive bytes from an address on. -/
def lineRuns : Nat → Word → Nat → List Piece
  | 0, _, _ => []
  | fuel + 1, va, n =>
    if n = 0 then []
    else
      let k := min n (128 - va.toNat % 128)
      .mem va k :: lineRuns fuel (va + BitVec.ofNat 64 k) (n - k)

/-! ### An operation's parts -/

/-- The map of an operation with its base offset (R309). -/
def EngOp.map (o : EngOp) : Desc := o.desc.addBase o.base

/-- The index list that an operation read at its issue (R310). -/
def EngOp.indexOf (o : EngOp) (i : Nat) : Nat := (o.index.getD i 0).toNat

/-- The 512-byte pieces of an operation. -/
def EngOp.pieces (o : EngOp) : Nat := (o.len + 511) / 512

/-- The bytes of piece k. -/
def EngOp.pieceLen (o : EngOp) (k : Nat) : Nat := min 512 (o.len - 512 * k)

/-- An operation still counts among its sector's outstanding ones (R305, R348). -/
def EngOp.outstanding (o : EngOp) : Bool :=
  match o.kind with
  | .inst => o.live
  | .stage => o.live
  | .rstr => o.live
  | _ => match o.tgt with
    | .virt _ => o.live
    | _ => match o.st with
      | .running => true
      | .waiting _ => true
      | _ => false

/-- An operation is of a sector's gang place (R247). -/
def EngOp.ofSector (o : EngOp) (x : Sector) : Bool := o.task == x.task && o.s4 == x.s4

/-- Fewer than 64 operations of the acting sector are outstanding (R247, R305). -/
def State.engRoom (s : State) : Bool :=
  decide ((s.ops.filter fun o => o.ofSector (s.sec s.cur) && o.outstanding).length < 64)

/-- The save record that holds the scratch of an operation's sector (R246, R250). -/
def State.savedOf (s : State) (o : EngOp) : Option SaveRec := s.saves.find? fun r => r.task == o.task && r.s4 == o.s4

/-- The operation's sector still belongs to its task (R269, R420). -/
def State.ownsSector (s : State) (o : EngOp) : Bool := (s.sec o.sid).v && (s.sec o.sid).task == o.task

/-! ### Reading -/

/-- What part of an operation comes to: bytes or done, a wait, a failure with its status and address (R308), a fault for the handler; each with the state that its accesses so far have left. -/
inductive EngGot where
  | bytes (s : State) (l : List Byte)
  | wait (s : State)
  | bad (s : State) (code : BitVec 8) (va : Word)
  | fault (s : State) (va : Word) (c : Cause) (acc : Acc)
deriving DecidableEq, Repr

/-- An operation waits up to 10 microseconds for a module that it cannot reach: the state in which it waits on, none once the time is over (R395). -/
def State.engLink (s : State) (o : EngOp) : Option State :=
  match (s.op? o.id).bind EngOp.linkAt with
  | none => some (s.modOp o.id fun x => { x with linkAt := some (s.cyc + linkWait) })
  | some d => if s.cyc < d then some s else none

/-- An operation whose module answers waits no more. -/
def State.engReached (s : State) (o : EngOp) (t : Tgt) : State := if t.ext then s.modOp o.id fun x => { x with linkAt := none } else s

/-- The bytes of a run of saved scratch are poisoned (R246, R410). -/
def SaveRec.poisonIn (r : SaveRec) (off n : Nat) : Bool := r.poison.any fun g => decide (off < (g + 1) * 64) && decide (g * 64 < off + n)

/-- One run of an operation's source read (R306, R308, R353, R410). An unreachable module's data counts as poisoned (R395). -/
def State.engRead (s : State) (o : EngOp) : Piece → EngGot
  | .const v n => .bytes s (bytesOf n v)
  | .slice a n => if s.poisonIn a n then .bad s 0x03 0 else .bytes s (s.rdBytes a n)
  | .poison _ => .bad s 0x03 0
  | .mem va n =>
    let granule := BitVec.ofNat 64 (va.toNat / 64 * 64)
    match isS va, s.savedOf o, s.ownsSector o with
    | true, some r, _ =>
      if r.poisonIn (sOff va) n then .bad s 0x03 (if r.poisonIn (sOff va) 1 then granule else granule + 64)
      else .bytes s ((List.range n).map fun i => Tab.get 0 r.scratch (sOff va + i))
    | true, none, false => .bad s 0x01 va
    | _, _, _ =>
      match s.xlate o.ctx o.sid va .read with
      | .hold => .wait s
      | .fault => .fault s va .xlateFault .read
      | .perm => .fault s va .permission .read
      | .ok t =>
        if s.unreachable t then
          match s.engLink o with
          | some u => .wait u
          | none => .bad s 0x03 granule
        else if s.flashHeld t then .wait s
        else match (s.engReached o t).strike (engWho o.id o.sid) t n with
          | .wait u => .wait u
          | .bad u => .bad u 0x03 granule
          | .go u =>
            match t.sf, u.staged? (flashPage t.phys) with
            | true, some { failed := true, badAt := a, .. } => .bad u 0x06 a
            | _, _ =>
              if u.tgtPoison t n then .bad u 0x03 (if u.tgtPoison t 1 then granule else granule + 64)
              else .bytes u (u.rdTgt t n)

/-- Runs of a source read one after another; the first that does not give its bytes decides. -/
def State.engReadAll (s : State) (o : EngOp) : List Piece → EngGot
  | [] => .bytes s []
  | p :: l =>
    match s.engRead o p with
    | .bytes u b =>
      match u.engReadAll o l with
      | .bytes v c => .bytes v (b ++ c)
      | r => r
    | r => r

/-- The dense bytes of piece k of an operation's source: its map for a copy or a gather, the scratch it names for a scatter, the combined result for a collective. -/
def State.engPiece (s : State) (o : EngOp) (k : Nat) : EngGot :=
  match o.kind with
  | .scat => s.engReadAll o (lineRuns 512 (o.src + BitVec.ofNat 64 (512 * k)) (o.pieceLen k))
  | .coll _ _ _ => .bytes s ((o.result.drop (512 * k)).take (o.pieceLen k))
  | _ => s.engReadAll o (o.map.runs o.indexOf 512 (512 * k) (o.pieceLen k))

/-! ### Writing -/

/-- The memory kind that every page of a destination must have: that of the pages it has met, else that of the page it meets now (R306). -/
def State.destKind (s : State) (o : EngOp) (va : Word) : Option Nat :=
  match o.dkind with
  | some k => some k
  | none => (findRt (s.ctx o.ctx).rt va.toNat).map fun p => pwKind p.2.pw

/-- Bytes put into a shadow, by virtual address (R306). -/
def shadowPut (t : List (Nat × Byte)) (va : Nat) (l : List Byte) : List (Nat × Byte) :=
  l.zipIdx.foldl (fun t p => Tab.put t (va + p.2) p.1) t

/-- One run of a destination in virtual memory written (R306). A store that cannot reach its module is a contained error (R395). -/
def State.engWrite (s : State) (o : EngOp) (va : Word) (l : List Byte) : EngGot :=
  match (if isVirt va then s.xlateV o.ctx va.toNat .write else .fault) with
  | .hold => .wait s
  | .fault => .fault s va .xlateFault .write
  | .perm => .fault s va .permission .write
  | .ok t =>
    let u := s.modOp o.id fun x => { x with dkind := some (pwKind t.pw) }
    if o.dkind.any fun k => k != pwKind t.pw then .bad s 0x04 (va - BitVec.ofNat 64 t.off)
    else if t.ver || t.sf then .fault s va .permission .write
    else match pwKind t.pw with
      | 0 => .bytes (u.modOp o.id fun x => { x with shadow := shadowPut x.shadow va.toNat l }) []
      | 2 => if s.reserved t.phys l.length then .bad s 0x02 va else .bytes (u.store t.phys l) []
      | _ =>
        if s.unreachable t then
          match s.engLink o with
          | some u => .wait u
          | none => .bytes (u.errorRec o.ctx o.tidx o.sid (va - BitVec.ofNat 64 t.off) 0) []
        else .bytes ((u.engReached o t).store t.phys l) []

/-- Runs of a destination written one after another; a constant position writes nothing (R311). -/
def State.engWriteAll (s : State) (id : Nat) : List Piece → List Byte → EngGot
  | [], _ => .bytes s []
  | p :: l, d =>
    match p with
    | .mem va n =>
      match s.op? id with
      | none => .bytes s []
      | some o =>
        match s.engWrite o va (d.take n) with
        | .bytes u _ => u.engWriteAll id l (d.drop n)
        | r => r
    | q => s.engWriteAll id l (d.drop q.size)

/-! ### What changes in a save record after it has been written (R248 to R250) -/

/-- The first byte of a record within the HBM slice of a channel: the save area is the last 32 KiB times SAVEN of the context's slice (R378). -/
def Ctx.saveBase (x : Ctx) (k : Nat) : Nat := (x.poolHBase + x.poolHLen) * 2 ^ 16 - x.saven * 2 ^ 15 + k * 2 ^ 15

/-- The place of a byte of record k, which is striped over the 256 channels, 32 KiB in each, in channel order. DESIGN CHOICE (log 124). -/
def Ctx.saveAt (x : Ctx) (k off : Nat) : Nat := off / 2 ^ 15 * 2 ^ 31 + x.saveBase k + off % 2 ^ 15

/-- Bytes written at an offset of a save record, none of whose parts crosses a stripe. The device uses their channel (R265). -/
def State.wrSave (s : State) (r : SaveRec) (off : Nat) (l : List Byte) : State :=
  let ch := off / 2 ^ 15
  { s.wrBytes ((s.ctx r.ctx).saveAt r.place off) l with
    asleep := Tab.set false s.asleep ch false, waking := Tab.del s.waking ch, lastUse := Tab.set 0 s.lastUse ch s.cyc }

/-- The progress of an operation as a number. -/
def EngSt.num : EngSt → Nat
  | .running => 0
  | .waiting _ => 1
  | .complete => 2
  | .failed => 3

/-- The bytes of some words. -/
def wordBytes (l : List Word) : List Byte := l.flatMap fun w => bytesOf 8 w.toNat

/-- An engine record of 64 bytes, with the CYC that remain of its promise (R249). The places of its words are the model's own (log 124). -/
def EngOp.record (o : EngOp) (cyc : Nat) : List Byte :=
  wordBytes [BitVec.ofNat 64 o.id, BitVec.ofNat 64 (o.st.num + o.status.toNat * 256), BitVec.ofNat 64 (o.due - cyc), o.base, o.src,
    BitVec.ofNat 64 o.len, BitVec.ofNat 64 o.done.length, o.failAddr]

/-- A refused chunk: its index, the index of its engine record, the address it comes from (R248). -/
def refusedRecord (engs : List Nat) (p : Nat × Nat × Word) : List Byte :=
  bytesOf 2 p.1 ++ bytesOf 6 ((engs.findIdx? fun k => k == p.2.1).getD 0) ++ bytesOf 8 p.2.2.toNat

/-- The save record of an operation's sector has been written: its gang is SAVED (R247). -/
def State.writtenOf (s : State) (o : EngOp) : Option SaveRec :=
  if (s.task? o.task).any fun t => t.st == .saved then s.savedOf o else none

/-- A chunk refused once the record stands in the save area is entered there: one more entry at its end, and NREF (R248, R250). -/
def State.noteRefused (s : State) (o : EngOp) (p : Nat × Nat × Word) : State :=
  match s.writtenOf o with
  | none => s
  | some r =>
    let word := fun (k : Nat) => (s.rdWord ((s.ctx r.ctx).saveAt r.place (8 * k))).toNat % 2 ^ 32
    (s.wrSave r (0x510000 + 80 * word 2 + 128 * word 3 + 16 * word 4) (refusedRecord r.engs p)).wrSave r 32 (bytesOf 8 (word 4 + 1))

/-- An operation that has ended while its gang is saved is recorded so (R249). -/
def State.noteEnded (s : State) (id : Nat) : State :=
  match s.op? id with
  | none => s
  | some o => match s.writtenOf o with
    | none => s
    | some r => match r.engs.findIdx? fun k => k == id with
      | some i => s.wrSave r (0x2000 + 64 * i) (o.record r.cyc)
      | none => s

/-! ### Chunks -/

/-- A chunk of 512 bytes, the bytes past the data zero (R307). -/
def chunkBytes (l : List Byte) : List Byte := l ++ List.replicate (512 - l.length) 0

/-- A chunk committed to a sector's scratch: refused and recorded once the sector has been saved (R250), discarded where the task no longer holds the sector (R420), failed with PERM on entry-queue bytes (R31), else written whole with its bit set (R270, R307). -/
def State.engChunk (s : State) (o : EngOp) (k off : Nat) (l : List Byte) : EngGot :=
  let c := off / 512 + k
  match s.savedOf o with
  | some r =>
    let src := match o.map.runs o.indexOf 1 (512 * k) 1 with
      | .mem va _ :: _ => va
      | _ => 0
    .bytes (({ s with saves := s.saves.map fun (x : SaveRec) =>
      if x.task = r.task ∧ x.s4 = r.s4 then { x with refused := x.refused ++ [(c, o.id, src)] } else x } : State).noteRefused o (c, o.id, src)) []
  | none =>
    if !s.ownsSector o then .bytes s []
    else if s.reserved (scratchAt o.sid (c * 512)) 512 then .bad s 0x02 (sAddr (c * 512))
    else .bytes ((s.store (scratchAt o.sid (c * 512)) (chunkBytes l)).modSec o.sid fun x =>
      { x with bitmap := Tab.set false x.bitmap c true }) []

/-- Piece k of an operation written to its destination (R306). -/
def State.engPut (s : State) (o : EngOp) (k : Nat) (l : List Byte) : EngGot :=
  match o.kind, o.tgt with
  | .scat, _ => s.engWriteAll o.id (o.map.runs o.indexOf 512 (512 * k) (o.pieceLen k)) l
  | _, .scratch off => s.engChunk o k off l
  | _, .edge _ _ off => .bytes (s.setOp { o with shadow := shadowPut o.shadow (off + 512 * k) l }) []
  | _, .virt va =>
    let a := va + BitVec.ofNat 64 (512 * k)
    let d := if s.destKind o a = some 2 then chunkBytes l else l
    s.engWriteAll o.id (lineRuns 513 a d.length) d

/-! ### Failing and waiting (R308) -/

/-- What an operation keeps of its translated status word. -/
def Tgt.held (t : Tgt) : Option (Nat × Nat) := t.idx.map fun i => (i, t.off)

/-- The place of an operation's status word, as it was translated at issue; a re-stripe of its page moves it (R286, R314, R348). -/
def State.statusTgt (s : State) (o : EngOp) : Option Tgt :=
  o.stAt.bind fun p => (Tab.find (s.ctx o.ctx).rt p.1).map fun e => ⟨some p.1, e.pw, e.frame, p.2, pagePhys e.pw e.frame p.2⟩

/-- An operation fails: no further chunk, its shadow discarded. -/
def State.engFail (s : State) (o : EngOp) (code : BitVec 8) (va : Word) : State :=
  (s.setOp { o with st := .failed, status := code, failAddr := va, shadow := [] }).noteEnded o.id

/-- An operation that met a fault waits for the handler (R308, R370). UNIT is an engine index of the die: operations take the sixteen engines in turn. -/
def State.engFault (s : State) (o : EngOp) (va : Word) (c : Cause) (acc : Nat) : State :=
  let r := s.faultRec o.ctx o.task o.tidx o.sid va c 2 acc (o.id % 16) 0 2 none
  r.2.setOp { o with st := .waiting r.1, failAddr := va }

/-- The operation after a part that gave no bytes. -/
def EngGot.stop (o : EngOp) : EngGot → State
  | .bytes u _ => u
  | .wait u => u
  | .bad u c va => u.engFail ((u.op? o.id).getD o) c va
  | .fault u va c a => u.engFault ((u.op? o.id).getD o) va c (match a with
    | .read => 0
    | .write => 1
    | .both => 2
    | .fetch => 0)

/-! ### Collectives (R312) -/

/-- The operations of the n-th coll of a gang, in the order of s4; none until every thread has issued its own. -/
def State.gangColl (s : State) (task n : Nat) : Option (List EngOp) :=
  let ls := s.ops.filter fun o => o.task == task && o.seqn == n && match o.kind with
    | .coll _ _ _ => true
    | _ => false
  match ls with
  | [] => none
  | p :: _ => (List.range p.parties).mapM fun i => ls.find? fun o => o.s4 == i

/-- The gangs of a context that have met in a domain coll of a key and whose result is not formed yet, each by its task and number, the earliest number of each. -/
def State.domainGangs (s : State) (c : BitVec 8) (key : Nat) : List (Nat × Nat) :=
  let leads := s.ops.filter fun o => o.ctx == c && o.s4 == 0 && !o.started && o.key.toNat % 2 ^ 16 == key && match o.kind with
    | .coll _ _ d => d
    | _ => false
  ((leads.map EngOp.task).eraseDups.mergeSort fun a b => decide (a ≤ b)).filterMap fun k =>
    (leads.find? fun o => o.task == k && (s.gangColl k o.seqn).isSome).map fun o => (k, o.seqn)

/-- The lowest SECTID of the gang that has met in its n-th coll. -/
def State.lowSid (s : State) (task n : Nat) : Nat := ((s.gangColl task n).getD []).foldl (fun m o => min m o.sid) 1000

/-- The participants of a coll in their order, once all have issued theirs. Gangs of other modules stand outside the machine. -/
def State.collMeet (s : State) (o : EngOp) : Option (List EngOp) :=
  match s.gangColl o.task o.seqn with
  | none => none
  | some l =>
    match o.kind with
    | .coll _ _ true =>
      let lead := l.headD o
      let gs := s.domainGangs o.ctx (lead.key.toNat % 2 ^ 16)
      let n := lead.key.toNat / 2 ^ 16 % 2 ^ 16
      let first := gs.take n
      if gs.length < n || !first.contains (o.task, o.seqn) then none
      else (first.mergeSort fun a b => decide (s.lowSid a.1 a.2 ≤ s.lowSid b.1 b.2)).flatMapM fun g => s.gangColl g.1 g.2
    | _ => some l

/-- Two elements combined: integers wrap, floats are rounded under rne (R312). -/
def collCombine (f : Nat) (fmt : BitVec 4) (x y : Nat) : Nat :=
  let int := fmtInt fmt
  match f with
  | 0 => if int then intCode (fw fmt) (intVal fmt x + intVal fmt y) else (faddCode fmt 0 false 0 x y).1
  | 1 => if int then (if intVal fmt x < intVal fmt y then y else x) else (fminCode fmt true x y).1
  | _ => if int then (if intVal fmt y < intVal fmt x then y else x) else (fminCode fmt false x y).1

/-- The elements of some bytes. -/
def elemsOfBytes (w : Nat) : Nat → List Byte → List Nat
  | 0, _ => []
  | n + 1, l => if l.isEmpty then [] else natOf (l.take (w / 8)) :: elemsOfBytes w n (l.drop (w / 8))

/-- The bytes of some elements. -/
def bytesOfElems (w : Nat) (l : List Nat) : List Byte := l.flatMap fun x => bytesOf (w / 8) x

/-- The result of a coll from the contributions in participant order. -/
def collResult (f : Nat) (fmt : BitVec 4) (ls : List (List Byte)) : List Byte :=
  match f with
  | 3 => ls.flatten
  | 4 => ls.headD []
  | _ =>
    let w := fw fmt
    let es := ls.map fun l => elemsOfBytes w l.length l
    bytesOfElems w ((pairTree (fun a b => List.zipWith (collCombine f fmt) a b) es.length es).headD [])

/-- The contributions of the participants read; the first that does not give its bytes decides, with its operation. -/
def State.collRead (s : State) : List EngOp → (State × List (List Byte)) ⊕ (EngOp × EngGot)
  | [] => .inl (s, [])
  | o :: l =>
    match s.engReadAll o (o.map.runs o.indexOf o.map.bytes 0 o.map.bytes) with
    | .bytes u b =>
      match u.collRead l with
      | .inl (v, bs) => .inl (v, b :: bs)
      | r => r
    | r => .inr (o, r)

/-- A contribution is at most 64 KiB and whole elements (R312); a breach counts as a disagreement (log 20). -/
def EngOp.collOk (o : EngOp) : Bool :=
  match o.kind with
  | .coll _ fmt _ => decide (o.map.bytes ≤ 65536) && o.map.bytes * 8 % fw fmt == 0
  | _ => false

/-- Every participant of a coll fails with one status. -/
def State.collFail (s : State) (l : List EngOp) (code : BitVec 8) (va : Word) : State :=
  l.foldl (fun (s : State) o => s.engFail { o with started := true } code va) s

/-- The participants of a coll meet: their contributions are combined into the result of each, or all fail (R312). -/
def State.collForm (s : State) (l : List EngOp) : State :=
  match l with
  | [] => s
  | o :: _ =>
    if !(l.all fun p => p.kind == o.kind && p.map.bytes == o.map.bytes && p.collOk) then s.collFail l 0x05 0
    else if l.any fun p => p.st == .failed then
      match l.find? fun p => p.st == .failed with
      | some p => s.collFail l p.status p.failAddr
      | none => s
    else if l.any fun p => p.st != .running then s
    else match s.collRead l with
      | .inr (_, .bad u c va) => u.collFail l c va
      | .inr (p, r) => r.stop p
      | .inl (u, bs) =>
        match o.kind with
        | .coll f fmt _ =>
          let r := collResult f fmt bs
          l.foldl (fun (s : State) p => s.setOp { p with started := true, result := r, len := r.length }) u
        | _ => u

/-! ### Issue (R305) -/

/-- A promised time: at least 32 CYC from now; the rest is the engine's estimate, a free value. -/
def State.promised (s : State) : Word := s.cycW + 32 + (Config.promiseExtra s.fresh).setWidth 64

/-- The descriptor of an operation. -/
def engHandle (id : Nat) : Desc := { tag := tagEngine, img := BitVec.ofNat 512 id }

/-- The bits of the chunks of a scratch destination cleared, and the operation noted as the latest to cover them (R307, R317). -/
def Sector.claimChunks (x : Sector) (off n id : Nat) : Sector :=
  (List.range n).foldl (fun (x : Sector) k =>
    { x with bitmap := Tab.set false x.bitmap (off / 512 + k) false, chunkOp := Tab.put x.chunkOp (off / 512 + k) id }) x

/-- An operation issued: it is listed, H and sd are written, its chunks' bits are cleared (R305, R307). -/
def State.issueOp (s : State) (h : DReg) (rd : Reg) (v : Word) (o : EngOp) : State :=
  let x := s.sec s.cur
  let id := s.nextId
  let t := s.task? x.task
  let o1 := { o with
    id := id, sid := s.cur, ctx := x.ctx, task := x.task, s4 := x.s4, tidx := (t.map Task.idx).getD 0, parties := (t.map Task.nsect).getD 0, promise := s.promised.toNat, due := s.promised.toNat }
  let s1 := { s with nextId := id + 1, fresh := s.fresh + 1, ops := s.ops ++ [o1] }
  let s2 := match o1.kind, o1.tgt with
    | .scat, _ => s1
    | _, .scratch off => s1.modSec s.cur fun x => x.claimChunks off o1.pieces id
    | _, _ => s1
  ((s2.wrD h (engHandle id)).wrS rd v).advance

/-- The trap HANDLE of a map that an operation does not take. No rule states its TRAPVAL: a free value (log 9). -/
def State.mapTrap {α : Type} (s : State) : Res α := .trap .handle (Config.freeWord s.fresh)

/-- The destination S[sa] of an operation of so many bytes (R306, R307). The check of an entry that is being replaced waits (R364). -/
def State.engDest (s : State) (va : Word) (len : Nat) : Res EngTo :=
  if isS va then
    if va.toNat % 512 ≠ 0 then .trap .misaligned va
    else if 2 ^ 22 < sOff va + (len + 511) / 512 * 512 then .trap .xlateFault 0
    else .ok (.scratch (sOff va))
  else match (if isVirt va then findRt (s.ctx s.ctxId).rt va.toNat else none) with
    | some (i, e) =>
      if s.rtHeld s.ctxId i then .hold
      else if pwValid e.pw e.frame && pwKind e.pw == 1 then .trap .permission va
      else if pwValid e.pw e.frame && pwKind e.pw == 2 && va.toNat % 512 != 0 then .trap .misaligned va
      else .ok (.virt va)
    | none => .ok (.virt va)

/-- The destination in an edge slice, numbered over the dies, so that it stays where it is when the issuer moves (R250): a byte offset that is a multiple of 64 in its data or its program area (R14, R274, R309). -/
def State.edgeDest (s : State) (prog : Bool) (slice : BitVec 7) (v : Word) (len : Nat) : Res EngTo :=
  let size := if prog then 256 else 2 ^ 20
  if v.toNat % 64 ≠ 0 then .trap .misaligned v
  else if size < v.toNat + len then .trap .xlateFault (BitVec.ofNat 64 size)
  else .ok (.edge prog (dieOf s.cur * 128 + slice.toNat) v.toNat)

/-- The index list of a map read from scratch (R310). -/
def State.indexList (s : State) (d : Desc) : List (BitVec 32) :=
  if d.tag == tagTmap && !d.win && d.idx then (List.range (d.cnt 1)).map fun i => BitVec.ofNat 32 (s.indexAt s.cur d i) else []

/-- The first poisoned granule of scratch in which an index list lies (R317, R410). -/
def State.badIndex (s : State) (d : Desc) : Option Nat :=
  if d.tag == tagTmap && !d.win && d.idx then
    ((List.range ((d.idxOff % 64 + 4 * d.cnt 1 + 63) / 64)).map fun i => d.idxOff / 64 + i).find? fun g => s.isPoison (scratchAt s.cur (g * 64))
  else none

/-- An index list that lies in poisoned granules makes its operation fail (R308, R410). -/
def State.indexBad (s : State) (d : Desc) : Bool := (s.badIndex d).isSome

/-- An operation over a map issued once its destination has passed its checks, the sector has room, and the thread's earlier writes are performed (R305, R340). -/
def State.engIssue (s : State) (h : DReg) (rd : Reg) (d : Desc) (base : Word) (len : Nat) (kind : EngKind) (tgt : Res EngTo)
    (f : EngOp → EngOp) : Res State :=
  tgt.bind fun t =>
    if !s.engRoom || !s.writesDone s.cur then .hold
    else
      let o : EngOp := { id := 0, kind := kind, sid := 0, ctx := 0, task := 0, desc := d, base := base, tgt := t, len := len, index := s.indexList d }
      let o1 := f o
      let u := match t with
        | .virt va => s.noteRcAt va
        | _ => s
      .ok (u.issueOp h rd s.promised (match s.badIndex d with
        | some g => { o1 with st := .failed, status := 0x03, failAddr := sAddr (g * 64) }
        | none => o1))

end Sys2Proof.Machine
end

