-- ==== Sys2Proof/Machine/FabricRoute.lean ====
section
/-! DEFINITION. The router control operators of the fabric (R196, R201 to R203), eosq (R210), pass, dly and const (R207 to R209). -/

namespace Sys2Proof.Machine

open Sys2Proof

/-! ### What they share -/

/-- The tag pred (R91). -/
def fmtPred : BitVec 4 := 15

/-- The token taken at a position. -/
def tokAt (l : List (Nat × Token)) (pos : Nat) : Token := ((l.find? fun p => p.1 == pos).map Prod.snd).getD {}

/-- A firing that takes the listed positions and o (R66), once every one of them that is fed holds a token; a poisoned token faults (R410). -/
def State.fireAt (s : State) (f : Fab) (poss : List Nat) (go : List (Nat × Token) → Fire) : Fire :=
  match s.heads f (poss ++ [3]) with
  | none => .wait
  | some l =>
    if l.isEmpty then .wait
    else if l.any fun p => p.2.poison then .fault .poison (waveOf l) 0
    else go l

/-- The tokens taken are consumed, the listed ones sent, and the operator state replaced; without room nothing happens (R199). -/
def State.pass (s : State) (f : Fab) (l : List (Nat × Token)) (out : List (BitVec 10 × Token)) (o : OpSt) : Fire :=
  Fire.sent (s.sendAll f out) fun t => (t.takeAll f l).setOpSt f (f.noteEos o l)

/-- A token of a firing's wave. -/
def Token.at (t : Token) (wave : Nat) : Token := { t with wave := wave }

/-- The predicate of a router operator: bit 0 of lane 0 (R196). -/
def Token.predBit (t : Token) : Bool := bitAt t.pay.toNat 0

/-- A token at p that is no predicate (R196, R202). -/
def Token.badPred (t : Token) : Bool := t.kind == .eos || t.fmt != fmtPred

/-- A pred token of one value (R203, R210). -/
def predToken (b : Bool) (wave : Nat) : Token := dataToken fmtPred (predAll b) wave

/-- A target of the acting slot, or neither. -/
def Fab.t0 (f : Fab) : BitVec 10 := f.w.t0
/-- The second target of the acting slot. -/
def Fab.t1 (f : Fab) : BitVec 10 := f.w.t1

/-! ### carry and inv (R202) -/

/-- The states INIT, LOOP and WAITB. -/
def stInit : Nat := 0
/-- LOOP. -/
def stLoop : Nat := 1
/-- WAITB. -/
def stWaitB : Nat := 2

/-- The firing of a carry (isCarry) or an inv in its state (R202). Its tokens belong to the wave that started the loop (R197). -/
def State.loopOp (s : State) (f : Fab) (isCarry : Bool) : Fire :=
  let o := s.opSt f
  let h := o.hold.getD {}
  if o.st = stInit then
    s.fireAt f [0] fun l =>
      let a := (tokAt l 0).at (waveOf l)
      if a.kind = .eos then s.pass f l [(f.t0, a), (f.t1, a)] o
      else s.pass f l [] { o with st := stLoop, hold := some a }
  else if o.st = stLoop then
    s.fireAt f [2] fun l =>
      let p := tokAt l 2
      if p.badPred then .fault .format h.wave 0
      else if p.predBit then s.pass f l [(f.t0, h)] { o with st := if isCarry then stWaitB else stLoop }
      else s.pass f l [(f.t1, h)] { o with st := stInit, hold := none }
  else
    s.fireAt f [1] fun l =>
      let b := tokAt l 1
      if b.kind = .eos then .fault .format h.wave 0
      else s.pass f l [] { o with st := stLoop, hold := some (b.at h.wave) }

/-! ### iter (R203) -/

/-- Value token k of an iter from its start token (R203). -/
def iterValue (w : FabW) (a : Pay) (k : Nat) : Pay :=
  let s := bitsAt a.toNat 0 32
  let d := bitsAt a.toNat 64 32
  payOf 32 ((List.range 16).map fun i => if w.x.getLsbD 0 then s + (16 * k + i) * d else s + k * d)

/-- The firings of an iter (R203): it takes its start token, then sends c values and c + 1 predicates. A fed o gives one token with the start token, not one for each firing (R66). DESIGN CHOICE (log 131). -/
def State.iterOp (s : State) (f : Fab) : Fire :=
  let o := s.opSt f
  match o.hold with
  | none =>
    s.fireAt f [0] fun l =>
      let a := (tokAt l 0).at (waveOf l)
      if a.kind = .eos then s.pass f l [(f.t0, a), (f.t1, a)] o
      else if a.fmt ≠ 5 then .fault .format (waveOf l) 0
      else s.pass f l [] { o with hold := some a, k := 0 }
  | some a =>
    if o.k < bitsAt a.pay.toNat 32 32 then
      s.pass f [] [(f.t0, dataToken 5 (iterValue f.w a.pay o.k) a.wave), (f.t1, predToken true a.wave)] { o with k := o.k + 1 }
    else s.pass f [] [(f.t1, predToken false a.wave)] { o with hold := none, k := 0 }

/-! ### const (R209) -/

/-- The payload of a const (R209). -/
def constPay (w : FabW) : Pay :=
  let p := immPay w.fmt w.imm
  if w.x.getLsbD 4 then
    payOf 32 ((List.range 16).map fun i => if i = w.x.toNat % 16 then bitsAt p.toNat 0 32 else 0)
  else p

/-! ### Meanings -/

/-- R201 steer. -/
def execSteer (w : FabW) (s : State) : Host.Outcome State Fault Refusal :=
  s.fabric w fun f => s.fireAt f [0, 2] fun l =>
    let p := tokAt l 2
    if p.badPred then .fault .format (waveOf l) 0
    else s.pass f l [(if p.predBit != w.x.getLsbD 0 then f.t0 else f.t1, (tokAt l 0).at (waveOf l))] (s.opSt f)
/-- R201 merge: p is taken with the token it chooses. -/
def execMerge (w : FabW) (s : State) : Host.Outcome State Fault Refusal :=
  s.fabric w fun f =>
    match s.head f 2 with
    | none => .wait
    | some p =>
      if p.poison then .fault .poison p.wave 0
      else if p.badPred then .fault .format p.wave 0
      else
        let pos := if p.predBit then 0 else 1
        s.fireAt f [2, pos] fun l => s.pass f l (f.both ((tokAt l pos).at (waveOf l))) (s.opSt f)
/-- R202 carry. -/
def execCarry (w : FabW) (s : State) : Host.Outcome State Fault Refusal := s.fabric w fun f => s.loopOp f true
/-- R202 inv. -/
def execInv (w : FabW) (s : State) : Host.Outcome State Fault Refusal := s.fabric w fun f => s.loopOp f false
/-- R201 join. -/
def execJoin (w : FabW) (s : State) : Host.Outcome State Fault Refusal :=
  s.fabric w fun f => s.fireAt f [0, 1] fun l => s.pass f l (f.both ((tokAt l 0).at (waveOf l))) (s.opSt f)
/-- R201 fan. -/
def execFan (w : FabW) (s : State) : Host.Outcome State Fault Refusal :=
  s.fabric w fun f => s.fireAt f [0] fun l => s.pass f l (f.both ((tokAt l 0).at (waveOf l))) (s.opSt f)
/-- R201 sink. -/
def execSink (w : FabW) (s : State) : Host.Outcome State Fault Refusal :=
  s.fabric w fun f => s.fireAt f [0] fun l => s.pass f l [] (s.opSt f)
/-- R203 iter. -/
def execIter (w : FabW) (s : State) : Host.Outcome State Fault Refusal := s.fabric w fun f => s.iterOp f
/-- R207 pass: a boundary that moves the tokens it holds on in order; its eight places stand in its channel's capacity. -/
def execPass (w : FabW) (s : State) : Host.Outcome State Fault Refusal :=
  s.fabric w fun f => s.fireAt f [0] fun l => s.pass f l (f.both ((tokAt l 0).at (waveOf l))) (s.opSt f)
/-- R208 dly. -/
def execDly (w : FabW) (s : State) : Host.Outcome State Fault Refusal :=
  s.fabric w fun f => s.fireAt f [0] fun l => s.pass f l (f.both ((tokAt l 0).at (waveOf l))) (s.opSt f)
/-- R209 const: once per token at o when o is fed, else once for each wave, whose trigger stands at position 4 (R197). -/
def execConst (w : FabW) (s : State) : Host.Outcome State Fault Refusal :=
  s.fabric w fun f =>
    let pos := if f.fed 3 then 3 else 4
    match s.head f pos with
    | none => .wait
    | some t =>
      if t.poison then .fault .poison t.wave 0
      else s.pass f [(pos, t)] (f.both (dataToken w.fmt (constPay w) t.wave)) (s.opSt f)
/-- R210 eosq: t0 takes the token and t1 the predicate; an EOS goes on with the key keep alone. -/
def execEosq (w : FabW) (s : State) : Host.Outcome State Fault Refusal :=
  s.fabric w fun f => s.fireAt f [0] fun l =>
    let a := (tokAt l 0).at (waveOf l)
    if a.kind = .eos then
      s.pass f l ((if w.x.getLsbD 0 then [(f.t0, a)] else []) ++ [(f.t1, predToken false a.wave)]) (s.opSt f)
    else s.pass f l [(f.t0, a), (f.t1, predToken true a.wave)] (s.opSt f)

end Sys2Proof.Machine
end

