-- ==== Sys2Proof/Machine/Accum.lean ====
section
/-! DEFINITION. The accumulator store of compute cells: rows, special elements, addends, renormalisation (R141, R142, R146 to R149), and the operations on whole tiles (R143, R152, R153). -/

namespace Sys2Proof.Machine

open Sys2Proof

/-! ### Elements and rows (R141) -/

/-- An element of a row: a mantissa, or a special element of float mode. -/
inductive El where
  | nan
  | inf (neg : Bool)
  | num (a : Int)
deriving DecidableEq, Repr

/-- A mantissa code read in float or integer mode (R141, R149). -/
def elOf (int : Bool) (m : BitVec 48) : El :=
  if int then .num m.toInt
  else if m = 0x800000000000 then .nan
  else if m = 0x7FFFFFFFFFFF then .inf false
  else if m = 0x800000000001 then .inf true
  else .num m.toInt

/-- The code of an element. -/
def El.code : El → BitVec 48
  | .nan => 0x800000000000
  | .inf false => 0x7FFFFFFFFFFF
  | .inf true => 0x800000000001
  | .num a => BitVec.ofInt 48 a

/-- A row of one cell: its elements, exponent and headroom counter. -/
structure Row where
  a : List El
  e : Int
  h : Nat
deriving DecidableEq, Repr

/-- The headroom code of a cleared row. -/
def hCleared : BitVec 6 := 63

/-- A row of a cell's store. -/
def CellSt.row (c : CellSt) (int : Bool) (r : Nat) : Row :=
  { a := (List.range 16).map fun k => elOf int (Tab.get 0 c.mant (r * 16 + k))
    e := (Tab.get 0 c.exp r).toInt, h := (Tab.get hCleared c.head r).toNat }

/-- A row of a cell's store replaced. -/
def CellSt.setRow (c : CellSt) (r : Nat) (x : Row) : CellSt :=
  { c with
    mant := x.a.zipIdx.foldl (fun m p => Tab.set 0 m (r * 16 + p.2) p.1.code) c.mant
    exp := Tab.set 0 c.exp r (BitVec.ofInt 10 x.e)
    head := Tab.set hCleared c.head r (BitVec.ofNat 6 x.h) }

/-- Lead: floor of log2 of a magnitude, −1 for zero. -/
def lead (n : Nat) : Int := if n = 0 then -1 else lg n

/-- The largest Lead over the finite elements of a row. -/
def maxLead (l : List El) : Int := l.foldl (fun m x => match x with
  | .num a => max m (lead a.natAbs)
  | _ => m) (-1)

/-- Quotient by a power of two rounded to nearest, a tie to even (R148, R153). -/
def rhe (a : Int) (k : Nat) : Int :=
  let d : Nat := 2 ^ k
  let n := a.natAbs / d
  let r := a.natAbs % d
  let m := if 2 * r > d ∨ (2 * r = d ∧ n % 2 = 1) then n + 1 else n
  if a < 0 then -(m : Int) else m

/-! ### Group sums (R146, R147) -/

/-- A group sum with the mark of an invalid operation. -/
abbrev Group := Val × Bool

/-- The exact product of two elements and two scales (R146, R147). -/
def prodOf (f : BitVec 4) (x y sa sb : Nat) : Group :=
  let p := (decodeVal f x).mul (decodeVal f y)
  let q := (p.1.mul (decodeVal 14 sa)).1.mul (decodeVal 14 sb)
  (q.1, p.2 || isSnan f x || isSnan f y)

/-- The exact sum of a group's products (R147). -/
def groupSum (l : List Group) : Group :=
  let bad := l.any fun p => p.2
  let pos := l.any fun p => p.1 == .inf false
  let neg := l.any fun p => p.1 == .inf true
  if pos && neg then (.nan, true)
  else if l.any fun p => p.1 == .nan then (.nan, bad)
  else if pos then (.inf false, bad)
  else if neg then (.inf true, bad)
  else (l.foldl (fun v p => (v.add false p.1).1) (.fin false 0 0), bad)

/-! ### Adding an addend (R147 to R149) -/

/-- A special group sum, or a special element, decides its element (R147). -/
def applySpecial (x : El) (g : Val) : El × Bool :=
  match x, g with
  | .nan, _ => (.nan, false)
  | _, .nan => (.nan, false)
  | .inf a, .inf b => if a = b then (.inf a, false) else (.nan, true)
  | .inf a, _ => (.inf a, false)
  | .num _, .inf b => (.inf b, false)
  | .num a, _ => (.num a, false)

/-- The floor of log2 of a finite group sum's magnitude; none for zero. -/
def Val.leadOf : Val → Option Int
  | .fin _ m e => if m = 0 then none else some (e + lg m)
  | _ => none

/-- A finite group sum times 2^k truncated toward zero. -/
def Val.truncShift (v : Val) (k : Int) : Int :=
  match v with
  | .fin n m e =>
    let a : Int := if 0 ≤ e + k then (m * pw2 (e + k) : Nat) else (m / pw2 (-(e + k)) : Nat)
    if n then -a else a
  | _ => 0

/-- The effects of an addend on its row and tile. -/
structure Added where
  row : Row
  rc : Nat := 0
  nvt : Bool := false
  oft : Bool := false
  aov : Bool := false
deriving DecidableEq, Repr

/-- A row whose exponent would pass 511; no finite element is left that is not zero, so the headroom counter reads 47 (R141, R148; DEDUCED, log 108). -/
def rowOverflow (r : Row) : Row :=
  { r with h := 47, a := r.a.map fun x => match x with
    | .num a => if a = 0 then x else .inf (decide (a < 0))
    | _ => x }

/-- Every mantissa of a row divided by 256, exponent up by 8 (R148). -/
def renorm (r : Row) : Row :=
  { r with e := r.e + 8, a := r.a.map fun x => match x with
    | .num a => .num (rhe a 8)
    | _ => x }

/-- The loop of R148, in at most so many rounds. -/
def alignLoop : Nat → Row → List Val → Nat → Added
  | 0, r, _, n => { row := r, rc := n }
  | k + 1, r, g, n =>
    let ag := g.map fun v => v.truncShift (40 - r.e)
    let fin := (r.a.zip ag).map fun p => match p.1 with
      | .num _ => El.num p.2
      | x => x
    if maxLead r.a < 44 ∧ maxLead fin < 44 then
      let a := (r.a.zip ag).map fun p => match p.1 with
        | .num x => El.num (x + p.2)
        | x => x
      { row := { r with a := a, h := (46 - maxLead a).toNat }, rc := n }
    else if 511 < r.e + 8 then { row := rowOverflow r, rc := n, oft := true }
    else alignLoop k (renorm r) g (n + 1)

/-- A float-mode addend (R148). -/
def addFloat (r : Row) (g : List Val) : Added :=
  let sp := (r.a.zip g).map fun p => applySpecial p.1 p.2
  let nvt := sp.any fun p => p.2
  let r1 := { r with a := sp.map fun p => p.1 }
  let leads : List Int := (r1.a.zip g).filterMap fun p => match p.1 with
    | .num _ => p.2.leadOf
    | _ => none
  if r.h == 63 && leads.isEmpty then { row := r1, nvt := nvt }
  else
    let r2 := if r.h = 63 then { r1 with e := max (-512) (min 511 (leads.foldl max (leads.headD 0) + 2)) } else r1
    { alignLoop 130 r2 g 0 with nvt := nvt }

/-- The limit of an integer-mode mantissa. -/
def intLim : Int := 2 ^ 47 - 1

/-- An integer-mode addend (R149); a cleared row stays cleared until an addend with a non-zero element comes (R141; DEDUCED, log 108). -/
def addInt (r : Row) (g : List Val) : Added :=
  if r.h == 63 && g.all (fun v => v.truncShift 0 == 0) then { row := r }
  else
    let a := (r.a.zip g).map fun p => match p.1 with
      | .num x => x + p.2.truncShift 0
      | _ => 0
    let c := a.map fun x => El.num (max (-intLim) (min intLim x))
    { row := { a := c, e := 40, h := (46 - maxLead c).toNat }, aov := a.any fun x => decide (intLim < x ∨ x < -intLim) }

/-! ### Tile control words (R142) -/

/-- The states of a tile. -/
inductive TileSt where
  | empty | acc | full
deriving DecidableEq, Repr

/-- STATE of a control word. -/
def tcwState (w : BitVec 16) : TileSt :=
  match w.toNat / 2 ^ 14 with
  | 0 => .empty
  | 1 => .acc
  | _ => .full

/-- A control word with a STATE. -/
def tcwSet (w : BitVec 16) (t : TileSt) : BitVec 16 :=
  BitVec.ofNat 16 ((match t with
    | .empty => 0
    | .acc => 1
    | .full => 2) * 2 ^ 14 + w.toNat % 2 ^ 14)

/-- DONE of a control word. -/
def tcwDone (w : BitVec 16) : Nat := w.toNat / 2 ^ 8 % 64

/-- A flag of a control word set under a condition. -/
def tcwOr (w : BitVec 16) (b : Bool) (v : BitVec 16) : BitVec 16 := if b then w ||| v else w

/-! ### Tiles of the acting slot -/

/-- A tile as a slot names it: the sector, the first cell, the cells, M and the index. -/
structure TileRef where
  sid : Nat
  c0 : Nat
  n : Nat
  m : Nat
  i : Nat
deriving DecidableEq, Repr

/-- The tile of an mma word (R144). -/
def Fab.mmaTile (f : Fab) : TileRef := ⟨f.sid, f.cell, f.w.x.toNat % 64 + 1, mRows (f.w.x.toNat / 64 % 4), f.w.imm.toNat % 4⟩

/-- The tile of an mclr, mnrm, mrd or mdrn word (R151). -/
def Fab.tile (f : Fab) : TileRef := ⟨f.sid, f.cell, f.w.imm.toNat % 64 + 1, mRows (f.w.x.toNat / 4 % 4), f.w.x.toNat % 4⟩

/-- The place of a tile's control word and count among the four of a cell: that of the tile's first 16 rows, for tiles of different M share a cell (R12, R142). -/
def TileRef.key (t : TileRef) : Nat := t.i * t.m / 16

/-- The control word of a tile, held in the footprint's first cell. -/
def State.tcw (s : State) (t : TileRef) : BitVec 16 := Tab.get 0 ((s.sec t.sid).cell t.c0).tcw t.key

/-- A cell of a sector changed. -/
def State.modCell (s : State) (sid c : Nat) (g : CellSt → CellSt) : State := s.modSec sid fun x => x.setCell c (g (x.cell c))

/-- The control word of a tile set. -/
def State.setTcw (s : State) (t : TileRef) (w : BitVec 16) : State :=
  s.modCell t.sid t.c0 fun c => { c with tcw := Tab.set 0 c.tcw t.key w }

/-- The renormalisation count of a tile. -/
def State.rcOf (s : State) (t : TileRef) : Nat := (Tab.get 0 ((s.sec t.sid).cell t.c0).rc t.key).toNat

/-- The renormalisation count of a tile set. -/
def State.setRc (s : State) (t : TileRef) (n : Nat) : State :=
  s.modCell t.sid t.c0 fun c => { c with rc := Tab.set 0 c.rc t.key (BitVec.ofNat 16 (min n 65535)) }

/-- The rows of a tile in every cell. -/
def TileRef.rows (t : TileRef) : List Nat := (List.range t.m).map fun k => t.i * t.m + k

/-- A row cleared: mantissas 0, exponent 0, the cleared mark (R143). -/
def clearRow : Row := { a := List.replicate 16 (.num 0), e := 0, h := 63 }

/-- A tile returned to its reset state in every cell (R143, R152). After a drain R155 names the state, the rows, the exponents, the mantissas and the count; the model clears NVT, OFT and AOV with them, as mclr does. DEDUCED (log 123). -/
def State.clearTile (s : State) (t : TileRef) : State :=
  let s1 := (List.range t.n).foldl (fun (s : State) k =>
    s.modCell t.sid (t.c0 + k) fun c => t.rows.foldl (fun c r => c.setRow r clearRow) c) s
  (s1.setRc t 0).setTcw t 0

/-- One addend of one cell (R148 to R150). -/
def State.addRow (s : State) (t : TileRef) (k m : Nat) (int : Bool) (g : List Group) : State :=
  let r := t.i * t.m + m
  let c := (s.sec t.sid).cell (t.c0 + k)
  let vs := g.map fun p => p.1
  let ad := if int then addInt (c.row true r) vs else addFloat (c.row false r) vs
  let s1 := s.modCell t.sid (t.c0 + k) fun c => c.setRow r ad.row
  let s2 := if ad.rc = 0 then s1 else s1.setRc t (s1.rcOf t + ad.rc)
  let w := s2.tcw t
  s2.setTcw t (tcwOr (tcwOr (tcwOr w (!int && (ad.nvt || g.any fun p => p.2)) 1) ad.aov 2) ad.oft 4)

/-! ### mnrm (R153) -/

/-- A row normalised to Lead 38. -/
def normRow (r : Row) : Row :=
  let l := maxLead r.a
  let sh := 38 - l
  if r.h = 63 ∨ l = -1 ∨ r.e - sh < -512 ∨ 511 < r.e - sh then r
  else
    let a := r.a.map fun x => match x with
      | .num v => El.num (if 0 ≤ sh then v * (pw2 sh : Nat) else rhe v (-sh).toNat)
      | x => x
    { a := a, e := r.e - sh, h := (46 - maxLead a).toNat }

/-- The status token of mnrm (R153). -/
def State.mnrmStatus (s : State) (t : TileRef) : Pay :=
  let hs := (List.range t.n).flatMap fun k => t.rows.map fun r => (Tab.get hCleared ((s.sec t.sid).cell (t.c0 + k)).head r).toNat
  payOf 32 [s.rcOf t, hs.foldl min 63, (s.tcw t).toNat]

/-- Row m of a tile normalised in every cell of its footprint. -/
def State.normRowOf (s : State) (t : TileRef) (m : Nat) : State :=
  let r := t.i * t.m + m
  (List.range t.n).foldl (fun (s : State) k => s.modCell t.sid (t.c0 + k) fun c => c.setRow r (normRow (c.row false r))) s

/-! ### Reading a tile (R154, R155) -/

/-- The exact value of an element (R141, R154). -/
def El.val (e : Int) : El → Val
  | .nan => .nan
  | .inf n => .inf n
  | .num a => .fin (decide (a < 0)) a.natAbs (e - 40)

/-- The value of column n of row m of a tile. -/
def State.tileVal (s : State) (t : TileRef) (int : Bool) (m n : Nat) : Val :=
  let c := (s.sec t.sid).cell (t.c0 + n / 16)
  let r := t.i * t.m + m
  (elOf int (Tab.get 0 c.mant (r * 16 + n % 16))).val (if int then 40 else (Tab.get 0 c.exp r).toInt)

/-- The flags that a tile's control word adds (R154, R155). -/
def tileFlags (w : BitVec 16) : FlagSet :=
  fIf (w.getLsbD 0) fNV ||| fIf (w.getLsbD 2) fOF ||| fIf (w.getLsbD 1) fAOV

end Sys2Proof.Machine
end

