-- ==== Sys2Proof/Machine/ImageCheck.lean ====
section
/-! DEFINITION. The checks that Celadon makes of an image against one schedule section (R82 step 3): the rules on tiles and owners (R157, R327), placement and routes (R73, R78, R168, R197), depth balance (R200, R359), timing (R161 to R167), and deterministic retiming (R87, R174, R175). -/

namespace Sys2Proof.Machine

open Sys2Proof

/-! ### The net of an image -/

/-- A slot of an image by its block and number. -/
abbrev Node := Nat × Nat

/-- An edge of an image's net: producer, consumer, operand position, capacity (R198, R200), in-region (R34). -/
structure NEdge where
  src : Node
  dst : Node
  pos : Nat
  cap : Nat
  inr : Bool
deriving DecidableEq, Repr

/-- An image under one schedule. -/
structure Net where
  m : Image
  sched : List (List SchedE)
  op : Nat
  slots : List Node
  edges : List NEdge
deriving DecidableEq, Repr

/-- The slot word of a node. -/
def Image.opAt (m : Image) (n : Node) : FabOp := (m.blks.getD n.1 {}).op n.2

/-- The opcode of a node. -/
def Image.codeAt (m : Image) (n : Node) : Nat := (m.opAt n).op.toNat

/-- Every slot of an image, in block and slot order. -/
def Image.nodes (m : Image) : List Node :=
  (List.range m.blks.length).flatMap fun b => (List.range (m.blks.getD b {}).n).map fun k => (b, k)

/-- The edges of an image placed at a sector of its die: targets within blocks, and routes to entries (R66, R78, R198). -/
def Image.edges (m : Image) (sched : List (List SchedE)) (ox oy : Nat) : List NEdge :=
  let site := fun (n : Node) => siteOf sched n.1 n.2
  let room := fun (n : Node) => passRoom (m.codeAt n)
  ((m.nodes.flatMap fun p =>
    ((m.opAt p).w.targets.filter tgtIsSlot).map fun t =>
      let q : Node := (p.1, tgtSlot t)
      let inr := (m.blks.getD p.1 {}).inRegion sched p.1 p.2 (tgtSlot t) (tgtPos t)
      { src := p, dst := q, pos := tgtPos t, cap := (if inr then 0 else chanCap ox oy (site p) (site q)) + room q, inr := inr }) ++
   (m.routes.filterMap fun r =>
    if r.kind ≠ 0 then none
    else match (m.blks.getD r.src {}).exitFeeder r.exit with
      | none => none
      | some k =>
        let p : Node := (r.src, k)
        let q : Node := (r.dst, (m.blks.getD r.dst {}).entrySlot r.ent)
        some { src := p, dst := q, pos := 0, cap := chanCap ox oy (site p) (site q) + 8 * r.ext + room q, inr := false }))

/-- The net of an image under a schedule, placed at a sector of its die. -/
def Image.net (m : Image) (sched : List (List SchedE)) (op ox oy : Nat) : Net :=
  { m := m, sched := sched, op := op, slots := m.nodes, edges := m.edges sched ox oy }

/-- The place of a node. -/
def Net.site (g : Net) (n : Node) : SchedE := siteOf g.sched n.1 n.2

/-- The region label of a node within its block (R34). -/
def Net.labels (g : Net) : List (List Nat) := (List.range g.m.blks.length).map fun b => (g.m.blks.getD b {}).labels g.sched b

/-- The lockstep regions of the net: each the nodes of one maximal set; a channel boundary belongs to none (R34). -/
def Net.regions (g : Net) : List (List Node) :=
  (List.range g.m.blks.length).flatMap fun b =>
    let blk := g.m.blks.getD b {}
    let l := blk.labels g.sched b
    ((List.range blk.n).filter fun k => l.getD k k == k && blk.inARegion g.sched b k).map fun k =>
      ((List.range blk.n).filter fun j => l.getD j j == k).map fun j => (b, j)

/-! ### Load reports (R83, R84) -/

/-- What a check finds: nothing, a block, or a slot of a block. -/
inductive Bad where
  | none
  | blk (b : Nat)
  | slot (n : Node)
deriving DecidableEq, Repr

/-- The first failure among some: the first block, and there a failure of the block before its lowest slot (R82). -/
def Bad.min (a b : Bad) : Bad :=
  let key := fun (x : Bad) => match x with
    | .none => 2 ^ 20
    | .blk b => b * 256
    | .slot n => n.1 * 256 + 1 + n.2
  if key b < key a then b else a

/-- The first of some failing slots. -/
def firstSlot (l : List Node) : Bad := l.foldl (fun m n => m.min (.slot n)) .none

/-- A load report (R83). -/
def loadReport (status : Nat) (id : Option (BitVec 32)) (slot : Option Nat) : Word :=
  let s := match slot with
    | some k => 2 ^ 15 + k * 2 ^ 8
    | none => 0
  BitVec.ofNat 64 ((id.map BitVec.toNat).getD (2 ^ 32 - 1) * 2 ^ 16 + s + status)

/-- The report of a failure. -/
def Image.report (m : Image) (status : Nat) : Bad → Word
  | .none => loadReport status none none
  | .blk b => loadReport status (some (m.blks.getD b {}).id) none
  | .slot n => loadReport status (some (m.blks.getD n.1 {}).id) (some n.2)

/-! ### Tiles and owners (R157, R327) -/

/-- An accumulator slot. -/
def isAccOp (o : Nat) : Bool := decide (0x40 ≤ o ∧ o ≤ 0x44)

/-- What an accumulator slot names: sector, first cell, N, M, tile (R140, R144, R151). -/
structure AccRef where
  sec : Nat
  cell : Nat
  n : Nat
  m : Nat
  i : Nat
deriving DecidableEq, Repr

/-- The sector of a site within the rectangle, in row-major order. -/
def Net.sector (g : Net) (n : Node) : Nat := (g.site n).dy / 16 * g.m.w + (g.site n).dx / 16

/-- What an accumulator slot of the net names. -/
def Net.accRef (g : Net) (n : Node) : AccRef :=
  let w := (g.m.opAt n).w
  let e := g.site n
  if g.m.codeAt n = 0x40 then ⟨g.sector n, e.cell, 16 * (w.x.toNat % 64 + 1), mRows (w.x.toNat / 64 % 4), w.imm.toNat % 4⟩
  else ⟨g.sector n, e.cell, 16 * (w.imm.toNat % 64 + 1), mRows (w.x.toNat / 4 % 4), w.x.toNat % 4⟩

/-- Two accumulator slots share a cell. -/
def AccRef.shares (a b : AccRef) : Bool :=
  a.sec == b.sec && decide (a.cell < b.cell + b.n / 16) && decide (b.cell < a.cell + a.n / 16)

/-- The store rows of two tiles overlap. -/
def AccRef.rowsMeet (a b : AccRef) : Bool := decide (a.i * a.m < b.i * b.m + b.m) && decide (b.i * b.m < a.i * a.m + a.m)

/-- Two slots name one tile: the same rows under one M in a shared cell. -/
def AccRef.sameTile (a b : AccRef) : Bool := a.shares b && a.m == b.m && a.i == b.i

/-- Slots that break the rules of R157 on tiles that span blocks. -/
def Net.badTiles (g : Net) : List Node :=
  let acc := g.slots.filter fun n => isAccOp (g.m.codeAt n)
  let mmas := acc.filter fun n => g.m.codeAt n == 0x40
  let join := fun (n : Node) => (g.m.opAt n).w.imm.getLsbD 14
  acc.filter fun p =>
    let a := g.accRef p
    (acc.any fun q => p != q && a.shares (g.accRef q) && a.m != (g.accRef q).m && a.rowsMeet (g.accRef q)) ||
    (if g.m.codeAt p = 0x40 then
      let same := mmas.filter fun q => q != p && a.sameTile (g.accRef q)
      (same.isEmpty && join p) ||
        (same.any fun q => !join p || !join q || (g.m.opAt p).w.fmt != (g.m.opAt q).w.fmt || a != g.accRef q)
    else !(mmas.any fun q => g.accRef q == a))

/-- Slots that claim the ownership of one cell of a sector twice (R327). -/
def Net.badOwners (g : Net) : List Node :=
  let own := g.slots.filter fun n => g.m.codeAt n == 0x61 && (g.m.opAt n).w.x.getLsbD 1
  let key := fun (n : Node) => (g.sector n, (g.m.opAt n).w.x.toNat / 4 % 128)
  own.filter fun p => own.any fun q => p != q && key p == key q

/-! ### Placement and routes (R73, R78, R157, R168, R197) -/

/-- An opcode may stand at a stage of a kind of site (R73). -/
def stageOk (o stage : Nat) (compute : Bool) : Bool :=
  if o < 0x40 then compute && decide (stage < 6)
  else if o = 0x40 then compute && stage == 2
  else if o ≤ 0x44 then compute && stage == 5
  else if decide (0x60 ≤ o ∧ o ≤ 0x65) || o == 0x70 || o == 0x71 then !compute && stage == 6
  else stage == 6

/-- A slot's placement obeys R73, and an accumulator's footprint stays in its sector (R157). -/
def Net.placed (g : Net) (n : Node) : Bool :=
  let e := g.site n
  let o := g.m.codeAt n
  decide (e.dx < 16 * g.m.w) && decide (e.dy < 16 * g.m.h) && stageOk o e.stage e.compute &&
    (!isAccOp o || decide ((g.accRef n).cell + (g.accRef n).n / 16 ≤ 128))

/-- Slots whose stage, or router layer, another region has claimed before: of two regions the one whose lowest slot is higher claims second, in object order of their blocks. DESIGN CHOICE (log 137). -/
def Net.badClaims (g : Net) : List Node :=
  let rs := g.regions
  let place := fun (n : Node) => ((g.site n).dx, (g.site n).dy, (g.site n).stage)
  (rs.zipIdx.flatMap fun p => p.1.map fun n => (n, p.2)).filterMap fun x =>
    if rs.zipIdx.any fun q => decide (q.2 < x.2) && q.1.any fun n => place n == place x.1 then some x.1 else none

/-- Blocks without a source (R197), and blocks with a route to an image that the gang does not hold or that has no entry queue (R30, R78). -/
def Net.badBlocks (g : Net) (queues : List Nat) : List Nat :=
  (List.range g.m.blks.length).filter fun b =>
    ((g.m.srcEntries b).isEmpty && (g.m.blks.getD b {}).pins.isEmpty) ||
      g.m.routes.any fun r => r.src == b && r.kind == 2 && !queues.contains r.dst

/-- The first failure of placement and routes. -/
def Net.routeBad (g : Net) (queues : List Nat) : Bad :=
  ((g.badBlocks queues).foldl (fun (m : Bad) b => m.min (.blk b)) Bad.none).min
    (firstSlot ((g.slots.filter fun n => !g.placed n) ++ g.badClaims))

/-! ### Depth balance (R200, R359) -/

/-- An edge into a loop input is cut (R200, R433). -/
def Net.isCut (g : Net) (e : NEdge) : Bool :=
  let o := g.m.codeAt e.dst
  (o == 0x52 && e.pos == 1) || (e.src.1 == e.dst.1 && (g.m.blks.getD e.dst.1 {}).loopInput e.dst.2 e.pos)

/-- Lead(J, x, y) (R200). -/
def leadOf (f : FabOp) (x y : Nat) : Nat :=
  let n := 16 * (f.w.x.toNat % 64 + 1)
  let m := mRows (f.w.x.toNat / 64 % 4)
  let sc := f.w.x.getLsbD 9
  let more := decide (0 < f.w.imm.toNat / 4 % 4096)
  if f.op = 0x40 then
    if x = 1 ∧ y = 0 then n
    else if sc ∧ ((x = 1 ∧ y = 2) ∨ (x = 2 ∧ y = 0)) then n
    else if x = 0 ∧ y = 1 ∧ more then m
    else if x = 2 ∧ y = 1 ∧ sc ∧ more then n + m
    else 1
  else if f.op = 0x43 ∧ x = 1 ∧ y = 2 ∧ f.w.x.getLsbD 4 ∧ f.w.x.getLsbD 5 then mRows (f.w.x.toNat / 4 % 4) / 16
  else 1

/-- The paths from a node to an input of another, as lists of edges, last edge first. The cut edges leave no cycle (R66). -/
def pathsTo (edges : List NEdge) (src : Node) : Nat → Node → Nat → List (List NEdge)
  | 0, _, _ => []
  | fuel + 1, dst, pos =>
    (edges.filter fun e => e.dst == dst && e.pos == pos).flatMap fun e =>
      (if e.src = src then [[e]] else []) ++
        ((List.range 4).flatMap fun k => (pathsTo edges src fuel e.src k).map fun p => e :: p)

/-- The capacity of a path. -/
def pathCap (p : List NEdge) : Nat := p.foldl (fun n e => n + e.cap) 0

/-- The least capacity of a path between two inputs, by rounds over the edges: what is known at each consumer's input. -/
def relaxN (edges : List NEdge) : Nat → List (Node × Nat) → List (Node × Nat)
  | 0, d => d
  | fuel + 1, d =>
    let step := fun (d : List (Node × Nat)) (e : NEdge) =>
      match d.find? fun x => x.1 == e.src with
      | none => d
      | some s =>
        let c := s.2 + e.cap
        match d.find? fun x => x.1 == e.dst with
        | none => d ++ [(e.dst, c)]
        | some t => if c < t.2 then d.map fun x => if x.1 = e.dst then (e.dst, c) else x else d
    let d' := edges.foldl step d
    if d' = d then d else relaxN edges fuel d'

/-- The least capacity of a path from a node into an input. -/
def leastInto (edges : List NEdge) (d : List (Node × Nat)) (dst : Node) (pos : Nat) : Option Nat :=
  edges.foldl (fun m e =>
    if e.dst = dst ∧ e.pos = pos then
      match d.find? fun x => x.1 == e.src with
      | none => m
      | some s => match m with
        | none => some (s.2 + e.cap)
        | some c => some (min c (s.2 + e.cap))
    else m) none

/-- A node reaches an input by a path with a channel on it. -/
def chanInto (edges : List NEdge) (d : List (Node × Nat)) (dst : Node) (pos : Nat) : Bool :=
  let from_ := fun (n : Node) => d.any fun x => x.1 == n
  let onChan := (edges.filter fun e => !e.inr && from_ e.src).map NEdge.dst
  let reach := relaxN edges edges.length (onChan.map fun n => (n, 0))
  edges.any fun e => e.dst == dst && e.pos == pos && ((!e.inr && from_ e.src) || reach.any fun x => x.1 == e.src)

/-- The depth check of the paths that leave one producer for an input x and another for an input y, the two mostly being one (R200 item 2): the slots that fail. Paths of in-region edges alone are not checked. -/
def Net.depthBad (g : Net) (edges : List NEdge) (f1 f2 : Node) : List Node :=
  let d1 := relaxN edges g.slots.length [(f1, 0)]
  let d2 := relaxN edges g.slots.length [(f2, 0)]
  g.slots.filter fun j => (List.range 4).any fun x => (List.range 4).any fun y =>
    x != y && match leastInto edges d1 j x, leastInto edges d2 j y with
      | some _, some c => decide (c < leadOf (g.m.opAt j) x y) && (f1 != f2 || decide (0 < c) || chanInto edges d1 j x)
      | _, _ => false

/-- The slots that can change the number of tokens that pass (R200 item 1). -/
def changesRate (o : Nat) : Bool := [0x50, 0x51, 0x52, 0x53, 0x57, 0x56, 0x75, 0x40, 0x42, 0x43, 0x41, 0x44].contains o

/-- The producer of an input, traced back through fan slots. -/
def Net.throughFans (g : Net) : Nat → Node → Nat → Option Node
  | 0, _, _ => none
  | fuel + 1, n, pos =>
    match g.edges.find? fun e => e.dst == n && e.pos == pos with
    | none => none
    | some e => if g.m.codeAt e.src = 0x55 then g.throughFans fuel e.src 0 else some e.src

/-- The predicate of a slot comes from the producer of another's. -/
def Net.samePred (g : Net) (p q : Node) : Bool :=
  let n := g.slots.length + 1
  (g.throughFans n p 2).isSome && g.throughFans n p 2 == g.throughFans n q 2

/-- Inputs of a slot that a target of a producer leads to through fan slots only. -/
def Net.fanEnds (g : Net) : Nat → List NEdge → List (Node × Nat)
  | 0, _ => []
  | fuel + 1, es =>
    es.flatMap fun e =>
      if g.m.codeAt e.dst = 0x55 then g.fanEnds fuel (g.edges.filter fun x => x.src == e.dst) else [(e.dst, e.pos)]

/-- The edges of one target of a slot: into a slot of its block, or of the routes from its exit. -/
def Net.edgesOf (g : Net) (n : Node) (t : BitVec 10) : List NEdge :=
  g.edges.filter fun e => e.src == n &&
    if tgtIsSlot t then e.dst == (n.1, tgtSlot t) && e.pos == tgtPos t
    else tgtExit t && e.pos == 0 && g.m.routes.any fun r =>
      r.kind == 0 && r.src == n.1 && r.exit == tgtSlot t && e.dst == (r.dst, (g.m.blks.getD r.dst {}).entrySlot r.ent)

/-- The iter whose t1 feeds the p of a carry or inv, through fan slots only (R200). -/
def Net.iterOf (g : Net) (c : Node) : Option Node :=
  let n := g.slots.length + 1
  match g.throughFans n c 2 with
  | some i =>
    if g.m.codeAt i = 0x57 ∧ g.m.codeAt c ∈ [0x52, 0x53] ∧ (g.fanEnds n (g.edgesOf i (g.m.opAt i).w.t1)).contains (c, 2) then some i
    else none
  | none => none

/-- A slot is a carry or inv or lies in its loop body: it is reached from t0, which takes one token for each round of the loop, without passing the operator itself (R202; DEDUCED, log 17). -/
def Net.inBody (g : Net) (c j : Node) : Bool :=
  let t := (g.m.opAt c).w.t0
  let b := g.m.blks.getD c.1 {}
  let onward := { b with words := b.words.set c.2 0xFFFFFFFFFFFFFFFF }
  c.1 == j.1 && (c == j || (tgtIsSlot t && (tgtSlot t == j.2 || (tgtSlot t != c.2 && onward.reaches (tgtSlot t) j.2))))

/-- The slots reached along edges from a slot, it among them. -/
def reachable (edges : List NEdge) (n : Node) : List Node := (relaxN edges edges.length [(n, 0)]).map Prod.fst

/-- A merge at which a steer's two targets reconverge under the steer's own predicate, both of them in the image (R200). -/
def Net.mergesOf (g : Net) (s : Node) : List Node :=
  let edges := g.edges.filter fun e => !g.isCut e
  match (edges.filter fun e => e.src == s).map fun e => reachable edges e.dst with
  | [a, b] => g.slots.filter fun m => g.m.codeAt m == 0x51 && g.samePred s m && a.contains m && b.contains m
  | _ => []

/-- A rate-changing slot on a path to J is closed by itself: a steer that has its merge, wherever that stands; the merge of a steer on the paths; an iter with its carry or inv (R200; log 17). -/
def Net.closedSlot (g : Net) (path : List Node) (j r : Node) : Bool :=
  match g.m.codeAt r with
  | 0x50 => !(g.mergesOf r).isEmpty
  | 0x51 => g.slots.any fun s => g.m.codeAt s == 0x50 && path.contains s && (g.mergesOf s).contains r
  | 0x57 => g.slots.any fun c => g.iterOf c == some r && g.inBody c j
  | 0x52 => (g.iterOf r).isSome && g.inBody r j
  | 0x53 => (g.iterOf r).isSome && g.inBody r j
  | _ => false

/-- Two sequences of rate-changing slots are identical (R200). -/
def Net.sameSeq (g : Net) : List Node → List Node → Bool
  | [], [] => true
  | p :: l, q :: r =>
    g.m.codeAt p == g.m.codeAt q && (g.m.opAt p).w.x == (g.m.opAt q).w.x && (g.m.opAt p).w.imm == (g.m.opAt q).w.imm &&
      (!(g.edges.any fun e => e.dst == p && e.pos == 2) || p == q || g.samePred p q) && g.sameSeq l r
  | _, _ => false

/-- Two paths that leave one producer by different edges and reach two inputs of J are closed in rate (R200 item 1). The producer counts as a slot of both paths. -/
def Net.closedPair (g : Net) (j : Node) (p q : List NEdge) : Bool :=
  let nodes := fun (l : List NEdge) => l.map NEdge.src
  let rate := fun (l : List NEdge) => (nodes l).filter fun n => changesRate (g.m.codeAt n)
  let all_ := nodes p ++ nodes q
  let split : Bool := match (nodes p).getLast? with
    | some f => [0x50, 0x52, 0x53, 0x57].contains (g.m.codeAt f)
    | none => false
  ((rate p ++ rate q).all fun r => g.closedSlot all_ j r) || (!split && g.sameSeq (rate p) (rate q))

/-- The rate check of the paths that leave one producer for an input and another for a further input (R200 item 1): the slots that fail. -/
def Net.rateBad (g : Net) (edges : List NEdge) (f1 f2 : Node) : List Node :=
  g.slots.filter fun j => (List.range 4).any fun x => (List.range 4).any fun y => x != y &&
    (let ps := pathsTo edges f1 (g.slots.length + 2) j x
     let qs := pathsTo edges f2 (g.slots.length + 2) j y
     ps.any fun p => qs.any fun q =>
       p.getLast? != q.getLast? && !((p ++ q).all fun e => e.inr) && !g.closedPair j p q)

/-- The two checks of one producer's reconvergences, or those of two producers. -/
def Net.pairBad (g : Net) (edges : List NEdge) (f1 f2 : Node) : List Node := g.depthBad edges f1 f2 ++ g.rateBad edges f1 f2

/-- A source entry of a block as a node of its own, and its edge into the slot that it feeds: the channel of the record that leads to it, the least of several, or the two places between an entry queue and its slot. DEDUCED (log 17). -/
def Net.entryEdge (g : Net) (b e : Nat) : NEdge :=
  let q : Node := (b, (g.m.blks.getD b {}).entrySlot e)
  let caps := (g.edges.filter fun x => x.dst == q && x.pos == 0).map NEdge.cap
  { src := (b, 128 + e), dst := q, pos := 0, inr := false
    cap := match caps with
      | [] => 2 + passRoom (g.m.codeAt q)
      | c :: l => l.foldl min c }

/-- The slots that fail the balance check: each producer's reconvergences (R200), and those of each two sources of a block (R359). -/
def Net.balanceBad (g : Net) : List Node :=
  let edges := g.edges.filter fun e => !g.isCut e
  (g.slots.flatMap fun f => g.pairBad edges f f) ++
    (List.range g.m.blks.length).flatMap fun b =>
      let ins := (g.m.srcEntries b).map (g.entryEdge b)
      let srcs := ((g.m.blks.getD b {}).pins.map fun k => ((b, k) : Node)) ++ ins.map NEdge.src
      srcs.flatMap fun f1 => srcs.flatMap fun f2 => if f1 = f2 then [] else g.pairBad (edges ++ ins) f1 f2

/-! ### Delays (R163, R164, R174) -/

/-- One of four values by operating point. -/
def at4 (o : Nat) (a b c d : Nat) : Nat := [a, b, c, d].getD o 0

/-- The delay in ticks of a slot of the arithmetic at an operating point: whole cycles and the ticks of the last, by decode-table revision 0x0003 (R164). A raw cvt takes the bit-copy row alone, with rnd=dth too. DEDUCED (log 128). -/
def tableDelay (o : Nat) (f : FabOp) : Nat × Nat :=
  let w := fmtWidth f.w.fmt
  let op := f.op.toNat
  let by3 := fun (a b c : Nat) => (0, if w = 8 then a else if w = 16 then b else c)
  let half := f.w.fmt = 8
  let flt := fun (s b h : Nat) => (0, if w = 32 then s else if half then b else h)
  let dith := if f.w.rnd = 5 then at4 o 2 2 3 4 else 0
  let conv := if w = 32 then at4 o 7 8 10 13 else if w = 16 then at4 o 8 9 11 14 else at4 o 9 10 12 16
  if [0x0C, 0x0D, 0x0E, 0x0F, 0x16].contains op then (0, at4 o 3 3 4 5)
  else if op = 0x05 ∨ op = 0x06 then by3 (at4 o 8 9 11 14) (at4 o 11 12 15 19) (at4 o 17 19 23 29)
  else if op = 0x07 then by3 (at4 o 10 11 14 17) (at4 o 13 15 18 23) (at4 o 19 22 26 33)
  else if 0x10 ≤ op ∧ op ≤ 0x14 then by3 (at4 o 4 5 6 7) (at4 o 5 6 7 9) (at4 o 6 7 8 11)
  else if op ≤ 0x15 then by3 (at4 o 4 5 6 7) (at4 o 5 6 7 9) (at4 o 7 8 10 13)
  else if [0x24, 0x25, 0x28].contains op then (0, if w = 32 then at4 o 6 7 8 11 else at4 o 5 6 7 9)
  else if op = 0x26 ∨ op = 0x27 then (0, at4 o 2 2 3 4)
  else if op = 0x20 ∨ op = 0x21 then flt (at4 o 16 18 22 28) (at4 o 11 13 15 19) (at4 o 12 14 16 21)
  else if op = 0x22 then flt (at4 o 15 17 21 26) (at4 o 10 12 14 18) (at4 o 11 13 15 19)
  else if op = 0x23 then flt (at4 o 22 25 30 38) (at4 o 14 16 19 25) (at4 o 15 17 21 26)
  else if op = 0x2E ∨ op = 0x2F then (0, if w = 32 then at4 o 8 9 11 14 else at4 o 7 8 10 12)
  else if 0x29 ≤ op ∧ op ≤ 0x2B then if w = 32 then (2, at4 o 20 24 28 36) else (1, at4 o 18 20 22 27)
  else if op = 0x2C ∨ op = 0x2D then if w = 32 then (2, at4 o 26 29 34 43) else (1, at4 o 22 26 30 37)
  else if op = 0x30 then (0, if f.w.fmt = 0 ∨ f.w.x.toNat % 16 = 0 then at4 o 2 2 3 4 else conv + dith)
  else if op = 0x31 then (0, conv + dith)
  else if op = 0x32 then (0, conv)
  else if op = 0x33 then (0, conv + dith + at4 o 3 3 4 5)
  else if op = 0x34 then (0, at4 o 14 16 19 25)
  else if op = 0x35 then if w = 8 then (1, at4 o 9 11 13 17) else (0, if w = 16 then at4 o 25 28 34 43 else at4 o 22 25 30 38)
  else if op = 0x36 then if w = 32 then (1, at4 o 24 27 31 40) else (2, at4 o 6 7 9 12)
  else if op = 0x37 then (0, at4 o 6 7 8 10)
  else (0, at4 o 4 5 6 7)

/-- The worst-case delay of a slot's class, for retiming (R174). -/
def worstDelay (o : Nat) (f : FabOp) : Nat × Nat :=
  let op := f.op.toNat
  if [0x0C, 0x0D, 0x0E, 0x0F, 0x16].contains op then (0, at4 o 4 4 5 6)
  else if op = 0x05 ∨ op = 0x06 then (0, at4 o 20 22 26 33)
  else if op = 0x07 then (0, at4 o 22 25 30 38)
  else if 0x10 ≤ op ∧ op ≤ 0x14 then (0, at4 o 8 9 10 13)
  else if op ≤ 0x15 then (0, at4 o 9 10 12 16)
  else if [0x24, 0x25, 0x28].contains op then (0, at4 o 7 8 10 13)
  else if op = 0x26 ∨ op = 0x27 then (0, at4 o 3 3 4 5)
  else if op = 0x20 ∨ op = 0x21 then (0, at4 o 18 21 25 32)
  else if op = 0x22 then (0, at4 o 17 20 24 30)
  else if op = 0x23 then (0, at4 o 25 29 34 43)
  else if op = 0x2E ∨ op = 0x2F then (0, at4 o 10 11 13 17)
  else if 0x29 ≤ op ∧ op ≤ 0x2D then (2, at4 o 28 32 36 45)
  else if 0x30 ≤ op ∧ op ≤ 0x33 then (0, at4 o 18 19 23 30)
  else if 0x34 ≤ op ∧ op ≤ 0x36 then (2, at4 o 12 14 16 20)
  else (0, at4 o 8 9 10 13)

/-- A cycle operation's latency (R163): router operators, const and eosq, dly, the in-region scratch read. -/
def cycleLat (f : FabOp) : Option Nat :=
  let op := f.op.toNat
  if isRouterOp op ∨ op = 0x74 ∨ op = 0x75 then some 1
  else if op = 0x73 then some (f.w.x.toNat % 256 + 1)
  else if op = 0x60 then some 6
  else none

/-- The delays in use: the worst case for a retimed image (R174), or those of a revision of the decode table (R85, R164). -/
inductive Delays where
  | worst
  | rev (n : Nat)
deriving DecidableEq, Repr

/-- A delay is at most another: whole cycles first, then the ticks of the last. -/
def delayLe (a b : Nat × Nat) : Bool := decide (a.1 < b.1) || (a.1 == b.1 && decide (a.2 ≤ b.2))

/-- The delay of a slot. The spec lists the delays of revision 0x0003 alone; those of another are free up to the worst case (R174). DESIGN CHOICE (log 128). -/
def delayOf (d : Delays) (o : Nat) (f : FabOp) : Nat × Nat :=
  match d with
  | .worst => worstDelay o f
  | .rev n =>
    if n = 3 then tableDelay o f
    else
      let x := Config.tableDelay n o (putF f)
      if delayLe x (worstDelay o f) then x else worstDelay o f

/-- The span of a slot (R163). -/
def spanOf (d : Delays) (o : Nat) (f : FabOp) : Nat :=
  match cycleLat f with
  | some l => l
  | none => (delayOf d o f).1 + 1

/-- The whole cycles before a slot's final cycle. -/
def kOf (d : Delays) (o : Nat) (f : FabOp) : Nat := spanOf d o f - 1

/-- The ticks of a slot's final cycle; a cycle operation's result stands at the edge. -/
def dOf (d : Delays) (o : Nat) (f : FabOp) : Nat := if (cycleLat f).isSome then 0 else (delayOf d o f).2

/-- The period of an operating point in ticks (R19). -/
def periodOf (o : Nat) : Nat := at4 o 32 36 40 48

/-! ### Timing (R161 to R168) -/

/-- The producers of a slot's in-region operands. -/
def Net.inProducers (g : Net) (q : Node) : List Node := (g.edges.filter fun e => e.dst == q && e.inr).map NEdge.src

/-- An operand is chained (R162, R167). -/
def Net.isChained (g : Net) (d : Delays) (p q : Node) : Bool :=
  let a := g.site p
  let b := g.site q
  b.chain && a.dx == b.dx && a.dy == b.dy && decide (a.stage < b.stage) &&
    a.cycle + kOf d g.op (g.m.opAt p) == b.cycle && a.pad == 0

/-- The check of one slot of a region (R167). -/
def Net.slotFits (g : Net) (d : Delays) (q : Node) : Bool :=
  let e := g.site q
  let f := g.m.opAt q
  let budget := periodOf g.op - 3
  let ps := g.inProducers q
  let chained := ps.filter fun p => g.isChained d p q
  let arrive := chained.foldl (fun m p => max m ((g.site p).tick + dOf d g.op (g.m.opAt p) + 1)) 0
  let cyc : Bool := (cycleLat f).isSome
  let long : Bool := cyc || (delayOf d g.op f).1 != 0
  decide (e.tick < periodOf g.op) && !(long && (e.chain || e.tick != 0)) && !(!e.chain && e.tick != 0) &&
    ((ps.filter fun p => !g.isChained d p q).all fun p =>
      e.cycle == (g.site p).cycle + spanOf d g.op (g.m.opAt p) + (g.site p).pad) &&
    !(e.chain && chained.isEmpty) && decide (arrive ≤ e.tick) &&
    (cyc || decide (e.tick + (delayOf d g.op f).2 ≤ budget)) &&
    decide (e.cycle + spanOf d g.op f + e.pad ≤ 2047)

/-- The occupied cycles of two slots meet at one cell and stage (R168). -/
def Net.meets (g : Net) (d : Delays) (p q : Node) : Bool :=
  let a := g.site p
  let b := g.site q
  a.dx == b.dx && a.dy == b.dy && a.stage == b.stage &&
    decide (a.cycle < b.cycle + spanOf d g.op (g.m.opAt q)) && decide (b.cycle < a.cycle + spanOf d g.op (g.m.opAt p))

/-- The places that a channel-boundary slot occupies: an mma's dot unit spans stages 2 to 4 of its footprint (R157). -/
def Net.occupies (g : Net) (n : Node) (e : SchedE) : Bool :=
  let a := g.site n
  if g.m.codeAt n = 0x40 then
    e.compute && e.dx / 16 == a.dx / 16 && e.dy / 16 == a.dy / 16 && decide (2 ≤ e.stage ∧ e.stage ≤ 4) &&
      decide (a.cell ≤ e.cell) && decide (e.cell < a.cell + (g.accRef n).n / 16)
  else a.dx == e.dx && a.dy == e.dy && a.stage == e.stage

/-- A slot of no region that is placed inside one, or that may not stand alone (R34, R157, R208). -/
def Net.misplaced (g : Net) (inReg : List Node) (n : Node) : Bool :=
  let e := g.site n
  e.chain || e.cycle != 0 || e.tick != 0 || g.m.codeAt n == 0x73 || inReg.any fun r => g.occupies n (g.site r)

/-- The slots that fail the timing check. -/
def Net.timingBad (g : Net) (d : Delays) : List Node :=
  let rs := g.regions
  let inReg := rs.flatten
  (rs.flatMap fun r =>
    (r.filter fun q => !g.slotFits d q) ++
      r.filter fun q => r.any fun p => decide (p.2 < q.2) && g.meets d p q) ++
    (g.slots.filter fun n => !inReg.contains n && g.misplaced inReg n) ++
    g.slots.filter fun n => !decide ((g.site n).tick < periodOf g.op)

/-! ### Retiming (R175) -/

/-- A schedule entry changed. -/
def setSite (l : List (List SchedE)) (n : Node) (f : SchedE → SchedE) : List (List SchedE) :=
  l.modify n.1 fun x => x.modify n.2 f

/-- The slots of a region in topological order over its in-region edges, ties by slot. -/
def Net.topoN (g : Net) : Nat → List Node → List Node → List Node
  | 0, left, done => done ++ left
  | n + 1, left, done =>
    match left.find? fun q => (g.inProducers q).all fun p => !left.contains p with
    | some q => g.topoN n (left.filter fun x => x != q) (done ++ [q])
    | none => done ++ left

/-- One round of retiming a region: producers, equal consumers, occupancy. -/
def Net.retimeRound (g : Net) (order region : List Node) : Net :=
  let span := fun (n : Node) => spanOf .worst g.op (g.m.opAt n)
  let at_ := fun (g : Net) (n : Node) => (g.site n).cycle
  let put := fun (g : Net) (n : Node) (c : Nat) => { g with sched := setSite g.sched n fun e => { e with cycle := c } }
  let g1 := order.foldl (fun (h : Net) s => put h s ((h.inProducers s).foldl (fun m p => max m (at_ h p + span p)) (at_ h s))) g
  let g2 := region.foldl (fun (h : Net) p =>
    match (h.edges.filter fun e => e.src == p && e.inr).map NEdge.dst with
    | [a, b] =>
      let c := max (at_ h a) (at_ h b)
      put (put h a c) b c
    | _ => h) g1
  region.foldl (fun (h : Net) t => region.foldl (fun (h : Net) s =>
    if s.2 < t.2 ∧ h.meets .worst s t then put h t (at_ h t + 1) else h) h) g2

/-- Rounds of retiming until no cycle changes. -/
def Net.retimeN (order region : List Node) : Nat → Net → Net
  | 0, g => g
  | n + 1, g =>
    let h := g.retimeRound order region
    if h.sched = g.sched then g else Net.retimeN order region n h

/-- One region retimed: every slot alone in its segment, padding where its consumers wait (R175). -/
def Net.retimeRegion (g : Net) (region : List Node) : Net :=
  let zero := region.foldl (fun (h : Net) n =>
    { h with sched := setSite h.sched n fun e => { e with chain := false, tick := 0, pad := 0, cycle := 0 } }) g
  let h := Net.retimeN (g.topoN region.length region []) region (4096 * (region.length + 1)) zero
  region.foldl (fun (k : Net) p =>
    match (h.edges.filter fun e => e.src == p && e.inr).map NEdge.dst with
    | q :: _ =>
      { k with sched := setSite k.sched p fun e => { e with pad := (h.site q).cycle - (h.site p).cycle - spanOf .worst g.op (g.m.opAt p) } }
    | [] => k) h

/-- An image retimed under its section (R87, R175). -/
def Net.retime (g : Net) : Net := g.regions.foldl (fun (h : Net) r => h.retimeRegion r) g

/-- Slots of a retimed image whose cycle or padding leaves its field (R175). -/
def Net.retimeBad (g : Net) : List Node := g.slots.filter fun n => decide (2047 < (g.site n).cycle) || decide (255 < (g.site n).pad)

/-! ### CheckImage (R82 step 3, R225) -/

/-- The outcome of the check: a report that refuses the image, or the report with the schedule to load. -/
inductive Checked where
  | bad (report : Word)
  | ok (report : Word) (retimed : Bool) (sched : List (List SchedE))
deriving DecidableEq, Repr

/-- A section of a checked image: whether it is retimed, and its schedule, if it passes the timing check, a second claim of a stage among it (R167 to R169, R258). -/
def Image.timed (m : Image) (s : Sched) (step decrev : Nat) : Bool × List (List SchedE) × Bad :=
  let g := m.net s.blks s.op 0 0
  let re : Bool := s.gen != 1 || s.step != step || s.dtrev != decrev
  let h := if re then g.retime else g
  (re, h.sched, firstSlot (h.retimeBad ++ h.badClaims ++ h.timingBad (if re then .worst else .rev decrev)))

/-- The image checked where it is placed, at an operating point, against the part's stepping and decode table. queues lists the images that a token route may name. -/
def Image.check (m : Image) (queues : List Nat) (ox oy op step decrev : Nat) : Checked :=
  match m.scheds.find? fun s => s.op == op with
  | none => .bad (loadReport 0x02 none none)
  | some s =>
    let g := m.net s.blks op ox oy
    match firstSlot (g.badTiles ++ g.badOwners) with
    | .none =>
      match g.routeBad queues with
      | .none =>
        match firstSlot g.balanceBad with
        | .none =>
          match m.timed s step decrev with
          | (re, sched, .none) => .ok (loadReport (if re then 0x06 else 0x00) none none) re sched
          | (_, _, b) => .bad (m.report 0x02 b)
        | b => .bad (m.report 0x03 b)
      | b => .bad (m.report 0x04 b)
    | b => .bad (m.report 0x01 b)

end Sys2Proof.Machine
end

