-- ==== Sys2Proof/Machine/FabricMem.lean ====
section
/-! DEFINITION. The memory nodes of the fabric: mld, mst, matm, mldv, mstv and otok (R320 to R326). -/

namespace Sys2Proof.Machine

open Sys2Proof

/-! ### Addresses and faults (R320) -/

/-- The address of an address token: lanes 1 and 0. -/
def addrOf (p : Pay) : Word := BitVec.ofNat 64 p.toNat

/-- The context of the acting slot. -/
def State.fabCtx (s : State) (f : Fab) : BitVec 8 := (s.sec f.sid).ctx

/-- The task index of the acting slot. -/
def State.fabTaskIdx (s : State) (f : Fab) : Nat := ((s.task? f.b.task).map Task.idx).getD 0

/-- Codes of the accesses in a fault record (R370). -/
def Acc.code : Acc → Nat
  | .read => 0 | .write => 1 | .both => 2 | .fetch => 0

/-- Where a node's access goes: its place, with the mark of a line that arrives poisoned; a wait; a region fault. -/
inductive NodeTo where
  | at (s : State) (t : Tgt) (poison : Bool)
  | wait (s : State)
  | bad (c : Cause)
deriving DecidableEq, Repr

/-- A faulting node stalls, and its record goes to the context's handler (R320, R370). -/
def State.nodeFault (s : State) (f : Fab) (va : Word) (c : Cause) (acc : Acc) : NodeTo :=
  let r := s.faultRec (s.fabCtx f) f.b.task (s.fabTaskIdx f) f.sid va c 3 acc.code f.cell f.blk.id 3 (some ⟨f.b, f.slot⟩)
  .wait (r.2.setOpSt f { r.2.opSt f with wait := some r.1 })

/-- The cause that a FAIL answer left in the operator state (R320, R371). -/
def failCause (st : Nat) : Cause := if st = 5 then .permission else .xlateFault

/-- The place of a node's access (R320, R395). barred says which places take PERMISSION. -/
def State.nodeAddr (s : State) (f : Fab) (va : Word) (align n : Nat) (acc : Acc) (barred : Tgt → Bool) : NodeTo :=
  let o := s.opSt f
  if o.wait.isSome then .wait s
  else if o.st ≠ 0 then .bad (failCause o.st)
  else if va.toNat % align ≠ 0 then .bad .misaligned
  else match s.xlate (s.fabCtx f) f.sid va acc with
    | .hold => .wait s
    | .fault => s.nodeFault f va .xlateFault acc
    | .perm => s.nodeFault f va .permission acc
    | .ok t =>
      if barred t then s.nodeFault f va .permission acc
      else if acc ≠ .read ∧ t.isScratch ∧ s.reserved t.phys n then .bad .permission
      else if s.unreachable t then
        if o.pos = 0 then .wait (s.setOpSt f { o with pos := s.cyc + linkWait })
        else if s.cyc < o.pos then .wait s
        else .bad .poison
      else if s.flashHeld t then .wait s
      else if acc = .write then .at s t false
      else match s.strike f.sid t n with
        | .go u => .at u t false
        | .wait u => .wait u
        | .bad u => .at u t true

/-- A node's access at its place, else its wait or its fault. -/
def NodeTo.run (r : NodeTo) (wave : Nat) (go : State → Tgt → Bool → Fire) : Fire :=
  match r with
  | .at s t p => go s t p
  | .wait s => .done s
  | .bad c => .fault c wave 0

/-- The place of a local access (R321). -/
def localTgt (f : Fab) (a : Pay) : Tgt :=
  let off := a.toNat % 2 ^ 22 / 64 * 64
  { off := off, phys := scratchAt f.sid off }

/-! ### The owner's coalescing buffer (R268, R269, R322) -/

/-- OWNQ of a sector's cell. -/
def Sector.owner (x : Sector) (cell : Nat) : Nat := Tab.get 0 x.ownq cell

/-- The code of an owner: its sector and its scratch cell; a store that has no owner. -/
def ownerCode (sid q : Nat) : Nat := sid * 128 + q

/-- The code of the share of stores whose home is not scratch (R29). -/
def noOwner : Nat := 0xFFFFFFFF

/-- A place in S-space is a scratch store's; every other store is released as a plain store (R277, R322). -/
def State.storeOwner (s : State) (f : Fab) (t : Tgt) : Nat :=
  if t.idx = none then ownerCode f.sid ((s.sec f.sid).owner (t.off / 2 ^ 15)) else noOwner

/-- What a store at a place does when it is released. -/
def Tgt.storeKind (t : Tgt) (data : List (Option Byte)) : StoreKind :=
  match t.idx with
  | none => .bytes t.phys data
  | some i => .page i t.pw t.frame t.off data

/-- The granule of scratch that a store touches first. -/
def StoreKind.granule : StoreKind → Nat
  | .bytes a _ => a / 64
  | _ => 0

/-- The 16 entries of an owner's buffer are full: stores of one wave to one granule share an entry (log 14). -/
def State.bufFull (s : State) (f : Fab) (wave owner granule : Nat) : Bool :=
  owner != noOwner &&
  match s.task? f.b.task with
  | none => false
  | some t =>
    let keys := ((t.stores.filter fun p => p.owner == owner).map fun p => (p.b, p.wave, p.k.granule)).eraseDups
    decide (16 ≤ keys.length) && !keys.contains (f.b, wave, granule)

/-- Bytes overlaid by a held store that lies at or around them. -/
def overlay (a : Nat) (l : List Byte) (k : StoreKind) : List Byte :=
  match k with
  | .bytes p d => l.zipIdx.map fun x =>
      if p ≤ a + x.2 then match d.getD (a + x.2 - p) none with
        | some b => b
        | none => x.1
      else x.1
  | _ => l

/-- The held stores that a load at the owner's site sees: those of other blocks, then those of earlier waves of its own, in wave order (R321). -/
def Task.seenStores (t : Task) (b : BlkRef) (wave owner : Nat) : List PStore :=
  let l := t.stores.filter fun p => p.owner == owner
  (l.filter fun p => p.b != b) ++ ((l.filter fun p => p.b == b && decide (p.wave < wave)).mergeSort fun p q => decide (p.wave ≤ q.wave))

/-- The 64 bytes a fabric load reads: the bank, and for a load at the owner's site the stores its buffer holds (R321). -/
def State.mldBytes (s : State) (f : Fab) (t : Tgt) (wave : Nat) : List Byte :=
  let raw := s.rdTgt t 64
  let owner := s.storeOwner f t
  if owner = ownerCode f.sid f.cell then
    match s.task? f.b.task with
    | some k => (k.seenStores f.b wave owner).foldl (fun l p => overlay t.phys l p.k) raw
    | none => raw
  else raw

/-! ### Meanings -/

/-- A memory node's result sent, its tokens consumed, and its fault state cleared. -/
def State.nodeDone (s : State) (f : Fab) (l : List (Nat × Token)) (t : Token) : Fire :=
  s.pass f l (f.both t) { s.opSt f with wait := none, st := 0, pos := 0 }

/-- R321 mld. -/
def execMld (w : FabW) (s : State) : Host.Outcome State Fault Refusal :=
  s.fabric w fun f => s.checked f [(0, 0)] fun l =>
    let a := f.operand l 0
    let wave := waveOf l
    let go := fun (u : State) (t : Tgt) (p : Bool) =>
      if t.sf && (match u.staged? (flashPage t.phys) with
          | some g => g.failed
          | none => false) then Fire.fault .poison wave 0
      else
        let tok := dataToken w.fmt (BitVec.ofNat 512 (natOf (u.mldBytes f t wave))) wave
        u.nodeDone f l { tok with poison := p || u.tgtPoison t 64 }
    if w.x.getLsbD 0 then go s (localTgt f a) false
    else (s.nodeAddr f (addrOf a) 64 64 .read fun _ => false).run wave go

/-- The bytes of a store: all of b's, or those of the lanes that p selects (R322). -/
def mstData (b : Pay) (p : Option Pay) : List (Option Byte) :=
  (bytesOf 64 b.toNat).zipIdx.map fun x => match p with
    | none => some x.1
    | some q => if bitAt q.toNat (x.2 / 4 * 32) then some x.1 else none

/-- R322 mst. -/
def execMst (w : FabW) (s : State) : Host.Outcome State Fault Refusal :=
  s.fabric w fun f => s.checked f (if w.fmt = 0 then [(0, 0), (2, 15)] else [(0, 0), (1, w.fmt), (2, 15)]) fun l =>
    let a := f.operand l 0
    let wave := waveOf l
    let go := fun (u : State) (t : Tgt) (_ : Bool) =>
      let k := t.storeKind (mstData (f.operand l 1) ((l.find? fun p => p.1 == 2).map fun p => p.2.pay))
      let owner := u.storeOwner f t
      if u.bufFull f wave owner k.granule then Fire.wait
      else (u.holdStore f wave owner k none).pass f l [] { u.opSt f with wait := none, st := 0, pos := 0 }
    if w.x.getLsbD 0 then
      if s.reserved (localTgt f a).phys 64 then .fault .permission wave 0 else go s (localTgt f a) false
    else (s.nodeAddr f (addrOf a) 64 64 .write fun t => t.sf || t.ver).run wave go

/-- What an atomic leaves in memory: none where a cas does not match (R56). -/
def amoNew (code w old x expect : Nat) : Option Nat :=
  if code = 9 then (if old = expect then some x else none)
  else (amoOf code).map fun o => o.val w old x

/-- R324 matm: performed when it fires. -/
def execMatm (w : FabW) (s : State) : Host.Outcome State Fault Refusal :=
  s.fabric w fun f => s.checked f [(0, 0), (1, w.fmt), (2, 0)] fun l =>
    let n := if w.x.getLsbD 4 then 8 else 4
    let wave := waveOf l
    (s.nodeAddr f (addrOf (f.operand l 0)) n n .both fun t => t.sf || t.ver).run wave fun u t p =>
      if p || u.tgtPoison t n then .fault .poison wave 0
      else
        let old := natOf (u.rdTgt t n)
        let arg := (f.operand l 1).toNat % 2 ^ (8 * n)
        let expect := (((l.find? fun q => q.1 == 2).map fun q => q.2.pay.toNat).getD 0) % 2 ^ (8 * n)
        let u1 := match amoNew (w.x.toNat % 16) (8 * n) old arg expect with
          | some v => u.store t.phys (bytesOf n v)
          | none => u
        u1.nodeDone f l (dataToken 0 (BitVec.ofNat 512 old) wave)

/-- R325 mldv: it waits while the version does not exist. -/
def execMldv (w : FabW) (s : State) : Host.Outcome State Fault Refusal :=
  s.fabric w fun f => s.checked f [(0, 0), (1, w.fmt)] fun l =>
    let wave := waveOf l
    (s.nodeAddr f (addrOf (f.operand l 0)) 8 8 .read fun t => !t.ver).run wave fun u t p =>
      let v := (addrOf (f.operand l 1)).toNat
      if p || u.poisonIn t.line 64 then u.nodeDone f l { dataToken 0 0 wave with poison := true }
      else if v < u.vFloor t.line then .fault .versionRetired wave 0
      else if v < u.vNext t.line then u.nodeDone f l (dataToken 0 (BitVec.ofNat 512 (u.vVal t.line v).toNat) wave)
      else .wait

/-- R325 mstv: the version is created at the commit of its wave. -/
def execMstv (w : FabW) (s : State) : Host.Outcome State Fault Refusal :=
  s.fabric w fun f => s.checked f [(0, 0), (1, w.fmt)] fun l =>
    let wave := waveOf l
    (s.nodeAddr f (addrOf (f.operand l 0)) 8 8 .both fun t => !t.ver).run wave fun u t p =>
      if p || u.poisonIn t.line 64 then .fault .poison wave 0
      else (u.holdStore f wave noOwner (.version (t.idx.getD 0) t.pw t.frame t.off (addrOf (f.operand l 1))) none).pass f l []
        { u.opSt f with wait := none, st := 0, pos := 0 }

/-- Every store and version creation of the waves of a block up to one has been performed: those waves have committed and none of their stores is held (R29, R326). -/
def State.wavesDone (s : State) (b : BlkRef) (wave : Nat) : Bool :=
  match s.task? b.task with
  | none => true
  | some t => !(t.wrecs.any fun r => r.b == b && decide (r.w ≤ wave)) && !(t.stores.any fun p => p.b == b && decide (p.wave ≤ wave))

/-- R326 otok: it takes a token of any kind, and sends ORDER once the waves up to that token's are performed. -/
def execOtok (w : FabW) (s : State) : Host.Outcome State Fault Refusal :=
  s.fabric w fun f =>
    match (s.opSt f).panel with
    | [] => s.fireAt f [0] fun l => s.pass f l [] { s.opSt f with panel := [(tokAt l 0).at (waveOf l)] }
    | t :: _ =>
      if s.wavesDone f.b t.wave then
        let out : Token := if t.kind = .eos then eosToken t.wave else { kind := .order, wave := t.wave }
        s.pass f [] [(f.t0, out)] { s.opSt f with panel := [] }
      else .wait

end Sys2Proof.Machine
end

