-- ==== Sys2Proof/Machine/FabricPort.lean ====
section
/-! DEFINITION. Stream ports: reading and writing the elements of bindings (R205, R206, R211, R303, R304), their faults and the spill queue (R372, R373), the edge TLB (R368), pin and pout. -/

namespace Sys2Proof.Machine

open Sys2Proof

/-! ### The end of a binding (R211, R213) -/

/-- The drain token of an sbar. -/
def drainToken (id : Nat) : Token := { kind := .drain, pay := BitVec.ofNat 512 id }

/-- A read port whose active binding has ended: the pending one becomes active, the EOS follows, and the drain tokens once no binding is left (R205, R211, R213). -/
def PortSt.endRead (p : PortSt) : PortSt :=
  match p.act with
  | none => p
  | some b =>
    let last : Bool := !(p.pend.any fun x => !x.write)
    { p with
      act := p.pend, pend := none, lastPos := b.pos, eosd := false, held := none
      head := p.head ++ (if b.eos then [eosToken 0] else []) ++ (if last then p.bars.map drainToken else [])
      bars := if last then [] else p.bars }

/-- A write port whose active binding has ended (R206, R211). The port entry stays, whose fill for the pending binding was its sbind's (R367). -/
def PortSt.endWrite (p : PortSt) : PortSt :=
  match p.act with
  | none => p
  | some b => { p with act := p.pend, pend := none, lastPos := b.pos, eosd := p.eosd && p.pend.isNone, held := none }

/-- The active binding one element further (R211). -/
def PortSt.step (p : PortSt) : PortSt := { p with act := p.act.map fun b => { b with pos := b.pos + 1 } }

/-- A port changed. -/
def State.modPort (s : State) (sid q : Nat) (g : PortSt → PortSt) : State := s.modSec sid fun x => x.setPort q (g (x.port q))

/-- A port of a sector. -/
def State.port (s : State) (sid q : Nat) : PortSt := (s.sec sid).port q

/-- A read binding with no element left, none spilled, none held and none replayed but not sent ends (R372). -/
def State.closeRead (s : State) (sid q : Nat) : State :=
  let p := s.port sid q
  match p.act with
  | some b =>
    if !b.write && p.spill.isEmpty && p.held.isNone && !(p.head.any Token.replay) && !p.stopping && s.plan sid b b.pos == .ended then s.modPort sid q PortSt.endRead else s
  | none => s

/-! ### Reading an element -/

/-- The bytes of an element, or what keeps it. -/
inductive Got where
  | bytes (s : State) (l : List Byte) (poison : Bool)
  | wait (s : State)
  | lost
  | fault (va : Word) (c : Cause)
deriving DecidableEq, Repr

/-- One piece of an element read for a sector. -/
def State.readPiece (s : State) (sid : Nat) : Piece → Got
  | .const v n => .bytes s (bytesOf n v) false
  | .poison n => .bytes s (bytesOf n 0) true
  | .slice a n => .bytes s (s.rdBytes a n) (s.poisonIn a n)
  | .mem va n =>
    match s.xlate (s.sec sid).ctx sid va .read with
    | .hold => .wait s
    | .fault => .fault va .xlateFault
    | .perm => .fault va .permission
    | .ok t =>
      if s.unreachable t then .lost
      else if s.flashHeld t then .wait s
      else match s.strike sid t n with
        | .wait u => .wait u
        | .go u => .bytes u (u.rdTgt t n) (u.tgtPoison t n)
        | .bad u => .bytes u (u.rdTgt t n) true

/-- The pieces of an element read one after another; the first that faults or waits decides. -/
def State.readPieces (s : State) (sid : Nat) : List Piece → Got
  | [] => .bytes s [] false
  | p :: l =>
    match s.readPiece sid p with
    | .bytes u b k =>
      match u.readPieces sid l with
      | .bytes v c m => .bytes v (b ++ c) (k || m)
      | g => g
    | g => g

/-- The address of a piece that lies in memory. -/
def Piece.addr? : Piece → Option Word
  | .mem va _ => some va
  | _ => none

/-- The valid entry of the range table that an address lies in, for a translation entry (R366, R367). -/
def State.entryIdx (s : State) (sid : Nat) (va : Word) : Option Nat :=
  match findRt (s.ctx (s.sec sid).ctx).rt va.toNat with
  | some (i, e) => if pwValid e.pw e.frame then some i else none
  | none => none

/-- The translation caches after the lookup of an address: a gather stream uses the die's edge TLB of 2048 entries, every other the port entry (R366 to R368). -/
def State.noteAddr (s : State) (sid q : Nat) (gather : Bool) (va : Word) : State :=
  if !isVirt va then s
  else match s.entryIdx sid va with
    | none => s
    | some i =>
      if gather then
        let k := ((s.sec sid).ctx.toNat, i)
        let old := (Tab.get [] s.edgeTlb (dieOf sid)).filter fun e => e != k
        { s with edgeTlb := Tab.put s.edgeTlb (dieOf sid) (k :: old.take 2047) }
      else s.modPort sid q fun p => { p with entry := some i }

/-- The translation caches after the lookups of an element's pieces, one after another (R366, R367). -/
def State.noteEntry (s : State) (sid q : Nat) (gather : Bool) (l : List Piece) : State :=
  (l.filterMap Piece.addr?).foldl (fun (s : State) va => s.noteAddr sid q gather va) s

/-- The pieces of an element up to the one at an address, at which its lookups have ended with a fault. -/
def piecesTo (va : Word) : List Piece → List Piece
  | [] => []
  | p :: l => p :: (if p.addr? = some va then [] else piecesTo va l)

/-- A binding is a gather stream (R303). -/
def Bind.gather (b : Bind) : Bool := b.desc.tag == tagTmap && !b.map.win && b.map.idx

/-- A fault record of a port's element (R370). -/
def State.portFault (s : State) (sid q : Nat) (b : Bind) (va : Word) (c : Cause) (pos : Nat) : BitVec 32 × State :=
  let x := s.sec sid
  s.faultRec x.ctx x.task (((s.task? x.task).map Task.idx).getD 0) sid va c (if b.gather then 1 else 0) (if b.write then 1 else 0) q
    (BitVec.ofNat 32 pos) 1 none

/-- An element held or spilled at its fault (R372, R373). -/
def spillOf (pos : Nat) (va : Word) (c : Cause) (token : BitVec 32) : Spill := { pos := pos, va := va, cause := c.code, token := token }

/-- The fault of the next element of a read binding: diverted when the block's CA is set and the queue has room, else it holds the port; with CA set until an entry leaves the queue (R372). -/
def State.divert (s : State) (sid q : Nat) (ca : Bool) (b : Bind) (va : Word) (c : Cause) : State :=
  let r := s.portFault sid q b va c b.pos
  let p := s.port sid q
  let e := spillOf b.pos va c r.1
  if ca ∧ p.spill.length < 64 then r.2.modPort sid q fun p => { p.step with held := none, spill := p.spill ++ [e] }
  else r.2.modPort sid q fun p => { p with held := some e, full := ca }

/-! ### pin (R205) -/

/-- The pieces of a plan; a bad push record has none. -/
def Plan.pieces : Plan → List Piece
  | .elem l => l
  | _ => []

/-- A pin holds a token at its head: one in its output, injected, replayed or an EOS, or the next element can be read. A stopped one takes no further element, and none gives a token before the chunks refused at a save are replayed (R197, R205, R230, R252). -/
def State.pinHas (s : State) (sid q : Nat) : Bool :=
  let p := s.port sid q
  !s.replayingTask (s.sec sid).task &&
  match p.head with
  | t :: _ => t.kind != .drain
  | [] =>
    match p.act with
    | none => false
    | some b =>
      !b.write && !(s.sec sid).stopped &&
      match p.held with
      | some h => h.st != 0 && !p.full
      | none => !p.stopping &&
        match s.plan sid b b.pos with
        | .elem l => match s.readPieces sid l with
          | .bytes _ _ _ => true
          | .lost => true
          | _ => false
        | _ => false

/-- A token of a pin sent as its firing for a wave; a token at o is taken with every element (R205). -/
def State.pinSend (s : State) (f : Fab) (wave : Nat) (t : Token) (k : PortSt → PortSt) : Fire :=
  let needO := f.fed 3 && t.kind != .eos
  match s.head f 3, needO with
  | none, true => .wait
  | o, _ =>
    if needO && o.any Token.poison then .fault .poison wave 0
    else Fire.sent (s.sendAll f (f.both (t.at wave))) fun u =>
      let u1 := if needO then u.take f 3 else u
      let u2 := u1.modPort f.sid f.cell k
      u2.setOpSt f { u2.opSt f with owe := none, pos := 0, eosSent := (u2.opSt f).eosSent || t.kind == .eos }

/-- The next element of the active read binding read and sent, held or diverted (R205, R372). Every lookup of a piece fills the translation caches, whatever it ends in (R366). -/
def State.pinElem (s : State) (f : Fab) (b : Bind) (wave : Option Nat) : Fire :=
  let p := s.port f.sid f.cell
  let send := fun (u : State) (t : Token) => match wave with
    | none => Fire.wait
    | some w => match u.pinSend f w t fun p => { p.step with held := none } with
      | .done v => .done (v.closeRead f.sid f.cell)
      | r => r
  let bad : Token := { dataToken f.w.fmt 0 0 with poison := true }
  match if p.full then some 0 else p.held.map Spill.st with
  | some 0 => .wait
  | some 2 =>
    match s.plan f.sid b b.pos, send s bad with
    | .bad, .done v => .done (v.modPort f.sid f.cell PortSt.endRead)
    | _, r => r
  | _ =>
    match s.plan f.sid b b.pos with
    | .ended => .done (s.closeRead f.sid f.cell)
    | .bad => .done (s.divert f.sid f.cell false b 0 .xlateFault)
    | .elem l =>
      match s.readPieces f.sid l with
      | .wait u => .done u
      | .lost =>
        if (s.opSt f).pos = 0 then .done (s.setOpSt f { s.opSt f with pos := s.cyc + linkWait })
        else if s.cyc < (s.opSt f).pos then .wait
        else send s bad
      | .fault va c => .done (((s.noteEntry f.sid f.cell b.gather (piecesTo va l)).divert f.sid f.cell f.blk.ca b va c).closeRead f.sid f.cell)
      | .bytes u d k =>
        send (u.noteEntry f.sid f.cell b.gather l) { dataToken f.w.fmt (BitVec.ofNat 512 (natOf d)) 0 with poison := k }

/-- R205 pin. With a token owed to a wave it sends its head, or the next element; else it only meets the fault of the next element. -/
def execPin (w : FabW) (s : State) : Host.Outcome State Fault Refusal :=
  s.fabric w fun f =>
    let p := s.port f.sid f.cell
    match p.head, (s.opSt f).owe with
    | t :: rest, some wave =>
      if t.kind = .drain then .wait
      else match s.pinSend f wave t fun p => { p with head := rest, eosd := p.eosd || t.kind == .eos } with
        | .done u => .done (u.closeRead f.sid f.cell)
        | r => r
    | _ :: _, none => .wait
    | [], o =>
      match p.act with
      | none => .wait
      | some b =>
        if b.write then .wait
        else if o.isNone ∧ ((s.sec f.sid).stopped ∨ p.stopping) then .wait
        else s.pinElem f b o

/-! ### pout (R206, R304) -/

/-- The stores of one written element, or what keeps it. -/
inductive Put where
  | stores (l : List (Nat × StoreKind))
  | wait
  | fault (va : Word) (c : Cause)
  | region
deriving DecidableEq, Repr

/-- The stores of an element's pieces, with their bytes; an element at a place the walk does not read writes nothing (R304). -/
def State.putPieces (s : State) (f : Fab) : List Piece → List Byte → Put
  | [], _ => .stores []
  | .mem va n :: l, d =>
    match s.xlate (s.sec f.sid).ctx f.sid va .write with
    | .hold => .wait
    | .fault => .fault va .xlateFault
    | .perm => .fault va .permission
    | .ok t =>
      if t.sf || t.ver then .fault va .permission
      else if t.isScratch && s.reserved t.phys n then .region
      else match s.putPieces f l (d.drop n) with
        | .stores r => .stores ((s.storeOwner f t, t.storeKind ((d.take n).map some)) :: r)
        | r => r
  | .slice _ n :: l, d => s.putPieces f l (d.drop n)
  | .const _ n :: l, d => s.putPieces f l (d.drop n)
  | .poison n :: l, d => s.putPieces f l (d.drop n)

/-- A token written as the next element of the port's write binding, in a wave of a block src, and then consumed. -/
def State.poutElem (s : State) (f : Fab) (b : Bind) (src : BlkRef) (wave : Nat) (a : Token) (consume : State → Fire) : Fire :=
  let p := s.port f.sid f.cell
  match p.held.map Spill.st with
  | some 0 => .wait
  | some 2 => .fault (if (p.held.map Spill.cause) = some 5 then .permission else .xlateFault) wave 0
  | _ =>
    let pieces := (s.plan f.sid b b.pos).pieces
    match s.putPieces f pieces (bytesOf 64 a.pay.toNat) with
    | .wait => .wait
    | .region => .fault .permission wave 0
    | .fault va c =>
      let r := (s.noteEntry f.sid f.cell false (piecesTo va pieces)).portFault f.sid f.cell b va c b.pos
      .done (r.2.modPort f.sid f.cell fun p => { p with held := some (spillOf b.pos va c r.1) })
    | .stores ks =>
      if ks.any fun k => s.bufFull { f with b := src } wave k.1 k.2.granule then .wait
      else
        let s1 := ks.foldl (fun (u : State) k => u.holdStore { f with b := src } wave k.1 k.2 (some f.cell)) s
        let s2 := (s1.noteEntry f.sid f.cell false pieces).modPort f.sid f.cell fun p => { p.step with held := none }
        let ended : Bool := match (s2.port f.sid f.cell).act with
          | some c => s2.plan f.sid c c.pos == .ended
          | none => false
        consume (if ended then s2.modPort f.sid f.cell PortSt.endWrite else s2)

/-- A token that a pout takes: an EOS sets EOSD, a thread token faults, and data is written once a write binding is there (R206). -/
def State.poutTake (s : State) (f : Fab) (src : BlkRef) (wave : Nat) (a : Token) (consume : State → Fire) : Fire :=
  match a.kind with
  | .eos => consume (s.modPort f.sid f.cell fun p => { p with eosd := true })
  | .thread => .fault .format wave 0
  | _ =>
    match (s.port f.sid f.cell).act with
    | some b => if b.write then s.poutElem f b src wave a consume else .wait
    | none => .wait

/-- A token that waits on a route to the pout's port: the block and exit it has left, and the token (R78; log 12). -/
def State.routedToPort (s : State) (f : Fab) : Option (BlkRef × Nat × Token) :=
  let i := s.instOf f.b
  f.sh.image.routes.findSome? fun r =>
    let b : BlkRef := { f.b with blk := r.src }
    match ((f.sh.image.blks.getD r.src {}).exitFeeder r.exit) with
    | some k =>
      if r.kind = 1 ∧ r.dst = f.cell ∧ i.siteSid (siteOf f.sh.sched r.src k) = f.sid then
        (i.chan (chanKey b r.exit 7)).head?.map fun t => (b, r.exit, t)
      else none
    | none => none

/-- The token of a route to the pout's port written like one at a, in its own wave (R78, R206; log 12). -/
def State.poutRouted (s : State) (f : Fab) : Fire :=
  match s.routedToPort f with
  | none => .wait
  | some (b, x, t) =>
    match if t.poison then Fire.fault .poison t.wave 0
      else s.poutTake f b t.wave t fun u => .done (u.modInst b fun i => i.setChan (chanKey b x 7) ((i.chan (chanKey b x 7)).drop 1)) with
    | .fault c wave elem => .done (s.regionFault { f with b := b } c wave elem)
    | r => r

/-- R206 pout. -/
def execPout (w : FabW) (s : State) : Host.Outcome State Fault Refusal :=
  s.fabric w fun f =>
    match s.fireAt f [0] fun l => s.poutTake f f.b (waveOf l) (tokAt l 0) fun u => u.pass f l [] (u.opSt f) with
    | .wait => s.poutRouted f
    | r => r

/-! ### The pin of a port -/

/-- The place of a site in a sector's instance is that sector (R9, R26). -/
def Sector.holdsSite (x : Sector) (w : Nat) (e : SchedE) : Bool := e.dy / 16 * w + e.dx / 16 == x.s6

/-- The pins of a share at a port's site. -/
def Share.pinsAt (sh : Share) (x : Sector) (q : Nat) : List (Nat × Nat) :=
  (List.range sh.image.blks.length).flatMap fun b =>
    ((sh.image.blks.getD b {}).pins.filter fun k =>
      (siteOf sh.sched b k).cell == q && x.holdsSite sh.image.w (siteOf sh.sched b k)).map fun k => (b, k)

/-- The block and slot of the pin in force at a port's site (R205, R216). -/
def State.pinOf? (s : State) (sid q : Nat) : Option (Blk × Nat) :=
  let x := s.sec sid
  [x.act, x.shadow].findSome? fun o => match o with
    | none => none
    | some sh => (sh.pinsAt x q).findSome? fun p =>
        if x.slotLive ⟨x.task, x.inst, sh.gen, sh.img, p.1⟩ p.2 (siteOf sh.sched p.1 p.2)
        then some (sh.image.blks.getD p.1 {}, p.2) else none

/-- The tag of the pin in force at a port's site (R205, R216). -/
def State.pinFmt? (s : State) (sid q : Nat) : Option (BitVec 4) := (s.pinOf? sid q).map fun p => (p.1.op p.2).w.fmt

/-- The tag of the pin in force at a port's site, raw where there is none. -/
def State.pinFmt (s : State) (sid q : Nat) : BitVec 4 := (s.pinFmt? sid q).getD 0

/-! ### SPILL_REPLAY (R372, R373) -/

/-- The spilled element that is replayed next: of those answered the one answered first (R373). -/
def PortSt.nextReplay (p : PortSt) : Option Spill :=
  (p.spill.filter fun e => e.st != 0).foldl (fun (m : Option Spill) e => match m with
    | none => some e
    | some x => if e.order < x.order then some e else m) none

/-- An entry leaves the spill queue; an element that stalled its port for want of room takes its place there (R372). -/
def PortSt.leaveSpill (p : PortSt) (e : Spill) : PortSt :=
  let l := p.spill.erase e
  match p.held with
  | some h => if p.full then { p.step with spill := l ++ [h], held := none, full := false } else { p with spill := l }
  | none => { p with spill := l }

/-- A spilled element replayed: read now, or already fetched on a resume, it becomes the pin's next firing with REPLAY set; failed, it is sent poisoned; faulting again, it waits under a new token. -/
def State.replay (s : State) (sid q : Nat) : State :=
  let p := s.port sid q
  match p.act, p.nextReplay with
  | some b, some e =>
    let rest := fun (u : State) (t : Token) =>
      (u.modPort sid q fun p => { p.leaveSpill e with head := p.head ++ [{ t with replay := true }] }).closeRead sid q
    let fmt := s.pinFmt sid q
    let pieces := (s.plan sid b e.pos).pieces
    if e.st = 2 then rest s { dataToken fmt 0 0 with poison := true }
    else match e.got with
      | some k => rest s { dataToken fmt e.data 0 with poison := k }
      | none => match s.readPieces sid pieces with
        | .bytes u d k => rest (u.noteEntry sid q b.gather pieces) { dataToken fmt (BitVec.ofNat 512 (natOf d)) 0 with poison := k }
        | .fault va c =>
          let r := (s.noteEntry sid q b.gather (piecesTo va pieces)).portFault sid q b va c e.pos
          r.2.modPort sid q fun p => { p with spill := p.spill.map fun x => if x = e then spillOf e.pos va c r.1 else x }
        | .wait u => u
        | .lost => rest s { dataToken fmt 0 0 with poison := true }
  | _, _ => s

/-- The elements of a port that were answered while its gang was saved are fetched (R252 step 3, R373). One that faults again keeps its answer, and meets its fault when it is replayed. -/
def State.fetchSpilled (s : State) (sid q : Nat) : State :=
  let p := s.port sid q
  match p.act with
  | none => s
  | some b => p.spill.foldl (fun (s : State) e =>
      if e.st = 1 ∧ e.got = none then
        let pieces := (s.plan sid b e.pos).pieces
        match s.readPieces sid pieces with
        | .bytes u d k => (u.noteEntry sid q b.gather pieces).modPort sid q fun p =>
            { p with spill := p.spill.map fun x => if x = e then { e with data := BitVec.ofNat 512 (natOf d), got := some k } else x }
        | _ => s
      else s) s

end Sys2Proof.Machine
end

