-- ==== Sys2Proof/Machine/FabricEv.lean ====
section
/-! DEFINITION. Waves (R29, R197): firing, release of shares and commit, the drain tokens of sbar (R213), the delivery of thread tokens (R79), and the replay of spilled elements. -/

namespace Sys2Proof.Machine

open Sys2Proof

/-! ### A block of an instance -/

/-- A block with its instance, task and configuration. -/
structure Bk where
  b : BlkRef
  t : Task
  i : Inst
  sh : Share
  blk : Blk
deriving DecidableEq, Repr

/-- The block that a reference names, while a configuration holds it. -/
def State.bk? (s : State) (b : BlkRef) : Option Bk :=
  match s.task? b.task, s.inst? b with
  | some t, some i =>
    match s.share? i b.gen b.img with
    | some sh => if b.blk < sh.image.blks.length then some ⟨b, t, i, sh, sh.image.blks.getD b.blk {}⟩ else none
    | none => none
  | _, _ => none

/-- The site of a slot. -/
def Bk.site (k : Bk) (slot : Nat) : SchedE := siteOf k.sh.sched k.b.blk slot

/-- The sector of a slot. -/
def Bk.sid (k : Bk) (slot : Nat) : Nat := k.i.siteSid (k.site slot)

/-- A slot that can take tokens for a new wave: in force, unmarked, its clock running (R223, R242, R256). -/
def State.slotOpen (s : State) (k : Bk) (slot : Nat) : Bool :=
  let x := s.sec (k.sid slot)
  let o := Tab.get {} k.i.ops (opKey k.b slot)
  x.slotLive k.b slot (k.site slot) && !o.marked && !(x.ends k.b && o.eosSent) &&
    !s.clockHeld (k.sid slot)

/-- The sector that holds an instance's entry queues. -/
def Inst.queueSid (i : Inst) : Nat := i.sids.headD 0

/-- An image's entry queue feeds: a token waits in it, its sources run, no marker has left it, and the chunks refused at a save are replayed (R30, R230, R241, R252). -/
def State.queueFeeds (s : State) (k : Bk) : Bool :=
  decide (Tab.get 0 k.i.free k.b.img < Tab.get 0 k.i.fill k.b.img) && !(s.sec k.i.queueSid).stopped && !s.replayingTask k.b.task &&
  match k.t.pre with
  | .markers => false
  | _ => true

/-- The thread token at the head of an entry queue. -/
def State.queueHead (s : State) (k : Bk) : Token :=
  let a := k.i.queueSlot k.b.img (Tab.get 0 k.i.free k.b.img)
  { kind := .thread, pay := BitVec.ofNat 512 (s.rdWord a).toNat, poison := s.isPoison a }

/-- The token that a source entry holds at its head (R197). -/
def State.entryHead (s : State) (k : Bk) (e : Nat) : Option Token :=
  if k.sh.image.routed k.b.blk e then (k.i.chan (chanKey k.b e 6)).head?
  else if s.queueFeeds k then some (s.queueHead k)
  else none

/-- Room for one more token in a channel of the block. -/
def Bk.room (k : Bk) (slot pos : Nat) : Bool :=
  decide ((k.i.chan (chanKey k.b slot pos)).length < 2 + passRoom (k.blk.opc slot))

/-! ### Drain tokens (R213) -/

/-- The exits that a slot reaches along targets. -/
def Blk.exitsFrom (b : Blk) (slot : Nat) : List Nat :=
  ((slot :: b.reachN b.n (b.op slot).w.nextSlots.eraseDups).flatMap fun k => fedExits (b.op k)).eraseDups

/-- A drain token goes on from a source slot: one to each exit's destination it reaches, once per sbar; at a terminal or an entry queue it ends. -/
def State.forwardDrain (s : State) (k : Bk) (slot id : Nat) : State :=
  (k.blk.exitsFrom slot).foldl (fun (s : State) x =>
    match k.sh.image.routes.find? fun r => r.src == k.b.blk && r.exit == x && r.kind == 0 with
    | none => s
    | some r => s.modInst k.b fun i =>
        let seen := (waveKey k.b, x, id)
        if i.drained.contains seen then i
        else
          let key := chanKey { k.b with blk := r.dst } r.ent 6
          { i.setChan key (i.chan key ++ [drainToken id]) with drained := i.drained ++ [seen] }) s

/-- The drain token at a list's head. -/
def drainHead : List Token → Option Nat
  | t :: _ => if t.kind = .drain then some t.pay.toNat else none
  | [] => none

/-- Every wave of a block has committed, with its stores released, and so has every one of an earlier configuration of its instance. -/
def Task.idle (t : Task) (b : BlkRef) : Bool :=
  let mine := fun (c : BlkRef) => c == b || (c.inst == b.inst && decide (c.gen < b.gen))
  !(t.wrecs.any fun r => mine r.b) && !(t.stores.any fun p => mine p.b)

/-- The drain tokens at the sources of a block pass once its waves have committed (R213). -/
def State.passDrains (s : State) (b : BlkRef) : State :=
  match s.bk? b with
  | none => s
  | some k =>
    if !k.t.idle b then s
    else
      let s1 := (k.sh.image.srcEntries b.blk).foldl (fun (s : State) e =>
        let key := chanKey b e 6
        match drainHead ((s.instOf b).chan key) with
        | some id => (s.modInst b fun i => i.setChan key ((i.chan key).drop 1)).forwardDrain k (k.blk.entrySlot e) id
        | none => s) s
      k.blk.pins.foldl (fun (s : State) p =>
        let sid := k.sid p
        let q := (k.site p).cell
        if !(s.sec sid).slotLive b p (k.site p) then s
        else match drainHead (s.port sid q).head with
          | some id => (s.modPort sid q fun p => { p with head := p.head.drop 1 }).forwardDrain k p id
          | none => s) s1

/-! ### WAVE_FIRE (R29, R197) -/

/-- A source holds a token that a wave can take, and its slot has room. -/
def State.sourcesReady (s : State) (k : Bk) : Bool :=
  ((k.sh.image.srcEntries k.b.blk).all fun e =>
    let slot := k.blk.entrySlot e
    s.slotOpen k slot && k.room slot 0 && match s.entryHead k e with
      | some t => t.kind != .drain
      | none => false) &&
  (k.blk.pins.all fun p =>
    s.slotOpen k p && (Tab.get {} k.i.ops (opKey k.b p)).owe.isNone && s.pinHas (k.sid p) (k.site p).cell) &&
  (k.blk.waveConsts.all fun c => k.room c 4)

/-- The block has a source (R197). -/
def Bk.hasSource (k : Bk) : Bool := !(k.sh.image.srcEntries k.b.blk).isEmpty || !k.blk.pins.isEmpty

/-- A wave fires: each source gives one token, each pin owes one, and the consts that fire once per wave are triggered. -/
def State.fireWave (s : State) (k : Bk) : State :=
  let w := Tab.get 0 k.i.waves (waveKey k.b)
  let s1 := (k.sh.image.srcEntries k.b.blk).foldl (fun (s : State) e =>
    match s.entryHead k e with
    | none => s
    | some t => s.modInst k.b fun i =>
        let i1 := if k.sh.image.routed k.b.blk e then
            let key := chanKey k.b e 6
            i.setChan key ((i.chan key).drop 1)
          else { i with free := Tab.set 0 i.free k.b.img (Tab.get 0 i.free k.b.img + 1) }
        let key := chanKey k.b (k.blk.entrySlot e) 0
        i1.setChan key (i1.chan key ++ [t.at w])) s
  let s2 := s1.modInst k.b fun i =>
    let i1 := k.blk.pins.foldl (fun (i : Inst) p =>
      { i with ops := Tab.set {} i.ops (opKey k.b p) { Tab.get {} i.ops (opKey k.b p) with owe := some w } }) i
    let i2 := k.blk.waveConsts.foldl (fun (i : Inst) c =>
      i.setChan (chanKey k.b c 4) (i.chan (chanKey k.b c 4) ++ [dataToken 0 0 w])) i1
    { i2 with
      waves := Tab.set 0 i2.waves (waveKey k.b) (w + 1)
      host := i2.host.map fun h => if k.sh.image.qv && k.sh.image.qblk == k.b.blk then { h with fired := h.fired + 1 } else h }
  s2.modTask k.b.task fun t => { t with wrecs := t.wrecs ++ [({ b := k.b, w := w, awc := k.blk.awc } : WaveRec)] }

/-- R29, R197 WAVE_FIRE. -/
def execWaveFire (b : BlkRef) (s : State) : Host.Outcome State Fault Refusal :=
  let s1 := s.passDrains b
  match s1.bk? b with
  | none => .next s1
  | some k => if k.t.fires && k.hasSource && s1.sourcesReady k then .next (s1.fireWave k) else .next s1

/-! ### Commit (R29, R108) -/

/-- The backing line of a version creation. -/
def StoreKind.line? : StoreKind → Option Nat
  | .version i pw frame off _ => some (Tgt.line ⟨some i, pw, frame, off, 0⟩)
  | _ => none

/-- A version creation among stores released together waits while its line has no room for all of them (R325). -/
def State.storeHeld (s : State) (l : List PStore) (p : PStore) : Bool :=
  match p.k.line? with
  | some a => decide (4 < s.vNext a - s.vFloor a + (l.filter fun q => q.k.line? == some a).length)
  | none => false

/-- The scratch cell that a held store is bound for. -/
def PStore.cell (p : PStore) : Nat :=
  match p.k with
  | .bytes a _ => a % 2 ^ 22 / 2 ^ 15
  | _ => 0

/-- An old owner has not sent its HANDOVER token: a store of the cell that it accepted before the swap is still in its buffer (R323). -/
def Task.owes (t : Task) (h : HandOver) : Bool :=
  t.stores.any fun q => q.owner == ownerCode h.sid h.old && q.cell == h.cell && decide (q.seq < h.seq)

/-- A store to a cell whose old owner still owes its hand-over is held (R323). -/
def State.handHeld (s : State) (p : PStore) : Bool :=
  p.owner != noOwner && match s.task? p.b.task with
  | some t => (s.instOf p.b).hands.any fun h =>
      ownerCode h.sid h.new == p.owner && p.cell == h.cell && decide (h.seq ≤ p.seq) && t.owes h
  | none => false

/-- The place of a held store on a page; none for bytes of the sector's own scratch. -/
def StoreKind.tgt? : StoreKind → Option Tgt
  | .bytes _ _ => none
  | .page i pw frame off _ => some ⟨some i, pw, frame, off, pagePhys pw frame off⟩
  | .version i pw frame off _ => some ⟨some i, pw, frame, off, 0⟩

/-- The bytes of its page that a held store touches. -/
def StoreKind.size : StoreKind → Nat
  | .bytes _ l => l.length
  | .page _ _ _ _ l => l.length
  | .version _ _ _ _ _ => 8

/-- A held store of a task changed. -/
def State.modStore (s : State) (p : PStore) (g : PStore → PStore) : State :=
  s.modTask p.b.task fun t => { t with stores := t.stores.map fun q => if q = p then g q else q }

/-- The context holds the sector that a scratch-mapped place names (R360, R381). -/
def State.holdsMapped (s : State) (c : BitVec 8) (t : Tgt) : Bool :=
  pwKind t.pw != 2 || ((s.sec (bitsAt t.frame 56 8)).v && (s.sec (bitsAt t.frame 56 8)).ctx == c)

/-- A store through a page that maps a sector which its context does not hold reports its XLATE_FAULT, and waits for the answer (R320, R370, R372, R381). -/
def State.askStore (s : State) (t : Task) (p : PStore) (a : Tgt) : State :=
  let va := BitVec.ofNat 64 ((Tab.get {} (s.ctx t.ctx).rt (a.idx.getD 0)).vbase + a.off)
  let r := s.faultRec t.ctx t.id t.idx p.sid va .xlateFault (if p.port.isSome then 0 else 3) 1 p.unit p.aux 5 (some ⟨p.b, p.slot⟩)
  r.2.modStore p fun q => { q with ask := some r.1 }

/-- The task whose store stands at such a page, while it runs: one that fails asks no more (R420). -/
def State.strayStore (s : State) (p : PStore) (a : Tgt) : Option Task := (s.task? p.b.task).filter fun t => t.runs && !s.holdsMapped t.ctx a

/-- What a store meets on its way to its home: a mapped sector that its context does not hold (R381), a module out of reach, for which it waits (R395), and the errors of its transfer (R404, R405, R424). -/
def State.meetStore (s : State) (p : PStore) : Strike :=
  match p.k.tgt? with
  | none => .go s
  | some t =>
    match s.strayStore p t with
    | some k => .wait (if p.ask.isSome then s else s.askStore k p t)
    | none =>
    if s.unreachable t then
      match p.due with
      | none => .wait (s.modStore p fun q => { q with due := some (s.cyc + linkWait) })
      | some d => if s.cyc < d then .wait s else .bad s
    else s.strike p.sid t p.k.size

/-- Stores about to be released meet what waits for them, one after another; a contained one is marked. The answer says whether all of them can be released. -/
def State.meetStores (s : State) : List PStore → Bool × State
  | [] => (true, s)
  | p :: l =>
    if p.bad then s.meetStores l
    else match s.meetStore p with
      | .go u => u.meetStores l
      | .wait u => (false, u)
      | .bad u => (u.modStore p fun q => { q with bad := true }).meetStores l

/-- A store that is not performed: its granules are poisoned (R405), or it is reported where it could not reach its module (R395, R414). -/
def State.lostStore (s : State) (c : BitVec 8) (p : PStore) : State :=
  match p.k.tgt? with
  | none => s
  | some t =>
    if t.ext then
      s.errorRec c (((s.task? p.b.task).map Task.idx).getD 0) p.sid (BitVec.ofNat 64 ((Tab.get {} (s.ctx c).rt (t.idx.getD 0)).vbase)) 0
    else if t.ver then s.poisonRun t.line 64
    else s.poisonRun t.phys p.k.size

/-- A store performed at its release (R269, R322, R325). On a read-duplicated page it is released when its last acknowledgement has arrived, so that its wave's stores are performed together (R29, R282). A failed task's store through a page that maps a sector which its context no longer holds is discarded (R381, R420). DEDUCED (log 103, 114). -/
def State.release (s : State) (p : PStore) : State :=
  let c := ((s.task? p.b.task).map Task.ctx).getD 0
  if p.bad then s.lostStore c p
  else match p.k with
    | .bytes a l => s.wrSome a l
    | .page i pw frame off l =>
      let t : Tgt := ⟨some i, pw, frame, off, pagePhys pw frame off⟩
      if s.holdsMapped c t then s.wrSome t.phys l else s
    | .version i pw frame off v => s.vCreate (Tgt.line ⟨some i, pw, frame, off, 0⟩) v

/-- Listed stores performed in the order given and taken from the task; then comes what their versions set off (R183). -/
def State.releaseAll (s : State) (task : Nat) (l : List PStore) : State :=
  let t := (l.foldl (fun (s : State) p => s.release p) s).modTask task fun t => { t with stores := t.stores.filter fun p => !l.contains p }
  let lines := (l.filter fun p => !p.bad).filterMap fun p => p.k.line?
  if lines.isEmpty then t else t.settleAt lines

/-- The stores of a wave. -/
def Task.storesOf (t : Task) (b : BlkRef) (w : Nat) : List PStore := t.stores.filter fun p => p.b == b && p.wave == w

/-- A wave's flags join FLAGS and its record goes; drain tokens pass (R29, R108). -/
def State.commit (s : State) (b : BlkRef) (r : WaveRec) : State :=
  ((s.commitFlags r.flags).modTask b.task fun t => { t with wrecs := t.wrecs.erase r }).passDrains b

/-- The waves of a block commit in wave order. -/
def Task.isFirst (t : Task) (b : BlkRef) (w : Nat) : Bool := !(t.wrecs.any fun r => r.b == b && decide (r.w < w))

/-- The first wave of a block whose last share has been released (R29). -/
def Task.released? (t : Task) (b : BlkRef) : Option WaveRec :=
  t.wrecs.find? fun r => r.b == b && r.released && t.isFirst b r.w && (t.storesOf b r.w).isEmpty

/-- The commit of a wave is complete when its last share has been released, and then that of the waves that wait for it alone (R29). -/
def State.commitReleased (b : BlkRef) : Nat → State → State
  | 0, s => s
  | n + 1, s =>
    match (s.task? b.task).bind fun t => t.released? b with
    | some r => State.commitReleased b n (s.commit b r)
    | none => s

/-- A wave that has fired, with its task and the instance of its block; its configuration need not be in force any more (R234). -/
def State.wave? (s : State) (b : BlkRef) (w : Nat) : Option (Task × Inst × WaveRec) :=
  match s.task? b.task, s.inst? b with
  | some t, some i => (t.wave? b w).map fun r => (t, i, r)
  | _, _ => none

/-- A task's owners release stores: it runs, or it has failed and they hold those of waves that had fired whole (R29, R419). -/
def Task.releases (t : Task) : Bool := t.fires || t.st == .failing

/-- The listed stores of a task as it holds them now. -/
def State.wanted (s : State) (task : Nat) (l : List PStore) : List PStore :=
  ((s.task? task).elim [] Task.stores).filter fun p => l.any fun q => q.seq == p.seq

/-- R29 WAVE_COMMIT: with atomic commit every store is released in one step; a wave without stores commits once its slots have fired. -/
def execWaveCommit (b : BlkRef) (w : Nat) (s : State) : Host.Outcome State Fault Refusal :=
  match s.wave? b w with
  | none => .next s
  | some (t, i, r) =>
    let l := t.storesOf b w
    if !t.releases || !t.isFirst b w || !i.waveDone b w then .next s
    else if l = [] then .next (s.commit b r)
    else if !r.awc || l.any (fun p => s.storeHeld l p || s.handHeld p) then .next s
    else match s.meetStores l with
      | (false, u) => .next u
      | (true, u) => .next ((u.releaseAll b.task (u.wanted b.task l)).commit b r)

/-- The stores of a wave that one owner holds, its share. -/
def shareOf (t : Task) (b : BlkRef) (w owner : Nat) : List PStore := (t.storesOf b w).filter fun p => p.owner == owner

/-- Stores of a share released; with the last share of its wave the commit is complete (R29). -/
def State.releaseShare (s : State) (b : BlkRef) (w : Nat) (l : List PStore) : State :=
  let s1 := (s.releaseAll b.task l).modWave b w fun r => { r with released := true }
  State.commitReleased b (((s1.task? b.task).elim [] Task.wrecs).length) s1

/-- R29 OWNER_SHARE_RELEASE: an owner releases its share of a wave once every slot of the wave has fired, in wave order; stores without an owner are released one by one, since a version may wait for the one before it. -/
def execOwnerShareRelease (b : BlkRef) (w : Nat) (owner : Nat) (s : State) : Host.Outcome State Fault Refusal :=
  match s.wave? b w with
  | none => .next s
  | some (t, i, r) =>
    let l := shareOf t b w owner
    let earlier := t.stores.any fun p => p.b == b && p.owner == owner && decide (p.wave < w)
    if !t.releases || r.awc || earlier || !i.waveDone b w then .next s
    else if owner = noOwner then
      match l with
      | p :: _ =>
        if s.storeHeld [p] p then .next s
        else match s.meetStores [p] with
          | (false, u) => .next u
          | (true, u) => .next (u.releaseShare b w (u.wanted b.task [p]))
      | [] => .next s
    else if l.isEmpty || l.any (fun p => s.handHeld p) then .next s
    else .next (s.releaseShare b w l)

/-! ### THREAD_TOKEN_DELIVERY (R30, R79) -/

/-- The place of a sector on the module: the dies stand two by two (R9, and the placing of the dies before R7). -/
def sectorAt (sid : Nat) : Nat × Nat := (sid / 64 % 2 * 8 + sid % 8, sid / 128 * 8 + sid % 64 / 8)

/-- Two sectors lie side by side, on one die or across a die-to-die link. -/
def besides (a b : Nat) : Bool :=
  let p := sectorAt a
  let q := sectorAt b
  (max p.1 q.1 - min p.1 q.1) + (max p.2 q.2 - min p.2 q.2) == 1

/-- The dies that a packet from one die to another crosses: between dies that lie diagonally FD1 for FD0 and FD3, and FD0 for FD1 and FD2 (R7). -/
def pathDies (a b : Nat) : List Nat := [a, b] ++ (if a + b = 3 then [if a = 0 ∨ b = 0 then 1 else 0] else [])

/-- The sectors of some dies that are reached from some over sectors that a context holds, in at most so many rounds. -/
def State.spreadHeld (s : State) (c : BitVec 8) (dies : List Nat) : Nat → List Nat → List Nat
  | 0, l => l
  | n + 1, l =>
    let more := (List.range 256).filter fun k =>
      (s.sec k).v && (s.sec k).ctx == c && dies.contains (dieOf k) && !l.contains k && l.any (besides k)
    if more.isEmpty then l else s.spreadHeld c dies n (l ++ more)

/-- A packet can go from a gate to a queue over routers that carry the context of its gang, on the dies of its path (R7, R79, R382). The path within a die is the model's own (log 117). -/
def State.linked (s : State) (c : BitVec 8) (a b : Nat) : Bool :=
  a == b || (s.spreadHeld c (pathDies (dieOf a) (dieOf b)) 256 [a]).contains b

/-- A thread token written into the next slot of its entry queue, in the order it left its gate. A poisoned one poisons the granule of its slot, since scratch marks poison by the granule (R410; log 117). -/
def execThreadTokenDelivery (task pkt : Nat) (s : State) : Host.Outcome State Fault Refusal :=
  match s.task? task with
  | none => .next s
  | some t =>
    match t.packets.find? fun p => p.id == pkt with
    | none => .next s
    | some p =>
      let i := t.insts.getD p.inst {}
      let fill := Tab.get 0 i.fill p.img
      let first := (t.packets.find? fun q => q.gate == p.gate && q.inst == p.inst && q.img == p.img) == some p
      let a := i.queueSlot p.img fill
      let s1 := s.wrWord a p.pay
      if !t.runs || !first || decide (Tab.get 0 i.qlen p.img ≤ fill - Tab.get 0 i.free p.img) || !s.linked t.ctx p.gate i.queueSid then .next s
      else .next ((if p.poison then s1.setPoison a true else s1).modTask task fun t =>
        { t with
          packets := t.packets.erase p
          insts := t.insts.modify p.inst fun i => { i with fill := Tab.set 0 i.fill p.img (fill + 1) } })

/-- R372, R373 SPILL_REPLAY. -/
def execSpillReplay (sid : BitVec 8) (q : Port) (s : State) : Host.Outcome State Fault Refusal := .next (s.replay sid.toNat q.toNat)

end Sys2Proof.Machine
end

