-- ==== Sys2Proof/Machine/PreemptOps.lean ====
section
/-! DEFINITION. The first steps of a pre-emption (R239 to R241, R244): the request, the notice, the stop of the threads and the markers at the sources. -/

namespace Sys2Proof.Machine

open Sys2Proof

/-- A thread that stands between two words or inside a wait stops there, and a notice not yet taken is no longer pending; one whose trap has no record yet stands at no pre-emption point (R240, R252, R411). -/
def Thread.stopHere (t : Thread) : Thread :=
  match t.wait with
  | .record _ => t
  | _ => { t with stopped := true, notice := none }

/-- The threads of a gang stop, and once all have stopped its sources send their markers (R239 steps 3 and 4, R240). -/
def State.startMarkers (s : State) (t : Task) : State :=
  let s1 := s.modSecs t.sids fun x => { x with th := x.th.stopHere }
  s1.setTask { t with pre := if t.sids.all fun k => (s1.sec k).th.stopped then .markers else .threads }

/-- A pre-emption of a gang requested by one of its threads (R239 step 1, R245): it ends a grace period, and joins a pre-emption in progress. -/
def State.markRequest (s : State) (task : Nat) : State :=
  match s.task? task with
  | none => s
  | some t =>
    match t.pre with
    | .none => s.startMarkers t
    | .notice _ => s.startMarkers t
    | _ => s

/-- A context has a free save record for every sector of a gang, beside those held and those that its gangs being pre-empted are still to take at their snapshots (R379). -/
def State.saveRoom (s : State) (t : Task) : Bool :=
  let used := (s.saves.filter fun r => r.ctx == t.ctx).length
  let coming := s.tasks.foldl (fun n (u : Task) => if u.ctx = t.ctx ∧ u.pre ≠ .none ∧ u.pre ≠ .snapped then n + u.nsect else n) 0
  decide (used + coming + t.nsect ≤ (s.ctx t.ctx).saven)

/-- The grace period of a context in CYC (R244). -/
def Ctx.graceCyc (x : Ctx) : Nat := 1024 * max x.grace.toNat 1

/-- A pre-emption of a gang requested by the scheduler (R239 steps 1 and 2, R244): with NOTICE every thread is to take PREEMPT_NOTICE. -/
def State.schedRequest (s : State) (task : Nat) : State :=
  match s.task? task with
  | none => s
  | some t =>
    if t.pre ≠ .none ∨ !t.runs ∨ !s.saveRoom t then s
    else
      let x := s.ctx t.ctx
      if x.noticeOn then
        let d := s.cyc + x.graceCyc
        (s.setTask { t with pre := .notice d }).modSecs t.sids fun y =>
          { y with th := { y.th with notice := if y.th.halted then none else some d } }
      else s.startMarkers t

end Sys2Proof.Machine
end

