-- ==== Sys2Proof/Machine/StreamCtl.lean ====
section
/-! DEFINITION. The stream instructions (R211 to R216, R303), mark (R245), and the completion of sbar (R213). -/

namespace Sys2Proof.Machine

open Sys2Proof

/-! ### sbind (R212, R303) -/

/-- The first check of R303: sizes and alignment. -/
def Desc.bindAligned (d : Desc) (v : Word) : Bool :=
  if d.tag = tagPattern then true
  else if d.win then decide (d.base % d.esz = 0) && decide (v.toNat % d.esz = 0)
  else d.esz == 64 && decide (d.base % 64 = 0) && ((List.range d.dims).all fun k => d.stride k % 64 == 0) && decide (v.toNat % 64 = 0)

/-- The second check of R303: a pattern. -/
def State.bindPattern (s : State) (d : Desc) (q : Port) (v : Word) (write : Bool) : Bool :=
  d.tag != tagPattern || (!write && slicePort (dieOf s.cur) (d.fld 0 0 7) == (s.cur, q.toNat) && v == 0)

/-- The third check of R303: an index list. -/
def Desc.bindIndex (d : Desc) (write : Bool) : Bool := d.tag == tagPattern || d.win || !d.idx || !write

/-- The port entry filled from the element at a binding's first position; a gather stream uses none (R367). -/
def State.noteFirst (s : State) (sid q : Nat) (b : Bind) : State :=
  if b.gather then s else s.noteEntry sid q false (((s.plan sid b 0).pieces.filter fun p => p.addr?.isSome).take 1)

/-- A binding given to a port (R211, R212): active where it has none, else pending, else it waits. The port's accesses follow the thread's earlier ones. A port entry is filled from the element at the first position (R367). -/
def State.sbind (s : State) (q : Port) (d : Desc) (v : Word) (write eos : Bool) : Res State :=
  let p := s.port s.cur q.toNat
  if d.tag ≠ tagTmap ∧ d.tag ≠ tagPattern then tagTrap d
  else if !d.bindAligned v then .trap .handle 0x201
  else if !s.bindPattern d q v write then .trap .handle 0x202
  else if !d.bindIndex write then .trap .handle 0x203
  else if (p.act.isSome && p.pend.isSome) || !s.writesDone s.cur then .hold
  else
    let b : Bind := { desc := d, base := v, write := write, eos := eos, id := s.nextId }
    let s1 : State := { s with nextId := s.nextId + 1 }
    .ok ((if p.act.isNone then s1.modPort s.cur q.toNat fun p => { p with act := some b, eosd := p.eosd && !write }
      else s1.modPort s.cur q.toNat fun p => { p with pend := some b }).noteFirst s.cur q.toNat b).advance

/-- R212 sbind.rd. -/
def execSbindRd (q : Port) (dr : DReg) (ra : Reg) (eos : Bool) (s : State) : Host.Outcome State Fault Refusal :=
  s.finish (s.sbind q (s.rdD dr) (s.rdS ra) false eos)
/-- R212 sbind.wr. -/
def execSbindWr (q : Port) (dr : DReg) (ra : Reg) (s : State) : Host.Outcome State Fault Refusal :=
  s.finish (s.sbind q (s.rdD dr) (s.rdS ra) true false)

/-! ### sbar (R213) -/

/-- The ports that an sbar names. -/
def barPorts : BarSel → List Nat
  | .port q => [q.toNat]
  | .all => List.range 128

/-- A read binding is held. -/
def PortSt.reads (p : PortSt) : Bool := (p.act.any fun b => !b.write) || (p.pend.any fun b => !b.write)

/-- A write binding is held. -/
def PortSt.writes (p : PortSt) : Bool := (p.act.any fun b => b.write) || (p.pend.any fun b => b.write)

/-- The drain token of an sbar is still on its way in the task's fabric. -/
def State.draining (s : State) (sid id : Nat) : Bool :=
  let x := s.sec sid
  let mine := fun (l : List Token) => l.any fun t => t.kind == .drain && t.pay.toNat == id
  (x.ports.any fun p => mine p.2.head || p.2.bars.contains id) ||
  match s.task? x.task with
  | some t => t.insts.any fun i => i.chans.any fun c => mine c.2
  | none => false

/-- Some element that a port of a sector has written is not released (R213). -/
def State.unreleased (s : State) (sid q : Nat) : Bool :=
  match s.task? (s.sec sid).task with
  | some t => t.stores.any fun p => p.sid == sid && p.port == some q
  | none => false

/-- The ports named have drained (R213). -/
def State.drained (s : State) (sid id : Nat) (ports : List Nat) : Bool :=
  (ports.all fun q => let p := s.port sid q
    !p.reads && !p.writes && !s.unreleased sid q) && !s.draining sid id

/-- The read ports named note the sbar, whose drain token follows their last element (R213). -/
def State.noteBar (s : State) (id : Nat) (ports : List Nat) : State :=
  ports.foldl (fun (s : State) q =>
    if (s.port s.cur q).reads then s.modPort s.cur q fun p => { p with bars := p.bars ++ [id] } else s) s

/-- R213 sbar: it waits for the ports that hold a binding when it starts; one with none is drained at once, also where the last wave of an ended binding has stores to release, of which R340's Test 10 lets no later load miss one: the model takes R213's sentence. DESIGN CHOICE (log 132). -/
def execSbar (sel : BarSel) (s : State) : Host.Outcome State Fault Refusal :=
  match s.th.wait with
  | .bar id ports => .next (if s.drained s.cur id ports then s.advance else s)
  | _ =>
    let id := s.nextId
    let ports := (barPorts sel).filter fun q => (s.port s.cur q).reads || (s.port s.cur q).writes
    let s1 := ({ s with nextId := id + 1 }.noteBar id ports).setWait (.bar id ports)
    .next (if s1.drained s1.cur id ports then s1.advance else s1)

/-- The blocks of a task that a configuration in force or armed holds. -/
def State.taskBlocks (s : State) (t : Task) : List BlkRef :=
  t.insts.zipIdx.flatMap fun p =>
    (((p.1.sids.flatMap fun k => ([(s.sec k).act, (s.sec k).shadow]).filterMap id).map fun (sh : Share) =>
      (sh.gen, sh.img, sh.image.blks.length)).eraseDups).flatMap fun c =>
      (List.range c.2.2).map fun b => ⟨t.id, p.2, c.1, c.2.1, b⟩

/-- The drain tokens of a task's blocks pass where they can. -/
def State.passAll (s : State) (task : Nat) : State :=
  match s.task? task with
  | some t => (s.taskBlocks t).foldl (fun (s : State) b => s.passDrains b) s
  | none => s

/-- R213 SBAR_COMPLETE: the drain tokens of a waiting thread's task go on, and its sbar completes once they have all arrived. -/
def execSbarComplete (sid : BitVec 8) (s : State) : Host.Outcome State Fault Refusal :=
  match (s.passAll (s.sec sid.toNat).task).ctlTurn sid.toNat with
  | .exec (.sbar sel) u =>
    match u.th.wait with
    | .bar _ _ => execSbar sel u
    | _ => .next s
  | _ => .next s

/-! ### seos (R214) -/

/-- A read port that seos has stopped has sent every element that it had begun. -/
def PortSt.sentAll (p : PortSt) : Bool := p.spill.isEmpty && p.held.isNone && !(p.head.any fun t => t.kind == .data)

/-- Both read bindings end, and one EOS follows the last element sent (R214). -/
def PortSt.stopRead (p : PortSt) (pos : Nat) : PortSt :=
  { p with
    act := none, pend := none, lastPos := pos, eosd := false, stopping := false
    head := p.head ++ [eosToken 0] ++ p.bars.map drainToken, bars := [] }

/-- R214 seos. -/
def execSeos (rd : Reg) (q : Port) (s : State) : Host.Outcome State Fault Refusal :=
  let p := s.port s.cur q.toNat
  match p.act with
  | none => .next (s.wrS rd 0).advance
  | some b =>
    if b.write then .next ((s.modPort s.cur q.toNat PortSt.endWrite).wrS rd (BitVec.ofNat 64 b.pos)).advance
    else if p.sentAll then .next ((s.modPort s.cur q.toNat fun p => p.stopRead b.pos).wrS rd (BitVec.ofNat 64 b.pos)).advance
    else .next (s.modPort s.cur q.toNat fun p => { p with stopping := true })

/-! ### tinj (R216) -/

/-- The payload of an injected data token. -/
def injPay (a b : Word) (bcast : Bool) : Pay :=
  if bcast then payOf 32 (List.replicate 16 (a.toNat % 2 ^ 32)) else BitVec.ofNat 512 (a.toNat + 2 ^ 64 * b.toNat)

/-- R216 tinj.data: it waits for a port without a read binding under an active pin whose output is free. -/
def execTinjData (q : Port) (ra rb : Reg) (tag : BitVec 4) (bcast : Bool) (s : State) : Host.Outcome State Fault Refusal :=
  let p := s.port s.cur q.toNat
  if p.reads || (s.pinFmt? s.cur q.toNat).isNone || !p.head.isEmpty then .next s
  else .next (s.modPort s.cur q.toNat fun p => { p with head := [dataToken tag (injPay (s.rdS ra) (s.rdS rb) bcast) 0] }).advance

/-- An image of the acting gang, hosted ones included, whose entry sets QV (R77, R216). -/
def State.queueImage (s : State) (k : Word) : Bool :=
  match s.task? (s.sec s.cur).task, s.ownObj with
  | some t, some o =>
    (t.insts.any fun i => i.img == k.toNat || i.host.any fun h => h.cands.contains k.toNat) &&
      ((o.images[k.toNat]?).map Image.qv).getD false
  | _, _ => false

/-- R79, R216 tinj.thread: it waits while its gate holds two tokens for that queue. -/
def execTinjThread (ra rb : Reg) (s : State) : Host.Outcome State Fault Refusal :=
  let k := s.rdS rb
  let x := s.sec s.cur
  s.finish (if !s.queueImage k then .trap .handle k
    else match s.toGate x.task s.cur x.inst k.toNat 2 (s.rdS ra) false with
      | none => .hold
      | some t => .ok t.advance)

/-! ### sstat (R215) -/

/-- The port status word; an element in the spill queue, or replayed and not sent yet, does not count in POS (R372). -/
def PortSt.status (p : PortSt) : Word :=
  let b := fun (x : Bool) (n : Nat) => if x then 2 ^ n else 0
  let dir := match p.act with
    | none => 0
    | some a => if a.write then 2 else 1
  let pos := match p.act with
    | none => p.lastPos
    | some a => a.pos - p.spill.length - (p.head.filter Token.replay).length
  let flt : Bool := (p.held.toList ++ p.spill).any fun e => e.st == 0
  BitVec.ofNat 64 (p.spill.length * 2 ^ 48 + b flt 47 + dir * 2 ^ 45 + b p.pend.isSome 44 + b p.act.isSome 43 + b p.eosd 42 + pos % 2 ^ 40)

/-- R215 sstat. -/
def execSstat (rd : Reg) (q : Port) (s : State) : Host.Outcome State Fault Refusal :=
  .next (s.wrS rd (s.port s.cur q.toNat).status).advance

/-! ### mark (R245) -/

/-- R245 mark: the gang's pre-emption starts, and the thread stops at the word after it; sd is written on resume. It waits while the context has no free save records for the gang (R379). -/
def execMark (rd : Reg) (s : State) : Host.Outcome State Fault Refusal :=
  match s.task? (s.sec s.cur).task with
  | none => .next s
  | some t =>
    if t.pre = .none ∧ !s.saveRoom t then .next s
    else .next ((s.advance.modTh fun t => { t with markSd := some rd }).markRequest t.id)

end Sys2Proof.Machine
end

