-- ==== Sys2Proof/Machine/Swap.lean ====
section
/-! DEFINITION. What swapping a configuration does: quiescence (R229), the owners of scratch cells and their hand-over (R268, R323), the activation of a site (R231), switch groups (R233, R234, R238), and the tokens that stand behind an EOS (R234, R235). -/

namespace Sys2Proof.Machine

open Sys2Proof

/-! ### Quiescence (R229) -/

/-- A rectangle is quiescent: its channels are empty, its waves have committed and released their stores, no pin holds an element, and no token is on its way to or from it to an entry queue. -/
def State.quiescent (s : State) (t : Task) (k : Nat) : Bool :=
  let i := t.insts.getD k {}
  i.chans.isEmpty && !(t.wrecs.any fun r => r.b.inst == k) && !(t.stores.any fun p => p.b.inst == k) &&
    !(t.packets.any fun p => p.inst == k || i.sids.contains p.gate) &&
    !(i.ops.any fun o => o.2.hold.isSome || !o.2.outq.isEmpty || o.2.owe.isSome) &&
    i.sids.all fun sid => (s.sec sid).ports.all fun q => !(q.2.head.any fun a => a.kind == .data)

/-! ### Owners (R268, R322, R323) -/

/-- The shares of a sector that hold slots in force: the active one and an armed shadow. -/
def Sector.shares (x : Sector) : List Share := x.act.toList ++ (if x.shSt = .armed then x.shadow.toList else [])

/-- The claims of own in force in a sector, each a scratch cell with its owner. -/
def Sector.claims (x : Sector) : List (Nat × Nat) :=
  x.shares.flatMap fun sh => (List.range sh.image.blks.length).flatMap fun b =>
    let blk := sh.image.blks.getD b {}
    (List.range blk.n).filterMap fun k =>
      let w := (blk.op k).w
      let e := siteOf sh.sched b k
      if blk.opc k = 0x61 ∧ w.x.getLsbD 1 ∧ x.holdsSite sh.image.w e ∧ x.slotLive ⟨x.task, x.inst, sh.gen, sh.img, b⟩ k e then
        some (w.x.toNat / 4 % 128, e.cell)
      else none

/-- The owner that the slots in force name for a cell; by default its own node. A claim in force stays. -/
def Sector.namedOwner (x : Sector) (cl : List (Nat × Nat)) (c : Nat) : Nat :=
  if cl.contains (c, x.owner c) then x.owner c else ((cl.find? fun p => p.1 == c).map Prod.snd).getD c

/-- OWNQ of every cell of a sector set after a change of slots in force. An old owner with stores of the cell in its buffer owes a HANDOVER token. -/
def State.reown (s : State) (sid : Nat) : State :=
  let x := s.sec sid
  let cl := x.claims
  let q : Tab Nat := (List.range 128).map fun c => (c, x.namedOwner cl c)
  let t := (s.task? x.task).getD { id := 0, launch := 0, ctx := 0, idx := 0 }
  let hands := ((List.range 128).filterMap fun c =>
    if x.owner c = x.namedOwner cl c then none
    else some ({ sid := sid, cell := c, old := x.owner c, new := x.namedOwner cl c, seq := s.nextId } : HandOver)).filter fun h => t.owes h
  { s with nextId := s.nextId + 1 }.modSec sid (fun x => { x with ownq := q })
    |>.modTask x.task fun t => { t with insts := t.insts.modify x.inst fun i => { i with hands := (i.hands.filter fun h => t.owes h) ++ hands } }

/-! ### Sites (R231) -/

/-- The place in its rectangle of site k of a sector, for an image of width w. -/
def Sector.place (x : Sector) (w site : Nat) : SchedE :=
  { dx := x.s6 % w * 16 + site % 16, dy := x.s6 / w * 16 + site / 16 }

/-- The active slots at a site that meet a test, in an armed sector all switched. -/
def Sector.gone (x : Sector) (site : Nat) (p : FabOp → SchedE → Bool) : Bool :=
  x.shSt == .armed && match x.act with
  | some a => (a.slotsWith fun f g => occupiesSite f g (x.place a.image.w site) && p f g).all fun k => x.switched.contains k
  | none => true

/-- The parts of a site that take a new configuration: the tiles of its cell, once no accumulator slot of the old one stands on it; the cell's phase counter, once no slot stands in its stages; and the site with its router layer (R231). DEDUCED (log 24). -/
inductive Part where
  | tiles | phase | whole
deriving DecidableEq, Repr

/-- The parts. -/
def Part.all : List Part := [.tiles, .phase, .whole]

/-- The old slots that keep a part of a site. -/
def Part.keeps : Part → FabOp → SchedE → Bool
  | .tiles, f, _ => isAccOp f.op.toNat
  | .phase, f, g => isAccOp f.op.toNat || decide (g.stage < 6)
  | .whole, _, _ => true

/-- A part of a site has taken the armed shadow. -/
def Sector.partOn (x : Sector) (site : Nat) (p : Part) : Bool := x.gone site p.keeps

/-- A part of a site takes a new configuration: the cell's tiles their reset state, its phase counter the captured phase, and the site the errors that its shadow has met, in place of its own (R104, R226, R231). -/
def State.activate (s : State) (sid : Nat) (h : Share) (site : Nat) (p : Part) : State :=
  let c := site / 32 * 16 + site % 16
  s.modSec sid fun x =>
    match p with
    | .tiles => if site / 16 % 2 = 0 then x.setCell c { phase := (x.cell c).phase } else x
    | .phase => if site / 16 % 2 = 0 then x.setCell c { x.cell c with phase := h.phase } else x
    | .whole => { x with
        badSites := x.badSites.erase site ++ (if x.badShadow.contains site then [site] else []), badShadow := x.badShadow.erase site }

/-- The parts of a sector's sites that have taken the shadow now and had not in an earlier state of the sector. -/
def State.takeParts (s : State) (sid : Nat) (x0 : Sector) (h : Share) : State :=
  let x := s.sec sid
  (List.range 256).foldl (fun (s : State) k => Part.all.foldl (fun (s : State) p =>
    if x.partOn k p && !x0.partOn k p then s.activate sid h k p else s) s) s

/-! ### Tokens behind an EOS (R234, R235) -/

/-- The channels that lead into a position of a slot: its own, and for operand a its entry's. -/
def Blk.inputs (blk : Blk) (b : BlkRef) (slot pos : Nat) : List Nat :=
  chanKey b slot pos :: (if pos = 0 then (blk.entryOf slot).toList.map fun e => chanKey b e 6 else [])

/-- The tokens of some channels moved to the tail of another. -/
def Inst.gather (i : Inst) (ks : List Nat) (tgt : Nat) : Inst :=
  let l := ks.flatMap i.chan
  if l.isEmpty then i
  else
    let i1 := ks.foldl (fun (i : Inst) k => i.setChan k []) i
    i1.setChan tgt (i1.chan tgt ++ l)

/-- The tokens that wait at an input put before those of a channel, in the next wave of its block. -/
def Inst.feed (i : Inst) (b : BlkRef) (gen pos tgt : Nat) : Inst :=
  let ks := (i.chans.filter fun p => p.1 / 2 ^ 28 == gen && p.1 % 8 == pos).map Prod.fst
  let l := ks.flatMap i.chan
  if l.isEmpty then i
  else
    let i1 := ks.foldl (fun (i : Inst) k => i.setChan k []) i
    i1.setChan tgt ((l.map fun t => { t with wave := i.nextWave b }) ++ i1.chan tgt)

/-- A block and slot of a share in a sector, from 128 times the block plus the slot. -/
def Sector.ref (x : Sector) (sh : Share) (n : Nat) : BlkRef := { task := x.task, inst := x.inst, gen := sh.gen, img := sh.img, blk := n / 128 }

/-- The tokens left at the inputs of a slot that has switched wait there. -/
def Inst.leave (i : Inst) (x : Sector) (a : Share) (n : Nat) : Inst :=
  let b := x.ref a n
  (List.range 4).foldl (fun (i : Inst) pos =>
    i.gather ((a.image.blks.getD b.blk {}).inputs b (n % 128) pos) (strayKey b (siteOf a.sched b.blk (n % 128)) pos)) i

/-- A slot that has come into force takes the tokens that wait at its inputs. -/
def Inst.enter (i : Inst) (x : Sector) (h : Share) (n : Nat) : Inst :=
  let b := x.ref h n
  (List.range 4).foldl (fun (i : Inst) pos =>
    match h.inputOf b (n % 128) pos with
    | some k => i.feed b (strayGen (siteOf h.sched b.blk (n % 128))) pos k
    | none => i) i

/-- The slots of a sector's shadow that are in force. -/
def Sector.newSlots (x : Sector) (h : Share) : List Nat :=
  (h.slotsWith fun _ e => x.holdsSite h.image.w e).filter fun n => x.slotLive (x.ref h n) (n % 128) (siteOf h.sched (n / 128) (n % 128))

/-- The tokens at the inputs of slots that have switched, and of those that have come in their place since an earlier state of the sector. -/
def State.carryOver (s : State) (sid : Nat) (x0 : Sector) (ks : List Nat) (h : Share) : State :=
  let x := s.sec sid
  let was := x0.newSlots h
  let come := (x.newSlots h).filter fun n => !was.contains n
  let leave := fun (i : Inst) => x.act.toList.foldl (fun (i : Inst) a => ks.foldl (fun (i : Inst) n => i.leave x a n) i) i
  let enter := fun (i : Inst) => come.foldl (fun (i : Inst) n => i.enter x h n) i
  s.modTask x.task fun t => { t with insts := t.insts.modify x.inst fun i => enter (leave i) }

/-! ### Whole sectors (R230) -/

/-- A sector's shadow becomes active in every part of a site that has not taken it already; its sources restart, as they do where the last switch group has taken the shadow meanwhile (R230 step 3, R231). -/
def State.swapSector (s : State) (sid : Nat) : State :=
  let x := s.sec sid
  match x.shadow with
  | none => s.modSec sid fun x => { x with stopped := false }
  | some h =>
    let s1 := (List.range 256).foldl (fun (s : State) k => Part.all.foldl (fun (s : State) p =>
      if x.partOn k p then s else s.activate sid h k p) s) s
    (s1.modSec sid fun x => { x with act := some h, shadow := none, shSt := .empty, switched := [], stopped := false }).reown sid

/-! ### Switch groups (R233, R234, R238) -/

/-- The slots of an active slot's switch group. -/
def Share.group (a : Share) (b k : Nat) : List Nat :=
  let blk := a.image.blks.getD b {}
  (if blk.inARegion a.sched b k then blk.regionOf a.sched b k else [k]).map fun j => b * 128 + j

/-- The active slots of a sector. -/
def Sector.ownSlots (x : Sector) (a : Share) : List Nat :=
  (List.range a.image.blks.length).flatMap fun b =>
    ((List.range (a.image.blks.getD b {}).n).filter fun k => x.holdsSite a.image.w (siteOf a.sched b k)).map fun k => b * 128 + k

/-- A slot is fed only from entries that no route feeds, so it counts as having sent its EOS (R66, R238). -/
def Share.unrouted (a : Share) (b k : Nat) : Bool :=
  let blk := a.image.blks.getD b {}
  ((List.range 4).all fun pos => (blk.feeders k pos).isEmpty) &&
    match blk.entryOf k with
    | some e => !a.image.routed b e
    | none => false

/-- A block fires no further wave: it has no source, or the slot of one has switched or has sent the EOS that ends it (R197, R234). -/
def State.sourcesOver (s : State) (k : Bk) : Bool :=
  !k.hasSource || ((k.sh.image.srcEntries k.b.blk).map k.blk.entrySlot ++ k.blk.pins).any fun p =>
    let x := s.sec (k.sid p)
    !x.slotLive k.b p (k.site p) || (x.ends k.b && (Tab.get {} k.i.ops (opKey k.b p)).eosSent)

/-- A const that fires once per wave has fired for the last wave of its block. -/
def State.lastWaveFired (s : State) (b : BlkRef) (c : Nat) : Bool :=
  match s.bk? b with
  | some k => s.sourcesOver k && (k.i.chan (chanKey b c 4)).isEmpty
  | none => true

/-- A slot has done what its group's switch waits for: it has sent its EOS or, a const, taken one at o, or it counts as having sent it (R234, R238). A slot without a fed input is a pin or a const that fires once per wave. No EOS reaches that const; so that the tokens ahead of an EOS are consumed under the old configuration, it is done once it has fired for the last wave that its block's sources begin. DESIGN CHOICE (log 25). -/
def State.eosDone (s : State) (task inst : Nat) (a : Share) (n : Nat) : Bool :=
  let b : BlkRef := ⟨task, inst, a.gen, a.img, n / 128⟩
  let k := n % 128
  let blk := a.image.blks.getD b.blk {}
  (Tab.get {} (s.instOf b).ops (opKey b k)).eosSent || a.unrouted b.blk k ||
    (blk.opc k != 0x70 && ((List.range 4).all fun pos => !blk.fed k pos) && s.lastWaveFired b k)

/-- Once every active slot of a sector has switched, the shadow is the active configuration, and the shadow is EMPTY (R234). -/
def State.promote (s : State) (sid : Nat) : State :=
  let x := s.sec sid
  if x.shSt = .armed ∧ (x.act.toList.flatMap fun a => x.ownSlots a).all (fun k => x.switched.contains k) then
    s.modSec sid fun x => { x with act := x.shadow, shadow := none, shSt := .empty, switched := [] }
  else s

/-- What follows when slots of a sector have switched, or none had to, since an earlier state of it: their tokens stay at their inputs, sites take the shadow, and its sources restart unless a drain swap is to follow (R230, R231, R234). -/
def State.afterSwitch (s : State) (sid : Nat) (x0 : Sector) (ks : List Nat) (h : Share) : State :=
  let s1 := (s.carryOver sid x0 ks h).takeParts sid x0 h
  let x := s1.sec sid
  let draining : Bool := match s1.task? x.task with
    | some t => (t.insts.getD x.inst {}).drain != 0
    | none => false
  let s2 := if draining || !((List.range 256).any fun k => x.partOn k .whole && !x0.partOn k .whole) then s1 else s1.modSec sid fun x => { x with stopped := false }
  (s2.reown sid).promote sid

/-- Slots of a switch group switch (R234). -/
def State.switchSlots (s : State) (sid : Nat) (h : Share) (ks : List Nat) : State :=
  let x := s.sec sid
  (s.setSec sid { x with switched := x.switched ++ ks }).afterSwitch sid x ks h

/-- Every slot of a group of a sector may switch now. -/
def State.groupReady (s : State) (sid : Nat) (a : Share) (ks : List Nat) : Bool :=
  let x := s.sec sid
  match s.task? x.task with
  | some t =>
    let i := t.insts.getD x.inst {}
    t.fires && !s.clockHeld sid && ks.all fun n =>
      (x.ownSlots a).contains n && !x.switched.contains n && s.eosDone x.task x.inst a n &&
        !(Tab.get {} i.ops (opKey ⟨x.task, x.inst, a.gen, a.img, n / 128⟩ (n % 128))).marked
  | none => false

/-- R234 GROUP_SWITCH: the group of an active slot, named as 128 times its block plus the slot. -/
def execGroupSwitch (sid : BitVec 8) (grp : Nat) (s : State) : Host.Outcome State Fault Refusal :=
  let x := s.sec sid.toNat
  match x.act, x.shadow with
  | some a, some h =>
    let ks := a.group (grp / 128) (grp % 128)
    if x.shSt = .armed ∧ s.groupReady sid.toNat a ks then .next (s.switchSlots sid.toNat h ks) else .next s
  | _, _ => .next s

/-! ### Arming (R233) -/

/-- The switch groups in whose place a slot of a shadow would come; a site without an active slot is a group of its own. -/
def Share.groupsAt (a : Option Share) (e : SchedE) : List (List Nat) :=
  match a.toList.flatMap fun a => (a.before e).map fun n => a.group (n / 128) (n % 128) with
  | [] => [[2 ^ 20 + e.dy * 256 + e.dx]]
  | l => l.eraseDups

/-- A lockstep region of a shadow would take the sites of two switch groups (R233). -/
def Sector.splits (x : Sector) : Bool :=
  match x.shadow with
  | none => false
  | some h =>
    (List.range h.image.blks.length).any fun b =>
      let blk := h.image.blks.getD b {}
      (List.range blk.n).any fun k =>
        x.holdsSite h.image.w (siteOf h.sched b k) && blk.inARegion h.sched b k &&
          decide (1 < ((blk.regionOf h.sched b k).flatMap fun j => Share.groupsAt x.act (siteOf h.sched b j)).eraseDups.length)

/-- Operator states that have sent no EOS yet. -/
def Inst.clearEos (i : Inst) : Inst :=
  { i with ops := (i.ops.map fun p => (p.1, { p.2 with eosSent := false, eosIn := [] })).filter fun p => p.2 != {} }

/-- A sector's shadow is ARMED under a generation, and the groups with no active slot switch at once (R233). -/
def State.armSector (s : State) (gen sid : Nat) : State :=
  let x := s.sec sid
  match x.shadow.map fun h => { h with gen := gen } with
  | none => s
  | some h => (s.setSec sid { x with shSt := .armed, switched := [], shadow := some h }).afterSwitch sid x [] h

end Sys2Proof.Machine
end

