-- ==== Sys2Proof/Machine/ConfigCtl.lean ====
section
/-! DEFINITION. cfgld (R225), cfgarm, cfgsw and sdrain (R227 to R233), the drain swap (R230) and quiescence reported to sdrain (R232), the block scheduler's decisions and swaps (R190, R191). -/

namespace Sys2Proof.Machine

open Sys2Proof

/-! ### cfgld (R225, R226, R236, R259) -/

/-- The acting thread's instance. -/
def State.ownInst (s : State) : Inst :=
  match s.task? (s.sec s.cur).task with
  | some t => t.insts.getD (s.sec s.cur).inst {}
  | none => {}

/-- The images of a gang, hosted ones included. -/
def Task.images (t : Task) : List Nat := t.insts.flatMap fun i => i.img :: (i.host.toList.flatMap fun h => h.cands)

/-- The images of a gang that have an entry queue (R77). -/
def Task.queues (t : Task) (o : Obj) : List Nat := t.images.filter fun k => (o.images.getD k {}).qv

/-- A share checked and read for a sector at its group's operating point: the load report, and the share where the report lets it load. -/
def State.checkShare (s : State) (t : Task) (o : Obj) (sid k : Nat) (phase : BitVec 5) : Word × Option Share :=
  let m := o.images.getD k {}
  let op := (s.rail (railOf sid)).cur
  let i := t.insts.getD (s.sec sid).inst {}
  match m.check (t.queues o) i.ox i.oy op Config.stepping.toNat s.regs.decrev.toNat with
  | .bad r => (r, none)
  | .ok r re sched => (r, some { gen := 0, img := k, image := m, phase := phase, op := op, retimed := re, sched := sched })

/-- A sector's shadow written, or EMPTY where the load has failed; an uncorrectable error ends the load with CFG_ECC (R225, R226). -/
def State.loadShadow (s : State) (sid : Nat) (r : Word × Option Share) : Word × State :=
  match r.2 with
  | none => (r.1, s.modSec sid fun x => { x with shadow := none, shSt := .empty, badShadow := [] })
  | some h =>
    match s.upsets.find? fun u => u == .cfgWrite sid with
    | some u => (loadReport 0x05 none none, { s with upsets := s.upsets.erase u }.modSec sid fun x => { x with shadow := none, shSt := .empty, badShadow := [] })
    | none => (r.1, s.modSec sid fun x => { x with shadow := some h, shSt := .complete, badShadow := [] })

/-- R225 cfgld. -/
def execCfgld (rd : Reg) (dr : DReg) (ra : Reg) (s : State) : Host.Outcome State Fault Refusal :=
  let d := s.rdD dr
  let k := s.rdS ra
  let x := s.sec s.cur
  s.finish (if d.tag ≠ tagObject then tagTrap d
    else match s.task? x.task, s.ownObj with
      | some t, some o =>
        let m := o.images.getD k.toNat {}
        if !t.images.contains k.toNat then .trap .handle k
        else if s.ownInst.host.isSome then .trap .handle 0
        else if m.w ≠ s.ownInst.w ∨ m.h ≠ s.ownInst.h then .trap .handle k
        else if x.shSt = .armed ∨ (s.rail (railOf s.cur)).mv ≠ .steady then .hold
        else
          let r := s.loadShadow s.cur (s.checkShare t o s.cur k.toNat x.phase)
          .ok (r.2.wrS rd r.1).advance
      | _, _ => .trap .handle k)

/-! ### Meetings of an instance (R227) -/

/-- The acting thread takes the answer that its meeting has left. -/
def State.takeAnswer (s : State) (k : Meet) (rd : Reg) : Option State :=
  match s.th.answer with
  | some (c, v) => if c = k.code then some (((s.modTh fun t => { t with answer := none }.counted k).wrS rd v).advance) else none
  | none => none

/-- Every thread of some sectors gets the same result. -/
def State.answerAll (s : State) (sids : List Nat) (k : Meet) (v : Word) : State :=
  s.modSecs sids fun x => { x with th := { x.th with answer := some (k.code, v) } }

/-- A word that acts on the whole instance: HANDLE in a host instance (R236); else its threads meet, the last to arrive starts the effect, and each takes the result (R227). -/
def State.whole (s : State) (k : Meet) (rd : Reg) (act : State → State) : Host.Outcome State Fault Refusal :=
  if s.ownInst.host.isSome then .next (s.takeTrap .handle 0)
  else match s.takeAnswer k rd with
    | some t => .next t
    | none =>
      let a := s.arrive k
      if a.1.allMet a.1.instSids k a.2 && s.ownInst.drain == 0 then
        let u := act a.1
        .next ((u.takeAnswer k rd).getD u)
      else .next a.1

/-- The acting thread's instance changed. -/
def State.modOwnInst (s : State) (f : Inst → Inst) : State :=
  let x := s.sec s.cur
  s.modTask x.task fun t => { t with insts := t.insts.modify x.inst f }

/-! ### cfgarm (R233) -/

/-- Every sector of the acting instance checked, then armed. -/
def State.armAll (s : State) : State :=
  let sids := s.instSids
  if sids.any fun k => (s.sec k).shSt != .complete then s.answerAll sids .cfgarm 1
  else if sids.any fun k => (s.sec k).splits then s.answerAll sids .cfgarm 2
  else
    let gen := s.nextId
    let s1 := ({ s with nextId := gen + 1 } : State).modOwnInst Inst.clearEos
    (sids.foldl (fun (s : State) k => s.armSector gen k) s1).answerAll sids .cfgarm 0

/-- R233 cfgarm. -/
def execCfgarm (rd : Reg) (s : State) : Host.Outcome State Fault Refusal := s.whole .cfgarm rd State.armAll

/-! ### cfgsw and sdrain (R230, R232) -/

/-- The sources of some sectors stopped or restarted. -/
def State.stopSources (s : State) (sids : List Nat) (b : Bool) : State := s.modSecs sids fun x => { x with stopped := b }

/-- The start of a drain swap: NOSHADOW, or the sources stop and the instance waits for quiescence (R230 step 1). -/
def State.swapAll (s : State) : State :=
  let sids := s.instSids
  if sids.any fun k => (s.sec k).shSt == .empty || (s.sec k).shSt == .loading then s.answerAll sids .cfgsw 1
  else
    let gen := s.nextId
    (({ s with nextId := gen + 1 } : State).modSecs sids fun x =>
      { x with
        stopped := true
        shadow := if x.shSt = .complete then x.shadow.map fun h => { h with gen := gen } else x.shadow }).modOwnInst fun i =>
        { i with drain := 1, wasStopped := sids.any fun k => (s.sec k).stopped }

/-- R230 cfgsw. -/
def execCfgsw (rd : Reg) (s : State) : Host.Outcome State Fault Refusal := s.whole .cfgsw rd State.swapAll

/-- R232 sdrain: the sources stop, and the threads wait for quiescence. -/
def execSdrain (rd : Reg) (s : State) : Host.Outcome State Fault Refusal :=
  s.whole .sdrain rd fun u => (u.stopSources u.instSids true).modOwnInst fun i => { i with drain := 2 }

/-- R232 sdrain, go: the sources restart. It meets an sdrain of either form; the form of the last thread to arrive takes effect (R227; log 23). -/
def execSdrainGo (rd : Reg) (s : State) : Host.Outcome State Fault Refusal :=
  s.whole .sdrain rd fun u => (u.stopSources u.instSids false).answerAll u.instSids .sdrain 0

/-! ### DRAIN_SWAP and SDRAIN_QUIESCENT -/

/-- An instance of a running task that waits for quiescence of a kind, and is quiescent; no pre-emption has stopped its threads, and its clocks run. -/
def State.quietInst (s : State) (task k kind : Nat) : Option (Task × Inst) :=
  match s.task? task with
  | none => none
  | some t =>
    let i := t.insts.getD k {}
    let open_ : Bool := match t.pre with
      | .none => true
      | .notice _ => true
      | _ => false
    if t.runs && open_ && decide (k < t.insts.length) && i.drain == kind && !(i.sids.any fun n => s.clockHeld n) && s.quiescent t k then some (t, i) else none

/-- R230 DRAIN_SWAP: every shadow becomes active in one step. -/
def execDrainSwap (task k : Nat) (s : State) : Host.Outcome State Fault Refusal :=
  match s.quietInst task k 1 with
  | none => .next s
  | some (_, i) =>
    let s1 := i.sids.foldl (fun (s : State) n => s.swapSector n) s
    .next ((s1.modTask task fun t => { t with insts := t.insts.modify k fun i => { i with drain := 0 } }).answerAll i.sids .cfgsw 0)

/-- R232 SDRAIN_QUIESCENT: the threads receive CYC. -/
def execSdrainQuiescent (task k : Nat) (s : State) : Host.Outcome State Fault Refusal :=
  match s.quietInst task k 2 with
  | none => .next s
  | some (_, i) =>
    .next ((s.modTask task fun t => { t with insts := t.insts.modify k fun i => { i with drain := 0 } }).answerAll i.sids .sdrain s.cycW)

/-! ### The block scheduler (R190, R191) -/

/-- The thread tokens that wait in a candidate's entry queue. -/
def Inst.waiting (i : Inst) (c : Nat) : Nat := Tab.get 0 i.fill c - Tab.get 0 i.free c

/-- The age of a candidate. -/
def HostSt.age (h : HostSt) (c : Nat) : Nat := Tab.get 0 h.ages c

/-- The candidate with the greatest value, the lowest image index among equals. -/
def bestOf (f : Nat → Nat) (l : List Nat) : Option Nat :=
  l.foldl (fun m c => match m with
    | none => some c
    | some d => if f d < f c ∨ (f d = f c ∧ c < d) then some c else some d) none

/-- The choice of a decision (R190). -/
def Inst.choose (i : Inst) (h : HostSt) : Option Nat :=
  match bestOf h.age (h.cands.filter fun c => decide (8 ≤ h.age c)) with
  | some c => some c
  | none =>
    match bestOf i.waiting (h.cands.filter fun c => decide (0 < i.waiting c)) with
    | some c => some c
    | none => h.resident

/-- The ages after a decision (R190). -/
def Inst.aged (i : Inst) (h : HostSt) (chosen : Nat) : Tab Nat :=
  (h.cands.map fun c => (c, if c = chosen then 0 else if 0 < i.waiting c then h.age c + 1 else h.age c)).foldl (fun t p => Tab.set 0 t p.1 p.2) []

/-- A decision is due: the resident's queue is empty, or it has fired its quantum; a resumed gang counts as having fired it (R190). While no candidate is resident one is due at once, and it chooses nothing until a token waits: R190 names no event that brings the first. DESIGN CHOICE (log 138). -/
def Inst.decisionDue (i : Inst) (h : HostSt) : Bool :=
  match h.resident with
  | none => true
  | some c => i.waiting c == 0 || decide (h.quant ≤ h.fired)

/-- R190 BLOCK_SCHEDULER_DECISION: the resident stays and its quantum restarts, or the sources stop for a swap. -/
def execBlockSchedulerDecision (task : Nat) (s : State) : Host.Outcome State Fault Refusal :=
  match s.task? task with
  | none => .next s
  | some t =>
    match t.insts.findIdx? fun i => i.host.isSome with
    | none => .next s
    | some k =>
      let i := t.insts.getD k {}
      match i.host with
      | none => .next s
      | some h =>
        if !t.fires || i.drain != 0 || !i.decisionDue h then .next s
        else match i.choose h with
          | none => .next s
          | some c =>
            let stay : Bool := h.resident == some c
            let h1 := { h with ages := i.aged h c, fired := if stay then 0 else h.fired, chosen := if stay then none else some c }
            let s1 := s.modTask task fun t => { t with insts := t.insts.modify k fun i => { i with host := some h1, drain := if stay then 0 else 3 } }
            .next (s1.stopSources i.sids (!stay))

/-- Every accumulator tile of a rectangle is EMPTY (R191). -/
def State.tilesEmpty (s : State) (sids : List Nat) : Bool :=
  sids.all fun k => (s.sec k).cells.all fun c => c.2.tcw.all fun w => tcwState w.2 == .empty

/-- A decision ends: the host's state, and the sources restart. One that is withdrawn keeps the ages that it set, that of its chosen candidate 0 (R191; DESIGN CHOICE, log 27). -/
def State.endDecision (s : State) (task k : Nat) (sids : List Nat) (h : HostSt) : State :=
  (s.modTask task fun t => { t with insts := t.insts.modify k fun i => { i with host := some { h with chosen := none, fired := 0 }, drain := 0 } }).stopSources sids false

/-- The candidate's share loaded into the shadow of each sector of a host, each checked at its own group's operating point, one after another; none where one of the loads fails (R190, R225, R226). -/
def State.loadHost (s : State) (t : Task) (o : Obj) (c gen : Nat) : List Nat → Option State
  | [] => some s
  | n :: l =>
    let r := s.loadShadow n (s.checkShare t o n c (o.images.getD c {}).phase)
    if (r.2.sec n).shSt = .complete then
      (r.2.modSec n fun x => { x with shadow := x.shadow.map fun h => { h with gen := gen } }).loadHost t o c gen l
    else none

/-- The groups of some sectors are STEADY, so a configuration may be loaded there (R259). -/
def State.steadyAt (s : State) (sids : List Nat) : Bool := sids.all fun n => (s.rail (railOf n)).mv == .steady

/-- The shadows of a host emptied after a load that failed (R225, R226). -/
def State.unload (s : State) (sids : List Nat) : State :=
  { s with upsets := s.upsets.filter fun u => !(sids.any fun n => u == Upset.cfgWrite n) }.modSecs sids fun x => { x with shadow := none, shSt := .empty, badShadow := [] }

/-- R191 HOST_DRAIN_SWAP: with every tile EMPTY the chosen candidate becomes resident; else, or where the load of its image fails, the decision is withdrawn (log 51). The load waits until its groups are STEADY (R259). -/
def execHostDrainSwap (task : Nat) (s : State) : Host.Outcome State Fault Refusal :=
  match s.task? task with
  | none => .next s
  | some t =>
    match t.insts.findIdx? fun i => i.host.isSome with
    | none => .next s
    | some k =>
      match s.quietInst task k 3, (t.insts.getD k {}).host, s.launch? t.launch with
      | some (_, i), some h, some l =>
        match h.chosen with
        | none => .next s
        | some c =>
          let o := (Tab.get {} (s.ctx t.ctx).handles l.hslot).obj
          let gen := s.nextId
          if !s.steadyAt i.sids then .next s
          else if !s.tilesEmpty i.sids then .next (s.endDecision task k i.sids h)
          else match ({ s with nextId := gen + 1 } : State).loadHost t o c gen i.sids with
            | some s1 =>
              let s2 := i.sids.foldl (fun (s : State) n => s.swapSector n) s1
              .next (s2.endDecision task k i.sids { h with resident := some c })
            | none => .next ((s.unload i.sids).endDecision task k i.sids h)
      | _, _, _ => .next s

end Sys2Proof.Machine
end

