-- ==== Sys2Proof/Machine/PowerOps.lean ====
section
/-! DEFINITION. Rail groups (R20, R253 to R259): their sectors, the start of a move with its checks, the change of section, and the throttle registers (R260, R261). -/

namespace Sys2Proof.Machine

open Sys2Proof

/-- The SECTIDs of a rail group (R20). -/
def groupSids (g : Nat) : List Nat :=
  [0, 1, 8, 9].map fun k => g / 16 * 64 + g % 16 / 4 * 16 + g % 4 * 2 + k

/-- The logic rail of an operating point in mV (R19). -/
def railMv (o : Nat) : Nat := at4 o 800 740 700 640

/-- CYC that a rail takes from one operating point to another: 47 for each mV (R256). -/
def slewCyc (a b : Nat) : Nat := (max (railMv a) (railMv b) - min (railMv a) (railMv b)) * 47

/-- A group changed. -/
def State.modRail (s : State) (g : Nat) (f : Rail → Rail) : State := s.setRail g (f (s.rail g))

/-- The shares held in a sector: the active configuration and the shadow (R20, R225). -/
def Sector.loaded (x : Sector) : List Share := x.act.toList ++ x.shadow.toList

/-- A share's section for an operating point, if the image has one and it passes (R169, R258). -/
def State.sectionFor (s : State) (sh : Share) (o : Nat) : Option Share :=
  if !sh.image.opmask.getLsbD o then none
  else match sh.image.scheds.find? fun k => k.op == o with
    | none => none
    | some k =>
      match sh.image.timed k Config.stepping.toNat s.regs.decrev.toNat with
      | (re, sched, .none) => some { sh with op := o, retimed := re, sched := sched }
      | _ => none

/-- Every image held in a group has a valid section for an operating point. -/
def State.sectionsOk (s : State) (g o : Nat) : Bool := (groupSids g).all fun k => (s.sec k).loaded.all fun sh => (s.sectionFor sh o).isSome

/-- Every sector of a group belongs to a context or to none (R255). -/
def State.whollyOwned (s : State) (g : Nat) (c : BitVec 8) : Bool := (groupSids g).all fun k => !(s.sec k).v || (s.sec k).ctx == c

/-- The sections of a group's shares for an operating point take effect (R256). -/
def State.swapSections (s : State) (g o : Nat) : State :=
  s.modSecs (groupSids g) fun x =>
    { x with act := x.act.map fun h => (s.sectionFor h o).getD h, shadow := x.shadow.map fun h => (s.sectionFor h o).getD h }

/-- A STEADY group takes its pending request: SAME, a refusal of R258, or the start of a move (R256). -/
def State.startMove (s : State) (g : Nat) : State :=
  let r := s.rail g
  match r.mv, r.pend with
  | .steady, some (t, c) =>
    let res := fun (n : BitVec 4) => s.setRail g { r with pend := none, res := n }
    if t = r.cur then res 6
    else if !s.whollyOwned g c then res 3
    else if !s.sectionsOk g t then res 4
    else if s.regs.emerg ∧ t < r.cur then res 5
    else s.setRail g { r with pend := none, tgt := t, mv := if t < r.cur then .raiseV (s.cyc + slewCyc t r.cur) else .swap }
  | _, _ => s

/-- A move has reached its target: DONE, a placement opportunity, and the pending request is taken in the same cycle (R187, R256, R259). -/
def State.endMove (s : State) (g : Nat) : State :=
  ({ s with placeDue := true }.modRail g fun r => { r with mv := .steady, res := 1 }).startMove g

/-- The operating point's code. -/
def opNum : OpPoint → Nat
  | .a => 0 | .b => 1 | .c => 2 | .d => 3

/-- A request for a group (R255, R257): it must be wholly owned; an older pending request is replaced. -/
def State.request (s : State) (g t : Nat) (c : BitVec 8) : State :=
  if !s.whollyOwned g c then s.modRail g fun r => { r with res := 3 }
  else (s.modRail g fun r => { r with pend := some (t, c), res := if r.pend.isSome then 2 else r.res }).startMove g

/-- The OPSTATE of a sector (R253). -/
def State.opState (s : State) (sid : Nat) : Word :=
  let r := s.rail (railOf sid)
  let mv : Bool := r.mv != .steady
  let b := fun (x : Bool) (n : Nat) => if x then n else 0
  BitVec.ofNat 64 (railOf sid % 16 * 2 ^ 12 + r.res.toNat * 2 ^ 8 + b mv (2 ^ 7) + b r.pend.isSome (2 ^ 6) + ((r.pend.map Prod.fst).getD 0) % 4 * 16
    + (if mv then r.tgt else r.cur) % 4 * 4 + r.cur % 4)

end Sys2Proof.Machine
end

