-- ==== Sys2Proof/Machine/SysCtl.lean ====
section
/-! DEFINITION. The system instructions: sysrd and syswr (R397, R398), svc (R399), trap and tret (R417, R418), tinv (R400), pwrq (R255). -/

namespace Sys2Proof.Machine

open Sys2Proof

/-! ### System registers (R397, R398) -/

/-- MODNUM of DOMCFG (R393). -/
def State.modnum (s : State) : Nat := bitsAt s.regs.domcfg.toNat 0 6

/-- The TAG of the launch of the acting thread's task (R181, R397). -/
def State.ltag (s : State) : Nat :=
  match s.task? (s.sec s.cur).task with
  | some t => ((s.launch? t.launch).map fun l => l.tag.toNat).getD 0
  | none => 0

/-- PREEMPTCFG of a context (R244). -/
def Ctx.preemptCfg (x : Ctx) : Nat := x.grace.toNat * 256 + (if x.noticeOn then 1 else 0)

/-- A system register read (R397). -/
def State.sysRead (s : State) (n : SysReg) : Word :=
  let x := s.sec s.cur
  let r := s.rail (railOf s.cur)
  match n with
  | .cyc => s.cycW
  | .ctxid => BitVec.ofNat 64 (s.modnum * 256 + x.ctx.toNat)
  | .sectid => BitVec.ofNat 64 (s.cur % 256)
  | .opstate => s.opState s.cur
  | .flags => x.flags.setWidth 64
  | .phase => x.phase.setWidth 64
  | .stretchcnt => BitVec.ofNat 64 (r.events * 2 ^ 40 + r.gwin * 2 ^ 32 + x.count.toNat)
  | .decrev => s.regs.decrev.setWidth 64
  | .preemptcfg => BitVec.ofNat 64 (s.ctx x.ctx).preemptCfg
  | .ltag => BitVec.ofNat 64 s.ltag
  | .trapcause => BitVec.ofNat 64 ((if x.th.ts then 256 else 0) + x.th.cause.toNat)
  | .trappc => x.th.trapPc
  | .trapval => x.th.trapVal
  | .elogArray => x.elogA
  | .elogXfer => x.elogX

/-- A system register written, each field by its access (R4, R397): read-only fields keep their value. -/
def State.sysWrite (s : State) (n : SysReg) (v : Word) : State :=
  let sec := s.modSec s.cur
  match n with
  | .flags => sec fun x => { x with flags := x.flags &&& ~~~(v.setWidth 7) }
  | .phase => sec fun x => { x with phase := v.setWidth 5 }
  | .stretchcnt => sec fun x => { x with count := v.setWidth 32 }
  | .preemptcfg => s.modCtx (s.sec s.cur).ctx fun x => { x with grace := BitVec.ofNat 8 (bitsAt v.toNat 8 8), noticeOn := v.getLsbD 0 }
  | .trappc => s.modTh fun t => { t with trapPc := v &&& ~~~(7 : Word) }
  | .elogArray => if v.getLsbD 63 then sec fun x => { x with elogA := 0 } else s
  | .elogXfer => if v.getLsbD 63 then sec fun x => { x with elogX := 0 } else s
  | _ => s

/-- R398 sysrd. -/
def execSysrd (rd : Reg) (n : SysReg) (s : State) : Host.Outcome State Fault Refusal := .next (s.wrS rd (s.sysRead n)).advance
/-- R398 syswr. -/
def execSyswr (n : SysReg) (ra : Reg) (s : State) : Host.Outcome State Fault Refusal := .next (s.sysWrite n (s.rdS ra)).advance

/-! ### svc, trap, tret -/

/-- R399 svc: it waits for the thread's accesses, then takes SVC. -/
def execSvc (code : BitVec 16) (s : State) : Host.Outcome State Fault Refusal :=
  if s.writesDone s.cur then .next (s.takeTrap .svc (code.setWidth 64)) else .next s
/-- R417 trap. -/
def execTrap (code : BitVec 16) (s : State) : Host.Outcome State Fault Refusal := .next (s.takeTrap .trapInsn (code.setWidth 64))

/-- The word in execution, a tret. -/
def State.curWord (s : State) : Word := s.th.word.getD ((encode .tret).getD 0)

/-- R418 tret: outside trap state it takes ILLEGAL with the word; else it goes on at the resume point. -/
def execTret (s : State) : Host.Outcome State Fault Refusal :=
  if s.th.ts then .next (s.modTh fun t => t.leaveTrap s.cyc t.resumePc) else .next (s.takeTrap .illegal s.curWord)

/-! ### tinv (R400) -/

/-- A translation copy with an entry's index is named: every entry, or the one that holds the address. -/
def State.tinvNamed (s : State) (ra : Reg) : Nat → Bool :=
  if ra = 0 then fun _ => true
  else match findRt (s.ctx (s.sec s.cur).ctx).rt (s.rdS ra).toNat with
    | some (i, _) => fun k => isVirt (s.rdS ra) && k == i
    | none => fun _ => false

/-- The copies in a sector removed. -/
def Sector.forget (x : Sector) (named : Nat → Bool) : Sector :=
  { x with
    rcache := x.rcache.filter fun k => !named k
    ports := x.ports.map fun p => (p.1, { p.2 with entry := match p.2.entry with
      | some k => if named k then none else some k
      | none => none }) }

/-- The held fetch block discarded. -/
def Sector.refetch (x : Sector) : Sector := { x with th := { x.th with fblk := none } }

/-- The sectors of a context. -/
def State.ctxSids (s : State) (c : BitVec 8) : List Nat := (List.range 256).filter fun k => (s.sec k).v && (s.sec k).ctx == c

/-- The copies of a context in the edge TLB of a die removed. -/
def State.forgetTlb (s : State) (die : Nat) (c : BitVec 8) (named : Nat → Bool) : State :=
  { s with edgeTlb := Tab.put s.edgeTlb die ((Tab.get [] s.edgeTlb die).filter fun e => !(e.1 == c.toNat && named e.2)) }

/-- The sectors whose range caches and ports a scope reaches. -/
def State.tinvSids (s : State) (sc : Scope) : List Nat :=
  match sc with
  | .sector | .cell => [s.cur]
  | .gang | .die => s.gangSids
  | .module | .domain => s.ctxSids (s.sec s.cur).ctx

/-- The context's threads within a scope, whose held fetch blocks go. -/
def State.tinvThreads (s : State) (sc : Scope) : List Nat :=
  match sc with
  | .die => s.gangSids ++ (s.ctxSids (s.sec s.cur).ctx).filter fun k => dieOf k == dieOf s.cur
  | _ => s.tinvSids sc

/-- The dies whose edge TLB a scope reaches. -/
def State.tinvDies (s : State) (sc : Scope) : List Nat :=
  match sc with
  | .die => [dieOf s.cur]
  | .module | .domain => [0, 1, 2, 3]
  | _ => []

/-- R400 tinv. -/
def execTinv (sc : Scope) (ra : Reg) (s : State) : Host.Outcome State Fault Refusal :=
  let c := (s.sec s.cur).ctx
  let named := s.tinvNamed ra
  let s1 := s.modSecs (s.tinvSids sc) fun x => x.forget named
  let s2 := s1.modSecs (s.tinvThreads sc) Sector.refetch
  .next ((s.tinvDies sc).foldl (fun (u : State) d => u.forgetTlb d c named) s2).advance

/-! ### pwrq (R255) -/

/-- The group that S[sa] of a request names, if it names one (R255). -/
def State.requested (s : State) (ra : Reg) : Option Nat :=
  let v := (s.rdS ra).toNat
  let own := railOf s.cur
  if v ≠ 0 ∧ (!bitAt v 4 ∨ v / 32 ≠ 0) then none else some (if v = 0 then own else own / 16 * 16 + v % 16)

/-- R255 pwrq: it never waits. -/
def execPwrq (t : OpPoint) (ra : Reg) (s : State) : Host.Outcome State Fault Refusal :=
  let s1 := match s.requested ra with
    | none => s.modRail (railOf s.cur) fun r => { r with res := 3 }
    | some g => s.request g (opNum t) (s.sec s.cur).ctx
  .next s1.advance

end Sys2Proof.Machine
end

