-- ==== Sys2Proof/Machine/Answers.lean ====
section
/-! DEFINITION. TRAP records (R411, R414), and the answers of handlers: FLTRESP (R371, R308, R320, R372, R39) and TRAPRESP (R415, R416). -/

namespace Sys2Proof.Machine

open Sys2Proof

/-- A gang whose threads are to stop, one of which has reached its pre-emption point since (R239 step 3). -/
def State.stopRest (s : State) (task : Nat) : State :=
  match s.task? task with
  | some t => if t.pre = .threads then s.startMarkers t else s
  | none => s

/-- R411, R414 TRAP_RECORD: once the thread's accesses are performed its record is appended, and the thread waits for the answer. -/
def execTrapRecord (sid : BitVec 8) (s : State) : Host.Outcome State Fault Refusal :=
  let k := sid.toNat
  let x := s.sec k
  match x.th.wait with
  | .record t =>
    if !x.th.live || !s.writesDone k then .next s
    else
      let p := s.newToken
      let r : Rec :=
        { ctx := x.ctx, token := p.1, trap := true, sid := k, cause := x.th.cause, task := x.task
          words := [x.th.trapVal, x.th.trapPc, recWord2 (((s.task? x.task).map Task.idx).getD 0) x.th.cause k x.ctx (2 ^ 7),
            BitVec.ofNat 64 (p.1.toNat * 2 ^ 32 + t % 2 ^ 32)] }
      .next (((p.2.modThOf k fun t => { t with wait := .answer p.1 }).addRec r).stopRest x.task)
  | _ => .next s

/-! ### Who may answer, and what -/

/-- The owning master may answer, or system firmware, which is master 4, where the context's handler runs there (R371, R377). -/
def State.mayAnswer (s : State) (m : Master) (c : BitVec 8) : Bool := (decide (m.toNat ≤ 4) && s.own.owner == m.toNat) || ((s.ctx c).hloc && m == 4)

/-- The unanswered record of a token, if the master may answer it. -/
def State.answered (s : State) (m : Master) (token : BitVec 32) (trap : Bool) : Option Rec :=
  s.recs.find? fun r => r.posted && r.token == token && token != 0 && r.trap == trap && s.mayAnswer m r.ctx

/-- A record answered. -/
def State.drop (s : State) (r : Rec) : State := { s with recs := s.recs.erase r }

/-- Where a sector's state of a task stands that meets a test: its save record while the gang is saved, else the sector. -/
def State.modHolder (s : State) (task : Nat) (p : Sector → Bool) (f : Sector → Sector) : State :=
  if s.saves.any fun r => r.task == task && p r.sec then
    { s with saves := s.saves.map fun (r : SaveRec) => if r.task = task ∧ p r.sec then { r with sec := f r.sec } else r }
  else { s with sectors := s.sectors.map fun q => if q.2.v ∧ q.2.task = task ∧ p q.2 then (q.1, f q.2) else q }

/-! ### FLTRESP -/

/-- An element under a token. -/
def Spill.named (e : Spill) (token : BitVec 32) : Bool := e.token == token && e.st == 0

/-- A port's elements under a token take a new state: 1 resolved, 2 failed (R372, R373). -/
def PortSt.resolve (p : PortSt) (token : BitVec 32) (st order : Nat) : PortSt :=
  let g := fun (e : Spill) => if e.named token then { e with st := st, order := order } else e
  { p with spill := p.spill.map g, held := p.held.map g }

/-- A sector holds an element under a token. -/
def Sector.holdsToken (x : Sector) (token : BitVec 32) : Bool :=
  x.ports.any fun p => (p.2.spill ++ p.2.held.toList).any fun e => e.named token

/-- The state that an answer leaves in an operator: none for RETRY, else the fault's code. -/
def OpSt.resolve (o : OpSt) (token : BitVec 32) (st : Nat) : OpSt := if o.wait = some token then { o with wait := none, st := st } else o

/-- The code of R308 of a fault's cause. -/
def engCode (c : BitVec 8) : BitVec 8 := if c = Cause.permission.code then 2 else if c = Cause.poison.code then 3 else 1

/-- What an answer of FLTRESP does to the access that waits (R371). -/
def State.resolve (s : State) (r : Rec) (retry : Bool) : State :=
  match r.who with
  | 5 =>
    match (s.task? r.task).bind fun t => t.stores.find? fun p => p.ask == some r.token with
    | some p => if retry then s.modStore p fun q => { q with ask := none } else s.faultAt p.b p.slot p.sid p.unit p.blkId .xlateFault p.wave 0
    | none => s
  | 1 => ({ s with nextId := s.nextId + 1 } : State).modHolder r.task (fun x => x.holdsToken r.token) fun (x : Sector) =>
      { x with ports := x.ports.map fun (p : Nat × PortSt) => (p.1, p.2.resolve r.token (if retry then 1 else 2) s.nextId) }
  | 2 =>
    match s.ops.find? fun o => o.st == .waiting r.token with
    | some o => if retry then s.setOp { o with st := .running } else s.engFail o (if o.kind = .inst ∨ o.kind = .stage then 0x06 else engCode r.cause) o.failAddr
    | none =>
      match s.ops.find? fun o => o.pubWait == some r.token with
      | some o =>
        let o1 := { o with pubWait := none }
        if retry then s.setOp o1
        else s.engFail o1 (if o.kind = .inst ∨ o.kind = .stage then 0x06 else engCode r.cause) o.failAddr
      | none => s
  | 3 =>
    match r.slot with
    | some k => s.modInst k.b fun i =>
        let o := (Tab.get {} i.ops (opKey k.b k.slot)).resolve r.token (if retry then 0 else r.cause.toNat)
        { i with ops := Tab.set {} i.ops (opKey k.b k.slot) o }
    | none => s
  | 4 =>
    if retry then s.settle
    else match s.launch? r.task with
      | some l => s.setLaunch { l with st := .complete }
      | none => s
  | _ => s

/-- R371 FAULT_RETRY: the access is translated and performed again. -/
def execFaultRetry (m : Master) (token : BitVec 32) (s : State) : Host.Outcome State Fault Refusal :=
  match s.answered m token false with
  | some r => .next ((s.drop r).resolve r true)
  | none => .next s

/-- R371 FAULT_FAIL: the access ends. -/
def execFaultFail (m : Master) (token : BitVec 32) (s : State) : Host.Outcome State Fault Refusal :=
  match s.answered m token false with
  | some r => .next ((s.drop r).resolve r false)
  | none => .next s

/-! ### TRAPRESP -/

/-- A sector's thread waits for the answer of a token. -/
def Sector.awaits (x : Sector) (token : BitVec 32) : Bool := x.th.wait == .answer token

/-- An answer to a trapped thread. -/
def State.answerTrap (s : State) (m : Master) (token : BitVec 32) (f : Thread → Thread) : Host.Outcome State Fault Refusal :=
  match s.answered m token true with
  | some r => .next ((s.drop r).modHolder r.task (fun x => x.awaits token) fun x => { x with th := f x.th })
  | none => .next s

/-- R415 RESUME. -/
def execTraprespResume (m : Master) (token : BitVec 32) (s : State) : Host.Outcome State Fault Refusal :=
  s.answerTrap m token fun t => t.leaveTrap s.cyc t.resumePc
/-- R415 SKIP. -/
def execTraprespSkip (m : Master) (token : BitVec 32) (s : State) : Host.Outcome State Fault Refusal :=
  s.answerTrap m token fun t => t.leaveTrap s.cyc (t.trapPc + 8)

/-- The first address of the TEXT section of a task's object (R385). -/
def State.textBase (s : State) (task : Nat) : Nat :=
  match s.task? task with
  | none => 0
  | some t =>
    match s.launch? t.launch with
    | none => 0
    | some l =>
      let o := (Tab.get {} (s.ctx t.ctx).handles l.hslot).obj
      o.va.toNat + o.textOff

/-- R415 HANDLE: the thread stays in trap state and goes on in its TEXT section. -/
def execTraprespHandle (m : Master) (token : BitVec 32) (toff : BitVec 29) (s : State) : Host.Outcome State Fault Refusal :=
  match s.answered m token true with
  | some r =>
    let pc := BitVec.ofNat 64 (s.textBase r.task + toff.toNat * 8)
    s.answerTrap m token fun t => { t with pc := pc, wait := .none, word := none }
  | none => .next s

/-- The mark of a saved thread whose task fails when its gang is resumed, with the cause and the sector of its TRAP record (R414, R416). -/
def failMark : Nat := 99

/-- R415 FAIL: the task fails with the record's cause; of a saved gang on its resume (R416). -/
def execTraprespFail (m : Master) (token : BitVec 32) (s : State) : Host.Outcome State Fault Refusal :=
  match s.answered m token true with
  | some r =>
    if s.saves.any fun v => v.task == r.task && v.sec.awaits token then
      s.answerTrap m token fun t => { t with answer := some (failMark, BitVec.ofNat 64 (r.sid * 256 + r.cause.toNat)), wait := .none }
    else .next ((s.drop r).taskFail r.task r.cause r.sid)
  | none => .next s

end Sys2Proof.Machine
end

