-- ==== Sys2Proof/Machine/Ranges.lean ====
section
/-! DEFINITION. Frames and pools (R363, R365, R378): where a page lies in its channels or stacks, whether it lies in its context's pools, the HBM channels that placement words cover (R265), and a page's bytes moved to a new placement (R286). -/

namespace Sys2Proof.Machine

open Sys2Proof

/-! ### Extents -/

/-- Bytes of backing that a page takes: eight for each byte of a versioned page (R283). -/
def backing (pw len : Nat) : Nat := if pwVer pw then 8 * len else len

/-- The channels or flash stacks over which a placement stripes. -/
def pwWays (pw : Nat) : Nat :=
  if pwKind pw = 0 then (maskBits 8 (pwStacks pw)).length * 2 ^ pwChLog pw else (maskBits 4 (pwDies pw)).length

/-- Bytes of a page in each channel or stack. -/
def frameExtent (pw len : Nat) : Nat :=
  let g := pwGran pw
  let n := (backing pw len + g - 1) / g
  (n + pwWays pw - 1) / pwWays pw * g

/-- The end of a context's HBM pool less its save area, by channel offset (R378). -/
def Ctx.hbmEnd (x : Ctx) : Nat := (x.poolHBase + x.poolHLen) * 2 ^ 16 - x.saven * 2 ^ 15

/-- A frame obeys R363, and lies in its context's pools (R365). -/
def Ctx.frameOk (x : Ctx) (pw frame len : Nat) : Bool :=
  match pwKind pw with
  | 0 =>
    let e := frame + frameExtent pw len
    decide (frame < 2 ^ 31) && decide (frame % pwGran pw = 0) && decide (e ≤ 2 ^ 31) && decide (x.poolHBase * 2 ^ 16 ≤ frame) && decide (e ≤ x.hbmEnd)
  | 1 =>
    let e := frame + frameExtent pw len
    decide (frame < 2 ^ 40) && decide (frame % 2 ^ 14 = 0) && decide (x.poolFBase * 2 ^ 24 ≤ frame) &&
      decide (e ≤ (x.poolFBase + x.poolFLen) * 2 ^ 24)
  | 2 =>
    bitsAt frame 22 34 == 0 && decide (bitsAt frame 0 22 % 512 = 0) && decide (bitsAt frame 0 22 + len ≤ 2 ^ 22)
  | _ => decide (bitsAt frame 57 7 ≤ 63) || bitsAt frame 57 7 == 127

/-! ### Channels that placement words cover (R265) -/

/-- The HBM channels, as 32 times the stack plus the channel, of a placement word. -/
def pwChannels (pw : Nat) : List Nat :=
  (maskBits 8 (pwStacks pw)).flatMap fun st => (List.range (2 ^ pwChLog pw)).map fun k => st * 32 + (pwChBase pw + k) % 32

/-- The placement word that an entry puts on channels: one that is not present or not valid puts none. -/
def RtEnt.pwOn (e : RtEnt) : Nat := if e.v && pwValid e.pw e.frame then e.pw else 3 * 2 ^ 28

/-- The channels on which a placement word puts a page. -/
def hbmChannels (pw : Nat) : List Nat := if pwKind pw = 0 then pwChannels pw else []

/-- The placement words of the entries that an update or a re-stripe in progress is to put in force. -/
def State.comingPws (s : State) : List Nat :=
  (s.regs.rtCmd.toList.map fun k => k.ent.pwOn) ++
    (s.ops.filter fun (o : EngOp) => o.kind == .rstr && o.st == .running).map fun o => o.pw.toNat

/-- A channel is covered by a placement word of some context, in force or coming, or holds part of the staging carve-out (R15, R265). -/
def State.covered (s : State) (ch : Nat) : Bool :=
  decide (0 < s.regs.carveNow) ||
    (s.ctxs.any fun c => c.2.rt.any fun e => (hbmChannels e.2.pwOn).contains ch) || s.comingPws.any fun pw => (hbmChannels pw).contains ch

/-- CYC in which a sleeping channel wakes: 2 µs (R265). -/
def wakeCyc : Nat := 1880

/-- The sleeping channels of a placement word to come begin to wake. -/
def State.startWake (s : State) (pw : Nat) : State :=
  { s with waking := (hbmChannels pw).foldl (fun t c =>
      if Tab.get false s.asleep c && (Tab.find t c).isNone then Tab.put t c (s.cyc + wakeCyc) else t) s.waking }

/-- A channel can be used. -/
def State.awake (s : State) (ch : Nat) : Bool :=
  !(Tab.get false s.asleep ch) || (Tab.find s.waking ch).any fun t => decide (t ≤ s.cyc)

/-- Every channel of a placement word can be used. -/
def State.allAwake (s : State) (pw : Nat) : Bool := (hbmChannels pw).all s.awake

/-- A placement word takes the place of another: the channels of the new one are in use, and the time from which a channel that is no longer covered is without access is now at the earliest. -/
def State.wake (s : State) (old new : Nat) : State :=
  let up := hbmChannels new
  { s with
    asleep := up.foldl (fun t c => Tab.set false t c false) s.asleep
    waking := up.foldl (fun t c => Tab.del t c) s.waking
    lastUse := (up ++ hbmChannels old).foldl (fun t c => Tab.set 0 t c s.cyc) s.lastUse }

/-- The device uses every channel, as a save area does (R265, R379). -/
def State.useAll (s : State) : State := { s with asleep := [], waking := [], lastUse := (List.range 256).map fun k => (k, s.cyc) }

/-! ### Copies of an entry (R366) -/

/-- Every copy of an entry removed: from range caches, port entries and edge TLBs (R364 step 3, R286). -/
def State.dropCopies (s : State) (c : BitVec 8) (idx : Nat) : State :=
  { s with
    sectors := s.sectors.map fun (p : Nat × Sector) =>
      if p.2.ctx = c then
        (p.1, { p.2 with
          rcache := p.2.rcache.filter fun k => k != idx
          ports := p.2.ports.map fun (q : Nat × PortSt) => if q.2.entry = some idx then (q.1, { q.2 with entry := none }) else q })
      else p
    edgeTlb := s.edgeTlb.map fun (p : Nat × List (Nat × Nat)) => (p.1, p.2.filter fun e => e != (c.toNat, idx)) }

/-! ### Moving a page (R286) -/

/-- The offset of a page's backing that lies at a byte of HBM, if one does. -/
def hbmOff (pw frame len phys : Nat) : Option Nat :=
  let st := maskBits 8 (pwStacks pw)
  let g := pwGran pw
  let c := 2 ^ pwChLog pw
  let off := phys % 2 ^ 31
  match st.findIdx? fun k => k == phys / 2 ^ 36 with
  | none => none
  | some i =>
    let j := (phys / 2 ^ 31 % 32 + 32 - pwChBase pw) % 32
    if c ≤ j ∨ off < frame ∨ 2 ^ 39 ≤ phys then none
    else
      let o := ((off - frame) / g * (st.length * c) + j * st.length + i) * g + (off - frame) % g
      if o < backing pw len then some o else none

/-- The runs of HBM that a mapped virtual range lies in, by the entries in force. -/
def State.segsOf (s : State) (c : BitVec 8) (va n : Nat) : List Seg :=
  (s.ctx c).rt.filterMap fun (p : Nat × RtEnt) =>
    let e := p.2
    let lo := max va e.vbase
    let hi := min (va + n) (e.vbase + e.len)
    if e.v ∧ pwValid e.pw e.frame ∧ pwKind e.pw = 0 ∧ lo < hi then
      some ⟨e.pw, e.frame, e.len, backing e.pw (lo - e.vbase), backing e.pw (hi - lo)⟩
    else none

/-- The first bytes of the 256-byte granules of a run of HBM. -/
def Seg.granules (g : Seg) : List Nat := (List.range (g.n / 256)).map fun k => hbmPhys g.pw g.frame (g.off + k * 256)

/-- The granules of the frames of every handle slot that is not EMPTY: those that its LOAD wrote, wherever a re-stripe has moved them since, mapped or not (R81, R384). -/
def State.sealedFrames (s : State) : List Nat :=
  s.ctxs.flatMap fun c => c.2.handles.flatMap fun h => if h.2.st = .empty then [] else h.2.segs.flatMap Seg.granules

/-- The frames of sealed objects follow a page that is re-striped (R286). -/
def State.moveSealed (s : State) (c : BitVec 8) (pw frame pw2 frame2 : Nat) : State :=
  s.modCtx c fun x => { x with handles := x.handles.map fun (h : Nat × Handle) =>
    (h.1, { h.2 with segs := h.2.segs.map fun g => if g.pw = pw ∧ g.frame = frame then { g with pw := pw2, frame := frame2 } else g }) }

/-- A page's bytes and poison copied to a new placement; what the new place held before goes. -/
def State.movePage (s : State) (pw frame pw2 frame2 len : Nat) : State :=
  let keep := fun (a : Nat) => (hbmOff pw2 frame2 len a).isNone
  { s with
    mem := s.mem.foldl (fun t p => match hbmOff pw frame len p.1 with
      | some o => Tab.set blank t (hbmPhys pw2 frame2 o) p.2
      | none => t) (s.mem.filter fun p => keep p.1)
    poison := s.poison.foldl (fun t p => match hbmOff pw frame len (p.1 * 64) with
      | some o => Tab.set false t (hbmPhys pw2 frame2 o / 64) p.2
      | none => t) (s.poison.filter fun p => keep (p.1 * 64)) }

/-- A held store of a page at its new placement. -/
def StoreKind.moved (k : StoreKind) (idx pw frame : Nat) : StoreKind :=
  match k with
  | .page i _ _ off d => if i = idx then .page i pw frame off d else k
  | .version i _ _ off v => if i = idx then .version i pw frame off v else k
  | k => k

/-- The stores that owners and waves still hold for a page go to its new placement (R286). -/
def State.moveWrites (s : State) (c : BitVec 8) (idx pw frame : Nat) : State :=
  { s with
    tasks := s.tasks.map fun t => if t.ctx = c then { t with stores := t.stores.map fun p => { p with k := p.k.moved idx pw frame } } else t }

end Sys2Proof.Machine
end

