-- ==== Sys2Proof/Machine/EngineCtl.lean ====
section
/-! DEFINITION. The words that issue engine operations (R309 to R314), installs and stages (R348, R352), and the waits for time and for chunks (R316, R317). -/

namespace Sys2Proof.Machine

open Sys2Proof

/-! ### cpy, gath, scat (R309 to R311) -/

/-- The state in which a word that may need a free value for its TRAPVAL ends. -/
def State.drawn (s : State) : State := { s with fresh := s.fresh + 1 }

/-- A copy of a map's elements to a destination, with or without an index list (R309, R310). -/
def State.copyOp (s : State) (rd : Reg) (dh dm : DReg) (ra rb : Reg) (dst : EngDst) (kind : EngKind) (idx : Bool) : Res State :=
  let d := s.rdD dm
  let m := d.addBase (s.rdS rb)
  if d.tag ≠ tagTmap then tagTrap d
  else if (!d.win && d.idx) != idx then s.mapTrap
  else
    let tgt := match dst with
      | .mem => s.engDest (s.rdS ra) m.bytes
      | .edge prog slice => s.edgeDest prog slice (s.rdS ra) m.bytes
    s.engIssue dh rd d (s.rdS rb) m.bytes kind tgt id

/-- R309 cpy. -/
def execCpy (rd : Reg) (dh dm : DReg) (ra rb : Reg) (dst : EngDst) (s : State) : Host.Outcome State Fault Refusal :=
  s.drawn.finish (s.copyOp rd dh dm ra rb dst .cpy false)
/-- R310 gath. -/
def execGath (rd : Reg) (dh dm : DReg) (ra rb : Reg) (dst : EngDst) (s : State) : Host.Outcome State Fault Refusal :=
  s.drawn.finish (s.copyOp rd dh dm ra rb dst .gath true)

/-- The addresses of the first and last bytes of the elements that a scatter writes, in map order (R311). -/
def State.scatBytes (s : State) (m : Desc) : List Word :=
  (List.range m.count).flatMap fun i =>
    match (if m.win then (m.winElem i).1 else some (m.elemAddr (s.indexAt s.cur m) i)) with
    | some a => [a, a + BitVec.ofNat 64 (m.esz - 1)]
    | none => []

/-- The check of an address that a scatter writes: an SF page takes PERMISSION, and one whose entry is being replaced waits (R306, R364). -/
def State.scatCheck (s : State) (va : Word) : Res Unit :=
  match (if isVirt va then findRt (s.ctx s.ctxId).rt va.toNat else none) with
  | some (i, e) =>
    if s.rtHeld s.ctxId i then .hold else if pwValid e.pw e.frame && pwKind e.pw == 1 then .trap .permission va else .ok ()
  | none => .ok ()

/-- Checks made one after another. -/
def State.scatChecks (s : State) : List Word → Res Unit
  | [] => .ok ()
  | a :: l => (s.scatCheck a).bind fun _ => s.scatChecks l

/-- A scatter: dense bytes of scratch at S[sa] become the elements of a map whose base is virtual (R311). An SF destination takes PERMISSION (R306). -/
def State.scatOp (s : State) (rd : Reg) (dh dm : DReg) (ra rb : Reg) : Res State :=
  let d := s.rdD dm
  let m := d.addBase (s.rdS rb)
  let base := BitVec.ofNat 64 m.base
  if d.tag ≠ tagTmap then tagTrap d
  else if !isVirt base then s.mapTrap
  else
    let tgt : Res EngTo := (s.scatChecks (s.scatBytes m)).bind fun _ => .ok (.virt base)
    s.engIssue dh rd d (s.rdS rb) m.bytes .scat tgt fun o => { o with src := s.rdS ra }

/-- R311 scat. -/
def execScat (rd : Reg) (dh dm : DReg) (ra rb : Reg) (s : State) : Host.Outcome State Fault Refusal :=
  s.drawn.finish (s.scatOp rd dh dm ra rb)

/-! ### coll (R312) -/

/-- A coll issued: the n-th of its thread. -/
def State.collOp (s : State) (f : Nat) (fmt : BitVec 4) (sc : CollScope) (rd : Reg) (dh dm : DReg) (ra rb : Reg) : Res State :=
  let d := s.rdD dm
  let n := s.th.count .coll + 1
  let gangs := match sc with
    | .gang => 1
    | .domain => (s.rdS rb).toNat / 2 ^ 16 % 2 ^ 16
  let len := if f = 3 then d.bytes * s.gangSids.length * gangs else d.bytes
  if d.tag ≠ tagTmap then tagTrap d
  else
    (s.engIssue dh rd d 0 len (.coll f fmt (sc == .domain)) (s.engDest (s.rdS ra) len) fun o => { o with seqn := n, key := s.rdS rb }).bind
      fun t => .ok (t.modTh fun h => h.counted .coll)

/-- R312 coll.sum. -/
def execCollSum (fmt : BitVec 4) (sc : CollScope) (rd : Reg) (dh dm : DReg) (ra rb : Reg) (s : State) : Host.Outcome State Fault Refusal :=
  s.finish (s.collOp 0 fmt sc rd dh dm ra rb)
/-- R312 coll.max. -/
def execCollMax (fmt : BitVec 4) (sc : CollScope) (rd : Reg) (dh dm : DReg) (ra rb : Reg) (s : State) : Host.Outcome State Fault Refusal :=
  s.finish (s.collOp 1 fmt sc rd dh dm ra rb)
/-- R312 coll.min. -/
def execCollMin (fmt : BitVec 4) (sc : CollScope) (rd : Reg) (dh dm : DReg) (ra rb : Reg) (s : State) : Host.Outcome State Fault Refusal :=
  s.finish (s.collOp 2 fmt sc rd dh dm ra rb)
/-- R312 coll.gather. -/
def execCollGather (fmt : BitVec 4) (sc : CollScope) (rd : Reg) (dh dm : DReg) (ra rb : Reg) (s : State) : Host.Outcome State Fault Refusal :=
  s.finish (s.collOp 3 fmt sc rd dh dm ra rb)
/-- R312 coll.bcast. -/
def execCollBcast (fmt : BitVec 4) (sc : CollScope) (rd : Reg) (dh dm : DReg) (ra rb : Reg) (s : State) : Host.Outcome State Fault Refusal :=
  s.finish (s.collOp 4 fmt sc rd dh dm ra rb)

/-! ### publ (R314) -/

/-- The status word of a publish or an install: an aligned object on a versioned page that may be read and written (R314, R348, R361, R369). -/
def State.statusWord (s : State) (ea : Word) (k : State → Tgt → Res State) : Res State :=
  if ea.toNat % 8 ≠ 0 then .trap .misaligned ea
  else match s.xlate s.ctxId s.cur ea .both with
    | .hold => .hold
    | .fault => .trap .xlateFault ea
    | .perm => .trap .permission ea
    | .ok t => if t.ver then k (s.noteRc t) t else .trap .permission ea

/-- The operation of a handle that publ may still name. -/
def State.publOp (s : State) (d : Desc) : Res EngOp :=
  if d.tag ≠ tagEngine then tagTrap d
  else match s.op? d.img.toNat with
    | none => .trap .handle 0x5
    | some o =>
      if o.kind == .inst || o.kind == .stage then .trap .handle 0x6
      else if o.publ.isSome || !o.live then .trap .handle 0x5
      else .ok o

/-- R314 publ: the handle is used up, sd receives the promise, and the publish follows as PUBLISH_STEP. -/
def execPubl (rd : Reg) (dr : DReg) (ra rb : Reg) (s : State) : Host.Outcome State Fault Refusal :=
  s.finish ((s.publOp (s.rdD dr)).bind fun o =>
    s.statusWord (s.rdS ra) fun u t =>
      let u1 := { u with nextId := u.nextId + 1 }.setOp { o with publ := some (s.rdS ra, s.rdS rb), order := u.nextId, stAt := t.held }
      .ok ((u1.wrD dr {}).wrS rd (BitVec.ofNat 64 o.due)).advance)

/-! ### rstr (R313) -/

/-- An accepted re-stripe of an entry. -/
def restripe (c : BitVec 8) (idx : Nat) (va : Word) (pw : BitVec 32) : EngOp :=
  { id := 0, kind := .rstr, sid := 0, ctx := c, task := 0, src := va, entry := idx, pw := pw, tgt := .virt va }

/-- The issue status of a re-stripe of a page to a placement word, with the entry. An entry with an invalid word counts as not present (R280, R313). -/
def State.rstrCheck (s : State) (va v : Word) : BitVec 8 ⊕ (Nat × RtEnt) :=
  let pw := v.toNat % 2 ^ 32
  match (if isVirt va then findRt (s.ctx s.ctxId).rt va.toNat else none) with
  | none => .inl 0x01
  | some (i, e) =>
    if !pwValid e.pw e.frame then .inl 0x01
    else if pwKind e.pw ≠ 0 ∨ pwKind pw ≠ 0 then .inl 0x02
    else if v.toNat / 2 ^ 32 ≠ 0 ∨ !pwValid pw 0 then .inl 0x03
    else if pwVer e.pw ≠ pwVer pw then .inl 0x04
    else if !({ s with ops := s.ops ++ [restripe s.ctxId i va (v.setWidth 32)] } : State).residentOk then .inl 0x05
    else .inr (i, e)

/-- The word's page is held while an update or a cut-over of its entry is in progress (R286, R364). -/
def State.rstrHeld (s : State) (va : Word) : Bool :=
  match (if isVirt va then findRt (s.ctx s.ctxId).rt va.toNat else none) with
  | some (i, _) => s.rtHeld s.ctxId i
  | none => false

/-- R313 rstr: sd receives the issue status; an accepted re-stripe sets MIG, the sleeping channels of its word begin to wake (R265), and it gives its handle. -/
def execRstr (rd : Reg) (dh : DReg) (ra rb : Reg) (s : State) : Host.Outcome State Fault Refusal :=
  if s.rstrHeld (s.rdS ra) then .next s
  else match s.rstrCheck (s.rdS ra) (s.rdS rb) with
  | .inl k => .next (((s.noteRcAt (s.rdS ra)).wrD dh {}).wrS rd (k.setWidth 64)).advance
  | .inr (i, e) =>
    if !s.engRoom || !s.writesDone s.cur then .next s
    else .next ((((s.noteRcAt (s.rdS ra)).setRt s.ctxId i (e.setMig true)).startWake ((s.rdS rb).toNat % 2 ^ 32)).issueOp dh rd 0 (restripe s.ctxId i (s.rdS ra) ((s.rdS rb).setWidth 32)))

/-! ### inst and stage (R348, R352) -/

/-- The checks of the map of an install or a stage: one dense range of whole flash pages (R348). -/
def instMap (d : Desc) (k : Res State) : Res State :=
  if d.tag ≠ tagTmap then tagTrap d
  else if d.win ∨ d.idx ∨ d.dims ≠ 1 ∨ d.stride 0 ≠ d.esz then .trap .handle 0x301
  else if d.bytes % 16384 ≠ 0 then .trap .handle 0x302
  else if d.base % 16384 ≠ 0 then .trap .misaligned (BitVec.ofNat 64 d.base)
  else k

/-- An install or a stage issued once its status word has passed its checks (R348). -/
def State.flashIssue (s : State) (rd : Reg) (dh : DReg) (d : Desc) (rb : Reg) (kind : EngKind) (tgt : EngTo) (key : Option (BitVec 4)) : Res State :=
  s.statusWord (s.rdS rb) fun u t =>
    if !s.engRoom || !s.writesDone s.cur then .hold
    else
      let o : EngOp :=
        { id := 0, kind := kind, sid := 0, ctx := 0, task := 0, desc := d, src := BitVec.ofNat 64 d.base, tgt := tgt, len := d.bytes
          word := s.rdS rb, keySlot := key, order := s.nextId, stAt := t.held }
      .ok (u.issueOp dh rd s.promised o)

/-- R348 inst. -/
def execInst (rd : Reg) (dh dm : DReg) (ra rb : Reg) (key : Option (BitVec 4)) (s : State) : Host.Outcome State Fault Refusal :=
  let d := s.rdD dm
  s.finish (instMap d
    (if (s.rdS ra).toNat % 16384 ≠ 0 then .trap .misaligned (s.rdS ra)
     else s.flashIssue rd dh d rb .inst (.virt (s.rdS ra)) key))
/-- R352 stage. -/
def execStage (rd : Reg) (dh dm : DReg) (rb : Reg) (key : Option (BitVec 4)) (s : State) : Host.Outcome State Fault Refusal :=
  let d := s.rdD dm
  s.finish (instMap d (s.flashIssue rd dh d rb .stage (.virt (BitVec.ofNat 64 d.base)) key))

/-! ### twait, twait.rel, bmwait (R316, R317) -/

/-- The acting thread waits until a time, or goes on when it has come. -/
def State.waitUntil (s : State) (t : Nat) : State := if t ≤ s.cyc then s.advance else s.setWait (.until t)

/-- R316 twait. -/
def execTwait (ra : Reg) (s : State) : Host.Outcome State Fault Refusal := .next (s.waitUntil (s.rdS ra).toNat)
/-- R316 twait.rel: its deadline is set when it first executes. -/
def execTwaitRel (ra : Reg) (s : State) : Host.Outcome State Fault Refusal :=
  match s.th.wait with
  | .until t => .next (s.waitUntil t)
  | _ => .next (s.waitUntil (s.cyc + (s.rdS ra).toNat))

/-- The chunks of a mask (R317). -/
def maskChunks (b : Nat) (m : Word) : List Nat := ((List.range 64).filter fun i => m.getLsbD i).map fun i => (b + i) % 8192

/-- The trap of a status (R308, R317). -/
def statusCause (k : BitVec 8) : Cause :=
  if k = 0x02 then .permission else if k = 0x03 ∨ k = 0x06 then .poison else if k = 0x05 then .handle else .xlateFault

/-- The first chunk listed that belongs to a failed operation, with that operation. -/
def State.failedChunk (s : State) (l : List Nat) : Option EngOp :=
  l.findSome? fun k => match (Tab.find (s.sec s.cur).chunkOp k).bind s.op? with
    | some o => if o.st = .failed then some o else none
    | none => none

/-- The bits of a mask whose chunks have not committed. -/
def State.missing (s : State) (b : Nat) (m : Word) : Word :=
  BitVec.ofNat 64 (((List.range 64).filter fun i => m.getLsbD i && !(s.sec s.cur).bit ((b + i) % 8192)).foldl (fun a i => a + 2 ^ i) 0)

/-- The deadline that a promise names: the promised time of an operation of the sector, as it was given or stood after a resume, moved on by the time its gang has spent saved since (R249), else the value itself. -/
def State.promiseDue (s : State) (v : Nat) : Nat :=
  s.ops.foldl (fun m o => if o.ofSector (s.sec s.cur) ∧ (o.promise = v ∨ o.due = v ∨ o.given.contains v) then max m o.due else m) v

/-- The test of a bmwait: with a promise once at its time, without one until the mask is complete or a chunk of it has failed (R317). -/
def State.maskWait (s : State) (ra rb rc : Reg) : Host.Outcome State Fault Refusal :=
  let b := (s.rdS ra).toNat % 8192
  let m := s.rdS rb
  let miss := s.missing b m
  if rc ≠ 0 then
    let t := s.promiseDue (s.rdS rc).toNat
    if s.cyc < t then .next (s.setWait (.until t))
    else s.finish (if miss = 0 then .ok s.advance else .trap .promiseMissed miss)
  else match s.failedChunk (maskChunks b m) with
    | some o => s.finish (.trap (statusCause o.status) o.failAddr)
    | none => if miss = 0 then .next s.advance else .next s

/-- R317 bmwait. -/
def execBmwait (ra rb rc : Reg) (s : State) : Host.Outcome State Fault Refusal := s.maskWait ra rb rc

/-! ### Deadlines (R316, R317) -/

/-- The thread waits inside its word for a time that has come. -/
def Thread.timeCome (t : Thread) (cyc : Nat) : Bool :=
  match t.wait with
  | .until d => decide (d ≤ cyc)
  | _ => false

/-- R316 TWAIT_DEADLINE: the deadline of a thread in twait arrives, and the thread goes on. -/
def execTwaitDeadline (sid : BitVec 8) (s : State) : Host.Outcome State Fault Refusal :=
  match s.ctlTurn sid.toNat with
  | .exec i u =>
    match i with
    | .twait _ => if u.th.timeCome u.cyc then .next u.advance else .next s
    | .twaitRel _ => if u.th.timeCome u.cyc then .next u.advance else .next s
    | _ => .next s
  | .done _ => .next s

/-- R317 BMWAIT_DEADLINE: the promise of a thread in bmwait arrives, and the mask is tested. -/
def execBmwaitDeadline (sid : BitVec 8) (s : State) : Host.Outcome State Fault Refusal :=
  match s.ctlTurn sid.toNat with
  | .exec (.bmwait ra rb rc) u => if u.th.timeCome u.cyc then u.maskWait ra rb rc else .next s
  | .exec _ _ => .next s
  | .done _ => .next s

end Sys2Proof.Machine
end

