-- ==== Sys2Proof/Machine/EngineEv.lean ====
section
/-! DEFINITION. The events of engine operations: chunks (R307, R312), completion (R305), publishing (R314, R315), re-stripes (R285, R286, R313), and writes to read-duplicated lines (R282). -/

namespace Sys2Proof.Machine

open Sys2Proof

/-- An operation that Madder works on. -/
def EngOp.madder (o : EngOp) : Bool :=
  match o.kind with
  | .rstr => false
  | .inst => false
  | .stage => false
  | _ => true

/-- An operation of a collective (R312). -/
def EngOp.isColl (o : EngOp) : Bool :=
  match o.kind with
  | .coll _ _ _ => true
  | _ => false

/-! ### CHUNK_COMMIT and ENGINE_COMPLETE -/

/-- A piece noted as done. -/
def State.pieceDone (s : State) (id k : Nat) : State :=
  match s.op? id with
  | some o => s.setOp { o with done := o.done ++ [k] }
  | none => s

/-- One piece of an operation moved from its source to its destination. -/
def State.movePiece (s : State) (o : EngOp) (k : Nat) : State :=
  match s.engPiece o k with
  | .bytes u l =>
    match u.engPut o k l with
    | .bytes v _ => v.pieceDone o.id k
    | r => r.stop o
  | r => r.stop o

/-- R307 CHUNK_COMMIT: one piece of 512 bytes; a scatter's follow one another (R311), a collective forms its result first (R312). -/
def execChunkCommit (id k : Nat) (s : State) : Host.Outcome State Fault Refusal :=
  match s.op? id with
  | none => .next s
  | some o =>
    if o.st ≠ .running ∨ !o.madder ∨ o.pieces ≤ k ∨ o.done.contains k ∨ (o.kind = .scat ∧ k ≠ o.done.length) then .next s
    else if o.isColl && !o.started then
      match s.collMeet o with
      | some l => .next (s.collForm l)
      | none => .next s
    else .next (s.movePiece o k)

/-- The bytes that an operation has gathered for an edge slice written into it; a granule written whole keeps no poison (R275, R306, R410). -/
def State.putSlice (s : State) (o : EngOp) : State :=
  match o.tgt with
  | .edge prog j off =>
    let a := if prog then edgeProgAt 0 j 0 else edgeAt 0 j 0
    let s1 := o.shadow.foldl (fun (s : State) p => s.wrByte (a + p.1) p.2) s
    { s1 with poison := poisonAfter s1.poison (a + off) o.len }
  | _ => s

/-- R305 ENGINE_COMPLETE: every piece is done. -/
def execEngineComplete (id : Nat) (s : State) : Host.Outcome State Fault Refusal :=
  match s.op? id with
  | none => .next s
  | some o =>
    if o.st ≠ .running ∨ !o.madder ∨ o.done.length < o.pieces ∨ (o.isColl ∧ !o.started) then .next s
    else
      let edge : Bool := match o.tgt with
        | .edge _ _ _ => true
        | _ => false
      .next (((s.putSlice o).setOp { o with st := .complete, shadow := if edge then [] else o.shadow }).noteEnded id)

/-! ### PUBLISH_STEP (R314, R315) -/

/-- A publish or an install of the same thread comes before an operation's and has not taken effect (R315, R337). -/
def State.pubBefore (s : State) (o : EngOp) : Bool :=
  s.ops.any fun p => p.task == o.task && p.s4 == o.s4 && p.live && decide (p.order < o.order) && (p.publ.isSome || p.kind == .inst)

/-- The granules of a shadow, each with its first address and its bytes. -/
def EngOp.granules (o : EngOp) : List (Word × List (Option Byte)) :=
  ((o.shadow.map fun p => p.1 / 64).eraseDups).map fun g => (BitVec.ofNat 64 (g * 64), (List.range 64).map fun i => Tab.find o.shadow (g * 64 + i))

/-- The granules of a shadow meet the errors of their transfers, one after another; a contained one is noted. The answer says whether all of them can be swapped in (R404, R405, R424). -/
def State.meetShadow (s : State) (o : EngOp) : List (Word × List (Option Byte)) → Bool × State
  | [] => (true, s)
  | (va, _) :: l =>
    if ((s.op? o.id).any fun x => x.contained.contains va.toNat) then s.meetShadow o l
    else match s.xlateV o.ctx va.toNat .write with
      | .ok t => match s.strike (engWho o.id o.sid) t 64 with
        | .go u => u.meetShadow o l
        | .wait u => (false, u)
        | .bad u => (u.modOp o.id fun x => { x with contained := x.contained ++ [va.toNat] }).meetShadow o l
      | _ => s.meetShadow o l

/-- A shadow swapped in, granule by granule, at the places that its addresses have now; a contained granule is poisoned (R405). -/
def State.swapIn (s : State) (o : EngOp) : List (Word × List (Option Byte)) → EngGot
  | [] => .bytes s []
  | (va, l) :: t =>
    match s.xlateV o.ctx va.toNat .write with
    | .hold => .wait s
    | .fault => .fault s va .xlateFault .write
    | .perm => .fault s va .permission .write
    | .ok p =>
      if s.storeBarred p 64 then .fault s va .permission .write
      else if o.contained.contains va.toNat then (s.poisonRun p.phys 64).swapIn o t
      else (s.wrSome p.phys l).swapIn o t

/-- A publish or an install whose destination no longer translates waits for the handler; a FAIL fails the operation (R308). -/
def State.pubFault (s : State) (o : EngOp) (va : Word) (c : Cause) : State :=
  let r := s.faultRec o.ctx o.task o.tidx o.sid va c 2 1 (o.id % 16) 0 2 none
  r.2.setOp { o with pubWait := some r.1, failAddr := va }

/-- The version of a status word created by an operation; contained, it is not created and its line is poisoned (R284, R404, R405). -/
def State.statusMade (s : State) (o : EngOp) (t : Tgt) (bad : Bool) (w : Word) : State :=
  let u := s.forget (engWho o.id o.sid) t 8
  if bad then u.poisonRun t.line 64 else u.makeVersion t w

/-- R314 PUBLISH_STEP: in one step the shadow of a completed operation is swapped in and the version with its status is created, at the word as it was translated at issue. A place of the shadow that no longer translates goes to the handler, and the publish follows its answer. -/
def execPublishStep (id : Nat) (s : State) : Host.Outcome State Fault Refusal :=
  match s.op? id with
  | none => .next s
  | some o =>
    let isOver : Bool := o.st == .complete || o.st == .failed
    match o.publ with
    | none => .next s
    | some (_, v) =>
      if !isOver || !o.live || o.pubWait.isSome || s.pubBefore o || !s.writesDone o.sid then .next s
      else match s.statusTgt o with
        | none => .next (s.setOp { o with live := false, shadow := [] })
        | some t =>
          if s.layerHeld t.pw t.off || s.vFull t.line then .next s
          else
            let gs := if o.st = .complete then o.granules else []
            match s.meetShadow o gs with
            | (false, u) => .next u
            | (true, u0) =>
              let go := fun (u : State) (bad : Bool) => match u.swapIn ((u.op? id).getD o) gs with
                | .wait _ => Host.Outcome.next u
                | .fault _ va c _ => .next (u.pubFault o va c)
                | .bad _ c va => .next (u.engFail o c va)
                | .bytes v2 _ =>
                  let w : Word := BitVec.ofNat 64 (v.toNat / 256 * 256 + o.status.toNat)
                  .next ((v2.setOp { o with live := false, shadow := [] }).statusMade o t bad w)
              match u0.meet (engWho o.id o.sid) t 8 with
              | .wait u => .next u
              | .go u => go u false
              | .bad u => go u true

/-! ### DUP_WRITE_PERFORMED (R282) -/

/-- R282 DUP_WRITE_PERFORMED: every acknowledgement has arrived, and the write is performed at its home, after the writer's earlier ones to the line; contained, it poisons its granules (R405). -/
def execDupWritePerformed (i : Nat) (s : State) : Host.Outcome State Fault Refusal :=
  match s.dups[i]? with
  | none => .next s
  | some d =>
    let e : RtEnt := Tab.get {} (s.ctx d.ctx).rt d.idx
    if (s.dups.take i).any fun e => e.sid == d.sid && e.phys / 128 == d.phys / 128 then .next s
    else match s.strike d.sid ⟨some d.idx, e.pw, e.frame, d.va.toNat, d.phys⟩ d.data.length with
      | .wait u => .next u
      | .go u => .next { u.store d.phys d.data with dups := u.dups.eraseIdx i }
      | .bad u => .next { u.poisonRun d.phys d.data.length with dups := u.dups.eraseIdx i }

/-! ### CUT_OVER (R286, R313) -/

/-- The new frame lies in the pool and meets no frame that an entry of the context maps, or that holds a sealed object (R81, R313). -/
def State.frameFree (s : State) (c : BitVec 8) (pw frame len : Nat) : Bool :=
  (s.ctx c).frameOk pw frame len && ((s.ctx c).rt.all fun e =>
    !(e.2.v && pwValid e.2.pw e.2.frame && pwKind e.2.pw == 0) ||
      decide (e.2.frame + frameExtent e.2.pw e.2.len ≤ frame) || decide (frame + frameExtent pw len ≤ e.2.frame)) &&
  s.sealedFrames.all fun a => (hbmOff pw frame len a).isNone

/-- The transfers of a re-stripe's copy, from the old place of its page and to the new one: whether all of them are over. A contained one leaves its line poisoned (R404, R405, R424). -/
def State.meetMove (s : State) (o : EngOp) (e : RtEnt) (pw frame : Nat) : State × Bool :=
  let who := engWho o.id o.sid
  let old : Tgt := ⟨some o.entry, e.pw, e.frame, 0, pagePhys e.pw e.frame 0⟩
  let a := s.meetPage who old e.len
  let b := a.1.meetPage who ⟨some o.entry, pw, frame, 0, pagePhys pw frame 0⟩ e.len
  match a.2, b.2 with
  | some l, some m => ((l ++ m).foldl (fun (s : State) k => s.poisonRun (old.physLine k * 128) 128) (b.1.forgetAll who), true)
  | _, _ => (b.1, false)

/-- R286 CUT_OVER: the channels of the new word are awake (R265); the page is drained first, its new accesses held, until every access accepted at the old home has been performed; then its entry takes the new word and frame in one step, with the bytes as the old home holds them, and its copies go (R366), and what was held goes on. The frame that the device finds is a free value; without one the re-stripe fails with NOSPACE (R308). -/
def execCutOver (id : Nat) (s : State) : Host.Outcome State Fault Refusal :=
  match s.op? id with
  | none => .next s
  | some o =>
    let same := fun (p : EngOp) => p.restripes o.ctx o.entry
    if o.kind ≠ .rstr ∨ o.st ≠ .running ∨ !s.allAwake o.pw.toNat ∨ (s.ops.any fun p => same p && decide (p.id < o.id)) then .next s
    else if s.dups.any fun d => d.ctx == o.ctx && d.idx == o.entry then .next (s.setOp { o with draining := true })
    else
      let e := Tab.get {} (s.ctx o.ctx).rt o.entry
      let more := s.ops.any fun p => same p && p.id != o.id
      let pw := o.pw.toNat
      let fail : State := (({ s with fresh := s.fresh + 1 } : State).setRt o.ctx o.entry (e.setMig more)).engFail o 0x07 o.failAddr
      match Config.rstrFrame s.fresh with
      | some f =>
        if s.frameFree o.ctx pw f.toNat e.len then
          match s.meetMove o e pw f.toNat with
          | (u, false) => .next u
          | (u, true) =>
            let s0 := { u with fresh := s.fresh + 1 }
            let e2 : RtEnt := ({ e.setPw pw with w2 := f } : RtEnt).setMig more
            let s1 := ((s0.movePage e.pw e.frame pw f.toNat e.len).setRt o.ctx o.entry e2).moveWrites o.ctx o.entry pw f.toNat
            let s2 := (s1.dropCopies o.ctx o.entry).moveSealed o.ctx e.pw e.frame pw f.toNat
            .next (((s2.wake e.pw pw).setOp { o with st := .complete, frame := f }).noteEnded id).flushRecs.settle
        else .next fail.flushRecs.settle
      | none => .next fail.flushRecs.settle

end Sys2Proof.Machine
end

