-- ==== Sys2Proof/Machine/Keccak.lean ====
section
/-! DEFINITION. The Keccak permutation and what the spec names by its standards: SHA3-512 (R81, R396, R429) and KMAC256 (R356). -/

namespace Sys2Proof.Machine

open Sys2Proof

/-! ### The permutation: lane (x, y) of a state stands at x + 5 y -/

/-- The bits that the round constants are made of: the low bits of a shift register of eight that starts at 1. -/
def shiftBits : Nat → Nat → List Bool
  | 0, _ => []
  | n + 1, r => r.testBit 0 :: shiftBits n (if r < 128 then 2 * r else (2 * r) ^^^ 0x171)

/-- A round constant of seven such bits: they stand at bits 0, 1, 3, 7, 15, 31 and 63. -/
def roundWord (l : List Bool) : Nat := l.zipIdx.foldl (fun n p => if p.1 then n + 2 ^ (2 ^ p.2 - 1) else n) 0

/-- Theta: each lane with the parity of the column before it and the turned one of the column after it. -/
def mixColumns (a : List Word) : List Word :=
  let par := (List.range 5).map fun x => (List.range 5).foldl (fun (w : Word) y => w ^^^ a.getD (x + 5 * y) 0) 0
  a.zipIdx.map fun p => p.1 ^^^ par.getD ((p.2 + 4) % 5) 0 ^^^ (par.getD ((p.2 + 1) % 5) 0).rotateLeft 1

/-- Where pi takes a lane. -/
def piPlace (i : Nat) : Nat := i / 5 + 5 * ((2 * (i % 5) + 3 * (i / 5)) % 5)

/-- Rho and pi on the lanes that pi takes round: the k-th lane of the walk turns by the k-th triangular number and goes to the next one's place. -/
def turnLanes (a : List Word) : Nat → Nat → Nat → Nat → List Word → List Word
  | 0, _, _, _, b => b
  | n + 1, k, r, i, b => turnLanes a n (k + 1) (r + k + 1) (piPlace i) (b.set (piPlace i) ((a.getD i 0).rotateLeft (r % 64)))

/-- Chi on a row of five lanes. -/
def chiRow : List Word → List Word
  | [a, b, c, d, e] => [a ^^^ (~~~b &&& c), b ^^^ (~~~c &&& d), c ^^^ (~~~d &&& e), d ^^^ (~~~e &&& a), e ^^^ (~~~a &&& b)]
  | l => l

/-- Chi on so many rows. -/
def chiRows : Nat → List Word → List Word
  | 0, l => l
  | n + 1, l => chiRow (l.take 5) ++ chiRows n (l.drop 5)

/-- Rounds of the permutation on a state, with seven bits for the constant of each. -/
def keccakRounds : Nat → List Bool → List Word → List Word
  | 0, _, a => a
  | n + 1, bits, a =>
    let b := mixColumns a
    match chiRows 5 (turnLanes b 24 1 1 1 b) with
    | w :: l => keccakRounds n (bits.drop 7) ((w ^^^ BitVec.ofNat 64 (roundWord (bits.take 7))) :: l)
    | [] => []

/-- The permutation. -/
def keccakF (a : List Word) : List Word := keccakRounds 24 (shiftBits 168 1) a

/-! ### The sponge -/

/-- The bytes that a message is followed by: a suffix, zeros up to a whole block, and a last bit. -/
def spongeTail (rate : Nat) (suffix : Byte) (len : Nat) : List Byte :=
  let z := rate - 1 - len % rate
  bytesOf (z + 1) (suffix.toNat + 2 ^ (8 * z + 7))

/-- A block of bytes added to a state. -/
def addBlock (a : List Word) (l : List Byte) : List Word := a.zipIdx.map fun p => p.1 ^^^ BitVec.ofNat 64 (natOf ((l.drop (8 * p.2)).take 8))

/-- So many blocks of a message absorbed into a state. -/
def absorbN (rate : Nat) : Nat → List Byte → List Word → List Word
  | 0, _, a => a
  | n + 1, m, a => absorbN rate n (m.drop rate) (keccakF (addBlock a (m.take rate)))

/-- At most one block of output of a sponge. -/
def sponge (rate : Nat) (suffix : Byte) (n : Nat) (m : List Byte) : List Byte :=
  let a := absorbN rate (m.length / rate + 1) (m ++ spongeTail rate suffix m.length) (List.replicate 25 0)
  (a.flatMap fun w => bytesOf 8 w.toNat).take n

/-- SHA3-512. -/
def sha3_512 (m : List Byte) : List Byte := sponge 72 0x06 64 m

/-- A number in at least one byte, most significant first. -/
def bigEnd (x : Nat) : List Byte := (bytesOf (max 1 ((x.log2 + 8) / 8)) x).reverse

/-- left_encode of SP 800-185. -/
def leftEncode (x : Nat) : List Byte := BitVec.ofNat 8 (bigEnd x).length :: bigEnd x

/-- right_encode of SP 800-185. -/
def rightEncode (x : Nat) : List Byte := bigEnd x ++ [BitVec.ofNat 8 (bigEnd x).length]

/-- encode_string of SP 800-185. -/
def encodeString (l : List Byte) : List Byte := leftEncode (8 * l.length) ++ l

/-- bytepad of SP 800-185. -/
def bytepad (l : List Byte) (w : Nat) : List Byte :=
  let z := leftEncode w ++ l
  z ++ List.replicate ((w - z.length % w) % w) 0

/-- KMAC256 of SP 800-185 with an output of 256 bits: key, message, customisation. -/
def kmac256 (key m cust : List Byte) : List Byte :=
  let name : List Byte := [0x4B, 0x4D, 0x41, 0x43]
  sponge 136 0x04 32 (bytepad (encodeString name ++ encodeString cust) 136 ++ bytepad (encodeString key) 136 ++ m ++ rightEncode 256)

end Sys2Proof.Machine
end

