-- ==== Sys2Proof/Machine/FlashImage.lean ====
section
/-! DEFINITION. The check of an attention cache image (R355, R356): its header, its tags, the key slot; the install allowance (R347). -/

namespace Sys2Proof.Machine

open Sys2Proof

/-! ### The image (R355) -/

/-- A field of an image's header: n bytes at an offset (R3). -/
def hdrField (l : List Byte) (o n : Nat) : Nat := natOf ((l.drop o).take n)

/-- The header's fields that the check uses. -/
structure AciHdr where
  id : List Byte
  efmt : Nat
  layers : Nat
  heads : Nat
  hdim : Nat
  tb : Nat
  ntok : Nat
  ntb : Nat
  nblk : Nat
  dataOff : Nat
deriving DecidableEq, Repr

/-- The header read. -/
def aciHdr (l : List Byte) : AciHdr :=
  { id := (l.drop 8).take 4, efmt := hdrField l 0x0C 1, layers := hdrField l 0x10 2, heads := hdrField l 0x12 2, hdim := hdrField l 0x14 2
    tb := hdrField l 0x16 2, ntok := hdrField l 0x18 4, ntb := hdrField l 0x1C 4, nblk := hdrField l 0x20 8, dataOff := hdrField l 0x28 8 }

/-- The used bytes of a data block (R356). -/
def AciHdr.used (h : AciHdr) : Nat :=
  let codes := h.tb * h.hdim * (if h.efmt = 0 then 1 else 2)
  2 * (codes + (if h.efmt = 0 then h.tb * h.hdim / 32 else 0))

/-- EFMT, the geometry and DATAOFF obey the table. -/
def AciHdr.geometry (h : AciHdr) : Bool :=
  decide (h.efmt ≤ 1) && decide (1 ≤ h.layers ∧ h.layers ≤ 1024) && decide (1 ≤ h.heads ∧ h.heads ≤ 256)
    && decide (32 ≤ h.hdim ∧ h.hdim ≤ 512 ∧ h.hdim % 32 = 0) && decide (1 ≤ h.tb) && decide (1 ≤ h.ntb)
    && decide (h.ntok ≤ h.ntb * h.tb) && h.nblk == h.layers * h.heads * h.ntb
    && h.dataOff == (0x100 + 32 * h.nblk + 65535) / 65536 * 65536 && decide (h.used ≤ 65536)

/-- The length of an image. -/
def AciHdr.length (h : AciHdr) : Nat := h.dataOff + 65536 * h.nblk

/-! ### Tags (R356) -/

/-- The customisation string "RHOVEX-ACI". -/
def aciCust : List Byte := [0x52, 0x48, 0x4F, 0x56, 0x45, 0x58, 0x2D, 0x41, 0x43, 0x49]

/-- The tag of some bytes under a key, an image identity and an index. -/
def aciTag (key : BitVec 256) (id : List Byte) (index : Nat) (l : List Byte) : List Byte :=
  kmac256 (bytesOf 32 key.toNat) (id ++ bytesOf 8 index ++ l) aciCust

/-- The header passes for a range of so many bytes: an install's range is the image, a stage's may be longer. -/
def aciHeaderOk (key : BitVec 256) (hdr : List Byte) (len : Nat) (longer : Bool) : Bool :=
  let h := aciHdr hdr
  hdr.length == 256 && hdr.take 4 == [0x41, 0x43, 0x49, 0x4D] && hdrField hdr 4 2 == 1 && h.geometry
    && (h.length == len || (longer && decide (h.length ≤ len)))
    && aciTag key h.id (2 ^ 64 - 1) (hdr.take 0xE0) == hdr.drop 0xE0

/-- Data block b with its tag passes. -/
def aciBlockOk (key : BitVec 256) (id tag : List Byte) (b : Nat) (data : List Byte) : Bool :=
  data.length == 65536 && aciTag key id b data == tag

/-- A whole image passes (R356). -/
def imageCheck (key : BitVec 256) (l : List Byte) : Bool :=
  let h := aciHdr l
  aciHeaderOk key (l.take 256) l.length false && (List.range h.nblk).all fun b =>
    aciBlockOk key h.id ((l.drop (0x100 + 32 * b)).take 32) b ((l.drop (h.dataOff + 65536 * b)).take 65536)

/-- The key of a slot of a context; none when the slot is empty (R386). -/
def Ctx.key? (x : Ctx) (k : BitVec 4) : Option (BitVec 256) := Tab.find x.keys k.toNat

/-! ### The allowance (R347) -/

/-- CYC in a day. -/
def dayCyc : Nat := 81216000000000

/-- The most that LEFT may hold. -/
def Ctx.leftMax (x : Ctx) : Nat := x.allow.toNat * 2 ^ 20

/-- LEFT refilled up to a time: whole bytes are added as they complete, up to the allowance of a day. -/
def Ctx.refill (x : Ctx) (cyc : Nat) : Ctx :=
  let t := x.acc + (cyc - x.accAt) * x.leftMax
  let n := x.left + t / dayCyc
  if x.leftMax ≤ n then { x with left := x.leftMax, acc := 0, accAt := cyc } else { x with left := n, acc := t % dayCyc, accAt := cyc }

/-- R347 LEFT_REFILL: the whole bytes that have accrued. -/
def execLeftRefill (c : BitVec 8) (s : State) : Host.Outcome State Fault Refusal :=
  let x := (s.ctx c).refill s.cyc
  if (s.ctx c).st = .free ∨ x.left = (s.ctx c).left then .next s else .next (s.setCtx c x)

/-- The key of an erase block of a stack. -/
def blockKey (st b : Nat) : Nat := st * 65536 + b

/-- CYCLES of a stack: over its 65,536 blocks in service, 3,000 for each less those it has used; a block out of service has none left (R346). -/
def Flash.cyclesLeft (f : Flash) (st : Nat) : Nat := 196608000 - f.worn.foldl (fun n p => if p.1 / 65536 = st then n + p.2 else n) 0

/-- SPARES of a stack (R346). -/
def Flash.sparesLeft (f : Flash) (st : Nat) : Nat := 4096 - Tab.get 0 f.spares st

/-- The module allowance CAPMIB, with its saturation (R347). -/
def Flash.capMib (f : Flash) : Nat :=
  min (9 * 16 * ((List.range 4).foldl (fun n k => n + f.cyclesLeft k) 0) / (10 * max f.days 1)) (2 ^ 32 - 1)

end Sys2Proof.Machine
end

