-- ==== Sys2Proof/Machine/SaveImage.lean ====
section
/-! DEFINITION. The save record of a sector in its context's save area (R247, R248, R251, R367, R373, R379). -/

namespace Sys2Proof.Machine

open Sys2Proof

/-! ### Where a record stands (R379) -/

/-- The offset in record k of a place. -/
def Ctx.saveOff? (x : Ctx) (k a : Nat) : Option Nat :=
  if a < 2 ^ 39 ∧ x.saveBase k ≤ a % 2 ^ 31 ∧ a % 2 ^ 31 < x.saveBase k + 2 ^ 15 then
    some (a / 2 ^ 31 * 2 ^ 15 + (a % 2 ^ 31 - x.saveBase k))
  else none

/-- The lowest places of a context's save area that hold no record. -/
def State.freePlaces (s : State) (c : BitVec 8) (n : Nat) : List Nat :=
  ((List.range (s.ctx c).saven).filter fun k => !(s.saves.any fun r => r.ctx == c && r.place == k)).take n

/-! ### The parts of a record -/

/-- Bytes at an offset of a record; every byte of no part is zero. -/
abbrev Part1 := Nat × List Byte

/-- Fields of w bits packed upwards. -/
def packFields (w : Nat) (l : List Nat) : Nat := l.foldr (fun x n => x % 2 ^ w + 2 ^ w * n) 0

/-- The KIND and VER of a record (R248). -/
def saveKind : Word := 0x5A01000000000000

/-- The header (R248). -/
def headerPart (r : SaveRec) (nchan nspill nref : Nat) : Part1 :=
  (0, wordBytes [saveKind + BitVec.ofNat 64 (r.s4 * 2 ^ 40), BitVec.ofNat 64 r.cyc, BitVec.ofNat 64 nchan, BitVec.ofNat 64 nspill, BitVec.ofNat 64 nref])

/-- A wait as two words: its kind and its operand. -/
def Wait.words : Wait → List Word
  | .none => [0, 0]
  | .until t => [1, BitVec.ofNat 64 t]
  | .met k n => [2, BitVec.ofNat 64 (n * 256 + k)]
  | .done v => [3, v]
  | .bar id _ => [4, BitVec.ofNat 64 id]
  | .link t => [5, BitVec.ofNat 64 t]
  | .record t => [6, BitVec.ofNat 64 t]
  | .answer k => [7, k.setWidth 64]

/-- The control thread: what R247 lists, in its order, the gbar count with the thread's other meetings and an sbar that a trap has broken into. The offsets within the 4 KiB are the model's own (log 124). -/
def threadPart (r : SaveRec) : Part1 :=
  let x := r.sec
  let h := x.th
  (0x1000, wordBytes (((List.range 31).map fun i => Tab.get 0 h.regs (i + 1)) ++ [h.preds.setWidth 64, h.pc]) ++
    ((List.range 16).flatMap fun i => let d := Tab.get {} h.descs i
      bytesOf 64 d.img.toNat ++ bytesOf 8 d.tag.toNat) ++
    wordBytes ([x.flags.setWidth 64, x.phase.setWidth 64, x.count.setWidth 64, h.cause.setWidth 64, h.trapPc, h.trapVal,
      BitVec.ofNat 64 ((if h.halted then 1 else 0) + (if h.ts then 2 else 0)), BitVec.ofNat 64 (Tab.get 0 h.meets 0), BitVec.ofNat 64 (r.rem.getD 0)] ++ r.wait.words ++
      ((List.range 8).map fun k => BitVec.ofNat 64 (Tab.get 0 h.meets k)) ++
      match x.th.barHeld with
      | some b => [b.1, BitVec.ofNat 64 b.2.1]
      | none => [0, 0]))

/-- The operations of a saved sector that were outstanding at its snapshot, at most 64 (R247). -/
def State.savedOps (s : State) (r : SaveRec) : List EngOp := r.engs.filterMap s.op?

/-- The switch groups of an active configuration in a sector that have switched, one bit each in the order of their first slots (R237). -/
def Sector.groupBits (x : Sector) : Nat :=
  match x.act with
  | none => 0
  | some a =>
    packFields 1 ((((x.ownSlots a).map fun n => a.group (n / 128) (n % 128)).eraseDups).map fun g =>
      if g.all fun n => x.switched.contains n then 1 else 0)

/-- The configuration record (R237). -/
def Sector.configRecord (x : Sector) : List Byte :=
  let num : ShadowSt → Nat
    | .empty => 0
    | .loading => 1
    | .complete => 2
    | .armed => 3
  let img := fun (h : Option Share) => (h.map Share.img).getD 0
  bytesOf 8 (img x.act + num x.shSt * 2 ^ 8 + img x.shadow * 2 ^ 16 + ((x.shadow.map fun h => h.phase.toNat).getD 0) * 2 ^ 24 +
    (if x.stopped then 2 ^ 32 else 0)) ++ bytesOf 56 x.groupBits

/-- The chunk bitmap, the configuration record and the block scheduler's ages. -/
def statePart (i : Inst) (r : SaveRec) : Part1 :=
  (0x3000, bytesOf 1024 (packFields 1 ((List.range 8192).map fun k => if Tab.get false r.sec.bitmap k then 1 else 0)) ++ r.sec.configRecord ++
    ((i.host.elim [] HostSt.ages).flatMap fun p => wordBytes [BitVec.ofNat 64 p.1, BitVec.ofNat 64 p.2]))

/-- The wave numbers of the active configuration's blocks. -/
def wavePart (t : Task) (i : Inst) (r : SaveRec) : Part1 :=
  (0x4000, match r.sec.act with
    | none => []
    | some a => wordBytes ((List.range a.image.blks.length).map fun b =>
        BitVec.ofNat 64 (i.nextWave { task := t.id, inst := r.sec.inst, gen := a.gen, img := a.img, blk := b })))

/-- A binding of a port context, 96 bytes (R367). -/
def bindRecord : Option Bind → List Byte
  | none => List.replicate 96 0
  | some b => bytesOf 64 b.desc.img.toNat ++ wordBytes [b.base, BitVec.ofNat 64 b.pos,
      BitVec.ofNat 64 (1 + (if b.write then 2 else 0) + (if b.eos then 4 else 0)), 0]

/-- A translation entry: the copy of a range-table entry with its index and its context (R366). -/
def RtEnt.copyWords (e : RtEnt) (c : BitVec 8) (idx : Nat) : List Word :=
  [e.w0, e.w1, e.w2, BitVec.ofNat 64 (e.w3.toNat % 2 ^ 40 + idx % 2 ^ 16 * 2 ^ 40 + c.toNat * 2 ^ 56)]

/-- A port context of 256 bytes (R367). -/
def State.portRecord (s : State) (c : BitVec 8) (p : PortSt) : List Byte :=
  (match p.entry with
    | some k => wordBytes ((Tab.get {} (s.ctx c).rt k).copyWords c k)
    | none => List.replicate 32 0) ++ bindRecord p.act ++ bindRecord p.pend ++ wordBytes [p.status, 0, 0, 0]

/-- An operator's 64 bytes: its hold value, else its loop state, its position and its step. What does not fit beside a hold value of 64 bytes follows those of the cell's slots (log 124). -/
def OpSt.record (o : OpSt) : List Byte :=
  match o.hold with
  | some t => bytesOf 64 t.pay.toNat
  | none => wordBytes [BitVec.ofNat 64 o.st, BitVec.ofNat 64 o.k, BitVec.ofNat 64 o.step, BitVec.ofNat 64 o.pos, 0, 0, 0, 0]

/-- The 8 bytes of an operator behind the 64 of every slot of its cell: the tag of its hold value, its loop state, and the iter position k (R251; log 124). -/
def OpSt.tail (o : OpSt) : List Byte :=
  let t := o.hold.getD {}
  bytesOf 4 o.k ++ [BitVec.ofNat 8 o.st, BitVec.ofNat 8 (t.fmt.toNat + (if o.hold.isSome then 16 else 0) + (if t.poison then 32 else 0))] ++ bytesOf 2 0

/-- The operators of the active slots of a cell, in slot order. -/
def Sector.opsAt (x : Sector) (t : Task) (i : Inst) (c : Nat) : List (FabOp × SchedE × OpSt) :=
  match x.act with
  | none => []
  | some a => (x.ownSlots a).filterMap fun n =>
      let b : BlkRef := { task := t.id, inst := x.inst, gen := a.gen, img := a.img, blk := n / 128 }
      let e := siteOf a.sched b.blk (n % 128)
      let f := (a.image.blks.getD b.blk {}).op (n % 128)
      if e.cell ≤ c ∧ c < e.cell + max 1 (accCells f) then some (f, e, Tab.get {} i.ops (opKey b (n % 128))) else none

/-- A cell record of 8 KiB (R251). -/
def cellParts (t : Task) (i : Inst) (r : SaveRec) (c : Nat) : List Part1 :=
  let x := r.sec.cell c
  let at_ := 0x10000 + c * 0x2000
  let ops := r.sec.opsAt t i c
  let panel := ((ops.find? fun p => p.1.op == 0x40).map fun p => (p.2.2.panel.drop (16 * (c - p.2.1.cell))).take 16).getD []
  [ (at_, (List.range 1024).flatMap fun k => bytesOf 6 (Tab.get 0 x.mant k).toNat)
  , (at_ + 0x1800, bytesOf 80 (packFields 10 ((List.range 64).map fun k => (Tab.get 0 x.exp k).toNat)))
  , (at_ + 0x1850, bytesOf 48 (packFields 6 ((List.range 64).map fun k => (Tab.get hCleared x.head k).toNat)))
  , (at_ + 0x1880, ((List.range 4).flatMap fun k => bytesOf 2 (Tab.get 0 x.rc k).toNat) ++ (List.range 4).flatMap fun k => bytesOf 2 (Tab.get 0 x.tcw k).toNat)
  , (at_ + 0x1890, [x.phase.setWidth 8])
  , (at_ + 0x18A0, panel.flatMap fun t => bytesOf 64 t.pay.toNat)
  , (at_ + 0x1CA0, let own := (ops.filter fun p => p.2.1.cell == c).map fun p => p.2.2
      own.flatMap OpSt.record ++ own.flatMap OpSt.tail) ]

/-! ### The variable part (R248) -/

/-- The site to which a channel leads: that of the slot that takes its tokens, or of the slot whose exit it leaves. -/
def State.chanPlace (s : State) (i : Inst) (key : Nat) : SchedE :=
  let gen := key / 2 ^ 28
  if 2 ^ 60 ≤ gen then { dy := (gen - 2 ^ 60) / 2048, dx := (gen - 2 ^ 60) / 8 % 256 }
  else match s.share? i gen (key / 2 ^ 20 % 256) with
    | none => {}
    | some sh =>
      let b := key / 2 ^ 10 % 1024
      let blk := sh.image.blks.getD b {}
      let n := key / 8 % 128
      siteOf sh.sched b (match key % 8 with
        | 6 => blk.entrySlot n
        | 7 => (blk.exitFeeder n).getD 0
        | _ => n)

/-- The code of a token's kind (R194). -/
def TokKind.num : TokKind → Nat
  | .data => 0
  | .thread => 1
  | .eos => 2
  | .marker => 3
  | .handover => 4
  | .order => 5
  | .drain => 6

/-- A token of channel contents, 80 bytes: its payload, its link tag without CHECK, which no operation sees, and the number of its channel, the low half of the model's key (R193, R248; log 124). -/
def Token.record (t : Token) (key : Nat) : List Byte :=
  bytesOf 64 t.pay.toNat ++ bytesOf 4 (t.fmt.toNat + t.kind.num * 2 ^ 4 + (if t.poison then 2 ^ 7 else 0) + (if t.replay then 2 ^ 19 else 0)) ++
    bytesOf 4 (key % 2 ^ 32) ++ bytesOf 8 0

/-- A spill-queue entry of 128 bytes (R373). -/
def Spill.record (e : Spill) : List Byte :=
  wordBytes [BitVec.ofNat 64 (e.pos % 2 ^ 40), e.va, BitVec.ofNat 64 (e.cause.toNat + e.st % 4 * 2 ^ 8), e.token.setWidth 64, 0, 0, 0, 0] ++
    bytesOf 64 e.data.toNat

/-- The record of a saved sector (R247, R248). -/
def State.saveParts (s : State) (t : Task) (r : SaveRec) (sid : Nat) : List Part1 :=
  let i := t.insts.getD r.sec.inst {}
  let chans := (i.chans.filter fun p => i.siteSid (s.chanPlace i p.1) == sid).flatMap fun p => p.2.map fun k => (p.1, k)
  let spills := (List.range 128).flatMap fun q => (r.sec.port q).spill
  [ headerPart r chans.length spills.length r.refused.length
  , threadPart r
  , (0x2000, (s.savedOps r).flatMap fun o => o.record r.cyc)
  , statePart i r
  , wavePart t i r
  , (0x6000, (List.range 128).flatMap fun q => s.portRecord t.ctx (r.sec.port q))
  , (0x510000, (chans.flatMap fun p => p.2.record p.1) ++ (spills.flatMap Spill.record) ++ r.refused.flatMap (refusedRecord r.engs)) ] ++
  (List.range 128).flatMap (cellParts t i r) ++ r.scratch.map fun p => (0x110000 + p.1, [p.2])

/-! ### Written and read -/

/-- The save record of a sector written: the whole record, with the poison of its scratch (R247, R410). -/
def State.writeSave (s : State) (t : Task) (r : SaveRec) (sid : Nat) : State :=
  let x := s.ctx t.ctx
  let mine := fun (a : Nat) => (x.saveOff? r.place a).isSome
  let s1 : State := { s with mem := s.mem.filter fun p => !mine p.1, poison := s.poison.filter fun p => !mine (p.1 * 64) }
  let s2 := (s.saveParts t r sid).foldl (fun (s : State) p =>
    p.2.zipIdx.foldl (fun (s : State) q => s.wrByte (x.saveAt r.place (p.1 + q.2)) q.1) s) s1
  r.poison.foldl (fun (s : State) g => s.setPoison (x.saveAt r.place (0x110000 + g * 64)) true) s2

/-- The granules of a record that are poisoned, by offset. -/
def State.savePoison (s : State) (r : SaveRec) : List Nat :=
  (s.poison.filter Prod.snd).filterMap fun p => (s.ctx r.ctx).saveOff? r.place (p.1 * 64)

/-- A record cannot be resumed from: its KIND or VER is wrong (R248), or a granule of it outside scratch is poisoned, whose value must reach no register and no operator (R410; log 124). -/
def State.saveBad (s : State) (r : SaveRec) : Bool :=
  bitsAt (s.rdWord ((s.ctx r.ctx).saveAt r.place 0)).toNat 48 16 != 0x5A01 ||
    (s.savePoison r).any fun o => decide (o < 0x110000) || decide (0x510000 ≤ o)

/-- The poisoned granules of a record's scratch, by offset in scratch. -/
def State.saveGranules (s : State) (r : SaveRec) : List Nat :=
  (s.savePoison r).filterMap fun o => if 0x110000 ≤ o ∧ o < 0x510000 then some ((o - 0x110000) / 64) else none

end Sys2Proof.Machine
end

