-- ==== Sys2Proof/Machine/Place.lean ====
section
/-! DEFINITION. Placement (R26, R186 to R189, R259, R381) with the scrub it may wait for, the restore of a saved gang (R249 to R252), the freeing of a gang's sectors (R38, R381), and the reservation of R188. -/

namespace Sys2Proof.Machine

open Sys2Proof

/-! ### The shape of a gang -/

/-- A launch's object. -/
def State.objOf (s : State) (l : Launch) : Obj := (Tab.get {} (s.ctx l.ctx).handles l.hslot).obj

/-- The image indices of a launch's gang, one for each instance. -/
def Obj.gangOf (o : Obj) (g : Nat) : List Nat := o.gangs.getD g []

/-- The candidates of the host instance: its own image and the hosted ones (R190). -/
def Launch.cands (l : Launch) (own : Nat) : List Nat :=
  if l.xcnt = 0 then [] else (own :: ((List.range l.xcnt).map fun k => l.xbase + k).filter fun c => c != own)

/-- The images whose entry queues stand in an instance's scratch, the host's own first (R31). -/
def Launch.queueImages (l : Launch) (o : Obj) (inst own : Nat) : List Nat :=
  let all := if inst = l.host ∧ l.xcnt ≠ 0 then own :: (((List.range l.xcnt).map fun k => l.xbase + k).filter fun c => c != own) else [own]
  all.filter fun k => (o.images.getD k {}).qv

/-- The bytes that an instance's entry queues take (R31). -/
def Launch.queueBytes (l : Launch) (o : Obj) (inst own : Nat) : Nat :=
  (l.queueImages o inst own).foldl (fun n k => n + 8 * 2 ^ (o.images.getD k {}).qlog) 0

/-- The operating points that every image of an instance has a section for (R189). -/
def Launch.opMask (l : Launch) (o : Obj) (inst own : Nat) : BitVec 4 :=
  let hosted := if inst = l.host then l.cands own else []
  (own :: hosted).foldl (fun m k => m &&& (o.images.getD k {}).opmask) 15

/-! ### Rectangles (R189) -/

/-- The SECTIDs of a rectangle. -/
def rectSids (w h die ox oy : Nat) : List Nat := Inst.sids { w := w, h := h, die := die, ox := ox, oy := oy }

/-- A sector may be part of a rectangle: free, not taken already, its rail group steady at an operating point of the mask (R189, R259). -/
def State.sectorFits (s : State) (taken : List Nat) (mask : BitVec 4) (sid : Nat) : Bool :=
  let r := s.rail (railOf sid)
  !(s.sec sid).v && !taken.contains sid && r.mv == .steady && mask.getLsbD r.cur

/-- The first rectangle of a shape that fits: dies in order, origins in row-major order. -/
def State.findRect (s : State) (taken : List Nat) (w h : Nat) (mask : BitVec 4) : Option (Nat × Nat × Nat) :=
  ((List.range 4).flatMap fun die => (List.range (9 - h)).flatMap fun oy => (List.range (9 - w)).map fun ox => (die, ox, oy)).find? fun p =>
    (rectSids w h p.1 p.2.1 p.2.2).all fun sid => s.sectorFits taken mask sid

/-- An instance to be placed: its index, shape and mask. -/
structure Shape where
  inst : Nat
  w : Nat
  h : Nat
  mask : BitVec 4
deriving DecidableEq, Repr

/-- A shape put before the first of smaller area. -/
def insertShape (x : Shape) : List Shape → List Shape
  | [] => [x]
  | y :: l => if y.w * y.h < x.w * x.h then x :: y :: l else y :: insertShape x l

/-- The instances of a gang in the order in which they are tried: decreasing area, then index. -/
def Launch.shapes (l : Launch) (o : Obj) : List Shape :=
  (o.gangOf l.gang).zipIdx.foldl (fun acc p =>
    let m := o.images.getD p.1 {}
    insertShape ⟨p.2, m.w, m.h, l.opMask o p.2 p.1⟩ acc) []

/-- A rectangle for each instance, or none when one finds none. -/
def State.findRects (s : State) (taken : List Nat) : List Shape → Option (List (Nat × Nat × Nat × Nat))
  | [] => some []
  | x :: l =>
    match s.findRect taken x.w x.h x.mask with
    | none => none
    | some p =>
      match s.findRects (taken ++ rectSids x.w x.h p.1 p.2.1 p.2.2) l with
      | none => none
      | some r => some ((x.inst, p) :: r)

/-- Sectors that a context holds (R381). -/
def State.heldBy (s : State) (c : BitVec 8) : Nat := (s.sectors.filter fun p => p.2.v && p.2.ctx == c).length

/-- The instances of a gang on their rectangles, in gang order. -/
def Launch.insts (l : Launch) (o : Obj) (rects : List (Nat × Nat × Nat × Nat)) : List Inst :=
  (o.gangOf l.gang).zipIdx.map fun p =>
    let m := o.images.getD p.1 {}
    let at_ := ((rects.find? fun r => r.1 == p.2).map Prod.snd).getD (0, 0, 0)
    let qs := (l.queueImages o p.2 p.1).foldl (fun (acc : Nat × Tab Nat × Tab Nat) k =>
      let n := 2 ^ (o.images.getD k {}).qlog
      (acc.1 - 8 * n, Tab.put acc.2.1 k (acc.1 - 8 * n), Tab.put acc.2.2 k n)) (2 ^ 22, [], [])
    { img := p.1, w := m.w, h := m.h, die := at_.1, ox := at_.2.1, oy := at_.2.2, qtop := qs.2.1, qlen := qs.2.2
      host := if p.2 = l.host ∧ l.xcnt ≠ 0 then some { cands := l.cands p.1, quant := if l.quant = 0 then 4096 else 16 * l.quant } else none }

/-! ### Scrubbing (R381) -/

/-- A sector may be placed for a context without a scrub. -/
def Sector.clean (x : Sector) (c : BitVec 8) : Bool :=
  x.scrub.isNone && match x.lastCtx with
    | none => true
    | some k => k == c

/-- The CYC of a scrub: 512 fabric cycles at the sector's operating point. -/
def State.scrubCyc (s : State) (sid : Nat) : Nat := (512 * periodOf (s.rail (railOf sid)).cur + 31) / 32

/-- A scrub begins in every sector that needs one. -/
def State.startScrub (s : State) (c : BitVec 8) (sids : List Nat) : State :=
  sids.foldl (fun (s : State) k =>
    if (s.sec k).clean c || (s.sec k).scrub.isSome then s
    else s.modSec k fun x => { x with scrub := some (s.cyc + s.scrubCyc k) }) s

/-- A range of memory and its poison cleared. -/
def State.clearRange (s : State) (a n : Nat) : State :=
  { s with
    mem := s.mem.filter fun p => !(decide (a ≤ p.1) && decide (p.1 < a + n))
    poison := s.poison.filter fun p => !(decide (a ≤ p.1 * 64) && decide (p.1 * 64 < a + n)) }

/-- A sector as a scrub and a reset of its control core leave it: what concerns its bus, its column and its scrub alone is kept. -/
def Sector.cleared (x : Sector) : Sector := { lastCtx := x.lastCtx, scrub := x.scrub, busLanes := x.busLanes, busDead := x.busDead }

/-- What every placement resets in a sector: all that a scrub clears but scratch (R381). The logs are kept. -/
def Sector.fresh (x : Sector) : Sector := { x.cleared with elogA := x.elogA, elogX := x.elogX }

/-! ### Task start (R26) -/

/-- The handle of a launch's object (R385). -/
def Launch.handle (l : Launch) (o : Obj) : Desc :=
  { tag := tagObject
    img := imgOf [o.va, BitVec.ofNat 64 o.size, BitVec.ofNat 64 (l.ctx.toNat * 256 + l.hslot), BitVec.ofNat 64 o.textOff,
      BitVec.ofNat 64 o.textSize, BitVec.ofNat 64 (o.gangs.length * 65536 + o.images.length), 0, 0] }

/-- The control thread of a sector at task start. -/
def startThread (l : Launch) (o : Obj) (idx s4 s5 s6 img : Nat) : Thread :=
  let regs : Tab Word := [(1, l.param), (2, BitVec.ofNat 64 idx), (3, BitVec.ofNat 64 l.tcount), (4, BitVec.ofNat 64 s4), (5, BitVec.ofNat 64 s5), (6, BitVec.ofNat 64 s6)]
  { live := true
    pc := o.va + BitVec.ofNat 64 (o.textOff + (o.images.getD img {}).centry)
    regs := regs.filter fun p => p.2 != 0
    descs := [(0, l.handle o)] }

/-- A gang's sectors taken in one step, its threads at their entries (R26, R32, R189). -/
def State.startTask (s : State) (l : Launch) (insts : List Inst) : State :=
  let o := s.objOf l
  let id := s.nextId
  let t : Task := { id := id, launch := l.id, ctx := l.ctx, idx := l.next, insts := insts, nsect := (insts.flatMap Inst.sids).length, placedAt := s.cyc }
  let places := insts.zipIdx.flatMap fun p => p.1.sids.zipIdx.map fun q => (q.1, p.2, q.2, p.1.img)
  let s1 : State := { s with nextId := id + 1, tasks := s.tasks ++ [t] }
  places.zipIdx.foldl (fun (s : State) p =>
    s.modSec p.1.1 fun x =>
      { x.fresh with
        v := true, ctx := l.ctx, lastCtx := some l.ctx, task := id, inst := p.1.2.1, s4 := p.2, s6 := p.1.2.2.1
        phase := (o.images.getD p.1.2.2.2 {}).phase, th := startThread l o l.next p.2 p.1.2.1 p.1.2.2.1 p.1.2.2.2 }) s1

/-! ### Restore (R237, R249 to R252) -/

/-- A share read again from its sealed object at the group's operating point. -/
def State.reload (s : State) (sid : Nat) (h : Share) : Share := (s.sectionFor h (s.rail (railOf sid)).cur).getD h

/-- A saved thread going on: it takes the SaveCyc of its mark, and the rest of its twait.rel. -/
def Thread.resumed (t : Thread) (r : SaveRec) (cyc : Nat) : Thread :=
  let t1 := match t.markSd with
    | some rd => { t.wrS rd (BitVec.ofNat 64 r.cyc) with markSd := none }
    | none => t
  { t1 with
    live := true, stopped := false, notice := none, fblk := none, word := none
    wait := match r.rem with
      | some n => .until (cyc + n)
      | none => t1.wait }

/-- A sector's state restored from its save record, a granule poisoned where it or the record of it was (R252, R410). -/
def State.restoreSector (s : State) (r : SaveRec) (sid : Nat) : State :=
  let y := r.sec
  let s1 := s.modSec sid fun x =>
    { y with
      v := true, lastCtx := some r.ctx, scrub := none, elogA := x.elogA, elogX := x.elogX, rcache := []
      busLanes := x.busLanes, busDead := x.busDead, badSites := [], badShadow := []
      th := y.th.resumed r s.cyc
      ports := y.ports.map fun p => (p.1, { p.2 with entry := none })
      act := y.act.map (s.reload sid), shadow := y.shadow.map (s.reload sid) }
  let s2 := s1.clearRange (scratchAt sid 0) (2 ^ 22)
  let s3 : State := { s2 with mem := r.scratch.foldl (fun m p => Tab.set blank m (scratchAt sid p.1) p.2) s2.mem }
  (r.poison ++ s.saveGranules r).foldl (fun (s : State) g => s.setPoison (scratchAt sid (g * 64)) true) s3

/-- An instance on its new rectangle, its operators unmarked, its host due for a decision (R190, R252). -/
def Inst.resumed (i : Inst) (at_ : Nat × Nat × Nat) : Inst :=
  { i with
    die := at_.1, ox := at_.2.1, oy := at_.2.2, hands := [], drain := 0, wasStopped := false
    ops := (i.ops.map fun p => (p.1, { p.2 with marked := false })).filter fun p => p.2 != {}
    host := i.host.map fun h => { h with fired := max h.fired h.quant } }

/-- A SECTID of the old placement in the new one. -/
def moved (old new : List Nat) (sid : Nat) : Nat :=
  match old.findIdx? fun k => k == sid with
  | some i => new.getD i sid
  | none => sid

/-- A wave's record with its sectors where they are now. -/
def WaveRec.moved (r : WaveRec) (old new : List Nat) : WaveRec :=
  { r with flags := r.flags.foldl (fun t p => Tab.put t (Machine.moved old new p.1) p.2) [], tiles := r.tiles.map fun p => (Machine.moved old new p.1, p.2) }

/-- The piece of an operation that a chunk of scratch is. -/
def EngOp.pieceOf (o : EngOp) (chunk : Nat) : Nat :=
  match o.tgt with
  | .scratch off => chunk - off / 512
  | _ => 0

/-- An operation whose issuer is restored: its sector, its promise moved on, the time at which it stood noted with those that registers may still hold, and its refused pieces to be done again (R249, R250). -/
def EngOp.rebased (o : EngOp) (rs : List SaveRec) (old new : List Nat) (cyc : Nat) : EngOp :=
  match rs.find? fun r => r.task == o.task && r.s4 == o.s4 with
  | none => o
  | some r =>
    let ks := (r.refused.filter fun p => p.2.1 == o.id).map fun p => o.pieceOf p.1
    { o with
      sid := moved old new o.sid, due := cyc + (o.due - r.cyc), given := o.given ++ [o.due], done := o.done.filter fun k => !ks.contains k, replay := ks
      st := if ks ≠ [] ∧ o.st = .complete then .running else o.st }

/-- The refused pieces of some operations fetched again, each once. -/
def State.replayChunks (s : State) (ids : List Nat) : State :=
  ids.foldl (fun (s : State) id =>
    ((s.op? id).elim [] EngOp.replay).foldl (fun (s : State) k =>
      match s.op? id with
      | some o => if o.st = .running then s.movePiece o k else s
      | none => s) s) s

/-- An operation whose every piece is done again is complete. -/
def EngOp.settled (o : EngOp) : EngOp :=
  if o.replay ≠ [] ∧ o.st = .running ∧ o.pieces ≤ o.done.length then { o with st := .complete } else o

/-- The cause and the sector of the failure of a gang that cannot go on: a save record of it is not to be read (R248), or a handler decided FAIL meanwhile, which counts in the sector of its TRAP record (R414, R416). -/
def State.resumeFail (s : State) (rs : List SaveRec) (new : List Nat) : Option (BitVec 8 × Nat) :=
  match rs.find? s.saveBad with
  | some r => some (Cause.poison.code, new.getD r.s4 0)
  | none => rs.findSome? fun r => match r.sec.th.answer with
      | some (n, v) => if n = failMark then some (v.setWidth 8, v.toNat / 256) else none
      | none => none

/-- The elements resolved while a gang was saved are fetched (R252 step 3, R373). -/
def State.fetchPorts (s : State) (sids : List Nat) : State :=
  sids.foldl (fun (s : State) k => (List.range 128).foldl (fun (s : State) q => s.fetchSpilled k q) s) s

/-- A saved gang restored on new rectangles, in the order of R252; it fails where it cannot go on. The device uses every channel to read its records (R265, R378). -/
def State.restoreTask (s : State) (t : Task) (rects : List (Nat × Nat × Nat × Nat)) : State :=
  let old := t.sids
  let insts := t.insts.zipIdx.map fun p => p.1.resumed (((rects.find? fun r => r.1 == p.2).map Prod.snd).getD (0, 0, 0))
  let t1 : Task := { t with st := .resident, pre := .none, insts := insts, placedAt := s.cyc }
  let new := t1.sids
  let rs := s.saves.filter fun r => r.task == t.id
  let s1 := (s.useAll.setTask { t1 with wrecs := t.wrecs.map fun r => r.moved old new })
  let s2 := new.zipIdx.foldl (fun (s : State) p => match rs.find? fun r => r.s4 == p.2 with
    | some r => s.restoreSector r p.1
    | none => s) s1
  let s3 := { s2.fetchPorts new with
    saves := s2.saves.filter fun r => r.task != t.id
    ops := s2.ops.map fun (o : EngOp) => if o.task = t.id then o.rebased rs old new s.cyc else o }
  let ids := (s3.ops.filter fun (o : EngOp) => o.task == t.id && o.replay != []).map EngOp.id
  let s4 := s3.replayChunks ids
  let s5 := ({ s4 with ops := s4.ops.map fun (o : EngOp) => if o.task = t.id then o.settled else o }).drainTask t.id
  match s.resumeFail rs new with
  | some (c, k) => s5.taskFail t.id c k
  | none => s5

/-! ### One placement (R186, R187) -/

/-- The next task of a launch: a saved one first, the lowest index among them, else the next unplaced. -/
inductive NextTask where
  | saved (t : Task)
  | unplaced
  | none
deriving DecidableEq, Repr

/-- The task that a launch places next. -/
def State.nextTask (s : State) (l : Launch) : NextTask :=
  match (s.tasks.filter fun t => t.launch == l.id && t.st == .saved).foldl (fun (m : Option Task) t => match m with
      | some u => if t.idx < u.idx then some t else some u
      | none => some t) none with
  | some t => .saved t
  | none => if l.next < l.tcount then .unplaced else .none

/-- The CYC from which a launch's age counts (R186). -/
def State.ageFrom (s : State) (l : Launch) : Nat :=
  match s.nextTask l with
  | .saved t => t.savedAt
  | _ => l.readyAt

/-- The effective priority of a launch (R186). -/
def State.effPrio (s : State) (l : Launch) : Nat := min 7 (l.prio + (s.cyc - s.ageFrom l) / 1880000)

/-- A launch competes for placement: READY, and every earlier launch of its queue has placed its task 0 or is over (R37). -/
def State.competes (s : State) (l : Launch) : Bool :=
  l.st == .ready && s.launches.all fun k => k.q != l.q || decide (l.id ≤ k.id) || decide (0 < k.next) || k.st == .closing || k.st == .complete

/-- How an attempt to place a launch's next task ends. -/
inductive Placed where
  | no
  | scrubbing (s : State) (sids : List Nat)
  | yes (s : State)
deriving DecidableEq, Repr

/-- A launch after a task of it has been placed (R184). -/
def State.placedOne (s : State) (l : Launch) (l1 : Launch) : State :=
  let more := (s.tasks.any fun t => t.launch == l.id && t.st == .saved) || decide (l1.next < l1.tcount)
  { s.setLaunch { l1 with readyAt := s.cyc, st := if more then .ready else .running } with
    reserving := if s.reserving = some l.id then none else s.reserving }

/-- The next task of a launch placed, if its gang fits and its sectors are clean; sectors that another context held last are scrubbed first. -/
def State.tryPlace (s : State) (taken : List Nat) (l : Launch) : Placed :=
  let o := s.objOf l
  let shapes := l.shapes o
  let n := shapes.foldl (fun n x => n + x.w * x.h) 0
  if (s.ctx l.ctx).sectmax < s.heldBy l.ctx + n then .no
  else match s.findRects taken shapes with
    | none => .no
    | some rects =>
      let insts := l.insts o rects
      let sids := insts.flatMap Inst.sids
      if sids.all fun k => (s.sec k).clean l.ctx then
        match s.nextTask l with
        | .none => .no
        | .unplaced => .yes ((s.startTask l insts).placedOne l { l with next := l.next + 1 })
        | .saved t =>
          let u := s.restoreTask t rects
          .yes (match u.launch? l.id with
            | some k => if k.st = .ready then u.placedOne k k else u
            | none => u)
      else .scrubbing (s.startScrub l.ctx sids) sids

/-- The turn of a level after a placement for a queue (R187). -/
def State.turnAfter (s : State) (e q : Nat) : State :=
  let cur := Tab.get (0, 0) s.turns e
  if cur.1 ≠ q then s
  else
    let n := cur.2 + 1
    { s with turns := Tab.set (0, 0) s.turns e (if (s.wq q).weight + 1 ≤ n then ((q + 1) % 2048, 0) else (q, n)) }

/-- A launch comes before another at an opportunity: higher level, then the queue's place in the level's turn, then age in its queue. -/
def State.ahead (s : State) (a b : Nat × Launch) : Bool :=
  let pos := fun (p : Nat × Launch) => (p.2.q + 2048 - (Tab.get (0, 0) s.turns p.1).1) % 2048
  decide (b.1 < a.1) || (a.1 == b.1 && (decide (pos a < pos b) || (a.2.q == b.2.q && decide (a.2.id < b.2.id))))

/-- A launch put into the order of an opportunity. -/
def State.insertAhead (s : State) (x : Nat × Launch) : List (Nat × Launch) → List (Nat × Launch)
  | [] => [x]
  | y :: l => if s.ahead x y then x :: y :: l else y :: s.insertAhead x l

/-- The launches that compete, in the order of R187; while a launch reserves, it alone. -/
def State.placeOrder (s : State) : List (Nat × Launch) :=
  ((s.launches.filter fun l => s.competes l && (s.reserving.isNone || s.reserving == some l.id)).map fun l => (s.effPrio l, l)).foldl
    (fun acc x => s.insertAhead x acc) []

/-- The launches of an order tried until one is placed; the flag says so. -/
def State.placeFirst (s : State) (taken : List Nat) : List (Nat × Launch) → State × Bool
  | [] => (s, false)
  | (e, l) :: rest =>
    match s.tryPlace taken l with
    | .no => s.placeFirst taken rest
    | .scrubbing u sids => u.placeFirst (taken ++ sids) rest
    | .yes u => (u.turnAfter e l.q, true)

/-- A placement opportunity: tasks are placed until none fits. -/
def State.placeLoop : Nat → State → State
  | 0, s => s
  | n + 1, s =>
    let p := s.placeFirst [] s.placeOrder
    if p.2 then State.placeLoop n p.1 else p.1

/-! ### The reservation (R188) -/

/-- A reserving launch that no longer competes reserves nothing. -/
def State.checkReserve (s : State) : State :=
  match s.reserving.bind s.launch? with
  | some l => if l.st = .ready then s else { s with reserving := none }
  | none => { s with reserving := none }

/-- The resident task that a reserving launch has pre-empted next: of lower PRIO, saveable, placed last. -/
def State.victimTask (s : State) (l : Launch) : Option Task :=
  (s.tasks.filter fun t => t.runs && t.pre == .none && s.saveRoom t && ((s.launch? t.launch).any fun k => decide (k.prio < l.prio))).foldl
    (fun (m : Option Task) t => match m with
      | some u => if u.placedAt ≤ t.placedAt then some t else some u
      | none => some t) none

/-- While a launch reserves and its gang does not fit, one resident task after another is pre-empted. -/
def State.pressReserve (s : State) : State :=
  match s.reserving.bind s.launch? with
  | none => s
  | some l =>
    if s.tasks.any fun t => t.pre != .none && t.runs then s
    else match s.tryPlace [] l with
      | .no => match s.victimTask l with
        | some t => s.schedRequest t.id
        | none => s
      | _ => s

/-- R187 a placement opportunity, with what a reservation asks for after it. -/
def State.placement (s : State) : State := ((State.placeLoop 257 ({ s with placeDue := false } : State).checkReserve)).pressReserve

/-! ### Freeing (R38, R381) -/

/-- A transfer's retry after some sectors are freed: it ends by itself and counts, unless it has failed already (R407). -/
def Retry.without (sids : List Nat) (r : Retry) : Option Retry :=
  if !sids.contains r.sid then some r else if r.failed then none else some { r with gone := true }

/-- The sectors of a task freed: owner tags cleared, the control core's cache emptied (R268, R369). A transfer of theirs that is under retry ends by itself, and counts (R407). -/
def State.freeSectors (s : State) (t : Task) : State :=
  { s.modSecs t.sids fun x =>
      { x with
        v := false, lastCtx := some t.ctx, task := 0, inst := 0, s4 := 0, s6 := 0, ownq := [], th := {}, rcache := []
        ports := [], act := none, shadow := none, shSt := .empty, switched := [], stopped := false } with
    umber := { s.umber with retries := s.umber.retries.filterMap (Retry.without t.sids) }
    placeDue := true }

end Sys2Proof.Machine
end

