-- ==== Sys2Proof/Machine/LaunchEv.lean ====
section
/-! DEFINITION. Work queues and their registers (R177 to R180), fetch with its checks (R182), the scrub's end (R381), the reservation's start (R188), the end of a task (R27) and the freeing of its sectors (R38). -/

namespace Sys2Proof.Machine

open Sys2Proof

/-! ### Who may write (R390, R430) -/

/-- The module answers a master: verified firmware runs, or the master is the management controller (R430). -/
def State.answers (s : State) (m : Master) : Bool := s.regs.bootCode == 0 || m == 4

/-- A master's write to an owner's register is performed. -/
def State.mayWrite (s : State) (m : Master) : Bool := decide (m.toNat ≤ 4) && s.own.owner == m.toNat && s.answers m

/-! ### Faults of queues (R179, R180) -/

/-- A queue faults, with a record to its context while that is ACTIVE (R180, R370). -/
def State.queueFault (s : State) (q : Nat) (f : BitVec 4) (cause : BitVec 8) (va : Word) (acc : Nat) : State :=
  let w := s.wq q
  let s1 := s.setWq q (w.faulted f)
  if (s.ctx w.ctx).st = .active then
    s1.addRec
      { ctx := w.ctx
        words := [s.cycW, va, recWord2 0 cause 0 w.ctx (4 * 2 ^ 13 + acc * 2 ^ 11 + f.toNat), BitVec.ofNat 64 q] }
  else s1

/-- Entries valid in a queue. -/
def Wq.count (w : Wq) : Nat := (w.tail - w.head).toNat

/-- A queue that runs faults with OVERRUN when more entries are valid than its ring holds (R178). -/
def State.checkOverrun (s : State) (q : Nat) : State :=
  let w := s.wq q
  if w.en ∧ !w.flt ∧ 2 ^ w.qlog < w.count then s.queueFault q 1 0 0 0 else s

/-! ### The registers of a queue (R177) -/

/-- A queue's fields written from WQCFG, its enable aside. -/
def Wq.config (w : Wq) (v : Word) : Wq :=
  let k := bitsAt v.toNat 12 4
  { w with ctx := BitVec.ofNat 8 (bitsAt v.toNat 16 8), qlog := if 4 ≤ k ∧ k ≤ 12 then k else 4, weight := bitsAt v.toNat 8 4 }

/-- R180 WQ_ENABLE: a write of WQCFG with EN 1; while EN is 1 it is discarded. -/
def execWqEnable (m : Master) (q : BitVec 11) (v : Word) (s : State) : Host.Outcome State Fault Refusal :=
  let w := s.wq q.toNat
  if !s.mayWrite m || w.en || s.regs.bootCode != 0 then .next s
  else .next ((s.setWq q.toNat { w.config v with en := true, flt := false, fcause := 0 }).checkOverrun q.toNat)

/-- R177, R180 WQ_DISABLE: a write of WQCFG with EN 0; while EN is 1 it clears EN alone. -/
def execWqDisable (m : Master) (q : BitVec 11) (v : Word) (s : State) : Host.Outcome State Fault Refusal :=
  let w := s.wq q.toNat
  if !s.mayWrite m then .next s
  else .next (s.setWq q.toNat (if w.en then { w with en := false } else w.config v))

/-- R178 DOORBELL. -/
def execDoorbell (m : Master) (q : BitVec 11) (v : Word) (s : State) : Host.Outcome State Fault Refusal :=
  let w := s.wq q.toNat
  if !s.mayWrite m || w.tail == v.setWidth 16 then .next s
  else .next ((s.setWq q.toNat { w with tail := v.setWidth 16 }).checkOverrun q.toNat)

/-- R180 WQ_FAULT_CLEAR: FLT is write one to clear, and the entry at HEAD is tried again. -/
def execWqFaultClear (m : Master) (q : BitVec 11) (v : Word) (s : State) : Host.Outcome State Fault Refusal :=
  let w := s.wq q.toNat
  if !s.mayWrite m || !v.getLsbD 16 || !w.flt then .next s
  else .next ((s.setWq q.toNat { w with flt := false, fcause := 0 }).checkOverrun q.toNat)

/-! ### FETCH (R178, R181, R182) -/

/-- The fields of an entry (R181). -/
def entryLaunch (q : Nat) (c : BitVec 8) (id : Nat) (ws : List Word) : Launch :=
  let w := fun k => (ws.getD k 0).toNat
  let ndep := bitsAt (w 0) 10 2
  { id := id, q := q, ctx := c, tcount := bitsAt (w 0) 39 25, hslot := bitsAt (w 0) 31 8, gang := bitsAt (w 0) 15 16, prio := bitsAt (w 0) 12 3
    param := ws.getD 1 0, cw := ws.getD 2 0
    deps := (List.range (min ndep 2)).map fun k => (ws.getD (3 + 2 * k) 0, ws.getD (4 + 2 * k) 0)
    host := bitsAt (w 7) 58 6, xcnt := bitsAt (w 7) 52 6, xbase := bitsAt (w 7) 44 8, quant := bitsAt (w 7) 32 12
    tag := BitVec.ofNat 32 (w 7) }

/-- The fixed fields and addresses of an entry pass (R182). -/
def entryForm (ws : List Word) : Bool :=
  let w := fun k => (ws.getD k 0).toNat
  let ndep := bitsAt (w 0) 10 2
  let dep := fun k => if k < ndep then w (3 + 2 * k) % 8 == 0 else w (3 + 2 * k) == 0
  bitsAt (w 0) 0 8 == 0x4C && bitsAt (w 0) 8 2 == 0 && decide (1 ≤ bitsAt (w 0) 39 25 ∧ bitsAt (w 0) 39 25 ≤ 16777216)
    && ndep != 3 && dep 0 && dep 1 && decide (w 1 < 2 ^ 55)

/-- The images of a host's candidates have one shape, and no route of one leads to the queue of another (R182). -/
def Launch.hostOk (l : Launch) (o : Obj) (own : Nat) : Bool :=
  l.xcnt == 0 || (decide (l.xbase + l.xcnt ≤ o.images.length) &&
    (l.cands own).all fun k =>
      let m := o.images.getD k {}
      let h := o.images.getD own {}
      m.w == h.w && m.h == h.h && m.routes.all fun r => r.kind != 2 || r.dst == k || !(l.cands own).contains r.dst)

/-- What a launch names exists and fits its context (R182). -/
def State.entryFits (s : State) (l : Launch) : Bool :=
  let x := s.ctx l.ctx
  let h := Tab.get ({} : Handle) x.handles l.hslot
  let o := h.obj
  let g := o.gangOf l.gang
  h.st == .sealed && decide (l.gang < o.gangs.length) && decide (l.host < g.length) && decide (l.xcnt ≤ 32) && l.hostOk o (g.getD l.host 0)
    && (g.zipIdx.all fun p => decide (l.queueBytes o p.2 p.1 ≤ 2 ^ 21))
    && decide (g.foldl (fun n k => n + (o.images.getD k {}).w * (o.images.getD k {}).h) 0 ≤ x.sectmax)

/-- A fetched entry, its dependences tested: its launch in DEPWAIT, READY or on its way to completion (R183, R184). -/
def State.addLaunch (s : State) (q : Nat) (ws : List Word) : State :=
  let w := s.wq q
  let l := entryLaunch q w.ctx s.nextId ws
  let s1 : State := ({ s with nextId := s.nextId + 1 } : State).setWq q { w with head := w.head + 1 }
  let l1 :=
    if !entryForm ws || !s.entryFits l then { l with st := .closing, status := 3 }
    else if l.deps.isEmpty then { l with st := .ready, readyAt := s.cyc }
    else s.depStep (fun _ => true) l
  ({ s1 with launches := s1.launches ++ [l1], placeDue := s1.placeDue || l1.st == .ready } : State).settle

/-- The check of CWADDR (R179, R182): the code of the event behind a failure, zero where there is none. -/
def State.cwCheck (s : State) (c : BitVec 8) (cw : Word) : Option (Option (BitVec 8)) :=
  match (if isVirt cw then s.xlateV c cw.toNat .write else .fault) with
  | .hold => none
  | .fault => some (some Cause.xlateFault.code)
  | .perm => some (some Cause.permission.code)
  | .ok t => if cw.toNat % 8 ≠ 0 then some (some 0) else if t.ver then some none else some (some Cause.permission.code)

/-- At most four launches of a queue are fetched and have not placed task 0 (R180). A launch that ends REJECTED, SKIPPED or ABORTED without placing it does not count, though its completion version is still to come. DESIGN CHOICE (log 138). -/
def State.fetchRoom (s : State) (q : Nat) : Bool :=
  decide ((s.launches.filter fun l => l.q == q && (l.st == .depwait || l.st == .ready) && l.next == 0).length < 4)

/-- R182 FETCH. The read of the entry waits for its page, its module and its lines (R345, R395, R404, R405). -/
def execFetch (q : BitVec 11) (s : State) : Host.Outcome State Fault Refusal :=
  let k := q.toNat
  let w := s.wq k
  if !w.en || w.flt || w.head == w.tail || !s.fetchRoom k then .next s
  else if (s.ctx w.ctx).st ≠ .active then .next (s.queueFault k 4 0 0 0)
  else
    let va := w.base + BitVec.ofNat 64 (64 * (w.head.toNat % 2 ^ w.qlog))
    match (if isVirt va then s.xlateV w.ctx va.toNat .read else .fault) with
    | .hold => .next s
    | .fault => .next (s.queueFault k 2 Cause.xlateFault.code va 0)
    | .perm => .next (s.queueFault k 2 Cause.permission.code va 0)
    | .ok t =>
      let who := whoQueue k
      let poisoned := fun (u : State) => Host.Outcome.next (((u.forgetAll who).endLink who).queueFault k 2 Cause.poison.code va 0)
      if s.flashHeld t then .next s
      else if s.unreachable t then match s.extLink who va with
        | some u => .next u
        | none => poisoned s
      else match s.meet who t 64 with
        | .wait u => .next u
        | .bad u => poisoned u
        | .go u0 =>
          if u0.tgtPoison t 64 then poisoned u0
          else
            let u := (u0.forgetAll who).endLink who
            let l := u.rdTgt t 64
            let ws := (List.range 8).map fun i => BitVec.ofNat 64 (natOf ((l.drop (8 * i)).take 8))
            match u.cwCheck w.ctx (ws.getD 2 0) with
            | none => .next u
            | some (some c) => .next (u.queueFault k 3 c (ws.getD 2 0) 1)
            | some none => .next (u.addLaunch k ws)

/-! ### SCRUB_DONE (R381) -/

/-- R381 SCRUB_DONE: the sector is as after reset, and belongs to no context. -/
def execScrubDone (sid : BitVec 8) (s : State) : Host.Outcome State Fault Refusal :=
  let k := sid.toNat
  let x := s.sec k
  match x.scrub with
  | none => .next s
  | some t =>
    if s.cyc < t ∨ x.v then .next s
    else
      let s1 := (s.clearRange (scratchAt k 0) (2 ^ 22)).setSec k { x.cleared with lastCtx := none, scrub := none }
      .next { s1 with placeDue := true }

/-! ### RESERVATION_START (R188) -/

/-- The CYC at which a launch's effective priority reached 7. -/
def State.sevenAt (s : State) (l : Launch) : Nat := s.ageFrom l + (7 - l.prio) * 1880000

/-- A launch may reserve: its next task has not fitted for 2 ms at priority 7. -/
def State.mayReserve (s : State) (l : Launch) : Bool :=
  s.competes l && decide (s.sevenAt l + 1880000 ≤ s.cyc) && match s.tryPlace [] l with
    | .no => true
    | _ => false

/-- R188 RESERVATION_START: the launch that reached priority 7 first reserves, the lower queue number among equals. -/
def execReservationStart (launch : Nat) (s : State) : Host.Outcome State Fault Refusal :=
  match s.launch? launch with
  | none => .next s
  | some l =>
    if s.reserving.isSome || !s.mayReserve l then .next s
    else if s.launches.any fun k => k.id != l.id && s.mayReserve k &&
        (decide (s.sevenAt k < s.sevenAt l) || (s.sevenAt k == s.sevenAt l && decide (k.q < l.q))) then .next s
    else .next ({ s with reserving := some l.id } : State).pressReserve

/-! ### TASK_END and SECTOR_FREE -/

/-- An operation of a task no longer keeps the task from ending: an install or stage, or one that is over with its publish performed (R27, R315). -/
def EngOp.isOver (o : EngOp) : Bool :=
  o.kind == .inst || o.kind == .stage || ((o.st == .complete || o.st == .failed) && (o.publ.isNone || !o.live))

/-- The emptiness detectors report every channel and entry queue of a gang empty (R27, R192). -/
def State.empty (s : State) (t : Task) : Bool :=
  t.packets.isEmpty && (List.range t.insts.length).all fun k =>
    s.quiescent t k && let i := t.insts.getD k {}
      i.qtop.all fun p => Tab.get 0 i.fill p.1 == Tab.get 0 i.free p.1

/-- A launch after one more of its tasks has ended or failed (R36 step 7, R39); one that its context's end has cut short counts no more (R40, R380). -/
def State.countTask (s : State) (launch : Nat) (failed : Option Nat) : State :=
  match s.launch? launch with
  | none => s
  | some l =>
    if l.st == .closing || l.st == .complete then s else
    let l1 := { l with
      isOver := l.isOver + 1, ok := if failed.isNone then l.ok + 1 else l.ok
      failIdx := match failed with
        | some i => some (match l.failIdx with
          | some j => min i j
          | none => i)
        | none => l.failIdx }
    let done : Bool := l1.isOver == l1.tcount && (l1.st == .running || l1.st == .ready)
    let s1 := s.setLaunch (if done then { l1 with st := .closing, status := if l1.failIdx.isSome then 1 else 0 } else l1)
    if done then s1.settle else s1

/-- R27 TASK_END: every thread has halted, every operation is over, nothing is left in the fabric, and the task's writes are performed (R41). -/
def execTaskEnd (task : Nat) (s : State) : Host.Outcome State Fault Refusal :=
  match s.task? task with
  | none => .next s
  | some t =>
    let early : Bool := match t.pre with
      | .snapped => false
      | _ => true
    if !t.runs || !early || !(t.sids.all fun k => (s.sec k).th.halted && s.writesDone k) ||
        !((s.ops.filter fun o => o.task == task).all EngOp.isOver) || !s.empty t then .next s
    else .next ((s.setTask { t with st := .ended, pre := .none }).countTask t.launch none)

/-- A task's operations once its sectors are freed: those that are not over, those with a publish to come and the installs and stages run on (R39, R349, R420); its save records go. -/
def State.dropOps (s : State) (task : Nat) : State :=
  { s with
    ops := s.ops.filter fun o => o.task != task || !o.isOver || (o.isColl && !o.started) || o.kind == .inst || o.kind == .stage
    saves := s.saves.filter fun r => r.task != task }

/-- R38 SECTOR_FREE: an ended task's sectors, or those of a failed one, whose tokens are gone and whose whole waves have been released (R29, R41), are freed, and a placement opportunity comes. -/
def execSectorFree (task : Nat) (s : State) : Host.Outcome State Fault Refusal :=
  match s.task? task with
  | none => .next s
  | some t =>
    let s1 := (s.freeSectors t).dropOps task
    let s2 := { s1 with tasks := s1.tasks.filter fun u => u.id != task }
    if t.st = .ended then .next s2
    else if t.st = .failing && t.stores.isEmpty && t.sids.all s.writesDone then .next (s2.countTask t.launch (some t.idx))
    else .next s

end Sys2Proof.Machine
end

