-- ==== Sys2Proof/Machine/RangeEv.lean ====
section
/-! DEFINITION. The range table's update registers (R364, R365): a write or clear with its checks, a read, and the swap after the drain. -/

namespace Sys2Proof.Machine

open Sys2Proof

/-! ### Checks (R365) -/

/-- A reserved bit of an entry is set (R362). -/
def RtEnt.reservedSet (e : RtEnt) : Bool :=
  bitsAt e.w0.toNat 55 9 != 0 || bitsAt e.w0.toNat 0 16 != 0 || bitsAt e.w1.toNat 24 40 != 0 ||
    bitsAt e.w3.toNat 40 24 != 0 || bitsAt e.w3.toNat 32 3 != 0

/-- An entry maps one of some granules of HBM. -/
def RtEnt.maps (e : RtEnt) (l : List Nat) : Bool :=
  e.v && pwValid e.pw e.frame && pwKind e.pw == 0 && l.any fun a => (hbmOff e.pw e.frame e.len a).isSome

/-- BADENTRY applies to an entry (R365, R384). -/
def State.badEntry (s : State) (c : BitVec 8) (e : RtEnt) : Bool :=
  e.reservedSet || decide (2 ^ 55 < e.vbase + e.len) || (e.w && e.x) ||
    (pwValid e.pw e.frame && (!(s.ctx c).frameOk e.pw e.frame e.len || (e.w && e.maps s.sealedFrames)))

/-- The range of an entry meets that of another present entry (R365). -/
def Ctx.overlaps (x : Ctx) (idx : Nat) (e : RtEnt) : Bool :=
  x.rt.any fun p => p.1 != idx && p.2.v && decide (p.2.vbase < e.vbase + e.len) && decide (e.vbase < p.2.vbase + p.2.len)

/-- The code of a write of an entry: the lowest that applies (R365). -/
def State.rtWriteCode (s : State) (c : BitVec 8) (idx : Nat) (e : RtEnt) : BitVec 8 :=
  let x := s.ctx c
  if x.st = .free then 0x01
  else if s.badEntry c e then 0x02
  else if x.overlaps idx e then 0x03
  else if !({ s with regs := { s.regs with rtCmd := some ⟨c.toNat, idx, e⟩ } } : State).residentOk then 0x04
  else if (Tab.get {} x.rt idx).mig then 0x05
  else 0x00

/-- The code of a clear (R365). -/
def State.rtClearCode (s : State) (c : BitVec 8) (idx : Nat) : BitVec 8 :=
  let x := s.ctx c
  if x.st = .free then 0x01 else if (Tab.get {} x.rt idx).mig then 0x05 else 0x00

/-- A command with its code: refused it changes nothing else, accepted it holds the old entry and drains it, and the sleeping channels that it covers begin to wake (R265, R364). -/
def State.rtStart (s : State) (c : BitVec 8) (idx : Nat) (e : RtEnt) (code : BitVec 8) : State :=
  let s1 : State := { s with regs := { s.regs with rtCode := code, rtCmd := if code = 0 then some ⟨c.toNat, idx, e⟩ else none } }
  if code = 0 then s1.startWake e.pwOn else s1

/-! ### RTCMD -/

/-- R364 RT_WRITE: OP 01. With V 0 it acts as a clear. MIG is not written. -/
def execRtWrite (m : Master) (c : BitVec 8) (idx : BitVec 16) (s : State) : Host.Outcome State Fault Refusal :=
  let e := s.regs.rte.setMig false
  if !s.mayWrite m || s.regs.rtCmd.isSome then .next s
  else if e.v then .next (s.rtStart c idx.toNat e (s.rtWriteCode c idx.toNat e))
  else .next (s.rtStart c idx.toNat {} (s.rtClearCode c idx.toNat))

/-- R364 RT_CLEAR: OP 10. -/
def execRtClear (m : Master) (c : BitVec 8) (idx : BitVec 16) (s : State) : Host.Outcome State Fault Refusal :=
  if !s.mayWrite m || s.regs.rtCmd.isSome then .next s
  else .next (s.rtStart c idx.toNat {} (s.rtClearCode c idx.toNat))

/-- R364 RT_READ: OP 11, the entry into RTE0 to RTE3. -/
def execRtRead (m : Master) (c : BitVec 8) (idx : BitVec 16) (s : State) : Host.Outcome State Fault Refusal :=
  if !s.mayWrite m || s.regs.rtCmd.isSome then .next s
  else if (s.ctx c).st = .free then .next { s with regs := { s.regs with rtCode := 0x01 } }
  else .next { s with regs := { s.regs with rtCode := 0, rte := Tab.get {} (s.ctx c).rt idx.toNat } }

/-! ### RT_SWAP -/

/-- A store is held that an entry has already translated. -/
def StoreKind.under (k : StoreKind) (idx : Nat) : Bool :=
  match k with
  | .page i _ _ _ _ => i == idx
  | .version i _ _ _ _ => i == idx
  | .bytes _ _ => false

/-- An operation still owes the version of a status word that was translated at its issue (R314, R348). -/
def EngOp.owesVersion (o : EngOp) : Bool := o.live && (o.publ.isSome || o.kind == .inst || o.kind == .stage)

/-- Every access translated through an entry is performed, the versions of status words among them (R364 step 2). -/
def State.drainedRt (s : State) (c : BitVec 8) (idx : Nat) : Bool :=
  !(s.tasks.any fun t => t.ctx == c && t.stores.any fun p => p.k.under idx) && !(s.dups.any fun d => d.ctx == c && d.idx == idx) &&
    !(s.ops.any fun o => o.ctx == c && o.owesVersion && o.stAt.any fun p => p.1 == idx)

/-- An entry of the table taken or cleared, its copies removed, its channels woken (R364 step 3, R265). -/
def State.replaceRt (s : State) (c : BitVec 8) (idx : Nat) (e : RtEnt) : State :=
  let old := Tab.get {} (s.ctx c).rt idx
  let s1 := s.modCtx c fun x => { x with rt := if e.v then Tab.put x.rt idx e else Tab.del x.rt idx }
  (s1.dropCopies c idx).wake old.pwOn e.pwOn

/-- R364 RT_SWAP: once the old entry is drained and the channels of the new one are awake (R265), in one step the new entry replaces the old one, its copies go, BUSY clears, and what was held is translated afresh. -/
def execRtSwap (s : State) : Host.Outcome State Fault Refusal :=
  match s.regs.rtCmd with
  | none => .next s
  | some k =>
    let c := BitVec.ofNat 8 k.ctx
    if !s.drainedRt c k.idx || !s.allAwake k.ent.pwOn then .next s
    else
      let s1 := s.replaceRt c k.idx k.ent
      .next ({ s1 with regs := { s1.regs with rtCmd := none } } : State).flushRecs.settle

end Sys2Proof.Machine
end

