-- ==== Sys2Proof/Machine/CtxEv.lean ====
section
/-! DEFINITION. Contexts created, ended and freed (R377, R378, R380), and their keys (R386). -/

namespace Sys2Proof.Machine

open Sys2Proof

/-! ### CREATE (R378) -/

/-- The RW fields of CTXCTL, which take a written value only while STATE is FREE (R377). -/
def Ctx.control (x : Ctx) (v : Word) : Ctx :=
  if x.st = .free then { x with saven := bitsAt v.toNat 32 16, sectmax := bitsAt v.toNat 16 9, hloc := v.getLsbD 4 } else x

/-- Two runs meet. -/
def runsMeet (a n b k : Nat) : Bool := decide (a < b + k) && decide (b < a + n) && decide (0 < n) && decide (0 < k)

/-- OVERLAP: a pool meets that of another context that is not FREE, or the carve-out in force (R15, R378). -/
def State.poolsMeet (s : State) (c : BitVec 8) : Bool :=
  let x := s.ctx c
  (s.ctxs.any fun p => p.1 != c.toNat && p.2.st != .free &&
    (runsMeet x.poolHBase x.poolHLen p.2.poolHBase p.2.poolHLen || runsMeet x.poolFBase x.poolFLen p.2.poolFBase p.2.poolFLen)) ||
    runsMeet x.poolHBase x.poolHLen (32768 - 64 * s.regs.carveNow) (64 * s.regs.carveNow)

/-- BADCFG (R378), which every CREATE gets while no verified firmware runs (R430). -/
def State.badConfig (s : State) (c : BitVec 8) : Bool :=
  let x := s.ctx c
  s.regs.bootCode != 0 || decide (x.sectmax < 1) || decide (256 < x.sectmax) || decide (2 * x.poolHLen < x.saven) ||
    decide (32768 < x.poolHBase + x.poolHLen) || decide (65536 < x.poolFBase + x.poolFLen)

/-- The code of CREATE: the lowest that applies (R378). -/
def State.createCode (s : State) (c : BitVec 8) : BitVec 8 :=
  if (s.ctx c).st ≠ .free then 0x01 else if s.poolsMeet c then 0x02 else if s.badConfig c then 0x03 else 0x00

/-- R378 CTX_CREATE: a write of CTXCTL with CMD 01. LEFT starts at the day's allowance (R347). -/
def execCtxCreate (m : Master) (c : BitVec 8) (v : Word) (s : State) : Host.Outcome State Fault Refusal :=
  if m.toNat > 4 ∨ s.own.owner ≠ m.toNat then .next s
  else
    let s1 := s.modCtx c fun x => x.control v
    let k := s1.createCode c
    .next (s1.modCtx c fun x => if k = 0 then { x with st := .active, res := 0, left := x.leftMax, acc := 0, accAt := s.cyc } else { x with res := k })

/-! ### END (R380) -/

/-- R380 CTX_END: a write of CTXCTL with CMD 10; steps 1 and 2. -/
def execCtxEnd (m : Master) (c : BitVec 8) (v : Word) (s : State) : Host.Outcome State Fault Refusal :=
  if !s.mayWrite m then .next s
  else
    let s1 := s.modCtx c fun x => x.control v
    if (s1.ctx c).st = .active then .next (s1.endCtx c).settle else .next (s1.modCtx c fun x => { x with res := 0x01 })

/-- Every engine operation of a context has ended, and every write of it is performed: what freeing the context waits for. -/
def State.ctxQuiet (s : State) (c : BitVec 8) : Bool :=
  !(s.ops.any fun o => o.ctx == c && o.live && (o.kind == .inst || o.kind == .stage)) && !(s.dups.any fun d => d.ctx == c)

/-- Step 3 of R380: sectors freed, tasks and save records gone; launches whose version has no place are complete. -/
def State.freeTasks (s : State) (c : BitVec 8) : State :=
  let s1 := s.tasks.foldl (fun (s : State) (t : Task) => if t.ctx = c ∧ t.st ≠ .saved ∧ t.st ≠ .failed then s.freeSectors t else s) s
  { s1 with
    tasks := s1.tasks.filter fun t => t.ctx != c
    saves := s1.saves.filter fun r => r.ctx != c
    ops := s1.ops.filter fun o => o.ctx != c
    recs := s1.recs.filter fun r => r.ctx != c
    launches := s1.launches.map fun (l : Launch) => if l.ctx = c then { l with st := .complete } else l }

/-- A WCFG names a context, enabled or not (R388). -/
def windowOf (c : BitVec 8) (v : Word) : Bool := v.setWidth 8 == c

/-- A PEERMAP entry names a context, valid or not (R394). -/
def peerMapOf (c : BitVec 8) (v : Word) : Bool := bitsAt v.toNat 40 8 == c.toNat

/-- Every copy of every entry of a context removed (R366). -/
def State.dropAllCopies (s : State) (c : BitVec 8) : State := (s.ctx c).rt.foldl (fun (s : State) p => s.dropCopies c p.1) s

/-- Step 4 of R380: handles, keys, the range table with its copies, windows and peer mappings. -/
def State.clearTables (s : State) (c : BitVec 8) : State :=
  let s1 := (s.ctx c).rt.foldl (fun (s : State) p => s.wake p.2.pwOn (3 * 2 ^ 28)) (s.dropAllCopies c)
  let s2 := s1.modCtx c fun x => { x with handles := [], keys := [], rt := [] }
  let gone := (List.range 8).filter fun w => windowOf c (Tab.get 0 s2.regs.wcfg w)
  { s2 with regs := { s2.regs with
      wcfg := s2.regs.wcfg.filter fun p => !gone.contains p.1
      wbase := s2.regs.wbase.filter fun p => !gone.contains p.1
      peermap := s2.regs.peermap.filter fun p => !peerMapOf c p.2
      rtCmd := match s2.regs.rtCmd with
        | some k => if k.ctx = c.toNat then none else some k
        | none => none
      hcmd := match s2.regs.hcmd with
        | some k => if k.1 = c.toNat then none else some k
        | none => none
      hload := if s2.regs.hcmd.any fun k => k.1 == c.toNat then none else s2.regs.hload } }

/-- A place in an HBM slice of every channel. -/
def inSlice (base len a : Nat) : Bool := decide (a < 2 ^ 39) && decide (base ≤ a % 2 ^ 31) && decide (a % 2 ^ 31 < base + len)

/-- The first address of the page that a place lies on. -/
def Ctx.vbaseOf (x : Ctx) (t : Tgt) : Nat := ((x.rt.find? fun p => some p.1 == t.idx).map fun p => p.2.vbase).getD 0

/-- A place in a run of every flash stack. -/
def inRun (base len a : Nat) : Bool :=
  decide (2 ^ 43 ≤ a) && decide (a < 2 ^ 43 + 4 * 2 ^ 40) && decide (base ≤ (a - 2 ^ 43) % 2 ^ 40) && decide ((a - 2 ^ 43) % 2 ^ 40 < base + len)

/-- A run of every flash stack reads as never written, and no page of it is staged (R345). -/
def State.clearFlash (s : State) (base len : Nat) : State :=
  { s with
    mem := s.mem.filter fun p => !inRun base len p.1
    poison := s.poison.filter fun p => !inRun base len (p.1 * 64)
    flash := { s.flash with staged := s.flash.staged.filter fun p => !inRun base len (2 ^ 43 + p.1 * 2 ^ 14) } }

/-- Step 5 of R380: the pools. -/
def State.clearPools (s : State) (c : BitVec 8) : State :=
  let x := s.ctx c
  let h := inSlice (x.poolHBase * 2 ^ 16) (x.poolHLen * 2 ^ 16)
  ({ s with
    mem := s.mem.filter fun p => !h p.1
    poison := s.poison.filter fun p => !h (p.1 * 64) }.clearFlash (x.poolFBase * 2 ^ 24) (x.poolFLen * 2 ^ 24)).useAll

/-- R380 CTX_FREED: steps 3 to 6. -/
def execCtxFreed (c : BitVec 8) (s : State) : Host.Outcome State Fault Refusal :=
  if (s.ctx c).st ≠ .ending ∨ !s.ctxQuiet c then .next s
  else .next ((((s.settle.freeTasks c).clearTables c).clearPools c).modCtx c fun x => { x with st := .free })

/-! ### Keys (R386) -/

/-- R386 KEY_LOAD: KCMD OP 01; KEY0 to KEY3 become zero. -/
def execKeyLoad (m : Master) (c : BitVec 8) (slot : BitVec 4) (s : State) : Host.Outcome State Fault Refusal :=
  if !s.mayWrite m then .next s
  else
    let s1 := s.modCtx c fun x => { x with keys := Tab.put x.keys slot.toNat s.regs.key }
    .next { s1 with regs := { s1.regs with key := 0 } }

/-- R386 KEY_CLEAR: KCMD OP 10. -/
def execKeyClear (m : Master) (c : BitVec 8) (slot : BitVec 4) (s : State) : Host.Outcome State Fault Refusal :=
  if !s.mayWrite m then .next s else .next (s.modCtx c fun x => { x with keys := Tab.del x.keys slot.toNat })

end Sys2Proof.Machine
end

