-- ==== Sys2Proof/Machine/ErrEv.lean ====
section
/-! DEFINITION. The events of error recovery: retries and lane swaps on the vertical bus (R405), a row's copy (R408), the loss of a layer (R409). -/

namespace Sys2Proof.Machine

open Sys2Proof

/-! ### Transfers (R405) -/

/-- A retry's entry replaced. -/
def State.setRetry (s : State) (i : Nat) (r : Retry) : State := { s with umber := { s.umber with retries := s.umber.retries.set i r } }

/-- What waits for a transfer, or for a bus, and no sector's turn tries again goes on: a record on its way to its ring, a completion version (R39, R383). -/
def State.wakeParty (s : State) (r : Retry) : State := if r.sid < 256 && !r.swapping then s else s.flushRecs.settle

/-- A transfer that has succeeded, and is counted and logged. -/
def State.doneRetry (s : State) (i : Nat) (r : Retry) : State :=
  (({ s with umber := { s.umber with retries := s.umber.retries.eraseIdx i } } : State).endTransfer r).wakeParty r

/-- A transfer contained: counted and logged, and met by its access when that is next tried, unless its party is gone (R405 step 3, R407). -/
def State.containRetry (s : State) (i : Nat) (r : Retry) : State :=
  let s1 := if r.gone then { s with umber := { s.umber with retries := s.umber.retries.eraseIdx i } } else s.setRetry i { r with failed := true }
  (s1.endTransfer { r with failed := true }).wakeParty r

/-- R405 BUS_RETRY: a retry 16 CYC after the attempt before, good or failing on a lane. After the fourth failure the worst lane is swapped, if a spare is free. While another swap holds the bus it is not retried (R423). -/
def execBusRetry (i : Nat) (bad : Option (BitVec 5)) (s : State) : Host.Outcome State Fault Refusal :=
  match s.umber.retries[i]? with
  | none => .next s
  | some r =>
    if r.failed || r.swapping || decide (s.cyc < r.due) || s.busSwapping r.die r.sect then .next s
    else match bad with
      | none => .next (s.doneRetry i { r with tries := r.tries + 1 })
      | some lane =>
        let r1 := { r with tries := r.tries + 1, lanes := r.lanes ++ [lane.toNat] }
        if r1.tries < 4 then .next (s.setRetry i { r1 with due := s.cyc + 16 })
        else if (s.sec (r.die * 64 + r.sect)).lanesUsed + (s.lanesSwapping r.die r.sect).length < 2 then .next (s.setRetry i { r1 with swapping := true, due := s.cyc + 216 })
        else .next (s.containRetry i r1)

/-- R405 LANE_SWAP_DONE: 200 CYC after the swap began the spare carries the lane, and 16 CYC later the transfer has been retried once more. The swap of a lasting lane retries none (R408). -/
def execLaneSwapDone (i : Nat) (bad : Bool) (s : State) : Host.Outcome State Fault Refusal :=
  match s.umber.retries[i]? with
  | none => .next s
  | some r =>
    let k := r.die * 64 + r.sect
    if r.failed || !r.swapping || decide (s.cyc < r.due) then .next s
    else match (s.sec k).swapLane (worstLane r.lanes) with
      | none => .next (s.containRetry i r)
      | some x =>
        if r.repair then .next (({ s.setSec k x with umber := { s.umber with retries := s.umber.retries.eraseIdx i } } : State).wakeParty r)
        else
        let r1 := { r with tries := r.tries + 1 }
        if bad then .next ((s.setSec k x).containRetry i r1) else .next ((s.setSec k x).doneRetry i r1)

/-- R408 ROW_SPARE_DONE: the copy is complete, and the spare takes the row's place. -/
def execRowSpareDone (i : Nat) (s : State) : Host.Outcome State Fault Refusal :=
  if s.umber.copies.length ≤ i then .next s
  else .next { s with umber := { s.umber with copies := s.umber.copies.eraseIdx i } }

/-! ### Losing a layer (R409) -/

/-- Lines lost: both granules of each are poisoned (R409 step 3, R410). -/
def State.poisonLines (s : State) (ls : List Nat) : State :=
  { s with poison := ls.foldl (fun p l => Tab.set false (Tab.set false p (2 * l) true) (2 * l + 1) true) s.poison }

/-- An entry maps a line of HBM. -/
def RtEnt.holdsLine (e : RtEnt) (l : Nat) : Bool :=
  e.v && pwValid e.pw e.frame && pwKind e.pw == 0 && (hbmOff e.pw e.frame e.len (l * 128)).isSome

/-- One ERROR record for each page of a context that holds a lost line (R409 step 5, R414). -/
def State.reportLost (s : State) (ls : List Nat) : State :=
  (s.ctxs.flatMap fun (c : Nat × Ctx) => c.2.rt.map fun (e : Nat × RtEnt) => (c.1, e.2)).foldl (fun (s : State) (p : Nat × RtEnt) =>
    let n := (ls.filter p.2.holdsLine).length
    if n = 0 then s else s.errorRec (BitVec.ofNat 8 p.1) 0 0 (BitVec.ofNat 64 p.2.vbase) (2 * n)) s

/-- The line of HBM of the first page, by context and entry, that has lines at a bank of a layer: the row selects among them. Which line lies in a row no rule states. DESIGN CHOICE (log 115). -/
def State.rowLine (s : State) (die layer bank row : Nat) : Option Nat :=
  s.ctxs.findSome? fun (c : Nat × Ctx) => c.2.rt.findSome? fun (p : Nat × RtEnt) =>
    let e := p.2
    if !(e.v && pwValid e.pw e.frame && pwKind e.pw == 0 && pwPol e.pw != 0) then none
    else
      let ds := maskBits 4 (pwDies e.pw)
      let ls := s.layersOn die e.pw
      match ds.findIdx? (fun d => d == die), ls.findIdx? (fun l => l == layer) with
      | some i, some j =>
        let n := backing e.pw e.len / 128
        let first := (bank * ls.length + j) * ds.length + i
        let step := 64 * ls.length * ds.length
        if first < n then some (hbmPhys e.pw e.frame ((first + row % ((n - first + step - 1) / step) * step) * 128) / 128) else none
      | _, _ => none

/-- The lines that the write-back of a layer meets and cannot read, by the errors that wait for an access, each counted at its row (R407, R409 step 2). -/
def State.writeBack (s : State) (die layer : Nat) : List Nat × State :=
  s.upsets.foldl (fun (acc : List Nat × State) (u : Upset) => match u with
    | .array d ly b row _ bits _ dirty =>
      if d = die ∧ ly = layer ∧ bits ≠ 1 ∧ dirty ∧ !acc.2.rowRetired d ly b row then
        match acc.2.rowLine d ly b row with
        | some l => (acc.1 ++ [l], { (acc.2.countSite (rowKey d ly b row)).2 with upsets := acc.2.upsets.erase u })
        | none => acc
      else acc
    | _ => acc) ([], s)

/-- R409 LAYER_DISABLE: the write-back is over; lost lines are poisoned, the layer is disabled in one step, and what was held goes to its new home. Memory holds every line's newest bytes, so the write-back changes none. -/
def execLayerDisable (die layer : BitVec 2) (s : State) : Host.Outcome State Fault Refusal :=
  let here := fun (x : Nat × Nat × Nat) => x.1 == die.toNat && x.2.1 == layer.toNat
  let first := (s.umber.lost.filter here).map fun (x : Nat × Nat × Nat) => x.2.2
  if first.isEmpty then .next s
  else
    let wb := s.writeBack die.toNat layer.toNat
    let ls := (first ++ wb.1).eraseDups
    let s1 := wb.2.poisonLines ls
    let s2 : State := { s1 with
      umber := { s1.umber with lost := s1.umber.lost.filter fun x => !here x }
      regs := { s1.regs with layerstat := s1.regs.layerstat ||| BitVec.ofNat 12 (2 ^ (3 * die.toNat + layer.toNat)) } }
    .next (s2.reportLost ls).flushRecs.settle

end Sys2Proof.Machine
end

