-- ==== Sys2Proof/Machine/FabricAcc.lean ====
section
/-! DEFINITION. The matrix instructions of the fabric: mma (R144 to R150), mclr (R152), mnrm (R153), mrd (R154) and mdrn (R155, R156). -/

namespace Sys2Proof.Machine

open Sys2Proof

/-! ### The mma slots of a tile (R143) -/

/-- The mma slots of a configuration that name the tile of a site: block, slot and word. -/
def Fab.mmasOn (f : Fab) (t : TileRef) : List (Nat × Nat × FabW) :=
  (List.range f.sh.image.blks.length).flatMap fun b =>
    let blk := f.sh.image.blks.getD b {}
    ((List.range blk.n).filter fun k =>
      let e := siteOf f.sh.sched b k
      let w := (blk.op k).w
      blk.opc k == 0x40 && e.dx == f.e.dx && e.dy == f.e.dy && w.imm.toNat % 4 == t.i && mRows (w.x.toNat / 64 % 4) == t.m).map
      fun k => (b, k, (blk.op k).w)

/-- A word has `join` set. -/
def joined (w : FabW) : Bool := w.imm.getLsbD 14

/-- The element formats of integer mode (R149). -/
def intMode (f : BitVec 4) : Bool := f == 1 || f == 3

/-- A tile is summed in integer mode: its mma slots have an integer format. -/
def Fab.tileInt (f : Fab) (t : TileRef) : Bool := (f.mmasOn t).any fun p => intMode p.2.2.fmt

/-- The operator state of another slot of the acting slot's image. -/
def State.opStAt (s : State) (f : Fab) (b k : Nat) : OpSt := Tab.get {} (s.instOf f.b).ops (opKey { f.b with blk := b } k)

/-- An mma slot may begin on its tile (R143). -/
def State.mayBegin (s : State) (f : Fab) (t : TileRef) : Bool :=
  match tcwState (s.tcw t) with
  | .empty => true
  | .full => false
  | .acc =>
    joined f.w && (s.opSt f).st == 0 &&
      (f.mmasOn t).all fun p => (s.opStAt f p.1 p.2.1).st == 0 || joined p.2.2

/-- The tile begun: from EMPTY every slot on it starts anew, and the tile goes to ACC (R143). -/
def State.begin (s : State) (f : Fab) (t : TileRef) : State :=
  let s1 := if tcwState (s.tcw t) = .empty then
      (f.mmasOn t).foldl (fun (s : State) p => s.modInst f.b fun i =>
        let k := opKey { f.b with blk := p.1 } p.2.1
        { i with ops := Tab.set {} i.ops k { Tab.get {} i.ops k with st := 0 } }) s
    else s
  s1.setTcw t (tcwSet (s1.tcw t) .acc)

/-- J of R143. -/
def Fab.joinCount (f : Fab) (t : TileRef) : Nat :=
  if joined f.w then ((f.mmasOn t).filter fun p => joined p.2.2).length else 1

/-- A slot's last step done: DONE rises, and at J the tile is FULL (R143, R145). -/
def State.doneMma (s : State) (f : Fab) (t : TileRef) : State :=
  let w := s.tcw t
  let d := tcwDone w + 1
  let w1 := BitVec.ofNat 16 (w.toNat / 2 ^ 14 * 2 ^ 14 + d % 64 * 2 ^ 8 + w.toNat % 2 ^ 8)
  s.setTcw t (if d = f.joinCount t then tcwSet w1 .full else w1)

/-! ### One A token (R145, R146) -/

/-- Products per group. -/
def groupLen (f : BitVec 4) : Nat := if fmtWidth f = 8 then 16 else if fmtWidth f = 4 then 32 else 4

/-- The group sum of an A token and a B token with their scale tokens (R146). -/
def groupOf (fmt : BitVec 4) (a b : Pay) (sa sb : Option Pay) (q : Nat) : Group :=
  let w := fmtWidth fmt
  let g := groupLen fmt
  let blk := q * g / 32
  let sc := fun (o : Option Pay) => match o with
    | some p => elem 8 p blk
    | none => 127
  groupSum ((List.range g).map fun j => prodOf fmt (elem w a (q * g + j)) (elem w b (q * g + j)) (sc sa) (sc sb))

/-- The groups of an A token. -/
def groupsOf (fmt : BitVec 4) : Nat := 512 / fmtWidth fmt / groupLen fmt

/-- The addend of group q of an A token to row m, in every cell of the footprint: the cells work in parallel, and between two groups the port may take what comes from another slot (R150, R158). -/
def State.mmaGroup (s : State) (t : TileRef) (fmt : BitVec 4) (m q : Nat) (a : Pay) (sa : Option Pay) (panel scales : List Token) : State :=
  (List.range t.n).foldl (fun (s : State) k =>
    s.addRow t k m (intMode fmt) ((List.range 16).map fun c =>
      groupOf fmt a ((panel.getD (16 * k + c) {}).pay) sa ((scales[16 * k + c]?).map Token.pay) q)) s

/-- The waves whose tokens an addend comes from remember the tile (R159). -/
def State.noteTile (s : State) (f : Fab) (t : TileRef) (waves : List Nat) : State :=
  waves.eraseDups.foldl (fun (s : State) w => s.modWave f.b w fun r =>
    if r.tiles.contains (t.sid, t.c0, t.key) then r else { r with tiles := r.tiles ++ [(t.sid, t.c0, t.key)] }) s

/-- The raw token of all-zero bits. -/
def zeroToken (wave : Nat) : Token := dataToken 0 0 wave

/-- A data token with the tag a position needs, else the fault it takes; an EOS in the middle of a run is a FORMAT fault (R64, R195, R410). -/
def badOperand (t : Token) (fmt : BitVec 4) : Option Cause :=
  if t.poison then some .poison
  else if t.kind = .eos ∨ t.fmt ≠ fmt then some .format
  else none

/-- The next step of an mma (R145): a B token, a column scale, or the addend of one group of an A token, which is consumed with its last group (R150). A token at o is taken once for the whole run of S steps, with its first B token. DEDUCED (log 122). -/
def State.mmaOp (s : State) (f : Fab) : Fire :=
  let o := s.opSt f
  let t := f.mmaTile
  let n := 16 * t.n
  let scaled := f.w.x.getLsbD 9
  if o.panel.length < n then
    let start := o.step == 0 && o.panel.isEmpty
    match s.head f 1 with
    | none => .wait
    | some b =>
      if start ∧ b.kind = .eos then
        s.checked f [] fun l => .fault .format (waveOf l) 0
      else
        match badOperand b f.w.fmt with
        | some c => .fault c b.wave 0
        | none =>
          if start ∧ !s.mayBegin f t then .wait
          else
            let s1 := if start then s.begin f t else s
            let o1 := { o with panel := o.panel ++ [b], k := if start then b.wave else max o.k b.wave, st := 1 }
            if start ∧ f.fed 3 then
              s1.fireAt f [1] fun l => s1.pass f l [] o1
            else s1.pass f [(1, b)] [] o1
  else if scaled ∧ o.scales.length < n then
    match s.head f 2 with
    | none => .wait
    | some p =>
      match badOperand p 14 with
      | some c => .fault c p.wave 0
      | none => s.pass f [(2, p)] [] { o with scales := o.scales ++ [p], k := max o.k p.wave }
  else
    match s.head f 0, (if scaled then s.head f 2 else some {}) with
    | some a, some p =>
      match (if o.grp = 0 then badOperand a f.w.fmt else none), (if scaled ∧ o.grp = 0 then badOperand p 14 else none) with
      | some c, _ => .fault c a.wave 0
      | _, some c => .fault c p.wave 0
      | none, none =>
        let l := (0, a) :: (if scaled then [(2, p)] else [])
        let wave := max o.k (waveOf l)
        let s1 := (s.mmaGroup t f.w.fmt o.pos o.grp a.pay (if scaled then some p.pay else none) o.panel o.scales).noteTile f t
          (l.map (fun x => x.2.wave) ++ o.panel.map Token.wave ++ o.scales.map Token.wave)
        let o1 := { o with grp := 0, k := wave }
        if o.grp + 1 < groupsOf f.w.fmt then .done (s1.setOpSt f { o with grp := o.grp + 1 })
        else if o.pos + 1 < t.m then s1.pass f l [] { o1 with pos := o.pos + 1 }
        else if o.step < f.w.imm.toNat / 4 % 4096 then
          s1.pass f l [] { o1 with pos := 0, step := o.step + 1, panel := [], scales := [] }
        else
          (s1.doneMma f t).pass f l (f.both (zeroToken wave)) { o1 with pos := 0, k := 0, step := 0, panel := [], scales := [], st := 2 }
    | _, _ => .wait

/-! ### mnrm (R153) -/

/-- The steps of an mnrm: it takes its token, forms its status and clears the count; in float mode it normalises the tile's rows one by one, each an operation of its own at the port (R150); then it sends the status. -/
def State.mnrmOp (s : State) (f : Fab) : Fire :=
  let o := s.opSt f
  match o.hold with
  | none => s.checked f [] fun l =>
      let status := dataToken 6 (s.mnrmStatus f.tile) (waveOf l)
      let s1 := s.setRc f.tile 0
      if f.tileInt f.tile then s1.pass f l (f.both status) o
      else s1.pass f l [] { o with hold := some status, k := 0 }
  | some h =>
    if o.k < f.tile.m then .done ((s.normRowOf f.tile o.k).setOpSt f { o with k := o.k + 1 })
    else s.pass f [] (f.both h) { o with hold := none, k := 0 }

/-! ### mrd and mdrn -/

/-- The fault of a read or drain that meets a tainted tile (R159). -/
def taintFault (w : BitVec 16) : Option Cause :=
  if w.getLsbD 4 then some .poison else if w.getLsbD 3 then some .regionFault else none

/-- One token of columns from t E on: elements coded, zero past N, with their flags (R154, R155). -/
def rowToken (fmt : BitVec 4) (n t : Nat) (code : Nat → Nat → Coded) : Pay × FlagSet :=
  let e := 512 / fmtWidth fmt
  packCoded (fmtWidth fmt) ((List.range e).map fun j => if t * e + j < n then code j (t * e + j) else (0, 0))

/-- Tokens per row of n columns. -/
def rowTokens (fmt : BitVec 4) (n : Nat) : Nat := (n + 512 / fmtWidth fmt - 1) / (512 / fmtWidth fmt)

/-- The firings of an mrd: it takes its trigger at a FULL tile, then sends its tokens one by one (R154). A tile tainted meanwhile gives no further token (R159). -/
def State.mrdOp (s : State) (f : Fab) : Fire :=
  let o := s.opSt f
  let t := f.tile
  let n := 16 * t.n
  match o.hold with
  | none => s.checked f [] fun l =>
      if tcwState (s.tcw t) ≠ .full then .wait
      else match taintFault (s.tcw t) with
        | some c => .fault c (waveOf l) 0
        | none => (s.raise f (waveOf l) (tileFlags (s.tcw t))).pass f l [] { o with hold := some (zeroToken (waveOf l)), k := 0 }
  | some h =>
    match taintFault (s.tcw t) with
    | some c => .fault c h.wave 0
    | none =>
    let r := rowToken f.w.fmt n (o.k / t.m) fun j c =>
      roundVal f.w.fmt f.w.rnd false ((j + s.phaseOf f) % 32) (s.tileVal t (f.tileInt t) (o.k % t.m) c)
    let last := decide (rowTokens f.w.fmt n * t.m ≤ o.k + 1)
    match s.pass f [] (f.both (dataToken f.w.fmt r.1 h.wave)) (if last then { o with hold := none, k := 0 } else { o with k := o.k + 1 }) with
    | .done u => .done ((if f.w.rnd = 5 then u.stepPhase f else u).raise f h.wave r.2)
    | x => x

/-- The exits or targets of a drain (R156). -/
def Fab.drainTo (f : Fab) (a : Token) : List (BitVec 10) :=
  if f.w.x.getLsbD 6 then [f.w.t0 + BitVec.ofNat 10 (4 * (a.pay.toNat % 8))] else f.w.targets

/-- The scale of an index in its scale tokens, 1.0 without them (R155). -/
def scaleAt (use : Bool) (l : List Token) (i : Nat) : Nat := if use then elem 32 ((l.getD (i / 16) {}).pay) (i % 16) else 0x3F800000

/-- An element of a drain scaled and rounded once (R155). -/
def drainCode (w : FabW) (idx : Nat) (v : Val) (rs cs : Nat) : Coded :=
  let p := v.mul (decodeVal 7 rs)
  let q := p.1.mul (decodeVal 7 cs)
  roundOp' w idx (fIf (isSnan 7 rs || isSnan 7 cs) fNV) (q.1, p.2 || q.2)
where
  /-- The rounding of a scaled element with its flags. -/
  roundOp' (w : FabW) (idx : Nat) (fl : FlagSet) (v : Val × Bool) : Coded :=
    let r := roundVal w.fmt w.rnd w.sat idx v.1
    (r.1, r.2 ||| fl ||| fIf v.2 fNV)

/-- The tokens of a whole drain, row by row, with their flags (R155). -/
def State.drainTokens (s : State) (f : Fab) (o : OpSt) : List Pay × FlagSet :=
  let t := f.tile
  let n := 16 * t.n
  let ph := s.phaseOf f
  let l := (List.range t.m).flatMap fun m => (List.range (rowTokens f.w.fmt n)).map fun k =>
    rowToken f.w.fmt n k fun j c =>
      drainCode f.w ((j + ph) % 32) (s.tileVal t (f.tileInt t) m c)
        (scaleAt (f.w.x.getLsbD 4) o.panel m) (scaleAt (f.w.x.getLsbD 5) o.scales c)
  (l.map Prod.fst, l.foldl (fun fl p => fl ||| p.2) 0)

/-- The firings of an mdrn: its tokens taken at a FULL tile, the drain, and the tile EMPTY after its last token (R155, R156). A tile tainted meanwhile gives no further token (R159). -/
def State.mdrnOp (s : State) (f : Fab) : Fire :=
  let o := s.opSt f
  let t := f.tile
  match o.hold with
  | none => s.checked f (if f.w.x.getLsbD 6 then [(0, 6)] else []) fun l =>
      if tcwState (s.tcw t) ≠ .full then .wait
      else match taintFault (s.tcw t) with
        | some c => .fault c (waveOf l) 0
        | none =>
          if f.w.x.getLsbD 6 ∧ f.w.x.toNat / 128 < (tokAt l 0).pay.toNat % 8 then .fault .regionFault (waveOf l) 0
          else s.pass f (l.filter fun p => p.1 == 0 || p.1 == 3) [] { o with hold := some ((tokAt l 0).at (waveOf l)), panel := [], scales := [], st := 0 }
  | some h =>
    match taintFault (s.tcw t) with
    | some c => .fault c h.wave 0
    | none =>
    if o.st = 1 then
      match o.outq with
      | [] => .wait
      | (_, x) :: rest =>
        let out := (f.drainTo h).map fun g => (g, x)
        if rest.isEmpty then
          match s.pass f [] out { o with hold := none, outq := [], panel := [], scales := [], st := 0, k := 0 } with
          | .done u =>
            let v := u.clearTile t
            .done (if f.w.rnd = 5 then v.stepPhase f else v)
          | r => r
        else s.pass f [] out { o with outq := rest, k := o.k + 1 }
    else if f.w.x.getLsbD 4 ∧ o.panel.length < t.m / 16 then
      match s.head f 1 with
      | none => .wait
      | some b => match badOperand b 7 with
        | some c => .fault c h.wave 0
        | none => s.pass f [(1, b)] [] { o with panel := o.panel ++ [b] }
    else if f.w.x.getLsbD 5 ∧ o.scales.length < t.n then
      match s.head f 2 with
      | none => .wait
      | some p => match badOperand p 7 with
        | some c => .fault c h.wave 0
        | none => s.pass f [(2, p)] [] { o with scales := o.scales ++ [p] }
    else
      let d := s.drainTokens f o
      .done ((s.raise f h.wave (d.2 ||| tileFlags (s.tcw t))).setOpSt f
        { o with st := 1, k := 0, outq := d.1.map fun p => (0, dataToken f.w.fmt p h.wave) })

/-! ### Meanings -/

/-- R144, R145 mma. -/
def execMma (w : FabW) (s : State) : Host.Outcome State Fault Refusal := s.fabric w fun f => s.mmaOp f
/-- R152 mclr. -/
def execMclr (w : FabW) (s : State) : Host.Outcome State Fault Refusal :=
  s.fabric w fun f => s.checked f [] fun l =>
    if tcwState (s.tcw f.tile) = .acc then .wait
    else (s.clearTile f.tile).pass f l (f.both (zeroToken (waveOf l))) (s.opSt f)
/-- R153 mnrm. -/
def execMnrm (w : FabW) (s : State) : Host.Outcome State Fault Refusal := s.fabric w fun f => s.mnrmOp f
/-- R154 mrd. -/
def execMrd (w : FabW) (s : State) : Host.Outcome State Fault Refusal := s.fabric w fun f => s.mrdOp f
/-- R155, R156 mdrn. -/
def execMdrn (w : FabW) (s : State) : Host.Outcome State Fault Refusal := s.fabric w fun f => s.mdrnOp f

end Sys2Proof.Machine
end

