-- ==== Sys2Proof/Machine/FabricConv.lean ====
section
/-! DEFINITION. Conversions (R130 to R134) and lane operations (R137) of the fabric. -/

namespace Sys2Proof.Machine

open Sys2Proof

/-- Element k of lane i of a payload in w bits. -/
def laneElem (w : Nat) (p : Pay) (i k : Nat) : Nat := elem w p (i * (32 / w) + k)

/-- Destination elements placed as cvt places them: element k of lane i from source element k of lane i, the rest zero (R130). -/
def placeDown (ws : Nat) (tag : BitVec 4) (g : Nat → Nat → Coded) : Made :=
  let wd := fmtWidth tag
  madeElems tag fun d =>
    let i := d / (32 / wd)
    let k := d % (32 / wd)
    if k < 32 / ws then g d (i * (32 / ws) + k) else (0, 0)

/-- Destination elements placed as unpk places them: part g of each lane (R132). -/
def placeUp (ws part : Nat) (tag : BitVec 4) (g : Nat → Nat → Coded) : Made :=
  let wd := fmtWidth tag
  madeElems tag fun d => g d (d / (32 / wd) * (32 / ws) + part * (32 / wd) + d % (32 / wd))

/-- R130 cvt. -/
def cvtMake (w : FabW) (a : Pay) (ph : Nat) : Made :=
  if w.fmt = 0 ∨ w.srcFmt = 0 then { pay := a, tag := w.fmt }
  else placeDown (fmtWidth w.srcFmt) w.fmt
    (fun d t => convert w.srcFmt w.fmt w.rnd w.sat ((d + ph) % 32) (elem (fmtWidth w.srcFmt) a t))

/-- R131 pack: the elements of part g are converted, the others are b's. -/
def packMake (w : FabW) (a b : Pay) (ph : Nat) : Made :=
  let ws := fmtWidth w.srcFmt
  let wd := fmtWidth w.fmt
  madeElems w.fmt fun d =>
    let i := d / (32 / wd)
    let k := d % (32 / wd)
    if k / (32 / ws) = w.part then
      convert w.srcFmt w.fmt w.rnd w.sat ((d + ph) % 32) (elem ws a (i * (32 / ws) + k % (32 / ws)))
    else (elem wd b d, 0)

/-- R132 unpk. -/
def unpkMake (w : FabW) (a : Pay) (ph : Nat) : Made :=
  let ws := fmtWidth w.srcFmt
  placeUp ws w.part w.fmt fun d t => convert w.srcFmt w.fmt w.rnd w.sat ((d + ph) % 32) (elem ws a t)

/-- One element scaled and converted in one rounding (R133). -/
def sclCode (w : FabW) (idx x s : Nat) : Coded :=
  let v := decodeVal w.srcFmt x
  let sc := decodeVal 14 s
  let r := roundVal w.fmt w.rnd w.sat idx (v.mul sc).1
  (r.1, r.2 ||| fIf (isSnan w.srcFmt x) fNV)

/-- R133 scl. -/
def sclMake (w : FabW) (a b : Pay) (ph : Nat) : Made :=
  let ws := fmtWidth w.srcFmt
  let g := fun (d t : Nat) => sclCode w ((d + ph) % 32) (elem ws a t) (elem 8 b (t / 32))
  if fmtWidth w.fmt ≤ ws then placeDown ws w.fmt g else placeUp ws w.part w.fmt g

/-- The magnitude of a value. -/
def Val.abs : Val → Val
  | .nan => .nan
  | .inf _ => .inf false
  | .fin _ m e => .fin false m e

/-- R134 amax. -/
def amaxMake (w : FabW) (a b : Pay) : Made :=
  let wd := fmtWidth w.fmt
  let l := elemsOf wd a ++ [elem wd b 0]
  if fmtInt w.fmt then
    let ms := l.map fun x => fitInt w.fmt true (intVal w.fmt x).natAbs
    let m := ms.foldl (fun acc c => max acc c.1) 0
    { pay := splat wd m, tag := w.fmt, fl := ms.foldl (fun fl c => fl ||| c.2) 0 }
  else if l.any fun x => decodeVal w.fmt x == .nan then
    { pay := splat wd (canonNan w.fmt), tag := w.fmt, fl := snanFlag w.fmt l }
  else
    let top := l.foldl (fun acc x => if acc.lt (decodeVal w.fmt x).abs then (decodeVal w.fmt x).abs else acc) (.fin false 0 0)
    { pay := splat wd (roundVal w.fmt 0 false 0 top).1, tag := w.fmt }

/-- A result made of whole lanes (R137). -/
def laneMake (fmt : BitVec 4) (g : Nat → Nat) : Made := { pay := payOf 32 ((List.range 16).map g), tag := fmt }

/-- The lane key of vbc, vrot and vlane (R119). -/
def laneKey (w : FabW) : Nat := w.x.toNat % 16

/-! ### Meanings -/

/-- R130 cvt. -/
def execCvt (w : FabW) (s : State) : Host.Outcome State Fault Refusal :=
  s.fabric w fun f => s.fireElem f [(0, w.srcFmt)] fun a _ _ ph => cvtMake w a ph
/-- R131 pack. -/
def execPack (w : FabW) (s : State) : Host.Outcome State Fault Refusal :=
  s.fabric w fun f => s.fireElem f [(0, w.srcFmt), (1, w.fmt)] fun a b _ ph => packMake w a b ph
/-- R132 unpk. -/
def execUnpk (w : FabW) (s : State) : Host.Outcome State Fault Refusal :=
  s.fabric w fun f => s.fireElem f [(0, w.srcFmt)] fun a _ _ ph => unpkMake w a ph
/-- R133 scl: b carries e8m0. -/
def execScl (w : FabW) (s : State) : Host.Outcome State Fault Refusal :=
  s.fabric w fun f => s.fireElem f [(0, w.srcFmt), (1, 14)] fun a b _ ph => sclMake w a b ph
/-- R134 amax. -/
def execAmax (w : FabW) (s : State) : Host.Outcome State Fault Refusal :=
  s.fabric w fun f => s.fireElem f (needAB w.fmt) fun a b _ _ => amaxMake w a b
/-- R137 vshuf: b carries n32. -/
def execVshuf (w : FabW) (s : State) : Host.Outcome State Fault Refusal :=
  s.fabric w fun f => s.fireElem f [(0, w.fmt), (1, 6)] fun a b _ _ => laneMake w.fmt fun i => elem 32 a (elem 32 b i % 16)
/-- R137 vbc. -/
def execVbc (w : FabW) (s : State) : Host.Outcome State Fault Refusal :=
  s.fabric w fun f => s.fireElem f (needAB w.fmt) fun a _ _ _ => laneMake w.fmt fun _ => elem 32 a (laneKey w)
/-- R137 vrot. -/
def execVrot (w : FabW) (s : State) : Host.Outcome State Fault Refusal :=
  s.fabric w fun f => s.fireElem f (needAB w.fmt) fun a _ _ _ => laneMake w.fmt fun i => elem 32 a ((i + laneKey w) % 16)
/-- R137 vlane. -/
def execVlane (w : FabW) (s : State) : Host.Outcome State Fault Refusal :=
  s.fabric w fun f => s.fireElem f (needAB w.fmt) fun a b _ _ =>
    laneMake w.fmt fun i => if i = laneKey w then elem 32 b 0 else elem 32 a i

end Sys2Proof.Machine
end

