-- ==== Sys2Proof/Machine/FlashEv.lean ====
section
/-! DEFINITION. The events of flash: staging and eviction (R345, R354), installs (R349, R350), stages (R352 to R354). -/

namespace Sys2Proof.Machine

open Sys2Proof

/-! ### Staging (R345, R354) -/

/-- The flash pages that the carve-out holds. -/
def Regs.carvePages (r : Regs) : Nat := r.carveNow * 65536

/-- An operation still holds the pages of its stage: its status version is not created, or not retired (R354). -/
def State.opHolds (s : State) (id : Nat) : Bool :=
  match s.op? id with
  | none => false
  | some o => o.live || match s.statusTgt o with
    | some t => decide (s.vFloor t.line ≤ o.entry)
    | none => true

/-- A staged page is held. -/
def State.pageHeld (s : State) (p : Staged) : Bool := p.held.any s.opHolds

/-- The staged page that goes first: the least recently used that is not held. -/
def State.victim (s : State) : Option Nat :=
  (s.flash.staged.foldl (fun (m : Option (Nat × Nat)) p =>
    if s.pageHeld p.2 then m
    else match m with
      | none => some (p.1, p.2.at_)
      | some k => if p.2.at_ < k.2 then some (p.1, p.2.at_) else m) none).map Prod.fst

/-- The staged pages replaced. -/
def State.setStaged (s : State) (t : Tab Staged) : State := { s with flash := { s.flash with staged := t } }

/-- A page staged with a mark, in the place of the least recently used where the carve-out is full; none while no page can go. -/
def State.stagePage (s : State) (page : Nat) (p : Staged) : Option State :=
  let q := { p with at_ := s.cyc }
  if (s.staged? page).isSome ∨ s.flash.staged.length < s.regs.carvePages then some (s.setStaged (Tab.put s.flash.staged page q))
  else match s.victim with
    | some v => if s.regs.carvePages = 0 then none else some (s.setStaged (Tab.put (Tab.del s.flash.staged v) page q))
    | none => none

/-- R345 STAGING_FILL: a page that is not staged comes in, unchecked. -/
def execStagingFill (stack : BitVec 2) (page : BitVec 26) (s : State) : Host.Outcome State Fault Refusal :=
  let k := stack.toNat * 2 ^ 26 + page.toNat
  if (s.staged? k).isSome then .next s else .next ((s.stagePage k {}).getD s)

/-! ### What the places of a range come to -/

/-- What the pages of a range come to: fit, to be waited for, a fault for the handler, or unfit. -/
inductive RangeSt where
  | fit
  | wait
  | fault (va : Word) (c : Cause)
  | unfit
deriving DecidableEq, Repr

/-- The addresses of the 16 KiB pages of a range. -/
def pagesOf (va : Word) (len : Nat) : List Word := (List.range (len / 16384)).map fun k => va + BitVec.ofNat 64 (16384 * k)

/-- Every page of a range is of a kind, with an access. A missing permission to write is unfit (R349); other faults go to the handler (R308). -/
def State.rangeSt (s : State) (o : EngOp) (kind : Nat) (acc : Acc) : List Word → RangeSt
  | [] => .fit
  | va :: l =>
    match (if isVirt va then s.xlateV o.ctx va.toNat acc else .fault) with
    | .hold => .wait
    | .fault => if isVirt va then .fault va .xlateFault else .unfit
    | .perm => if acc = .write then .unfit else .fault va .permission
    | .ok t => if pwKind t.pw = kind then s.rangeSt o kind acc l else .unfit

/-- The outcome of the checks of a range: go on, or the state in which the operation is left. -/
def State.rangeGo (s : State) (o : EngOp) (r : RangeSt) (acc : Nat) : Option State :=
  match r with
  | .fit => none
  | .wait => some s
  | .fault va c => some (s.engFault o va c acc)
  | .unfit => some (s.engFail o 0x06 0)

/-! ### Installs (R349) -/

/-- The destination's first address of an install. -/
def EngOp.dest (o : EngOp) : Word :=
  match o.tgt with
  | .virt va => va
  | _ => 0

/-- The flash page at a virtual address of a context. -/
def State.pageAt (s : State) (c : BitVec 8) (va : Word) : Option Tgt :=
  match s.xlateV c va.toNat .write with
  | .ok t => if t.sf then some t else none
  | _ => none

/-- The flash stack of a page. -/
def stackOf (phys : Nat) : Nat := (phys - 2 ^ 43) / 2 ^ 40 % 4

/-- The erase block that a stack's next page goes to: 1024 pages fill one (R347), and the device chooses which, among those in service. DESIGN CHOICE (log 130). -/
def Flash.openBlock (f : Flash) (st : Nat) : Nat :=
  let b := Config.flashBlock (st * 2 ^ 60 + Tab.get 0 f.wear st / 1024) % 65536
  let left := fun (b : Nat) => decide (Tab.get 0 f.worn (blockKey st b) < 3000)
  if left b then b else ((List.range 65536).find? left).getD b

/-- A block leaves service, and a spare, which has used no cycle, takes its place (R346). -/
def Flash.retire (f : Flash) (st b : Nat) : Flash :=
  { f with spares := Tab.set 0 f.spares st (Tab.get 0 f.spares st + 1), worn := Tab.set 0 f.worn (blockKey st b) 0 }

/-- A block has used one more cycle: at 3,000 it leaves service, and where no spare is left nothing takes its place (R346). -/
def Flash.cycled (f : Flash) (st b : Nat) : Flash :=
  let n := Tab.get 0 f.worn (blockKey st b) + 1
  if n < 3000 ∨ f.sparesLeft st = 0 then { f with worn := Tab.set 0 f.worn (blockKey st b) (min n 3000) } else f.retire st b

/-- One more page programmed in a stack: the last of 1024 completes a cycle of its block (R347). -/
def Flash.program (f : Flash) (st : Nat) : Flash :=
  let n := Tab.get 0 f.wear st + 1
  let g := { f with wear := Tab.set 0 f.wear st n }
  if n % 1024 = 0 then g.cycled st (f.openBlock st) else g

/-- The pages of an install on a stack that are still to be programmed. -/
def State.pagesDue (s : State) (o : EngOp) (st : Nat) : Nat :=
  (((pagesOf o.dest o.len).drop o.done.length).filter fun va => ((s.pageAt o.ctx va).map fun t => stackOf t.phys) == some st).length

/-- The pages of a stack that the installs in progress have reserved (R349). -/
def State.reservedPages (s : State) (st : Nat) : Nat :=
  (s.ops.filter fun (p : EngOp) => p.kind == .inst && p.st == .running && p.started).foldl (fun n p => n + s.pagesDue p st) 0

/-- ReserveFreshPages: each stack can supply the pages of an install beside those that are reserved, 1024 in each cycle that is left of it, less those that the open cycle has taken (R347, R349). An install that has started holds its reservation. -/
def State.freshPages (s : State) (o : EngOp) : Bool :=
  (List.range 4).all fun st =>
    let n := s.pagesDue o st
    n == 0 || decide (n + s.reservedPages st + Tab.get 0 s.flash.wear st % 1024 ≤ 1024 * s.flash.cyclesLeft st)

/-- The start of an install: its checks in the order of R349, and its charge. -/
def State.installStart (s : State) (o : EngOp) : State :=
  match s.rangeGo o (s.rangeSt o 0 .read (pagesOf o.src o.len)) 0 with
  | some u => u
  | none =>
    match s.rangeGo o (s.rangeSt o 1 .write (pagesOf o.dest o.len)) 1 with
    | some u => u
    | none =>
      match s.engReadAll o (lineRuns (o.len / 64 + 2) o.src o.len) with
      | .wait u => u
      | .bad u _ va => u.engFail ((u.op? o.id).getD o) 0x06 va
      | .fault u va c _ => u.engFault ((u.op? o.id).getD o) va c 0
      | .bytes u l =>
        let pass : Bool := match o.keySlot with
          | none => true
          | some k => match (s.ctx o.ctx).key? k with
            | some key => imageCheck key l
            | none => false
        let x := (s.ctx o.ctx).refill s.cyc
        if !pass then u.engFail o 0x05 0
        else if x.left < o.len then (u.setCtx o.ctx x).engFail o 0x02 0
        else if !u.freshPages o then (u.setCtx o.ctx x).engFail o 0x03 0
        else (u.setCtx o.ctx { x with left := x.left - o.len }).setOp { (u.op? o.id).getD o with started := true, result := l, charged := o.len }

/-- Page k of an install programmed and verified; bad and bad2 say that the first and the second read back differed. -/
def State.installPage (s : State) (o : EngOp) (bad bad2 : Bool) : State :=
  let k := o.done.length
  let st := ((s.pageAt o.ctx (o.dest + BitVec.ofNat 64 (16384 * k))).map fun t => stackOf t.phys).getD 0
  let o1 := { o with done := o.done ++ [k] }
  let s1 : State := { s with flash := s.flash.program st }
  if !bad then s1.setOp o1
  else if s1.flash.sparesLeft st = 0 then s1.engFail o1 0x03 0
  else
    let s2 : State := { s1 with flash := (s1.flash.retire st (s.flash.openBlock st)).program st }
    if bad2 then s2.engFail o1 0x04 0 else s2.setOp { o1 with nremap := o1.nremap + 1 }

/-- R349 INSTALL_PAGE_PROGRAM: the checks and the charge of an install when Sepia starts it, then one 16 KiB page. -/
def execInstallPageProgram (id : Nat) (bad bad2 : Bool) (s : State) : Host.Outcome State Fault Refusal :=
  match s.op? id with
  | none => .next s
  | some o =>
    if o.kind ≠ .inst ∨ o.st ≠ .running then .next s
    else if !o.started then .next (s.installStart o)
    else if o.len / 16384 ≤ o.done.length then .next s
    else .next (s.installPage o bad bad2)

/-- The value of a status version (R350). -/
def statusValue (nremap istat : Nat) : Word :=
  BitVec.ofNat 64 (nremap % 2 ^ 32 * 2 ^ 32 + istat * 2 ^ 8 + (if istat ≤ 1 then 0 else istat))

/-- The pages of an install stored at their places, each losing its staged copy. -/
def State.swapPages (s : State) (c : BitVec 8) : List Word → List Byte → State
  | [], _ => s
  | va :: l, d =>
    match s.pageAt c va with
    | some t =>
      let s1 := s.store t.phys (d.take 16384)
      (s1.setStaged (Tab.del s1.flash.staged (flashPage t.phys))).swapPages c l (d.drop 16384)
    | none => s.swapPages c l (d.drop 16384)

/-- The charge for pages never programmed returned (R349). -/
def State.refund (s : State) (o : EngOp) : State :=
  s.modCtx o.ctx fun x =>
    let y := x.refill s.cyc
    { y with left := min y.leftMax (y.left + (o.charged - 16384 * o.done.length)) }

/-- The status version of an install or a stage created with an effect in the same step, at the word as it was translated at issue: it waits while four versions are live, and for what its line meets (R404, R405, R423). The operation is given as it ends. -/
def State.statusVersion (s : State) (o : EngOp) (v : Word) (f : State → State) : State :=
  match s.statusTgt o with
  | none => ((f s).setOp { o with live := false, result := [] }).noteEnded o.id
  | some t =>
    let made := fun (u : State) (bad : Bool) =>
      (((f u).setOp { o with live := false, result := [], entry := u.vNext t.line }).noteEnded o.id).statusMade o t bad v
    if s.layerHeld t.pw t.off || s.vFull t.line then s
    else match s.meet (engWho o.id o.sid) t 8 with
      | .wait u => u
      | .go u => made u false
      | .bad u => made u true

/-- R349, R350 INSTALL_FINISH: on success the pages are swapped in; in every case the status version is created, in the order of the thread's publishes. -/
def execInstallFinish (id : Nat) (s : State) : Host.Outcome State Fault Refusal :=
  match s.op? id with
  | none => .next s
  | some o =>
    let whole : Bool := o.st == .running && o.started && decide (o.len / 16384 ≤ o.done.length)
    if o.kind ≠ .inst ∨ !o.live ∨ o.pubWait.isSome ∨ !(whole || o.st == .failed) ∨ s.pubBefore o ∨ !s.writesDone o.sid then .next s
    else
      let code := if whole then (if o.nremap = 0 then 0 else 1) else o.status.toNat
      if whole ∧ (s.rangeSt o 1 .write (pagesOf o.dest o.len)) ≠ .fit then
        match s.rangeSt o 1 .write (pagesOf o.dest o.len) with
        | .fault va c => .next (s.pubFault o va c)
        | .unfit => .next (s.engFail o 0x06 0)
        | _ => .next s
      else .next (s.statusVersion { o with st := if whole then .complete else .failed, status := BitVec.ofNat 8 code } (statusValue o.nremap code) fun u =>
        if whole then u.swapPages o.ctx (pagesOf o.dest o.len) o.result else u.refund o)

/-! ### Stages (R352 to R354) -/

/-- The flash pages of a range. -/
def State.rangePages (s : State) (o : EngOp) : List Nat :=
  (pagesOf o.src o.len).filterMap fun va => match s.xlateV o.ctx va.toNat .read with
    | .ok t => some (flashPage t.phys)
    | _ => none

/-- The pages that a context holds: those staged and held, and those of its checking stages that have begun and not finished. -/
def State.heldPages (s : State) (c : BitVec 8) : List Nat :=
  (s.flash.staged.filter fun p => p.2.held.any fun h => s.opHolds h && ((s.op? h).map EngOp.ctx) == some c).map Prod.fst ++
    (s.ops.filter fun p => p.kind == .stage && p.ctx == c && p.keySlot.isSome && p.started && p.live).flatMap s.rangePages

/-- A context's held pages, with those of a range, fill at most half the carve-out (R354). -/
def State.holdRoom (s : State) (o : EngOp) : Bool :=
  decide (2 * (s.heldPages o.ctx ++ s.rangePages o).eraseDups.length ≤ s.regs.carvePages)

/-- n bytes of flash from an address of a context on, as the page map gives them; none where a page is poisoned or gone. -/
def State.flashBytes (s : State) (c : BitVec 8) (va : Word) (n : Nat) : List Byte :=
  (lineRuns (n / 64 + 2) va n).flatMap fun p => match p with
    | .mem a k => match s.xlateV c a.toNat .read with
      | .ok t => if s.poisonIn t.phys k then [] else s.rdTgt t k
      | _ => []
    | _ => []

/-- The mark that a block of 64 KiB of a checking stage comes to: passed, failed, or none beyond the image (R353, R356). -/
def State.blockMark (s : State) (o : EngOp) (k : Nat) : Option Bool :=
  match o.keySlot with
  | none => none
  | some slot =>
    match (s.ctx o.ctx).key? slot with
    | none => some false
    | some key =>
      let hdr := s.flashBytes o.ctx o.src 256
      let h := aciHdr hdr
      if !aciHeaderOk key hdr o.len true then some false
      else if k * 65536 < h.dataOff then some true
      else
        let b := k - h.dataOff / 65536
        if h.nblk ≤ b then none
        else some (aciBlockOk key h.id (s.flashBytes o.ctx (o.src + BitVec.ofNat 64 (0x100 + 32 * b)) 32) b
          (s.flashBytes o.ctx (o.src + BitVec.ofNat 64 (65536 * k)) 65536))

/-- The pages of block k of a range. -/
def EngOp.blockPages (o : EngOp) (k : Nat) : List Word := ((pagesOf o.src o.len).drop (4 * k)).take 4

/-- Pages staged one after another; none while no page can go. A poisoned page that is still staged stays poisoned (R404). -/
def State.stageAll (s : State) (o : EngOp) (mark : Option Bool) : List Word → Option State
  | [] => some s
  | va :: l =>
    match s.xlateV o.ctx va.toNat .read with
    | .ok t =>
      let old := (s.staged? (flashPage t.phys)).getD {}
      let p : Staged :=
        { checked := mark == some true || (mark.isNone && old.checked), failed := mark == some false || (mark.isNone && old.failed)
          held := if o.keySlot.isSome then old.held ++ [o.id] else old.held, poison := old.poison
          badAt := if mark = some false then BitVec.ofNat 64 (va.toNat / 16384 * 16384) else old.badAt }
      match s.stagePage (flashPage t.phys) p with
      | some u => u.stageAll o mark l
      | none => none
    | _ => none

/-- R353 STAGE_BLOCK: one block of 64 KiB staged and checked; before the first the range and the limit on held pages are checked. -/
def execStageBlock (id : Nat) (s : State) : Host.Outcome State Fault Refusal :=
  match s.op? id with
  | none => .next s
  | some o =>
    let k := o.done.length
    let n := (o.len + 65535) / 65536
    if o.kind ≠ .stage ∨ o.st ≠ .running ∨ n ≤ k then .next s
    else match s.rangeGo o (s.rangeSt o 1 .read (pagesOf o.src o.len)) 0 with
      | some u => .next u
      | none =>
        if o.keySlot.isSome ∧ !o.started ∧ !s.holdRoom o then .next (s.engFail o 0x06 0)
        else
          let mark := s.blockMark o k
          match s.stageAll o mark (o.blockPages k) with
          | none => .next s
          | some u =>
            let v := u.setOp { o with
              started := true, done := o.done ++ [k], status := if mark = some false then 0x05 else o.status
              st := if k + 1 = n then .complete else .running }
            .next (if k + 1 = n then v.noteEnded id else v)

/-- R352 STAGE_FINISH: the status version, with NREMAP 0. -/
def execStageFinish (id : Nat) (s : State) : Host.Outcome State Fault Refusal :=
  match s.op? id with
  | none => .next s
  | some o =>
    if o.kind ≠ .stage ∨ !o.live ∨ o.pubWait.isSome ∨ !(o.st == .complete || o.st == .failed) then .next s
    else .next (s.statusVersion o (statusValue 0 o.status.toNat) fun u => u)

end Sys2Proof.Machine
end

