-- ==== Sys2Proof/Machine/ObjLoad.lean ====
section
/-! DEFINITION. The reading of a Sheo object and the checks that Celadon makes of it when it is loaded (R60 to R81, R82 steps 1 and 2). -/

namespace Sys2Proof.Machine

open Sys2Proof

/-- A little-endian field of an object's bytes (R3). -/
def leAt (l : List Byte) (off n : Nat) : Nat := natOf ((l.drop off).take n)

/-! ### The container (R75, R76, R81) -/

/-- An entry of the section table (R76). -/
structure SecEnt where
  kind : Nat
  op : Nat
  img : Nat
  off : Nat
  size : Nat
deriving DecidableEq, Repr

/-- An entry of the section table as it stands. -/
def secEnt (l : List Byte) (k : Nat) : SecEnt :=
  let b := 0x40 + 32 * k
  ⟨leAt l b 1, leAt l (b + 1) 1, leAt l (b + 2) 2, leAt l (b + 8) 8, leAt l (b + 16) 8⟩

/-- The section table. -/
def secTable (l : List Byte) : List SecEnt := (List.range (leAt l 8 2)).map (secEnt l)

/-- Two sections overlap. -/
def SecEnt.meets (a b : SecEnt) : Bool := decide (a.off < b.off + b.size) && decide (b.off < a.off + a.size) && decide (0 < a.size) && decide (0 < b.size)

/-- An entry's own fields are in order (R75, R76). A TEXT section whose size is no multiple of 8 is accepted: R59 says that it holds whole words, and no load failure is named for it; the fetch of its last partial word faults. DESIGN CHOICE (log 137). -/
def secEntOk (l : List Byte) (size k : Nat) : Bool :=
  let b := 0x40 + 32 * k
  let e := secEnt l k
  [0x01, 0x02, 0x03, 0x10, 0x11, 0x12, 0x20, 0x21, 0x30, 0x7F].contains e.kind && (e.kind == 0x11 || (e.op == 0 && e.img == 0)) &&
    leAt l (b + 4) 4 == 0 && leAt l (b + 24) 8 == 0 && decide (e.off % 4096 = 0) && decide (e.off + e.size ≤ size)

/-- The header and the section table of an object are in order (R75, R76). -/
def tableOk (l : List Byte) : Bool :=
  let n := leAt l 8 2
  let size := leAt l 16 8
  let t := secTable l
  l.take 4 == [0x53, 0x48, 0x45, 0x4F] && leAt l 4 2 == 1 && decide (2 ≤ n ∧ n ≤ 64) && leAt l 10 6 == 0 && leAt l 24 40 == 0 &&
    ((List.range n).all fun k => secEntOk l size k) &&
    (t.zipIdx.all fun (p : SecEnt × Nat) => t.zipIdx.all fun (q : SecEnt × Nat) => decide (q.2 ≤ p.2) || !p.1.meets q.1) &&
    ([0x01, 0x02, 0x03, 0x10, 0x12, 0x20, 0x21].all fun k => decide ((t.filter fun (e : SecEnt) => e.kind == k).length ≤ 1)) &&
    match t.getLast? with
    | some z => z.kind == 0x7F && z.size == 64 && decide (z.off + 64 = size) && (t.dropLast.all fun (e : SecEnt) => e.kind != 0x7F && decide (e.off + e.size ≤ z.off))
    | none => false

/-- The container of an object is in order: R82 step 1. -/
def containerOk (l : List Byte) : Bool :=
  tableOk l && match (secTable l).getLast? with
    | some z => sha3_512 (l.take z.off) == (l.drop z.off).take 64
    | none => false

/-- The only section of a kind; an empty one at 0 where there is none. -/
def secOf (l : List Byte) (kind : Nat) : SecEnt := ((secTable l).find? fun e => e.kind == kind).getD ⟨kind, 0, 0, 0, 0⟩

/-- The bytes of a section. -/
def secBytes (l : List Byte) (e : SecEnt) : List Byte := (l.drop e.off).take e.size

/-- The words of a run of bytes. -/
def wordsOf (l : List Byte) : Nat → List Word
  | 0 => []
  | n + 1 => BitVec.ofNat 64 (natOf (l.take 8)) :: wordsOf (l.drop 8) n

/-! ### Blocks (R60, R61) -/

/-- A block as it stands in BLOCKS: its offset, its header words and its instruction words. -/
structure RawBlk where
  off : Nat := 0
  h0 : Word := 0
  h1 : Word := 0
  words : List Word := []
deriving DecidableEq, Repr

/-- The block at an offset of BLOCKS; none where it runs past the section. -/
def rawBlk (bs : List Byte) (off : Nat) : Option RawBlk :=
  let h := BitVec.ofNat 64 (leAt bs off 8)
  let n := bitsAt h.toNat 41 7 + 1
  if bs.length < off + 16 + 8 * n then none
  else some ⟨off, h, BitVec.ofNat 64 (leAt bs (off + 8) 8), wordsOf (bs.drop (off + 16)) n⟩

/-- So many blocks from an offset on, as far as they lie in BLOCKS. -/
def rawBlks (bs : List Byte) : Nat → Nat → List RawBlk
  | 0, _ => []
  | n + 1, off =>
    match rawBlk bs off with
    | none => []
    | some b => b :: rawBlks bs n (off + 16 + 8 * b.words.length)

/-- The fields of a block (R61). -/
def RawBlk.blk (r : RawBlk) : Blk :=
  let h := r.h0.toNat
  { ca := bitAt h 40, awc := bitAt h 39, scl := bitAt h 38, enm1 := bitsAt h 36 2, exits := bitsAt h 29 7, dtrev := bitsAt h 0 16
    id := BitVec.ofNat 32 (r.h1.toNat / 2 ^ 32), emap := r.h1.setWidth 32, words := r.words }

/-- A block's header keeps R61 and R62. -/
def RawBlk.headOk (r : RawBlk) : Bool :=
  let b := r.blk
  let h := r.h0.toNat
  bitsAt h 56 8 == 0xB7 && bitsAt h 48 8 == 1 && bitsAt h 16 13 == 0 &&
    ((List.range 4).all fun e => if e < b.entries then bitsAt b.emap.toNat (8 * e) 8 < b.n else bitsAt b.emap.toNat (8 * e) 8 == 0) &&
    ((List.range b.entries).map b.entrySlot).eraseDups.length == b.entries

/-- A target names a slot or exit that the block has (R65). -/
def Blk.tgtIn (b : Blk) (t : BitVec 10) : Bool := if tgtIsSlot t then decide (tgtSlot t < b.n) else decide (tgtSlot t < b.exits)

/-- A slot's word keeps the rules that it and the header decide (R62, R64 to R71, R156, R157). -/
def Blk.wordOk (b : Blk) (k : Nat) : Bool :=
  let f := b.op k
  (decodeFab (b.words.getD k 0)).isSome && (f.w.targets.all b.tgtIn) && ((fedExits f).all fun x => decide (x < b.exits)) &&
    !(f.op == 0x40 && f.w.x.getLsbD 9 && !b.scl)

/-! ### Operands (R66, R120 to R137, R144 to R155, R201 to R210, R321 to R326) -/

/-- An opcode uses operand a. -/
def usesA (o : Nat) : Bool := o != 0x70 && o != 0x74

/-- A slot uses operand b. -/
def usesB (f : FabOp) : Bool :=
  let o := f.op.toNat
  (decide (o ≤ 0x3A) && arithUsesB o) || o == 0x40 || (o == 0x43 && f.w.x.getLsbD 4) || o == 0x51 || o == 0x52 || o == 0x54 ||
    decide (0x61 ≤ o ∧ o ≤ 0x64)

/-- A slot uses operand p. -/
def usesP (f : FabOp) : Bool :=
  let o := f.op.toNat
  o == 0x07 || o == 0x16 || o == 0x23 || (o == 0x40 && f.w.x.getLsbD 9) || (o == 0x43 && f.w.x.getLsbD 5) ||
    decide (0x50 ≤ o ∧ o ≤ 0x53) || (o == 0x62 && f.w.x.toNat % 16 == 9)

/-- How many sources feed a position (R66). -/
def Blk.sources (b : Blk) (slot pos : Nat) : Nat :=
  ((List.range b.n).foldl (fun n k => n + ((b.op k).w.targets.filter fun t => tgtIsSlot t && tgtSlot t == slot && tgtPos t == pos).length) 0) +
    (if pos = 0 then ((List.range b.entries).filter fun e => b.entrySlot e == slot).length else 0) +
    (if (pos = 1 ∧ (b.op slot).w.ik = 1) ∨ (pos = 0 ∧ (b.op slot).w.ik = 2) then 1 else 0)

/-- Every position of a slot is fed as R66 asks: mst's p and every o are optional. -/
def Blk.fedOk (b : Blk) (k : Nat) : Bool :=
  let f := b.op k
  let need := fun (pos : Nat) (u : Bool) => b.sources k pos == if u then 1 else 0
  need 0 (usesA f.op.toNat) && need 1 (usesB f) && (if f.op = 0x61 then decide (b.sources k 2 ≤ 1) else need 2 (usesP f)) && decide (b.sources k 3 ≤ 1)

/-- How many targets feed an exit (R66, R156). -/
def Blk.exitSources (b : Blk) (x : Nat) : Nat := (List.range b.n).foldl (fun n k => n + ((fedExits (b.op k)).filter fun y => y == x).length) 0

/-- A slot that breaks a cycle of targets (R66). -/
def Blk.cuts (b : Blk) (k : Nat) : Bool := b.opc k == 0x52 || b.opc k == 0x53 || b.opc k == 0x57

/-- The slots reached along targets without passing through a cutting slot. -/
def Blk.plainReach (b : Blk) : Nat → List Nat → List Nat
  | 0, l => l
  | n + 1, l =>
    let more := (l.flatMap fun k => (b.op k).w.nextSlots.filter fun j => !b.cuts j).filter fun k => !l.contains k
    if more.isEmpty then l else b.plainReach n (l ++ more.eraseDups)

/-- A slot lies on a cycle of targets that no carry, inv or iter cuts (R66). -/
def Blk.loops (b : Blk) (k : Nat) : Bool :=
  !b.cuts k && (b.plainReach b.n ((b.op k).w.nextSlots.filter fun j => !b.cuts j).eraseDups).contains k

/-- A carry's b is fed from the cycle through it (R204). -/
def Blk.carryOk (b : Blk) (k : Nat) : Bool := b.opc k != 0x52 || (b.feeders k 1).all fun p => p == k || b.reaches k p

/-- An mma is chained exactly as its x says, and to an mrd that agrees with it (R157). -/
def Blk.chainOk (b : Blk) (k : Nat) : Bool :=
  let f := b.op k
  let from_ := b.feeders k 0
  if f.op ≠ 0x40 then true
  else if f.w.x.getLsbD 8 then
    !from_.isEmpty && from_.all fun p =>
      let g := b.op p
      g.op == 0x42 && g.w.fmt == f.w.fmt && f.w.x.toNat / 64 % 4 == g.w.x.toNat / 4 % 4 &&
        (let e := 512 / fmtWidth g.w.fmt
         f.w.imm.toNat / 4 % 4096 + 1 == (16 * (g.w.imm.toNat % 64 + 1) + e - 1) / e)
  else from_.all fun p => b.opc p != 0x42

/-- A slot keeps the rules of the target graph and of its instruction (R66, R157, R204). -/
def Blk.slotOk (b : Blk) (k : Nat) : Bool := b.fedOk k && !b.loops k && b.carryOk k && b.chainOk k

/-- What a load finds wrong: the block, if one is named, and the slot. -/
abbrev Found := Option (Option (BitVec 32) × Option Nat)

/-- A block's first failure: of the block itself, else of its lowest slot. -/
def Blk.fails (b : Blk) (whole : Bool) (ok : Nat → Bool) : Found :=
  if !whole then some (some b.id, none)
  else match (List.range b.n).find? fun k => !ok k with
    | some k => some (some b.id, some k)
    | none => none

/-- A block's header and words: the first part of R82 step 2. Blocks before it in the object are given, for BLOCKID: of two blocks with one BLOCKID the later in object order is the failing one (R62). DESIGN CHOICE (log 137). -/
def RawBlk.found (r : RawBlk) (before : List RawBlk) : Found :=
  let b := r.blk
  b.fails (r.headOk && !(before.any fun q => q.off != r.off && q.blk.id == b.id)) b.wordOk

/-- The lowest slot that an exit fed twice concerns (R66). -/
def Blk.twiceFed (b : Blk) : Option Nat :=
  (List.range b.n).find? fun k => (fedExits (b.op k)).any fun x => decide (1 < b.exitSources x)

/-- A block's target graph: the second part of R82 step 2. An exit that nothing feeds names no slot; it is reported before the block's slots. DESIGN CHOICE (log 129). -/
def Blk.graphFound (b : Blk) : Found :=
  if (List.range b.exits).any fun x => b.exitSources x == 0 then some (some b.id, none)
  else b.fails true fun k => b.slotOk k && b.twiceFed != some k

/-! ### Images, gangs, routes (R77, R78) -/

/-- An image-table entry's words. -/
def imgWords (im : List Byte) (k : Nat) : List Nat := (List.range 4).map fun j => leAt im (32 * k + 8 * j) 8

/-- The blocks of an image as they stand. -/
def imgBlks (im bs : List Byte) (k : Nat) : List RawBlk :=
  let w := (imgWords im k).getD 0 0
  if w % 8 = 0 then rawBlks bs (bitsAt w 32 16) (bitsAt w 0 32) else []

/-- An image's fields, its routes and sections aside (R77). -/
def imgOfTable (im bs : List Byte) (k : Nat) : Image :=
  let w := fun j => (imgWords im k).getD j 0
  { w := bitsAt (w 0) 56 8, h := bitsAt (w 0) 48 8, centry := w 1, qlog := bitsAt (w 2) 0 5, phase := BitVec.ofNat 5 (bitsAt (w 2) 8 5)
    opmask := BitVec.ofNat 4 (bitsAt (w 2) 16 4), qv := bitAt (w 2) 20, qent := bitsAt (w 2) 21 2, qblk := bitsAt (w 2) 32 10
    blks := (imgBlks im bs k).map RawBlk.blk }

/-- An image-table entry is in order, its entry queue aside (R77). -/
def imgEntOk (im : List Byte) (textSize : Nat) (secs : List SecEnt) (k : Nat) (m : Image) : Bool :=
  let w := fun j => (imgWords im k).getD j 0
  decide (1 ≤ m.w ∧ m.w ≤ 8 ∧ 1 ≤ m.h ∧ m.h ≤ 8) && decide (4 ≤ m.qlog ∧ m.qlog ≤ 16) && decide (1 ≤ m.blks.length ∧ m.blks.length ≤ 1024) &&
    m.blks.length == bitsAt (w 0) 32 16 && decide (w 0 % 8 = 0) && decide (w 1 % 8 = 0) && decide (w 1 < textSize) &&
    bitsAt (w 2) 5 3 == 0 && bitsAt (w 2) 13 3 == 0 && bitsAt (w 2) 23 9 == 0 && bitsAt (w 2) 42 22 == 0 && w 3 == 0 && m.opmask != 0 &&
    ((List.range 4).all fun p => m.opmask.getLsbD p == (secs.any fun e => e.kind == 0x11 && e.img == k && e.op == p)) &&
    !(secs.any fun e => e.kind == 0x11 && e.img == k && decide (4 ≤ e.op))

/-- The entry queue of an image is in order; the report names block QBLK where there is one (R77). -/
def Image.queueFound (m : Image) : Found :=
  if m.qv then
    match m.blks[m.qblk]? with
    | none => some (none, none)
    | some b => if m.qent < b.entries && !m.routed m.qblk m.qent then none else some (some b.id, none)
  else if m.qent = 0 ∧ m.qblk = 0 then none else some ((m.blks[m.qblk]?).map Blk.id, none)

/-- The gang table: one list of image indices for each gang, none where an entry is malformed (R77). -/
def parseGangs : Nat → List Byte → Option (List (List Nat))
  | _, [] => some []
  | 0, _ => none
  | fuel + 1, l =>
    let w := natOf (l.take 8)
    let n := w % 64 + 1
    let len := 8 + (2 * n + 7) / 8 * 8
    if l.length < len ∨ 64 ≤ w then none
    else if leAt l (8 + 2 * n) (len - 8 - 2 * n) ≠ 0 then none
    else (parseGangs fuel (l.drop len)).map fun t => ((List.range n).map fun k => leAt l (8 + 2 * k) 2) :: t

/-- The gangs name images that exist, and total at most 64 sectors (R77). -/
def gangsOk (ms : List Image) (gs : List (List Nat)) : Bool :=
  gs.all fun g => (g.all fun k => decide (k < ms.length)) && decide ((g.foldl (fun n k => n + (ms.getD k {}).w * (ms.getD k {}).h) 0) ≤ 64)

/-- A route record (R78). -/
def routeOf (rs : List Byte) (k : Nat) : Route :=
  let w := leAt rs (16 * k) 8
  ⟨bitsAt w 48 16, bitsAt w 41 7, bitsAt w 39 2, bitsAt w 23 16, bitsAt w 21 2, leAt rs (16 * k + 8) 1⟩

/-- The bits of a route record that must be zero are zero (R78). -/
def routeZeros (rs : List Byte) (k : Nat) : Bool := bitsAt (leAt rs (16 * k) 8) 0 21 == 0 && leAt rs (16 * k + 9) 7 == 0

/-- The exits of an image's blocks in all. -/
def Image.exitCount (m : Image) : Nat := m.blks.foldl (fun n b => n + b.exits) 0

/-- Where each image's group of records begins. -/
def groupStarts : Nat → List Image → List Nat
  | _, [] => []
  | n, m :: t => n :: groupStarts (n + m.exitCount) t

/-- A record of an image's group is in order (R78). -/
def Image.routeOk (m : Image) (nimg : Nat) (r : Route) : Bool :=
  match m.blks[r.src]? with
  | none => false
  | some b => decide (r.exit < b.exits) && (match r.kind with
    | 0 => (match m.blks[r.dst]? with
      | some d => decide (r.ent < d.entries)
      | none => false)
    | 1 => decide (r.dst ≤ 127)
    | 2 => decide (r.dst < nimg)
    | _ => false)

/-- The first failure of an image's records, each with whether its zero bits are zero: the first block with a bad record, or an exit that has not exactly one (R78, R82), else a record of no block of the image. -/
def Image.routesFound (m : Image) (nimg : Nat) (l : List (Route × Bool)) : Found :=
  let bad := fun (k : Nat) => (l.any fun p => p.1.src == k && (!p.2 || !m.routeOk nimg p.1)) ||
    (List.range (m.blks.getD k {}).exits).any fun x => (l.filter fun q => q.1.src == k && q.1.exit == x).length != 1
  match (List.range m.blks.length).find? bad with
  | some k => some ((m.blks[k]?).map Blk.id, none)
  | none => if l.any fun p => decide (m.blks.length ≤ p.1.src) then some (none, none) else none

/-! ### Schedule sections (R72, R73) -/

/-- A schedule entry (R73). -/
def schedEnt (w : Nat) : SchedE :=
  { dx := bitsAt w 57 7, dy := bitsAt w 50 7, stage := bitsAt w 47 3, cycle := bitsAt w 36 11, tick := bitsAt w 30 6, chain := bitAt w 29
    early := bitAt w 28, pad := bitsAt w 20 8 }

/-- What is wrong with a section: the block's place in its image, none where no block is concerned, and the slot. -/
abbrev SchedBad := Option (Option Nat × Option Nat)

/-- The block records of a section of a revision against the image's blocks from a place on: the entries, or what is wrong with the first failing block (R72, R82). -/
def schedBlks (rev : Nat) : Nat → List Blk → List Byte → List (List SchedE) × SchedBad
  | _, [], l => ([], if l.isEmpty then none else some (none, none))
  | i, b :: t, l =>
    let w := natOf (l.take 8)
    let len := 8 + 8 * b.n
    if b.dtrev ≠ rev ∨ l.length < len ∨ w / 2 ^ 32 ≠ b.id.toNat ∨ w % 2 ^ 32 ≠ b.n - 1 then ([], some (some i, none))
    else
      let es := (wordsOf (l.drop 8) b.n).map BitVec.toNat
      match es.findIdx? fun e => bitsAt e 0 20 != 0 with
      | some k => ([], some (some i, some k))
      | none =>
        let p := schedBlks rev (i + 1) t (l.drop len)
        (es.map schedEnt :: p.1, p.2)

/-- A section read against its image (R72); GEN, like STEP and DTREV, only decides on retiming (R87; DEDUCED, log 107). -/
def schedOf (l : List Byte) (e : SecEnt) (m : Image) : Sched × SchedBad :=
  let w := natOf (l.take 8)
  let v := leAt l 8 8
  let p := schedBlks (bitsAt w 24 16) 0 m.blks (l.drop 16)
  let head : Bool := decide (16 ≤ l.length) && bitsAt w 56 8 == 0x5C && bitsAt w 16 6 == 0 && bitsAt w 22 2 == e.op &&
    v == e.img && bitsAt w 0 16 == m.blks.length
  (⟨bitsAt w 22 2, bitsAt w 48 8, bitsAt w 40 8, bitsAt w 24 16, p.1⟩,
    if !head then some (none, none) else p.2)

/-- The first failure of some sections with their images: the first block in object order, there a failure of the block before its lowest slot, and a failure of no block after all (R82; DEDUCED, log 129). -/
def schedsFound (ms : List Image) (l : List (Nat × SchedBad)) : Found :=
  let key := fun (x : Nat × Option Nat × Option Nat) => match x.2.1 with
    | some b => (x.1 * 1024 + b) * 256 + (match x.2.2 with
      | some k => k + 1
      | none => 0)
    | none => 2 ^ 32
  let bad := l.filterMap fun p => p.2.map fun x => (p.1, x)
  (bad.foldl (fun (m : Option (Nat × Option Nat × Option Nat)) x => match m with
    | some y => if key x < key y then some x else some y
    | none => some x) none).map fun x => (x.2.1.bind fun b => ((ms.getD x.1 {}).blks[b]?).map Blk.id, x.2.2)

/-! ### The whole object -/

/-- The first failure of a list of checks. -/
def firstFound : List Found → Found
  | [] => none
  | some x :: _ => some x
  | none :: t => firstFound t

/-- The blocks of the object before each, in image-table order. -/
def blksFound (before : List RawBlk) : List RawBlk → Found
  | [] => none
  | r :: t => match r.found before with
    | some x => some x
    | none => blksFound (before ++ [r]) t

/-- A failure that names a block. -/
def Found.ofBlock (f : Found) : Found := f.bind fun x => if x.1.isSome then some x else none

/-- The failures of one check of R82 step 2: those that name a block come first, in object order, and those of no block after them (log 129). -/
def blocksFirst (l : List Found) : Found := firstFound (l.map Found.ofBlock ++ l)

/-- An object read: the object, or what R82 step 2 finds. Its container is in order. -/
def readObj (va : Word) (l : List Byte) : Obj × Found :=
  let secs := secTable l
  let text := secOf l 0x01
  let const := secOf l 0x03
  let im := secBytes l (secOf l 0x20)
  let bs := secBytes l (secOf l 0x10)
  let rs := secBytes l (secOf l 0x12)
  let nimg := im.length / 32
  let raw := (List.range nimg).flatMap (imgBlks im bs)
  let ms := (List.range nimg).map (imgOfTable im bs)
  let gangs := parseGangs (secOf l 0x21).size (secBytes l (secOf l 0x21))
  let starts := groupStarts 0 ms
  let group := fun (k : Nat) (m : Image) => ((List.range m.exitCount).map fun j => starts.getD k 0 + j).filter fun j => decide (16 * j + 16 ≤ rs.length)
  let ms1 := ms.zipIdx.map fun (p : Image × Nat) => { p.1 with routes := (group p.2 p.1).map (routeOf rs) }
  let exits := ms.foldl (fun n m => n + m.exitCount) 0
  let scheds := secs.filter fun e => e.kind == 0x11
  let read := scheds.map fun e => (e, schedOf (secBytes l e) e (ms1.getD e.img {}))
  let ms2 := ms1.zipIdx.map fun (p : Image × Nat) =>
    { p.1 with scheds := (read.filter fun (q : SecEnt × Sched × SchedBad) => q.1.img == p.2).map fun (q : SecEnt × Sched × SchedBad) => q.2.1 }
  let whole := fun (b : Bool) => if b then (none : Found) else some (none, none)
  let twice := scheds.zipIdx.any fun (p : SecEnt × Nat) => scheds.zipIdx.any fun (q : SecEnt × Nat) =>
    decide (p.2 < q.2) && p.1.op == q.1.op && p.1.img == q.1.img
  let found := firstFound (
    [blksFound [] raw, firstFound (raw.map fun r => r.blk.graphFound),
     blocksFirst (
      [whole (decide (im.length % 32 = 0) && decide (1 ≤ nimg ∧ nimg ≤ 256)),
       whole (ms.zipIdx.all fun (p : Image × Nat) => imgEntOk im text.size secs p.2 p.1)] ++
      ms1.map Image.queueFound ++
      [whole (match gangs with
        | some gs => gangsOk ms gs
        | none => false)]),
     blocksFirst (
      whole (decide (rs.length = 16 * exits)) ::
      ms1.zipIdx.map fun (p : Image × Nat) => p.1.routesFound nimg ((group p.2 p.1).map fun j => (routeOf rs j, routeZeros rs j))),
     schedsFound ms1 (read.map fun (q : SecEnt × Sched × SchedBad) => (q.1.img, q.2.2)), whole (!twice && scheds.all fun e => decide (e.img < nimg))])
  ({ va := va, size := leAt l 16 8, textOff := text.off, textSize := text.size, constOff := const.off, constSize := const.size, images := ms2
     gangs := gangs.getD [], sealDigest := BitVec.ofNat 512 (leAt l ((secTable l).getLastD ⟨0, 0, 0, 0, 0⟩).off 64) }, found)

/-- Steps 1 and 2 of R82: the object, or the load report of the first failure. -/
def loadObj (va : Word) (l : List Byte) : Obj × Option Word :=
  if !containerOk l then ({}, some (loadReport 1 none none))
  else match readObj va l with
    | (o, none) => (o, none)
    | (o, some x) => (o, some (loadReport 1 x.1 x.2))

end Sys2Proof.Machine
end

