-- ==== Sys2Proof/Machine/HandleEv.lean ====
section
/-! DEFINITION. Handle slots (R384, R385): an object loaded, sealed and unloaded. -/

namespace Sys2Proof.Machine

open Sys2Proof

/-! ### Reading and writing an object's bytes -/

/-- The outcome of a read of a context's memory. -/
inductive VaGot where
  | bytes (s : State) (l : List Byte)
  | wait (s : State)
  | fault (s : State)
deriving DecidableEq, Repr

/-- Runs of a context's memory read one after another by the device, each of which meets what waits for it (R345, R395, R404, R405): what is not mapped, not readable, poisoned, failed or contained faults, and so does what is out of reach for 10 microseconds. -/
def State.readVa (s : State) (c : BitVec 8) : List Piece → VaGot
  | [] => .bytes s []
  | .mem va n :: l =>
    match (if isVirt va then s.xlateV c va.toNat .read else .fault) with
    | .hold => .wait s
    | .ok t =>
      if s.unreachable t then match s.extLink whoLoad va with
        | some u => .wait u
        | none => .fault s
      else if s.flashHeld t then .wait s
      else match s.meet whoLoad t n with
        | .wait u => .wait u
        | .bad u => .fault u
        | .go u =>
          if u.tgtPoison t n then .fault u
          else match u.readVa c l with
            | .bytes v k => .bytes v (u.rdTgt t n ++ k)
            | r => r
    | _ => .fault s
  | _ :: l => s.readVa c l

/-- n bytes from an address of a context's memory on. -/
def State.readRun (s : State) (c : BitVec 8) (va : Word) (n : Nat) : VaGot := s.readVa c (lineRuns (n / 64 + 2) va n)

/-- Bytes that the device stores on a versioned page: each object that they touch takes a new version, its other bytes as in its newest; with four live, the oldest retires. DESIGN CHOICE (log 116). -/
def State.putObjects (s : State) (t : Tgt) (b : List Byte) : State :=
  (List.range ((t.off % 8 + b.length + 7) / 8)).foldl (fun (s : State) k =>
    let o : Tgt := { t with off := t.off / 8 * 8 + 8 * k }
    let old := s.rdTgt o 8
    let bytes := old.zipIdx.map fun (p : Byte × Nat) => if t.off ≤ o.off + p.2 then b.getD (o.off + p.2 - t.off) p.1 else p.1
    let s1 := if s.vFull o.line then s.vRetire o.line (s.vFloor o.line + 1) else s
    s1.vCreate o.line (BitVec.ofNat 64 (natOf bytes))) s

/-- The places of n bytes of a context's mapped memory from an address on, by its entries, whatever they permit. -/
def State.vaTgts (s : State) (c : BitVec 8) (va : Word) (n : Nat) : List (Tgt × Nat) :=
  (lineRuns (n / 64 + 2) va n).filterMap fun p => match p with
    | .mem a k => (findRt (s.ctx c).rt a.toNat).map fun q =>
      let off := a.toNat - q.2.vbase
      (⟨some q.1, q.2.pw, q.2.frame, off, pagePhys q.2.pw q.2.frame off⟩, k)
    | _ => none

/-- Bytes stored place by place. A place whose transfer is contained is not written, and its granules are poisoned (R405); one that is out of reach is reported (R395). -/
def State.putAt (s : State) (c : BitVec 8) : List ((Tgt × Nat) × Bool) → List Byte → State
  | ((t, n), bad) :: l, b =>
    let s1 := if s.unreachable t then s.errorRec c 0 0 (BitVec.ofNat 64 ((s.ctx c).vbaseOf t)) 0
      else if bad then s.poisonRun t.phys n
      else if t.ver then s.putObjects t (b.take n) else s.store t.phys (b.take n)
    s1.putAt c l (b.drop n)
  | [], _ => s

/-- The first of some places that is out of reach and whose 10 microseconds have not passed makes a LOAD wait (R395). -/
def State.putWaits (s : State) (ts : List (Tgt × Nat)) : Option State :=
  ts.findSome? fun p => if s.unreachable p.1 then s.extLink whoLoad (BitVec.ofNat 64 p.1.phys) else none

/-- Bytes stored place by place once each place has met what waits for it (R395, R404, R405); the answer says whether they are stored. -/
def State.putRun (s : State) (c : BitVec 8) (ts : List (Tgt × Nat)) (b : List Byte) : State × Bool :=
  match s.putWaits ts with
  | some u => (u, false)
  | none => match s.meetRuns whoLoad ts with
    | (u, none) => (u, false)
    | (u, some bads) => (u.putAt c (ts.zip bads) b, true)

/-! ### LOAD (R384) -/

/-- Every 64 KiB unit of a range is mapped by an entry that passes a test. -/
def Ctx.unitsOk (x : Ctx) (p : RtEnt → Bool) : Nat → Nat → Bool
  | _, 0 => true
  | va, n + 1 => (match findRt x.rt va with
    | some (_, e) => pwValid e.pw e.frame && p e
    | none => false) && x.unitsOk p (va + 2 ^ 16) n

/-- The units of 64 KiB that n bytes from an address on touch. -/
def unitsOf (va n : Nat) : Nat := if n = 0 then 0 else (va + n - 1) / 2 ^ 16 - va / 2 ^ 16 + 1

/-- The range of an object's bytes may take them: mapped HBM with R and X and without W, and by no entry of any context with W (R384 step 2). Frames that hold the bytes of another slot's object are refused likewise, since those bytes do not change (R81). DESIGN CHOICE (log 116). -/
def State.codeOk (s : State) (c : BitVec 8) (va : Word) (size : Nat) : Bool :=
  let n := (size + 65535) / 65536
  decide (va.toNat % 65536 = 0) && decide (va.toNat + n * 65536 ≤ 2 ^ 55) && decide (n ≤ 2 ^ 23) &&
    (s.ctx c).unitsOk (fun e => pwKind e.pw == 0 && e.r && e.x && !e.w) va.toNat n &&
    (let fs := (s.segsOf c va.toNat (n * 65536)).flatMap Seg.granules
     !(s.ctxs.any fun (p : Nat × Ctx) => p.2.rt.any fun (q : Nat × RtEnt) => q.2.w && q.2.maps fs) &&
       !(s.sealedFrames.any fun a => fs.contains a))

/-- A page can take a DATA section's bytes: not an SF page, and of scratch only a sector that the context holds (R361, R381). -/
def State.dataPage (s : State) (c : BitVec 8) (e : RtEnt) : Bool :=
  let x := s.sec (bitsAt e.frame 56 8)
  pwKind e.pw == 0 || pwKind e.pw == 3 || (pwKind e.pw == 2 && x.v && x.ctx == c)

/-- The range of a DATA section may take it: mapped with R and W, on pages that can take its bytes, and clear of entry-queue bytes (R31, R381, R384; log 116). -/
def State.dataOk (s : State) (c : BitVec 8) (va : Word) (size : Nat) : Bool :=
  decide (va ≠ 0) && decide (size ≤ 2 ^ 39) && decide (va.toNat + size ≤ 2 ^ 55) &&
    (s.ctx c).unitsOk (fun e => e.r && e.w && s.dataPage c e) (va.toNat / 2 ^ 16 * 2 ^ 16) (unitsOf va.toNat size) &&
    (s.vaTgts c va size).all fun p => !(p.1.isScratch && s.reserved p.1.phys p.2)

/-- An entry of a context that covers part of a range is being replaced, or its page drained (R286, R364). -/
def State.rangeHeld (s : State) (c : BitVec 8) (va n : Nat) : Bool :=
  (s.ctx c).rt.any fun (p : Nat × RtEnt) => p.2.v && decide (p.2.vbase < va + n) && decide (va < p.2.vbase + p.2.len) && s.rtHeld c p.1

/-- An update that is draining is to map with W a frame of an object's range: the LOAD meets the entry that it leaves (R365, R384). -/
def State.codeComing (s : State) (c : BitVec 8) (va size : Nat) : Bool :=
  match s.regs.rtCmd with
  | some k => k.ent.w && k.ent.maps ((s.segsOf c va ((size + 65535) / 65536 * 65536)).flatMap Seg.granules)
  | none => false

/-- A command's result. -/
def State.handleCode (s : State) (code : BitVec 8) : State := { s with regs := { s.regs with hcode := code } }

/-- A handle slot of a context taken. -/
def State.setHandle (s : State) (c slot : BitVec 8) (h : Handle) : State :=
  s.modCtx c fun x => { x with handles := Tab.set {} x.handles slot.toNat h }

/-- A command over, with its code, and the slot as it leaves it. -/
def State.loadOver (s : State) (c slot : BitVec 8) (h : Handle) (code : BitVec 8) : State :=
  (({ s with regs := { s.regs with hcode := code, hcmd := none, hload := none } } : State).setHandle c slot h).forgetAll whoLoad |>.endLink whoLoad

/-- A LOAD that has to wait, for a page that is not staged, a held entry, a transfer or a module out of reach, is tried again in the next reference cycle. -/
def State.loadLater (s : State) (r : LoadCmd) : State := { s with regs := { s.regs with hload := some { r with due := s.cyc + 1 } } }

/-- Steps 3 to 6 of a LOAD, on the bytes read from SRC. -/
def State.loadBytes (s : State) (r : LoadCmd) (c slot : BitVec 8) (l : List Byte) (data : SecEnt) (hasData : Bool) : State :=
  let p := s.putRun c (s.vaTgts c r.va l.length) l
  if !p.2 then p.1.loadLater r
  else match loadObj r.va l with
  | (_, some rep) => ({ p.1 with regs := { p.1.regs with hrep := rep } } : State).loadOver c slot {} 0x01
  | (o, none) =>
    let b := (l.drop data.off).take data.size
    let q := if hasData then p.1.putRun c (p.1.vaTgts c r.data b.length) b else (p.1, true)
    if !q.2 then q.1.loadLater r
    else
      let segs := s.segsOf c r.va.toNat ((l.length + 65535) / 65536 * 65536)
      ({ q.1 with regs := { q.1.regs with hrep := loadReport 0 none none } } : State).loadOver c slot ⟨.sealed, o, segs⟩ 0x00

/-- R384 HANDLE_LOAD: HCMD OP 01. Step 1: the slot becomes LOADING, and the command is in progress for a time that no rule states. -/
def execHandleLoad (m : Master) (c slot : BitVec 8) (s : State) : Host.Outcome State Fault Refusal :=
  if !s.mayWrite m || s.regs.hcmd.isSome then .next s
  else if (s.ctx c).st ≠ .active then .next (s.handleCode 0x23)
  else if (Tab.get {} (s.ctx c).handles slot.toNat).st ≠ .empty then .next (s.handleCode 0x20)
  else
    let s1 := s.setHandle c slot { st := .loading }
    .next { s1 with
      fresh := s1.fresh + 1
      regs := { s1.regs with hcmd := some (c.toNat, slot.toNat), hload := some ⟨s.cyc + 1 + (Config.loadTime s.fresh).toNat, s.regs.hsrc, s.regs.hva, s.regs.hdata⟩ } }

/-- Steps 2 to 6 of the LOAD in progress (R384). A context that has stopped being ACTIVE ends it, and an update that is draining goes before it (R364, R365). -/
def State.loadStep (s : State) : State :=
  match s.regs.hcmd, s.regs.hload with
  | some k, some r =>
    let c := BitVec.ofNat 8 k.1
    let slot := BitVec.ofNat 8 k.2
    if (s.ctx c).st ≠ .active then s.loadOver c slot {} 0x23
    else match s.readRun c r.src 64 with
      | .wait u => u.loadLater r
      | .fault u => u.loadOver c slot {} 0x22
      | .bytes s1 h =>
        match s1.readRun c r.src (64 + 32 * leAt h 8 2) with
        | .wait u => u.loadLater r
        | .fault u => u.loadOver c slot {} 0x22
        | .bytes s2 t =>
          let size := leAt h 16 8
          let data := secOf t 0x02
          let hasData : Bool := (secTable t).any fun e => e.kind == 0x02
          if s2.codeComing c r.va.toNat size || s2.rangeHeld c r.va.toNat size || (hasData && s2.rangeHeld c r.data.toNat data.size) then s2.loadLater r
          else if !s2.codeOk c r.va size || (hasData && !s2.dataOk c r.data data.size) then s2.loadOver c slot {} 0x21
          else match s2.readRun c r.src size with
            | .wait u => u.loadLater r
            | .fault u => u.loadOver c slot {} 0x22
            | .bytes s3 l => s3.loadBytes r c slot l data hasData
  | _, _ => { s with regs := { s.regs with hload := none } }

/-! ### UNLOAD (R384) -/

/-- R384 HANDLE_UNLOAD: HCMD OP 10. -/
def execHandleUnload (m : Master) (c slot : BitVec 8) (s : State) : Host.Outcome State Fault Refusal :=
  let h := Tab.get {} (s.ctx c).handles slot.toNat
  if !s.mayWrite m || s.regs.hcmd.isSome then .next s
  else if (s.ctx c).st ≠ .active then .next (s.handleCode 0x23)
  else if h.st ≠ .sealed then .next (s.handleCode 0x00)
  else
    let s1 := s.setHandle c slot { h with st := .unloading }
    .next { s1 with regs := { s1.regs with hcmd := some (c.toNat, slot.toNat) } }

/-- A handle slot is still needed: by a launch short of COMPLETE, or by a task that is resident or saved (R384). -/
def State.handleHeld (s : State) (c : BitVec 8) (slot : Nat) : Bool :=
  (s.launches.any fun l => l.ctx == c && l.hslot == slot && l.st != .complete) ||
    s.tasks.any fun t => t.ctx == c && (t.runs || t.st == .saved) && ((s.launch? t.launch).any fun l => l.hslot == slot)

/-- R384 UNLOAD_DONE: nothing needs the slot any more, and it becomes EMPTY. -/
def execUnloadDone (s : State) : Host.Outcome State Fault Refusal :=
  match s.regs.hcmd with
  | none => .next s
  | some k =>
    let c := BitVec.ofNat 8 k.1
    if s.handleHeld c k.2 || (Tab.get {} (s.ctx c).handles k.2).st != .unloading then .next s
    else
      let s1 := s.setHandle c (BitVec.ofNat 8 k.2) {}
      .next { s1 with regs := { s1.regs with hcmd := none, hcode := 0x00 } }

end Sys2Proof.Machine
end

