-- ==== Sys2Proof/Machine/HostEv.lean ====
section
/-! DEFINITION. The host interface: accesses through windows (R388) and from peer modules (R393 to R395), ownership (R390 to R392), and attestation (R396). -/

namespace Sys2Proof.Machine

open Sys2Proof

/-! ### Accesses from outside -/

/-- The outcome of an access from outside. -/
inductive ExtGot where
  | done (s : State) (data : Pay)
  | poison (s : State)
  | wait (s : State)
  | fault (s : State) (c : Cause)
deriving DecidableEq, Repr

/-- The bytes that an access touches. -/
def extSize : ExtAcc → Nat
  | .read n => n.toNat
  | .write n _ => n.toNat
  | .atomic _ dbl _ => amoBytes dbl
  | .cas dbl _ _ => amoBytes dbl

/-- A run of a context's memory translated for a master outside. -/
def State.extXlate (s : State) (c : BitVec 8) (va : Word) (acc : Acc) : Xl := if isVirt va then s.xlateV c va.toNat acc else .fault

/-- An access from outside that is over: its waits end, and what its lines have met is noted no more. -/
def State.extOver (s : State) (who : Nat) : State := (s.forgetAll who).endLink who

/-- Runs read one after another, each of which meets what waits for it (R361, R345, R395, R404, R405, R410). -/
def State.extRead (s : State) (c : BitVec 8) (who : Nat) (got : List Byte) : List Piece → ExtGot
  | [] => .done (s.extOver who) (BitVec.ofNat 512 (natOf got))
  | .mem va n :: l =>
    match s.extXlate c va .read with
    | .hold => .wait s
    | .fault => .fault (s.extOver who) .xlateFault
    | .perm => .fault (s.extOver who) .permission
    | .ok t =>
      if s.unreachable t then match s.extLink who va with
        | some u => .wait u
        | none => .poison (s.extOver who)
      else if s.flashHeld t || s.dupHeld c who t then .wait s
      else match s.meet who t n with
        | .wait u => .wait u
        | .bad u => .poison (u.extOver who)
        | .go u => if u.tgtPoison t n then .poison (u.extOver who) else u.extRead c who (got ++ u.rdTgt t n) l
  | _ :: l => s.extRead c who got l

/-- What a write of some runs meets; none when every run takes a store, or has waited 10 microseconds for its module (R277, R284, R361, R395). -/
def State.extBarred (s : State) (c : BitVec 8) (who : Nat) : List Piece → Option ExtGot
  | [] => none
  | .mem va n :: l =>
    match s.extXlate c va .write with
    | .hold => some (.wait s)
    | .fault => some (.fault (s.extOver who) .xlateFault)
    | .perm => some (.fault (s.extOver who) .permission)
    | .ok t =>
      if s.storeBarred t n then some (.fault (s.extOver who) .permission)
      else match (if s.unreachable t then s.extLink who va else none) with
        | some u => some (.wait u)
        | none => s.extBarred c who l
  | _ :: l => s.extBarred c who l

/-- The places of the runs of a write that its entries admit. -/
def State.extTgts (s : State) (c : BitVec 8) (l : List Piece) : List (Tgt × Nat) :=
  l.filterMap fun p => match p with
    | .mem va n => match s.extXlate c va .write with
      | .ok t => some (t, n)
      | _ => none
    | _ => none

/-- Bytes stored run by run: a store to a module that cannot be reached is reported (R395), and one whose transfer is contained is not performed, its granules poisoned (R405). -/
def State.extStore (s : State) (c : BitVec 8) (who : Nat) : List ((Tgt × Nat) × Bool) → List Byte → State
  | ((t, n), bad) :: l, b =>
    let s1 := if s.unreachable t then s.errorRec c 0 0 (BitVec.ofNat 64 ((s.ctx c).vbaseOf t)) 0
      else if bad then s.poisonRun t.phys n else s.wrTgt c who t (b.take n)
    s1.extStore c who l (b.drop n)
  | [], _ => s

/-- A write of some runs: each meets what waits for it before any is stored. -/
def State.extWrite (s : State) (c : BitVec 8) (who : Nat) (l : List Piece) (b : List Byte) : ExtGot :=
  match s.extBarred c who l with
  | some r => r
  | none =>
    let ts := s.extTgts c l
    match s.meetRuns who ts with
    | (u, none) => .wait u
    | (u, some bads) => .done ((u.extStore c who (ts.zip bads) b).extOver who) 0

/-- An atomic of n bytes: the new value, none where it writes nothing (R290). It follows the writer's own writes of the page (R282). -/
def State.extAtomic (s : State) (c : BitVec 8) (who : Nat) (va : Word) (n : Nat) (g : Nat → Option Nat) : ExtGot :=
  if va.toNat % n ≠ 0 then .fault s .misaligned
  else match s.extXlate c va .both with
    | .hold => .wait s
    | .fault => .fault (s.extOver who) .xlateFault
    | .perm => .fault (s.extOver who) .permission
    | .ok t =>
      if s.storeBarred t n then .fault (s.extOver who) .permission
      else if s.unreachable t then match s.extLink who va with
        | some u => .wait u
        | none => .poison (s.extOver who)
      else if s.dupHeld c who t then .wait s
      else match s.meet who t n with
        | .wait u => .wait u
        | .bad u => .poison (u.extOver who)
        | .go u =>
          let v := u.extOver who
          if v.tgtPoison t n then .poison v
          else
            let old := natOf (v.rdTgt t n)
            match g old with
            | some x => .done (v.store t.phys (bytesOf n x)) (BitVec.ofNat 512 old)
            | none => .done v (BitVec.ofNat 512 old)

/-- An access from outside performed as an access of a context (R388, R394). -/
def State.extAccess (s : State) (c : BitVec 8) (who : Nat) (va : Word) (a : ExtAcc) : ExtGot :=
  match a with
  | .read n => s.extRead c who [] (lineRuns 3 va n.toNat)
  | .write n d => s.extWrite c who (lineRuns 3 va n.toNat) (bytesOf n.toNat d.toNat)
  | .atomic op dbl x =>
    let n := amoBytes dbl
    s.extAtomic c who va n fun old => some (op.val (8 * n) old (x.toNat % 2 ^ (8 * n)))
  | .cas dbl e x =>
    let n := amoBytes dbl
    s.extAtomic c who va n fun old => if old = e.toNat % 2 ^ (8 * n) then some (x.toNat % 2 ^ (8 * n)) else none

/-- The length of a window (R388). -/
def windowLen (cfg : Word) : Nat := (bitsAt cfg.toNat 16 24 + 1) * 2 ^ 16

/-- R388 HOST_WINDOW_ACCESS: performed in the window's context, with the answer to the host. -/
def execHostWindowAccess (m : Master) (w : BitVec 3) (o : BitVec 36) (a : ExtAcc) (s : State) : Host.Outcome State Fault Refusal :=
  let cfg := Tab.get 0 s.regs.wcfg w.toNat
  if !s.answers m then .next s
  else if !cfg.getLsbD 8 || decide (windowLen cfg < o.toNat + extSize a) then .next (s.emit (.unsupported m))
  else match s.extAccess (cfg.setWidth 8) (256 + m.toNat) (Tab.get 0 s.regs.wbase w.toNat + o.setWidth 64) a with
    | .wait u => .next u
    | .poison u => .next (u.emit (.poisonTlp m))
    | .fault u _ => .next (u.emit (.unsupported m))
    | .done t d => .next (t.emit (.hostData m (match a with
      | .write _ _ => none
      | _ => some d)))

/-! ### Peers (R394, R395) -/

/-- The entry of PEERMAP that matches a context of a module. -/
def State.peerEntry (s : State) (modn : BitVec 6) (c : BitVec 8) : Option Word :=
  (s.regs.peermap.find? fun (p : Nat × Word) => p.2.getLsbD 63 && bitsAt p.2.toNat 56 6 == modn.toNat && bitsAt p.2.toNat 48 8 == c.toNat).map Prod.snd

/-- An access writes memory. -/
def extWrites : ExtAcc → Bool
  | .read _ => false
  | _ => true

/-- An access of a peer is answered with a fault, which its module reports to the sender's context (R370, R394). -/
def State.peerFault (s : State) (modn : BitVec 6) (c : Cause) : State := s.emit (.peerReply modn none c.code)

/-- R394 PEER_ACCESS. A module without running firmware answers none (R430). -/
def execPeerAccess (modn : BitVec 6) (c : BitVec 8) (a : BitVec 57) (acc : ExtAcc) (s : State) : Host.Outcome State Fault Refusal :=
  if s.regs.bootCode ≠ 0 then .next s
  else match s.peerEntry modn c with
  | none => .next (s.peerFault modn .xlateFault)
  | some e =>
    if 2 ^ 55 ≤ a.toNat then .next (s.peerFault modn .xlateFault)
    else if e.getLsbD 62 && extWrites acc then .next (s.peerFault modn .permission)
    else match s.extAccess (BitVec.ofNat 8 (bitsAt e.toNat 40 8)) (512 + modn.toNat) (a.setWidth 64) acc with
      | .wait u => .next u
      | .poison u => .next (u.peerFault modn .poison)
      | .fault u k => .next (u.peerFault modn k)
      | .done t d => .next (t.emit (.peerReply modn (some d) 0))

/-- R395 LINK_TIMEOUT: a sector's access to a module that cannot be reached has waited 10 microseconds, and fails when its word is next tried. -/
def execLinkTimeout (sid : BitVec 8) (s : State) : Host.Outcome State Fault Refusal :=
  match (s.sec sid.toNat).th.wait with
  | .link t => if t = 0 ∨ s.cyc < t then .next s else .next (s.modThOf sid.toNat fun h => { h with wait := .link 0 })
  | _ => .next s

/-! ### Ownership (R390 to R392) -/

/-- CYC in a millisecond (R391). -/
def msCyc : Nat := 940000

/-- A master of R390 whose write to OWNCTL with this lease is taken. -/
def State.ownWrite (s : State) (m : Master) (lease : BitVec 16) : Bool := decide (m.toNat ≤ 4) && s.answers m && lease != 0

/-- Ownership after a claim that is granted. -/
def State.owned (s : State) (m : Master) (lease : BitVec 16) (offer : Option (Nat × Nat)) : State :=
  { s with own := ⟨m.toNat, s.cyc + lease.toNat * msCyc, offer⟩ }

/-- The target of a pending offer. -/
def Own.offerTo (o : Own) : Option Nat := o.offer.map Prod.fst

/-- R391 CLAIM. -/
def execClaim (m : Master) (lease : BitVec 16) (force : Bool) (s : State) : Host.Outcome State Fault Refusal :=
  if !s.ownWrite m lease then .next s
  else if force ∧ m = 4 then .next (s.owned m lease none)
  else if s.own.owner = m.toNat then .next (s.owned m lease s.own.offer)
  else if s.own.owner = 7 ∨ s.own.offerTo = some m.toNat then .next (s.owned m lease none)
  else .next s

/-- R391 RELEASE. -/
def execRelease (m : Master) (lease : BitVec 16) (s : State) : Host.Outcome State Fault Refusal :=
  if s.ownWrite m lease && s.own.owner == m.toNat then .next { s with own := {} } else .next s

/-- R391 OFFER: an offer lasts 940,000 CYC. -/
def execOffer (m : Master) (lease : BitVec 16) (target : Master) (s : State) : Host.Outcome State Fault Refusal :=
  if s.ownWrite m lease && s.own.owner == m.toNat && target != m then
    .next { s with own := { s.own with offer := some (target.toNat, s.cyc + msCyc) } }
  else .next s

/-- R391 OFFER_LAPSE. -/
def execOfferLapse (s : State) : Host.Outcome State Fault Refusal :=
  match s.own.offer with
  | some o => if s.cyc < o.2 then .next s else .next { s with own := { s.own with offer := none } }
  | none => .next s

/-- R391 LEASE_EXPIRE: the lease ends, and with it an offer. -/
def execLeaseExpire (s : State) : Host.Outcome State Fault Refusal :=
  if s.own.owner = 7 ∨ s.cyc < s.own.leaseEnd then .next s else .next { s with own := {} }

/-! ### Attestation (R396) -/

/-- Bytes padded with zeros, or cut, to a length. -/
def padTo (n : Nat) (l : List Byte) : List Byte := (l ++ List.replicate n 0).take n

/-- The SEALED slots of a context, in slot order. -/
def State.sealedSlots (s : State) (c : BitVec 8) : List (Nat × Obj) :=
  ((s.ctx c).handles.filter fun (p : Nat × Handle) => p.2.st == .sealed).map fun (p : Nat × Handle) => (p.1, p.2.obj)

/-- A number of a report in the bytes that it takes (R396). -/
def reportNum (k n : Nat) : List Byte := bytesOf (Config.reportWidth k) n

/-- Bytes 0x000 to 0x1FF of a report. -/
def State.reportBody (s : State) (c : BitVec 8) (incl : Bool) (nonce : BitVec 256) : List Byte :=
  let d := s.regs.domcfg.toNat
  let slots := s.sealedSlots c
  padTo 16 [0x41, 0x54, 0x54, 0x31, 1] ++ bytesOf 32 nonce.toNat ++
    padTo 16 (reportNum 0 (bitsAt d 0 6) ++ reportNum 1 (bitsAt d 32 32) ++ reportNum 2 s.regs.decrev.toNat) ++
    bytesOf 64 s.boot.romDigest.toNat ++ bytesOf 64 s.boot.fwDigest.toNat ++ bytesOf 64 s.boot.tabDigest.toNat ++
    (if incl then padTo 16 (reportNum 3 c.toNat ++ reportNum 4 slots.length) ++
      sha3_512 (slots.flatMap fun p => reportNum 5 p.1 ++ bytesOf 64 p.2.sealDigest.toNat) else List.replicate 80 0) ++
    List.replicate 176 0

/-- R396 ATTEST_REQUEST: ATTCMD with GO, from any master. -/
def execAttestRequest (m : Master) (c : BitVec 8) (incl : Bool) (s : State) : Host.Outcome State Fault Refusal :=
  if !s.answers m || s.regs.attCmd.isSome then .next s
  else .next { s with regs := { s.regs with attCmd := some (c, incl, s.regs.attNonce) } }

/-- R396 ATTEST_READY: the signed report stands in ATTBUF. -/
def execAttestReady (s : State) : Host.Outcome State Fault Refusal :=
  match s.regs.attCmd with
  | none => .next s
  | some (c, incl, nonce) =>
    let body := s.reportBody c incl nonce
    .next { s with regs := { s.regs with attCmd := none, attBuf := padTo 8192 (body ++ padTo 4627 (Config.mlDsaSign s.regs.svn body)) } }

end Sys2Proof.Machine
end

