-- ==== Sys2Proof/Machine/PreemptEv.lean ====
section
/-! DEFINITION. The later steps of a pre-emption: the deadline of a notice (R244), the markers that operators take (R242), the snapshot (R246) and the save (R247). -/

namespace Sys2Proof.Machine

open Sys2Proof

/-- R244 GRACE_DEADLINE. -/
def execGraceDeadline (task : Nat) (s : State) : Host.Outcome State Fault Refusal :=
  match s.task? task with
  | none => .next s
  | some t =>
    match t.pre with
    | .notice d => if s.cyc < d ∨ !t.runs then .next s else .next (s.startMarkers t)
    | _ => .next s

/-! ### TAKE_MARKER (R242, R433) -/

/-- A slot of a block is in force at its site. -/
def State.inForce (s : State) (k : Bk) (slot : Nat) : Bool := (s.sec (k.sid slot)).slotLive k.b slot (k.site slot)

/-- A slot has sent its marker, or is not in force and sends nothing more. -/
def State.sentMarker (s : State) (k : Bk) (slot : Nat) : Bool :=
  !s.inForce k slot || (Tab.get {} k.i.ops (opKey k.b slot)).marked

/-- The marker of an entry has arrived: an entry queue sends it at once, a route carries it from the slot that feeds its exit. -/
def State.entryMarker (s : State) (k : Bk) (e : Nat) : Bool :=
  (k.sh.image.routes.filter fun r => r.kind == 0 && r.dst == k.b.blk && r.ent == e).all fun r =>
    let src : Bk := { k with b := { k.b with blk := r.src }, blk := k.sh.image.blks.getD r.src {} }
    match src.blk.exitFeeder r.exit with
    | some p => s.sentMarker src p
    | none => true

/-- The markers of the routes to a port have come to a pout that serves it: each that leaves a block in the pout's sector (R78, R242; log 12). -/
def State.portMarkers (s : State) (k : Bk) (slot : Nat) : Bool :=
  k.blk.opc slot != 0x71 ||
  (k.sh.image.routes.filter fun r => r.kind == 1 && r.dst == (k.site slot).cell).all fun r =>
    let src : Bk := { k with b := { k.b with blk := r.src }, blk := k.sh.image.blks.getD r.src {} }
    match src.blk.exitFeeder r.exit with
    | some p => src.sid p != k.sid slot || s.sentMarker src p
    | none => true

/-- A marker has arrived on every counted input of a slot from outside its region. -/
def State.markersIn (s : State) (k : Bk) (slot : Nat) : Bool :=
  ((List.range 4).all fun pos => k.blk.loopInput slot pos ||
    (k.blk.feeders slot pos).all fun p => k.blk.inRegion k.sh.sched k.b.blk p slot pos || s.sentMarker k p) &&
  (match k.blk.entryOf slot with
  | some e => s.entryMarker k e
  | none => true) && s.portMarkers k slot

/-- The operator that a slot belongs to: its region, or the slot alone. -/
def Bk.operator (k : Bk) (slot : Nat) : List Nat :=
  if k.blk.inARegion k.sh.sched k.b.blk slot then k.blk.regionOf k.sh.sched k.b.blk slot else [slot]

/-- Some slot of the block closes a loop, so a wave of the block may stay open over a stop (R242). -/
def Bk.loops (k : Bk) : Bool := (List.range k.blk.n).any fun p => (List.range 3).any fun pos => k.blk.loopInput p pos

/-- A wave has fired in an operator: nothing of it is left at the operator or before it. -/
def Bk.firedIn (k : Bk) (op : List Nat) (w : Nat) : Bool :=
  (List.range k.blk.n).all fun p => !k.i.busy k.b p w || !(op.contains p || op.any fun q => k.blk.reaches p q)

/-- An operator's waves in flight have committed. -/
def Bk.committed (k : Bk) (op : List Nat) : Bool :=
  k.loops || !(k.t.wrecs.any fun r => r.b == k.b && k.firedIn op r.w)

/-- An accumulator slot stands where it may stop: an mma between two A tokens or before a B token, an mrd or mdrn between two of its tokens, an mnrm between two row operations, or none of them in a run (R160, R242). -/
def OpSt.between (o : OpSt) (f : FabOp) : Bool :=
  if f.op = 0x40 then
    decide (o.panel.length < 16 * accCells f) || (o.grp == 0 && decide (0 < o.pos + o.step) && (!f.w.x.getLsbD 9 || decide (16 * accCells f ≤ o.scales.length)))
  else if f.op = 0x42 then o.hold.isNone || decide (0 < o.k)
  else if f.op = 0x44 then o.hold.isNone || (decide (0 < o.k) && decide (o.k < mRows (f.w.x.toNat / 4 % 4)))
  else if f.op = 0x43 then o.hold.isNone || (o.st == 1 && decide (0 < o.k))
  else true

/-- A slot has no firing in progress: a pin has sent its element, a node waits for no answer, an accumulator slot stands between two of its firings, and the stores of a write port are released (R242). -/
def State.slotRests (s : State) (k : Bk) (slot : Nat) : Bool :=
  let o := Tab.get {} k.i.ops (opKey k.b slot)
  o.owe.isNone && o.wait.isNone && o.between (k.blk.op slot) &&
    !(k.blk.opc slot == 0x71 && s.unreleased (k.sid slot) (k.site slot).cell)

/-- What has begun needs a slot to go on with the tokens it holds: a wave of theirs has a store held for its commit, a region of the block has it in flight, or a slot behind this one is in the middle of a firing. Such a slot does not take its marker yet, so that what has begun comes to its end (R242; DEDUCED, log 120). -/
def State.underway (s : State) (k : Bk) (slot : Nat) : Bool :=
  (k.t.stores.any fun p => p.b == k.b && k.i.busy k.b slot p.wave) ||
  (!k.loops && k.t.wrecs.any fun r => r.b == k.b && k.i.busy k.b slot r.w &&
    (List.range k.blk.n).any fun p => k.blk.inARegion k.sh.sched k.b.blk p && k.firedIn (k.operator p) r.w) ||
  ((k.i.busy k.b slot (k.i.nextWave k.b)) && (List.range k.blk.n).any fun p =>
    k.blk.reaches slot p && (!s.slotRests k p || (k.blk.inARegion k.sh.sched k.b.blk p && !k.i.regionIdle k.b k.sh k.blk p)))

/-- An operator can take its marker. -/
def State.canMark (s : State) (k : Bk) (slot : Nat) : Bool :=
  let op := k.operator slot
  op.all (fun p => s.inForce k p && s.markersIn k p && s.slotRests k p && !s.underway k p && !(Tab.get {} k.i.ops (opKey k.b p)).marked) &&
    k.i.regionIdle k.b k.sh k.blk slot && (!k.blk.inARegion k.sh.sched k.b.blk slot || k.committed op)

/-- R242 TAKE_MARKER: the operator of a slot fires no more, and its marker goes on. -/
def execTakeMarker (r : SlotRef) (s : State) : Host.Outcome State Fault Refusal :=
  match s.bk? r.b with
  | none => .next s
  | some k =>
    if k.t.pre = .markers ∧ k.t.runs ∧ r.slot < k.blk.n ∧ s.canMark k r.slot then
      .next (s.modInst r.b fun i => (k.operator r.slot).foldl (fun (i : Inst) p =>
        { i with ops := Tab.put i.ops (opKey r.b p) { Tab.get {} i.ops (opKey r.b p) with marked := true } }) i)
    else .next s

/-! ### SAVE_SNAPSHOT (R246 to R250) -/

/-- Every operator of a gang has taken its marker. -/
def State.allMarked (s : State) (t : Task) : Bool :=
  (s.taskBlocks t).all fun b => match s.bk? b with
    | some k => (List.range k.blk.n).all fun p => s.sentMarker k p
    | none => true

/-- A gang is checkpoint-quiet: its operators are marked, every coalescing buffer is empty, every packet is delivered, and its threads' writes are performed (R79, R242). -/
def State.checkpointQuiet (s : State) (t : Task) : Bool :=
  s.allMarked t && t.stores.isEmpty && t.packets.isEmpty && t.sids.all fun k => s.writesDone k

/-- The CYC that remain of a twait.rel (R240). -/
def Thread.remains (t : Thread) (cyc : Nat) : Option Nat :=
  match t.wait, t.word.bind decodeCtl with
  | .until d, some (_, .twaitRel _) => some (d - cyc)
  | _, _ => none

/-- A thread as it is saved: at its pre-emption point, a wait to be entered again; that of an sbar is kept with its ports (R213, R240). -/
def Thread.saved (t : Thread) : Thread :=
  { t with
    fblk := none, word := none, barHeld := t.inBar.orElse fun _ => t.barHeld
    wait := match t.wait with
      | .answer k => .answer k
      | _ => .none }

/-- The sources of a sector are stopped by its own sdrain, not by a swap that waits (R232, R237, R252 step 6). -/
def Task.ownStop (t : Task) (x : Sector) : Bool :=
  let i := t.insts.getD x.inst {}
  if i.drain = 1 then i.wasStopped else if i.drain = 3 then false else x.stopped

/-- A sector's snapshot (R246, R247), for a place in the save area. -/
def State.snapshot (s : State) (t : Task) (sid s4 place : Nat) : SaveRec :=
  let x := s.sec sid
  let a := scratchAt sid 0
  { task := t.id, s4 := s4, ctx := t.ctx, cyc := s.cyc, place := place
    sec := { x with th := x.th.saved, rcache := [], stopped := t.ownStop x }
    scratch := (s.mem.filter fun p => decide (a ≤ p.1) && decide (p.1 < a + 2 ^ 22)).map fun p => (p.1 - a, p.2)
    poison := (s.poison.filter fun p => p.2 && decide (a ≤ p.1 * 64) && decide (p.1 * 64 < a + 2 ^ 22)).map fun p => p.1 - a / 64
    rem := x.th.remains s.cyc
    wait := x.th.wait
    engs := ((s.ops.filter fun o => o.task == t.id && o.s4 == s4 && o.outstanding).take 64).map EngOp.id }

/-- The snapshots of a gang's sectors, each with a place of its own in the save area (R379). -/
def State.snapshots (s : State) (t : Task) : List SaveRec :=
  let ks := s.freePlaces t.ctx t.nsect
  t.sids.zipIdx.map fun p => s.snapshot t p.1 p.2 (ks.getD p.2 0)

/-- R246 SAVE_SNAPSHOT: every sector of a checkpoint-quiet gang in one reference cycle. -/
def execSaveSnapshot (task : Nat) (s : State) : Host.Outcome State Fault Refusal :=
  match s.task? task with
  | none => .next s
  | some t =>
    if t.pre ≠ .markers ∨ !t.runs ∨ !s.checkpointQuiet t then .next s
    else
      .next (({ s with saves := s.saves ++ s.snapshots t } : State).setTask
        { t with pre := .snapped, insts := t.insts.map fun i => { i with drain := 0 } })

/-! ### SAVE_DONE (R239 steps 6 and 7) -/

/-- A launch one of whose tasks has become SAVED (R184). -/
def Launch.taskSaved (l : Launch) (cyc : Nat) : Launch := if l.st = .running then { l with st := .ready, readyAt := cyc } else l

/-- The save records of a gang written to its context's save area (R239 step 6, R247). -/
def State.writeSaves (s : State) (t : Task) : State :=
  (s.saves.filter fun r => r.task == t.id).foldl (fun (s : State) r => s.writeSave t r (t.sids.getD r.s4 0)) s.useAll

/-- R247 SAVE_DONE: the gang's save records are written, its sectors are freed, the task is SAVED, and a placement opportunity comes (R187). -/
def execSaveDone (task : Nat) (s : State) : Host.Outcome State Fault Refusal :=
  match s.task? task with
  | none => .next s
  | some t =>
    if t.pre ≠ .snapped ∨ !t.runs then .next s
    else
      let s1 := ((s.writeSaves t).setTask { t with st := .saved, pre := .none, savedAt := s.cyc }).freeSectors t
      .next (match s1.launch? t.launch with
        | some l => s1.setLaunch (l.taskSaved s.cyc)
        | none => s1)

end Sys2Proof.Machine
end

