-- ==== Sys2Proof/Machine/PowerEv.lean ====
section
/-! DEFINITION. The events of power: moves of rail groups (R173, R256), stretches and their windows (R171, R172), throttles (R260, R261), the cap, ballast and the emergency (R263, R264), self-refresh (R265). -/

namespace Sys2Proof.Machine

open Sys2Proof

/-! ### Moves (R256) -/

/-- R256 RAIL_REACHED. -/
def execRailReached (g : BitVec 6) (s : State) : Host.Outcome State Fault Refusal :=
  let k := g.toNat
  match (s.rail k).mv with
  | .raiseV t => if s.cyc < t then .next s else .next (s.modRail k fun r => { r with mv := .swap })
  | .lowerV t => if s.cyc < t then .next s else .next (s.endMove k)
  | _ => .next s

/-- Every lockstep region with a slot in some sectors is between waves (R173). -/
def State.regionsIdle (s : State) (sids : List Nat) : Bool :=
  s.tasks.all fun t => (s.taskBlocks t).all fun b => match s.bk? b with
    | some k => (List.range k.blk.n).all fun p =>
        !(k.blk.inARegion k.sh.sched b.blk p && sids.contains (k.sid p)) || k.i.regionIdle b k.sh k.blk p
    | none => true

/-- R256 OP_SWAP: with every region of the group between waves, its clock is held for 64 CYC. -/
def execOpSwap (g : BitVec 6) (s : State) : Host.Outcome State Fault Refusal :=
  let k := g.toNat
  if (s.rail k).mv = .swap ∧ s.regionsIdle (groupSids k) then .next (s.modRail k fun r => { r with mv := .hold (s.cyc + 64) }) else .next s

/-- R256 CLOCK_HOLD_END: the new clock and section take effect; a raise has then ended, a lowering goes on to its rail. -/
def execClockHoldEnd (g : BitVec 6) (s : State) : Host.Outcome State Fault Refusal :=
  let k := g.toNat
  let r := s.rail k
  match r.mv with
  | .hold t =>
    if s.cyc < t then .next s
    else
      let s1 := (s.swapSections k r.tgt).setRail k { r with cur := r.tgt, mv := .lowerV (s.cyc + slewCyc r.cur r.tgt) }
      .next (if r.tgt < r.cur then s1.endMove k else { s1 with placeDue := true })
  | _ => .next s

/-! ### Stretches (R171, R172, R261) -/

/-- The greatest of the DELAYs that a group's causes ask for (R261, R263). -/
def Rail.most (r : Rail) : BitVec 8 :=
  let a := max (r.heat.getD 0).toNat (r.excess.getD 0).toNat
  BitVec.ofNat 8 (if r.thrEnd.isSome then max a 16 else a)

/-- GTHR after a cause has been set: the greatest DELAY, with the WHY of that cause; the emergency stands over all (R260, R264; log 126). -/
def Rail.shows (r : Rail) (why : BitVec 2) : Rail := if r.why = 3 then r else { r with delay := r.most, why := why }

/-- The WHY that still stands: the one shown while its cause lasts, else that of another cause. -/
def Rail.whyLeft (r : Rail) : BitVec 2 :=
  let warm : Bool := r.heat.isSome || r.thrEnd.isSome
  if r.excess.isSome && (r.why == 2 || !warm) then 2 else if warm then 1 else 0

/-- GTHR after a cause has lapsed. -/
def Rail.lapsed (r : Rail) : Rail := r.shows r.whyLeft

/-- One more stretch of a group: the fourth in a window raises a STRETCH event, and Gamboge throttles the group for the next 64 windows. -/
def Rail.stretched (r : Rail) (cyc : Nat) : Rail :=
  let r1 := { r with gwin := min (r.gwin + 1) 255 }
  if r1.gwin < 4 ∨ r.winEvent then r1
  else ({ r1 with winEvent := true, events := min (r.events + 1) 255, thrEnd := some ((cyc / 4096 + 65) * 4096) } : Rail).shows 1

/-- R171 REGION_STRETCH: a sentinel of a region in the sector fires; values are as before. -/
def execRegionStretch (sid : BitVec 8) (s : State) : Host.Outcome State Fault Refusal :=
  let k := sid.toNat
  let x := s.sec k
  if x.act.isNone ∧ x.shSt ≠ .armed then .next s
  else .next ((s.setSec k { x with count := if x.count = 0xFFFFFFFF then x.count else x.count + 1 }).modRail (railOf k) fun r => r.stretched s.cyc)

/-- A stretch of this reference cycle. -/
def Mark.isStretch : Mark → Bool
  | .stretch _ => true
  | _ => false

/-- R172 SENTINEL_WINDOW: windows begin at the multiples of 4096 of CYC; a window that has seen a stretch has begun. -/
def execSentinelWindow (s : State) : Host.Outcome State Fault Refusal :=
  if s.cyc % 4096 ≠ 0 ∨ s.now.any Mark.isStretch then .next s
  else .next { s with rails := s.rails.map fun p => (p.1, { p.2 with gwin := 0, winEvent := false }) }

/-- A die's temperature sensor reads above 95 °C, by its register in units of 1/16 °C (R261, R428). -/
def State.hot (s : State) (die : Nat) : Bool := decide (1520 < (Tab.get (0 : BitVec 16) s.regs.temp die).toInt)

/-- R261 THROTTLE_EXPIRE: 64 windows have passed. -/
def execThrottleExpire (g : BitVec 6) (s : State) : Host.Outcome State Fault Refusal :=
  let k := g.toNat
  let r := s.rail k
  match r.thrEnd with
  | some t =>
    if s.cyc < t then .next s
    else .next (s.setRail k ({ r with thrEnd := none } : Rail).lapsed)
  | none => .next s

/-! ### Temperature (R261) -/

/-- The groups of a die. -/
def dieGroups (die : Nat) : List Nat := (List.range 16).map fun k => die * 16 + k

/-- Every group of a list changed. -/
def State.modRails (s : State) (l : List Nat) (f : Nat → Rail → Rail) : State := l.foldl (fun (s : State) g => s.modRail g (f g)) s

/-- R261 THERMAL_THROTTLE: the sensor's reading; above 95 °C Gamboge sets a DELAY with WHY 01, and at a later reading below it the throttle ends. -/
def execThermalThrottle (die : BitVec 2) (reading : BitVec 16) (delay : BitVec 8) (s : State) : Host.Outcome State Fault Refusal :=
  let d := die.toNat
  let s1 : State := { s with regs := { s.regs with temp := Tab.set 0 s.regs.temp d reading } }
  .next (s1.modRails (dieGroups d) fun _ r =>
    if s1.hot d then ({ r with heat := some delay } : Rail).shows 1
    else if r.heat.isSome then ({ r with heat := none } : Rail).lapsed else r)

/-! ### Cap, ballast, emergency (R263, R264) -/

/-- Every rail group. -/
def allGroups : List Nat := List.range 64

/-- CYC to µs, rounded down (R18). -/
def usOf (cyc : Nat) : Nat := cyc / 940

/-- The ballast interval in progress ends: its µs join the count. -/
def Regs.endBallast (r : Regs) (cyc : Nat) : Regs :=
  match r.ballast with
  | some t => { r with ballast := none, ballastFirst := false, ballastUs := BitVec.ofNat 32 (min (r.ballastUs.toNat + usOf (cyc - t)) (2 ^ 32 - 1)) }
  | none => r

/-- CYC in which ballast lets a fall of so many A down at SLOPE. DESIGN CHOICE (log 67). -/
def Regs.fallCyc (r : Regs) (amps : BitVec 16) : Nat := (940 * amps.toNat + r.slope.toNat - 1) / r.slope.toNat

/-- The emergency throttle over the cap (R264): every DELAY becomes 255 with WHY 11. -/
def State.emergency (s : State) : State :=
  ({ s with regs := { s.regs with emerg := true, isOver := true } } : State).modRails allGroups fun _ r => { r with delay := 255, why := 3 }

/-- A ballast interval ends; with the integrator still above CAPW the emergency throttle follows (R263, R264). -/
def State.ballastOver (s : State) (above : Bool) : State :=
  let s1 : State := { s with regs := s.regs.endBallast s.cyc }
  if above then s1.emergency else s1

/-- R263 BALLAST_START: the module's current would fall by so many A in a µs, faster than SLOPE. During an interval ballast goes on, with what this fall adds to it. -/
def execBallastStart (amps : BitVec 16) (s : State) : Host.Outcome State Fault Refusal :=
  if amps ≤ s.regs.slope then .next s
  else match s.regs.ballast with
    | some _ => .next { s with regs := { s.regs with ballastEnd := max s.regs.ballastEnd s.cyc + s.regs.fallCyc amps } }
    | none => .next { s with regs := { s.regs with ballast := some s.cyc, ballastEnd := s.cyc + s.regs.fallCyc amps, ballastFirst := true } }

/-- A ballast interval has let its fall down. -/
def State.ballastEnds (s : State) : State :=
  match s.regs.ballast with
  | some _ => if s.cyc < s.regs.ballastEnd then s else s.ballastOver s.regs.isOver
  | none => s

/-- R263 BALLAST_LIMIT: 25 µs from the start of an interval the slope limit no longer wins over the cap: with the integrator above CAPW the interval ends. -/
def execBallastLimit (s : State) : Host.Outcome State Fault Refusal :=
  match s.regs.ballast with
  | some t =>
    if s.cyc < t + 23500 then .next s
    else if s.regs.isOver then .next (s.ballastOver true)
    else .next { s with regs := { s.regs with ballastFirst := false } }
  | none => .next s

/-- The greater of two DELAYs, the first perhaps not set. -/
def delayUp (a : Option (BitVec 8)) (d : BitVec 8) : Option (BitVec 8) := some (if d < a.getD 0 then a.getD 0 else d)

/-- R263 CAP_THROTTLE: the integrator stands above CAPW, and Gamboge raises DELAY with WHY 10. In a ballast interval past its 25 µs the cap wins: the interval ends, and the emergency throttle follows. -/
def execCapThrottle (power : BitVec 16) (delay : BitVec 8) (s : State) : Host.Outcome State Fault Refusal :=
  if power ≤ s.regs.capw ∨ s.regs.emerg then .next s
  else
    let s1 := ({ s with regs := { s.regs with isOver := true } } : State).modRails allGroups fun _ r =>
      ({ r with excess := delayUp r.excess delay } : Rail).shows 2
    .next (if s.regs.ballast.isSome ∧ !s.regs.ballastFirst then s1.ballastOver true else s1)

/-- R263 ENERGY_REPAID: Gamboge lowers the DELAY that it had raised with WHY 10: in part, or to none once the integrator is back at CAPW. -/
def execEnergyRepaid (delay : BitVec 8) (s : State) : Host.Outcome State Fault Refusal :=
  if !s.regs.isOver || s.regs.emerg then .next s
  else .next (({ s with regs := { s.regs with isOver := delay != 0 } } : State).modRails allGroups fun _ r =>
    ({ r with excess := r.excess.bind fun d => if delay = 0 then none else some (if delay < d then delay else d) } : Rail).lapsed)

/-- R264 EMERGENCY_THROTTLE: a ballast interval ends and the integrator still stands above CAPW. -/
def execEmergencyThrottle (power : BitVec 16) (s : State) : Host.Outcome State Fault Refusal :=
  if s.regs.ballast.isNone ∨ power ≤ s.regs.capw then .next s else .next (s.ballastOver true)

/-- R264 EMERGENCY_END: the integrator has fallen to 95 % of CAPW. -/
def execEmergencyEnd (power : BitVec 16) (s : State) : Host.Outcome State Fault Refusal :=
  if !s.regs.emerg || decide (95 * s.regs.capw.toNat < 100 * power.toNat) then .next s
  else .next (({ s with regs := { s.regs with emerg := false, isOver := false } } : State).modRails allGroups fun _ r =>
    ({ r with excess := none, why := 0 } : Rail).lapsed)

/-! ### Self-refresh (R265) -/

/-- R265 SELF_REFRESH_ENTER: a channel that no placement word covers, without access for 1 ms. Every access goes to a channel that a placement word covers, or is the device's own to a save area, so the time counts from the later of these (log 32). -/
def execSelfRefreshEnter (ch : BitVec 8) (s : State) : Host.Outcome State Fault Refusal :=
  let c := ch.toNat
  if s.covered c ∨ s.cyc < Tab.get 0 s.lastUse c + 940000 then .next s
  else .next { s with asleep := Tab.set false s.asleep c true, waking := Tab.del s.waking c }

end Sys2Proof.Machine
end

