-- ==== Sys2Proof/Machine/ResetEv.lean ====
section
/-! DEFINITION. Resets (R425, R426), the register RSTCTL and the flash scrub (R427, R428), and boot (R429, R430). -/

namespace Sys2Proof.Machine

open Sys2Proof

/-! ### The choice of firmware (R429, R430) -/

/-- The boot result of an image: its signature over its digest, its SVN against the fused minimum, its decode table (R429 steps 3 to 5). -/
def Firmware.check (f : Firmware) (minSvn : BitVec 32) : BitVec 8 :=
  if !Config.mlDsaVerify (sha3_512 f.code) f.sig then 0x02
  else if f.svn.toNat < minSvn.toNat then 0x03
  else if !Config.mlDsaVerify (sha3_512 f.table) f.tableSig then 0x02
  else 0x00

/-- The image in force chosen; without one, the given result stands. -/
def Boot.stay (b : Boot) (code : BitVec 8) : Boot :=
  match b.current with
  | some f => let k := f.check b.minSvn; { b with chosen := if k = 0 then some f else none, result := k }
  | none => { b with chosen := none, result := code }

/-- What a reset chooses to start: a new image first; where it fails, the one before it. The choice stands until the next reset, so an image written meanwhile waits (R430). -/
def Boot.resolve (b : Boot) : Boot :=
  match b.newer with
  | some f =>
    let k := f.check b.minSvn
    if k = 0 then { b with current := some f, newer := none, chosen := some f, result := 0 } else b.stay k
  | none => b.stay 0x01

/-- The decode-table revision that a reset takes into effect: that of the image chosen (R85, R425). -/
def Boot.revision (b : Boot) : BitVec 16 := (b.chosen.map Firmware.tableRev).getD 0x0003

/-! ### What a reset keeps (R425) -/

/-- A byte outside HBM, scratch and the edge slices: flash, or memory of the host or of a peer. -/
def outlives (a : Nat) : Bool := (decide (2 ^ 43 ≤ a) && decide (a < 2 ^ 43 + 4 * 2 ^ 40)) || decide (2 ^ 64 ≤ a)

/-- What every reset leaves: every field at its reset value but flash, its wear and DAYS, fused keys and counters, memory outside the module, and the model's own schedule. The carve-out size and the decode table that are pending take effect. -/
def State.resetTo (s : State) (carve : Nat) (cause : BitVec 4) : State :=
  let b := ({ current := s.boot.current, newer := s.boot.newer, minSvn := s.boot.minSvn } : Boot).resolve
  { agenda := s.agenda, turn := s.turn, fresh := s.fresh, upsets := s.upsets, outbox := s.outbox, nextId := s.nextId, now := s.now
    mem := s.mem.filter fun p => outlives p.1
    poison := s.poison.filter fun p => outlives (p.1 * 64)
    regs := { carve := carve, carveNow := carve, rstCause := cause, decrev := b.revision }
    flash := { wear := s.flash.wear, spares := s.flash.spares, worn := s.flash.worn, days := s.flash.days }
    boot := b
    umber := { linkDown := s.umber.linkDown, peers := s.umber.peers } }

/-- A cold reset (R425): CYC is zero, and the module is UNOWNED. -/
def State.coldReset (s : State) (carve : Nat) (cause : BitVec 4) : State := s.resetTo carve cause

/-- What a warm reset keeps of a sector: its lane swaps and its retired column. -/
def Sector.warm (x : Sector) : Sector := { busLanes := x.busLanes, busDead := x.busDead }

/-- What a warm reset keeps of a rail group: GEVENTS, which counts since the cold reset (R172). -/
def Rail.warm (r : Rail) : Rail := { events := r.events }

/-- A warm reset (R425, R426): besides, CYC runs on, ownership, LAYERSTAT, lane swaps, spared and retired rows are kept, and so are the counts since the cold reset (R172, R262). No completion or status word lies in host or peer memory, since only HBM pages are versioned (R280), so steps 2 and 3 write nothing. -/
def State.warmReset (s : State) (cause : BitVec 4) (lost : Bool) : State :=
  let t := s.resetTo s.regs.carve cause
  { t with
    cyc := s.cyc, own := s.own
    sectors := (s.sectors.map fun (p : Nat × Sector) => (p.1, p.2.warm)).filter fun p => p.2 != {}
    rails := (s.rails.map fun (p : Nat × Rail) => (p.1, p.2.warm)).filter fun p => p.2 != {}
    lastUse := (List.range 256).map fun k => (k, s.cyc)
    regs := { t.regs with resetAt := s.cyc, ballastUs := (s.regs.endBallast s.cyc).ballastUs, layerstat := s.regs.layerstat, lost := lost, warmCnt := if s.regs.warmCnt = 0xFFFFFFFF then s.regs.warmCnt else s.regs.warmCnt + 1 }
    umber := { t.umber with sparesUsed := s.umber.sparesUsed, retired := s.umber.retired } }

/-! ### Causes -/

/-- R425 POWER_ON: a cold reset with cause 0; CARVE is 64. -/
def execPowerOn (s : State) : Host.Outcome State Fault Refusal := .next (s.coldReset 64 0)
/-- R425 PCIE_FUNDAMENTAL_RESET: a cold reset with cause 1; CARVE is 64. -/
def execPcieFundamentalReset (s : State) : Host.Outcome State Fault Refusal := .next (s.coldReset 64 1)

/-- A write of RSTCTL is performed: the owning master's, while no FLSCRUB runs (R428). -/
def State.rstWrite (s : State) (m : Master) : Bool := s.mayWrite m && s.regs.flscrub.isNone

/-- CARVE of a written RSTCTL: values above 128 are written as 128 (R428). -/
def carveOf (v : Word) : Nat := min (bitsAt v.toNat 24 8) 128

/-- The action of a written word in its two lowest bits. -/
def opOf (v : Word) : Nat := bitsAt v.toNat 0 2

/-- RSTCTL written: its CARVE, and the reset that its CMD asks for, which takes that CARVE into effect (R428). -/
def State.rstCtl (s : State) (v : Word) : State :=
  let s1 : State := { s with regs := { s.regs with carve := carveOf v } }
  match opOf v with
  | 1 => s1.warmReset 3 false
  | 2 => s1.coldReset (carveOf v) 2
  | _ => s1

/-- R425, R428 COLD_RESET: RSTCTL with CMD 10. -/
def execColdReset (m : Master) (v : Word) (s : State) : Host.Outcome State Fault Refusal :=
  if !s.rstWrite m || opOf v != 2 then .next s else .next (s.rstCtl v)
/-- R426, R428 WARM_RESET: RSTCTL with CMD 01. -/
def execWarmReset (m : Master) (v : Word) (s : State) : Host.Outcome State Fault Refusal :=
  if !s.rstWrite m || opOf v != 1 then .next s else .next (s.rstCtl v)
/-- R403, R426 FATAL_RESET: steps 2 and 3 of R426 are skipped where the host interface does not work, which LOST records. -/
def execFatalReset (hostUp : Bool) (s : State) : Host.Outcome State Fault Refusal := .next (s.warmReset 4 (!hostUp))

/-! ### FLSCRUB (R427, R428) -/

/-- An FLSCRUB covers blocks of a context that is not FREE. -/
def State.scrubsPool (s : State) (base n : Nat) : Bool :=
  s.ctxs.any fun (p : Nat × Ctx) => p.2.st != .free && runsMeet base n p.2.poolFBase p.2.poolFLen

/-- R428 FLSCRUB: the page-map entries of a run of erase blocks of every stack read as never written; BUSY until it completes. -/
def execFlscrub (m : Master) (v : Word) (s : State) : Host.Outcome State Fault Refusal :=
  let base := bitsAt v.toNat 0 16
  let n := bitsAt v.toNat 20 16 + 1
  if !s.rstWrite m || s.scrubsPool base n then .next s
  else
    let s1 := s.clearFlash (base * 2 ^ 24) (n * 2 ^ 24)
    .next { s1 with regs := { s1.regs with flscrub := some (base, n) } }
/-- R428 FLSCRUB_DONE. -/
def execFlscrubDone (s : State) : Host.Outcome State Fault Refusal :=
  if s.regs.flscrub.isNone then .next s else .next { s with regs := { s.regs with flscrub := none } }

/-! ### Boot (R429) -/

/-- A 512-bit digest as one value. -/
def digestOf (l : List Byte) : Pay := BitVec.ofNat 512 (natOf (sha3_512 l))

/-- Firmware started: its measurements and SVN, and the fused minimum raised. -/
def State.start (s : State) (f : Firmware) : State :=
  { s with
    boot := { s.boot with
      due := false
      minSvn := if s.boot.minSvn.toNat < f.svn.toNat then f.svn else s.boot.minSvn
      romDigest := Config.bootRomDigest, fwDigest := digestOf f.code, tabDigest := digestOf f.table }
    regs := { s.regs with bootCode := 0, svn := f.svn } }

/-- A boot that starts nothing. -/
def State.noBoot (s : State) (code : BitVec 8) : State := { s with boot := { s.boot with due := false }, regs := { s.regs with bootCode := code, svn := 0 } }

/-- R429 BOOT, once after a reset: the image that the reset has chosen starts, or its result stands. -/
def execBoot (s : State) : Host.Outcome State Fault Refusal :=
  if !s.boot.due then .next s
  else match s.boot.chosen with
  | some f => .next (s.start f)
  | none => .next (s.noBoot s.boot.result)

end Sys2Proof.Machine
end

