-- ==== Sys2Proof/Machine/RegEv.lean ====
section
/-! DEFINITION. The module's register space: what a read returns, what a write does (R4), and the management messages that carry them (R431). The registers stand in R177, R260, R262, R346, R364, R371, R377, R384, R386, R388, R390, R393, R394, R396, R409, R415 and R428. -/

namespace Sys2Proof.Machine

open Sys2Proof

/-! ### Reading -/

/-- The block of a run of equal blocks that an offset falls in, with the place in it. -/
def blockOf (o base stride count : Nat) : Option (Nat × Nat) :=
  if base ≤ o ∧ o < base + stride * count then some ((o - base) / stride, (o - base) % stride) else none

/-- A bit as a number. -/
def bitNum (b : Bool) : Nat := if b then 1 else 0

/-- A queue's registers (R177). -/
def Wq.read (w : Wq) (k : Nat) : Nat :=
  match k with
  | 0x00 => w.base.toNat
  | 0x08 => w.ctx.toNat * 2 ^ 16 + w.qlog * 2 ^ 12 + w.weight * 2 ^ 8 + bitNum w.en
  | 0x10 => w.tail.toNat
  | 0x18 => w.fcause.toNat * 2 ^ 20 + w.state * 2 ^ 17 + bitNum w.flt * 2 ^ 16 + w.head.toNat
  | _ => 0

/-- STATE of CTXCTL (R377). -/
def CtxSt.code : CtxSt → Nat
  | .free => 0
  | .active => 1
  | .ending => 2

/-- A ring's index register (R377). -/
def Ring.index (r : Ring) : Nat := r.nlog * 2 ^ 48 + r.head.toNat * 2 ^ 16 + r.tail.toNat

/-- A context's registers (R377). -/
def Ctx.read (x : Ctx) (k : Nat) : Nat :=
  match k with
  | 0x00 => x.res.toNat * 2 ^ 56 + x.saven * 2 ^ 32 + x.sectmax * 2 ^ 16 + bitNum x.hloc * 2 ^ 4 + x.st.code
  | 0x08 => x.poolHLen * 2 ^ 16 + x.poolHBase
  | 0x10 => x.poolFLen * 2 ^ 16 + x.poolFBase
  | 0x18 => x.fr.base.toNat
  | 0x20 => x.fr.index
  | 0x28 => x.sr.base.toNat
  | 0x30 => x.sr.index
  | 0x38 => x.svec.toNat * 2 ^ 16 + x.fvec.toNat
  | _ => 0

/-- OWNSTAT (R390). -/
def State.ownStat (s : State) : Nat :=
  let left := if s.own.owner = 7 then 0 else (s.own.leaseEnd - s.cyc) / msCyc
  (match s.own.offer with
  | some o => o.1 * 2 ^ 32 + 2 ^ 3
  | none => 0) + left * 2 ^ 16 + s.own.owner

/-- The microseconds of ballast, those of an interval that runs among them (R262). -/
def State.ballastNow (s : State) : Nat :=
  min (s.regs.ballastUs.toNat + (match s.regs.ballast with
    | some t => usOf (s.cyc - t)
    | none => 0)) (2 ^ 32 - 1)

/-- The registers of power, flash, errors and resets (R260, R262, R346, R409, R428). -/
def State.readUnit (s : State) (o : Nat) : Nat :=
  let r := s.regs
  match blockOf o 0x200000 8 64, blockOf o 0x300000 16 256, blockOf o 0x301008 8 4, blockOf o 0x800100 8 4 with
  | some (g, 0), _, _, _ => (s.rail g).why.toNat * 2 ^ 16 + (s.rail g).delay.toNat
  | _, some (c, 0), _, _ => (s.ctx (BitVec.ofNat 8 c)).allow.toNat
  | _, some (c, 8), _, _ => ((s.ctx (BitVec.ofNat 8 c)).refill s.cyc).left
  | _, _, some (st, 0), _ => s.flash.sparesLeft st * 2 ^ 32 + s.flash.cyclesLeft st
  | _, _, _, some (d, 0) => (Tab.get 0 r.temp d).toNat
  | _, _, _, _ =>
    if o = 0x200800 then r.slope.toNat * 2 ^ 32 + r.win.toNat * 2 ^ 24 + r.capw.toNat
    else if o = 0x200808 then s.ballastNow * 2 ^ 32 + bitNum r.emerg * 2 ^ 16 + (if s.cyc = r.resetAt then 0 else (Config.power s.fresh).toNat)
    else if o = 0x301000 then s.flash.days * 2 ^ 32 + s.flash.capMib
    else if o = 0x700000 then r.layerstat.toNat
    else if o = 0x800000 then r.carve * 2 ^ 24
    else if o = 0x800008 then r.warmCnt.toNat * 2 ^ 32 + bitNum r.flscrub.isSome * 2 ^ 8 + bitNum r.lost * 2 ^ 7 + r.rstCause.toNat
    else if o = 0x800018 then r.svn.toNat * 2 ^ 16 + r.bootCode.toNat
    else if o = 0x800200 then s.cyc
    else 0

/-- The registers of the range table, handles, windows, the domain and attestation (R364, R384, R388, R393, R394, R396). -/
def State.readTable (s : State) (o : Nat) : Nat :=
  let r := s.regs
  match blockOf o 0x512000 16 8, blockOf o 0x601100 8 64, blockOf o 0x602000 8 256, blockOf o 0x604000 8 4, blockOf o 0x605000 8 1024 with
  | some (w, 0), _, _, _, _ => (Tab.get 0 r.wbase w).toNat
  | some (w, 8), _, _, _, _ => (Tab.get 0 r.wcfg w).toNat
  | _, some (m, 0), _, _, _ => (Tab.get 0 r.lroute m).toNat
  | _, _, some (i, 0), _, _ => (Tab.get 0 r.peermap i).toNat
  | _, _, _, some (k, 0), _ => bitsAt r.attNonce.toNat (64 * k) 64
  | _, _, _, _, some (k, 0) => leAt r.attBuf (8 * k) 8
  | _, _, _, _, _ =>
    match o with
    | 0x400000 => r.rte.w0.toNat
    | 0x400008 => r.rte.w1.toNat
    | 0x400010 => r.rte.w2.toNat
    | 0x400018 => r.rte.w3.toNat
    | 0x400028 => bitNum r.rtCmd.isSome * 2 ^ 8 + r.rtCode.toNat
    | 0x510000 => r.hsrc.toNat
    | 0x510008 => r.hva.toNat
    | 0x510010 => r.hdata.toNat
    | 0x510020 => bitNum r.hcmd.isSome * 2 ^ 8 + r.hcode.toNat
    | 0x510028 => r.hrep.toNat
    | 0x600008 => s.ownStat
    | 0x601000 => r.domcfg.toNat
    | 0x604028 => bitNum r.attCmd.isSome * 2 ^ 8
    | _ => 0

/-- What a read of a module register returns: write-only and unassigned registers read zero (R4, R387). -/
def State.readReg (s : State) (off : Word) : Word :=
  let o := off.toNat
  BitVec.ofNat 64 <|
    match blockOf o 0x100000 32 2048, blockOf o 0x500000 64 256 with
    | some (q, k), _ => (s.wq q).read k
    | _, some (c, k) => (s.ctx (BitVec.ofNat 8 c)).read k
    | _, _ => if (0x200000 ≤ o ∧ o < 0x400000) ∨ 0x700000 ≤ o then s.readUnit o else s.readTable o

/-! ### Writing the registers without a row of their own -/

/-- Bits [63:lo] of a written word. -/
def keepFrom (v : Word) (lo : Nat) : Word := BitVec.ofNat 64 (v.toNat / 2 ^ lo * 2 ^ lo)

/-- A ring's index register written: NLOG only while FREE, HEAD at any time (R377). -/
def Ring.write (r : Ring) (free : Bool) (v : Word) : Ring :=
  let k := bitsAt v.toNat 48 4
  { r with nlog := if free then (if 4 ≤ k ∧ k ≤ 12 then k else 4) else r.nlog, head := BitVec.ofNat 16 (bitsAt v.toNat 16 16) }

/-- A context's register written (R377). -/
def Ctx.write (x : Ctx) (k : Nat) (v : Word) : Ctx :=
  let free : Bool := x.st == .free
  let n := v.toNat
  match k with
  | 0x00 => x.control v
  | 0x08 => if free then { x with poolHLen := bitsAt n 16 16, poolHBase := bitsAt n 0 15 } else x
  | 0x10 => if free then { x with poolFLen := bitsAt n 16 17, poolFBase := bitsAt n 0 16 } else x
  | 0x18 => if free then { x with fr := { x.fr with base := keepFrom v 12 } } else x
  | 0x20 => { x with fr := x.fr.write free v }
  | 0x28 => if free then { x with sr := { x.sr with base := keepFrom v 12 } } else x
  | 0x30 => { x with sr := x.sr.write free v }
  | 0x38 => { x with svec := BitVec.ofNat 11 (bitsAt n 16 11), fvec := BitVec.ofNat 11 n }
  | _ => x

/-- FLALLOW written: the largest value up to the given one that keeps the sum within CAPMIB; LEFT never exceeds the day's allowance (R347). -/
def State.setAllow (s : State) (c : BitVec 8) (v : Nat) : State :=
  let others := s.ctxs.foldl (fun n p => if p.1 = c.toNat then n else n + p.2.allow.toNat) 0
  s.modCtx c fun x =>
    let y : Ctx := { x.refill s.cyc with allow := BitVec.ofNat 32 (min v (s.flash.capMib - others)) }
    if y.leftMax ≤ y.left then { y with left := y.leftMax, acc := 0 } else y

/-- PWRCAP written (R262). -/
def Regs.setCap (r : Regs) (v : Nat) : Regs :=
  let slope := bitsAt v 32 16
  let win := bitsAt v 24 8
  let cap := bitsAt v 0 16
  { r with
    slope := BitVec.ofNat 16 (if slope = 0 then 400 else slope), win := BitVec.ofNat 8 (max win 1)
    capw := BitVec.ofNat 16 (if 500 ≤ cap ∧ cap ≤ 3400 then cap else 3400) }

/-- The bits of a DOMCFG, a WCFG and a PEERMAP entry (R388, R393, R394). -/
def domMask : Word := 0xFFFFFFFF00003F3F
/-- The bits of a WCFG. -/
def wcfgMask : Word := 0x000000FFFFFF01FF
/-- The bits of a PEERMAP entry. -/
def peerMask : Word := 0xFFFFFF0000000000

/-- A PEERMAP entry would be a second one for its module and context (R394). -/
def State.peerTwice (s : State) (i : Nat) (v : Word) : Bool :=
  v.getLsbD 63 && s.regs.peermap.any fun (p : Nat × Word) => p.1 != i && p.2.getLsbD 63 && p.2.toNat / 2 ^ 48 % 2 ^ 14 == v.toNat / 2 ^ 48 % 2 ^ 14

/-- A word of a 256-bit register replaced. -/
def setWord256 (r : BitVec 256) (k : Nat) (v : Word) : BitVec 256 :=
  BitVec.ofNat 256 (r.toNat - bitsAt r.toNat (64 * k) 64 * 2 ^ (64 * k) + v.toNat * 2 ^ (64 * k))

/-- A module register without a row of its own written by the owning master, by its block. -/
def State.writeTable (s : State) (o : Nat) (v : Word) : State :=
  let r := s.regs
  let put := fun (x : Regs) => { s with regs := x }
  match blockOf o 0x512000 16 8, blockOf o 0x601100 8 64, blockOf o 0x602000 8 256, blockOf o 0x511000 8 4, blockOf o 0x300000 16 256 with
  | some (w, 0), _, _, _, _ => put { r with wbase := Tab.set 0 r.wbase w (keepFrom v 16) }
  | some (w, 8), _, _, _, _ => put { r with wcfg := Tab.set 0 r.wcfg w (v &&& wcfgMask) }
  | _, some (m, 0), _, _, _ => put { r with lroute := Tab.set 0 r.lroute m (v.setWidth 16) }
  | _, _, some (i, 0), _, _ => if s.peerTwice i v then s else put { r with peermap := Tab.set 0 r.peermap i (v &&& peerMask) }
  | _, _, _, some (k, 0), _ => put { r with key := setWord256 r.key k v }
  | _, _, _, _, some (c, 0) => s.setAllow (BitVec.ofNat 8 c) (v.toNat % 2 ^ 32)
  | _, _, _, _, _ =>
    match o with
    | 0x200800 => put (r.setCap v.toNat)
    | 0x301000 => { s with flash := { s.flash with days := max (bitsAt v.toNat 32 16) 1 } }
    | 0x400000 => put { r with rte := { r.rte with w0 := v } }
    | 0x400008 => put { r with rte := { r.rte with w1 := v } }
    | 0x400010 => put { r with rte := { r.rte with w2 := v } }
    | 0x400018 => put { r with rte := { r.rte with w3 := v } }
    | 0x510000 => put { r with hsrc := v }
    | 0x510008 => put { r with hva := v }
    | 0x510010 => put { r with hdata := v }
    | 0x601000 => if s.ctxs.any fun (p : Nat × Ctx) => p.2.st != .free then s else put { r with domcfg := v &&& domMask }
    | 0x800000 => if r.flscrub.isSome then s else s.rstCtl v
    | _ => s

/-- A write of a register without a row of its own: ATTNONCE by every master, the others by the owning one (R387, R396). -/
def State.plainWrite (s : State) (m : Master) (off v : Word) : State :=
  let o := off.toNat
  match blockOf o 0x604000 8 4, blockOf o 0x100000 32 2048, blockOf o 0x500000 64 256 with
  | some (k, 0), _, _ => if s.answers m then { s with regs := { s.regs with attNonce := setWord256 s.regs.attNonce k v } } else s
  | _, some (q, 0), _ =>
    if s.mayWrite m && !(s.wq q).en then s.setWq q { s.wq q with base := keepFrom v 12 } else s
  | _, some _, _ => s
  | _, _, some (c, k) => if s.mayWrite m then (s.modCtx (BitVec.ofNat 8 c) fun x => x.write k v).flushRecs else s
  | _, _, _ => if s.mayWrite m then s.writeTable o v else s

/-- R4 REGISTER_WRITE: a write to a module register without a row of its own. -/
def execRegisterWrite (m : Master) (off v : Word) (s : State) : Host.Outcome State Fault Refusal := .next (s.plainWrite m off v)

/-! ### Management messages (R431) -/

/-- A write of any module register, by the row that it has. -/
def State.busWrite (s : State) (m : Master) (off v : Word) : Host.Outcome State Fault Refusal :=
  let n := v.toNat
  let byte := fun (lo : Nat) => BitVec.ofNat 8 (bitsAt n lo 8)
  let tok := BitVec.ofNat 32 (n / 2 ^ 32)
  match blockOf off.toNat 0x100000 32 2048, blockOf off.toNat 0x500000 64 256, off.toNat with
  | some (q, 0x08), _, _ => if v.getLsbD 0 then execWqEnable m (BitVec.ofNat 11 q) v s else execWqDisable m (BitVec.ofNat 11 q) v s
  | some (q, 0x10), _, _ => execDoorbell m (BitVec.ofNat 11 q) v s
  | some (q, 0x18), _, _ => execWqFaultClear m (BitVec.ofNat 11 q) v s
  | _, some (c, 0), _ =>
    if bitsAt n 2 2 = 1 then execCtxCreate m (BitVec.ofNat 8 c) v s
    else if bitsAt n 2 2 = 2 then execCtxEnd m (BitVec.ofNat 8 c) v s
    else .next (s.plainWrite m off v)
  | _, _, 0x400020 =>
    let c := byte 32
    let i := BitVec.ofNat 16 (bitsAt n 40 16)
    if opOf v = 1 then execRtWrite m c i s else if opOf v = 2 then execRtClear m c i s
    else if opOf v = 3 then execRtRead m c i s else .next s
  | _, _, 0x401000 => if opOf v = 1 then execFaultRetry m tok s else if opOf v = 2 then execFaultFail m tok s else .next s
  | _, _, 0x401008 =>
    if opOf v = 0 then execTraprespResume m tok s else if opOf v = 1 then execTraprespSkip m tok s
    else if opOf v = 2 then execTraprespHandle m tok (BitVec.ofNat 29 (n / 2 ^ 3)) s else execTraprespFail m tok s
  | _, _, 0x510018 =>
    if bitsAt n 16 2 = 1 then execHandleLoad m (byte 0) (byte 8) s
    else if bitsAt n 16 2 = 2 then execHandleUnload m (byte 0) (byte 8) s else .next s
  | _, _, 0x511020 =>
    let slot := BitVec.ofNat 4 (bitsAt n 8 4)
    if bitsAt n 12 2 = 1 then execKeyLoad m (byte 0) slot s
    else if bitsAt n 12 2 = 2 then execKeyClear m (byte 0) slot s else .next s
  | _, _, 0x600000 =>
    let lease := BitVec.ofNat 16 n
    if bitsAt n 16 2 = 1 then execClaim m lease (v.getLsbD 21) s
    else if bitsAt n 16 2 = 2 then execRelease m lease s
    else if bitsAt n 16 2 = 3 then execOffer m lease (BitVec.ofNat 3 (bitsAt n 18 3)) s else .next s
  | _, _, 0x604020 => if v.getLsbD 9 then execAttestRequest m (byte 0) (v.getLsbD 8) s else .next s
  | _, _, 0x800010 => execFlscrub m v s
  | _, _, _ => .next (s.plainWrite m off v)

/-- A claim by a master would be granted (R391). -/
def State.grants (s : State) (m : Master) (force : Bool) : Bool :=
  (force && m == 4) || s.own.owner == m.toNat || s.own.owner == 7 || s.own.offerTo == some m.toNat

/-- A write of master 4 is discarded (R371, R388, R390, R391, R428). -/
def State.discards (s : State) (off v : Word) : Bool :=
  let n := v.toNat
  let tok := BitVec.ofNat 32 (n / 2 ^ 32)
  let mine := s.mayWrite 4
  match off.toNat with
  | 0x600000 => bitsAt n 0 16 == 0 || (match bitsAt n 16 2 with
    | 1 => !s.grants 4 (v.getLsbD 21)
    | 2 => s.own.owner != 4
    | 3 => s.own.owner != 4 || bitsAt n 18 3 == 4
    | _ => true)
  | 0x401000 => opOf v == 0 || opOf v == 3 || (s.answered 4 tok false).isNone
  | 0x401008 => (s.answered 4 tok true).isNone
  | 0x604020 => v.getLsbD 9 && s.regs.attCmd.isSome
  | 0x400020 => !mine || s.regs.rtCmd.isSome
  | 0x510018 => !mine || s.regs.hcmd.isSome
  | 0x601000 => !mine || s.ctxs.any fun (p : Nat × Ctx) => p.2.st != .free
  | 0x800010 => !s.rstWrite 4 || s.scrubsPool (bitsAt n 0 16) (bitsAt n 20 16 + 1)
  | o => if (blockOf o 0x604000 8 4).isSome then false else if 0x800000 ≤ o then !s.rstWrite 4 else !mine

/-- An answer added to what an access comes to. -/
def withAck (r : Host.Outcome State Fault Refusal) (a : Out) : Host.Outcome State Fault Refusal :=
  match r with
  | .next t => .next (t.emit a)
  | .fault f => .fault f
  | .refused f => .refused f

/-- R431 MCTP_READ: OP 01, the answer carries the register. -/
def execMctpRead (tag : BitVec 8) (off : Word) (s : State) : Host.Outcome State Fault Refusal :=
  .next (({ s with fresh := s.fresh + 1 } : State).emit (.regAck 1 tag 0 (s.readReg off)))
/-- R431 MCTP_WRITE: OP 02, a write of master 4; one that is discarded is acknowledged with STATUS 01. -/
def execMctpWrite (tag : BitVec 8) (off data : Word) (s : State) : Host.Outcome State Fault Refusal :=
  withAck (s.busWrite 4 off data) (.regAck 2 tag (if s.discards off data then 1 else 0) 0)
/-- R431 MCTP_CERT_READ: OP 03, a chunk of the certificate. -/
def execMctpCertRead (tag : BitVec 8) (idx : Word) (s : State) : Host.Outcome State Fault Refusal :=
  .next (s.emit (.regAck 3 tag 0 (Config.certChunk idx)))

end Sys2Proof.Machine
end

