-- ==== Sys2Proof/Machine/Dispatch.lean ====
section
/-! DEFINITION. The meaning of every instruction and event: one arm per constructor. -/

namespace Sys2Proof.Machine

open Sys2Proof

/-- What an instruction does. -/
def exec (i : Instr) (s : State) : Host.Outcome State Fault Refusal :=
  match i with
  | .add rd ra rb => Sys2Proof.Machine.execAdd rd ra rb s
  | .sub rd ra rb => Sys2Proof.Machine.execSub rd ra rb s
  | .mul rd ra rb => Sys2Proof.Machine.execMul rd ra rb s
  | .mulh rd ra rb => Sys2Proof.Machine.execMulh rd ra rb s
  | .mulhn rd ra rb => Sys2Proof.Machine.execMulhn rd ra rb s
  | .div rd ra rb => Sys2Proof.Machine.execDiv rd ra rb s
  | .divn rd ra rb => Sys2Proof.Machine.execDivn rd ra rb s
  | .rem rd ra rb => Sys2Proof.Machine.execRem rd ra rb s
  | .remn rd ra rb => Sys2Proof.Machine.execRemn rd ra rb s
  | .and rd ra rb => Sys2Proof.Machine.execAnd rd ra rb s
  | .or rd ra rb => Sys2Proof.Machine.execOr rd ra rb s
  | .xor rd ra rb => Sys2Proof.Machine.execXor rd ra rb s
  | .shl rd ra rb => Sys2Proof.Machine.execShl rd ra rb s
  | .shr rd ra rb => Sys2Proof.Machine.execShr rd ra rb s
  | .sra rd ra rb => Sys2Proof.Machine.execSra rd ra rb s
  | .min rd ra rb => Sys2Proof.Machine.execMin rd ra rb s
  | .max rd ra rb => Sys2Proof.Machine.execMax rd ra rb s
  | .minn rd ra rb => Sys2Proof.Machine.execMinn rd ra rb s
  | .maxn rd ra rb => Sys2Proof.Machine.execMaxn rd ra rb s
  | .slt rd ra rb => Sys2Proof.Machine.execSlt rd ra rb s
  | .sltn rd ra rb => Sys2Proof.Machine.execSltn rd ra rb s
  | .clz rd ra => Sys2Proof.Machine.execClz rd ra s
  | .popc rd ra => Sys2Proof.Machine.execPopc rd ra s
  | .sel rd p ra rb => Sys2Proof.Machine.execSel rd p ra rb s
  | .addi rd ra imm => Sys2Proof.Machine.execAddi rd ra imm s
  | .andi rd ra imm => Sys2Proof.Machine.execAndi rd ra imm s
  | .ori rd ra imm => Sys2Proof.Machine.execOri rd ra imm s
  | .xori rd ra imm => Sys2Proof.Machine.execXori rd ra imm s
  | .shli rd ra n => Sys2Proof.Machine.execShli rd ra n s
  | .shri rd ra n => Sys2Proof.Machine.execShri rd ra n s
  | .srai rd ra n => Sys2Proof.Machine.execSrai rd ra n s
  | .slti rd ra imm => Sys2Proof.Machine.execSlti rd ra imm s
  | .li rd imm => Sys2Proof.Machine.execLi rd imm s
  | .lhi rd ra imm => Sys2Proof.Machine.execLhi rd ra imm s
  | .cmp c pd ra rb => Sys2Proof.Machine.execCmp c pd ra rb s
  | .cmpi c pd ra imm => Sys2Proof.Machine.execCmpi c pd ra imm s
  | .pand pd pa pb => Sys2Proof.Machine.execPand pd pa pb s
  | .por pd pa pb => Sys2Proof.Machine.execPor pd pa pb s
  | .pxor pd pa pb => Sys2Proof.Machine.execPxor pd pa pb s
  | .pandn pd pa pb => Sys2Proof.Machine.execPandn pd pa pb s
  | .porn pd pa pb => Sys2Proof.Machine.execPorn pd pa pb s
  | .pmov pd pa => Sys2Proof.Machine.execPmov pd pa s
  | .pnot pd pa => Sys2Proof.Machine.execPnot pd pa s
  | .j off => Sys2Proof.Machine.execJ off s
  | .jal off => Sys2Proof.Machine.execJal off s
  | .jr ra => Sys2Proof.Machine.execJr ra s
  | .jalr rd ra => Sys2Proof.Machine.execJalr rd ra s
  | .bcc c ra rb off => Sys2Proof.Machine.execBcc c ra rb off s
  | .loop ra off => Sys2Proof.Machine.execLoop ra off s
  | .ld sz rd ra imm => Sys2Proof.Machine.execLd sz rd ra imm s
  | .ldn sz rd ra imm => Sys2Proof.Machine.execLdn sz rd ra imm s
  | .st sz rv ra imm => Sys2Proof.Machine.execSt sz rv ra imm s
  | .amo op dbl rd ra rb => Sys2Proof.Machine.execAmo op dbl rd ra rb s
  | .amoCas dbl rd ra rb rc => Sys2Proof.Machine.execAmoCas dbl rd ra rb rc s
  | .ldv sc rd ra rb => Sys2Proof.Machine.execLdv sc rd ra rb s
  | .stv sc ra rb => Sys2Proof.Machine.execStv sc ra rb s
  | .vrcl ra rb => Sys2Proof.Machine.execVrcl ra rb s
  | .fence sc => Sys2Proof.Machine.execFence sc s
  | .fenceLayer => Sys2Proof.Machine.execFenceLayer s
  | .pfch ra imm => Sys2Proof.Machine.execPfch ra imm s
  | .cfgld rd dr ra => Sys2Proof.Machine.execCfgld rd dr ra s
  | .cfgarm rd => Sys2Proof.Machine.execCfgarm rd s
  | .cfgsw rd => Sys2Proof.Machine.execCfgsw rd s
  | .sdrain rd => Sys2Proof.Machine.execSdrain rd s
  | .sdrainGo rd => Sys2Proof.Machine.execSdrainGo rd s
  | .sbindRd q dr ra eos => Sys2Proof.Machine.execSbindRd q dr ra eos s
  | .sbindWr q dr ra => Sys2Proof.Machine.execSbindWr q dr ra s
  | .sbar sel => Sys2Proof.Machine.execSbar sel s
  | .seos rd q => Sys2Proof.Machine.execSeos rd q s
  | .tinjData q ra rb tag bcast => Sys2Proof.Machine.execTinjData q ra rb tag bcast s
  | .tinjThread ra rb => Sys2Proof.Machine.execTinjThread ra rb s
  | .mark rd => Sys2Proof.Machine.execMark rd s
  | .sstat rd q => Sys2Proof.Machine.execSstat rd q s
  | .tmap dr src => Sys2Proof.Machine.execTmap dr src s
  | .tmapPat dr src => Sys2Proof.Machine.execTmapPat dr src s
  | .tmapRing dr src => Sys2Proof.Machine.execTmapRing dr src s
  | .tmapWin dr src => Sys2Proof.Machine.execTmapWin dr src s
  | .tmapCopy dm dn ra => Sys2Proof.Machine.execTmapCopy dm dn ra s
  | .cpy rd dh dm ra rb dst => Sys2Proof.Machine.execCpy rd dh dm ra rb dst s
  | .gath rd dh dm ra rb dst => Sys2Proof.Machine.execGath rd dh dm ra rb dst s
  | .scat rd dh dm ra rb => Sys2Proof.Machine.execScat rd dh dm ra rb s
  | .publ rd dr ra rb => Sys2Proof.Machine.execPubl rd dr ra rb s
  | .inst rd dh dm ra rb key => Sys2Proof.Machine.execInst rd dh dm ra rb key s
  | .stage rd dh dm rb key => Sys2Proof.Machine.execStage rd dh dm rb key s
  | .rstr rd dh ra rb => Sys2Proof.Machine.execRstr rd dh ra rb s
  | .collSum fmt sc rd dh dm ra rb => Sys2Proof.Machine.execCollSum fmt sc rd dh dm ra rb s
  | .collMax fmt sc rd dh dm ra rb => Sys2Proof.Machine.execCollMax fmt sc rd dh dm ra rb s
  | .collMin fmt sc rd dh dm ra rb => Sys2Proof.Machine.execCollMin fmt sc rd dh dm ra rb s
  | .collGather fmt sc rd dh dm ra rb => Sys2Proof.Machine.execCollGather fmt sc rd dh dm ra rb s
  | .collBcast fmt sc rd dh dm ra rb => Sys2Proof.Machine.execCollBcast fmt sc rd dh dm ra rb s
  | .twait ra => Sys2Proof.Machine.execTwait ra s
  | .twaitRel ra => Sys2Proof.Machine.execTwaitRel ra s
  | .bmwait ra rb rc => Sys2Proof.Machine.execBmwait ra rb rc s
  | .gbar => Sys2Proof.Machine.execGbar s
  | .sig n => Sys2Proof.Machine.execSig n s
  | .rwaitFill rd dr ra => Sys2Proof.Machine.execRwaitFill rd dr ra s
  | .rwaitFree rd dr ra => Sys2Proof.Machine.execRwaitFree rd dr ra s
  | .radvFill rd dr ra => Sys2Proof.Machine.execRadvFill rd dr ra s
  | .radvFree rd dr ra => Sys2Proof.Machine.execRadvFree rd dr ra s
  | .sysrd rd n => Sys2Proof.Machine.execSysrd rd n s
  | .syswr n ra => Sys2Proof.Machine.execSyswr n ra s
  | .svc code => Sys2Proof.Machine.execSvc code s
  | .trap code => Sys2Proof.Machine.execTrap code s
  | .tret => Sys2Proof.Machine.execTret s
  | .halt => Sys2Proof.Machine.execHalt s
  | .tinv sc ra => Sys2Proof.Machine.execTinv sc ra s
  | .pwrq t ra => Sys2Proof.Machine.execPwrq t ra s
  | .nop => Sys2Proof.Machine.execNop s
  | .vadd w => Sys2Proof.Machine.execVadd w s
  | .vsub w => Sys2Proof.Machine.execVsub w s
  | .vaddsat w => Sys2Proof.Machine.execVaddsat w s
  | .vsubsat w => Sys2Proof.Machine.execVsubsat w s
  | .vmul w => Sys2Proof.Machine.execVmul w s
  | .vmulh w => Sys2Proof.Machine.execVmulh w s
  | .vmad w => Sys2Proof.Machine.execVmad w s
  | .vabs w => Sys2Proof.Machine.execVabs w s
  | .vneg w => Sys2Proof.Machine.execVneg w s
  | .vmin w => Sys2Proof.Machine.execVmin w s
  | .vmax w => Sys2Proof.Machine.execVmax w s
  | .vand w => Sys2Proof.Machine.execVand w s
  | .vor w => Sys2Proof.Machine.execVor w s
  | .vxor w => Sys2Proof.Machine.execVxor w s
  | .vnot w => Sys2Proof.Machine.execVnot w s
  | .vshl w => Sys2Proof.Machine.execVshl w s
  | .vshr w => Sys2Proof.Machine.execVshr w s
  | .vsra w => Sys2Proof.Machine.execVsra w s
  | .vclz w => Sys2Proof.Machine.execVclz w s
  | .vpopc w => Sys2Proof.Machine.execVpopc w s
  | .vcmp w => Sys2Proof.Machine.execVcmp w s
  | .vsel w => Sys2Proof.Machine.execVsel w s
  | .fadd w => Sys2Proof.Machine.execFadd w s
  | .fsub w => Sys2Proof.Machine.execFsub w s
  | .fmul w => Sys2Proof.Machine.execFmul w s
  | .ffma w => Sys2Proof.Machine.execFfma w s
  | .fmin w => Sys2Proof.Machine.execFmin w s
  | .fmax w => Sys2Proof.Machine.execFmax w s
  | .fabs w => Sys2Proof.Machine.execFabs w s
  | .fneg w => Sys2Proof.Machine.execFneg w s
  | .fcmp w => Sys2Proof.Machine.execFcmp w s
  | .frcp w => Sys2Proof.Machine.execFrcp w s
  | .frsq w => Sys2Proof.Machine.execFrsq w s
  | .fsqrt w => Sys2Proof.Machine.execFsqrt w s
  | .fexp2 w => Sys2Proof.Machine.execFexp2 w s
  | .flog2 w => Sys2Proof.Machine.execFlog2 w s
  | .fldx w => Sys2Proof.Machine.execFldx w s
  | .fexpo w => Sys2Proof.Machine.execFexpo w s
  | .cvt w => Sys2Proof.Machine.execCvt w s
  | .pack w => Sys2Proof.Machine.execPack w s
  | .unpk w => Sys2Proof.Machine.execUnpk w s
  | .scl w => Sys2Proof.Machine.execScl w s
  | .amax w => Sys2Proof.Machine.execAmax w s
  | .vred w => Sys2Proof.Machine.execVred w s
  | .fred w => Sys2Proof.Machine.execFred w s
  | .vshuf w => Sys2Proof.Machine.execVshuf w s
  | .vbc w => Sys2Proof.Machine.execVbc w s
  | .vrot w => Sys2Proof.Machine.execVrot w s
  | .vlane w => Sys2Proof.Machine.execVlane w s
  | .mma w => Sys2Proof.Machine.execMma w s
  | .mclr w => Sys2Proof.Machine.execMclr w s
  | .mnrm w => Sys2Proof.Machine.execMnrm w s
  | .mrd w => Sys2Proof.Machine.execMrd w s
  | .mdrn w => Sys2Proof.Machine.execMdrn w s
  | .steer w => Sys2Proof.Machine.execSteer w s
  | .merge w => Sys2Proof.Machine.execMerge w s
  | .carry w => Sys2Proof.Machine.execCarry w s
  | .inv w => Sys2Proof.Machine.execInv w s
  | .join w => Sys2Proof.Machine.execJoin w s
  | .fan w => Sys2Proof.Machine.execFan w s
  | .sink w => Sys2Proof.Machine.execSink w s
  | .iter w => Sys2Proof.Machine.execIter w s
  | .mld w => Sys2Proof.Machine.execMld w s
  | .mst w => Sys2Proof.Machine.execMst w s
  | .matm w => Sys2Proof.Machine.execMatm w s
  | .mldv w => Sys2Proof.Machine.execMldv w s
  | .mstv w => Sys2Proof.Machine.execMstv w s
  | .otok w => Sys2Proof.Machine.execOtok w s
  | .pin w => Sys2Proof.Machine.execPin w s
  | .pout w => Sys2Proof.Machine.execPout w s
  | .pass w => Sys2Proof.Machine.execPass w s
  | .dly w => Sys2Proof.Machine.execDly w s
  | .const w => Sys2Proof.Machine.execConst w s
  | .eosq w => Sys2Proof.Machine.execEosq w s
  | .waveFire b => Sys2Proof.Machine.execWaveFire b s
  | .waveCommit b w => Sys2Proof.Machine.execWaveCommit b w s
  | .ownerShareRelease b w owner => Sys2Proof.Machine.execOwnerShareRelease b w owner s
  | .regionStretch sid => Sys2Proof.Machine.execRegionStretch sid s
  | .sentinelWindow => Sys2Proof.Machine.execSentinelWindow s
  | .threadTokenDelivery task pkt => Sys2Proof.Machine.execThreadTokenDelivery task pkt s
  | .wqEnable m q v => Sys2Proof.Machine.execWqEnable m q v s
  | .wqDisable m q v => Sys2Proof.Machine.execWqDisable m q v s
  | .doorbell m q v => Sys2Proof.Machine.execDoorbell m q v s
  | .wqFaultClear m q v => Sys2Proof.Machine.execWqFaultClear m q v s
  | .fetch q => Sys2Proof.Machine.execFetch q s
  | .scrubDone sid => Sys2Proof.Machine.execScrubDone sid s
  | .reservationStart launch => Sys2Proof.Machine.execReservationStart launch s
  | .taskEnd task => Sys2Proof.Machine.execTaskEnd task s
  | .sectorFree task => Sys2Proof.Machine.execSectorFree task s
  | .blockSchedulerDecision task => Sys2Proof.Machine.execBlockSchedulerDecision task s
  | .hostDrainSwap task => Sys2Proof.Machine.execHostDrainSwap task s
  | .drainSwap task inst => Sys2Proof.Machine.execDrainSwap task inst s
  | .sdrainQuiescent task inst => Sys2Proof.Machine.execSdrainQuiescent task inst s
  | .groupSwitch sid grp => Sys2Proof.Machine.execGroupSwitch sid grp s
  | .sbarComplete sid => Sys2Proof.Machine.execSbarComplete sid s
  | .graceDeadline task => Sys2Proof.Machine.execGraceDeadline task s
  | .takeMarker r => Sys2Proof.Machine.execTakeMarker r s
  | .saveSnapshot task => Sys2Proof.Machine.execSaveSnapshot task s
  | .saveDone task => Sys2Proof.Machine.execSaveDone task s
  | .railReached g => Sys2Proof.Machine.execRailReached g s
  | .opSwap g => Sys2Proof.Machine.execOpSwap g s
  | .clockHoldEnd g => Sys2Proof.Machine.execClockHoldEnd g s
  | .thermalThrottle die reading delay => Sys2Proof.Machine.execThermalThrottle die reading delay s
  | .throttleExpire g => Sys2Proof.Machine.execThrottleExpire g s
  | .ballastStart amps => Sys2Proof.Machine.execBallastStart amps s
  | .ballastLimit => Sys2Proof.Machine.execBallastLimit s
  | .capThrottle power delay => Sys2Proof.Machine.execCapThrottle power delay s
  | .emergencyThrottle power => Sys2Proof.Machine.execEmergencyThrottle power s
  | .emergencyEnd power => Sys2Proof.Machine.execEmergencyEnd power s
  | .selfRefreshEnter ch => Sys2Proof.Machine.execSelfRefreshEnter ch s
  | .chunkCommit op k => Sys2Proof.Machine.execChunkCommit op k s
  | .engineComplete op => Sys2Proof.Machine.execEngineComplete op s
  | .publishStep op => Sys2Proof.Machine.execPublishStep op s
  | .dupWritePerformed k => Sys2Proof.Machine.execDupWritePerformed k s
  | .cutOver op => Sys2Proof.Machine.execCutOver op s
  | .stagingFill stack page => Sys2Proof.Machine.execStagingFill stack page s
  | .installPageProgram op bad bad2 => Sys2Proof.Machine.execInstallPageProgram op bad bad2 s
  | .installFinish op => Sys2Proof.Machine.execInstallFinish op s
  | .stageBlock op => Sys2Proof.Machine.execStageBlock op s
  | .stageFinish op => Sys2Proof.Machine.execStageFinish op s
  | .leftRefill c => Sys2Proof.Machine.execLeftRefill c s
  | .spillReplay sid q => Sys2Proof.Machine.execSpillReplay sid q s
  | .faultRetry m token => Sys2Proof.Machine.execFaultRetry m token s
  | .faultFail m token => Sys2Proof.Machine.execFaultFail m token s
  | .trapRecord sid => Sys2Proof.Machine.execTrapRecord sid s
  | .traprespResume m token => Sys2Proof.Machine.execTraprespResume m token s
  | .traprespSkip m token => Sys2Proof.Machine.execTraprespSkip m token s
  | .traprespHandle m token toff => Sys2Proof.Machine.execTraprespHandle m token toff s
  | .traprespFail m token => Sys2Proof.Machine.execTraprespFail m token s
  | .rtWrite m c idx => Sys2Proof.Machine.execRtWrite m c idx s
  | .rtClear m c idx => Sys2Proof.Machine.execRtClear m c idx s
  | .rtRead m c idx => Sys2Proof.Machine.execRtRead m c idx s
  | .rtSwap => Sys2Proof.Machine.execRtSwap s
  | .ctxCreate m c v => Sys2Proof.Machine.execCtxCreate m c v s
  | .ctxEnd m c v => Sys2Proof.Machine.execCtxEnd m c v s
  | .ctxFreed c => Sys2Proof.Machine.execCtxFreed c s
  | .handleLoad m c slot => Sys2Proof.Machine.execHandleLoad m c slot s
  | .handleUnload m c slot => Sys2Proof.Machine.execHandleUnload m c slot s
  | .unloadDone => Sys2Proof.Machine.execUnloadDone s
  | .keyLoad m c slot => Sys2Proof.Machine.execKeyLoad m c slot s
  | .keyClear m c slot => Sys2Proof.Machine.execKeyClear m c slot s
  | .hostWindowAccess m w o a => Sys2Proof.Machine.execHostWindowAccess m w o a s
  | .claim m lease force => Sys2Proof.Machine.execClaim m lease force s
  | .release m lease => Sys2Proof.Machine.execRelease m lease s
  | .offer m lease target => Sys2Proof.Machine.execOffer m lease target s
  | .offerLapse => Sys2Proof.Machine.execOfferLapse s
  | .leaseExpire => Sys2Proof.Machine.execLeaseExpire s
  | .peerAccess modn c a acc => Sys2Proof.Machine.execPeerAccess modn c a acc s
  | .linkTimeout sid => Sys2Proof.Machine.execLinkTimeout sid s
  | .attestRequest m c incl => Sys2Proof.Machine.execAttestRequest m c incl s
  | .attestReady => Sys2Proof.Machine.execAttestReady s
  | .mctpRead tag off => Sys2Proof.Machine.execMctpRead tag off s
  | .mctpWrite tag off data => Sys2Proof.Machine.execMctpWrite tag off data s
  | .mctpCertRead tag idx => Sys2Proof.Machine.execMctpCertRead tag idx s
  | .busRetry k bad => Sys2Proof.Machine.execBusRetry k bad s
  | .laneSwapDone k bad => Sys2Proof.Machine.execLaneSwapDone k bad s
  | .rowSpareDone k => Sys2Proof.Machine.execRowSpareDone k s
  | .layerDisable die layer => Sys2Proof.Machine.execLayerDisable die layer s
  | .powerOn => Sys2Proof.Machine.execPowerOn s
  | .pcieFundamentalReset => Sys2Proof.Machine.execPcieFundamentalReset s
  | .coldReset m v => Sys2Proof.Machine.execColdReset m v s
  | .warmReset m v => Sys2Proof.Machine.execWarmReset m v s
  | .fatalReset hostUp => Sys2Proof.Machine.execFatalReset hostUp s
  | .boot => Sys2Proof.Machine.execBoot s
  | .flscrub m v => Sys2Proof.Machine.execFlscrub m v s
  | .flscrubDone => Sys2Proof.Machine.execFlscrubDone s
  | .twaitDeadline sid => Sys2Proof.Machine.execTwaitDeadline sid s
  | .bmwaitDeadline sid => Sys2Proof.Machine.execBmwaitDeadline sid s
  | .registerWrite m off v => Sys2Proof.Machine.execRegisterWrite m off v s
  | .energyRepaid delay => Sys2Proof.Machine.execEnergyRepaid delay s

end Sys2Proof.Machine
end

