-- ==== Sys2Proof/Machine/UpsetEv.lean ====
section
/-! DEFINITION. The inputs that take their effect at once or wait for an access: physical errors (R404, R410), changes of links and of peers' tables (R394, R395), firmware (R430), and management requests (R431). -/

namespace Sys2Proof.Machine

open Sys2Proof

/-! ### Errors that strike at once (R404, R410) -/

/-- An input arrives: a physical error that waits for an access or takes its effect (R226, R395, R404, R410), a change of a peer's tables (R394), a firmware image written (R430), or a management request with an OP of its own, which its answer repeats with STATUS 0x02 (R431). -/
def State.upset (s : State) : Upset → State
  | .granule g => { s with poison := Tab.set false s.poison g true }
  | .staged p =>
    match s.staged? p with
    | some x => { s with flash := { s.flash with staged := Tab.put s.flash.staged p { x with poison := true } } }
    | none => s
  | .accum sid c tile => s.modSec sid fun x =>
      x.setCell c { x.cell c with tcw := Tab.set 0 (x.cell c).tcw (tile % 4) (Tab.get 0 (x.cell c).tcw (tile % 4) ||| 16) }
  | .cfgActive sid site => s.modSec sid fun x => { x with badSites := (x.badSites.erase site) ++ [site] }
  | .cfgShadow sid site => s.modSec sid fun x => if x.shadow.isSome then { x with badShadow := (x.badShadow.erase site) ++ [site] } else x
  | .regs sid =>
    let x := s.sec sid
    if x.v then s.taskFail x.task Cause.poison.code sid else s
  | .token t i key =>
    let bad := fun (n : Inst) => { n with chans := Tab.set [] n.chans key (match Tab.get [] n.chans key with
      | a :: l => { a with poison := true } :: l
      | [] => []) }
    { s with tasks := s.tasks.map fun (k : Task) => if k.id = t then { k with insts := k.insts.modify i bad } else k }
  | .packet t p => { s with tasks := s.tasks.map fun (k : Task) =>
      if k.id = t then { k with packets := k.packets.map fun q => if q.id = p then { q with poison := true } else q } else k }
  | .linkDown m => { s with umber := { s.umber with linkDown := (s.umber.linkDown.erase m) ++ [m] } }
  | .linkUp m => { s with umber := { s.umber with linkDown := s.umber.linkDown.erase m } }.flushRecs
  | .rangeTable c => if (s.ctx c).st = .active then s.endCtx c else s
  | .peerMap m c page rd wr => { s with umber := { s.umber with peers := Tab.set (0, 0) s.umber.peers (peerKey m c page) (rd, wr) } }
  | .firmware f => { s with boot := { s.boot with newer := some f } }
  | .mctpOther op tag => if 1 ≤ op.toNat ∧ op.toNat ≤ 3 then s else s.emit (.regAck op tag 0x02 0)
  | u => { s with upsets := s.upsets ++ [u] }

end Sys2Proof.Machine
end

