-- ==== Sys2Proof/Machine/Turn.lean ====
section
/-! DEFINITION. Turns: who acts next, when (R432, R6; log 1), the events that their times bring (R171, R244, R256, R261, R263, R381, R391, R395), and what a thread, a slot, an event or a physical error does on its turn. -/

namespace Sys2Proof.Machine

open Sys2Proof

/-! ### Events at their times -/

/-- A fault record's append waits for a module out of reach (R383, R395). -/
def recordWait (x : Nat × Word × Nat) : Bool := decide (1280 ≤ x.1) && decide (x.1 < 1536)

/-- The events that the state holds a time for. -/
inductive Due where
  | sentinelWindow
  | railReached (g : BitVec 6)
  | clockHoldEnd (g : BitVec 6)
  | throttleExpire (g : BitVec 6)
  | scrubDone (sid : BitVec 8)
  | linkTimeout (sid : BitVec 8)
  | graceDeadline (task : Nat)
  | ballastLimit
  | ballastEnd
  | reservation (launch : Nat)
  | loadStep
  | offerLapse
  | leaseExpire
  | selfRefresh (ch : BitVec 8)
  | recordLink
deriving DecidableEq, Repr

/-- The wait of a fault record's append for a module out of reach ends: the append is tried again, and the waits whose time has come are noted no more (R383, R395). -/
def State.recordLinkEnds (s : State) : State :=
  let u := s.flushRecs
  { u with linkWaits := u.linkWaits.filter fun x => !(recordWait x) || decide (s.cyc < x.2.2) }

/-- Such an event takes place. -/
def runDue (d : Due) (s : State) : Host.Outcome State Fault Refusal :=
  match d with
  | .sentinelWindow => execSentinelWindow s
  | .railReached g => execRailReached g s
  | .clockHoldEnd g => execClockHoldEnd g s
  | .throttleExpire g => execThrottleExpire g s
  | .scrubDone sid => execScrubDone sid s
  | .linkTimeout sid => execLinkTimeout sid s
  | .graceDeadline task => execGraceDeadline task s
  | .ballastLimit => execBallastLimit s
  | .ballastEnd => .next s.ballastEnds
  | .reservation launch => execReservationStart launch s
  | .loadStep => .next s.loadStep
  | .offerLapse => execOfferLapse s
  | .leaseExpire => execLeaseExpire s
  | .selfRefresh ch => execSelfRefreshEnter ch s
  | .recordLink => .next s.recordLinkEnds

/-- The timed events of a rail group: the end of a slew, of a clock hold, of a throttle (R256, R261). -/
def railDues (g : Nat) (r : Rail) : List (Nat × Due) :=
  (match r.mv with
  | .raiseV t => [(t, .railReached (BitVec.ofNat 6 g))]
  | .lowerV t => [(t, .railReached (BitVec.ofNat 6 g))]
  | .hold t => [(t, .clockHoldEnd (BitVec.ofNat 6 g))]
  | _ => []) ++
  match r.thrEnd with
  | some t => [(t, .throttleExpire (BitVec.ofNat 6 g))]
  | none => []

/-- The timed events of a sector: the end of a scrub, a link's time-out (R381, R395). -/
def sectorDues (k : Nat) (x : Sector) : List (Nat × Due) :=
  (match x.scrub with
  | some t => if x.v then [] else [(t, .scrubDone (BitVec.ofNat 8 k))]
  | none => []) ++
  match x.th.wait with
  | .link t => if t = 0 then [] else [(t, .linkTimeout (BitVec.ofNat 8 k))]
  | _ => []

/-- The timed event of a task: the deadline of its notice (R244). -/
def taskDues (t : Task) : List (Nat × Due) :=
  match t.pre with
  | .notice d => if t.runs then [(d, .graceDeadline t.id)] else []
  | _ => []

/-- The launch that reserves next, unless its task fits before (R188): of those whose task does not fit the first to have reached priority 7, the lower queue number among equals. -/
def State.reserver (s : State) : Option Launch :=
  if s.reserving.isSome then none
  else (s.launches.filter fun l => s.competes l && (s.tryPlace [] l == .no)).foldl
    (fun (m : Option Launch) l => match m with
      | some k => if s.sevenAt l < s.sevenAt k ∨ (s.sevenAt l = s.sevenAt k ∧ l.q < k.q) then some l else some k
      | none => some l) none

/-- The entries into self-refresh to come: those of the awake channels that no placement word covers (R265). -/
def State.refreshDues (s : State) : List (Nat × Due) :=
  if 0 < s.regs.carveNow then []
  else ((List.range 256).filter fun k => !(Tab.get false s.asleep k) && !s.covered k).map fun k =>
    (Tab.get 0 s.lastUse k + 940000, .selfRefresh (BitVec.ofNat 8 k))

/-- The events that the state holds a time for: each is enabled at its time, and takes place once. At one time the start of a window comes first, so that no other event shortens it (R172). -/
def State.dues (s : State) : List (Nat × Due) :=
  (if s.rails.any fun (p : Nat × Rail) => p.2.gwin != 0 || p.2.winEvent then [((s.cyc / 4096 + 1) * 4096, .sentinelWindow)] else []) ++
  ((s.rails.filter fun p => decide (p.1 < 64)).flatMap fun (p : Nat × Rail) => railDues p.1 p.2) ++
  ((s.sectors.filter fun p => decide (p.1 < 256)).flatMap fun (p : Nat × Sector) => sectorDues p.1 p.2) ++
  s.tasks.flatMap taskDues ++
  (match s.regs.ballast with
  | some t => (if s.regs.ballastFirst then [(t + 23500, .ballastLimit)] else []) ++ [(s.regs.ballastEnd, .ballastEnd)]
  | none => []) ++
  (match s.reserver with
  | some l => [(s.sevenAt l + 1880000, .reservation l.id)]
  | none => []) ++
  (match s.regs.hload with
  | some r => [(r.due, .loadStep)]
  | none => []) ++
  (match s.own.offer with
  | some o => [(o.2, .offerLapse)]
  | none => []) ++
  (if s.own.owner = 7 then [] else [(s.own.leaseEnd, .leaseExpire)]) ++
  ((s.linkWaits.filter recordWait).map fun x => (x.2.2, .recordLink)) ++ s.refreshDues

/-- The earliest of some timed events; among equals the first listed. -/
def earliest (l : List (Nat × Due)) : Option (Nat × Due) :=
  l.foldl (fun m p => match m with
    | some q => if p.1 < q.1 then some p else some q
    | none => some p) none

/-! ### Who acts -/

/-- The next turn: the agenda's first, else a free one. -/
def State.nextTurn (s : State) : Option Turn × State :=
  match s.agenda with
  | t :: l => (some t, { s with agenda := l })
  | [] => (Config.nextTurn s.turn, { s with turn := s.turn + 1 })

/-- The word of a slot of an activated configuration. -/
def State.slotWord (s : State) (r : SlotRef) : Option Word :=
  match s.inst? r.b with
  | some i =>
    match s.share? i r.b.gen r.b.img with
    | some sh => (sh.image.blks.getD r.b.blk {}).words[r.slot]?
    | none => none
  | none => none

/-- A fabric slot's turn. -/
def State.slotTurn (s : State) (r : SlotRef) : Host.Outcome State Fault Refusal :=
  match s.slotWord r with
  | none => .fault .noSuchSlot
  | some w =>
    match decodeFab w with
    | some i => exec i { s with slot := r }
    | none => .next s

/-! ### The order within one reference cycle -/

/-- The master whose write of OWNCTL an event is (R391). -/
def ownWriter : Instr → Option Nat
  | .claim m _ _ => some m.toNat
  | .release m _ => some m.toNat
  | .offer m _ _ => some m.toNat
  | .mctpWrite _ off _ => if off = 0x600000 then some 4 else none
  | _ => none

/-- The CAUSE of the reset that a write of RSTCTL by a master brings (R428). -/
def State.rstCause (s : State) (m : Master) (v : Word) : Option Nat :=
  if !s.rstWrite m then none else if opOf v = 2 then some 2 else if opOf v = 1 then some 3 else none

/-- A cause of a reset, by its code (R425, R428). -/
def State.resetOf (s : State) : Instr → Option Nat
  | .powerOn => some 0
  | .pcieFundamentalReset => some 1
  | .fatalReset _ => some 4
  | .coldReset m v => if opOf v = 2 then s.rstCause m v else none
  | .warmReset m v => if opOf v = 1 then s.rstCause m v else none
  | .registerWrite m off v => if off = 0x800000 then s.rstCause m v else none
  | .mctpWrite _ off v => if off = 0x800000 then s.rstCause 4 v else none
  | _ => none

/-- A reset of this reference cycle by its cause. -/
def Mark.cause? : Mark → Option Nat
  | .reset c => some c
  | _ => none

/-- A reset has already come in this reference cycle whose cause wins over an instruction's: a cold one over a warm one, the lower code among one kind (R428). The codes of cold causes are below those of warm ones. -/
def State.outdone (s : State) (i : Instr) : Bool :=
  match s.resetOf i with
  | some c => (s.now.filterMap Mark.cause?).any fun k => decide (k ≤ c)
  | none => false

/-- The group that a pwrq gives a result or a request (R255). -/
def State.askedRail (s : State) (ra : Reg) : Nat := (s.requested ra).getD (railOf s.cur)

/-- A thing done earlier in a reference cycle that a rule puts after an instruction of the same cycle: a write of OWNCTL by a higher master number (R391), a request from a higher SECTID (R255), a commit that sets flags before a write that clears them (R108), a stretch before a write of COUNT (R172). -/
def Mark.bars (s : State) (i : Instr) : Mark → Bool
  | .own k => match ownWriter i with
    | some m => decide (m < k)
    | none => false
  | .reset _ => false
  | .request g sid => match i with
    | .pwrq _ ra => s.askedRail ra == g && decide (s.cur < sid)
    | _ => false
  | .commit l => match i with
    | .syswr .flags _ => l.contains s.cur
    | _ => false
  | .stretch sid => match i with
    | .syswr .stretchcnt _ => sid == s.cur
    | _ => false
  | .dither _ _ _ => false

/-- An instruction comes too late in this reference cycle: it belongs to the next. -/
def State.barred (s : State) (i : Instr) : Bool := s.now.any (Mark.bars s i)

/-- The sectors whose FLAGS a commit of a block's waves has set: those of the records that are gone (R108). -/
def State.flagged (s t : State) (b : BlkRef) : List Nat :=
  let recs := fun (x : State) => ((x.task? b.task).elim [] Task.wrecs).filter fun r => r.b == b
  ((recs s).filter fun r => !(recs t).contains r).flatMap fun r => r.flags.map Prod.fst

/-- What an instruction from s to t leaves to be ordered in its reference cycle. -/
def State.marks (s t : State) (i : Instr) : List Mark :=
  (match ownWriter i with
  | some m => [.own m]
  | none => []) ++
  (match s.resetOf i with
  | some c => [.reset c]
  | none => []) ++
  match i with
  | .pwrq _ ra => [.request (s.askedRail ra) s.cur]
  | .waveCommit b _ => [.commit (s.flagged t b)]
  | .ownerShareRelease b _ _ => [.commit (s.flagged t b)]
  | .regionStretch sid => [.stretch sid.toNat]
  | _ => []

/-- The registers after a warm command that came upon a fatal event of the same reference cycle: one reset in all, with its count and its LOST (R428). -/
def State.oneReset (s t : State) (i : Instr) : Regs :=
  if s.resetOf i = some 3 ∧ s.now.filterMap Mark.cause? = [4] then { t.regs with warmCnt := s.regs.warmCnt, lost := s.regs.lost } else t.regs

/-- The outcome of an instruction with its marks. -/
def State.noted (s : State) (i : Instr) (r : Host.Outcome State Fault Refusal) : Host.Outcome State Fault Refusal :=
  match r with
  | .next t => .next { t with regs := s.oneReset t i, now := t.now ++ s.marks t i }
  | .fault f => .fault f
  | .refused f => .refused f

/-- An instruction on an agent's turn. One that comes too late in this reference cycle takes its turn in the next, and a reset that another has outdone does not come. -/
def State.perform (s : State) (who : Agent) (i : Instr) : Host.Outcome State Fault Refusal :=
  if s.barred i then .next { s with agenda := ⟨1, who⟩ :: s.agenda }
  else if s.outdone i then .next s
  else s.noted i (exec i s)

/-- Time passes: the marks are those of one reference cycle. -/
def State.atCyc (s : State) (cyc : Nat) : State := { s with cyc := cyc, now := if s.cyc = cyc then s.now else [] }

/-- A control thread's turn. -/
def State.threadTurn (s : State) (sid : BitVec 8) : Host.Outcome State Fault Refusal :=
  match s.ctlTurn sid.toNat with
  | .exec i u => u.perform (.thread sid) i
  | .done u => .next u

/-- What an agent does on its turn. A turn that names an event never names an instruction. -/
def State.act (s : State) : Agent → Host.Outcome State Fault Refusal
  | .thread sid => s.threadTurn sid
  | .slot r => s.slotTurn r
  | .event i => if (encode i).isNone then s.perform (.event i) i else .next s
  | .upset u => .next (s.upset u)

/-- A turn: the timed events that fall within it come first, each at its time. -/
def State.takeTurn (s : State) (t : Turn) : Host.Outcome State Fault Refusal :=
  match earliest s.dues with
  | some (d, i) =>
    if d ≤ s.cyc + t.dt then
      let now := max s.cyc d
      runDue i { s.atCyc now with agenda := ⟨t.dt - (now - s.cyc), t.who⟩ :: s.agenda }
    else (s.atCyc (s.cyc + t.dt)).act t.who
  | none => (s.atCyc (s.cyc + t.dt)).act t.who

/-- One step: a placement opportunity that has come (R187), else the next turn. R432 leaves the latency of a placement open: here it is zero, for the opportunity is taken in the step after the one that brought it, with no cycle between and no other party first. DESIGN CHOICE (log 125). -/
def State.turnStep (s : State) : Host.Outcome State Fault Refusal :=
  if s.placeDue then .next s.placement
  else match s.nextTurn with
    | (some t, u) => u.takeTurn t
    | (none, u) => .next u

/-! ### A word placed where the next step runs it -/

/-- A control word in sector 0's fetch block at its pc, with its thread ready to go on. -/
def State.withCtlWord (s : State) (w : Word) : State :=
  let x := s.sec 0
  let th := { x.th with
    live := true, halted := false, stopped := false, wait := .none, notice := none, word := none
    fblk := some { base := x.th.pc.toNat, bytes := bytesOf 8 w.toNat } }
  { s.setSec 0 { x with v := true, th := th } with placeDue := false, agenda := [⟨0, .thread 0⟩] }

/-- A fabric word as the one slot of a block that sector 0 holds active for task 0. -/
def State.withFabWord (s : State) (w : Word) : State :=
  let sh : Share := { image := { blks := [{ words := [w] }] }, sched := [[{}]] }
  let x : Sector := { s.sec 0 with v := true, task := 0, inst := 0, s4 := 0, s6 := 0, act := some sh }
  let t : Task := { id := 0, launch := 0, ctx := x.ctx, idx := 0, insts := [{}], nsect := 1 }
  { s.setSec 0 x with tasks := [t], placeDue := false, agenda := [⟨0, .slot ⟨⟨0, 0, 0, 0, 0⟩, 0⟩⟩] }

/-- The state in which the next step runs a given word: a control word as sector 0's next one, else a fabric slot's word. -/
def State.withWord (s : State) (w : Word) : State :=
  match decodeCtl w with
  | some _ => s.withCtlWord w
  | none => s.withFabWord w

end Sys2Proof.Machine
end

