-- ==== Sys2Proof/Safety.lean ====
section
/-! DEFINITION. The terms that statements use: what it is for the machine to go on, what a step leaves unchanged, and the conditions under which an instruction completes. -/

namespace Sys2Proof.Machine

open Sys2Proof

/-- The machine goes on to a state that meets a condition. -/
def goesOn (r : Host.Outcome State Fault Refusal) (p : State → Prop) : Prop := ∃ t, r = .next t ∧ p t

/-! ### Frames of control words -/

/-- Nothing differs outside the thread of the acting sector: no other sector, nothing else of that sector, no byte of memory, no other part of the state. -/
def ThreadOnly (s t : State) : Prop :=
  ({ t with sectors := s.sectors } : State) = s ∧ (∀ k, k ≠ s.cur → t.sec k = s.sec k) ∧
  ({ t.sec s.cur with th := s.th } : Sector) = s.sec s.cur ∧ ∀ a, t.rdByte a = s.rdByte a

/-- Nothing of the acting thread differs but its program counter and the wait it was in. -/
def PcOnly (s t : State) : Prop :=
  ThreadOnly s t ∧ ({ t.th with pc := s.th.pc, wait := s.th.wait, word := s.th.word } : Thread) = s.th

/-- Besides the program counter, nothing differs but one scalar register of the acting thread. -/
def ScalarFrame (rd : Reg) (s t : State) : Prop :=
  ThreadOnly s t ∧ (∀ r, r ≠ rd → t.rdS r = s.rdS r) ∧
  ({ t.th with pc := s.th.pc, wait := s.th.wait, word := s.th.word, regs := s.th.regs } : Thread) = s.th

/-- Besides the program counter, nothing differs but one predicate register of the acting thread. -/
def PredFrame (pd : PReg) (s t : State) : Prop :=
  ThreadOnly s t ∧ (∀ p, p ≠ pd → t.rdP p = s.rdP p) ∧
  ({ t.th with pc := s.th.pc, wait := s.th.wait, word := s.th.word, preds := s.th.preds } : Thread) = s.th

/-- The word writes one scalar register, where s0 discards the value (R44), goes on to the next word, and changes nothing else. -/
def WritesScalar (s : State) (i : Instr) (rd : Reg) (v : Word) : Prop :=
  ∃ t, exec i s = .next t ∧ t.rdS rd = (if rd = 0 then 0 else v) ∧ t.pc = s.pc + 8 ∧ ScalarFrame rd s t

/-- The word writes one predicate register, where p0 discards the value (R44), goes on to the next word, and changes nothing else. -/
def WritesPred (s : State) (i : Instr) (pd : PReg) (b : Bool) : Prop :=
  ∃ t, exec i s = .next t ∧ t.rdP pd = (pd == 0 || b) ∧ t.pc = s.pc + 8 ∧ PredFrame pd s t

/-- The word goes on to the next word and changes nothing else. -/
def OnlyAdvances (s : State) (i : Instr) : Prop := ∃ t, exec i s = .next t ∧ t.pc = s.pc + 8 ∧ PcOnly s t

/-- The word goes to an address and changes nothing else. -/
def OnlyJumps (s : State) (i : Instr) (a : Word) : Prop := ∃ t, exec i s = .next t ∧ t.pc = a ∧ PcOnly s t

/-- The word takes a trap. -/
def Traps (s : State) (i : Instr) (c : Cause) (v : Word) : Prop := exec i s = .next (s.takeTrap c v)

/-- The word waits: nothing changes. -/
def Waits (s : State) (i : Instr) : Prop := exec i s = .next s

/-- The words of a control instruction have this opcode and, in format C.R, this fn code. -/
def OpIs (i : Instr) (op fn : Nat) : Prop := ∀ g w, encodeCtl g i = some w → w.toNat / 2 ^ 56 = op ∧ w.toNat / 2 ^ 24 % 256 = fn

/-- What a condition code says of two values (R53). -/
def CondMeans (c : Cond) (a b : Word) : Prop :=
  match c with
  | .eq => a = b
  | .ne => a ≠ b
  | .lt => a.toInt < b.toInt
  | .ge => b.toInt ≤ a.toInt
  | .ltn => a.toNat < b.toNat
  | .gen => b.toNat ≤ a.toNat
  | .le => a.toInt ≤ b.toInt
  | .gt => b.toInt < a.toInt
  | .len => a.toNat ≤ b.toNat
  | .gtn => b.toNat < a.toNat

/-! ### Accesses of control words to memory -/

/-- No physical error waits for an access and no transfer is being retried (R404, R405). -/
def Quiet (s : State) : Prop := s.upsets = [] ∧ s.umber.retries = []

/-- The acting thread's aligned access of n bytes at an address is translated to a place that it reaches at once (R267, R288, R361). -/
def Reaches (s : State) (ea : Word) (n : Nat) (acc : Acc) (t : Tgt) : Prop :=
  ea.toNat % n = 0 ∧ s.xlate s.ctxId s.cur ea acc = .ok t ∧ s.unreachable t = false ∧ (acc ≠ .write → s.readHeld s.cur t = false) ∧ Quiet s

/-- Nothing differs but the acting thread, its core's range cache, the record of when a staged flash page was last used, and what the flags of the frame allow: bytes of memory with their poison. -/
def AccessFrame (s t : State) : Prop :=
  ({ t with sectors := s.sectors, flash := s.flash, mem := s.mem, poison := s.poison } : State) = s ∧
  ({ t.flash with staged := s.flash.staged } : Flash) = s.flash ∧ (∀ k, k ≠ s.cur → t.sec k = s.sec k) ∧
  ({ t.sec s.cur with th := s.th, rcache := (s.sec s.cur).rcache } : Sector) = s.sec s.cur

/-- Every byte of memory outside a run reads as before. -/
def KeepsOutside (s t : State) (a n : Nat) : Prop := ∀ b, b < a ∨ a + n ≤ b → t.rdByte b = s.rdByte b

/-- Every byte of memory reads as before. -/
def KeepsMemory (s t : State) : Prop := ∀ b, t.rdByte b = s.rdByte b

/-- A run of bytes holds a number, least significant byte first. -/
def HoldsAt (t : State) (a n v : Nat) : Prop := ∀ i, i < n → (t.rdByte (a + i)).toNat = v / 2 ^ (8 * i) % 256

/-- Besides the program counter, nothing of the acting thread differs but one scalar register. -/
def ThreadScalar (rd : Reg) (s t : State) : Prop :=
  (∀ r, r ≠ rd → t.rdS r = s.rdS r) ∧
  ({ t.th with pc := s.th.pc, wait := s.th.wait, word := s.th.word, regs := s.th.regs } : Thread) = s.th

/-- Nothing of the acting thread differs but its program counter. -/
def ThreadPc (s t : State) : Prop :=
  ({ t.th with pc := s.th.pc, wait := s.th.wait, word := s.th.word } : Thread) = s.th

/-- A read or an atomic completes: the register written, the next word, and the frame; memory is what the caller says. -/
def Accessed (s t : State) (rd : Reg) (v : Word) : Prop :=
  t.rdS rd = (if rd = 0 then 0 else v) ∧ t.pc = s.pc + 8 ∧ ThreadScalar rd s t ∧ AccessFrame s t

/-- What an atomic's operation gives from the old value and the operand of n bytes (R56). -/
def AtomicGives (op : AmoOp) (n old x v : Nat) : Prop :=
  match op with
  | .add => v = (old + x) % 2 ^ (8 * n)
  | .and => v = old &&& x
  | .or => v = old ||| x
  | .xor => v = old ^^^ x
  | .min => v = if (BitVec.ofNat (8 * n) x).toInt < (BitVec.ofNat (8 * n) old).toInt then x else old
  | .max => v = if (BitVec.ofNat (8 * n) old).toInt < (BitVec.ofNat (8 * n) x).toInt then x else old
  | .minn => v = min old x
  | .maxn => v = max old x
  | .swap => v = x

/-- No launch waits for a dependence or for its completion version. -/
def NoLaunchWaits (s : State) : Prop := ∀ l ∈ s.launches, l.st ≠ .depwait ∧ l.st ≠ .closing

/-! ### Descriptors -/

/-- The word writes one descriptor register, goes on to the next word, and changes nothing else of its thread, no byte of memory, and outside it nothing but what an access leaves. -/
def WritesDesc (s : State) (i : Instr) (d : DReg) (v : Desc) : Prop :=
  ∃ t, exec i s = .next t ∧ t.rdD d = v ∧ t.pc = s.pc + 8 ∧ (∀ e, e ≠ d → t.rdD e = s.rdD e) ∧
    ({ t.th with pc := s.th.pc, wait := s.th.wait, word := s.th.word, descs := s.th.descs } : Thread) = s.th ∧
    KeepsMemory s t ∧ AccessFrame s t

/-! ### Waits of control words -/

/-- The word waits: its thread records what it waits for, and nothing else changes. -/
def WaitsFor (s : State) (i : Instr) (w : Wait) : Prop :=
  ∃ t, exec i s = .next t ∧ t.th = { s.th with wait := w } ∧ ThreadOnly s t

/-- The chunk i places after the one that S[sa] names (R317). -/
def chunkOf (a : Word) (i : Nat) : Nat := (a.toNat % 8192 + i) % 8192

/-- Every chunk of a mask has committed (R317). -/
def MaskComplete (s : State) (a m : Word) : Prop := ∀ i, i < 64 → m.getLsbD i = true → (s.sec s.cur).bit (chunkOf a i) = true

/-- A chunk of the acting sector belongs to an operation: the latest that has cleared its bit at issue (R317). -/
def ChunkOf (s : State) (k : Nat) (o : EngOp) : Prop := ∃ id, Tab.find (s.sec s.cur).chunkOp k = some id ∧ s.op? id = some o

/-- A register names the promised time of an operation of the acting sector, as it was given or as it stood after an earlier save (R249). -/
def Promises (s : State) (v : Nat) (o : EngOp) : Prop := o ∈ s.ops ∧ o.ofSector (s.sec s.cur) = true ∧ (o.promise = v ∨ o.due = v ∨ v ∈ o.given)

/-- The time at which a bmwait with a promise is due: the value itself, or the latest time at which an operation that it names now stands (R249, R317). -/
def DeadlineIs (s : State) (v t : Nat) : Prop :=
  v ≤ t ∧ (∀ o, Promises s v o → o.due ≤ t) ∧ (t = v ∨ ∃ o, Promises s v o ∧ o.due = t)

/-! ### Rings -/

/-- The acting sector's ring header, in scratch that no queue reserves and that holds no poison (R272). -/
def RingReady (s : State) (d : Desc) : Prop :=
  d.tag = tagRing ∧ s.poisonIn (scratchAt s.cur d.ringHdr) 16 = false ∧ s.reserved (scratchAt s.cur d.ringHdr) 16 = false

/-- FILL of a ring. -/
def ringFill (s : State) (d : Desc) : Word := s.rdWord (scratchAt s.cur d.ringHdr)
/-- FREE of a ring. -/
def ringFree (s : State) (d : Desc) : Word := s.rdWord (scratchAt s.cur d.ringHdr + 8)

/-- The acting thread is the last of its instance's threads to reach a word that they meet at (R227). -/
def LastToMeet (s : State) (k : Meet) : Prop :=
  s.ownInst.host = none ∧ s.ownInst.drain = 0 ∧ (∀ v, s.th.answer ≠ some (k.code, v)) ∧
    ∀ j ∈ s.instSids, j ≠ s.cur → (s.sec j).th.reached k (s.th.count k + 1) = true

/-! ### Engine words -/

/-- The chunk bits that a scratch destination covers are cleared (R307). -/
def ChunksCleared (s t : State) (off len : Nat) : Prop :=
  ∀ k, (t.sec s.cur).bit k = if off / 512 ≤ k ∧ k < off / 512 + (len + 511) / 512 then false else (s.sec s.cur).bit k

/-- Nothing differs but the acting thread's registers, what its sector notes of its chunks and its translations, the list of operations, and the counts that give identities and free values. -/
def IssueFrame (s t : State) : Prop :=
  ({ t with sectors := s.sectors, ops := s.ops, nextId := s.nextId, fresh := s.fresh } : State) = s ∧ (∀ k, k ≠ s.cur → t.sec k = s.sec k) ∧
  ({ t.sec s.cur with th := s.th, rcache := (s.sec s.cur).rcache, bitmap := (s.sec s.cur).bitmap, chunkOp := (s.sec s.cur).chunkOp } : Sector) = s.sec s.cur ∧
  ({ t.th with pc := s.th.pc, wait := s.th.wait, word := s.th.word, regs := s.th.regs, descs := s.th.descs, meets := s.th.meets } : Thread) = s.th

/-- The acting sector has room for an operation, and no store of its thread waits for its acknowledgements (R305, R340). -/
def MayIssue (s : State) : Prop := s.engRoom = true ∧ s.writesDone s.cur = true

/-- An operation with what its issue gives it: its identity, its issuer's sector, context and gang, and its promised time. -/
def issuedOp (s : State) (o : EngOp) (p : Nat) : EngOp :=
  let x := s.sec s.cur
  let k := s.task? x.task
  { o with
    id := s.nextId, sid := s.cur, ctx := x.ctx, task := x.task, s4 := x.s4, tidx := (k.map Task.idx).getD 0, parties := (k.map Task.nsect).getD 0
    promise := p, due := p }

/-- The word issues an operation (R305): the operation is listed last with what the issue gives it, the handle register holds its handle, the result register the promised time, which is 32 CYC and the engine's estimate from now, and no byte of memory changes. The bits of the chunks of a scratch destination are cleared, and no bit changes of an operation without one (R307). -/
def Issues (s : State) (i : Instr) (h : DReg) (rd : Reg) (o : EngOp) : Prop :=
  ∃ t n, exec i s = .next t ∧
    let p : Word := s.cycW + 32 + (Config.promiseExtra n).setWidth 64
    t.pc = s.pc + 8 ∧ KeepsMemory s t ∧ t.rdD h = engHandle s.nextId ∧ t.rdS rd = (if rd = 0 then 0 else p) ∧
    (∀ r, r ≠ rd → t.rdS r = s.rdS r) ∧ (∀ e, e ≠ h → t.rdD e = s.rdD e) ∧ t.nextId = s.nextId + 1 ∧ t.ops = s.ops ++ [issuedOp s o p.toNat] ∧
    IssueFrame s t ∧ (∀ off, o.kind ≠ .scat → o.tgt = .scratch off → ChunksCleared s t off o.len) ∧
    ((o.kind = .scat ∨ ∀ off, o.tgt ≠ .scratch off) → ∀ k, (t.sec s.cur).bit k = (s.sec s.cur).bit k)

/-- An address that a scatter writes passes its check: it stands on no SF page, and its entry is not being replaced (R306, R364). -/
def ScatMay (s : State) (a : Word) : Prop :=
  ∀ i e, a.toNat < 2 ^ 55 → findRt (s.ctx s.ctxId).rt a.toNat = some (i, e) → s.rtHeld s.ctxId i = false ∧ (pwValid e.pw e.frame && pwKind e.pw == 1) = false

/-- The operation that a copy, gather, scatter or collective word lists. -/
def listedOp (s : State) (d : Desc) (base : Word) (len : Nat) (kind : EngKind) (tgt : EngTo) : EngOp :=
  { id := 0, kind := kind, sid := 0, ctx := 0, task := 0, desc := d, base := base, tgt := tgt, len := len, index := s.indexList d }

/-- The status word of a flash operation or a publish lies aligned on a versioned page that the context may read and write, translated to a place (R314, R348). -/
def StatusWordAt (s : State) (a : Word) (t : Tgt) : Prop :=
  a.toNat % 8 = 0 ∧ s.xlate s.ctxId s.cur a .both = .ok t ∧ t.ver = true

/-! ### Firings of fabric slots -/

/-- The acting slot of a word is in force, and its region stands on no poisoned site. -/
def SlotActs (s : State) (w : FabW) (f : Fab) : Prop := s.fab? w = some f ∧ s.badSite f = false

/-- A token of each fed position listed stands at its head: at least one, and none poisoned. -/
def TokensAt (s : State) (f : Fab) (poss : List Nat) (l : List (Nat × Token)) : Prop :=
  s.heads f poss = some l ∧ l ≠ [] ∧ ∀ p ∈ l, p.2.poison = false

/-- No EOS stands at a, b or p. -/
def NoEos (l : List (Nat × Token)) : Prop := ∀ p ∈ l, p.1 < 3 → p.2.kind ≠ .eos

/-- A slot can fire: its tokens stand at its inputs with the tags it needs. -/
def FiresOn (s : State) (w : FabW) (f : Fab) (need : List (Nat × BitVec 4)) (l : List (Nat × Token)) : Prop :=
  SlotActs s w f ∧ TokensAt s f [0, 1, 2, 3] l ∧ NoEos l ∧ tagsOk need l = true

/-- The state after an element firing: the tokens consumed, the flags of its result raised for its wave, and under dithering the cell's phase advanced. -/
def firedState (u : State) (f : Fab) (l : List (Nat × Token)) (fl : FlagSet) : State :=
  let v := (u.takeAll f l).raise f (waveOf l) fl
  if f.w.rnd = 5 then v.stepPhase f else v

/-- A firing leaves all control threads, memory, and everything but tasks, sectors, the next identity and the marks of its reference cycle as they were. -/
def FabricFrame (s t : State) : Prop :=
  ({ t with tasks := s.tasks, sectors := s.sectors, nextId := s.nextId, now := s.now } : State) = s ∧ (∀ j, (t.sec j).th = (s.sec j).th) ∧ KeepsMemory s t

/-- An element operation with room for its result consumes its tokens and sends the result, with its tag and wave, to every target; under dithering, where no later stage of its cell has taken the counter in this cycle (R104). -/
def ElementResult (s : State) (i : Instr) (w : FabW) (need : List (Nat × BitVec 4)) (make : Pay → Pay → Pay → Nat → Made) : Prop :=
  ∀ f l u, FiresOn s w f need l → s.ditherLate f = false →
    let m := make (f.operand l 0) (f.operand l 1) (f.operand l 2) (s.phaseOf f)
    s.sendAll f (f.both (dataToken m.tag m.pay (waveOf l))) = some u →
    exec i s = .next (firedState u f l m.fl) ∧ FabricFrame s (firedState u f l m.fl)

/-- The state after a router operator, a memory node or a matrix word has passed tokens on. -/
def passedState (u : State) (f : Fab) (l : List (Nat × Token)) (o : OpSt) : State :=
  (u.takeAll f l).setOpSt f (f.noteEos o l)

/-- The slot consumes the tokens listed, sends the others, and keeps its state as given. -/
def Passes (s : State) (i : Instr) (f : Fab) (l : List (Nat × Token)) (out : List (BitVec 10 × Token)) (o : OpSt) : Prop :=
  ∀ u, s.sendAll f out = some u → exec i s = .next (passedState u f l o) ∧ FabricFrame s (passedState u f l o)

/-- An access of a memory node reaches its place at once: nothing it waits for, its alignment, its translation, and no error that strikes (R320). -/
def NodeReaches (s : State) (f : Fab) (va : Word) (align n : Nat) (acc : Acc) (t : Tgt) : Prop :=
  (s.opSt f).wait = none ∧ (s.opSt f).st = 0 ∧ va.toNat % align = 0 ∧ s.xlate (s.fabCtx f) f.sid va acc = .ok t ∧ s.unreachable t = false ∧
    s.flashHeld t = false ∧ (acc ≠ .read → t.isScratch = true → s.reserved t.phys n = false) ∧ Quiet s

/-- The state after a pin has sent a token: its port changed, and its debt to the wave paid. -/
def sentPin (u : State) (f : Fab) (eos : Bool) (k : PortSt → PortSt) : State :=
  let v := u.modPort f.sid f.cell k
  v.setOpSt f { v.opSt f with owe := none, pos := 0, eosSent := (v.opSt f).eosSent || eos }

/-- The position of a port's active binding. -/
def PortSt.pos? (p : PortSt) : Option Nat := p.act.map Bind.pos

/-- The element operations, each with the tags that its operands need (R64, R120 to R137). -/
def elementOps : List ((FabW → Instr) × (FabW → List (Nat × BitVec 4))) :=
  let ab := fun (w : FabW) => needAB w.fmt
  ([.vadd, .vsub, .vaddsat, .vsubsat, .vmul, .vmulh, .vabs, .vneg, .vmin, .vmax, .vand, .vor, .vxor, .vnot, .vshl, .vshr, .vsra, .vclz,
    .vpopc, .vcmp, .vred, .fadd, .fsub, .fmul, .fmin, .fmax, .fabs, .fneg, .fcmp, .frcp, .frsq, .fsqrt, .fexp2, .flog2, .fexpo, .fred,
    .amax, .vbc, .vrot, .vlane].map fun i => (i, ab)) ++
  [(.vmad, fun w => (2, if w.x = 0 then w.fmt else wideTag w.fmt) :: needAB w.fmt), (.vsel, fun w => (2, 15) :: needAB w.fmt),
   (.ffma, fun w => (2, w.fmt) :: needAB w.fmt), (.fldx, fun w => [(0, w.fmt), (1, expTag w.fmt)]), (.cvt, fun w => [(0, w.srcFmt)]),
   (.pack, fun w => [(0, w.srcFmt), (1, w.fmt)]), (.unpk, fun w => [(0, w.srcFmt)]), (.scl, fun w => [(0, w.srcFmt), (1, 14)]),
   (.vshuf, fun w => [(0, w.fmt), (1, 6)])]

/-! ### Exact values -/

/-- The rational number that a finite reading stands for. -/
def exactOf (neg : Bool) (m : Nat) (e : Int) : ℚ := (if neg then -1 else 1) * m * 2 ^ e

/-- A code with its flags is one rounding of an exact number into a format (R101 to R106, R124). -/
def OneRounding (f : BitVec 4) (rnd : BitVec 3) (sat : Bool) (idx : Nat) (r : Coded) (q : ℚ) : Prop :=
  ∃ neg m e, exactOf neg m e = q ∧ r = roundVal f rnd sat idx (.fin neg m e)

/-- Every element of w bits of a result holds one code. -/
def AllElems (w : Nat) (m : Made) (x : Nat) : Prop := ∀ k, k < 512 / w → elem w m.pay k = x

/-! ### Turns -/

/-- The next step takes a turn at once, in the state that is left when the turn is taken from the agenda or given freely: no placement opportunity has come, and no timed event falls at or before the turn's time (log 1). -/
def TurnIsNext (s : State) (t : Turn) (u : State) : Prop :=
  s.placeDue = false ∧ (∀ d ∈ s.dues, s.cyc + t.dt < d.1) ∧
  ((∃ rest, s.agenda = t :: rest ∧ u = { s with agenda := rest }) ∨
    (s.agenda = [] ∧ Config.nextTurn s.turn = some t ∧ u = { s with turn := s.turn + 1 }))

end Sys2Proof.Machine
end

