-- ==== Sys2Proof/WellFormed.lean ====
section
/-! DEFINITION. Which terms of Instr are instructions of the HX4: the reserved codes of control words (R51 and the descriptions), the rules a fabric word alone decides (R64 to R71), and the numbers that name masters and layers (R390, R8). -/

namespace Sys2Proof

/-- An instruction or event that the part can meet. -/
def Instr.wellFormed : Instr → Bool
  | .add _ _ _ => true
  | .sub _ _ _ => true
  | .mul _ _ _ => true
  | .mulh _ _ _ => true
  | .mulhn _ _ _ => true
  | .div _ _ _ => true
  | .divn _ _ _ => true
  | .rem _ _ _ => true
  | .remn _ _ _ => true
  | .and _ _ _ => true
  | .or _ _ _ => true
  | .xor _ _ _ => true
  | .shl _ _ _ => true
  | .shr _ _ _ => true
  | .sra _ _ _ => true
  | .min _ _ _ => true
  | .max _ _ _ => true
  | .minn _ _ _ => true
  | .maxn _ _ _ => true
  | .slt _ _ _ => true
  | .sltn _ _ _ => true
  | .clz _ _ => true
  | .popc _ _ => true
  | .sel _ _ _ _ => true
  | .addi _ _ _ => true
  | .andi _ _ _ => true
  | .ori _ _ _ => true
  | .xori _ _ _ => true
  | .shli _ _ _ => true
  | .shri _ _ _ => true
  | .srai _ _ _ => true
  | .slti _ _ _ => true
  | .li _ _ => true
  | .lhi _ _ _ => true
  | .cmp _ _ _ _ => true
  | .cmpi _ _ _ _ => true
  | .pand _ _ _ => true
  | .por _ _ _ => true
  | .pxor _ _ _ => true
  | .pandn _ _ _ => true
  | .porn _ _ _ => true
  | .pmov _ _ => true
  | .pnot _ _ => true
  | .j _ => true
  | .jal _ => true
  | .jr _ => true
  | .jalr _ _ => true
  | .bcc _ _ _ _ => true
  | .loop _ _ => true
  | .ld _ _ _ _ => true
  | .ldn sz _ _ _ => sz != .d
  | .st _ _ _ _ => true
  | .amo _ _ _ _ _ => true
  | .amoCas _ _ _ _ _ => true
  | .ldv sc _ _ _ => sc != .cell
  | .stv sc _ _ => sc != .cell
  | .vrcl _ _ => true
  | .fence sc => sc != .cell
  | .fenceLayer => true
  | .pfch _ _ => true
  | .cfgld _ _ _ => true
  | .cfgarm _ => true
  | .cfgsw _ => true
  | .sdrain _ => true
  | .sdrainGo _ => true
  | .sbindRd _ _ _ _ => true
  | .sbindWr _ _ _ => true
  | .sbar _ => true
  | .seos _ _ => true
  | .tinjData _ _ _ _ _ => true
  | .tinjThread _ _ => true
  | .mark _ => true
  | .sstat _ _ => true
  | .tmap _ _ => true
  | .tmapPat _ _ => true
  | .tmapRing _ _ => true
  | .tmapWin _ _ => true
  | .tmapCopy _ _ _ => true
  | .cpy _ _ _ _ _ _ => true
  | .gath _ _ _ _ _ _ => true
  | .scat _ _ _ _ _ => true
  | .publ _ _ _ _ => true
  | .inst _ _ _ _ _ _ => true
  | .stage _ _ _ _ _ => true
  | .rstr _ _ _ _ => true
  | .collSum fmt sc _ _ _ _ rb => collFmtOk fmt && (sc != .gang || rb == 0)
  | .collMax fmt sc _ _ _ _ rb => collFmtOk fmt && (sc != .gang || rb == 0)
  | .collMin fmt sc _ _ _ _ rb => collFmtOk fmt && (sc != .gang || rb == 0)
  | .collGather _ sc _ _ _ _ rb => sc != .gang || rb == 0
  | .collBcast _ sc _ _ _ _ rb => sc != .gang || rb == 0
  | .twait _ => true
  | .twaitRel _ => true
  | .bmwait _ _ _ => true
  | .gbar => true
  | .sig _ => true
  | .rwaitFill _ _ _ => true
  | .rwaitFree _ _ _ => true
  | .radvFill _ _ _ => true
  | .radvFree _ _ _ => true
  | .sysrd _ _ => true
  | .syswr _ _ => true
  | .svc _ => true
  | .trap _ => true
  | .tret => true
  | .halt => true
  | .tinv sc _ => sc != .cell && sc != .domain
  | .pwrq _ _ => true
  | .nop => true
  | .vadd w => fabOk 0x01 w
  | .vsub w => fabOk 0x02 w
  | .vaddsat w => fabOk 0x03 w
  | .vsubsat w => fabOk 0x04 w
  | .vmul w => fabOk 0x05 w
  | .vmulh w => fabOk 0x06 w
  | .vmad w => fabOk 0x07 w
  | .vabs w => fabOk 0x08 w
  | .vneg w => fabOk 0x09 w
  | .vmin w => fabOk 0x0A w
  | .vmax w => fabOk 0x0B w
  | .vand w => fabOk 0x0C w
  | .vor w => fabOk 0x0D w
  | .vxor w => fabOk 0x0E w
  | .vnot w => fabOk 0x0F w
  | .vshl w => fabOk 0x10 w
  | .vshr w => fabOk 0x11 w
  | .vsra w => fabOk 0x12 w
  | .vclz w => fabOk 0x13 w
  | .vpopc w => fabOk 0x14 w
  | .vcmp w => fabOk 0x15 w
  | .vsel w => fabOk 0x16 w
  | .fadd w => fabOk 0x20 w
  | .fsub w => fabOk 0x21 w
  | .fmul w => fabOk 0x22 w
  | .ffma w => fabOk 0x23 w
  | .fmin w => fabOk 0x24 w
  | .fmax w => fabOk 0x25 w
  | .fabs w => fabOk 0x26 w
  | .fneg w => fabOk 0x27 w
  | .fcmp w => fabOk 0x28 w
  | .frcp w => fabOk 0x29 w
  | .frsq w => fabOk 0x2A w
  | .fsqrt w => fabOk 0x2B w
  | .fexp2 w => fabOk 0x2C w
  | .flog2 w => fabOk 0x2D w
  | .fldx w => fabOk 0x2E w
  | .fexpo w => fabOk 0x2F w
  | .cvt w => fabOk 0x30 w
  | .pack w => fabOk 0x31 w
  | .unpk w => fabOk 0x32 w
  | .scl w => fabOk 0x33 w
  | .amax w => fabOk 0x34 w
  | .vred w => fabOk 0x35 w
  | .fred w => fabOk 0x36 w
  | .vshuf w => fabOk 0x37 w
  | .vbc w => fabOk 0x38 w
  | .vrot w => fabOk 0x39 w
  | .vlane w => fabOk 0x3A w
  | .mma w => fabOk 0x40 w
  | .mclr w => fabOk 0x41 w
  | .mnrm w => fabOk 0x44 w
  | .mrd w => fabOk 0x42 w
  | .mdrn w => fabOk 0x43 w
  | .steer w => fabOk 0x50 w
  | .merge w => fabOk 0x51 w
  | .carry w => fabOk 0x52 w
  | .inv w => fabOk 0x53 w
  | .join w => fabOk 0x54 w
  | .fan w => fabOk 0x55 w
  | .sink w => fabOk 0x56 w
  | .iter w => fabOk 0x57 w
  | .mld w => fabOk 0x60 w
  | .mst w => fabOk 0x61 w
  | .matm w => fabOk 0x62 w
  | .mldv w => fabOk 0x63 w
  | .mstv w => fabOk 0x64 w
  | .otok w => fabOk 0x65 w
  | .pin w => fabOk 0x70 w
  | .pout w => fabOk 0x71 w
  | .pass w => fabOk 0x72 w
  | .dly w => fabOk 0x73 w
  | .const w => fabOk 0x74 w
  | .eosq w => fabOk 0x75 w
  | .waveFire _ => true
  | .waveCommit _ _ => true
  | .ownerShareRelease _ _ _ => true
  | .regionStretch _ => true
  | .sentinelWindow => true
  | .threadTokenDelivery _ _ => true
  | .wqEnable m _ _ => decide (m.toNat ≤ 4)
  | .wqDisable m _ _ => decide (m.toNat ≤ 4)
  | .doorbell m _ _ => decide (m.toNat ≤ 4)
  | .wqFaultClear m _ _ => decide (m.toNat ≤ 4)
  | .fetch _ => true
  | .scrubDone _ => true
  | .reservationStart _ => true
  | .taskEnd _ => true
  | .sectorFree _ => true
  | .blockSchedulerDecision _ => true
  | .hostDrainSwap _ => true
  | .drainSwap _ _ => true
  | .sdrainQuiescent _ _ => true
  | .groupSwitch _ _ => true
  | .sbarComplete _ => true
  | .graceDeadline _ => true
  | .takeMarker _ => true
  | .saveSnapshot _ => true
  | .saveDone _ => true
  | .railReached _ => true
  | .opSwap _ => true
  | .clockHoldEnd _ => true
  | .thermalThrottle _ _ _ => true
  | .throttleExpire _ => true
  | .ballastStart _ => true
  | .ballastLimit => true
  | .capThrottle _ _ => true
  | .emergencyThrottle _ => true
  | .emergencyEnd _ => true
  | .selfRefreshEnter _ => true
  | .chunkCommit _ _ => true
  | .engineComplete _ => true
  | .publishStep _ => true
  | .dupWritePerformed _ => true
  | .cutOver _ => true
  | .stagingFill _ _ => true
  | .installPageProgram _ _ _ => true
  | .installFinish _ => true
  | .stageBlock _ => true
  | .stageFinish _ => true
  | .leftRefill _ => true
  | .spillReplay _ _ => true
  | .faultRetry m _ => decide (m.toNat ≤ 4)
  | .faultFail m _ => decide (m.toNat ≤ 4)
  | .trapRecord _ => true
  | .traprespResume m _ => decide (m.toNat ≤ 4)
  | .traprespSkip m _ => decide (m.toNat ≤ 4)
  | .traprespHandle m _ _ => decide (m.toNat ≤ 4)
  | .traprespFail m _ => decide (m.toNat ≤ 4)
  | .rtWrite m _ _ => decide (m.toNat ≤ 4)
  | .rtClear m _ _ => decide (m.toNat ≤ 4)
  | .rtRead m _ _ => decide (m.toNat ≤ 4)
  | .rtSwap => true
  | .ctxCreate m _ _ => decide (m.toNat ≤ 4)
  | .ctxEnd m _ _ => decide (m.toNat ≤ 4)
  | .ctxFreed _ => true
  | .handleLoad m _ _ => decide (m.toNat ≤ 4)
  | .handleUnload m _ _ => decide (m.toNat ≤ 4)
  | .unloadDone => true
  | .keyLoad m _ _ => decide (m.toNat ≤ 4)
  | .keyClear m _ _ => decide (m.toNat ≤ 4)
  | .hostWindowAccess m _ _ _ => decide (m.toNat ≤ 4)
  | .claim m _ _ => decide (m.toNat ≤ 4)
  | .release m _ => decide (m.toNat ≤ 4)
  | .offer m _ _ => decide (m.toNat ≤ 4)
  | .offerLapse => true
  | .leaseExpire => true
  | .peerAccess _ _ _ _ => true
  | .linkTimeout _ => true
  | .attestRequest m _ _ => decide (m.toNat ≤ 4)
  | .attestReady => true
  | .mctpRead _ _ => true
  | .mctpWrite _ _ _ => true
  | .mctpCertRead _ _ => true
  | .busRetry _ _ => true
  | .laneSwapDone _ _ => true
  | .rowSpareDone _ => true
  | .layerDisable _ layer => decide (layer.toNat < 3)
  | .powerOn => true
  | .pcieFundamentalReset => true
  | .coldReset m _ => decide (m.toNat ≤ 4)
  | .warmReset m _ => decide (m.toNat ≤ 4)
  | .fatalReset _ => true
  | .boot => true
  | .flscrub m _ => decide (m.toNat ≤ 4)
  | .flscrubDone => true
  | .twaitDeadline _ => true
  | .bmwaitDeadline _ => true
  | .registerWrite m _ _ => decide (m.toNat ≤ 4)
  | .energyRepaid _ => true

end Sys2Proof
end

