-- ==== Sys2Proof/Certificates/Slice0/Obligations.lean ====
section
/-! DEFINITION. The statements for the provers. -/

open Sys2Proof Sys2Proof.Machine

/-- R113, R44, R112: the integer group. Every code writes its result, s0 discards it, the next word follows, and nothing else changes; each word has opcode 0x01 and its fn code. -/
def Obligations.IntegerGroupResults : Prop := ∀ (rd ra rb : Reg) (p : PReg) (s : Machine.State),
  let a := s.rdS ra
  let b := s.rdS rb
  WritesScalar s (.add rd ra rb) rd (BitVec.ofNat 64 (a.toNat + b.toNat)) ∧
  WritesScalar s (.sub rd ra rb) rd (BitVec.ofInt 64 (a.toInt - b.toInt)) ∧
  WritesScalar s (.mul rd ra rb) rd ((BitVec.ofInt 128 (a.toInt * b.toInt)).extractLsb' 0 64) ∧
  WritesScalar s (.mulh rd ra rb) rd ((BitVec.ofInt 128 (a.toInt * b.toInt)).extractLsb' 64 64) ∧
  WritesScalar s (.mulhn rd ra rb) rd ((BitVec.ofNat 128 (a.toNat * b.toNat)).extractLsb' 64 64) ∧
  WritesScalar s (.div rd ra rb) rd (if b.toNat = 0 then 0xFFFFFFFFFFFFFFFF
    else if a.toInt = -2 ^ 63 ∧ b.toInt = -1 then a else BitVec.ofInt 64 (a.toInt.tdiv b.toInt)) ∧
  WritesScalar s (.divn rd ra rb) rd (if b.toNat = 0 then 0xFFFFFFFFFFFFFFFF else BitVec.ofNat 64 (a.toNat / b.toNat)) ∧
  WritesScalar s (.rem rd ra rb) rd (if b.toNat = 0 then a
    else if a.toInt = -2 ^ 63 ∧ b.toInt = -1 then 0 else BitVec.ofInt 64 (a.toInt - b.toInt * a.toInt.tdiv b.toInt)) ∧
  WritesScalar s (.remn rd ra rb) rd (if b.toNat = 0 then a else BitVec.ofNat 64 (a.toNat % b.toNat)) ∧
  WritesScalar s (.and rd ra rb) rd (a &&& b) ∧
  WritesScalar s (.or rd ra rb) rd (a ||| b) ∧
  WritesScalar s (.xor rd ra rb) rd (a ^^^ b) ∧
  WritesScalar s (.shl rd ra rb) rd (BitVec.ofNat 64 (a.toNat * 2 ^ (b.toNat % 64))) ∧
  WritesScalar s (.shr rd ra rb) rd (BitVec.ofNat 64 (a.toNat / 2 ^ (b.toNat % 64))) ∧
  WritesScalar s (.sra rd ra rb) rd (BitVec.ofInt 64 (a.toInt / 2 ^ (b.toNat % 64))) ∧
  WritesScalar s (.min rd ra rb) rd (if a.toInt < b.toInt then a else b) ∧
  WritesScalar s (.max rd ra rb) rd (if b.toInt < a.toInt then a else b) ∧
  WritesScalar s (.minn rd ra rb) rd (if a.toNat < b.toNat then a else b) ∧
  WritesScalar s (.maxn rd ra rb) rd (if b.toNat < a.toNat then a else b) ∧
  WritesScalar s (.slt rd ra rb) rd (if a.toInt < b.toInt then 1 else 0) ∧
  WritesScalar s (.sltn rd ra rb) rd (if a.toNat < b.toNat then 1 else 0) ∧
  (∃ n : Nat, WritesScalar s (.clz rd ra) rd (BitVec.ofNat 64 n) ∧ n ≤ 64 ∧ a.toNat < 2 ^ (64 - n) ∧ (a.toNat ≠ 0 → 2 ^ (63 - n) ≤ a.toNat)) ∧
  WritesScalar s (.popc rd ra) rd (BitVec.ofNat 64 ((List.range 64).countP fun k => a.getLsbD k)) ∧
  WritesScalar s (.sel rd p ra rb) rd (if s.rdP p then a else b) ∧
  ∀ x ∈ [(Instr.add rd ra rb, 0x00), (.sub rd ra rb, 0x01), (.mul rd ra rb, 0x02), (.mulh rd ra rb, 0x03), (.mulhn rd ra rb, 0x04), (.div rd ra rb, 0x05),
    (.divn rd ra rb, 0x06), (.rem rd ra rb, 0x07), (.remn rd ra rb, 0x08), (.and rd ra rb, 0x09), (.or rd ra rb, 0x0A), (.xor rd ra rb, 0x0B),
    (.shl rd ra rb, 0x0C), (.shr rd ra rb, 0x0D), (.sra rd ra rb, 0x0E), (.min rd ra rb, 0x0F), (.max rd ra rb, 0x10), (.minn rd ra rb, 0x11),
    (.maxn rd ra rb, 0x12), (.slt rd ra rb, 0x13), (.sltn rd ra rb, 0x14), (.clz rd ra, 0x15), (.popc rd ra, 0x16), (.sel rd p ra rb, 0x17)],
    OpIs x.1 0x01 x.2

/-- R113: wherever the divisor is not 0 and the quotient fits, the dividend is the divisor times what div writes plus what rem writes, and the remainder takes the sign of the dividend. -/
def Obligations.DivisionIdentity : Prop := ∀ (s : Machine.State) (ra rb : Reg), (s.rdS rb).toInt ≠ 0 →
  ¬((s.rdS ra).toInt = -2 ^ 63 ∧ (s.rdS rb).toInt = -1) →
  ∃ t u : Machine.State, exec (.div 8 ra rb) s = .next t ∧ exec (.rem 9 ra rb) s = .next u ∧
    (s.rdS ra).toInt = (s.rdS rb).toInt * (t.rdS 8).toInt + (u.rdS 9).toInt ∧
    ((u.rdS 9).toInt = 0 ∨ ((u.rdS 9).toInt < 0 ↔ (s.rdS ra).toInt < 0))

/-- R114, R47: the immediate group, with the immediate sign-extended. -/
def Obligations.ImmediateGroupResults : Prop := ∀ (rd ra : Reg) (imm : BitVec 32) (n : BitVec 6) (s : Machine.State),
  let a := s.rdS ra
  WritesScalar s (.addi rd ra imm) rd (BitVec.ofInt 64 (a.toInt + imm.toInt)) ∧
  WritesScalar s (.andi rd ra imm) rd (a &&& BitVec.ofInt 64 imm.toInt) ∧
  WritesScalar s (.ori rd ra imm) rd (a ||| BitVec.ofInt 64 imm.toInt) ∧
  WritesScalar s (.xori rd ra imm) rd (a ^^^ BitVec.ofInt 64 imm.toInt) ∧
  WritesScalar s (.shli rd ra n) rd (BitVec.ofNat 64 (a.toNat * 2 ^ n.toNat)) ∧
  WritesScalar s (.shri rd ra n) rd (BitVec.ofNat 64 (a.toNat / 2 ^ n.toNat)) ∧
  WritesScalar s (.srai rd ra n) rd (BitVec.ofInt 64 (a.toInt / 2 ^ n.toNat)) ∧
  WritesScalar s (.slti rd ra imm) rd (if a.toInt < imm.toInt then 1 else 0) ∧
  WritesScalar s (.li rd imm) rd (BitVec.ofInt 64 imm.toInt) ∧
  WritesScalar s (.lhi rd ra imm) rd (BitVec.ofNat 64 (imm.toNat * 2 ^ 32 + a.toNat % 2 ^ 32))

/-- R115, R116, R53, R55: compares and predicate logic write one predicate, which p0 discards; the words of plog have opcode 0x0E and their fn codes. -/
def Obligations.CompareAndPredicateResults : Prop :=
  ∀ (c : Cond) (pd pa pb : PReg) (ra rb : Reg) (imm : BitVec 32) (s : Machine.State),
  (∃ v : Bool, (v = true ↔ CondMeans c (s.rdS ra) (s.rdS rb)) ∧ WritesPred s (.cmp c pd ra rb) pd v) ∧
  (∃ v : Bool, (v = true ↔ CondMeans c (s.rdS ra) (BitVec.ofInt 64 imm.toInt)) ∧ WritesPred s (.cmpi c pd ra imm) pd v) ∧
  WritesPred s (.pand pd pa pb) pd (s.rdP pa && s.rdP pb) ∧
  WritesPred s (.por pd pa pb) pd (s.rdP pa || s.rdP pb) ∧
  WritesPred s (.pxor pd pa pb) pd (s.rdP pa ^^ s.rdP pb) ∧
  WritesPred s (.pandn pd pa pb) pd (s.rdP pa && !s.rdP pb) ∧
  WritesPred s (.porn pd pa pb) pd (s.rdP pa || !s.rdP pb) ∧
  WritesPred s (.pmov pd pa) pd (s.rdP pa) ∧
  WritesPred s (.pnot pd pa) pd (!s.rdP pa) ∧
  ∀ x ∈ [(Instr.pand pd pa pb, 0x00), (.por pd pa pb, 0x01), (.pxor pd pa pb, 0x02), (.pandn pd pa pb, 0x03), (.porn pd pa pb, 0x04), (.pmov pd pa, 0x05),
    (.pnot pd pa, 0x06)], OpIs x.1 0x0E x.2

/-- R50, R218: transfers of control. A register target that is not a multiple of 8 takes MISALIGNED with the target as TRAPVAL. -/
def Obligations.TransfersSetThePc : Prop := ∀ (c : Cond) (rd ra rb : Reg) (off : BitVec 32) (s : Machine.State),
  let there := BitVec.ofInt 64 (s.pc.toInt + 8 * off.toInt)
  OnlyJumps s (.j off) there ∧
  (∃ t, exec (.jal off) s = .next t ∧ t.rdS 31 = s.pc + 8 ∧ t.pc = there ∧ ScalarFrame 31 s t) ∧
  ((s.rdS ra).toNat % 8 = 0 → OnlyJumps s (.jr ra) (s.rdS ra)) ∧
  ((s.rdS ra).toNat % 8 = 0 →
    ∃ t, exec (.jalr rd ra) s = .next t ∧ t.rdS rd = (if rd = 0 then 0 else s.pc + 8) ∧ t.pc = s.rdS ra ∧ ScalarFrame rd s t) ∧
  ((s.rdS ra).toNat % 8 ≠ 0 → Traps s (.jr ra) .misaligned (s.rdS ra) ∧ Traps s (.jalr rd ra) .misaligned (s.rdS ra)) ∧
  (CondMeans c (s.rdS ra) (s.rdS rb) → OnlyJumps s (.bcc c ra rb off) there) ∧
  (¬CondMeans c (s.rdS ra) (s.rdS rb) → OnlyAdvances s (.bcc c ra rb off)) ∧
  (∃ t, exec (.loop ra off) s = .next t ∧ t.rdS ra = (if ra = 0 then 0 else s.rdS ra - 1) ∧
    t.pc = (if s.rdS ra = 1 then s.pc + 8 else there) ∧ ScalarFrame ra s t)

/-- R288, R410: plain loads. The bytes at the translated place come back sign- or zero-extended, and no byte of memory changes. -/
def Obligations.PlainLoadsReadThePlace : Prop := ∀ (sz : Size) (rd ra : Reg) (imm : BitVec 32) (s : Machine.State) (t : Tgt),
  let n := szBytes sz
  let v := natOf (s.rdTgt t n)
  Reaches s (s.rdS ra + imm.signExtend 64) n .read t → s.tgtPoison t n = false →
  (∃ u, exec (.ld sz rd ra imm) s = .next u ∧ KeepsMemory s u ∧
    Accessed s u rd (BitVec.ofInt 64 (if v < 2 ^ (8 * n - 1) then (v : Int) else v - 2 ^ (8 * n)))) ∧
  (∃ u, exec (.ldn sz rd ra imm) s = .next u ∧ KeepsMemory s u ∧ Accessed s u rd (BitVec.ofNat 64 v))

/-- R288, R282: a plain store to a page that is not read-duplicated puts the low bytes of the register at the translated place, least significant first, and changes no other byte; on a read-duplicated page it is held for its acknowledgements and changes no byte yet. -/
def Obligations.PlainStoresWriteThePlace : Prop := ∀ (sz : Size) (rv ra : Reg) (imm : BitVec 32) (s : Machine.State) (t : Tgt),
  let n := szBytes sz
  Reaches s (s.rdS ra + imm.signExtend 64) n .write t → s.storeBarred t n = false →
  (t.rdup = false → ∃ u, exec (.st sz rv ra imm) s = .next u ∧ u.pc = s.pc + 8 ∧ HoldsAt u t.phys n (s.rdS rv).toNat ∧
    KeepsOutside s u t.phys n ∧ ThreadPc s u ∧ AccessFrame s u) ∧
  (t.rdup = true → ∃ u, exec (.st sz rv ra imm) s = .next u ∧ u.pc = s.pc + 8 ∧ KeepsMemory s u ∧ ThreadPc s u ∧
    (∃ d, u.dups = s.dups ++ [d] ∧ d.sid = s.cur ∧ d.phys = t.phys ∧ natOf d.data = (s.rdS rv).toNat % 2 ^ (8 * n)) ∧
    AccessFrame s { u with dups := s.dups })

/-- R56, R290: an atomic gives the old value, zero-extended, to its register and leaves the operation's result in memory; a compare-and-swap writes only where the old value is the expected one. That one on a read-duplicated page is performed at once is the model's choice (log 38). -/
def Obligations.AtomicsUpdateThePlace : Prop :=
  ∀ (op : AmoOp) (dbl : Bool) (rd ra rb rc : Reg) (s : Machine.State) (t : Tgt),
  let n := if dbl then 8 else 4
  let old := natOf (s.rdTgt t n)
  let x := (s.rdS rb).toNat % 2 ^ (8 * n)
  Reaches s (s.rdS ra) n .both t → s.storeBarred t n = false → s.tgtPoison t n = false →
  (∃ u v, exec (.amo op dbl rd ra rb) s = .next u ∧ AtomicGives op n old x v ∧ HoldsAt u t.phys n v ∧
    KeepsOutside s u t.phys n ∧ Accessed s u rd (BitVec.ofNat 64 old)) ∧
  (old = (s.rdS rc).toNat % 2 ^ (8 * n) → ∃ u, exec (.amoCas dbl rd ra rb rc) s = .next u ∧ HoldsAt u t.phys n x ∧
    KeepsOutside s u t.phys n ∧ Accessed s u rd (BitVec.ofNat 64 old)) ∧
  (old ≠ (s.rdS rc).toNat % 2 ^ (8 * n) → ∃ u, exec (.amoCas dbl rd ra rb rc) s = .next u ∧ KeepsMemory s u ∧
    Accessed s u rd (BitVec.ofNat 64 old))

/-- R267, R277, R284, R288, R290, R31, R361, R410: the traps of loads, stores and atomics of both widths, in their order, each with the effective address as TRAPVAL: MISALIGNED, then XLATE_FAULT and PERMISSION of the translation, PERMISSION of a store or an atomic on a versioned page, an SF page or entry-queue bytes, and POISON of a load or an atomic that meets a poisoned granule. -/
def Obligations.AccessTraps : Prop := ∀ (sz : Size) (op : AmoOp) (dbl : Bool) (rd rv ra rb rc : Reg) (imm : BitVec 32) (s : Machine.State),
  let ea := s.rdS ra + imm.signExtend 64
  let n := szBytes sz
  let a := s.rdS ra
  let m := if dbl then 8 else 4
  let both := fun (c : Cause) => Traps s (.amo op dbl rd ra rb) c a ∧ Traps s (.amoCas dbl rd ra rb rc) c a
  (ea.toNat % n ≠ 0 → Traps s (.ld sz rd ra imm) .misaligned ea ∧ Traps s (.ldn sz rd ra imm) .misaligned ea ∧
    Traps s (.st sz rv ra imm) .misaligned ea) ∧
  (ea.toNat % n = 0 → s.xlate s.ctxId s.cur ea .read = .fault →
    Traps s (.ld sz rd ra imm) .xlateFault ea ∧ Traps s (.ldn sz rd ra imm) .xlateFault ea) ∧
  (ea.toNat % n = 0 → s.xlate s.ctxId s.cur ea .read = .perm →
    Traps s (.ld sz rd ra imm) .permission ea ∧ Traps s (.ldn sz rd ra imm) .permission ea) ∧
  (ea.toNat % n = 0 → s.xlate s.ctxId s.cur ea .write = .fault → Traps s (.st sz rv ra imm) .xlateFault ea) ∧
  (ea.toNat % n = 0 → s.xlate s.ctxId s.cur ea .write = .perm → Traps s (.st sz rv ra imm) .permission ea) ∧
  (∀ t, ea.toNat % n = 0 → s.xlate s.ctxId s.cur ea .write = .ok t → s.storeBarred t n = true → Traps s (.st sz rv ra imm) .permission ea) ∧
  (∀ t, Reaches s ea n .read t → s.tgtPoison t n = true → Traps s (.ld sz rd ra imm) .poison ea ∧ Traps s (.ldn sz rd ra imm) .poison ea) ∧
  (a.toNat % m ≠ 0 → both .misaligned) ∧
  (a.toNat % m = 0 → s.xlate s.ctxId s.cur a .both = .fault → both .xlateFault) ∧
  (a.toNat % m = 0 → s.xlate s.ctxId s.cur a .both = .perm → both .permission) ∧
  (∀ t, a.toNat % m = 0 → s.xlate s.ctxId s.cur a .both = .ok t → s.storeBarred t m = true → both .permission) ∧
  (∀ t, Reaches s a m .both t → s.storeBarred t m = false → s.tgtPoison t m = true → both .poison) ∧
  ∀ t n, s.storeBarred t n = (t.sf || t.ver || (t.isScratch && s.reserved t.phys n))

/-- R284, R291 to R293: ldv reads a version that exists, waits for one to come and traps on one retired; stv creates the next version, and waits while four are live; vrcl raises the floor. R267, R361, R410: each takes MISALIGNED, XLATE_FAULT, PERMISSION, also on a page that is not versioned, and POISON on a poisoned line, with its address as TRAPVAL. That stv waits for the thread's own writes is the model's choice (log 41). -/
def Obligations.VersionsAreCreatedReadAndRetired : Prop := ∀ (sc : Scope) (rd ra rb : Reg) (s : Machine.State) (t : Tgt),
  let v := (s.rdS rb).toNat
  (Reaches s (s.rdS ra) 8 .read t → t.ver = true → s.poisonIn t.line 64 = false →
    (s.vFloor t.line ≤ v → v < s.vNext t.line → ∃ u, exec (.ldv sc rd ra rb) s = .next u ∧ KeepsMemory s u ∧
      Accessed s u rd (s.vVal t.line v)) ∧
    (v < s.vFloor t.line → Traps s (.ldv sc rd ra rb) .versionRetired (s.rdS rb)) ∧
    (s.vFloor t.line ≤ v → s.vNext t.line ≤ v → Waits s (.ldv sc rd ra rb))) ∧
  (Reaches s (s.rdS ra) 8 .both t → t.ver = true → s.poisonIn t.line 64 = false →
    ((s.vNext t.line - s.vFloor t.line < 4) → s.writesDone s.cur = true → s.vNext t.line + 1 < 2 ^ 64 → NoLaunchWaits s →
      ∃ u, exec (.stv sc ra rb) s = .next u ∧ u.pc = s.pc + 8 ∧ u.vNext t.line = s.vNext t.line + 1 ∧
        u.vVal t.line (s.vNext t.line) = s.rdS rb ∧ u.vFloor t.line = s.vFloor t.line ∧ KeepsOutside s u t.line 64 ∧
        ThreadPc s u ∧ AccessFrame s u) ∧
    (4 ≤ s.vNext t.line - s.vFloor t.line → Waits s (.stv sc ra rb)) ∧
    (NoLaunchWaits s → ∃ u, exec (.vrcl ra rb) s = .next u ∧ u.pc = s.pc + 8 ∧
      u.vFloor t.line = max (s.vFloor t.line) (min v (s.vNext t.line)) ∧ u.vNext t.line = s.vNext t.line ∧
      KeepsOutside s u (t.line + 8) 8 ∧ ThreadPc s u ∧ AccessFrame s u)) ∧
  (∀ t, Reaches s (s.rdS ra) 8 .read t → t.ver = false → Traps s (.ldv sc rd ra rb) .permission (s.rdS ra)) ∧
  (∀ t, Reaches s (s.rdS ra) 8 .both t → t.ver = false → Traps s (.stv sc ra rb) .permission (s.rdS ra) ∧ Traps s (.vrcl ra rb) .permission (s.rdS ra)) ∧
  (let a := s.rdS ra
   let ldv := fun (c : Cause) => Traps s (.ldv sc rd ra rb) c a
   let owns := fun (c : Cause) => Traps s (.stv sc ra rb) c a ∧ Traps s (.vrcl ra rb) c a
   (a.toNat % 8 ≠ 0 → ldv .misaligned ∧ owns .misaligned) ∧
   (a.toNat % 8 = 0 →
     (s.xlate s.ctxId s.cur a .read = .fault → ldv .xlateFault) ∧ (s.xlate s.ctxId s.cur a .read = .perm → ldv .permission) ∧
     (s.xlate s.ctxId s.cur a .both = .fault → owns .xlateFault) ∧ (s.xlate s.ctxId s.cur a .both = .perm → owns .permission)) ∧
   (Reaches s a 8 .read t → t.ver = true → s.poisonIn t.line 64 = true → ldv .poison) ∧
   (Reaches s a 8 .both t → t.ver = true → s.poisonIn t.line 64 = true → owns .poison))

/-- R222, R294, R295, R296: nop and pfch only go on, and a nop word with a non-zero field below its guard is no instruction; a fence goes on once none of the thread's stores waits for its acknowledgements, and waits until then. That a prefetch brings nothing in and that a fence waits for those stores alone are the model's choices (log 8, log 103). -/
def Obligations.FencesHintsAndNop : Prop := ∀ (sc : Scope) (ra : Reg) (imm : BitVec 32) (s : Machine.State),
  OnlyAdvances s .nop ∧ encodeCtl ⟨0, false⟩ .nop = some 0x8800000000000000 ∧
  (∀ w : Word, w.toNat / 2 ^ 56 = 0x88 → w.toNat % 2 ^ 52 ≠ 0 → decodeCtl w = none) ∧ OnlyAdvances s (.pfch ra imm) ∧
  ((∀ d ∈ s.dups, d.sid ≠ s.cur) → OnlyAdvances s (.fence sc) ∧ OnlyAdvances s .fenceLayer) ∧
  ((∃ d ∈ s.dups, d.sid = s.cur) → Waits s (.fence sc) ∧ Waits s .fenceLayer)

/-- R397, R398: sysrd writes the register's value, each read as its rule says. R4, R107, R397, R398: syswr writes each field by its access: a written 1 clears its flag, PHASE takes five bits, TRAPPC keeps its low three bits zero, a log register is cleared by a 1 in its top bit, and the read-only registers keep their value. -/
def Obligations.SystemRegistersReadAndWritten : Prop :=
  (∀ (rd : Reg) (n : SysReg) (s : Machine.State),
    WritesScalar s (.sysrd rd n) rd (s.sysRead n) ∧
    s.sysRead .cyc = BitVec.ofNat 64 s.cyc ∧
    (s.cur < 256 → (s.sysRead .sectid).toNat = s.cur) ∧
    (s.sysRead .flags).toNat = (s.sec s.cur).flags.toNat ∧
    (s.sysRead .phase).toNat = (s.sec s.cur).phase.toNat ∧
    (s.sysRead .decrev).toNat = s.regs.decrev.toNat ∧
    (s.sysRead .ctxid).toNat % 256 = (s.sec s.cur).ctx.toNat ∧
    (s.sysRead .ctxid).toNat / 256 = s.regs.domcfg.toNat % 64 ∧
    (s.sysRead .trapcause).toNat = s.th.cause.toNat + (if s.th.ts then 256 else 0) ∧
    s.sysRead .trappc = s.th.trapPc ∧ s.sysRead .trapval = s.th.trapVal ∧
    s.sysRead .elogArray = (s.sec s.cur).elogA ∧ s.sysRead .elogXfer = (s.sec s.cur).elogX ∧
    (let r := s.rail (railOf s.cur)
     let o := s.sysRead .opstate
     (r.cur < 4 → o.toNat % 4 = r.cur) ∧ (r.tgt < 4 → r.cur < 4 → o.toNat / 4 % 4 = (if r.mv = .steady then r.cur else r.tgt)) ∧
     o.toNat / 16 % 4 = (match r.pend with
       | some p => p.1 % 4
       | none => 0) ∧
     o.getLsbD 6 = r.pend.isSome ∧ o.getLsbD 7 = decide (r.mv ≠ .steady) ∧ o.toNat / 2 ^ 8 % 16 = r.res.toNat ∧
     o.toNat / 2 ^ 12 = railOf s.cur % 16 ∧
     (r.events < 2 ^ 24 → r.gwin < 256 → (s.sysRead .stretchcnt).toNat = r.events * 2 ^ 40 + r.gwin * 2 ^ 32 + (s.sec s.cur).count.toNat)) ∧
    (let x := s.ctx (s.sec s.cur).ctx
     (s.sysRead .preemptcfg).toNat = x.grace.toNat * 256 + (if x.noticeOn then 1 else 0)) ∧
    (∀ k l, s.task? (s.sec s.cur).task = some k → s.launch? k.launch = some l → (s.sysRead .ltag).toNat = l.tag.toNat)) ∧
  (∀ (ra : Reg) (n : SysReg) (s : Machine.State),
    let v := s.rdS ra
    ∃ t, exec (.syswr n ra) s = .next t ∧ t.pc = s.pc + 8 ∧ KeepsMemory s t ∧ (∀ r, t.rdS r = s.rdS r) ∧
      (∀ k, k ≠ s.cur → t.sec k = s.sec k) ∧
      (t.sec s.cur).flags = (if n = .flags then (s.sec s.cur).flags &&& ~~~(v.setWidth 7) else (s.sec s.cur).flags) ∧
      (t.sec s.cur).phase = (if n = .phase then v.setWidth 5 else (s.sec s.cur).phase) ∧
      (t.sec s.cur).count = (if n = .stretchcnt then v.setWidth 32 else (s.sec s.cur).count) ∧
      t.th.trapPc.toNat = (if n = .trappc then v.toNat / 8 * 8 else s.th.trapPc.toNat) ∧
      t.th.cause = s.th.cause ∧ t.th.ts = s.th.ts ∧ t.th.trapVal = s.th.trapVal ∧
      (t.sec s.cur).elogA = (if n = .elogArray ∧ v.getLsbD 63 = true then 0 else (s.sec s.cur).elogA) ∧
      (t.sec s.cur).elogX = (if n = .elogXfer ∧ v.getLsbD 63 = true then 0 else (s.sec s.cur).elogX) ∧
      ({ t with sectors := s.sectors, ctxs := s.ctxs } : Machine.State) = s ∧ (n ≠ .preemptcfg → t.ctxs = s.ctxs) ∧
      (let c := (s.sec s.cur).ctx
       n = .preemptcfg → t.ctx c = { s.ctx c with grace := v.extractLsb' 8 8, noticeOn := v.getLsbD 0 } ∧ ∀ d, d ≠ c → t.ctx d = s.ctx d))

/-- R411, R412: outside trap state a trap writes TRAPCAUSE with TS, TRAPPC and TRAPVAL, the thread waits for the appending of its record, and no other register, no byte of memory and no other part of the machine changes. R416, R420: a trap that a thread would take in trap state fails its task: the gang's threads stop and no trap register of the acting thread changes. -/
def Obligations.TakingATrap : Prop :=
  (∀ (c : Cause) (v : Word) (s : Machine.State), s.th.ts = false →
    let t := s.takeTrap c v
    t.sysRead .trapcause = BitVec.ofNat 64 (256 + c.code.toNat) ∧ t.sysRead .trappc = s.pc ∧ t.sysRead .trapval = v ∧
      t.pc = s.pc ∧ t.th.wait = .record s.cyc ∧ (∀ r, t.rdS r = s.rdS r) ∧ (∀ p, t.rdP p = s.rdP p) ∧ (∀ d, t.rdD d = s.rdD d) ∧
      ThreadOnly s t) ∧
  (∀ (c : Cause) (v : Word) (s : Machine.State) (k : Task), s.th.ts = true →
    s.task? (s.sec s.cur).task = some k → k.runs = true → s.cur ∈ k.sids →
    let t := s.takeTrap c v
    (∃ k', t.task? k.id = some k' ∧ k'.st = .failing ∧ k'.packets = [] ∧ ∀ p ∈ k'.stores, p ∈ k.stores ∧ k.whole p.b p.wave = true) ∧
      (∀ j ∈ k.sids, (t.sec j).th.stopped = true) ∧
      t.th.cause = s.th.cause ∧ t.th.trapPc = s.th.trapPc ∧ t.th.trapVal = s.th.trapVal ∧ t.th.ts = true)

/-- R399, R417, R418: svc and trap take their traps with the code as TRAPVAL, svc once the thread's writes are performed; tret leaves trap state at the resume point, which is the word after the trapping one for SVC and TRAP_INSN and the trapping word for every other cause, and outside trap state takes ILLEGAL. An sbar that a trap had broken into is kept where the thread comes back to it (R240), and that svc waits for the thread's own writes is the model's choice (log 41). -/
def Obligations.TrapWordsAndReturn : Prop := ∀ (code : BitVec 16) (s : Machine.State),
  (s.writesDone s.cur = true → Traps s (.svc code) .svc (code.setWidth 64)) ∧
  (s.writesDone s.cur = false → Waits s (.svc code)) ∧
  Traps s (.trap code) .trapInsn (code.setWidth 64) ∧
  (s.th.ts = true → s.th.notice = none → ∃ t, exec .tret s = .next t ∧ t.th.ts = false ∧
    t.pc = (if s.th.cause = 0x0C ∨ s.th.cause = 0x0D then s.th.trapPc + 8 else s.th.trapPc) ∧
    t.th.barHeld = (s.th.barHeld.filter fun b => b.1 == t.pc) ∧
    ({ t.th with pc := s.th.pc, ts := s.th.ts, wait := s.th.wait, word := s.th.word, barHeld := s.th.barHeld } : Thread) = s.th ∧ ThreadOnly s t) ∧
  (s.th.ts = false → Traps s .tret .illegal s.curWord)

/-- R185, R221: halt stops its thread for good, and the task is DRAINING once every thread of its gang has halted. -/
def Obligations.HaltEndsTheThread : Prop := ∀ (s : Machine.State) (k : Task),
  s.task? (s.sec s.cur).task = some k → k.st = .resident → s.cur ∈ k.sids →
  ∃ t, exec .halt s = .next t ∧ t.th = { s.th with halted := true, wait := .none, word := none } ∧ KeepsMemory s t ∧
    (∀ j, j ≠ s.cur → t.sec j = s.sec j) ∧ t.th.runs = false ∧
    ((∀ j ∈ k.sids, j ≠ s.cur → (s.sec j).th.halted = true) → t.task? k.id = some { k with st := .draining }) ∧
    ((∃ j ∈ k.sids, j ≠ s.cur ∧ (s.sec j).th.halted = false) → t.task? k.id = some k)

/-- R255 to R258: pwrq never waits; a value that names no group, or a group with a sector of another context, is refused with REFUSED_GROUP and starts nothing. A request of a group that its context wholly owns is recorded as pending, in the place of an older one, which is REPLACED, while the group moves; a steady group takes it at once: it answers SAME for the point that it has, refuses a point for which an image has no valid section or which the emergency throttle forbids, and else starts the move, in RAISE_V until the rail has slewed 47 CYC for each mV to a higher voltage, in SWAP towards a lower one. R369, R400: tinv of each scope removes the named copies from the range caches and port entries of the sectors in its reach and from the edge TLBs of the dies in its reach, discards the held fetch blocks there, and changes no register, no other copy and no byte of memory. That the blocks are those of the issuing context's threads alone is the model's choice (log 28). -/
def Obligations.PowerRequestsAndInvalidations : Prop :=
  (∀ (p : OpPoint) (ra : Reg) (s : Machine.State),
    let v := (s.rdS ra).toNat
    let own := railOf s.cur
    let g := if v = 0 then own else own / 16 * 16 + v % 16
    let c := (s.sec s.cur).ctx
    let r := s.rail g
    let names := v = 0 ∨ (v / 16 % 2 = 1 ∧ v < 32)
    let gives := fun (x : Rail) => ∃ t, exec (.pwrq p ra) s = .next t ∧ t.rail g = x ∧ (∀ h, h ≠ g → t.rail h = s.rail h)
    let left := if r.pend.isSome then 2 else r.res
    (∃ t, exec (.pwrq p ra) s = .next t ∧ t.pc = s.pc + 8 ∧ ThreadOnly { s with rails := t.rails } t ∧ (∀ r, t.rdS r = s.rdS r)) ∧
    (names → s.whollyOwned g c = true →
      (r.mv ≠ .steady → gives { r with pend := some (opNum p, c), res := left }) ∧
      (r.mv = .steady → r.cur ≠ opNum p →
        (s.sectionsOk g (opNum p) = false → gives { r with res := 4, pend := none }) ∧
        (s.sectionsOk g (opNum p) = true → s.regs.emerg = true → opNum p < r.cur → gives { r with res := 5, pend := none }) ∧
        (s.sectionsOk g (opNum p) = true → s.regs.emerg = false → opNum p < r.cur →
          gives { r with pend := none, res := left, tgt := opNum p, mv := .raiseV (s.cyc + (railMv (opNum p) - railMv r.cur) * 47) }) ∧
        (s.sectionsOk g (opNum p) = true → r.cur < opNum p → gives { r with pend := none, res := left, tgt := opNum p, mv := .swap }))) ∧
    (railMv 0 = 800 ∧ railMv 1 = 740 ∧ railMv 2 = 700 ∧ railMv 3 = 640) ∧
    (v ≠ 0 → (v / 16 % 2 = 0 ∨ 32 ≤ v) → ∃ t, exec (.pwrq p ra) s = .next t ∧ t.rail own = { s.rail own with res := 3 } ∧
      (∀ h, h ≠ own → t.rail h = s.rail h)) ∧
    ((v = 0 ∨ (v / 16 % 2 = 1 ∧ v < 32)) → s.whollyOwned g (s.sec s.cur).ctx = false →
      ∃ t, exec (.pwrq p ra) s = .next t ∧ t.rail g = { s.rail g with res := 3 } ∧ (∀ h, h ≠ g → t.rail h = s.rail h)) ∧
    ((v = 0 ∨ (v / 16 % 2 = 1 ∧ v < 32)) → s.whollyOwned g (s.sec s.cur).ctx = true → (s.rail g).mv = .steady → (s.rail g).cur = opNum p →
      ∃ t, exec (.pwrq p ra) s = .next t ∧ t.rail g = { s.rail g with res := 6, pend := none } ∧ (∀ h, h ≠ g → t.rail h = s.rail h))) ∧
  (∀ (sc : Scope) (ra : Reg) (s : Machine.State),
    let c := (s.sec s.cur).ctx
    let named := s.tinvNamed ra
    let (near, threads, dies) := match sc with
      | .sector | .cell => ([s.cur], [s.cur], [])
      | .gang => (s.gangSids, s.gangSids, [])
      | .die => (s.gangSids, s.gangSids ++ (s.ctxSids c).filter fun k => dieOf k == dieOf s.cur, [dieOf s.cur])
      | .module | .domain => (s.ctxSids c, s.ctxSids c, [0, 1, 2, 3])
    (∃ t, exec (.tinv sc ra) s = .next t ∧ t.pc = s.pc + 8 ∧ KeepsMemory s t ∧ (∀ r, t.rdS r = s.rdS r) ∧
      (∀ j ∈ near, (∀ k, k ∈ (t.sec j).rcache ↔ k ∈ (s.sec j).rcache ∧ named k = false) ∧
        ∀ q, (t.sec j).port q = { (s.sec j).port q with entry := ((s.sec j).port q).entry.filter fun k => !named k }) ∧
      (∀ j, j ∉ near → (t.sec j).rcache = (s.sec j).rcache ∧ (t.sec j).ports = (s.sec j).ports) ∧
      (∀ j ∈ threads, (t.sec j).th.fblk = none) ∧ (∀ j, j ∉ threads → j ≠ s.cur → (t.sec j).th = (s.sec j).th) ∧
      (∀ d ∈ dies, ∀ e, e ∈ Tab.get [] t.edgeTlb d ↔ e ∈ Tab.get [] s.edgeTlb d ∧ ¬(e.1 = c.toNat ∧ named e.2 = true)) ∧
      (∀ d, d ∉ dies → Tab.get [] t.edgeTlb d = Tab.get [] s.edgeTlb d)) ∧
    (∀ k, named k = true ↔ (ra = 0 ∨ ((s.rdS ra).toNat < 2 ^ 55 ∧ ∃ e, findRt (s.ctx c).rt (s.rdS ra).toNat = some (k, e)))))

/-- R316, R217: twait and twait.rel go on once their time has come, and wait until then. R317: bmwait goes on when every chunk of its mask has committed; without a promise it waits until then, and where a chunk of its mask belongs to a failed operation it takes the trap of that operation's status (R308) with its failing address; with a promise it waits for its time, and then takes PROMISE_MISSED with the bits still missing. R249: a promise of an operation of the sector that was saved is met at the time that it now stands at; which of several failed chunks names the trap, the first of the mask, is the model's choice (log 138). -/
def Obligations.WaitsForTimesAndChunks : Prop :=
  (∀ (ra : Reg) (s : Machine.State),
    let v := (s.rdS ra).toNat
    OpIs (.twait ra) 0x70 0x00 ∧ OpIs (.twaitRel ra) 0x70 0x01 ∧
    (v ≤ s.cyc → OnlyAdvances s (.twait ra)) ∧ (s.cyc < v → WaitsFor s (.twait ra) (.until v)) ∧
    ((∀ d, s.th.wait ≠ .until d) → v = 0 → OnlyAdvances s (.twaitRel ra)) ∧
    ((∀ d, s.th.wait ≠ .until d) → v ≠ 0 → WaitsFor s (.twaitRel ra) (.until (s.cyc + v))) ∧
    (∀ d, s.th.wait = .until d → (d ≤ s.cyc → OnlyAdvances s (.twaitRel ra)) ∧ (s.cyc < d → WaitsFor s (.twaitRel ra) (.until d)))) ∧
  (∀ (ra rb rc : Reg) (s : Machine.State),
    let a := s.rdS ra
    let m := s.rdS rb
    let w := Instr.bmwait ra rb rc
    let fails := fun (i : Nat) (o : EngOp) => m.getLsbD i = true ∧ ChunkOf s (chunkOf a i) o ∧ o.st = .failed
    (rc = 0 → (∀ i o, i < 64 → ¬fails i o) → (MaskComplete s a m → OnlyAdvances s w) ∧ (¬MaskComplete s a m → Waits s w)) ∧
    (∀ i o, rc = 0 → i < 64 → fails i o → (∀ j p, j < i → ¬fails j p) →
      Traps s w (if o.status = 0x02 then .permission else if o.status = 0x03 ∨ o.status = 0x06 then .poison else if o.status = 0x05 then .handle
        else .xlateFault) o.failAddr) ∧
    (∀ t, rc ≠ 0 → DeadlineIs s (s.rdS rc).toNat t →
      (s.cyc < t → WaitsFor s w (.until t)) ∧
      (t ≤ s.cyc → MaskComplete s a m → OnlyAdvances s w) ∧
      (t ≤ s.cyc → ¬MaskComplete s a m → ∃ miss : Word, Traps s w .promiseMissed miss ∧
        ∀ i, i < 64 → miss.getLsbD i = (m.getLsbD i && !(s.sec s.cur).bit (chunkOf a i)))))

/-- R33, R219: a thread goes on from gbar once its own stores are performed and every thread of its gang has reached it, and waits until then. R220, R383: sig stores its 16-byte record, CYC and then task index, n, SECTID and CTXID above 16 zero bits, at the tail of its context's signal ring and advances the tail; it waits while the ring is full or a store of its thread waits for its acknowledgements; an append that faults ends the context. That both words wait for the acknowledgement of every earlier write of their thread is the model's choice (log 41). -/
def Obligations.BarriersAndSignals : Prop :=
  (∀ (n : BitVec 8) (s : Machine.State), s.writesDone s.cur = false → Waits s .gbar ∧ Waits s (.sig n)) ∧
  (∀ (s : Machine.State), s.writesDone s.cur = true → s.cur ∈ s.gangSids →
    let n := s.th.count .gbar + 1
    ((∀ k ∈ s.gangSids, k ≠ s.cur → (s.sec k).th.reached .gbar n = true) → ∃ t, exec .gbar s = .next t ∧ t.pc = s.pc + 8 ∧
      t.th.count .gbar = n ∧ t.th.wait = .none ∧ ThreadOnly s t) ∧
    ((∃ k ∈ s.gangSids, k ≠ s.cur ∧ (s.sec k).th.reached .gbar n = false) → WaitsFor s .gbar (.met 0 n))) ∧
  (∀ (n : BitVec 8) (s : Machine.State) (t : Tgt),
    let c := s.ctxId
    let ring := (s.ctx c).sr
    let va := ring.base.toNat + 16 * (ring.tail.toNat % 2 ^ ring.nlog)
    (ring.full = true → Waits s (.sig n)) ∧
    let task := ((s.task? (s.sec s.cur).task).map Task.idx).getD 0
    (ring.full = false → s.writesDone s.cur = true → va < 2 ^ 55 → s.xlateV c va .write = .ok t → s.storeBarred t 16 = false → s.unreachable t = false → Quiet s →
      ∃ u, exec (.sig n) s = .next u ∧ u.pc = s.pc + 8 ∧ (u.ctx c).sr = { ring with tail := ring.tail + 1 } ∧
        HoldsAt u t.phys 8 (s.cyc % 2 ^ 64) ∧ HoldsAt u (t.phys + 8) 2 0 ∧ HoldsAt u (t.phys + 10) 1 c.toNat ∧ HoldsAt u (t.phys + 11) 1 (s.cur % 256) ∧
        HoldsAt u (t.phys + 12) 1 n.toNat ∧ HoldsAt u (t.phys + 13) 3 (task % 2 ^ 24) ∧
        KeepsOutside s u t.phys 16 ∧ (∀ r, u.rdS r = s.rdS r) ∧ (∀ j, j ≠ s.cur → u.sec j = s.sec j)) ∧
    (ring.full = false → s.writesDone s.cur = true →
      (2 ^ 55 ≤ va ∨ s.xlateV c va .write = .fault ∨ s.xlateV c va .write = .perm ∨ (s.xlateV c va .write = .ok t ∧ s.storeBarred t 16 = true)) →
      exec (.sig n) s = .next (s.endCtx c).advance))

/-- R272, R318: rwait writes FREE or FILL, the pointer of the first slot that the caller may use, once the ring holds enough filled or free slots, and waits until then; a count above the ring's size and a header out of range take HANDLE. R272, R319: radv advances FILL or FREE in the header and writes the old pointer to its register; an addition that the ring has no room for, and a header out of range, take HANDLE and change no byte of memory. -/
def Obligations.RingsAreWaitedForAndAdvanced : Prop :=
  (∀ (rd ra : Reg) (dr : DReg) (s : Machine.State),
    let d := s.rdD dr
    let n := s.rdS ra
    let used := ringFill s d - ringFree s d
    RingReady s d →
    (d.ringN < n.toNat → Traps s (.rwaitFill rd dr ra) .handle n ∧ Traps s (.rwaitFree rd dr ra) .handle n) ∧
    (n.toNat ≤ d.ringN → d.ringN < used.toNat → Traps s (.rwaitFill rd dr ra) .handle used ∧ Traps s (.rwaitFree rd dr ra) .handle used) ∧
    (n.toNat ≤ used.toNat → used.toNat ≤ d.ringN → WritesScalar s (.rwaitFill rd dr ra) rd (ringFree s d)) ∧
    (n.toNat ≤ d.ringN → used.toNat < n.toNat → used.toNat ≤ d.ringN → Waits s (.rwaitFill rd dr ra)) ∧
    (used.toNat + n.toNat ≤ d.ringN → WritesScalar s (.rwaitFree rd dr ra) rd (ringFill s d)) ∧
    (n.toNat ≤ d.ringN → used.toNat ≤ d.ringN → d.ringN < used.toNat + n.toNat → Waits s (.rwaitFree rd dr ra))) ∧
  (∀ (rd ra : Reg) (dr : DReg) (s : Machine.State),
    let d := s.rdD dr
    let n := s.rdS ra
    let used := (ringFill s d - ringFree s d).toNat
    let h := scratchAt s.cur d.ringHdr
    RingReady s d → s.writesDone s.cur = true →
    (used + n.toNat ≤ d.ringN → ∃ t, exec (.radvFill rd dr ra) s = .next t ∧ t.pc = s.pc + 8 ∧
      t.rdS rd = (if rd = 0 then 0 else ringFill s d) ∧ t.rdWord h = ringFill s d + n ∧ t.rdWord (h + 8) = ringFree s d ∧
      KeepsOutside s t h 8 ∧ ThreadScalar rd s t) ∧
    (n.toNat ≤ used → used ≤ d.ringN → ∃ t, exec (.radvFree rd dr ra) s = .next t ∧ t.pc = s.pc + 8 ∧
      t.rdS rd = (if rd = 0 then 0 else ringFree s d) ∧ t.rdWord (h + 8) = ringFree s d + n ∧ t.rdWord h = ringFill s d ∧
      KeepsOutside s t (h + 8) 8 ∧ ThreadScalar rd s t) ∧
    (d.ringN < used + n.toNat → s.th.ts = false → ∃ t, exec (.radvFill rd dr ra) s = .next t ∧ t.th.cause = 0x09 ∧ t.th.ts = true ∧ KeepsMemory s t) ∧
    ((used < n.toNat ∨ d.ringN < used) → s.th.ts = false → ∃ t, exec (.radvFree rd dr ra) s = .next t ∧ t.th.cause = 0x09 ∧ t.th.ts = true ∧ KeepsMemory s t))

/-- R297, R298 to R301, R271: the tmap words read 64 bytes, refuse an image that fails its checks with the number of its first failing word, and form a descriptor of the image's kind; tmap.copy adds a value to BASE. The 64 bytes stand at the address in the register, or in the CONST section of the sealed object that holds the word, outside which it takes HANDLE with 0x1FF. -/
def Obligations.DescriptorsAreFormed : Prop := ∀ (dr dn : DReg) (ra : Reg) (s : Machine.State) (t : Tgt),
  let img : Pay := BitVec.ofNat 512 (natOf (s.rdTgt t 64))
  let made := fun (i : Instr) (tag : BitVec 4) (bad : Desc → Option Nat) =>
    (bad ⟨tag, img⟩ = none → WritesDesc s i dr ⟨tag, img⟩) ∧
    (∀ k, bad ⟨tag, img⟩ = some k → Traps s i .handle (BitVec.ofNat 64 (0x100 + k)))
  let all := fun (src : TmapSrc) => made (.tmap dr src) 1 Desc.plainBad ∧ made (.tmapPat dr src) 2 Desc.patBad ∧
    made (.tmapRing dr src) 4 Desc.ringBad ∧ made (.tmapWin dr src) 1 Desc.winBad
  let trap := fun (src : TmapSrc) (c : Cause) (v : Word) => ∀ i ∈ [Instr.tmap dr src, .tmapPat dr src, .tmapRing dr src, .tmapWin dr src], Traps s i c v
  (Reaches s (s.rdS ra) 64 .read t → (s.tgtPoison t 64 = false → all (.addr ra)) ∧ (s.tgtPoison t 64 = true → trap (.addr ra) .poison (s.rdS ra))) ∧
  (∀ (o : Obj) (off : BitVec 15), s.ownObj = some o → off.toNat * 64 + 64 ≤ o.constSize →
    let a := o.va + BitVec.ofNat 64 (o.constOff + off.toNat * 64)
    Reaches s a 64 .read t → (s.tgtPoison t 64 = false → all (.const off)) ∧ (s.tgtPoison t 64 = true → trap (.const off) .poison a)) ∧
  (∀ off : BitVec 15, (∀ o, s.ownObj = some o → o.constSize < off.toNat * 64 + 64) → trap (.const off) .handle 0x1FF) ∧
  (s.rdS ra = 0 → WritesDesc s (.tmapCopy dr dn ra) dr (s.rdD dn)) ∧
  ((s.rdD dn).tag = 1 → s.rdS ra ≠ 0 → WritesDesc s (.tmapCopy dr dn ra) dr
    ⟨1, ((s.rdD dn).img >>> 64 <<< 64) ||| ((s.rdD dn).img.setWidth 64 + s.rdS ra).setWidth 512⟩) ∧
  ((s.rdD dn).tag ≠ 1 → s.rdS ra ≠ 0 → Traps s (.tmapCopy dr dn ra) .handle ((s.rdD dn).tag.setWidth 64))

/-- R225, R226: cfgld checks the image at the group's operating point; where the report lets it load, the sector's shadow holds the share COMPLETE, else it is EMPTY; the report comes back in the register, and the active configuration is untouched. R45, R225, R236: the refusals and waits of cfgld: another tag takes HANDLE with the tag found, an image outside the gang or of another shape takes HANDLE with its number, a host instance takes HANDLE with 0, and an ARMED shadow or a moving group makes it wait. -/
def Obligations.ShadowLoads : Prop :=
  (∀ (rd : Reg) (dr : DReg) (ra : Reg) (s : Machine.State) (k : Task) (o : Obj),
    let img := (s.rdS ra).toNat
    let x := s.sec s.cur
    let r := s.checkShare k o s.cur img x.phase
    (s.rdD dr).tag = tagObject → s.task? x.task = some k → s.ownObj = some o → k.images.contains img = true →
    s.ownInst.host = none → (o.images.getD img {}).w = s.ownInst.w → (o.images.getD img {}).h = s.ownInst.h →
    x.shSt ≠ .armed → (s.rail (railOf s.cur)).mv = .steady → s.upsets = [] →
    ∃ t, exec (.cfgld rd dr ra) s = .next t ∧ t.rdS rd = (if rd = 0 then 0 else r.1) ∧ t.pc = s.pc + 8 ∧
      (t.sec s.cur).act = x.act ∧ (t.sec s.cur).shadow = r.2 ∧ (t.sec s.cur).shSt = (if r.2 = none then .empty else .complete) ∧
      KeepsMemory s t ∧ ThreadScalar rd s t ∧ (∀ j, j ≠ s.cur → t.sec j = s.sec j)) ∧
  (∀ (rd : Reg) (dr : DReg) (ra : Reg) (s : Machine.State) (k : Task) (o : Obj),
    let img := (s.rdS ra).toNat
    let x := s.sec s.cur
    let i := Instr.cfgld rd dr ra
    ((s.rdD dr).tag ≠ tagObject → Traps s i .handle ((s.rdD dr).tag.setWidth 64)) ∧
    ((s.rdD dr).tag = tagObject → s.task? x.task = some k → s.ownObj = some o →
      (k.images.contains img = false → Traps s i .handle (s.rdS ra)) ∧
      (k.images.contains img = true → s.ownInst.host ≠ none → Traps s i .handle 0) ∧
      (k.images.contains img = true → s.ownInst.host = none →
        ((o.images.getD img {}).w ≠ s.ownInst.w ∨ (o.images.getD img {}).h ≠ s.ownInst.h) → Traps s i .handle (s.rdS ra)) ∧
      (k.images.contains img = true → s.ownInst.host = none → (o.images.getD img {}).w = s.ownInst.w → (o.images.getD img {}).h = s.ownInst.h →
        (x.shSt = .armed ∨ (s.rail (railOf s.cur)).mv ≠ .steady) → Waits s i)))

/-- R227, R230, R232, R233: the words that a whole instance meets at. A thread that is not the last to arrive waits; the last starts the effect; and each thread takes the answer in its register and goes on. sdrain and sdrain, go are one meeting, in which the last thread's word takes effect (log 23). The effects: cfgarm answers 1 where a sector's shadow is not COMPLETE and 2 where a lockstep region of a shadow would take the sites of two switch groups, and changes nothing else; else it answers 0, and each shadow is ARMED under a generation of its own with no slot switched, or is the active configuration at once where the sector has no active slot. cfgsw answers 1 where a sector's shadow is EMPTY or LOADING; else the sources of every sector stop, and the instance waits for a drain swap. sdrain stops the sources and waits for quiescence; sdrain, go starts them and answers 0. -/
def Obligations.InstanceMeetings : Prop := (∀ (rd : Reg) (s : Machine.State),
  let words : List (Instr × Meet × (Machine.State → Machine.State)) :=
    [(.cfgarm rd, .cfgarm, State.armAll), (.cfgsw rd, .cfgsw, State.swapAll),
     (.sdrain rd, .sdrain, fun u => (u.stopSources u.instSids true).modOwnInst fun i => { i with drain := 2 }),
     (.sdrainGo rd, .sdrain, fun u => (u.stopSources u.instSids false).answerAll u.instSids .sdrain 0)]
  ∀ w ∈ words,
    (s.ownInst.host ≠ none → Traps s w.1 .handle 0) ∧
    (∀ v, s.ownInst.host = none → s.th.answer = some (w.2.1.code, v) →
      ∃ t, exec w.1 s = .next t ∧ t.rdS rd = (if rd = 0 then 0 else v) ∧ t.pc = s.pc + 8 ∧ t.th.answer = none ∧
        t.th.count w.2.1 = s.th.count w.2.1 + 1 ∧ ThreadOnly s t) ∧
    (LastToMeet s w.2.1 → s.cur ∈ s.instSids →
      let u := w.2.2 (s.setWait (.met w.2.1.code (s.th.count w.2.1 + 1)))
      exec w.1 s = .next ((u.takeAnswer w.2.1 rd).getD u)) ∧
    (s.ownInst.host = none → (∀ v, s.th.answer ≠ some (w.2.1.code, v)) →
      (∃ j ∈ s.instSids, j ≠ s.cur ∧ (s.sec j).th.reached w.2.1 (s.th.count w.2.1 + 1) = false) →
      WaitsFor s w.1 (.met w.2.1.code (s.th.count w.2.1 + 1)))) ∧
 ∀ (rd : Reg) (s : Machine.State), s.cur ∈ s.instSids → s.instSids.Nodup →
  let sids := s.instSids
  let ends := fun (i : Instr) (p : Machine.State → Prop) => goesOn (exec i s) fun u => KeepsMemory s u ∧ (∀ j, j ∉ sids → u.sec j = s.sec j) ∧ p u
  let answered := fun (u : Machine.State) (k : Meet) (v : Word) => u.rdS rd = (if rd = 0 then 0 else v) ∧ u.pc = s.pc + 8 ∧
    ∀ j ∈ sids, j ≠ s.cur → (u.sec j).th = { (s.sec j).th with answer := some (k.code, v) }
  let kept := fun (u : Machine.State) => ∀ j ∈ sids, ({ u.sec j with th := (s.sec j).th } : Sector) = s.sec j
  let waits := fun (u : Machine.State) (k : Meet) => u.pc = s.pc ∧ u.th = { s.th with wait := .met k.code (s.th.count k + 1) } ∧
    ∀ j ∈ sids, j ≠ s.cur → (u.sec j).th = (s.sec j).th
  (LastToMeet s .cfgarm →
    ((∃ j ∈ sids, (s.sec j).shSt ≠ .complete) → ends (.cfgarm rd) fun u => answered u .cfgarm 1 ∧ kept u) ∧
    ((∀ j ∈ sids, (s.sec j).shSt = .complete) → (∃ j ∈ sids, (s.sec j).splits = true) → ends (.cfgarm rd) fun u => answered u .cfgarm 2 ∧ kept u) ∧
    ((∀ j ∈ sids, (s.sec j).shSt = .complete ∧ (s.sec j).splits = false) → ends (.cfgarm rd) fun u => answered u .cfgarm 0 ∧
      ∀ j ∈ sids, ∀ h, (s.sec j).shadow = some h →
        let armed : Share := { h with gen := s.nextId }
        let slots := (s.sec j).act.toList.flatMap (s.sec j).ownSlots
        (slots ≠ [] → (u.sec j).shSt = .armed ∧ (u.sec j).shadow = some armed ∧ (u.sec j).act = (s.sec j).act ∧ (u.sec j).switched = []) ∧
        (slots = [] → (u.sec j).shSt = .empty ∧ (u.sec j).shadow = none ∧ (u.sec j).act = some armed ∧ (u.sec j).switched = []))) ∧
  (LastToMeet s .cfgsw →
    ((∃ j ∈ sids, (s.sec j).shSt = .empty ∨ (s.sec j).shSt = .loading) → ends (.cfgsw rd) fun u => answered u .cfgsw 1 ∧ kept u) ∧
    ((∀ j ∈ sids, (s.sec j).shSt ≠ .empty ∧ (s.sec j).shSt ≠ .loading) → ends (.cfgsw rd) fun u => waits u .cfgsw ∧
      (∀ k, s.task? (s.sec s.cur).task = some k → u.ownInst.drain = 1) ∧ ∀ j ∈ sids, (u.sec j).stopped = true ∧
        (u.sec j).shadow = (if (s.sec j).shSt = .complete then (s.sec j).shadow.map fun h => { h with gen := s.nextId } else (s.sec j).shadow) ∧
        ({ u.sec j with th := (s.sec j).th, stopped := (s.sec j).stopped, shadow := (s.sec j).shadow } : Sector) = s.sec j)) ∧
  (LastToMeet s .sdrain →
    (ends (.sdrain rd) fun u => waits u .sdrain ∧ (∀ k, s.task? (s.sec s.cur).task = some k → u.ownInst.drain = 2) ∧
      ∀ j ∈ sids, ({ u.sec j with th := (s.sec j).th, stopped := (s.sec j).stopped } : Sector) = s.sec j ∧ (u.sec j).stopped = true) ∧
    (ends (.sdrainGo rd) fun u => answered u .sdrain 0 ∧
      ∀ j ∈ sids, ({ u.sec j with th := (s.sec j).th, stopped := (s.sec j).stopped } : Sector) = s.sec j ∧ (u.sec j).stopped = false))

/-- R211, R212, R273, R303, R367: sbind gives a port its binding: active where the port has none, else pending, and in both cases its port entry is filled from the element at the binding's first position unless it is a gather stream; a port with both waits, and so does a thread whose stores wait for their acknowledgements, which is the model's choice (log 41). Another tag takes HANDLE with the tag found; a map that is not aligned takes 0x201, a pattern that is written, that feeds another port or that has an offset takes 0x202, a written index list takes 0x203. -/
def Obligations.BindingsAreGiven : Prop := ∀ (q : Port) (dr : DReg) (ra : Reg) (eos : Bool) (s : Machine.State),
  let d := s.rdD dr
  let v := s.rdS ra
  let p := s.port s.cur q.toNat
  let rd := Instr.sbindRd q dr ra eos
  let wr := Instr.sbindWr q dr ra
  let rdB : Bind := { desc := d, base := v, write := false, eos := eos, id := s.nextId }
  let wrB : Bind := { desc := d, base := v, write := true, eos := false, id := s.nextId }
  let feeds := slicePort (dieOf s.cur) (d.fld 0 0 7) = (s.cur, q.toNat)
  let okRd := (d.tag = 1 ∧ d.bindAligned v = true) ∨ (d.tag = 2 ∧ feeds ∧ v = 0)
  let okWr := d.tag = 1 ∧ d.bindAligned v = true ∧ (d.win = true ∨ d.idx = false)
  let entry := fun (b : Bind) => (if b.gather then none else ((s.plan s.cur b 0).pieces.findSome? Piece.addr?).bind fun va =>
    if va.toNat < 2 ^ 55 then s.entryIdx s.cur va else none).orElse fun _ => p.entry
  let binds := fun (i : Instr) (x : PortSt) => ∃ t, exec i s = .next t ∧ t.pc = s.pc + 8 ∧ KeepsMemory s t ∧ t.port s.cur q.toNat = x ∧
    (∀ j, j ≠ q.toNat → t.port s.cur j = s.port s.cur j) ∧ (∀ j, j ≠ s.cur → t.sec j = s.sec j) ∧ (∀ r, t.rdS r = s.rdS r)
  ((d.tag ≠ 1 ∧ d.tag ≠ 2) → Traps s rd .handle (d.tag.setWidth 64) ∧ Traps s wr .handle (d.tag.setWidth 64)) ∧
  (d.tag = 1 → d.bindAligned v = false → Traps s rd .handle 0x201 ∧ Traps s wr .handle 0x201) ∧
  (d.tag = 2 → Traps s wr .handle 0x202 ∧ (¬feeds ∨ v ≠ 0 → Traps s rd .handle 0x202)) ∧
  (d.tag = 1 → d.bindAligned v = true → d.win = false → d.idx = true → Traps s wr .handle 0x203) ∧
  (s.writesDone s.cur = true → p.act = none →
    (okRd → binds rd { p with act := some rdB, entry := entry rdB }) ∧ (okWr → binds wr { p with act := some wrB, entry := entry wrB, eosd := false })) ∧
  (s.writesDone s.cur = true → p.act ≠ none → p.pend = none →
    (okRd → binds rd { p with pend := some rdB, entry := entry rdB }) ∧ (okWr → binds wr { p with pend := some wrB, entry := entry wrB })) ∧
  ((s.writesDone s.cur = false ∨ (p.act ≠ none ∧ p.pend ≠ none)) → (okRd → Waits s rd) ∧ (okWr → Waits s wr)) ∧
  (d.tag = 1 → d.win = false →
    (d.bindAligned v = true ↔ d.esz = 64 ∧ d.base % 64 = 0 ∧ (∀ k, k < d.dims → d.stride k % 64 = 0) ∧ v.toNat % 64 = 0)) ∧
  (d.tag = 1 → d.win = true → (d.bindAligned v = true ↔ d.base % d.esz = 0 ∧ v.toNat % d.esz = 0)) ∧
  ∀ die j, slicePort die j = if j < 64 then (die * 64 + j / 8, 2 * (j % 8) + 1) else (die * 64 + 56 + j % 64 / 8, 112 + 2 * (j % 8))

/-- R213 to R216: sbar of one port or of all waits for those that hold a binding, each of which notes it where it reads, and goes on at once where none does; an sbar that waits goes on once each port that it waits for has no binding and no store left and its drain token has gone. seos ends the bindings of a port and gives the number of elements done; on a read port that has begun elements still to send it stops the stream and waits. sstat reads a port, field by field, and changes nothing; tinj.data puts one token, of its tag and its sixteen lanes, at a port's pin whose output is free. That an sbar which finds no binding left completes at once is the model's choice (log 132). -/
def Obligations.PortWords : Prop := ∀ (rd ra rb : Reg) (q : Port) (tag : BitVec 4) (bcast : Bool) (s : Machine.State),
  let p := s.port s.cur q.toNat
  WritesScalar s (.sstat rd q) rd p.status ∧
  (let v := p.status.toNat
   v % 2 ^ 40 = (match p.act with
     | none => p.lastPos
     | some b => b.pos - p.spill.length - (p.head.filter Token.replay).length) % 2 ^ 40 ∧
   v / 2 ^ 40 % 4 = 0 ∧ p.status.getLsbD 42 = p.eosd ∧ p.status.getLsbD 43 = p.act.isSome ∧ p.status.getLsbD 44 = p.pend.isSome ∧
   v / 2 ^ 45 % 4 = (match p.act with
     | none => 0
     | some b => if b.write then 2 else 1) ∧
   (p.status.getLsbD 47 = true ↔ ∃ e ∈ p.held.toList ++ p.spill, e.st = 0) ∧ (p.spill.length ≤ 64 → v / 2 ^ 48 = p.spill.length)) ∧
  (p.act = none → WritesScalar s (.seos rd q) rd 0) ∧
  (∀ b, p.act = some b → b.write = true → ∃ t, exec (.seos rd q) s = .next t ∧ t.rdS rd = (if rd = 0 then 0 else BitVec.ofNat 64 b.pos) ∧
    t.pc = s.pc + 8 ∧ (t.port s.cur q.toNat).act = p.pend ∧ (t.port s.cur q.toNat).pend = none ∧ (t.port s.cur q.toNat).lastPos = b.pos ∧ KeepsMemory s t) ∧
  (∀ b, p.act = some b → b.write = false → p.sentAll = true → ∃ t, exec (.seos rd q) s = .next t ∧
    t.rdS rd = (if rd = 0 then 0 else BitVec.ofNat 64 b.pos) ∧ t.pc = s.pc + 8 ∧ (t.port s.cur q.toNat).act = none ∧
    (t.port s.cur q.toNat).pend = none ∧ (t.port s.cur q.toNat).head = p.head ++ [eosToken 0] ++ p.bars.map drainToken ∧ KeepsMemory s t) ∧
  (∀ b, p.act = some b → b.write = false → p.sentAll = false → ∃ t, exec (.seos rd q) s = .next t ∧ t.th = s.th ∧ KeepsMemory s t ∧
    t.port s.cur q.toNat = { p with stopping := true } ∧ (∀ j, j ≠ q.toNat → t.port s.cur j = s.port s.cur j) ∧ ∀ j, j ≠ s.cur → t.sec j = s.sec j) ∧
  (p.sentAll = true ↔ p.spill = [] ∧ p.held = none ∧ ∀ t ∈ p.head, t.kind ≠ .data) ∧
  (∀ sel : BarSel,
    let named := match sel with
      | .port q => [q.toNat]
      | .all => List.range 128
    let bound := named.filter fun j => (s.port s.cur j).act.isSome || (s.port s.cur j).pend.isSome
    ((∀ id ports, s.th.wait ≠ .bar id ports) →
      (bound = [] → s.draining s.cur s.nextId = false →
        ∃ t, exec (.sbar sel) s = .next t ∧ t.pc = s.pc + 8 ∧ ThreadOnly { s with nextId := s.nextId + 1 } t) ∧
      (bound ≠ [] → ∃ t, exec (.sbar sel) s = .next t ∧ t.pc = s.pc ∧ t.th = { s.th with wait := .bar s.nextId bound } ∧ KeepsMemory s t ∧
        (∀ j, j ≠ s.cur → t.sec j = s.sec j) ∧
        ∀ j, t.port s.cur j = (if j ∈ bound ∧ (s.port s.cur j).reads = true then { s.port s.cur j with bars := (s.port s.cur j).bars ++ [s.nextId] }
          else s.port s.cur j))) ∧
    (∀ id ports, s.th.wait = .bar id ports →
      let gone := (∀ j ∈ ports, (s.port s.cur j).act = none ∧ (s.port s.cur j).pend = none ∧
        ∀ k, s.task? (s.sec s.cur).task = some k → ∀ x ∈ k.stores, ¬(x.sid = s.cur ∧ x.port = some j)) ∧ s.draining s.cur id = false
      (gone → OnlyAdvances s (.sbar sel)) ∧ (¬gone → Waits s (.sbar sel)))) ∧
  (p.act = none → p.pend = none → p.head = [] → s.pinFmt? s.cur q.toNat ≠ none →
    ∃ t, exec (.tinjData q ra rb tag bcast) s = .next t ∧ t.pc = s.pc + 8 ∧ KeepsMemory s t ∧
      (∃ pay : Pay, (t.port s.cur q.toNat).head = [{ kind := .data, fmt := tag, pay := pay }] ∧
        let a := (s.rdS ra).toNat
        let b := (s.rdS rb).toNat
        ∀ i, i < 16 → elem 32 pay i = if bcast then a % 2 ^ 32 else ([a % 2 ^ 32, a / 2 ^ 32, b % 2 ^ 32, b / 2 ^ 32] : List Nat).getD i 0) ∧
      (∀ j, j ≠ q.toNat → t.port s.cur j = s.port s.cur j)) ∧
  (p.reads = true → Waits s (.tinjData q ra rb tag bcast))

/-- R30, R79, R216: tinj.thread hands a token of its payload to the gate of its sector, to the instance that R357 names; an image without an entry queue takes HANDLE; a gate that holds two tokens for the queue makes it wait, which is the model's choice (log 50). -/
def Obligations.ThreadTokensInjected : Prop := ∀ (ra rb : Reg) (s : Machine.State) (k : Task) (n : Nat),
  let img := (s.rdS rb).toNat
  let x := s.sec s.cur
  (s.queueImage (s.rdS rb) = false → Traps s (.tinjThread ra rb) .handle (s.rdS rb)) ∧
  (s.queueImage (s.rdS rb) = true → s.task? x.task = some k → k.queueInst x.inst img = some n →
    ((k.packets.filter fun p => p.gate == s.cur && p.inst == n && p.img == img).length < 2 →
      ∃ t, exec (.tinjThread ra rb) s = .next t ∧ t.pc = s.pc + 8 ∧ KeepsMemory s t ∧
        t.task? k.id = some { k with packets := k.packets ++ [{ id := s.nextId, gate := s.cur, inst := n, img := img, pay := s.rdS ra }] }) ∧
    (2 ≤ (k.packets.filter fun p => p.gate == s.cur && p.inst == n && p.img == img).length → Waits s (.tinjThread ra rb)))

/-- R239, R240, R245, R411: mark stops the threads of its gang at the word after it, but for a thread whose trap has no record yet; it starts the markers once all have stopped, and notes the register that the resume writes; it waits while the context has no free save records for the gang. That the threads stop in the step of the mark is the model's choice (log 48). -/
def Obligations.MarkStartsAPreemption : Prop := ∀ (rd : Reg) (s : Machine.State) (k : Task),
  s.task? (s.sec s.cur).task = some k → k.pre = .none → s.cur ∈ k.sids →
  (s.saveRoom k = false → Waits s (.mark rd)) ∧
  (s.saveRoom k = true → ∃ t, exec (.mark rd) s = .next t ∧ t.pc = s.pc + 8 ∧ t.th.markSd = some rd ∧ KeepsMemory s t ∧
    (let early := fun (j : Nat) => j ≠ s.cur ∧ ∃ c, (s.sec j).th.wait = .record c
     (∀ j ∈ k.sids, ¬early j → (t.sec j).th.stopped = true) ∧ (∀ j ∈ k.sids, early j → (t.sec j).th = (s.sec j).th) ∧
     ((∀ j ∈ k.sids, ¬early j) → t.task? k.id = some { k with pre := .markers }) ∧
     ((∃ j ∈ k.sids, early j ∧ (s.sec j).th.stopped = false) → t.task? k.id = some { k with pre := .threads })) ∧
    (∀ j, j ∉ k.sids → t.sec j = s.sec j))

/-- R305, R307, R309 to R311, R340: cpy, gath and scat issue their operation over the map's elements; one whose index list stands in poisoned granules is listed as failed, with the first of them (R317, R410). R305 to R309: the checks of these words: a tag other than a map's takes HANDLE with the tag, an index list where none may be, or none where one must be, and a scat's map that is not virtual take HANDLE; a scratch destination that is not a multiple of 512 takes MISALIGNED and one past its end XLATE_FAULT; a destination on an SF page takes PERMISSION, and one on a page that maps scratch, not a multiple of 512, MISALIGNED; an edge slice takes MISALIGNED below 64 bytes and XLATE_FAULT past its area; a scat takes PERMISSION at the first address that it writes on an SF page. A destination whose entry is being replaced makes the word wait (R364), and so does a lack of room; an accepted one has the bits of its chunks cleared. That a word waits for the acknowledgements of its thread's stores, that a destination's kind is that of its first page, and the values and order of these checks for edge slices and scat are the model's choices (log 41, 103, 19, 43, 46). -/
def Obligations.CopiesAreIssuedAndChecked : Prop :=
  (∀ (rd ra rb : Reg) (dh dm : DReg) (s : Machine.State) (tgt : EngTo),
    let d := s.rdD dm
    let base := s.rdS rb
    let len := (d.addBase base).bytes
    d.tag = tagTmap → MayIssue s →
    (s.indexBad d = false →
    (s.engDest (s.rdS ra) len = .ok tgt → d.win = true ∨ d.idx = false → Issues s (.cpy rd dh dm ra rb .mem) dh rd (listedOp s d base len .cpy tgt)) ∧
    (s.engDest (s.rdS ra) len = .ok tgt → d.win = false → d.idx = true → Issues s (.gath rd dh dm ra rb .mem) dh rd (listedOp s d base len .gath tgt)) ∧
    ((d.addBase base).base < 2 ^ 55 → (∀ a ∈ s.scatBytes (d.addBase base), ScatMay s a) →
      Issues s (.scat rd dh dm ra rb) dh rd
        { listedOp s d base len .scat (.virt (BitVec.ofNat 64 (d.addBase base).base)) with src := s.rdS ra }) ∧
    (∀ prog slice, (s.rdS ra).toNat % 64 = 0 → (s.rdS ra).toNat + len ≤ (if prog then 256 else 2 ^ 20) →
      let to_ := EngTo.edge prog (dieOf s.cur * 128 + slice.toNat) (s.rdS ra).toNat
      (d.win = true ∨ d.idx = false → Issues s (.cpy rd dh dm ra rb (.edge prog slice)) dh rd (listedOp s d base len .cpy to_)) ∧
      (d.win = false → d.idx = true → Issues s (.gath rd dh dm ra rb (.edge prog slice)) dh rd (listedOp s d base len .gath to_)))) ∧
    (∀ g, s.badIndex d = some g → s.engDest (s.rdS ra) len = .ok tgt →
      Issues s (.gath rd dh dm ra rb .mem) dh rd { listedOp s d base len .gath tgt with st := .failed, status := 0x03, failAddr := sAddr (g * 64) })) ∧
  (∀ (rd ra rb : Reg) (dh dm : DReg) (dst : EngDst) (s : Machine.State),
    let d := s.rdD dm
    let m := d.addBase (s.rdS rb)
    let to_ := s.rdS ra
    let drawn : Machine.State := { s with fresh := s.fresh + 1 }
    let cpy := Instr.cpy rd dh dm ra rb dst
    let gath := Instr.gath rd dh dm ra rb dst
    let scat := Instr.scat rd dh dm ra rb
    let traps := fun (i : Instr) (c : Cause) (v : Word) => exec i s = .next (drawn.takeTrap c v)
    let holds := fun (i : Instr) => exec i s = .next drawn
    let fits := fun (i : Instr) => (i = cpy ∧ (d.win = true ∨ d.idx = false)) ∨ (i = gath ∧ d.win = false ∧ d.idx = true)
    (d.tag ≠ tagTmap → ∀ i ∈ [cpy, gath, scat], traps i .handle (d.tag.setWidth 64)) ∧
    (d.tag = tagTmap →
      (d.win = false → d.idx = true → ∃ v, traps cpy .handle v) ∧ (d.win = true ∨ d.idx = false → ∃ v, traps gath .handle v) ∧
      (2 ^ 55 ≤ m.base → ∃ v, traps scat .handle v) ∧
      (m.base < 2 ^ 55 → ∀ l a r, s.scatBytes m = l ++ a :: r → (∀ x ∈ l, ScatMay s x) → a.toNat < 2 ^ 55 → ∀ i e, findRt (s.ctx s.ctxId).rt a.toNat = some (i, e) →
        (s.rtHeld s.ctxId i = true → holds scat) ∧ (s.rtHeld s.ctxId i = false → pwValid e.pw e.frame = true → pwKind e.pw = 1 → traps scat .permission a)) ∧
      (m.base < 2 ^ 55 → (∀ a ∈ s.scatBytes m, ScatMay s a) → ¬MayIssue s → holds scat) ∧
      ∀ i, fits i →
        (dst = .mem → isS to_ = true → (to_.toNat % 512 ≠ 0 → traps i .misaligned to_) ∧
          (to_.toNat % 512 = 0 → 2 ^ 22 < sOff to_ + (m.bytes + 511) / 512 * 512 → traps i .xlateFault 0)) ∧
        (dst = .mem → to_.toNat < 2 ^ 55 → ∀ n e, findRt (s.ctx s.ctxId).rt to_.toNat = some (n, e) →
          (s.rtHeld s.ctxId n = true → holds i) ∧
          (s.rtHeld s.ctxId n = false → pwValid e.pw e.frame = true →
            (pwKind e.pw = 1 → traps i .permission to_) ∧ (pwKind e.pw = 2 → to_.toNat % 512 ≠ 0 → traps i .misaligned to_))) ∧
        (∀ prog slice, dst = .edge prog slice →
          let size := if prog then 256 else 2 ^ 20
          (to_.toNat % 64 ≠ 0 → traps i .misaligned to_) ∧
          (to_.toNat % 64 = 0 → size < to_.toNat + m.bytes → traps i .xlateFault (BitVec.ofNat 64 size)) ∧
          (to_.toNat % 64 = 0 → to_.toNat + m.bytes ≤ size → ¬MayIssue s → holds i)) ∧
        (∀ tgt, dst = .mem → s.engDest to_ m.bytes = .ok tgt → ¬MayIssue s → holds i) ∧
        (dst = .mem → isS to_ = true → to_.toNat % 512 = 0 → sOff to_ + (m.bytes + 511) / 512 * 512 ≤ 2 ^ 22 → MayIssue s →
          ∃ t, exec i s = .next t ∧ ChunksCleared s t (sOff to_) m.bytes ∧ KeepsMemory s t ∧ (∀ j, j ≠ s.cur → t.sec j = s.sec j))))

/-- R312: the coll words issue their operation, the n-th of its thread, with the size of its result. The size of a domain gather is the model's choice (log 45). -/
def Obligations.CollectivesAreIssued : Prop :=
  ∀ (fmt : BitVec 4) (sc : CollScope) (rd ra rb : Reg) (dh dm : DReg) (s : Machine.State) (tgt : EngTo),
  let d := s.rdD dm
  let dom := sc == .domain
  let all := d.bytes * s.gangSids.length * (if dom then (s.rdS rb).toNat / 2 ^ 16 % 2 ^ 16 else 1)
  let op := fun (f len : Nat) => { listedOp s d 0 len (.coll f fmt dom) tgt with seqn := s.th.count .coll + 1, key := s.rdS rb }
  d.tag = tagTmap → MayIssue s → s.indexBad d = false →
  (s.engDest (s.rdS ra) d.bytes = .ok tgt →
    Issues s (.collSum fmt sc rd dh dm ra rb) dh rd (op 0 d.bytes) ∧
    Issues s (.collMax fmt sc rd dh dm ra rb) dh rd (op 1 d.bytes) ∧
    Issues s (.collMin fmt sc rd dh dm ra rb) dh rd (op 2 d.bytes) ∧
    Issues s (.collBcast fmt sc rd dh dm ra rb) dh rd (op 4 d.bytes)) ∧
  (s.engDest (s.rdS ra) all = .ok tgt → Issues s (.collGather fmt sc rd dh dm ra rb) dh rd (op 3 all))

/-- R313, R314, R348, R352: publ notes its publish and uses up the handle; inst and stage issue their operations over whole flash pages; rstr gives its issue status, code by code, and an accepted one sets MIG of its entry. Their traps: another tag than theirs takes HANDLE with the tag; publ of a handle that names no operation or a published one takes HANDLE with 5, of an install or a stage with 6; an install's or stage's map that is no dense range takes HANDLE with 0x301, one of no whole pages with 0x302, and a base or destination inside a page MISALIGNED; a status word takes MISALIGNED, XLATE_FAULT and PERMISSION. An rstr takes no trap (R313). -/
def Obligations.PublishFlashAndRestripeWords : Prop :=
  ∀ (rd ra rb : Reg) (dh dm : DReg) (key : Option (BitVec 4)) (s : Machine.State) (o : EngOp),
  let d := s.rdD dm
  let flashOp := fun (kind : EngKind) (tgt : EngTo) (x : Tgt) =>
    ({ id := 0, kind := kind, sid := 0, ctx := 0, task := 0, desc := d, src := BitVec.ofNat 64 d.base, tgt := tgt, len := d.bytes,
       word := s.rdS rb, keySlot := key, order := s.nextId, stAt := x.held } : EngOp)
  let dense := d.tag = tagTmap ∧ d.win = false ∧ d.idx = false ∧ d.dims = 1 ∧ d.stride 0 = d.esz ∧ d.bytes % 16384 = 0 ∧ d.base % 16384 = 0
  (d.tag = tagEngine → s.op? d.img.toNat = some o → o.kind ≠ .inst → o.kind ≠ .stage → o.publ = none → o.live = true → ∀ x, StatusWordAt s (s.rdS ra) x →
    ∃ t, exec (.publ rd dm ra rb) s = .next t ∧ t.pc = s.pc + 8 ∧ t.rdS rd = (if rd = 0 then 0 else BitVec.ofNat 64 o.due) ∧
      t.rdD dm = {} ∧ t.op? o.id = some { o with publ := some (s.rdS ra, s.rdS rb), order := s.nextId, stAt := x.held } ∧ KeepsMemory s t) ∧
  (∀ x, dense → StatusWordAt s (s.rdS rb) x → MayIssue s →
    ((s.rdS ra).toNat % 16384 = 0 → Issues s (.inst rd dh dm ra rb key) dh rd (flashOp .inst (.virt (s.rdS ra)) x)) ∧
    Issues s (.stage rd dh dm rb key) dh rd (flashOp .stage (.virt (BitVec.ofNat 64 d.base)) x)) ∧
  (let i := Instr.rstr rd dh ra rb
   let va := s.rdS ra
   let pw := (s.rdS rb).setWidth 32
   (s.rstrHeld va = true → Waits s i) ∧
   (s.rstrHeld va = false →
    (∀ k, s.rstrCheck va (s.rdS rb) = .inl k → ∃ t, exec i s = .next t ∧ t.pc = s.pc + 8 ∧
      t.rdS rd = (if rd = 0 then 0 else k.setWidth 64) ∧ t.rdD dh = {} ∧ KeepsMemory s t ∧ AccessFrame s t) ∧
    (∀ n e, s.rstrCheck va (s.rdS rb) = .inr (n, e) → MayIssue s → ∃ t p, exec i s = .next t ∧ t.pc = s.pc + 8 ∧
      t.rdS rd = 0 ∧ t.rdD dh = engHandle s.nextId ∧ Tab.find (t.ctx s.ctxId).rt n = some (e.setMig true) ∧ KeepsMemory s t ∧
      t.ops = s.ops ++ [issuedOp s (restripe s.ctxId n va pw) p]))) ∧
  (∀ (c : BitVec 8) (n : Nat) (va : Word) (pw : BitVec 32), restripe c n va pw =
    { id := 0, kind := .rstr, sid := 0, ctx := c, task := 0, src := va, entry := n, pw := pw, tgt := .virt va }) ∧
  (let va := s.rdS ra
   let v := s.rdS rb
   let pw := v.toNat % 2 ^ 32
   ((2 ^ 55 ≤ va.toNat ∨ findRt (s.ctx s.ctxId).rt va.toNat = none) → s.rstrCheck va v = .inl 0x01) ∧
   (∀ n e, va.toNat < 2 ^ 55 → findRt (s.ctx s.ctxId).rt va.toNat = some (n, e) →
    (pwValid e.pw e.frame = false → s.rstrCheck va v = .inl 0x01) ∧
    (pwValid e.pw e.frame = true →
      ((pwKind e.pw ≠ 0 ∨ pwKind pw ≠ 0) → s.rstrCheck va v = .inl 0x02) ∧
      (pwKind e.pw = 0 → pwKind pw = 0 → (v.toNat / 2 ^ 32 ≠ 0 ∨ pwValid pw 0 = false) → s.rstrCheck va v = .inl 0x03) ∧
      (pwKind e.pw = 0 → pwKind pw = 0 → v.toNat / 2 ^ 32 = 0 → pwValid pw 0 = true →
        (pwVer e.pw ≠ pwVer pw → s.rstrCheck va v = .inl 0x04) ∧
        (pwVer e.pw = pwVer pw → (∃ k, s.rstrCheck va v = .inl k) → s.rstrCheck va v = .inl 0x05) ∧
        (pwVer e.pw = pwVer pw → (∀ k, s.rstrCheck va v ≠ .inl k) → s.rstrCheck va v = .inr (n, e)))))) ∧
  (let publ := Instr.publ rd dm ra rb
   let inst := Instr.inst rd dh dm ra rb key
   let stage := Instr.stage rd dh dm rb key
   let status := fun (i : Instr) (a : Word) =>
     (a.toNat % 8 ≠ 0 → Traps s i .misaligned a) ∧
     (a.toNat % 8 = 0 → (s.xlate s.ctxId s.cur a .both = .fault → Traps s i .xlateFault a) ∧ (s.xlate s.ctxId s.cur a .both = .perm → Traps s i .permission a) ∧
       ∀ t, s.xlate s.ctxId s.cur a .both = .ok t → t.ver = false → Traps s i .permission a)
   (d.tag ≠ tagEngine → Traps s publ .handle (d.tag.setWidth 64)) ∧
   (d.tag = tagEngine →
     (s.op? d.img.toNat = none → Traps s publ .handle 0x5) ∧
     (s.op? d.img.toNat = some o → o.kind = .inst ∨ o.kind = .stage → Traps s publ .handle 0x6) ∧
     (s.op? d.img.toNat = some o → o.kind ≠ .inst → o.kind ≠ .stage → (o.publ ≠ none ∨ o.live = false → Traps s publ .handle 0x5) ∧
       (o.publ = none → o.live = true → status publ (s.rdS ra)))) ∧
   (d.tag ≠ tagTmap → Traps s inst .handle (d.tag.setWidth 64) ∧ Traps s stage .handle (d.tag.setWidth 64)) ∧
   (d.tag = tagTmap → (d.win = true ∨ d.idx = true ∨ d.dims ≠ 1 ∨ d.stride 0 ≠ d.esz) → Traps s inst .handle 0x301 ∧ Traps s stage .handle 0x301) ∧
   (d.tag = tagTmap → d.win = false → d.idx = false → d.dims = 1 → d.stride 0 = d.esz →
     (d.bytes % 16384 ≠ 0 → Traps s inst .handle 0x302 ∧ Traps s stage .handle 0x302) ∧
     (d.bytes % 16384 = 0 → d.base % 16384 ≠ 0 →
       Traps s inst .misaligned (BitVec.ofNat 64 d.base) ∧ Traps s stage .misaligned (BitVec.ofNat 64 d.base)) ∧
     (d.bytes % 16384 = 0 → d.base % 16384 = 0 →
       ((s.rdS ra).toNat % 16384 ≠ 0 → Traps s inst .misaligned (s.rdS ra)) ∧ ((s.rdS ra).toNat % 16384 = 0 → status inst (s.rdS rb)) ∧ status stage (s.rdS rb))))

/-- R64, R104, R117, R195, R199, R410: when an element slot does not compute: a token missing makes it wait, and so does a dithering operation of a later stage of its cell that has had its turn in this cycle (log 121), and whatever else keeps the slot from acting, as a region that cannot yet begin its next wave (log 118); EOS at every operand passes one EOS to each target, unless one of the tokens is poisoned, and with an EOS at every fed input the slot has sent its EOS (R234); EOS at only some operands, a poisoned token, or a tag that differs from the one needed is a region fault, of cause FORMAT, POISON and FORMAT, and of the firing's wave. The order of these checks, end of stream, poison, tag, is the model's choice (log 34). -/
def Obligations.ElementSlotRules : Prop := ∀ e ∈ elementOps, ∀ (w : FabW) (s : Machine.State), (s.fab? w = none → Waits s (e.1 w)) ∧
  ∀ (f : Fab) (l : List (Nat × Token)), SlotActs s w f →
  (s.heads f [0, 1, 2, 3] = none → Waits s (e.1 w)) ∧
  (s.ditherLate f = true → Waits s (e.1 w)) ∧
  (s.ditherLate f = false → s.heads f [0, 1, 2, 3] = some l → l ≠ [] →
    ((∃ p ∈ l, p.1 < 3 ∧ p.2.kind = .eos) → (∃ p ∈ l, p.1 < 3 ∧ p.2.kind ≠ .eos) → exec (e.1 w) s = .next (s.regionFault f .format (waveOf l) 0)) ∧
    ((∃ p ∈ l, p.1 < 3 ∧ p.2.kind = .eos) → (∀ p ∈ l, p.1 < 3 → p.2.kind = .eos) →
      ((∃ p ∈ l, p.2.poison = true) → exec (e.1 w) s = .next (s.regionFault f .poison (waveOf l) 0)) ∧
      ((∀ p ∈ l, p.2.poison = false) → ∀ u, s.sendAll f (f.both (eosToken (waveOf l))) = some u →
        exec (e.1 w) s = .next (passedState u f l (u.opSt f)) ∧
          ((∀ p ∈ l, p.2.kind = .eos) → (f.noteEos (u.opSt f) l).eosSent = true))) ∧
    (NoEos l → (∃ p ∈ l, p.2.poison = true) → exec (e.1 w) s = .next (s.regionFault f .poison (waveOf l) 0)) ∧
    (NoEos l → (∀ p ∈ l, p.2.poison = false) → tagsOk (e.2 w) l = false → exec (e.1 w) s = .next (s.regionFault f .format (waveOf l) 0)))

/-- R117, R119 to R123, R135: the integer element operations, each element by its rule: with the words' makes spelt out for vmad (one product and sum, or the exact sum of a lane's products), vcmp, vsel and vred (a pairwise tree of additions, or one exact sum), where fitInt brings an exact number into the format as IntegerElementsWrapOrSaturate says. -/
def Obligations.IntegerElementFirings : Prop :=
 (∀ (w : FabW) (a b c : Pay), fmtInt w.fmt = true →
  let wd := fmtWidth w.fmt
  let per := 32 / wd
  let A := fun k => intVal w.fmt (elem wd a k)
  let B := fun k => intVal w.fmt (elem wd b k)
  let t := wideTag w.fmt
  (w.x = 0 → (vmadMake w a b c).tag = w.fmt ∧
    ∀ k, k < 512 / wd → elem wd (vmadMake w a b c).pay k = (fitInt w.fmt w.sat (A k * B k + intVal w.fmt (elem wd c k))).1) ∧
  (w.x ≠ 0 → (vmadMake w a b c).tag = t ∧ ∀ i, i < 16 → elem 32 (vmadMake w a b c).pay i =
    (fitInt t w.sat (intVal t (elem 32 c i) + ((List.range per).map fun j => A (i * per + j) * B (i * per + j)).sum)).1) ∧
  ((vcmpMake w a b).tag = 15 ∧ (vcmpMake w a b).fl = 0 ∧ ∀ k, k < 512 / wd → (predBit wd (vcmpMake w a b).pay k = true ↔
    match w.x.toNat with
    | 0 => A k = B k
    | 1 => A k ≠ B k
    | 2 => A k < B k
    | 3 => B k ≤ A k
    | 4 => A k ≤ B k
    | _ => B k < A k)) ∧
  ((vselMake w a b c).tag = w.fmt ∧ (vselMake w a b c).fl = 0 ∧ ∀ k, k < 512 / wd →
    elem wd (vselMake w a b c).pay k = if predBit wd c k then elem wd a k else elem wd b k) ∧
  (w.x = 0 → (vredMake w a).tag = w.fmt ∧ ∀ n, 2 ^ n = 512 / wd → ∃ T : Nat → Nat → Nat, (∀ k, k < 2 ^ n → T 0 k = elem wd a k) ∧
    (∀ i k, i < n → T (i + 1) k = (fitInt w.fmt w.sat (intVal w.fmt (T i (2 * k)) + intVal w.fmt (T i (2 * k + 1)))).1) ∧ AllElems wd (vredMake w a) (T n 0)) ∧
  (w.x ≠ 0 → (vredMake w a).tag = t ∧ AllElems 32 (vredMake w a) (fitInt t w.sat ((List.range (512 / wd)).map A).sum).1) ∧
  t = (if w.fmt = 1 ∨ w.fmt = 3 ∨ w.fmt = 5 then 5 else 6)) ∧
 ∀ (w : FabW) (s : Machine.State),
  let n := needAB w.fmt
  let wd := fmtWidth w.fmt
  ElementResult s (.vadd w) w n (fun a b _ _ => intOp w.fmt w.sat (fun x y => x + y) a b) ∧
  ElementResult s (.vsub w) w n (fun a b _ _ => intOp w.fmt w.sat (fun x y => x - y) a b) ∧
  ElementResult s (.vaddsat w) w n (fun a b _ _ => intOp w.fmt true (fun x y => x + y) a b) ∧
  ElementResult s (.vsubsat w) w n (fun a b _ _ => intOp w.fmt true (fun x y => x - y) a b) ∧
  ElementResult s (.vmul w) w n (fun a b _ _ => intOp w.fmt w.sat (fun x y => x * y) a b) ∧
  ElementResult s (.vmulh w) w n (fun a b _ _ => intOp w.fmt false (fun x y => x * y / (2 ^ wd : Nat)) a b) ∧
  ElementResult s (.vmad w) w ((2, if w.x = 0 then w.fmt else wideTag w.fmt) :: n) (fun a b c _ => vmadMake w a b c) ∧
  ElementResult s (.vabs w) w n (fun a _ _ _ => intOp w.fmt w.sat (fun x _ => x.natAbs) a a) ∧
  ElementResult s (.vneg w) w n (fun a _ _ _ => intOp w.fmt w.sat (fun x _ => -x) a a) ∧
  ElementResult s (.vmin w) w n (fun a b _ _ => intOp w.fmt false min a b) ∧
  ElementResult s (.vmax w) w n (fun a b _ _ => intOp w.fmt false max a b) ∧
  ElementResult s (.vand w) w n (fun a b _ _ => bitOp w.fmt (fun x y => x &&& y) a b) ∧
  ElementResult s (.vor w) w n (fun a b _ _ => bitOp w.fmt (fun x y => x ||| y) a b) ∧
  ElementResult s (.vxor w) w n (fun a b _ _ => bitOp w.fmt (fun x y => x ^^^ y) a b) ∧
  ElementResult s (.vnot w) w n (fun a _ _ _ => bitOp w.fmt (fun x _ => 2 ^ wd - 1 - x) a a) ∧
  ElementResult s (.vshl w) w n (fun a b _ _ => madeElems w.fmt fun k => shlVal w.fmt w.sat (intVal w.fmt (elem wd a k)) (elem wd b k)) ∧
  ElementResult s (.vshr w) w n (fun a b _ _ => bitOp w.fmt (fun x k => if k < wd then x / 2 ^ k else 0) a b) ∧
  ElementResult s (.vsra w) w n (fun a b _ _ => bitOp w.fmt (sraVal wd) a b) ∧
  ElementResult s (.vclz w) w n (fun a _ _ _ => bitOp w.fmt (fun x _ => if x = 0 then wd else wd - 1 - lg x) a a) ∧
  ElementResult s (.vpopc w) w n (fun a _ _ _ => bitOp w.fmt (fun x _ => ((List.range wd).filter fun k => bitAt x k).length) a a) ∧
  ElementResult s (.vcmp w) w n (fun a b _ _ => vcmpMake w a b) ∧
  ElementResult s (.vsel w) w ((2, 15) :: n) (fun a b p _ => vselMake w a b p) ∧
  ElementResult s (.vred w) w n (fun a _ _ _ => vredMake w a)

/-- R94, R111, R120: fitInt, and with it an integer element operation, gives each element's exact value where the format holds it, wraps otherwise, and under saturation goes to the nearer limit and raises SV. -/
def Obligations.IntegerElementsWrapOrSaturate : Prop := ∀ (fmt : BitVec 4) (sat : Bool) (g : Int → Int → Int) (a b : Pay) (k : Nat),
  fmtInt fmt = true → k < 512 / fmtWidth fmt →
  (∀ v, let c := fitInt fmt sat v
    let r := intVal fmt c.1
    c.1 < 2 ^ fmtWidth fmt ∧ intMin fmt ≤ r ∧ r ≤ intMax fmt ∧ (intMin fmt ≤ v → v ≤ intMax fmt → r = v ∧ c.2 = 0) ∧
    (sat = false → (2 ^ fmtWidth fmt : Int) ∣ r - v ∧ c.2 = 0) ∧ (sat = true → intMax fmt < v → r = intMax fmt ∧ c.2 = fSV) ∧
    (sat = true → v < intMin fmt → r = intMin fmt ∧ c.2 = fSV)) ∧
  let m := intOp fmt sat g a b
  let r := intVal fmt (elem (fmtWidth fmt) m.pay k)
  let v := g (intVal fmt (elem (fmtWidth fmt) a k)) (intVal fmt (elem (fmtWidth fmt) b k))
  m.tag = fmt ∧ intMin fmt ≤ r ∧ r ≤ intMax fmt ∧
  (intMin fmt ≤ v → v ≤ intMax fmt → r = v) ∧
  (sat = false → (2 ^ fmtWidth fmt : Int) ∣ r - v ∧ m.fl = 0) ∧
  (sat = true → intMax fmt < v → r = intMax fmt ∧ m.fl = fSV) ∧
  (sat = true → v < intMin fmt → r = intMin fmt ∧ m.fl = fSV) ∧
  (sat = true → (∀ j, j < 512 / fmtWidth fmt →
    let u := g (intVal fmt (elem (fmtWidth fmt) a j)) (intVal fmt (elem (fmtWidth fmt) b j))
    intMin fmt ≤ u ∧ u ≤ intMax fmt) → m.fl = 0)

/-- R119, R124 to R129, R136: the floating element operations, each element with the word's mode and its own dither index. On finite operands fadd, fsub, fmul, ffma and fldx are one rounding of the exact number, with R125's zero signs left to the reading that is rounded, and fexp2 of an integer n is one rounding of 2^n; the one-operand functions give the special results of R128; fmin, fmax and fcmp follow the order of the exact numbers, with NaNs as R126 and R127 say; fexpo gives the exponent; fred adds up a pairwise tree. That the other results of frcp, frsq, fsqrt, fexp2 and flog2 are the exact values rounded once rests on the bits that the model carries (log 10). -/
def Obligations.FloatElementFirings : Prop :=
 (∀ (f : BitVec 4) (rnd : BitVec 3) (sat : Bool) (idx x y z : Nat) (nx ny nz : Bool) (mx my mz : Nat) (ex ey ez : Int),
  decodeVal f x = .fin nx mx ex → decodeVal f y = .fin ny my ey → decodeVal f z = .fin nz mz ez →
  let X := exactOf nx mx ex
  let Y := exactOf ny my ey
  let Z := exactOf nz mz ez
  OneRounding f rnd sat idx (faddCode f rnd sat idx x y) (X + Y) ∧
  OneRounding f rnd sat idx (fsubCode f rnd sat idx x y) (X - Y) ∧
  OneRounding f rnd sat idx (fmulCode f rnd sat idx x y) (X * Y) ∧
  OneRounding f rnd sat idx (ffmaCode f rnd sat idx x y z) (X * Y + Z) ∧
  (∀ n : Int, OneRounding f rnd sat idx (fldxCode f rnd sat idx x n) (X * 2 ^ n)) ∧
  (∀ n : Int, X = n → OneRounding f rnd sat idx (funCode .exp2 f rnd sat idx x) (2 ^ n)) ∧
  (∀ c : Nat, fcmpBit f c x y = true ↔ match c with
    | 0 => X = Y
    | 1 => X ≠ Y
    | 2 => X < Y
    | 3 => Y ≤ X
    | 4 => X ≤ Y
    | 6 => False
    | _ => Y < X) ∧
  (X < Y → fminCode f false x y = (x, 0) ∧ fminCode f true x y = (y, 0)) ∧ (Y < X → fminCode f false x y = (y, 0) ∧ fminCode f true x y = (x, 0)) ∧
  (fexpoCode f x = if mx = 0 then (intCode (fmtWidth (expTag f)) (intMin (expTag f)), fDZ) else (intCode (fmtWidth (expTag f)) (ex + Nat.log2 mx), 0))) ∧
 (∀ (f : BitVec 4) (rnd : BitVec 3) (sat neg : Bool) (idx x y c : Nat) (e : Int) (g : Fun1),
  let gives := fun (v : Val) (fl : FlagSet) => funCode g f rnd sat idx x = ((roundVal f rnd sat idx v).1, (roundVal f rnd sat idx v).2 ||| fl)
  (decodeVal f x = .fin neg 0 e → match g with
    | .rcp => gives (.inf neg) fDZ
    | .rsq => gives (.inf neg) fDZ
    | .sqrt => gives (.fin neg 0 0) 0
    | .exp2 => gives (.fin false 1 0) 0
    | .log2 => gives (.inf true) fDZ) ∧
  (decodeVal f x = .inf false → match g with
    | .rcp => gives (.fin false 0 0) 0
    | .rsq => gives (.fin false 0 0) 0
    | .sqrt => gives (.inf false) 0
    | .exp2 => gives (.inf false) 0
    | .log2 => gives (.inf false) 0) ∧
  (decodeVal f x = .inf true → match g with
    | .rcp => gives (.fin true 0 0) 0
    | .rsq => gives .nan fNV
    | .sqrt => gives .nan fNV
    | .exp2 => gives (.fin false 0 0) 0
    | .log2 => gives .nan fNV) ∧
  (decodeVal f x = .nan → fcmpBit f c x y = decide (c = 1 ∨ c = 6) ∧
    ((fminCode f false x y).1 = if decodeVal f y = .nan then canonNan f else y) ∧ ((fminCode f true x y).1 = if decodeVal f y = .nan then canonNan f else y))) ∧
 (∀ (w : FabW) (a : Pay) (n : Nat), 2 ^ n = 512 / fmtWidth w.fmt →
  let t : BitVec 4 := if w.x = 0 then w.fmt else 7
  (fredMake w a).tag = t ∧ ∃ T : Nat → Nat → Nat,
    (∀ k, k < 2 ^ n → T 0 k = if w.x = 0 then elem (fmtWidth w.fmt) a k else (convert w.fmt 7 0 false 0 (elem (fmtWidth w.fmt) a k)).1) ∧
    (∀ i k, i < n → T (i + 1) k = (faddCode t 0 false 0 (T i (2 * k)) (T i (2 * k + 1))).1) ∧ AllElems (fmtWidth t) (fredMake w a) (T n 0 % 2 ^ fmtWidth t)) ∧
 ∀ (w : FabW) (s : Machine.State),
  let n := needAB w.fmt
  let two := fun (g : Nat → Nat → Nat → Coded) (a b _p : Pay) (ph : Nat) => floatOp w ph g a b
  let one := fun (g : Nat → Nat → Coded) (a _b _p : Pay) (ph : Nat) => floatOp w ph (fun i x _ => g i x) a a
  ElementResult s (.fadd w) w n (two (faddCode w.fmt w.rnd w.sat)) ∧
  ElementResult s (.fsub w) w n (two (fsubCode w.fmt w.rnd w.sat)) ∧
  ElementResult s (.fmul w) w n (two (fmulCode w.fmt w.rnd w.sat)) ∧
  ElementResult s (.ffma w) w ((2, w.fmt) :: n) (fun a b c ph => madeElems w.fmt fun k => ffmaCode w.fmt w.rnd w.sat ((k + ph) % 32)
    (elem (fmtWidth w.fmt) a k) (elem (fmtWidth w.fmt) b k) (elem (fmtWidth w.fmt) c k)) ∧
  ElementResult s (.fmin w) w n (two fun _ x y => fminCode w.fmt false x y) ∧
  ElementResult s (.fmax w) w n (two fun _ x y => fminCode w.fmt true x y) ∧
  ElementResult s (.fabs w) w n (fun a _ _ _ => bitOp w.fmt (fun x _ => x % 2 ^ (fmtWidth w.fmt - 1)) a a) ∧
  ElementResult s (.fneg w) w n (fun a _ _ _ => bitOp w.fmt (fun x _ => x + 2 ^ (fmtWidth w.fmt - 1)) a a) ∧
  ElementResult s (.fcmp w) w n (fun a b _ _ => fcmpMake w a b) ∧
  ElementResult s (.frcp w) w n (one (funCode .rcp w.fmt w.rnd w.sat)) ∧
  ElementResult s (.frsq w) w n (one (funCode .rsq w.fmt w.rnd w.sat)) ∧
  ElementResult s (.fsqrt w) w n (one (funCode .sqrt w.fmt w.rnd w.sat)) ∧
  ElementResult s (.fexp2 w) w n (one (funCode .exp2 w.fmt w.rnd w.sat)) ∧
  ElementResult s (.flog2 w) w n (one (funCode .log2 w.fmt w.rnd w.sat)) ∧
  ElementResult s (.fldx w) w [(0, w.fmt), (1, expTag w.fmt)] (two fun i x y => fldxCode w.fmt w.rnd w.sat i x (intVal (expTag w.fmt) y)) ∧
  ElementResult s (.fexpo w) w n (fun a _ _ _ => madeElems (expTag w.fmt) fun k => fexpoCode w.fmt (elem (fmtWidth w.fmt) a k)) ∧
  ElementResult s (.fred w) w n (fun a _ _ _ => fredMake w a)

/-- R95, R97, R101, R102: rounding leaves every finite non-zero value of an IEEE format or of an 8-bit or 4-bit format with fields as it is, in every mode, and raises no flag. -/
def Obligations.FormatValuesRoundToThemselves : Prop :=
  ∀ (f : BitVec 4) (P : FloatP) (rnd : BitVec 3) (sat : Bool) (idx x : Nat) (neg : Bool) (m : Nat) (e : Int),
  floatP f = some P → x < 2 ^ fmtWidth f → decodeVal f x = .fin neg m e → m ≠ 0 → roundVal f rnd sat idx (.fin neg m e) = (x, 0)

/-- R109, R119, R130 to R134, R137: conversions and lane operations. cvt converts each lane's elements in place, or copies raw bits; pack converts into one part of each lane and keeps the rest of b; unpk converts one part of each lane; scl rounds the exact product with the scale of the element's block once; amax gives the largest magnitude everywhere; the lane operations move whole lanes. -/
def Obligations.ConversionAndLaneFirings : Prop :=
 (∀ (w : FabW) (a b : Pay) (ph : Nat),
  let ws := fmtWidth w.srcFmt
  let wd := fmtWidth w.fmt
  let conv := fun (d t : Nat) => (convert w.srcFmt w.fmt w.rnd w.sat ((d + ph) % 32) (elem ws a t)).1 % 2 ^ wd
  let scaled := fun (d t : Nat) => (sclCode w ((d + ph) % 32) (elem ws a t) (elem 8 b (t / 32))).1 % 2 ^ wd
  let at_ := fun (m : Made) (i k x : Nat) => elem wd m.pay (i * (32 / wd) + k) = x
  ((w.fmt = 0 ∨ w.srcFmt = 0) → cvtMake w a ph = { pay := a, tag := w.fmt, fl := 0 }) ∧
  ((cvtMake w a ph).tag = w.fmt ∧ (packMake w a b ph).tag = w.fmt ∧ (unpkMake w a ph).tag = w.fmt ∧ (sclMake w a b ph).tag = w.fmt) ∧
  (∀ i k, i < 16 → k < 32 / wd →
    (w.fmt ≠ 0 → w.srcFmt ≠ 0 → at_ (cvtMake w a ph) i k (if k < 32 / ws then conv (i * (32 / wd) + k) (i * (32 / ws) + k) else 0)) ∧
    at_ (packMake w a b ph) i k (if k / (32 / ws) = w.part then conv (i * (32 / wd) + k) (i * (32 / ws) + k % (32 / ws)) else elem wd b (i * (32 / wd) + k)) ∧
    at_ (unpkMake w a ph) i k (conv (i * (32 / wd) + k) (i * (32 / ws) + w.part * (32 / wd) + k)) ∧
    at_ (sclMake w a b ph) i k (if wd ≤ ws then (if k < 32 / ws then scaled (i * (32 / wd) + k) (i * (32 / ws) + k) else 0)
      else scaled (i * (32 / wd) + k) (i * (32 / ws) + w.part * (32 / wd) + k))) ∧
  (∀ idx x sc n m e, decodeVal w.srcFmt x = .fin n m e →
    (sc % 256 ≠ 255 → OneRounding w.fmt w.rnd w.sat idx (sclCode w idx x sc) (exactOf n m e * 2 ^ ((sc % 256 : Nat) - 127 : Int))) ∧
    (sc % 256 = 255 → sclCode w idx x sc = roundVal w.fmt w.rnd w.sat idx .nan)) ∧
  (let l := (List.range (512 / wd)).map (elem wd a) ++ [elem wd b 0]
   let r := amaxMake w a b
   let mag := fun x => min ((intVal w.fmt x).natAbs : Int) (intMax w.fmt)
   r.tag = w.fmt ∧
   (fmtInt w.fmt = true → ∃ c, AllElems wd r c ∧ (∃ x ∈ l, intVal w.fmt c = mag x) ∧ (∀ x ∈ l, mag x ≤ intVal w.fmt c) ∧
     (r.fl = if l.any fun x => decide (intMax w.fmt < (intVal w.fmt x).natAbs) then fSV else 0)) ∧
   (fmtInt w.fmt = false → (∃ x ∈ l, decodeVal w.fmt x = .nan) → AllElems wd r (canonNan w.fmt % 2 ^ wd) ∧
     (r.fl = if l.any (isSnan w.fmt) then fNV else 0)) ∧
   (fmtInt w.fmt = false → (∀ x ∈ l, decodeVal w.fmt x ≠ .nan) → r.fl = 0 ∧ ∃ x ∈ l, AllElems wd r ((roundVal w.fmt 0 false 0 (decodeVal w.fmt x).abs).1 % 2 ^ wd) ∧
     ∀ y ∈ l, (decodeVal w.fmt x).abs.lt (decodeVal w.fmt y).abs = false)) ∧
  (∀ (g : Nat → Nat) i, i < 16 → (laneMake w.fmt g).tag = w.fmt ∧ elem 32 (laneMake w.fmt g).pay i = g i % 2 ^ 32)) ∧
 ∀ (w : FabW) (s : Machine.State),
  let n := needAB w.fmt
  ElementResult s (.cvt w) w [(0, w.srcFmt)] (fun a _ _ ph => cvtMake w a ph) ∧
  ElementResult s (.pack w) w [(0, w.srcFmt), (1, w.fmt)] (fun a b _ ph => packMake w a b ph) ∧
  ElementResult s (.unpk w) w [(0, w.srcFmt)] (fun a _ _ ph => unpkMake w a ph) ∧
  ElementResult s (.scl w) w [(0, w.srcFmt), (1, 14)] (fun a b _ ph => sclMake w a b ph) ∧
  ElementResult s (.amax w) w n (fun a b _ _ => amaxMake w a b) ∧
  ElementResult s (.vshuf w) w [(0, w.fmt), (1, 6)] (fun a b _ _ => laneMake w.fmt fun i => elem 32 a (elem 32 b i % 16)) ∧
  ElementResult s (.vbc w) w n (fun a _ _ _ => laneMake w.fmt fun _ => elem 32 a (laneKey w)) ∧
  ElementResult s (.vrot w) w n (fun a _ _ _ => laneMake w.fmt fun i => elem 32 a ((i + laneKey w) % 16)) ∧
  ElementResult s (.vlane w) w n (fun a b _ _ => laneMake w.fmt fun i => if i = laneKey w then elem 32 b 0 else elem 32 a i)

/-- R196, R201 to R203, R207 to R210: the router operators, eosq, pass, dly and const. The values of an iter count up from lane 0 of its start token by lane 2, one for each lane of each token where `lanes` is 1, else one for each token; a const sends its immediate, in one lane alone where its word says so. That an iter takes its token at o with its start token, and which tokens a router operator checks, are the model's choices (log 131, 13). -/
def Obligations.RouterFirings : Prop :=
 (∀ (w : FabW) (a : Pay) (k i : Nat), i < 16 →
  elem 32 (iterValue w a k) i = (elem 32 a 0 + (if w.x.getLsbD 0 then 16 * k + i else k) * elem 32 a 2) % 2 ^ 32) ∧
 (∀ (w : FabW) (i : Nat), i < 16 →
  (w.x.getLsbD 4 = true → elem 32 (constPay w) i = if i = w.x.toNat % 16 then elem 32 (immPay w.fmt w.imm) 0 else 0) ∧
  (w.x.getLsbD 4 = false → ∀ k, k < 512 / fmtWidth w.fmt → elem (fmtWidth w.fmt) (constPay w) k = immElem w.fmt w.imm % 2 ^ fmtWidth w.fmt)) ∧
 ∀ (w : FabW) (s : Machine.State) (f : Fab) (l : List (Nat × Token)), SlotActs s w f →
  let o := s.opSt f
  let wv := waveOf l
  let a := { tokAt l 0 with wave := wv }
  let p := tokAt l 2
  let pOk := p.kind ≠ .eos ∧ p.fmt = 15
  (TokensAt s f [0, 2, 3] l → pOk → Passes s (.steer w) f l [(if bitAt p.pay.toNat 0 != w.x.getLsbD 0 then f.t0 else f.t1, a)] o) ∧
  (∀ pos, s.head f 2 = some p → p.poison = false → pOk → pos = (if bitAt p.pay.toNat 0 then 0 else 1) → TokensAt s f [2, pos, 3] l →
    Passes s (.merge w) f l (f.both { tokAt l pos with wave := wv }) o) ∧
  (TokensAt s f [0, 1, 3] l → Passes s (.join w) f l (f.both a) o) ∧
  (TokensAt s f [0, 3] l → Passes s (.fan w) f l (f.both a) o ∧ Passes s (.sink w) f l [] o ∧ Passes s (.pass w) f l (f.both a) o ∧
    Passes s (.dly w) f l (f.both a) o) ∧
  (TokensAt s f [0, 3] l → o.st = 0 → (tokAt l 0).kind ≠ .eos → Passes s (.carry w) f l [] { o with st := 1, hold := some a } ∧
    Passes s (.inv w) f l [] { o with st := 1, hold := some a }) ∧
  (∀ h, TokensAt s f [2, 3] l → o.st = 1 → o.hold = some h → pOk → bitAt p.pay.toNat 0 = true →
    Passes s (.carry w) f l [(f.t0, h)] { o with st := 2 } ∧ Passes s (.inv w) f l [(f.t0, h)] { o with st := 1 }) ∧
  (∀ h, TokensAt s f [2, 3] l → o.st = 1 → o.hold = some h → pOk → bitAt p.pay.toNat 0 = false →
    Passes s (.carry w) f l [(f.t1, h)] { o with st := 0, hold := none } ∧ Passes s (.inv w) f l [(f.t1, h)] { o with st := 0, hold := none }) ∧
  (∀ h, TokensAt s f [1, 3] l → o.st = 2 → o.hold = some h → (tokAt l 1).kind ≠ .eos →
    Passes s (.carry w) f l [] { o with st := 1, hold := some { tokAt l 1 with wave := h.wave } }) ∧
  (TokensAt s f [0, 3] l → o.hold = none → (tokAt l 0).kind ≠ .eos → (tokAt l 0).fmt = 5 → Passes s (.iter w) f l [] { o with hold := some a, k := 0 }) ∧
  (∀ h, o.hold = some h → o.k < bitsAt h.pay.toNat 32 32 →
    Passes s (.iter w) f [] [(f.t0, dataToken 5 (iterValue f.w h.pay o.k) h.wave), (f.t1, predToken true h.wave)] { o with k := o.k + 1 }) ∧
  (∀ h, o.hold = some h → bitsAt h.pay.toNat 32 32 ≤ o.k → Passes s (.iter w) f [] [(f.t1, predToken false h.wave)] { o with hold := none, k := 0 }) ∧
  (∀ t, s.head f (if f.fed 3 then 3 else 4) = some t → t.poison = false →
    Passes s (.const w) f [(if f.fed 3 then 3 else 4, t)] (f.both (dataToken w.fmt (constPay w) t.wave)) o) ∧
  (TokensAt s f [0, 3] l → (tokAt l 0).kind ≠ .eos → Passes s (.eosq w) f l [(f.t0, a), (f.t1, predToken true wv)] o) ∧
  (TokensAt s f [0, 3] l → (tokAt l 0).kind = .eos →
    Passes s (.eosq w) f l ((if w.x.getLsbD 0 then [(f.t0, a)] else []) ++ [(f.t1, predToken false wv)]) o)

/-- R143 to R145, R150: an mma takes its panel at b, its column scales at p with the key scales, then a row at a with its scale at p. The first token begins its tile, with a token at o where o is fed (log 122), or waits where the tile does not allow it; each row's groups go to the tile one by one, and the row's tokens are consumed with the last; after the last row of the last step the slot is done and sends its token. -/
def Obligations.MmaFirings : Prop := ∀ (w : FabW) (s : Machine.State) (f : Fab), SlotActs s w f →
  let o := s.opSt f
  let t := f.mmaTile
  let n := 16 * t.n
  let scaled := w.x.getLsbD 9
  (∀ b, s.head f 1 = some b → b.poison = false → b.kind ≠ .eos → b.fmt = w.fmt → o.step = 0 → o.panel = [] →
    (s.mayBegin f t = false → Waits s (.mma w)) ∧
    (s.mayBegin f t = true → f.fed 3 = false →
      let v := passedState (s.begin f t) f [(1, b)] { o with panel := [b], k := b.wave, st := 1 }
      exec (.mma w) s = .next v ∧ tcwState (v.tcw t) = .acc) ∧
    (s.mayBegin f t = true → f.fed 1 = true → f.fed 3 = true →
      (s.head f 3 = none → Waits s (.mma w)) ∧
      (∀ g, s.head f 3 = some g → g.poison = false →
        exec (.mma w) s = .next (passedState (s.begin f t) f [(1, b), (3, g)] { o with panel := [b], k := b.wave, st := 1 })))) ∧
  (∀ b, s.head f 1 = some b → b.poison = false → b.kind ≠ .eos → b.fmt = w.fmt → (o.step ≠ 0 ∨ o.panel ≠ []) → o.panel.length < n →
    exec (.mma w) s = .next (passedState s f [(1, b)] { o with panel := o.panel ++ [b], k := max o.k b.wave, st := 1 })) ∧
  (∀ p, s.head f 2 = some p → p.poison = false → p.kind ≠ .eos → p.fmt = 14 → scaled = true → n ≤ o.panel.length → o.scales.length < n →
    exec (.mma w) s = .next (passedState s f [(2, p)] { o with scales := o.scales ++ [p], k := max o.k p.wave })) ∧
  (∀ a, ∀ sc : Option Token, s.head f 0 = some a → (o.grp = 0 → badOperand a w.fmt = none) → n ≤ o.panel.length →
    (scaled = true → n ≤ o.scales.length ∧ s.head f 2 = sc ∧ ∃ p, sc = some p ∧ (o.grp = 0 → badOperand p 14 = none)) → (scaled = false → sc = none) →
    let l := (0, a) :: (sc.map fun p => (2, p)).toList
    let k := max o.k (waveOf l)
    let v := (s.mmaGroup t w.fmt o.pos o.grp a.pay (sc.map Token.pay) o.panel o.scales).noteTile f t
      (l.map (fun x => x.2.wave) ++ o.panel.map Token.wave ++ o.scales.map Token.wave)
    let last := groupsOf w.fmt ≤ o.grp + 1
    (¬last → exec (.mma w) s = .next (v.setOpSt f { o with grp := o.grp + 1 })) ∧
    (last → o.pos + 1 < t.m → exec (.mma w) s = .next (passedState v f l { o with grp := 0, pos := o.pos + 1, k := k })) ∧
    (last → t.m ≤ o.pos + 1 → o.step < w.imm.toNat / 4 % 4096 →
      exec (.mma w) s = .next (passedState v f l { o with grp := 0, pos := 0, k := k, step := o.step + 1, panel := [], scales := [] })) ∧
    (∀ u, last → t.m ≤ o.pos + 1 → w.imm.toNat / 4 % 4096 ≤ o.step → (v.doneMma f t).sendAll f (f.both (zeroToken k)) = some u →
      exec (.mma w) s = .next (passedState u f l { o with grp := 0, pos := 0, k := 0, step := 0, panel := [], scales := [], st := 2 })))

/-- R143, R150, R152 to R156, R159: mclr waits while its tile is ACC, and else leaves it as at reset; mnrm forms the status and sets the count to 0, normalises the rows one by one in float mode, and sends the status; mrd and mdrn wait for FULL; mrd sends the tile's tokens and leaves it FULL; mdrn takes its scales, sends the scaled tokens, to the exit that its token names when it steers, and leaves the tile EMPTY; a tainted tile gives a region fault. That they take their operands first and then one row or token in each turn, and that the whole tile control word is cleared, are the model's choices (log 40, 123). -/
def Obligations.TileFirings : Prop := ∀ (w : FabW) (s : Machine.State) (f : Fab) (l : List (Nat × Token)), SlotActs s w f →
  let o := s.opSt f
  let wv := waveOf l
  let t := f.tile
  let ready := TokensAt s f [0, 1, 2, 3] l ∧ NoEos l
  let status := dataToken 6 (s.mnrmStatus t) wv
  let steers := w.x.getLsbD 6 = true
  let taint := taintFault (s.tcw t)
  (ready → tcwState (s.tcw t) = .acc → Waits s (.mclr w)) ∧
  (∀ u, ready → tcwState (s.tcw t) ≠ .acc → (s.clearTile t).sendAll f (f.both (zeroToken wv)) = some u →
    let v := passedState u f l o
    exec (.mclr w) s = .next v ∧ v.tcw t = 0 ∧ v.rcOf t = 0 ∧
      ∀ k r int, k < t.n → r ∈ t.rows → ((v.sec t.sid).cell (t.c0 + k)).row int r = clearRow) ∧
  (ready → o.hold = none →
    (f.tileInt t = false →
      let v := passedState (s.setRc t 0) f l { o with hold := some status, k := 0 }
      exec (.mnrm w) s = .next v ∧ v.rcOf t = 0 ∧ v.tcw t = s.tcw t) ∧
    (∀ u, f.tileInt t = true → (s.setRc t 0).sendAll f (f.both status) = some u →
      let v := passedState u f l o
      exec (.mnrm w) s = .next v ∧ v.rcOf t = 0 ∧ v.tcw t = s.tcw t)) ∧
  (∀ h u, o.hold = some h →
    (o.k < t.m → exec (.mnrm w) s = .next ((s.normRowOf t o.k).setOpSt f { o with k := o.k + 1 })) ∧
    (t.m ≤ o.k → s.sendAll f (f.both h) = some u → exec (.mnrm w) s = .next (passedState u f [] { o with hold := none, k := 0 }))) ∧
  (ready → o.hold = none →
    (tcwState (s.tcw t) ≠ .full → Waits s (.mrd w)) ∧
    (tcwState (s.tcw t) = .full →
      (taint = none → exec (.mrd w) s = .next (passedState (s.raise f wv (tileFlags (s.tcw t))) f l { o with hold := some (zeroToken wv), k := 0 })) ∧
      (∀ c, taint = some c → exec (.mrd w) s = .next (s.regionFault f c wv 0)))) ∧
  (ready → o.hold = none → (steers → tagsOk [(0, 6)] l = true) →
    let big := steers ∧ w.x.toNat / 128 < (tokAt l 0).pay.toNat % 8
    (tcwState (s.tcw t) ≠ .full → Waits s (.mdrn w)) ∧
    (tcwState (s.tcw t) = .full →
      (taint = none → ¬big → exec (.mdrn w) s = .next (passedState s f (l.filter fun p => p.1 == 0 || p.1 == 3)
        { o with hold := some { tokAt l 0 with wave := wv }, panel := [], scales := [], st := 0 })) ∧
      (taint = none → big → exec (.mdrn w) s = .next (s.regionFault f .regionFault wv 0)) ∧
      (∀ c, taint = some c → exec (.mdrn w) s = .next (s.regionFault f c wv 0)))) ∧
  (∀ h c, o.hold = some h → taint = some c → exec (.mrd w) s = .next (s.regionFault f c h.wave 0) ∧ exec (.mdrn w) s = .next (s.regionFault f c h.wave 0)) ∧
  (∀ h u, o.hold = some h → taint = none →
    let r := rowToken w.fmt (16 * t.n) (o.k / t.m) fun j c =>
      roundVal w.fmt w.rnd false ((j + s.phaseOf f) % 32) (s.tileVal t (f.tileInt t) (o.k % t.m) c)
    let v := passedState u f [] (if rowTokens w.fmt (16 * t.n) * t.m ≤ o.k + 1 then { o with hold := none, k := 0 } else { o with k := o.k + 1 })
    s.sendAll f (f.both (dataToken w.fmt r.1 h.wave)) = some u →
    exec (.mrd w) s = .next ((if w.rnd = 5 then v.stepPhase f else v).raise f h.wave r.2)) ∧
  (∀ h, o.hold = some h → taint = none → o.st ≠ 1 →
    let rows := w.x.getLsbD 4 = true ∧ o.panel.length < t.m / 16
    let cols := w.x.getLsbD 5 = true ∧ o.scales.length < t.n
    (∀ b, rows → s.head f 1 = some b → badOperand b 7 = none → exec (.mdrn w) s = .next (passedState s f [(1, b)] { o with panel := o.panel ++ [b] })) ∧
    (∀ p, ¬rows → cols → s.head f 2 = some p → badOperand p 7 = none → exec (.mdrn w) s = .next (passedState s f [(2, p)] { o with scales := o.scales ++ [p] })) ∧
    (¬rows → ¬cols → exec (.mdrn w) s = .next ((s.raise f h.wave ((s.drainTokens f o).2 ||| tileFlags (s.tcw t))).setOpSt f
      { o with st := 1, k := 0, outq := (s.drainTokens f o).1.map fun p => (0, dataToken w.fmt p h.wave) }))) ∧
  (∀ h k x rest u, o.hold = some h → taint = none → o.st = 1 → o.outq = (k, x) :: rest → s.sendAll f ((f.drainTo h).map fun g => (g, x)) = some u →
    (rest ≠ [] → exec (.mdrn w) s = .next (passedState u f [] { o with outq := rest, k := o.k + 1 })) ∧
    (rest = [] →
      let v := (passedState u f [] { o with hold := none, outq := [], panel := [], scales := [], st := 0, k := 0 }).clearTile t
      exec (.mdrn w) s = .next (if w.rnd = 5 then v.stepPhase f else v) ∧ tcwState (v.tcw t) = .empty))

/-- R320 to R326: the memory nodes. mld sends the 64 bytes at its address; mst and mstv hold a store and a version for the commit of their wave; matm updates memory and sends the old value; mldv sends a version that exists, or a poisoned token where its line is poisoned, waits for one to come and faults on one retired; otok takes a token, and sends its ORDER once the waves up to that token's are performed. An mst stores every byte of b, or those of the lanes that p selects; a matm leaves what its code gives of the old value and b, a compare-and-swap b where the old value is that at p. That a matm on a read-duplicated page is performed at once is the model's choice (log 38). -/
def Obligations.MemoryNodeFirings : Prop :=
 (∀ (op : AmoOp) (code n old x e : Nat), n = 4 ∨ n = 8 → old < 2 ^ (8 * n) → x < 2 ^ (8 * n) →
  amoNew 9 (8 * n) old x e = (if old = e then some x else none) ∧
  ([AmoOp.add, .and, .or, .xor, .min, .max, .minn, .maxn, .swap][code]? = some op → ∃ v, amoNew code (8 * n) old x e = some v ∧ AtomicGives op n old x v)) ∧
 (∀ (b : Pay) (p : Option Pay), (mstData b p).length = 64 ∧ ∀ i, i < 64 → (mstData b p).getD i none =
  if p.all fun q => q.getLsbD (i / 4 * 32) then some (BitVec.ofNat 8 (b.toNat / 2 ^ (8 * i))) else none) ∧
 ∀ (w : FabW) (s : Machine.State) (f : Fab) (l : List (Nat × Token)) (t : Tgt),
  let o := s.opSt f
  let wv := waveOf l
  let va := addrOf (f.operand l 0)
  let rest := { o with wait := none, st := 0, pos := 0 }
  let p := (l.find? fun p => p.1 == 2).map fun p => p.2.pay
  let sent := fun (u : Machine.State) (v : Pay) => u.sendAll f (f.both (dataToken 0 v wv))
  (∀ u, FiresOn s w f [(0, 0)] l → w.x.getLsbD 0 = false → NodeReaches s f va 64 64 .read t → (t.sf = true → ∀ g, s.staged? (flashPage t.phys) = some g → g.failed = false) →
    let x := s.touch t
    x.sendAll f (f.both { dataToken w.fmt (BitVec.ofNat 512 (natOf (x.mldBytes f t wv))) wv with poison := x.tgtPoison t 64 }) = some u →
    exec (.mld w) s = .next (passedState u f l rest)) ∧
  (∀ u, FiresOn s w f [(0, 0)] l → w.x.getLsbD 0 = true →
    let t := localTgt f (f.operand l 0)
    s.sendAll f (f.both { dataToken w.fmt (BitVec.ofNat 512 (natOf (s.mldBytes f t wv))) wv with poison := s.tgtPoison t 64 }) = some u →
    exec (.mld w) s = .next (passedState u f l rest)) ∧
  ((∀ k, s.task? f.b.task = some k → k.stores = []) → s.mldBytes f t wv = s.rdTgt t 64) ∧
  (∀ t, FiresOn s w f (if w.fmt = 0 then [(0, 0), (2, 15)] else [(0, 0), (1, w.fmt), (2, 15)]) l →
    (w.x.getLsbD 0 = true ∧ t = localTgt f (f.operand l 0) ∧ s.reserved t.phys 64 = false) ∨
      (w.x.getLsbD 0 = false ∧ NodeReaches s f va 64 64 .write t ∧ t.sf = false ∧ t.ver = false) →
    let k := t.storeKind (mstData (f.operand l 1) p)
    s.bufFull f wv (s.storeOwner f t) k.granule = false →
    exec (.mst w) s = .next (passedState (s.holdStore f wv (s.storeOwner f t) k none) f l rest) ∧
    KeepsMemory s (passedState (s.holdStore f wv (s.storeOwner f t) k none) f l rest)) ∧
  (FiresOn s w f [(0, 0), (1, w.fmt), (2, 0)] l →
    let n := if w.x.getLsbD 4 then 8 else 4
    let old := natOf ((s.touch t).rdTgt t n)
    let new := amoNew (w.x.toNat % 16) (8 * n) old ((f.operand l 1).toNat % 2 ^ (8 * n)) ((p.elim 0 BitVec.toNat) % 2 ^ (8 * n))
    NodeReaches s f va n n .both t → t.sf = false → t.ver = false → (s.touch t).tgtPoison t n = false →
    (∀ v u, new = some v → sent ((s.touch t).store t.phys (bytesOf n v)) (BitVec.ofNat 512 old) = some u →
      exec (.matm w) s = .next (passedState u f l rest) ∧ HoldsAt (passedState u f l rest) t.phys n v ∧ KeepsOutside s (passedState u f l rest) t.phys n) ∧
    (∀ u, new = none → sent (s.touch t) (BitVec.ofNat 512 old) = some u →
      exec (.matm w) s = .next (passedState u f l rest) ∧ KeepsMemory s (passedState u f l rest))) ∧
  (FiresOn s w f [(0, 0), (1, w.fmt)] l → NodeReaches s f va 8 8 .read t → t.ver = true → s.poisonIn t.line 64 = true →
    ∀ u, (s.touch t).sendAll f (f.both { dataToken 0 0 wv with poison := true }) = some u → exec (.mldv w) s = .next (passedState u f l rest)) ∧
  (FiresOn s w f [(0, 0), (1, w.fmt)] l → NodeReaches s f va 8 8 .read t → t.ver = true → s.poisonIn t.line 64 = false →
    let v := (addrOf (f.operand l 1)).toNat
    (v < s.vFloor t.line → exec (.mldv w) s = .next (s.regionFault f .versionRetired wv 0)) ∧
    (∀ u, s.vFloor t.line ≤ v → v < s.vNext t.line → sent (s.touch t) (BitVec.ofNat 512 (s.vVal t.line v).toNat) = some u →
      exec (.mldv w) s = .next (passedState u f l rest)) ∧
    (s.vFloor t.line ≤ v → s.vNext t.line ≤ v → Waits s (.mldv w))) ∧
  (FiresOn s w f [(0, 0), (1, w.fmt)] l → NodeReaches s f va 8 8 .both t → t.ver = true → s.poisonIn t.line 64 = true →
    exec (.mstv w) s = .next (s.regionFault f .poison wv 0)) ∧
  (FiresOn s w f [(0, 0), (1, w.fmt)] l → NodeReaches s f va 8 8 .both t → t.ver = true → s.poisonIn t.line 64 = false →
    exec (.mstv w) s = .next (passedState ((s.touch t).holdStore f wv noOwner
      (.version (t.idx.getD 0) t.pw t.frame t.off (addrOf (f.operand l 1))) none) f l rest)) ∧
  (SlotActs s w f → o.panel = [] → TokensAt s f [0, 3] l →
    exec (.otok w) s = .next (passedState s f l { o with panel := [{ tokAt l 0 with wave := wv }] })) ∧
  (∀ x u more, SlotActs s w f → o.panel = x :: more →
    (s.wavesDone f.b x.wave = false → Waits s (.otok w)) ∧
    (s.wavesDone f.b x.wave = true → s.sendAll f [(f.t0, if x.kind = .eos then eosToken x.wave else { kind := .order, wave := x.wave })] = some u →
      exec (.otok w) s = .next (passedState u f [] { o with panel := [] })))

/-- R205, R206, R211: pin sends the token at its port's head, else the next element of the active read binding with the word's tag, with a token at o where o is fed, and the binding goes one element on; pout writes its token as the next element of the active write binding, held for the commit of its wave, and takes an EOS, which sets EOSD and writes nothing. With no token at a it takes one that waits on a route to its port, in that token's wave (R78). A poisoned token at o is a region fault of a pin (R410). Where a route to a port leads, and that a pin's EOS needs no token at o, are the model's choices (log 12, 37). -/
def Obligations.PortFirings : Prop := ∀ (w : FabW) (s : Machine.State) (f : Fab) (l : List (Nat × Token)), SlotActs s w f →
  let o := s.opSt f
  let p := s.port f.sid f.cell
  (∀ t rest wv u, p.head = t :: rest → o.owe = some wv → t.kind ≠ .drain →
    let needs := f.fed 3 && t.kind != .eos
    (needs = true → ∃ g, s.head f 3 = some g ∧ g.poison = false) → s.sendAll f (f.both { t with wave := wv }) = some u →
    exec (.pin w) s = .next ((sentPin (if needs then u.take f 3 else u) f (t.kind == .eos) fun p => { p with head := rest, eosd := p.eosd || t.kind == .eos }).closeRead f.sid f.cell)) ∧
  (∀ t rest wv g, p.head = t :: rest → o.owe = some wv → t.kind ≠ .drain → t.kind ≠ .eos → f.fed 3 = true → s.head f 3 = some g → g.poison = true →
    exec (.pin w) s = .next (s.regionFault f .poison wv 0)) ∧
  (p.head = [] → p.act = none → Waits s (.pin w)) ∧
  (∀ b pieces x d k wv u, p.head = [] → o.owe = some wv → p.act = some b → b.write = false → p.held = none → p.full = false →
    s.plan f.sid b b.pos = .elem pieces → s.readPieces f.sid pieces = .bytes x d k →
    (x.noteEntry f.sid f.cell b.gather pieces).sendAll f (f.both { dataToken w.fmt (BitVec.ofNat 512 (natOf d)) wv with poison := k }) = some u →
    let v := sentPin (if f.fed 3 then u.take f 3 else u) f false fun p => { p.step with held := none }
    (f.fed 3 = true → ∃ g, (x.noteEntry f.sid f.cell b.gather pieces).head f 3 = some g ∧ g.poison = false) →
    exec (.pin w) s = .next (v.closeRead f.sid f.cell) ∧ (v.port f.sid f.cell).pos? = (u.port f.sid f.cell).pos?.map fun n => n + 1) ∧
  (TokensAt s f [0, 3] l → (tokAt l 0).kind = .eos →
    exec (.pout w) s = .next (passedState (s.modPort f.sid f.cell fun p => { p with eosd := true }) f l o)) ∧
  (∀ b ks, TokensAt s f [0, 3] l → (tokAt l 0).kind = .data → p.act = some b → b.write = true → p.held = none →
    s.putPieces f (s.plan f.sid b b.pos).pieces (bytesOf 64 (tokAt l 0).pay.toNat) = .stores ks →
    (∀ k ∈ ks, s.bufFull f (waveOf l) k.1 k.2.granule = false) →
    let u := ((ks.foldl (fun (u : Machine.State) k => u.holdStore f (waveOf l) k.1 k.2 (some f.cell)) s).noteEntry f.sid f.cell false
      (s.plan f.sid b b.pos).pieces).modPort f.sid f.cell fun p => { p.step with held := none }
    ((∃ c, (u.port f.sid f.cell).act = some c ∧ u.plan f.sid c c.pos = .ended) →
      exec (.pout w) s = .next (passedState (u.modPort f.sid f.cell PortSt.endWrite) f l (u.opSt f))) ∧
    ((∀ c, (u.port f.sid f.cell).act = some c → u.plan f.sid c c.pos ≠ .ended) →
      exec (.pout w) s = .next (passedState u f l (u.opSt f)))) ∧
  (TokensAt s f [0, 3] l → (tokAt l 0).kind = .data → p.act = none → s.routedToPort f = none → Waits s (.pout w)) ∧
  (∀ b x t, s.heads f [0, 3] = none → s.routedToPort f = some (b, x, t) → t.poison = false →
    let taken := fun (v : Machine.State) => v.modInst b fun i => i.setChan (chanKey b x 7) ((i.chan (chanKey b x 7)).drop 1)
    let g := { f with b := b }
    (t.kind = .eos → exec (.pout w) s = .next (taken (s.modPort f.sid f.cell fun p => { p with eosd := true }))) ∧
    (∀ d ks, t.kind = .data → p.act = some d → d.write = true → p.held = none →
      s.putPieces f (s.plan f.sid d d.pos).pieces (bytesOf 64 t.pay.toNat) = .stores ks →
      (∀ k ∈ ks, s.bufFull g t.wave k.1 k.2.granule = false) →
      let u := ((ks.foldl (fun (u : Machine.State) k => u.holdStore g t.wave k.1 k.2 (some f.cell)) s).noteEntry f.sid f.cell false
        (s.plan f.sid d d.pos).pieces).modPort f.sid f.cell fun p => { p.step with held := none }
      ((∃ c, (u.port f.sid f.cell).act = some c ∧ u.plan f.sid c c.pos = .ended) → exec (.pout w) s = .next (taken (u.modPort f.sid f.cell PortSt.endWrite))) ∧
      ((∀ c, (u.port f.sid f.cell).act = some c → u.plan f.sid c c.pos ≠ .ended) → exec (.pout w) s = .next (taken u)))) ∧
  (∀ b x t, s.heads f [0, 3] = none → s.routedToPort f = some (b, x, t) → (t.poison = true ∨ t.kind = .thread) →
    exec (.pout w) s = .next (s.regionFault { f with b := b } (if t.poison then .poison else .format) t.wave 0)) ∧
  (TokensAt s f [0, 3] l → (tokAt l 0).kind = .thread → exec (.pout w) s = .next (s.regionFault f .format (waveOf l) 0))

/-- R29, R79, R108, R197, R372, R373: a wave fires once its sources are ready, and is listed; a wave whose slots have all fired commits in its turn, its stores performed in one step under atomic commit; without it each owner releases its share; stores that no error waits for and that are in reach all go; a thread token is written into its queue, over sectors of its own context alone, and a poisoned one marks the granule of its slot, which is the model's choice (log 117), as is the path within a die; the spilled element that its handler has resolved first goes to the head of its port with REPLAY set, and an element that stalled the port for want of room takes its place in the queue. A store through a page that maps a sector which the context does not hold reports its XLATE_FAULT once and holds the release (R381); that a store to a read-duplicated page goes when its last acknowledgement has come is the model's choice (log 114). -/
def Obligations.WavesFireAndCommit : Prop := ∀ (b : BlkRef) (w owner task pkt : Nat) (sid : BitVec 8) (q : Port) (s : Machine.State),
  let x := s.passDrains b
  let n := sid.toNat
  let j := q.toNat
  (∀ k, x.bk? b = some k → k.t.fires = true → k.hasSource = true → x.sourcesReady k = true →
    goesOn (exec (.waveFire b) s) fun u => KeepsMemory s u ∧ (∀ i, (u.sec i).th = (s.sec i).th) ∧
      ∃ t, u.task? b.task = some t ∧ t.wrecs = k.t.wrecs ++ [{ b := b, w := Tab.get 0 k.i.waves (waveKey b), awc := k.blk.awc }]) ∧
  (∀ t i r, s.wave? b w = some (t, i, r) → t.releases = true → i.waveDone b w = true →
    let l := t.storesOf b w
    (t.isFirst b w = true → l = [] → ∃ u v : Machine.State, exec (.waveCommit b w) s = .next u ∧ u = v.passDrains b ∧ KeepsMemory s u ∧
      v.task? b.task = some { t with wrecs := t.wrecs.erase r } ∧
      ∀ i, (v.sec i).flags = ((s.commitFlags r.flags).sec i).flags) ∧
    (∀ u, t.isFirst b w = true → l ≠ [] → r.awc = true → (∀ p ∈ l, s.storeHeld l p = false ∧ s.handHeld p = false) →
      (s.meetStores l = (true, u) → exec (.waveCommit b w) s = .next ((u.releaseAll b.task (u.wanted b.task l)).commit b r)) ∧
      (s.meetStores l = (false, u) → exec (.waveCommit b w) s = .next u)) ∧
    (r.awc = false → owner ≠ noOwner → shareOf t b w owner ≠ [] → (∀ p ∈ shareOf t b w owner, s.handHeld p = false) →
      (∀ p ∈ t.stores, p.b = b → p.owner = owner → w ≤ p.wave) →
      exec (.ownerShareRelease b w owner) s = .next (s.releaseShare b w (shareOf t b w owner))) ∧
    (∀ p rest u, r.awc = false → shareOf t b w noOwner = p :: rest → s.storeHeld [p] p = false →
      (∀ p ∈ t.stores, p.b = b → p.owner = noOwner → w ≤ p.wave) →
      (s.meetStores [p] = (true, u) → exec (.ownerShareRelease b w noOwner) s = .next (u.releaseShare b w (u.wanted b.task [p]))) ∧
      (s.meetStores [p] = (false, u) → exec (.ownerShareRelease b w noOwner) s = .next u))) ∧
  (∀ l, Quiet s → (∀ p ∈ l, ∀ t, p.k.tgt? = some t → s.unreachable t = false ∧ t.sf = false ∧
    ∀ k, s.task? p.b.task = some k → k.runs = true → s.holdsMapped k.ctx t = true) → s.meetStores l = (true, s)) ∧
  (∀ p l t k, p.bad = false → p.k.tgt? = some t → s.task? p.b.task = some k → k.runs = true → s.holdsMapped k.ctx t = false →
    s.meetStores (p :: l) = (false, if p.ask.isSome then s else s.askStore k p t)) ∧
  (∀ t x, s.holdsMapped x t = true ↔ (pwKind t.pw = 2 → (s.sec (bitsAt t.frame 56 8)).v = true ∧ (s.sec (bitsAt t.frame 56 8)).ctx = x)) ∧
  (∀ t p, s.task? task = some t → t.runs = true → t.packets.find? (fun p => p.id == pkt) = some p →
    t.packets.find? (fun x => x.gate == p.gate && x.inst == p.inst && x.img == p.img) = some p →
    let i := t.insts.getD p.inst {}
    let fill := Tab.get 0 i.fill p.img
    (s.linked t.ctx p.gate i.queueSid = false → Waits s (.threadTokenDelivery task pkt)) ∧
    (s.linked t.ctx p.gate i.queueSid = true → fill - Tab.get 0 i.free p.img < Tab.get 0 i.qlen p.img →
    goesOn (exec (.threadTokenDelivery task pkt) s) fun u =>
      u.rdWord (i.queueSlot p.img fill) = p.pay ∧ KeepsOutside s u (i.queueSlot p.img fill) 8 ∧
      (p.poison = true → u.isPoison (i.queueSlot p.img fill) = true) ∧
      u.task? task = some { t with packets := t.packets.erase p, insts := t.insts.modify p.inst fun i => { i with fill := Tab.set 0 i.fill p.img (fill + 1) } })) ∧
  (∀ e y, (s.port n j).act = some y → (s.port n j).nextReplay = some e →
    let p := s.port n j
    let sent := fun (u : Machine.State) (t : Token) =>
      (u.modPort n j fun p => { p.leaveSpill e with head := p.head ++ [{ t with replay := true }] }).closeRead n j
    (∀ k, e.st ≠ 2 → e.got = some k → exec (.spillReplay sid q) s = .next (sent s { dataToken (s.pinFmt n j) e.data 0 with poison := k })) ∧
    (∀ u d k, e.st ≠ 2 → e.got = none → s.readPieces n (s.plan n y e.pos).pieces = .bytes u d k →
      exec (.spillReplay sid q) s = .next (sent (u.noteEntry n j y.gather (s.plan n y e.pos).pieces)
        { dataToken (s.pinFmt n j) (BitVec.ofNat 512 (natOf d)) 0 with poison := k })) ∧
    (e.st = 2 → exec (.spillReplay sid q) s = .next (sent s { dataToken (s.pinFmt n j) 0 0 with poison := true })) ∧
    (∀ h, p.held = some h → p.full = true → p.leaveSpill e = { p.step with spill := p.spill.erase e ++ [h], held := none, full := false }) ∧
    ((p.held = none ∨ p.full = false) → p.leaveSpill e = { p with spill := p.spill.erase e }))

/-- R177 to R182: a master that may write enables a queue, changes it, moves its TAIL and clears its fault; more entries than the ring holds fault the queue with OVERRUN; every other master's write changes nothing. A fetched entry moves HEAD on and lists its launch, READY where it has no dependence and all that it names exists. That enabling clears FLT and FCAUSE, and that a fetch for a context that is not ACTIVE faults its queue with CTX, are the model's choices (log 58). -/
def Obligations.QueuesAreWrittenAndFetched : Prop := ∀ (m : Master) (q : BitVec 11) (v : Word) (s : Machine.State),
  let k := q.toNat
  let w := s.wq k
  let alone := fun (u : Machine.State) (x : Wq) => u.wq k = x ∧ KeepsMemory s u ∧ (∀ j, j ≠ k → u.wq j = s.wq j) ∧ ({ u with wqs := s.wqs } : Machine.State) = s
  let on := { w.config v with en := true, flt := false, fcause := 0 }
  let run := { w with flt := false, fcause := 0 }
  let moved := { w with tail := v.setWidth 16 }
  (s.mayWrite m = false → Waits s (.wqEnable m q v) ∧ Waits s (.wqDisable m q v) ∧ Waits s (.doorbell m q v) ∧ Waits s (.wqFaultClear m q v)) ∧
  (s.mayWrite m = true →
    (w.en = false → s.regs.bootCode = 0 → on.count ≤ 2 ^ on.qlog → goesOn (exec (.wqEnable m q v) s) fun u => alone u on) ∧
    (w.en = true → Waits s (.wqEnable m q v) ∧ goesOn (exec (.wqDisable m q v) s) fun u => alone u { w with en := false }) ∧
    (w.en = false → goesOn (exec (.wqDisable m q v) s) fun u => alone u (w.config v)) ∧
    (w.tail ≠ v.setWidth 16 → (w.en = false ∨ w.flt = true ∨ moved.count ≤ 2 ^ w.qlog) → goesOn (exec (.doorbell m q v) s) fun u => alone u moved) ∧
    (w.tail ≠ v.setWidth 16 → w.en = true → w.flt = false → 2 ^ w.qlog < moved.count →
      exec (.doorbell m q v) s = .next ((s.setWq k moved).queueFault k 1 0 0 0)) ∧
    (v.getLsbD 16 = true → w.flt = true → (w.en = false ∨ w.count ≤ 2 ^ w.qlog) → goesOn (exec (.wqFaultClear m q v) s) fun u => alone u run)) ∧
  (w.en = true → w.flt = false → w.head ≠ w.tail → s.fetchRoom k = true →
    ((s.ctx w.ctx).st ≠ .active → exec (.fetch q) s = .next (s.setWq k (w.faulted 4))) ∧
    (∀ t, let va := w.base + BitVec.ofNat 64 (64 * (w.head.toNat % 2 ^ w.qlog))
      let ws := (List.range 8).map fun i => BitVec.ofNat 64 (natOf (((s.rdTgt t 64).drop (8 * i)).take 8))
      let l := entryLaunch k w.ctx s.nextId ws
      (s.ctx w.ctx).st = .active → isVirt va = true → s.xlateV w.ctx va.toNat .read = .ok t → s.flashHeld t = false →
      s.tgtPoison t 64 = false → s.unreachable t = false → Quiet s → s.cwCheck w.ctx (ws.getD 2 0) = some none →
      exec (.fetch q) s = .next ((((s.touch t).forgetAll (whoQueue k)).endLink (whoQueue k)).addLaunch k ws) ∧
      (NoLaunchWaits s → entryForm ws = true → s.entryFits l = true → l.deps = [] →
        goesOn (exec (.fetch q) s) fun u => u.wq k = { w with head := w.head + 1 } ∧
          u.launches = s.launches ++ [{ l with st := .ready, readyAt := s.cyc }] ∧ u.placeDue = true ∧ KeepsMemory s u)))

/-- R27, R38, R185, R188, R244, R246, R247, R381: the end of a scrub, the start of a reservation, the end of a task and the freeing of its sectors, and the steps of a pre-emption. That freed sectors lose their configurations and bindings at once, that a scrub clears the logs, that the threads stop in one step and that the snapshot of a gang is one step are the model's choices (log 62, 61, 48, 65). -/
def Obligations.TasksEndAndAreSaved : Prop := ∀ (sid : BitVec 8) (launch task : Nat) (r : SlotRef) (s : Machine.State),
  let n := sid.toNat
  (∀ t, (s.sec n).scrub = some t → t ≤ s.cyc → (s.sec n).v = false →
    goesOn (exec (.scrubDone sid) s) fun u => (∀ i, i < 2 ^ 22 → u.rdByte (scratchAt n i) = 0) ∧ KeepsOutside s u (scratchAt n 0) (2 ^ 22) ∧
      u.sec n = { (s.sec n).cleared with lastCtx := none, scrub := none } ∧ (∀ k, k ≠ n → u.sec k = s.sec k) ∧ u.placeDue = true) ∧
  (∀ l, s.launch? launch = some l → s.reserving = none → s.mayReserve l = true →
    (∀ k ∈ s.launches, k.id ≠ l.id → s.mayReserve k = true → s.sevenAt l ≤ s.sevenAt k ∧ (s.sevenAt k = s.sevenAt l → l.q ≤ k.q)) →
    exec (.reservationStart launch) s = .next ({ s with reserving := some l.id } : Machine.State).pressReserve) ∧
  (∀ t, s.task? task = some t → t.runs = true → t.pre ≠ .snapped → (∀ k ∈ t.sids, (s.sec k).th.halted = true ∧ s.writesDone k = true) →
    (∀ o ∈ s.ops, o.task = task → o.isOver = true) → s.empty t = true →
    exec (.taskEnd task) s = .next ((s.setTask { t with st := .ended, pre := .none }).countTask t.launch none) ∧
    (∀ l, s.launch? t.launch = some l → l.st = .ready ∨ l.st = .running → l.isOver + 1 ≠ l.tcount → goesOn (exec (.taskEnd task) s) fun u =>
      u.task? task = some { t with st := .ended, pre := .none } ∧ u.launch? t.launch = some { l with isOver := l.isOver + 1, ok := l.ok + 1 } ∧ KeepsMemory s u)) ∧
  (∀ t, s.task? task = some t → t.st = .ended → goesOn (exec (.sectorFree task) s) fun u => u.task? task = none ∧ u.placeDue = true ∧ KeepsMemory s u ∧
    (∀ k ∈ t.sids, (u.sec k).v = false ∧ (u.sec k).act = none ∧ (u.sec k).shadow = none ∧ (u.sec k).ports = []) ∧ ∀ k, k ∉ t.sids → u.sec k = s.sec k) ∧
  (∀ t d, s.task? task = some t → t.pre = .notice d → d ≤ s.cyc → t.runs = true → goesOn (exec (.graceDeadline task) s) fun u =>
    (let early := fun (j : Nat) => ∃ c, (s.sec j).th.wait = .record c
     (∀ j ∈ t.sids, ¬early j → (u.sec j).th.stopped = true) ∧ (∀ j ∈ t.sids, early j → (u.sec j).th = (s.sec j).th) ∧
     ((∀ j ∈ t.sids, ¬early j) → u.task? task = some { t with pre := .markers }) ∧
     ((∃ j ∈ t.sids, early j ∧ (s.sec j).th.stopped = false) → u.task? task = some { t with pre := .threads })) ∧ KeepsMemory s u) ∧
  (∀ k, s.bk? r.b = some k → k.t.pre = .markers → k.t.runs = true → r.slot < k.blk.n → s.canMark k r.slot = true →
    goesOn (exec (.takeMarker r) s) fun u => (∀ p ∈ k.operator r.slot, p < 128 → (Tab.get {} (u.instOf r.b).ops (opKey r.b p)).marked = true) ∧ FabricFrame s u) ∧
  (∀ t, s.task? task = some t → t.pre = .markers → t.runs = true → s.checkpointQuiet t = true →
    goesOn (exec (.saveSnapshot task) s) fun u => u.saves = s.saves ++ s.snapshots t ∧
      (∃ k, u.task? task = some k ∧ k.pre = .snapped ∧ k.st = t.st) ∧ KeepsMemory s u ∧ ∀ k, u.sec k = s.sec k) ∧
  (∀ t, s.task? task = some t → t.pre = .snapped → t.runs = true → goesOn (exec (.saveDone task) s) fun u =>
    u.task? task = some { t with st := .saved, pre := .none, savedAt := s.cyc } ∧ (∀ k ∈ t.sids, (u.sec k).v = false) ∧ u.placeDue = true ∧
    u.saves = s.saves ∧ ∀ a, (∀ r ∈ s.saves, r.task = task → (s.ctx t.ctx).saveOff? r.place a = none ∧ ∀ o, (s.ctx t.ctx).saveAt r.place o ≠ a) →
      u.rdByte a = s.rdByte a)

/-- R190, R191, R213, R230, R232, R234, R316, R317: the block scheduler's decision and its swap, a drain swap, the report of quiescence, a switch group's switch, and the end of the waits in sbar, twait and bmwait. With a switch the group's slots count as switched, and with the last active slot of its sector the shadow is the active configuration and the shadow is EMPTY. A bmwait whose time has come tests its mask as the word does, and takes PROMISE_MISSED with the missing bits. That a host load which fails its check withdraws the decision, with the ages that it has set, is the model's choice (log 27). -/
def Obligations.SwapsAndWaitsEnd : Prop := ∀ (task k grp : Nat) (sid : BitVec 8) (s : Machine.State),
  let n := sid.toNat
  (∀ t i h c, s.task? task = some t → t.insts.findIdx? (fun i => i.host.isSome) = some k → t.insts[k]? = some i → i.host = some h →
    t.fires = true → i.drain = 0 → i.decisionDue h = true → i.choose h = some c →
    goesOn (exec (.blockSchedulerDecision task) s) fun u => KeepsMemory s u ∧
      (h.resident = some c → ∀ j ∈ i.sids, (u.sec j).stopped = false) ∧ (∀ j, j ∉ i.sids → u.sec j = s.sec j) ∧
      (h.resident ≠ some c → ∀ j ∈ i.sids, (u.sec j).stopped = true) ∧
      ∃ t' i', u.task? task = some t' ∧ t'.insts[k]? = some i' ∧ i'.drain = (if h.resident = some c then 0 else 3) ∧
        i'.host = some { h with ages := i.aged h c, fired := if h.resident = some c then 0 else h.fired, chosen := if h.resident = some c then none else some c }) ∧
  (∀ t i h c l, s.task? task = some t → t.insts.findIdx? (fun i => i.host.isSome) = some k → s.quietInst task k 3 = some (t, i) →
    i.host = some h → (t.insts.getD k {}).host = some h → s.launch? t.launch = some l → h.chosen = some c →
    let o := (Tab.get {} (s.ctx t.ctx).handles l.hslot).obj
    let loaded := ({ s with nextId := s.nextId + 1 } : Machine.State).loadHost t o c s.nextId i.sids
    (s.steadyAt i.sids = false → Waits s (.hostDrainSwap task)) ∧
    (s.steadyAt i.sids = true → s.tilesEmpty i.sids = false → exec (.hostDrainSwap task) s = .next (s.endDecision task k i.sids h)) ∧
    (s.steadyAt i.sids = true → s.tilesEmpty i.sids = true →
      (∀ u, loaded = some u →
        exec (.hostDrainSwap task) s = .next ((i.sids.foldl (fun (u : Machine.State) j => u.swapSector j) u).endDecision task k i.sids { h with resident := some c })) ∧
      (loaded = none → exec (.hostDrainSwap task) s = .next ((s.unload i.sids).endDecision task k i.sids h)))) ∧
  (∀ t i, s.quietInst task k 1 = some (t, i) → goesOn (exec (.drainSwap task k) s) fun u =>
    (∀ j ∈ i.sids, (u.sec j).th.answer = some (Meet.cfgsw.code, 0)) ∧ KeepsMemory s u ∧ (∀ j, j ∉ i.sids → (u.sec j).act = (s.sec j).act) ∧
    (i.sids.Nodup → ∀ j ∈ i.sids, ∀ h, (s.sec j).shadow = some h → (u.sec j).act = some h ∧ (u.sec j).shadow = none ∧ (u.sec j).shSt = .empty ∧ (u.sec j).stopped = false)) ∧
  (∀ t i, s.quietInst task k 2 = some (t, i) → goesOn (exec (.sdrainQuiescent task k) s) fun u =>
    (∀ j ∈ i.sids, (u.sec j).th.answer = some (Meet.sdrain.code, s.cycW)) ∧ (∀ j, j ∉ i.sids → u.sec j = s.sec j) ∧ KeepsMemory s u) ∧
  (∀ a h, (s.sec n).act = some a → (s.sec n).shadow = some h → (s.sec n).shSt = .armed → s.groupReady n a (a.group (grp / 128) (grp % 128)) = true →
    let ks := a.group (grp / 128) (grp % 128)
    let all := ∀ m ∈ (s.sec n).ownSlots a, m ∈ (s.sec n).switched ++ ks
    exec (.groupSwitch sid grp) s = .next (s.switchSlots n h ks) ∧ goesOn (exec (.groupSwitch sid grp) s) fun u =>
      KeepsMemory s u ∧ (∀ j, j ≠ n → u.sec j = s.sec j) ∧ (u.sec n).th = (s.sec n).th ∧ (u.sec n).ports = (s.sec n).ports ∧
      (all → (u.sec n).act = some h ∧ (u.sec n).shadow = none ∧ (u.sec n).shSt = .empty ∧ (u.sec n).switched = []) ∧
      (¬all → (u.sec n).act = some a ∧ (u.sec n).shadow = some h ∧ (u.sec n).shSt = .armed ∧ (u.sec n).switched = (s.sec n).switched ++ ks)) ∧
  (∀ sel id ports u, (s.passAll (s.sec n).task).ctlTurn n = .exec (.sbar sel) u → u.th.wait = .bar id ports → u.drained u.cur id ports = true →
    exec (.sbarComplete sid) s = .next u.advance) ∧
  (∀ ra u d, (s.ctlTurn n = .exec (.twait ra) u ∨ s.ctlTurn n = .exec (.twaitRel ra) u) → u.th.wait = .until d → d ≤ u.cyc →
    exec (.twaitDeadline sid) s = .next u.advance) ∧
  (∀ ra rb rc u d, s.ctlTurn n = .exec (.bmwait ra rb rc) u → u.th.wait = .until d → d ≤ u.cyc →
    exec (.bmwaitDeadline sid) s = exec (.bmwait ra rb rc) u ∧
    ∀ t, rc ≠ 0 → DeadlineIs u (u.rdS rc).toNat t → t ≤ u.cyc →
      (MaskComplete u (u.rdS ra) (u.rdS rb) → exec (.bmwaitDeadline sid) s = .next u.advance) ∧
      (¬MaskComplete u (u.rdS ra) (u.rdS rb) → ∃ miss : Word, exec (.bmwaitDeadline sid) s = .next (u.takeTrap .promiseMissed miss) ∧
        ∀ i, i < 64 → miss.getLsbD i = ((u.rdS rb).getLsbD i && !(u.sec u.cur).bit (chunkOf (u.rdS ra) i))))

/-- R171 to R173, R256, R260 to R265: the steps of a move of a rail group, stretches and their windows, throttles, ballast, the cap, the emergency and self-refresh. Which reading ends a thermal throttle, how long an interval of ballast lasts, and which DELAY and WHY a group shows of several causes are the model's choices (log 66, 67, 126). -/
def Obligations.PowerEvents : Prop := ∀ (g : BitVec 6) (sid : BitVec 8) (die : BitVec 2) (amps power reading : BitVec 16) (delay : BitVec 8) (ch : BitVec 8) (s : Machine.State),
  let k := g.toNat
  let r := s.rail k
  let x := s.sec sid.toNat
  let alone := fun (u : Machine.State) (r' : Rail) => u.rail k = r' ∧ (∀ j, j ≠ k → u.rail j = s.rail j) ∧ KeepsMemory s u
  let all := fun (u : Machine.State) (f : Rail → Rail) => (∀ j, j < 64 → u.rail j = f (s.rail j)) ∧ (∀ j, 64 ≤ j → u.rail j = s.rail j) ∧ KeepsMemory s u
  (∀ t, t ≤ s.cyc → r.pend = none →
    (r.mv = .raiseV t → goesOn (exec (.railReached g) s) fun u => alone u { r with mv := .swap }) ∧
    (r.mv = .lowerV t → goesOn (exec (.railReached g) s) fun u => alone u { r with mv := .steady, res := 1 } ∧ u.placeDue = true) ∧
    (r.mv = .hold t → r.cur ≤ r.tgt → goesOn (exec (.clockHoldEnd g) s) fun u => alone u { r with cur := r.tgt, mv := .lowerV (s.cyc + slewCyc r.cur r.tgt) } ∧ u.placeDue = true) ∧
    (r.mv = .hold t → r.tgt < r.cur → goesOn (exec (.clockHoldEnd g) s) fun u => alone u { r with cur := r.tgt, mv := .steady, res := 1 } ∧ u.placeDue = true)) ∧
  (r.mv = .swap → s.regionsIdle (groupSids k) = true → goesOn (exec (.opSwap g) s) fun u => alone u { r with mv := .hold (s.cyc + 64) }) ∧
  ((x.act ≠ none ∨ x.shSt = .armed) → goesOn (exec (.regionStretch sid) s) fun u =>
    (u.sec sid.toNat).count.toNat = min (x.count.toNat + 1) (2 ^ 32 - 1) ∧ ({ u.sec sid.toNat with count := x.count } : Sector) = x ∧
    (∀ j, j ≠ sid.toNat → u.sec j = s.sec j) ∧ (u.rail (railOf sid.toNat)).gwin = min ((s.rail (railOf sid.toNat)).gwin + 1) 255 ∧ KeepsMemory s u) ∧
  (s.cyc % 4096 = 0 → s.now.any Mark.isStretch = false →
    goesOn (exec .sentinelWindow s) fun u => (∀ j, u.rail j = { s.rail j with gwin := 0, winEvent := false }) ∧ KeepsMemory s u) ∧
  (s.now.any Mark.isStretch = true → Waits s .sentinelWindow) ∧
  (∀ q : Rail, (q.why = 3 → q.lapsed = q ∧ q.shows 1 = q ∧ q.shows 2 = q) ∧
    (q.why ≠ 3 → q.heat = none → q.excess = none → q.thrEnd = none → q.lapsed = { q with delay := 0, why := 0 }) ∧
    (∀ w, q.why ≠ 3 → q.shows w = { q with delay := q.most, why := w }) ∧
    q.most.toNat = max (max (q.heat.getD 0).toNat (q.excess.getD 0).toNat) (if q.thrEnd = none then 0 else 16)) ∧
  (∀ t, r.thrEnd = some t → t ≤ s.cyc → goesOn (exec (.throttleExpire g) s) fun u => alone u ({ r with thrEnd := none } : Rail).lapsed) ∧
  (goesOn (exec (.thermalThrottle die reading delay) s) fun u => Tab.get 0 u.regs.temp die.toNat = reading ∧ KeepsMemory s u ∧
    (∀ j, j / 16 ≠ die.toNat → u.rail j = s.rail j) ∧
    ∀ j, j / 16 = die.toNat → u.rail j =
      if 1520 < reading.toInt then ({ s.rail j with heat := some delay } : Rail).shows 1
      else if (s.rail j).heat = none then s.rail j else ({ s.rail j with heat := none } : Rail).lapsed) ∧
  (s.regs.slope < amps →
    let fall := (940 * amps.toNat + s.regs.slope.toNat - 1) / s.regs.slope.toNat
    (s.regs.ballast = none → exec (.ballastStart amps) s =
      .next { s with regs := { s.regs with ballast := some s.cyc, ballastEnd := s.cyc + fall, ballastFirst := true } }) ∧
    (s.regs.ballast ≠ none → exec (.ballastStart amps) s = .next { s with regs := { s.regs with ballastEnd := max s.regs.ballastEnd s.cyc + fall } })) ∧
  (let emergency := fun (u : Machine.State) => u.regs.emerg = true ∧ u.regs.isOver = true ∧ u.regs.ballast = none ∧
      (∀ t, s.regs.ballast = some t → u.regs.ballastUs.toNat = min (s.regs.ballastUs.toNat + (s.cyc - t) / 940) (2 ^ 32 - 1)) ∧
      (∀ j, j < 64 → (u.rail j).delay = 255 ∧ (u.rail j).why = 3) ∧ KeepsMemory s u
   (∀ t, s.regs.ballast = some t → t + 23500 ≤ s.cyc →
     (s.regs.isOver = false → exec .ballastLimit s = .next { s with regs := { s.regs with ballastFirst := false } }) ∧
     (s.regs.isOver = true → goesOn (exec .ballastLimit s) emergency)) ∧
   (s.regs.capw < power → s.regs.emerg = false →
     ((s.regs.ballast = none ∨ s.regs.ballastFirst = true) → goesOn (exec (.capThrottle power delay) s) fun u => u.regs.isOver = true ∧
       all u fun r => ({ r with excess := some (if delay < r.excess.getD 0 then r.excess.getD 0 else delay) } : Rail).shows 2) ∧
     (s.regs.ballast ≠ none → s.regs.ballastFirst = false → goesOn (exec (.capThrottle power delay) s) emergency)) ∧
   (s.regs.ballast ≠ none → s.regs.capw < power → goesOn (exec (.emergencyThrottle power) s) emergency)) ∧
  (s.regs.isOver = true → s.regs.emerg = false → goesOn (exec (.energyRepaid delay) s) fun u => (u.regs.isOver = true ↔ delay ≠ 0) ∧
    all u fun r => ({ r with excess := if delay = 0 then none else r.excess.map fun d => if delay < d then delay else d } : Rail).lapsed) ∧
  (s.regs.emerg = true → 100 * power.toNat ≤ 95 * s.regs.capw.toNat → goesOn (exec (.emergencyEnd power) s) fun u =>
    u.regs.emerg = false ∧ u.regs.isOver = false ∧ all u fun r => ({ r with excess := none, why := 0 } : Rail).lapsed) ∧
  (s.covered ch.toNat = false → Tab.get 0 s.lastUse ch.toNat + 940000 ≤ s.cyc →
    goesOn (exec (.selfRefreshEnter ch) s) fun u => Tab.get false u.asleep ch.toNat = true ∧ Tab.find u.waking ch.toNat = none ∧
      { u with asleep := s.asleep, waking := s.waking } = s)

/-- R282, R286, R305 to R308, R312 to R315: a piece of an engine operation is moved, and a chunk of a scratch destination is written whole with its bit set; an operation whose pieces are all done is complete; a publish creates the version with the operation's status; a write to a read-duplicated line is performed after the writer's earlier ones to it; a re-stripe waits for its channels to wake, drains the accepted writes of its page, and then gives its entry the new word, or fails with NOSPACE. -/
def Obligations.EngineEvents : Prop := ∀ (id k : Nat) (s : Machine.State),
  (∀ o u l v d, s.op? id = some o → o.st = .running → o.madder = true → (o.isColl = false ∨ o.started = true) → k < o.pieces → k ∉ o.done →
    (o.kind = .scat → k = o.done.length) → s.engPiece o k = .bytes u l →
    (u.engPut o k l = .bytes v d → exec (.chunkCommit id k) s = .next (v.pieceDone id k)) ∧
    (∀ off, let a := scratchAt o.sid ((off / 512 + k) * 512)
      o.kind ≠ .scat → o.tgt = .scratch off → u.savedOf o = none → u.ownsSector o = true → u.reserved a 512 = false → l.length ≤ 512 →
      goesOn (exec (.chunkCommit id k) s) fun t => (∀ i, i < 512 → t.rdByte (a + i) = l.getD i 0) ∧ KeepsOutside u t a 512 ∧
        (t.sec o.sid).bit (off / 512 + k) = true)) ∧
  (∀ o, s.op? id = some o → o.st = .running → o.isColl = true → o.started = false → k < o.pieces → k ∉ o.done →
    (∀ l, s.collMeet o = some l → exec (.chunkCommit id k) s = .next (s.collForm l)) ∧ (s.collMeet o = none → Waits s (.chunkCommit id k))) ∧
  (∀ o, s.op? id = some o → o.st = .running → o.madder = true → o.pieces ≤ o.done.length → (o.isColl = true → o.started = true) →
    ((∀ p j a, o.tgt ≠ .edge p j a) → exec (.engineComplete id) s = .next ((s.setOp { o with st := .complete }).noteEnded id) ∧
      (s.writtenOf o = none → goesOn (exec (.engineComplete id) s) fun u => u.op? id = some { o with st := .complete } ∧ KeepsMemory s u)) ∧
    (∀ p j a, o.tgt = .edge p j a → exec (.engineComplete id) s = .next (((s.putSlice o).setOp { o with st := .complete, shadow := [] }).noteEnded id))) ∧
  (∀ o ea v t, s.op? id = some o → o.publ = some (ea, v) → (o.st = .complete ∨ o.st = .failed) → o.live = true → o.pubWait = none →
    s.pubBefore o = false → s.writesDone o.sid = true → s.statusTgt o = some t → s.layerHeld t.pw t.off = false → s.vFull t.line = false →
    let w : Word := BitVec.ofNat 64 (v.toNat / 256 * 256 + o.status.toNat)
    let gs := if o.st = .complete then o.granules else []
    let made := fun (y : Machine.State) (bad : Bool) => (y.setOp { o with live := false, shadow := [] }).statusMade o t bad w
    (∀ u z x y l, s.meetShadow o gs = (true, u) → z.op? id = some x → z.swapIn x gs = .bytes y l →
      (u.meet (engWho o.id o.sid) t 8 = .go z → exec (.publishStep id) s = .next (made y false)) ∧
      (u.meet (engWho o.id o.sid) t 8 = .bad z → exec (.publishStep id) s = .next (made y true))) ∧
    (∀ u z, s.meetShadow o gs = (true, u) → u.meet (engWho o.id o.sid) t 8 = .wait z → exec (.publishStep id) s = .next z) ∧
    (∀ u, s.meetShadow o gs = (false, u) → exec (.publishStep id) s = .next u) ∧
    ((o.st = .failed ∨ o.shadow = []) → Quiet s → NoLaunchWaits s → s.vNext t.line + 1 < 2 ^ 64 → goesOn (exec (.publishStep id) s) fun u =>
      u.vNext t.line = s.vNext t.line + 1 ∧ u.vVal t.line (s.vNext t.line) = w ∧ KeepsOutside s u t.line 64 ∧
      u.op? id = some { o with live := false, shadow := [] })) ∧
  (∀ d, s.dups[k]? = some d →
    ((∃ e ∈ s.dups.take k, e.sid = d.sid ∧ e.phys / 128 = d.phys / 128) → Waits s (.dupWritePerformed k)) ∧
    (Quiet s → (∀ e ∈ s.dups.take k, e.sid = d.sid → e.phys / 128 ≠ d.phys / 128) → goesOn (exec (.dupWritePerformed k) s) fun u =>
      u.dups = s.dups.eraseIdx k ∧ (∀ i, i < d.data.length → u.rdByte (d.phys + i) = d.data.getD i 0) ∧ KeepsOutside s u d.phys d.data.length)) ∧
  (∀ o, s.op? id = some o → o.kind = .rstr → o.st = .running → (∀ p ∈ s.ops, p.restripes o.ctx o.entry = true → id ≤ p.id) →
    let held := ∃ d ∈ s.dups, d.ctx = o.ctx ∧ d.idx = o.entry
    (s.allAwake o.pw.toNat = false → Waits s (.cutOver id)) ∧
    (s.allAwake o.pw.toNat = true → held → exec (.cutOver id) s = .next (s.setOp { o with draining := true })) ∧
    (s.allAwake o.pw.toNat = true → ¬held → Quiet s → s.recs = [] → NoLaunchWaits s → goesOn (exec (.cutOver id) s) fun u => ∃ p, u.op? id = some p ∧
      ((p.st = .complete ∧ (Tab.get {} (u.ctx o.ctx).rt o.entry).pw = o.pw.toNat) ∨
        (p.st = .failed ∧ p.status = 0x07 ∧ (s.writtenOf o = none → KeepsMemory s u)))))

/-- R345 to R354, R427, R428: a page comes into the staging carve-out, in the place of the least recently used where that is full; an install takes its checks in the order of R349 when it starts, RANGE, INTEGRITY, BUDGET and WORN, and is then charged its bytes, programs page after page, where a page that reads back differently goes to a spare, and its finish swaps the pages in with its status version; a stage brings blocks in and ends with its status version; LEFT is refilled up to the allowance; a scrub of flash leaves no byte of its blocks. The mark of a stage without a good header, the end of a hold, the place of a status version whose entry has gone, what a reservation of fresh pages comes to, and the single step of a flash scrub are the model's choices (log 55, 56, 57, 130, 88). -/
def Obligations.FlashEvents : Prop := ∀ (id : Nat) (st : BitVec 2) (pg : BitVec 26) (bad bad2 : Bool) (c : BitVec 8) (m : Master) (v : Word) (s : Machine.State),
  let page := st.toNat * 2 ^ 26 + pg.toNat
  let isFailed := fun (o : EngOp) => ({ o with st := .failed, status := BitVec.ofNat 8 o.status.toNat, live := false, result := [] } : EngOp)
  let runs := fun (o : EngOp) => s.op? id = some o ∧ o.kind = .inst ∧ o.st = .running
  let program := Instr.installPageProgram id
  ((s.staged? page) ≠ none → Waits s (.stagingFill st pg)) ∧
  (s.staged? page = none → s.flash.staged.length < s.regs.carvePages → goesOn (exec (.stagingFill st pg) s) fun u =>
    u.staged? page = some { at_ := s.cyc } ∧ (∀ p, p ≠ page → u.staged? p = s.staged? p) ∧ { u with flash := s.flash } = s) ∧
  (∀ w, s.staged? page = none → 0 < s.regs.carvePages → s.regs.carvePages ≤ s.flash.staged.length → s.victim = some w → w ≠ page →
    goesOn (exec (.stagingFill st pg) s) fun u => u.staged? page = some { at_ := s.cyc } ∧ u.staged? w = none ∧
      ∀ p, p ≠ page → p ≠ w → u.staged? p = s.staged? p) ∧
  (∀ (o : EngOp) kind acc l, s.rangeSt o kind acc l = .fit ↔ ∀ va ∈ l, isVirt va = true ∧ ∃ t, s.xlateV o.ctx va.toNat acc = .ok t ∧ pwKind t.pw = kind) ∧
  (∀ o, runs o → o.started = false →
    let src := s.rangeSt o 0 .read (pagesOf o.src o.len)
    let dst := s.rangeSt o 1 .write (pagesOf o.dest o.len)
    let read := s.engReadAll o (lineRuns (o.len / 64 + 2) o.src o.len)
    exec (program bad bad2) s = .next (s.installStart o) ∧
    ((src = .unfit ∨ (src = .fit ∧ dst = .unfit)) → exec (program bad bad2) s = .next (s.engFail o 0x06 0)) ∧
    ((src = .wait ∨ (src = .fit ∧ dst = .wait)) → Waits s (program bad bad2)) ∧
    (∀ va f, src = .fault va f → exec (program bad bad2) s = .next (s.engFault o va f 0)) ∧
    (∀ va f, src = .fit → dst = .fault va f → exec (program bad bad2) s = .next (s.engFault o va f 1)) ∧
    (src = .fit → dst = .fit → ∀ u p l, read = .bytes u l → u.op? id = some p →
      let pass := ∀ k, o.keySlot = some k → ∃ key, (s.ctx o.ctx).key? k = some key ∧ imageCheck key l = true
      let x := (s.ctx o.ctx).refill s.cyc
      (¬pass → exec (program bad bad2) s = .next (u.engFail o 0x05 0)) ∧
      (pass → x.left < o.len → exec (program bad bad2) s = .next ((u.setCtx o.ctx x).engFail o 0x02 0)) ∧
      (pass → o.len ≤ x.left → u.freshPages o = false → exec (program bad bad2) s = .next ((u.setCtx o.ctx x).engFail o 0x03 0)) ∧
      (pass → o.len ≤ x.left → u.freshPages o = true → exec (program bad bad2) s =
        .next ((u.setCtx o.ctx { x with left := x.left - o.len }).setOp { p with started := true, result := l, charged := o.len })) ∧
      (u.freshPages o = true ↔ ∀ j, j < 4 → u.pagesDue o j = 0 ∨
        u.pagesDue o j + u.reservedPages j + Tab.get 0 u.flash.wear j % 1024 ≤ 1024 * u.flash.cyclesLeft j))) ∧
  (∀ o tg, runs o → o.started = true → o.done.length < o.len / 16384 → s.pageAt o.ctx (o.dest + BitVec.ofNat 64 (16384 * o.done.length)) = some tg →
    let j := stackOf tg.phys
    let o1 := { o with done := o.done ++ [o.done.length] }
    let s1 : Machine.State := { s with flash := s.flash.program j }
    let s2 : Machine.State := { s1 with flash := (s1.flash.retire j (s.flash.openBlock j)).program j }
    Tab.get 0 s1.flash.wear j = Tab.get 0 s.flash.wear j + 1 ∧ exec (program false bad2) s = .next (s1.setOp o1) ∧
    (s1.flash.sparesLeft j = 0 → exec (program true bad2) s = .next (s1.engFail o1 0x03 0)) ∧
    (s1.flash.sparesLeft j ≠ 0 → exec (program true true) s = .next (s2.engFail o1 0x04 0) ∧
      exec (program true false) s = .next (s2.setOp { o1 with nremap := o.nremap + 1 }))) ∧
  (∀ o, runs o → o.started = true → o.done.length < o.len / 16384 → exec (program bad bad2) s = .next (s.installPage o bad bad2) ∧
    goesOn (exec (program false bad2) s) fun u => u.op? id = some { o with done := o.done ++ [o.done.length] } ∧ KeepsMemory s u) ∧
  (∀ (u : Machine.State) (x : BitVec 8) (l : List Word) (d : List Byte), l.Nodup →
    (∀ a ∈ l, ∀ b ∈ l, ∀ ta tb, u.pageAt x a = some ta → u.pageAt x b = some tb → a ≠ b → ta.phys + 16384 ≤ tb.phys ∨ tb.phys + 16384 ≤ ta.phys) →
    (∀ k a t, l[k]? = some a → u.pageAt x a = some t → (u.swapPages x l d).staged? (flashPage t.phys) = none ∧
      ∀ i, i < 16384 → 16384 * k + i < d.length → (u.swapPages x l d).rdByte (t.phys + i) = d.getD (16384 * k + i) 0) ∧
    ∀ b, (∀ a ∈ l, ∀ t, u.pageAt x a = some t → b < t.phys ∨ t.phys + 16384 ≤ b) → (u.swapPages x l d).rdByte b = u.rdByte b) ∧
  (∀ o t z lost, s.op? id = some o → o.live = true → o.pubWait = none → s.statusTgt o = some t → s.layerHeld t.pw t.off = false → s.vFull t.line = false →
    s.meet (engWho o.id o.sid) t 8 = (if lost then .bad z else .go z) →
    let ends := fun (y : Machine.State) (p : EngOp) (n code : Nat) =>
      Host.Outcome.next (((y.setOp { p with live := false, result := [], entry := z.vNext t.line }).noteEnded o.id).statusMade o t lost (statusValue n code))
    (o.kind = .inst → s.pubBefore o = false → s.writesDone o.sid = true →
      (o.st = .running → o.started = true → o.len / 16384 ≤ o.done.length → s.rangeSt o 1 .write (pagesOf o.dest o.len) = .fit →
        let code := if o.nremap = 0 then 0 else 1
        exec (.installFinish id) s = ends (z.swapPages o.ctx (pagesOf o.dest o.len) o.result) { o with st := .complete, status := BitVec.ofNat 8 code } o.nremap code) ∧
      (o.st = .failed → exec (.installFinish id) s = ends (z.refund o) (isFailed o) o.nremap o.status.toNat)) ∧
    (o.kind = .stage → (o.st = .complete ∨ o.st = .failed) → exec (.stageFinish id) s = ends z o 0 o.status.toNat)) ∧
  (∀ (o : EngOp) t (v : Word) (y : Machine.State), Quiet y → y.statusMade o t false v = y.makeVersion t v) ∧
  (∀ o u, s.op? id = some o → o.kind = .stage → o.st = .running → o.done.length < (o.len + 65535) / 65536 →
    s.rangeSt o 1 .read (pagesOf o.src o.len) = .fit → (o.keySlot = none ∨ o.started = true ∨ s.holdRoom o = true) →
    s.stageAll o (s.blockMark o o.done.length) (o.blockPages o.done.length) = some u →
    let last := o.done.length + 1 = (o.len + 65535) / 65536
    let v := u.setOp { o with
      started := true, done := o.done ++ [o.done.length], status := if s.blockMark o o.done.length = some false then 0x05 else o.status
      st := if last then .complete else .running }
    exec (.stageBlock id) s = .next (if last then v.noteEnded id else v)) ∧
  ((s.ctx c).st ≠ .free → ((s.ctx c).refill s.cyc).left ≠ (s.ctx c).left → goesOn (exec (.leftRefill c) s) fun u =>
    (u.ctx c).left = min (s.ctx c).leftMax ((s.ctx c).left + ((s.ctx c).acc + (s.cyc - (s.ctx c).accAt) * (s.ctx c).leftMax) / dayCyc) ∧
    (∀ d, d ≠ c → u.ctx d = s.ctx d) ∧ KeepsMemory s u) ∧
  (s.rstWrite m = true → s.scrubsPool (bitsAt v.toNat 0 16) (bitsAt v.toNat 20 16 + 1) = false → goesOn (exec (.flscrub m v) s) fun u =>
    let gone := inRun (bitsAt v.toNat 0 16 * 2 ^ 24) ((bitsAt v.toNat 20 16 + 1) * 2 ^ 24)
    (∀ p ∈ u.mem, gone p.1 = false) ∧ (∀ a, gone a = false → u.rdByte a = s.rdByte a) ∧
    u.regs.flscrub = some (bitsAt v.toNat 0 16, bitsAt v.toNat 20 16 + 1)) ∧
  (s.rstWrite m = false → Waits s (.flscrub m v)) ∧
  (s.regs.flscrub ≠ none → exec .flscrubDone s = .next { s with regs := { s.regs with flscrub := none } })

/-- R371, R411, R414 to R416: a trapped thread's record is appended and the thread waits for its answer; FLTRESP lets the access of a record go on or ends it; TRAPRESP sends a thread on at its resume point, at the word after the trapping one or in its handler, or fails its task; an answer that no record waits for changes nothing. -/
def Obligations.HandlersAnswer : Prop := ∀ (sid : BitVec 8) (m : Master) (token : BitVec 32) (toff : BitVec 29) (s : Machine.State),
  let k := sid.toNat
  let x := s.sec k
  (∀ t, x.th.wait = .record t → x.th.live = true → s.writesDone k = true →
    let p := s.newToken
    exec (.trapRecord sid) s = .next (((p.2.modThOf k fun h => { h with wait := .answer p.1 }).addRec
      { ctx := x.ctx, token := p.1, trap := true, sid := k, cause := x.th.cause, task := x.task
        words := [x.th.trapVal, x.th.trapPc, recWord2 (((s.task? x.task).map Task.idx).getD 0) x.th.cause k x.ctx (2 ^ 7),
          BitVec.ofNat 64 (p.1.toNat * 2 ^ 32 + t % 2 ^ 32)] }).stopRest x.task)) ∧
  (∀ u : Machine.State, (∀ t, u.task? x.task = some t → t.pre ≠ .threads) → u.stopRest x.task = u) ∧
  (s.answered m token false = none → Waits s (.faultRetry m token) ∧ Waits s (.faultFail m token)) ∧
  (s.answered m token true = none → Waits s (.traprespResume m token) ∧ Waits s (.traprespSkip m token) ∧
    Waits s (.traprespHandle m token toff) ∧ Waits s (.traprespFail m token)) ∧
  (∀ r, s.answered m token false = some r →
    exec (.faultRetry m token) s = .next ((s.drop r).resolve r true) ∧ exec (.faultFail m token) s = .next ((s.drop r).resolve r false) ∧
    (∀ o, r.who = 2 → s.ops.find? (fun o => o.st == .waiting r.token) = some o → s.op? o.id = some o →
      (goesOn (exec (.faultRetry m token) s) fun u => u.op? o.id = some { o with st := .running } ∧ u.recs = s.recs.erase r ∧ KeepsMemory s u) ∧
      (goesOn (exec (.faultFail m token) s) fun u => (∃ p, u.op? o.id = some p ∧ p.st = .failed ∧ p.shadow = []) ∧ u.recs = s.recs.erase r ∧
        (s.writtenOf o = none → KeepsMemory s u)))) ∧
  (∀ r, s.answered m token true = some r → s.saves = [] → x.v = true → x.task = r.task → x.th.wait = .answer token →
    (goesOn (exec (.traprespResume m token) s) fun u => (u.sec k).th = x.th.leaveTrap s.cyc x.th.resumePc ∧ u.recs = s.recs.erase r ∧ KeepsMemory s u) ∧
    (goesOn (exec (.traprespSkip m token) s) fun u => (u.sec k).th = x.th.leaveTrap s.cyc (x.th.trapPc + 8) ∧ u.recs = s.recs.erase r ∧ KeepsMemory s u) ∧
    (goesOn (exec (.traprespHandle m token toff) s) fun u => (u.sec k).th.ts = x.th.ts ∧ (u.sec k).th.wait = .none ∧
      (u.sec k).th.pc = BitVec.ofNat 64 (s.textBase r.task + toff.toNat * 8) ∧ u.recs = s.recs.erase r ∧ KeepsMemory s u) ∧
    exec (.traprespFail m token) s = .next ((s.drop r).taskFail r.task r.cause r.sid))

/-- R364, R365: a command of the range table by a master that may write, while none is in progress, gives the lowest code that applies; an accepted write or clear is held until the accesses through the old entry are performed and the channels of the new one are awake (R265), and then takes its place; a read gives the entry. That a context that is ENDING still counts as resident, that an accepted command counts for the bound of resident lines from its acceptance, and which accesses a swap waits for are the model's choices (log 109, 111, 70). -/
def Obligations.RangeTableCommands : Prop := ∀ (m : Master) (c : BitVec 8) (i : BitVec 16) (s : Machine.State),
  let e := s.regs.rte.setMig false
  let x := s.ctx c
  let n := i.toNat
  let coded := fun (r : Host.Outcome Machine.State Machine.Fault Machine.Refusal) (k : BitVec 8) (new : RtEnt) =>
    ∃ u, r = .next u ∧ u.regs.rtCode = k ∧ u.regs.rtCmd = (if k = 0 then some ⟨c.toNat, n, new⟩ else none) ∧ (k ≠ 0 → u.waking = s.waking) ∧
      { u with regs := { u.regs with rtCode := s.regs.rtCode, rtCmd := s.regs.rtCmd }, waking := s.waking } = s
  let clear : BitVec 8 := if x.st = .free then 1 else if (Tab.get {} x.rt n).mig then 5 else 0
  ((s.mayWrite m = false ∨ s.regs.rtCmd ≠ none) → Waits s (.rtWrite m c i) ∧ Waits s (.rtClear m c i) ∧ Waits s (.rtRead m c i)) ∧
  (s.mayWrite m = true → s.regs.rtCmd = none →
    (e.v = true → coded (exec (.rtWrite m c i) s) (if x.st = .free then 1 else if s.badEntry c e then 2 else if x.overlaps n e then 3
      else if !({ s with regs := { s.regs with rtCmd := some ⟨c.toNat, n, e⟩ } } : Machine.State).residentOk then 4 else if (Tab.get {} x.rt n).mig then 5 else 0) e) ∧
    (e.v = false → coded (exec (.rtWrite m c i) s) clear {}) ∧
    coded (exec (.rtClear m c i) s) clear {} ∧
    (x.st = .free → exec (.rtRead m c i) s = .next { s with regs := { s.regs with rtCode := 1 } }) ∧
    (x.st ≠ .free → exec (.rtRead m c i) s = .next { s with regs := { s.regs with rtCode := 0, rte := Tab.get {} x.rt n } })) ∧
  (∀ k, s.regs.rtCmd = some k →
    let d := BitVec.ofNat 8 k.ctx
    let u := s.replaceRt d k.idx k.ent
    ((s.drainedRt d k.idx = false ∨ s.allAwake k.ent.pwOn = false) → Waits s .rtSwap) ∧
    (s.drainedRt d k.idx = true → s.allAwake k.ent.pwOn = true → exec .rtSwap s = .next ({ u with regs := { u.regs with rtCmd := none } } : Machine.State).flushRecs.settle) ∧
    (s.drainedRt d k.idx = true → s.allAwake k.ent.pwOn = true → s.recs = [] → NoLaunchWaits s → goesOn (exec .rtSwap s) fun t => t.regs.rtCmd = none ∧ KeepsMemory s t ∧
      Tab.find (t.ctx d).rt k.idx = (if k.ent.v then some k.ent else none) ∧ (∀ j, j ≠ k.idx → Tab.find (t.ctx d).rt j = Tab.find (s.ctx d).rt j) ∧
      ∀ j, (t.sec j).ctx = d → k.idx ∉ (t.sec j).rcache))

/-- R377 to R380, R384, R386: contexts are created with the lowest code that applies, end, and are freed with nothing of theirs left; a LOAD makes an EMPTY slot LOADING, and its steps end with the object SEALED or the slot EMPTY again and a code; an object is unloaded once nothing needs it; keys are loaded and cleared. That a LOAD in progress is a timed event which waits for what it meets, its codes for ranges that are misaligned, too large or hold another sealed object, what a failing command has written of its fields, and when nothing of a context is in flight any more are the model's choices (log 72, 75, 76, 116). -/
def Obligations.ContextsHandlesAndKeys : Prop := ∀ (m : Master) (c slot : BitVec 8) (kslot : BitVec 4) (v : Word) (s : Machine.State),
  let x := (s.ctx c).control v
  let s1 := s.modCtx c fun x => x.control v
  let h := Tab.get {} (s.ctx c).handles slot.toNat
  let coded := fun (i : Instr) (k : BitVec 8) => exec i s = .next { s with regs := { s.regs with hcode := k } }
  (s.mayWrite m = false → Waits s (.ctxEnd m c v) ∧ Waits s (.handleLoad m c slot) ∧ Waits s (.handleUnload m c slot) ∧ Waits s (.keyLoad m c kslot) ∧ Waits s (.keyClear m c kslot)) ∧
  ((m.toNat > 4 ∨ s.own.owner ≠ m.toNat) → Waits s (.ctxCreate m c v)) ∧
  (m.toNat ≤ 4 → s.own.owner = m.toNat →
    let k : BitVec 8 := if x.st ≠ .free then 1 else if s1.poolsMeet c then 2 else if s1.badConfig c then 3 else 0
    goesOn (exec (.ctxCreate m c v) s) fun u => KeepsMemory s u ∧ (∀ d, d ≠ c → u.ctx d = s.ctx d) ∧
      (k = 0 → u.ctx c = { x with st := .active, res := 0, left := x.leftMax, acc := 0, accAt := s.cyc }) ∧ (k ≠ 0 → u.ctx c = { x with res := k })) ∧
  (s.mayWrite m = true →
    (x.st = .active → exec (.ctxEnd m c v) s = .next (s1.endCtx c).settle) ∧
    (x.st ≠ .active → exec (.ctxEnd m c v) s = .next (s1.modCtx c fun x => { x with res := 1 })) ∧
    (exec (.keyLoad m c kslot) s = .next { (s.modCtx c fun x => { x with keys := Tab.put x.keys kslot.toNat s.regs.key }) with regs := { s.regs with key := 0 } }) ∧
    (exec (.keyClear m c kslot) s = .next (s.modCtx c fun x => { x with keys := Tab.del x.keys kslot.toNat })) ∧
    (s.regs.hcmd = none →
      ((s.ctx c).st ≠ .active → coded (.handleLoad m c slot) 0x23 ∧ coded (.handleUnload m c slot) 0x23) ∧
      ((s.ctx c).st = .active → h.st ≠ .empty → coded (.handleLoad m c slot) 0x20) ∧
      ((s.ctx c).st = .active → h.st = .empty → goesOn (exec (.handleLoad m c slot) s) fun u => u.regs.hcmd = some (c.toNat, slot.toNat) ∧
        (∃ d, s.cyc < d ∧ u.regs.hload = some ⟨d, s.regs.hsrc, s.regs.hva, s.regs.hdata⟩) ∧
        Tab.get {} (u.ctx c).handles slot.toNat = { st := .loading } ∧ (∀ k, k ≠ c → u.ctx k = s.ctx k) ∧ KeepsMemory s u) ∧
      ((s.ctx c).st = .active → h.st ≠ .sealed → coded (.handleUnload m c slot) 0) ∧
      ((s.ctx c).st = .active → h.st = .sealed → goesOn (exec (.handleUnload m c slot) s) fun u => u.regs.hcmd = some (c.toNat, slot.toNat) ∧
        Tab.get {} (u.ctx c).handles slot.toNat = { h with st := .unloading } ∧ KeepsMemory s u))) ∧
  (∀ r, s.regs.hcmd = some (c.toNat, slot.toNat) → s.regs.hload = some r →
    let ends := fun (k : BitVec 8) (p : Machine.State → Prop) => goesOn (runDue .loadStep s) fun u => u.regs.hcmd = none ∧ u.regs.hload = none ∧ u.regs.hcode = k ∧ p u
    let fails := fun (k : BitVec 8) => ends k fun u => Tab.get {} (u.ctx c).handles slot.toNat = {} ∧ KeepsMemory s u
    ((s.ctx c).st ≠ .active → fails 0x23) ∧
    (∀ u, (s.ctx c).st = .active → s.readRun c r.src 64 = .wait u → runDue .loadStep s = .next (u.loadLater r)) ∧
    (∀ u, (s.ctx c).st = .active → s.readRun c r.src 64 = .fault u → fails 0x22) ∧
    (∀ b t l o rep s1 s2 s3, (s.ctx c).st = .active → s.readRun c r.src 64 = .bytes s1 b →
      s1.readRun c r.src (64 + 32 * leAt b 8 2) = .bytes s2 t → ((secTable t).any fun e => e.kind == 0x02) = false →
      let size := leAt b 16 8
      let stored := s3.putRun c (s3.vaTgts c r.va l.length) l
      ((s2.codeComing c r.va.toNat size = true ∨ s2.rangeHeld c r.va.toNat size = true) → runDue .loadStep s = .next (s2.loadLater r)) ∧
      (s2.codeComing c r.va.toNat size = false → s2.rangeHeld c r.va.toNat size = false →
        (s2.codeOk c r.va size = false → fails 0x21) ∧
        (s2.codeOk c r.va size = true → s2.readRun c r.src size = .bytes s3 l → loadObj r.va l = (o, rep) →
          (stored.2 = false → runDue .loadStep s = .next (stored.1.loadLater r)) ∧
          (stored.2 = true → rep = none → ends 0 fun u => ∃ segs, Tab.get {} (u.ctx c).handles slot.toNat = ⟨.sealed, o, segs⟩) ∧
          (∀ w, stored.2 = true → rep = some w → ends 1 fun u => u.regs.hrep = w ∧ Tab.get {} (u.ctx c).handles slot.toNat = {}))))) ∧
  (s.regs.hcmd = some (c.toNat, slot.toNat) → s.handleHeld c slot.toNat = true → Waits s .unloadDone) ∧
  (s.regs.hcmd = some (c.toNat, slot.toNat) → s.handleHeld c slot.toNat = false → h.st = .unloading → goesOn (exec .unloadDone s) fun u =>
    u.regs.hcmd = none ∧ u.regs.hcode = 0 ∧ Tab.get {} (u.ctx c).handles slot.toNat = {} ∧ KeepsMemory s u) ∧
  ((s.ctx c).st = .ending → s.ctxQuiet c = true → goesOn (exec (.ctxFreed c) s) fun u => (u.ctx c).st = .free ∧ (u.ctx c).handles = [] ∧
    (u.ctx c).keys = [] ∧ (u.ctx c).rt = [] ∧ (∀ t ∈ u.tasks, t.ctx ≠ c) ∧ (∀ o ∈ u.ops, o.ctx ≠ c) ∧ ∀ r ∈ u.saves, r.ctx ≠ c)

/-- R390 to R392, R396: the claims, releases and offers of the masters, their lapse, and attestation. A claim is granted to the owner, to any master while there is none, to the target of an offer, and to the management controller with FORCE. That a write which no rule grants changes nothing, and that a report answers with the nonce of its request, are the model's choices (log 79, 80). -/
def Obligations.OwnershipAndAttestation : Prop := ∀ (m target : Master) (lease : BitVec 16) (force incl : Bool) (c : BitVec 8) (s : Machine.State),
  let mine := fun (u : Machine.State) => u.own.owner = m.toNat ∧ u.own.leaseEnd = s.cyc + lease.toNat * 940000 ∧ { u with own := s.own } = s
  (s.ownWrite m lease = false → Waits s (.claim m lease force) ∧ Waits s (.release m lease) ∧ Waits s (.offer m lease target)) ∧
  (s.ownWrite m lease = true →
    ((force = true ∧ m = 4) ∨ s.own.owner = m.toNat ∨ s.own.owner = 7 ∨ s.own.offerTo = some m.toNat → goesOn (exec (.claim m lease force) s) mine) ∧
    (¬(force = true ∧ m = 4) → s.own.owner ≠ m.toNat → s.own.owner ≠ 7 → s.own.offerTo ≠ some m.toNat → Waits s (.claim m lease force)) ∧
    (s.own.owner = m.toNat → goesOn (exec (.release m lease) s) fun u => u.own.owner = 7 ∧ u.own.offer = none ∧ { u with own := s.own } = s) ∧
    (s.own.owner ≠ m.toNat → Waits s (.release m lease) ∧ Waits s (.offer m lease target)) ∧
    (s.own.owner = m.toNat → target ≠ m → exec (.offer m lease target) s = .next { s with own := { s.own with offer := some (target.toNat, s.cyc + 940000) } })) ∧
  (∀ o, s.own.offer = some o → (o.2 ≤ s.cyc → exec .offerLapse s = .next { s with own := { s.own with offer := none } }) ∧ (s.cyc < o.2 → Waits s .offerLapse)) ∧
  (s.own.owner ≠ 7 → s.own.leaseEnd ≤ s.cyc → goesOn (exec .leaseExpire s) fun u => u.own.owner = 7 ∧ u.own.offer = none ∧ { u with own := s.own } = s) ∧
  (s.answers m = true → s.regs.attCmd = none → exec (.attestRequest m c incl) s = .next { s with regs := { s.regs with attCmd := some (c, incl, s.regs.attNonce) } }) ∧
  (s.regs.attCmd ≠ none → Waits s (.attestRequest m c incl)) ∧
  (∀ nonce, s.regs.attCmd = some (c, incl, nonce) → goesOn (exec .attestReady s) fun u => u.regs.attCmd = none ∧ u.regs.attBuf.length = 8192 ∧
    u.regs.attBuf.take 4 = [0x41, 0x54, 0x54, 0x31] ∧ { u with regs := { u.regs with attCmd := s.regs.attCmd, attBuf := s.regs.attBuf } } = s)

/-- R387, R388, R394, R395, R431: an access through an enabled window, or from a peer module with an entry of the peer map, is performed in the context that it names, and answered; every other is answered as unsupported, or with the cause that the sender's context is owed; a register is read or written by a management message; a link's time-out ends the wait. That a window's access which begins inside and ends outside is unsupported, that a peer's access without a grant is answered without data, and which management writes read as discarded are the model's choices (log 78, 81). -/
def Obligations.AccessesFromOutside : Prop :=
  ∀ (m : Master) (w : BitVec 3) (off : BitVec 36) (a : ExtAcc) (modn : BitVec 6) (c : BitVec 8) (pa : BitVec 57) (sid tag : BitVec 8) (reg data : Word) (s : Machine.State),
  let cfg := Tab.get 0 s.regs.wcfg w.toNat
  let got := s.extAccess (cfg.setWidth 8) (256 + m.toNat) (Tab.get 0 s.regs.wbase w.toNat + off.setWidth 64) a
  let refused := fun (u : Machine.State) (k : Cause) => u.emit (.peerReply modn none k.code)
  (s.answers m = true →
    ((cfg.getLsbD 8 = false ∨ windowLen cfg < off.toNat + extSize a) → exec (.hostWindowAccess m w off a) s = .next (s.emit (.unsupported m))) ∧
    (cfg.getLsbD 8 = true → off.toNat + extSize a ≤ windowLen cfg →
      (∀ u d, got = .done u d → exec (.hostWindowAccess m w off a) s = .next (u.emit (.hostData m (match a with
        | .write _ _ => none
        | _ => some d)))) ∧
      (∀ u f, got = .fault u f → exec (.hostWindowAccess m w off a) s = .next (u.emit (.unsupported m))) ∧
      (∀ u, got = .poison u → exec (.hostWindowAccess m w off a) s = .next (u.emit (.poisonTlp m))) ∧
      (∀ u, got = .wait u → exec (.hostWindowAccess m w off a) s = .next u))) ∧
  (s.answers m = false → Waits s (.hostWindowAccess m w off a)) ∧
  (s.regs.bootCode ≠ 0 → Waits s (.peerAccess modn c pa a)) ∧
  (s.regs.bootCode = 0 → s.peerEntry modn c = none → exec (.peerAccess modn c pa a) s = .next (refused s .xlateFault)) ∧
  (∀ e, s.regs.bootCode = 0 → s.peerEntry modn c = some e →
    let got := s.extAccess (BitVec.ofNat 8 (bitsAt e.toNat 40 8)) (512 + modn.toNat) (pa.setWidth 64) a
    (2 ^ 55 ≤ pa.toNat → exec (.peerAccess modn c pa a) s = .next (refused s .xlateFault)) ∧
    (pa.toNat < 2 ^ 55 → e.getLsbD 62 = true → extWrites a = true → exec (.peerAccess modn c pa a) s = .next (refused s .permission)) ∧
    (pa.toNat < 2 ^ 55 → (e.getLsbD 62 = false ∨ extWrites a = false) →
      (∀ u d, got = .done u d → exec (.peerAccess modn c pa a) s = .next (u.emit (.peerReply modn (some d) 0))) ∧
      (∀ u, got = .poison u → exec (.peerAccess modn c pa a) s = .next (refused u .poison)) ∧
      (∀ u f, got = .fault u f → exec (.peerAccess modn c pa a) s = .next (refused u f)) ∧
      (∀ u, got = .wait u → exec (.peerAccess modn c pa a) s = .next u))) ∧
  (∀ t, (s.sec sid.toNat).th.wait = .link t → t ≠ 0 → t ≤ s.cyc → goesOn (exec (.linkTimeout sid) s) fun u =>
    (u.sec sid.toNat).th = { (s.sec sid.toNat).th with wait := .link 0 } ∧ (∀ k, k ≠ sid.toNat → u.sec k = s.sec k) ∧ KeepsMemory s u) ∧
  (goesOn (exec (.mctpRead tag reg) s) fun u => u.outbox = s.outbox ++ [.regAck 1 tag 0 (s.readReg reg)] ∧ { u with outbox := s.outbox, fresh := s.fresh } = s) ∧
  (∀ u, s.busWrite 4 reg data = .next u → exec (.mctpWrite tag reg data) s = .next (u.emit (.regAck 2 tag (if s.discards reg data then 1 else 0) 0))) ∧
  (∃ u, s.busWrite 4 reg data = .next u) ∧
  (exec (.mctpCertRead tag reg) s = .next (s.emit (.regAck 3 tag 0 (Config.certChunk reg)))) ∧
  (exec (.registerWrite m reg data) s = .next (s.plainWrite m reg data)) ∧
  ((∀ k, blockOf reg.toNat 0x604000 8 4 ≠ some (k, 0)) → s.mayWrite m = false → s.plainWrite m reg data = s)

/-- R405, R408, R409: a retried transfer that succeeds is over, and one that fails is tried again 16 CYC later, four times, before its worst lane is swapped or it is contained; none is retried while its bus is being swapped; a row's copy ends; a layer is disabled and its lost lines are poisoned. The swap and the retry after it as one event, 216 CYC later, are the model's choice (log 83). -/
def Obligations.ErrorsAreRecovered : Prop := ∀ (i : Nat) (bad : Option (BitVec 5)) (fails : Bool) (die layer : BitVec 2) (s : Machine.State),
  let r := s.umber.retries.getD i { die := 0, sect := 0, lanes := [], tries := 0, sid := 0, due := 0, layer := 0, line := 0 }
  (i < s.umber.retries.length → r.failed = false → r.due ≤ s.cyc →
    ((r.swapping = true ∨ s.busSwapping r.die r.sect = true) → Waits s (.busRetry i bad)) ∧
    (r.swapping = false → s.busSwapping r.die r.sect = false → bad = none → exec (.busRetry i bad) s = .next (s.doneRetry i { r with tries := r.tries + 1 })) ∧
    (∀ lane, r.swapping = false → s.busSwapping r.die r.sect = false → bad = some lane →
      let r1 := { r with tries := r.tries + 1, lanes := r.lanes ++ [lane.toNat] }
      (r1.tries < 4 → goesOn (exec (.busRetry i bad) s) fun u => u.umber.retries = s.umber.retries.set i { r1 with due := s.cyc + 16 } ∧ KeepsMemory s u) ∧
      (4 ≤ r1.tries → (s.sec (r.die * 64 + r.sect)).lanesUsed + (s.lanesSwapping r.die r.sect).length < 2 → goesOn (exec (.busRetry i bad) s) fun u =>
        u.umber.retries = s.umber.retries.set i { r1 with swapping := true, due := s.cyc + 216 } ∧ KeepsMemory s u) ∧
      (4 ≤ r1.tries → 2 ≤ (s.sec (r.die * 64 + r.sect)).lanesUsed + (s.lanesSwapping r.die r.sect).length → exec (.busRetry i bad) s = .next (s.containRetry i r1))) ∧
    (∀ x, r.swapping = true → (s.sec (r.die * 64 + r.sect)).swapLane (worstLane r.lanes) = some x →
      let u := s.setSec (r.die * 64 + r.sect) x
      (r.repair = true → exec (.laneSwapDone i fails) s = .next ({ u with umber := { s.umber with retries := s.umber.retries.eraseIdx i } } : Machine.State).flushRecs.settle) ∧
      (r.repair = false → exec (.laneSwapDone i fails) s = .next (if fails then u.containRetry i { r with tries := r.tries + 1 } else u.doneRetry i { r with tries := r.tries + 1 }))) ∧
    (r.swapping = true → (s.sec (r.die * 64 + r.sect)).swapLane (worstLane r.lanes) = none → exec (.laneSwapDone i fails) s = .next (s.containRetry i r))) ∧
  (i < s.umber.copies.length → goesOn (exec (.rowSpareDone i) s) fun u => u.umber.copies = s.umber.copies.eraseIdx i ∧ KeepsMemory s u) ∧
  (let ls := (s.umber.lost.filter fun x => x.1 == die.toNat && x.2.1 == layer.toNat).map fun (x : Nat × Nat × Nat) => x.2.2
   (ls = [] → Waits s (.layerDisable die layer)) ∧
   (ls ≠ [] → s.ctxs = [] → s.recs = [] → NoLaunchWaits s → goesOn (exec (.layerDisable die layer) s) fun u =>
    u.regs.layerstat.getLsbD (3 * die.toNat + layer.toNat) = decide (3 * die.toNat + layer.toNat < 12) ∧ KeepsMemory s u ∧
    ∀ l ∈ ls, u.isPoison (l * 128) = true ∧ u.isPoison (l * 128 + 64) = true))

/-- R425 to R430: what the resets leave, each with its cause: HBM and scratch are listed no more, flash is kept, CYC starts anew except at a warm reset, which keeps ownership; a reset chooses the newer image that passes, else the one in force, else nothing, and takes its decode-table revision into effect, and the boot that follows starts it. The images and their verification, the code when both fail, what lies outside the reset's reach, LOST after a commanded warm reset, and that a boot runs once after a reset are the model's choices (log 7, 86, 87, 100). -/
def Obligations.ResetsAndBoot : Prop := ∀ (m : Master) (v : Word) (up : Bool) (s : Machine.State),
  let wiped := fun (u : Machine.State) (cause : BitVec 4) => u.regs.rstCause = cause ∧ (∀ a, outlives a = true → u.rdByte a = s.rdByte a) ∧
    (∀ p ∈ u.mem, outlives p.1 = true) ∧ u.tasks = [] ∧ u.launches = [] ∧ u.ctxs = [] ∧ u.wqs = [] ∧ u.ops = [] ∧ u.recs = [] ∧
    u.flash.wear = s.flash.wear ∧ u.flash.spares = s.flash.spares ∧ u.flash.worn = s.flash.worn ∧ u.flash.staged = [] ∧ u.boot.due = true ∧
    u.boot = ({ current := s.boot.current, newer := s.boot.newer, minSvn := s.boot.minSvn } : Boot).resolve ∧ u.regs.decrev = u.boot.revision
  let cold := fun (u : Machine.State) (cause : BitVec 4) => wiped u cause ∧ u.cyc = 0 ∧ u.own.owner = 7 ∧ u.sectors = [] ∧ u.rails = []
  let warm := fun (u : Machine.State) (cause : BitVec 4) (lost : Bool) => wiped u cause ∧ u.cyc = s.cyc ∧ u.own = s.own ∧ u.regs.lost = lost ∧
    u.regs.layerstat = s.regs.layerstat ∧ u.regs.warmCnt.toNat = min (s.regs.warmCnt.toNat + 1) (2 ^ 32 - 1) ∧
    (∀ k, (u.sec k).act = none ∧ (u.sec k).th = {}) ∧ ((s.rails.map Prod.fst).Nodup → ∀ g, u.rail g = { events := (s.rail g).events })
  (goesOn (exec .powerOn s) fun u => cold u 0 ∧ u.regs.carve = 64) ∧
  (goesOn (exec .pcieFundamentalReset s) fun u => cold u 1 ∧ u.regs.carve = 64) ∧
  (s.rstWrite m = true → v.toNat % 4 = 2 → goesOn (exec (.coldReset m v) s) fun u => cold u 2 ∧ u.regs.carveNow = min (v.toNat / 2 ^ 24 % 256) 128) ∧
  (s.rstWrite m = true → v.toNat % 4 = 1 → goesOn (exec (.warmReset m v) s) fun u => warm u 3 false) ∧
  (s.rstWrite m = false → Waits s (.coldReset m v) ∧ Waits s (.warmReset m v)) ∧
  (goesOn (exec (.fatalReset up) s) fun u => warm u 4 (!up)) ∧
  (s.boot.due = false → Waits s .boot) ∧
  (∀ b : Boot, let r := b.resolve
    let fresh := ∃ f, b.newer = some f ∧ f.check b.minSvn = 0
    (∀ f, b.newer = some f → f.check b.minSvn = 0 → r = { b with current := some f, newer := none, chosen := some f, result := 0 } ∧ r.revision = f.tableRev) ∧
    (∀ f, ¬fresh → b.current = some f → r.current = some f ∧ r.newer = b.newer ∧
      (f.check b.minSvn = 0 → r.chosen = some f ∧ r.revision = f.tableRev) ∧ (f.check b.minSvn ≠ 0 → r.chosen = none ∧ r.result = f.check b.minSvn ∧ r.revision = 3)) ∧
    (b.current = none → (b.newer = none → r.chosen = none ∧ r.result = 1) ∧
      ∀ f, b.newer = some f → f.check b.minSvn ≠ 0 → r.chosen = none ∧ r.result = f.check b.minSvn)) ∧
  (∀ f, s.boot.due = true → s.boot.chosen = some f → goesOn (exec .boot s) fun u => u.regs.bootCode = 0 ∧ u.regs.svn = f.svn ∧
    u.regs.decrev = s.regs.decrev ∧ u.boot.due = false ∧ u.boot.minSvn.toNat = max s.boot.minSvn.toNat f.svn.toNat ∧ KeepsMemory s u) ∧
  (s.boot.due = true → s.boot.chosen = none → goesOn (exec .boot s) fun u => u.regs.bootCode = s.boot.result ∧ u.regs.svn = 0 ∧ u.boot.due = false ∧ KeepsMemory s u)

/-- R425, R253, R260, R143, R391, R428, R10, R49: the machine after power-on reset. Every context is FREE without handles, keys or mappings, every queue DISABLED, every rail at point A with no move, no throttle and an empty reservation, every sector unowned without an active configuration, with zero FLAGS and logs and empty tiles, nobody owns the module and no offer stands. The memory that reads as blank and CYC, counted from 0, are the model's choices (log 5, log 6). -/
def Obligations.ResetState : Prop :=
  let s := Machine.State.reset
  s.memWf = true ∧ (∀ a, s.rdByte a = blank ∧ s.isPoison a = false) ∧ s.cyc = 0 ∧
  (∀ c, (s.ctx c).st = .free ∧ (s.ctx c).handles = [] ∧ (s.ctx c).keys = [] ∧ (s.ctx c).rt = []) ∧
  (∀ q, (s.wq q).state = 0 ∧ (s.wq q).flt = false) ∧
  (∀ g, (s.rail g).cur = 0 ∧ (s.rail g).mv = .steady ∧ (s.rail g).pend = none ∧ (s.rail g).res = 0 ∧ (s.rail g).why = 0 ∧ (s.rail g).delay = 0) ∧
  (∀ k, (s.sec k).v = false ∧ (s.sec k).act = none ∧ (s.sec k).shSt = .empty ∧ (s.sec k).flags = 0 ∧ (s.sec k).elogA = 0 ∧ (s.sec k).elogX = 0 ∧
    (s.sec k).th.runs = false ∧ (∀ q, ((s.sec k).port q).act = none) ∧ ∀ c, Tab.get {} (s.sec k).cells c = {}) ∧
  s.own.owner = 7 ∧ s.own.offer = none ∧ s.launches = [] ∧ s.tasks = [] ∧ s.ops = [] ∧ s.regs.layerstat = 0 ∧ s.regs.rstCause = 0 ∧ s.regs.carve = 64

/-- An invariant that every step keeps: the list that holds memory stays in its one canonical form, with rising addresses and no entry that equals what an unlisted byte reads as (log 5), so that equal memories are equal data. -/
def Obligations.EveryStepKeepsMemoryCanonical : Prop := ∀ s t : Machine.State, s.memWf = true → step s = .next t → t.memWf = true

/-- R46, R48, R51 to R56: the decoder gives back every well-formed control instruction from the word that the encoder makes of it, under every guard that a word can carry. -/
def Obligations.ControlWordsRoundTrip : Prop := ∀ (g : Guard) (i : Instr) (w : Word),
  (g.neg = true → g.g ≠ 0) → i.wellFormed = true → encodeCtl g i = some w → decodeCtl w = some (g, i)

/-- R63 to R71: the decoder gives back every well-formed fabric instruction from the slot word that the encoder makes of it, and no fabric word is read as two instructions: whatever it decodes to is well-formed and encodes to that word. -/
def Obligations.FabricWordsRoundTrip : Prop :=
  (∀ (i : Instr) (w : Word), i.wellFormed = true → encodeFab i = some w → decodeFab w = some i) ∧
  (∀ (i : Instr) (w : Word), decodeFab w = some i → i.wellFormed = true ∧ encodeFab i = some w)

/-- R46, R48, R51 to R56, R63 to R71: words written out from the tables decode to the instructions that they stand for; words with a reserved code, a reserved bit or a negated p0 decode to none. -/
def Obligations.WordsDecode : Prop :=
  decodeCtl 0x014294C001000000 = some (⟨2, false⟩, .sub 5 5 6) ∧ decodeCtl 0x02518C00FFFFFFFF = some (⟨2, true⟩, .addi 3 3 0xFFFFFFFF) ∧
  decodeCtl 0x3003920000000040 = some (⟨0, false⟩, .ld .w 7 4 0x40) ∧ decodeCtl 0x24008880FFFFFFFD = some (⟨0, false⟩, .bcc .lt 1 2 0xFFFFFFFD) ∧
  decodeCtl 0x5004A00600000000 = some (⟨0, false⟩, .cfgld 9 3 8) ∧ decodeCtl 0x6104A80410000000 = some (⟨0, false⟩, .cpy 9 4 2 10 0 .mem) ∧
  decodeCtl 0x7300000000000003 = some (⟨0, false⟩, .sig 3) ∧ decodeCtl 0x8002800000000004 = some (⟨0, false⟩, .sysrd 5 .flags) ∧
  decodeFab 0x0150053FF0000000 = some (.vadd ⟨5, 0, false, 0x014, 0x3FF, 0, 0, 0⟩) ∧
  decodeFab 0x2381050250000000 = some (.ffma ⟨8, 0, true, 0x014, 0x025, 0, 0, 0⟩) ∧
  decodeFab 0x40A0013FFC000200 = some (.mma ⟨10, 0, false, 0x004, 0x3FF, 3, 0, 0x200⟩) ∧
  decodeFab 0x6080013FF0000001 = some (.mld ⟨8, 0, false, 0x004, 0x3FF, 0, 0, 1⟩) ∧
  decodeCtl 0x0101844018000000 = none ∧ decodeCtl 0x0101844000000001 = none ∧ decodeCtl 0x0111844000000000 = none ∧
  decodeFab 0x1750053FF0000000 = none ∧ decodeFab 0x0170053FF0000000 = none

/-- R48, R49, R369, R375: a step runs the instruction whose word stands at the program counter. On a thread's turn the word in execution, or the one at pc in the held fetch block or in the block that is fetched now, is decoded: where its guard holds step is exec of it, where the guard does not hold the thread only goes on, and a word that decodes to nothing takes ILLEGAL with the word as TRAPVAL. On a slot's turn step is exec of the slot's word, on an event's turn exec of the event. What a rule orders within one reference cycle is marked in State after exec, an instruction that comes too late for its cycle takes its turn in the next (R108, R172, R255, R391), and of two resets of one cycle one comes (R428). The turns themselves, the turn of a slot that no unit holds, what comes too late for its cycle, placement at once, and that a poisoned word is not held are the model's choices (log 1, 90, 105, 125, 9). -/
def Obligations.StepRunsTheDecodedInstruction : Prop :=
  (∀ (s u : Machine.State) (dt : Nat) (sid : BitVec 8), TurnIsNext s ⟨dt, .thread sid⟩ u →
    let v : Machine.State := { u.atCyc (s.cyc + dt) with cur := sid.toNat }
    v.th.runs = true → v.replaying sid.toNat = false → (v.th.notice = none ∨ v.th.ts = true) →
    let runs := fun (x : Machine.State) (w : Word) =>
      (∀ g i, decodeCtl w = some (g, i) →
        (x.rdP g.g ≠ g.neg → x.barred i = false → x.outdone i = false → step s = x.noted i (exec i x)) ∧
        (x.rdP g.g ≠ g.neg → x.barred i = true → step s = .next { x with agenda := ⟨1, .thread sid⟩ :: x.agenda }) ∧
        (x.rdP g.g = g.neg → step s = .next x.advance)) ∧
      (decodeCtl w = none → step s = .next (x.takeTrap .illegal w))
    (∀ w, v.th.word = some w → runs v w) ∧
    (∀ x b w, v.th.word = none → v.fetchAt = .inr (x, b, w) →
      (b.poisoned v.pc.toNat = false → runs (x.modTh fun t => { t with fblk := some b, word := some w, wait := t.waitHere, barHeld := none }) w) ∧
      (b.poisoned v.pc.toNat = true → step s = .next ((x.modTh fun t => { t with fblk := none }).takeTrap .poison v.pc)))) ∧
  (∀ (v : Machine.State) (lo n : Nat) (t : Tgt), v.th.fblk = none → v.textSpan (v.sec v.cur) = some (lo, n) →
    let pc := v.pc.toNat
    let start := max lo (pc / 512 * 512)
    pc % 8 = 0 → lo ≤ pc → pc + 8 ≤ lo + n → pc < 2 ^ 55 → v.xlateV (v.sec v.cur).ctx start .fetch = .ok t → v.unreachable t = false → v.readHeld v.cur t = false → Quiet v →
    ∃ x b w, v.fetchAt = .inr (x, b, w) ∧ w.toNat = natOf ((List.range 8).map fun i => v.rdTgtByte t (pc - start + i))) ∧
  (∀ (s u : Machine.State) (dt : Nat) (r : SlotRef), TurnIsNext s ⟨dt, .slot r⟩ u →
    let v := u.atCyc (s.cyc + dt)
    (∀ w i, v.slotWord r = some w → decodeFab w = some i → step s = exec i { v with slot := r }) ∧
    (v.slotWord r = none → step s = .fault .noSuchSlot)) ∧
  (∀ (s u : Machine.State) (dt : Nat) (i : Instr), TurnIsNext s ⟨dt, .event i⟩ u → encode i = none →
    let v := u.atCyc (s.cyc + dt)
    (v.barred i = false → v.outdone i = false → step s = v.noted i (exec i v)) ∧ (v.barred i = false → v.outdone i = true → step s = .next v) ∧
    (v.barred i = true → step s = .next { v with agenda := ⟨1, .event i⟩ :: v.agenda })) ∧
  (∀ (s : Machine.State) (i : Instr), s.now = [] → s.barred i = false ∧ s.outdone i = false) ∧
  (∀ (s : Machine.State) (i : Instr) (c k : Nat), s.resetOf i = some c → .reset k ∈ s.now → k ≤ c → s.outdone i = true) ∧
  (∀ (s t : Machine.State) (i : Instr), exec i s = .next t → ∃ l r, s.noted i (exec i s) = .next { t with now := t.now ++ l, regs := r } ∧
    (s.resetOf i ≠ some 3 → r = t.regs) ∧
    ((∀ o n, i ≠ .pwrq o n) → ownWriter i = none → s.resetOf i = none → (∀ b w, i ≠ .waveCommit b w) → (∀ b w k, i ≠ .ownerShareRelease b w k) →
    (∀ k, i ≠ .regionStretch k) → l = [])) ∧
  (∀ s : Machine.State, s.placeDue = true → step s = .next s.placement)
end

