-- ==== Sys2Proof/Laws/State.lean ====
section
/-! SUPPORT. What each update of State leaves as it was, field by field. -/

namespace Sys2Proof.Machine

open Sys2Proof

variable (s : State)

/-! ### wrByte -/

@[simp] theorem wrByte_agenda (a : Nat) (b : Byte) : (s.wrByte a b).agenda = s.agenda := rfl
@[simp] theorem wrByte_turn (a : Nat) (b : Byte) : (s.wrByte a b).turn = s.turn := rfl
@[simp] theorem wrByte_fresh (a : Nat) (b : Byte) : (s.wrByte a b).fresh = s.fresh := rfl
@[simp] theorem wrByte_cur (a : Nat) (b : Byte) : (s.wrByte a b).cur = s.cur := rfl
@[simp] theorem wrByte_slot (a : Nat) (b : Byte) : (s.wrByte a b).slot = s.slot := rfl
@[simp] theorem wrByte_upsets (a : Nat) (b : Byte) : (s.wrByte a b).upsets = s.upsets := rfl
@[simp] theorem wrByte_outbox (a : Nat) (b : Byte) : (s.wrByte a b).outbox = s.outbox := rfl
@[simp] theorem wrByte_nextId (a : Nat) (b : Byte) : (s.wrByte a b).nextId = s.nextId := rfl
@[simp] theorem wrByte_cyc (a : Nat) (b : Byte) : (s.wrByte a b).cyc = s.cyc := rfl
@[simp] theorem wrByte_now (a : Nat) (b : Byte) : (s.wrByte a b).now = s.now := rfl
@[simp] theorem wrByte_poison (a : Nat) (b : Byte) : (s.wrByte a b).poison = s.poison := rfl
@[simp] theorem wrByte_sectors (a : Nat) (b : Byte) : (s.wrByte a b).sectors = s.sectors := rfl
@[simp] theorem wrByte_rails (a : Nat) (b : Byte) : (s.wrByte a b).rails = s.rails := rfl
@[simp] theorem wrByte_ctxs (a : Nat) (b : Byte) : (s.wrByte a b).ctxs = s.ctxs := rfl
@[simp] theorem wrByte_wqs (a : Nat) (b : Byte) : (s.wrByte a b).wqs = s.wqs := rfl
@[simp] theorem wrByte_launches (a : Nat) (b : Byte) : (s.wrByte a b).launches = s.launches := rfl
@[simp] theorem wrByte_tasks (a : Nat) (b : Byte) : (s.wrByte a b).tasks = s.tasks := rfl
@[simp] theorem wrByte_saves (a : Nat) (b : Byte) : (s.wrByte a b).saves = s.saves := rfl
@[simp] theorem wrByte_turns (a : Nat) (b : Byte) : (s.wrByte a b).turns = s.turns := rfl
@[simp] theorem wrByte_reserving (a : Nat) (b : Byte) : (s.wrByte a b).reserving = s.reserving := rfl
@[simp] theorem wrByte_placeDue (a : Nat) (b : Byte) : (s.wrByte a b).placeDue = s.placeDue := rfl
@[simp] theorem wrByte_ops (a : Nat) (b : Byte) : (s.wrByte a b).ops = s.ops := rfl
@[simp] theorem wrByte_dups (a : Nat) (b : Byte) : (s.wrByte a b).dups = s.dups := rfl
@[simp] theorem wrByte_edgeTlb (a : Nat) (b : Byte) : (s.wrByte a b).edgeTlb = s.edgeTlb := rfl
@[simp] theorem wrByte_linkWaits (a : Nat) (b : Byte) : (s.wrByte a b).linkWaits = s.linkWaits := rfl
@[simp] theorem wrByte_recs (a : Nat) (b : Byte) : (s.wrByte a b).recs = s.recs := rfl
@[simp] theorem wrByte_tokenSeq (a : Nat) (b : Byte) : (s.wrByte a b).tokenSeq = s.tokenSeq := rfl
@[simp] theorem wrByte_regs (a : Nat) (b : Byte) : (s.wrByte a b).regs = s.regs := rfl
@[simp] theorem wrByte_own (a : Nat) (b : Byte) : (s.wrByte a b).own = s.own := rfl
@[simp] theorem wrByte_flash (a : Nat) (b : Byte) : (s.wrByte a b).flash = s.flash := rfl
@[simp] theorem wrByte_boot (a : Nat) (b : Byte) : (s.wrByte a b).boot = s.boot := rfl
@[simp] theorem wrByte_umber (a : Nat) (b : Byte) : (s.wrByte a b).umber = s.umber := rfl
@[simp] theorem wrByte_asleep (a : Nat) (b : Byte) : (s.wrByte a b).asleep = s.asleep := rfl
@[simp] theorem wrByte_lastUse (a : Nat) (b : Byte) : (s.wrByte a b).lastUse = s.lastUse := rfl
@[simp] theorem wrByte_waking (a : Nat) (b : Byte) : (s.wrByte a b).waking = s.waking := rfl

/-! ### setPoison -/

@[simp] theorem setPoison_agenda (a : Nat) (b : Bool) : (s.setPoison a b).agenda = s.agenda := rfl
@[simp] theorem setPoison_turn (a : Nat) (b : Bool) : (s.setPoison a b).turn = s.turn := rfl
@[simp] theorem setPoison_fresh (a : Nat) (b : Bool) : (s.setPoison a b).fresh = s.fresh := rfl
@[simp] theorem setPoison_cur (a : Nat) (b : Bool) : (s.setPoison a b).cur = s.cur := rfl
@[simp] theorem setPoison_slot (a : Nat) (b : Bool) : (s.setPoison a b).slot = s.slot := rfl
@[simp] theorem setPoison_upsets (a : Nat) (b : Bool) : (s.setPoison a b).upsets = s.upsets := rfl
@[simp] theorem setPoison_outbox (a : Nat) (b : Bool) : (s.setPoison a b).outbox = s.outbox := rfl
@[simp] theorem setPoison_nextId (a : Nat) (b : Bool) : (s.setPoison a b).nextId = s.nextId := rfl
@[simp] theorem setPoison_cyc (a : Nat) (b : Bool) : (s.setPoison a b).cyc = s.cyc := rfl
@[simp] theorem setPoison_now (a : Nat) (b : Bool) : (s.setPoison a b).now = s.now := rfl
@[simp] theorem setPoison_mem (a : Nat) (b : Bool) : (s.setPoison a b).mem = s.mem := rfl
@[simp] theorem setPoison_sectors (a : Nat) (b : Bool) : (s.setPoison a b).sectors = s.sectors := rfl
@[simp] theorem setPoison_rails (a : Nat) (b : Bool) : (s.setPoison a b).rails = s.rails := rfl
@[simp] theorem setPoison_ctxs (a : Nat) (b : Bool) : (s.setPoison a b).ctxs = s.ctxs := rfl
@[simp] theorem setPoison_wqs (a : Nat) (b : Bool) : (s.setPoison a b).wqs = s.wqs := rfl
@[simp] theorem setPoison_launches (a : Nat) (b : Bool) : (s.setPoison a b).launches = s.launches := rfl
@[simp] theorem setPoison_tasks (a : Nat) (b : Bool) : (s.setPoison a b).tasks = s.tasks := rfl
@[simp] theorem setPoison_saves (a : Nat) (b : Bool) : (s.setPoison a b).saves = s.saves := rfl
@[simp] theorem setPoison_turns (a : Nat) (b : Bool) : (s.setPoison a b).turns = s.turns := rfl
@[simp] theorem setPoison_reserving (a : Nat) (b : Bool) : (s.setPoison a b).reserving = s.reserving := rfl
@[simp] theorem setPoison_placeDue (a : Nat) (b : Bool) : (s.setPoison a b).placeDue = s.placeDue := rfl
@[simp] theorem setPoison_ops (a : Nat) (b : Bool) : (s.setPoison a b).ops = s.ops := rfl
@[simp] theorem setPoison_dups (a : Nat) (b : Bool) : (s.setPoison a b).dups = s.dups := rfl
@[simp] theorem setPoison_edgeTlb (a : Nat) (b : Bool) : (s.setPoison a b).edgeTlb = s.edgeTlb := rfl
@[simp] theorem setPoison_linkWaits (a : Nat) (b : Bool) : (s.setPoison a b).linkWaits = s.linkWaits := rfl
@[simp] theorem setPoison_recs (a : Nat) (b : Bool) : (s.setPoison a b).recs = s.recs := rfl
@[simp] theorem setPoison_tokenSeq (a : Nat) (b : Bool) : (s.setPoison a b).tokenSeq = s.tokenSeq := rfl
@[simp] theorem setPoison_regs (a : Nat) (b : Bool) : (s.setPoison a b).regs = s.regs := rfl
@[simp] theorem setPoison_own (a : Nat) (b : Bool) : (s.setPoison a b).own = s.own := rfl
@[simp] theorem setPoison_flash (a : Nat) (b : Bool) : (s.setPoison a b).flash = s.flash := rfl
@[simp] theorem setPoison_boot (a : Nat) (b : Bool) : (s.setPoison a b).boot = s.boot := rfl
@[simp] theorem setPoison_umber (a : Nat) (b : Bool) : (s.setPoison a b).umber = s.umber := rfl
@[simp] theorem setPoison_asleep (a : Nat) (b : Bool) : (s.setPoison a b).asleep = s.asleep := rfl
@[simp] theorem setPoison_lastUse (a : Nat) (b : Bool) : (s.setPoison a b).lastUse = s.lastUse := rfl
@[simp] theorem setPoison_waking (a : Nat) (b : Bool) : (s.setPoison a b).waking = s.waking := rfl

/-! ### setSec -/

@[simp] theorem setSec_agenda (k : Nat) (v : Sector) : (s.setSec k v).agenda = s.agenda := rfl
@[simp] theorem setSec_turn (k : Nat) (v : Sector) : (s.setSec k v).turn = s.turn := rfl
@[simp] theorem setSec_fresh (k : Nat) (v : Sector) : (s.setSec k v).fresh = s.fresh := rfl
@[simp] theorem setSec_cur (k : Nat) (v : Sector) : (s.setSec k v).cur = s.cur := rfl
@[simp] theorem setSec_slot (k : Nat) (v : Sector) : (s.setSec k v).slot = s.slot := rfl
@[simp] theorem setSec_upsets (k : Nat) (v : Sector) : (s.setSec k v).upsets = s.upsets := rfl
@[simp] theorem setSec_outbox (k : Nat) (v : Sector) : (s.setSec k v).outbox = s.outbox := rfl
@[simp] theorem setSec_nextId (k : Nat) (v : Sector) : (s.setSec k v).nextId = s.nextId := rfl
@[simp] theorem setSec_cyc (k : Nat) (v : Sector) : (s.setSec k v).cyc = s.cyc := rfl
@[simp] theorem setSec_now (k : Nat) (v : Sector) : (s.setSec k v).now = s.now := rfl
@[simp] theorem setSec_mem (k : Nat) (v : Sector) : (s.setSec k v).mem = s.mem := rfl
@[simp] theorem setSec_poison (k : Nat) (v : Sector) : (s.setSec k v).poison = s.poison := rfl
@[simp] theorem setSec_rails (k : Nat) (v : Sector) : (s.setSec k v).rails = s.rails := rfl
@[simp] theorem setSec_ctxs (k : Nat) (v : Sector) : (s.setSec k v).ctxs = s.ctxs := rfl
@[simp] theorem setSec_wqs (k : Nat) (v : Sector) : (s.setSec k v).wqs = s.wqs := rfl
@[simp] theorem setSec_launches (k : Nat) (v : Sector) : (s.setSec k v).launches = s.launches := rfl
@[simp] theorem setSec_tasks (k : Nat) (v : Sector) : (s.setSec k v).tasks = s.tasks := rfl
@[simp] theorem setSec_saves (k : Nat) (v : Sector) : (s.setSec k v).saves = s.saves := rfl
@[simp] theorem setSec_turns (k : Nat) (v : Sector) : (s.setSec k v).turns = s.turns := rfl
@[simp] theorem setSec_reserving (k : Nat) (v : Sector) : (s.setSec k v).reserving = s.reserving := rfl
@[simp] theorem setSec_placeDue (k : Nat) (v : Sector) : (s.setSec k v).placeDue = s.placeDue := rfl
@[simp] theorem setSec_ops (k : Nat) (v : Sector) : (s.setSec k v).ops = s.ops := rfl
@[simp] theorem setSec_dups (k : Nat) (v : Sector) : (s.setSec k v).dups = s.dups := rfl
@[simp] theorem setSec_edgeTlb (k : Nat) (v : Sector) : (s.setSec k v).edgeTlb = s.edgeTlb := rfl
@[simp] theorem setSec_linkWaits (k : Nat) (v : Sector) : (s.setSec k v).linkWaits = s.linkWaits := rfl
@[simp] theorem setSec_recs (k : Nat) (v : Sector) : (s.setSec k v).recs = s.recs := rfl
@[simp] theorem setSec_tokenSeq (k : Nat) (v : Sector) : (s.setSec k v).tokenSeq = s.tokenSeq := rfl
@[simp] theorem setSec_regs (k : Nat) (v : Sector) : (s.setSec k v).regs = s.regs := rfl
@[simp] theorem setSec_own (k : Nat) (v : Sector) : (s.setSec k v).own = s.own := rfl
@[simp] theorem setSec_flash (k : Nat) (v : Sector) : (s.setSec k v).flash = s.flash := rfl
@[simp] theorem setSec_boot (k : Nat) (v : Sector) : (s.setSec k v).boot = s.boot := rfl
@[simp] theorem setSec_umber (k : Nat) (v : Sector) : (s.setSec k v).umber = s.umber := rfl
@[simp] theorem setSec_asleep (k : Nat) (v : Sector) : (s.setSec k v).asleep = s.asleep := rfl
@[simp] theorem setSec_lastUse (k : Nat) (v : Sector) : (s.setSec k v).lastUse = s.lastUse := rfl
@[simp] theorem setSec_waking (k : Nat) (v : Sector) : (s.setSec k v).waking = s.waking := rfl

/-! ### modSec -/

@[simp] theorem modSec_agenda (k : Nat) (f : Sector → Sector) : (s.modSec k f).agenda = s.agenda := rfl
@[simp] theorem modSec_turn (k : Nat) (f : Sector → Sector) : (s.modSec k f).turn = s.turn := rfl
@[simp] theorem modSec_fresh (k : Nat) (f : Sector → Sector) : (s.modSec k f).fresh = s.fresh := rfl
@[simp] theorem modSec_cur (k : Nat) (f : Sector → Sector) : (s.modSec k f).cur = s.cur := rfl
@[simp] theorem modSec_slot (k : Nat) (f : Sector → Sector) : (s.modSec k f).slot = s.slot := rfl
@[simp] theorem modSec_upsets (k : Nat) (f : Sector → Sector) : (s.modSec k f).upsets = s.upsets := rfl
@[simp] theorem modSec_outbox (k : Nat) (f : Sector → Sector) : (s.modSec k f).outbox = s.outbox := rfl
@[simp] theorem modSec_nextId (k : Nat) (f : Sector → Sector) : (s.modSec k f).nextId = s.nextId := rfl
@[simp] theorem modSec_cyc (k : Nat) (f : Sector → Sector) : (s.modSec k f).cyc = s.cyc := rfl
@[simp] theorem modSec_now (k : Nat) (f : Sector → Sector) : (s.modSec k f).now = s.now := rfl
@[simp] theorem modSec_mem (k : Nat) (f : Sector → Sector) : (s.modSec k f).mem = s.mem := rfl
@[simp] theorem modSec_poison (k : Nat) (f : Sector → Sector) : (s.modSec k f).poison = s.poison := rfl
@[simp] theorem modSec_rails (k : Nat) (f : Sector → Sector) : (s.modSec k f).rails = s.rails := rfl
@[simp] theorem modSec_ctxs (k : Nat) (f : Sector → Sector) : (s.modSec k f).ctxs = s.ctxs := rfl
@[simp] theorem modSec_wqs (k : Nat) (f : Sector → Sector) : (s.modSec k f).wqs = s.wqs := rfl
@[simp] theorem modSec_launches (k : Nat) (f : Sector → Sector) : (s.modSec k f).launches = s.launches := rfl
@[simp] theorem modSec_tasks (k : Nat) (f : Sector → Sector) : (s.modSec k f).tasks = s.tasks := rfl
@[simp] theorem modSec_saves (k : Nat) (f : Sector → Sector) : (s.modSec k f).saves = s.saves := rfl
@[simp] theorem modSec_turns (k : Nat) (f : Sector → Sector) : (s.modSec k f).turns = s.turns := rfl
@[simp] theorem modSec_reserving (k : Nat) (f : Sector → Sector) : (s.modSec k f).reserving = s.reserving := rfl
@[simp] theorem modSec_placeDue (k : Nat) (f : Sector → Sector) : (s.modSec k f).placeDue = s.placeDue := rfl
@[simp] theorem modSec_ops (k : Nat) (f : Sector → Sector) : (s.modSec k f).ops = s.ops := rfl
@[simp] theorem modSec_dups (k : Nat) (f : Sector → Sector) : (s.modSec k f).dups = s.dups := rfl
@[simp] theorem modSec_edgeTlb (k : Nat) (f : Sector → Sector) : (s.modSec k f).edgeTlb = s.edgeTlb := rfl
@[simp] theorem modSec_linkWaits (k : Nat) (f : Sector → Sector) : (s.modSec k f).linkWaits = s.linkWaits := rfl
@[simp] theorem modSec_recs (k : Nat) (f : Sector → Sector) : (s.modSec k f).recs = s.recs := rfl
@[simp] theorem modSec_tokenSeq (k : Nat) (f : Sector → Sector) : (s.modSec k f).tokenSeq = s.tokenSeq := rfl
@[simp] theorem modSec_regs (k : Nat) (f : Sector → Sector) : (s.modSec k f).regs = s.regs := rfl
@[simp] theorem modSec_own (k : Nat) (f : Sector → Sector) : (s.modSec k f).own = s.own := rfl
@[simp] theorem modSec_flash (k : Nat) (f : Sector → Sector) : (s.modSec k f).flash = s.flash := rfl
@[simp] theorem modSec_boot (k : Nat) (f : Sector → Sector) : (s.modSec k f).boot = s.boot := rfl
@[simp] theorem modSec_umber (k : Nat) (f : Sector → Sector) : (s.modSec k f).umber = s.umber := rfl
@[simp] theorem modSec_asleep (k : Nat) (f : Sector → Sector) : (s.modSec k f).asleep = s.asleep := rfl
@[simp] theorem modSec_lastUse (k : Nat) (f : Sector → Sector) : (s.modSec k f).lastUse = s.lastUse := rfl
@[simp] theorem modSec_waking (k : Nat) (f : Sector → Sector) : (s.modSec k f).waking = s.waking := rfl

/-! ### setCtx -/

@[simp] theorem setCtx_agenda (c : BitVec 8) (v : Ctx) : (s.setCtx c v).agenda = s.agenda := rfl
@[simp] theorem setCtx_turn (c : BitVec 8) (v : Ctx) : (s.setCtx c v).turn = s.turn := rfl
@[simp] theorem setCtx_fresh (c : BitVec 8) (v : Ctx) : (s.setCtx c v).fresh = s.fresh := rfl
@[simp] theorem setCtx_cur (c : BitVec 8) (v : Ctx) : (s.setCtx c v).cur = s.cur := rfl
@[simp] theorem setCtx_slot (c : BitVec 8) (v : Ctx) : (s.setCtx c v).slot = s.slot := rfl
@[simp] theorem setCtx_upsets (c : BitVec 8) (v : Ctx) : (s.setCtx c v).upsets = s.upsets := rfl
@[simp] theorem setCtx_outbox (c : BitVec 8) (v : Ctx) : (s.setCtx c v).outbox = s.outbox := rfl
@[simp] theorem setCtx_nextId (c : BitVec 8) (v : Ctx) : (s.setCtx c v).nextId = s.nextId := rfl
@[simp] theorem setCtx_cyc (c : BitVec 8) (v : Ctx) : (s.setCtx c v).cyc = s.cyc := rfl
@[simp] theorem setCtx_now (c : BitVec 8) (v : Ctx) : (s.setCtx c v).now = s.now := rfl
@[simp] theorem setCtx_mem (c : BitVec 8) (v : Ctx) : (s.setCtx c v).mem = s.mem := rfl
@[simp] theorem setCtx_poison (c : BitVec 8) (v : Ctx) : (s.setCtx c v).poison = s.poison := rfl
@[simp] theorem setCtx_sectors (c : BitVec 8) (v : Ctx) : (s.setCtx c v).sectors = s.sectors := rfl
@[simp] theorem setCtx_rails (c : BitVec 8) (v : Ctx) : (s.setCtx c v).rails = s.rails := rfl
@[simp] theorem setCtx_wqs (c : BitVec 8) (v : Ctx) : (s.setCtx c v).wqs = s.wqs := rfl
@[simp] theorem setCtx_launches (c : BitVec 8) (v : Ctx) : (s.setCtx c v).launches = s.launches := rfl
@[simp] theorem setCtx_tasks (c : BitVec 8) (v : Ctx) : (s.setCtx c v).tasks = s.tasks := rfl
@[simp] theorem setCtx_saves (c : BitVec 8) (v : Ctx) : (s.setCtx c v).saves = s.saves := rfl
@[simp] theorem setCtx_turns (c : BitVec 8) (v : Ctx) : (s.setCtx c v).turns = s.turns := rfl
@[simp] theorem setCtx_reserving (c : BitVec 8) (v : Ctx) : (s.setCtx c v).reserving = s.reserving := rfl
@[simp] theorem setCtx_placeDue (c : BitVec 8) (v : Ctx) : (s.setCtx c v).placeDue = s.placeDue := rfl
@[simp] theorem setCtx_ops (c : BitVec 8) (v : Ctx) : (s.setCtx c v).ops = s.ops := rfl
@[simp] theorem setCtx_dups (c : BitVec 8) (v : Ctx) : (s.setCtx c v).dups = s.dups := rfl
@[simp] theorem setCtx_edgeTlb (c : BitVec 8) (v : Ctx) : (s.setCtx c v).edgeTlb = s.edgeTlb := rfl
@[simp] theorem setCtx_linkWaits (c : BitVec 8) (v : Ctx) : (s.setCtx c v).linkWaits = s.linkWaits := rfl
@[simp] theorem setCtx_recs (c : BitVec 8) (v : Ctx) : (s.setCtx c v).recs = s.recs := rfl
@[simp] theorem setCtx_tokenSeq (c : BitVec 8) (v : Ctx) : (s.setCtx c v).tokenSeq = s.tokenSeq := rfl
@[simp] theorem setCtx_regs (c : BitVec 8) (v : Ctx) : (s.setCtx c v).regs = s.regs := rfl
@[simp] theorem setCtx_own (c : BitVec 8) (v : Ctx) : (s.setCtx c v).own = s.own := rfl
@[simp] theorem setCtx_flash (c : BitVec 8) (v : Ctx) : (s.setCtx c v).flash = s.flash := rfl
@[simp] theorem setCtx_boot (c : BitVec 8) (v : Ctx) : (s.setCtx c v).boot = s.boot := rfl
@[simp] theorem setCtx_umber (c : BitVec 8) (v : Ctx) : (s.setCtx c v).umber = s.umber := rfl
@[simp] theorem setCtx_asleep (c : BitVec 8) (v : Ctx) : (s.setCtx c v).asleep = s.asleep := rfl
@[simp] theorem setCtx_lastUse (c : BitVec 8) (v : Ctx) : (s.setCtx c v).lastUse = s.lastUse := rfl
@[simp] theorem setCtx_waking (c : BitVec 8) (v : Ctx) : (s.setCtx c v).waking = s.waking := rfl

/-! ### modCtx -/

@[simp] theorem modCtx_agenda (c : BitVec 8) (f : Ctx → Ctx) : (s.modCtx c f).agenda = s.agenda := rfl
@[simp] theorem modCtx_turn (c : BitVec 8) (f : Ctx → Ctx) : (s.modCtx c f).turn = s.turn := rfl
@[simp] theorem modCtx_fresh (c : BitVec 8) (f : Ctx → Ctx) : (s.modCtx c f).fresh = s.fresh := rfl
@[simp] theorem modCtx_cur (c : BitVec 8) (f : Ctx → Ctx) : (s.modCtx c f).cur = s.cur := rfl
@[simp] theorem modCtx_slot (c : BitVec 8) (f : Ctx → Ctx) : (s.modCtx c f).slot = s.slot := rfl
@[simp] theorem modCtx_upsets (c : BitVec 8) (f : Ctx → Ctx) : (s.modCtx c f).upsets = s.upsets := rfl
@[simp] theorem modCtx_outbox (c : BitVec 8) (f : Ctx → Ctx) : (s.modCtx c f).outbox = s.outbox := rfl
@[simp] theorem modCtx_nextId (c : BitVec 8) (f : Ctx → Ctx) : (s.modCtx c f).nextId = s.nextId := rfl
@[simp] theorem modCtx_cyc (c : BitVec 8) (f : Ctx → Ctx) : (s.modCtx c f).cyc = s.cyc := rfl
@[simp] theorem modCtx_now (c : BitVec 8) (f : Ctx → Ctx) : (s.modCtx c f).now = s.now := rfl
@[simp] theorem modCtx_mem (c : BitVec 8) (f : Ctx → Ctx) : (s.modCtx c f).mem = s.mem := rfl
@[simp] theorem modCtx_poison (c : BitVec 8) (f : Ctx → Ctx) : (s.modCtx c f).poison = s.poison := rfl
@[simp] theorem modCtx_sectors (c : BitVec 8) (f : Ctx → Ctx) : (s.modCtx c f).sectors = s.sectors := rfl
@[simp] theorem modCtx_rails (c : BitVec 8) (f : Ctx → Ctx) : (s.modCtx c f).rails = s.rails := rfl
@[simp] theorem modCtx_wqs (c : BitVec 8) (f : Ctx → Ctx) : (s.modCtx c f).wqs = s.wqs := rfl
@[simp] theorem modCtx_launches (c : BitVec 8) (f : Ctx → Ctx) : (s.modCtx c f).launches = s.launches := rfl
@[simp] theorem modCtx_tasks (c : BitVec 8) (f : Ctx → Ctx) : (s.modCtx c f).tasks = s.tasks := rfl
@[simp] theorem modCtx_saves (c : BitVec 8) (f : Ctx → Ctx) : (s.modCtx c f).saves = s.saves := rfl
@[simp] theorem modCtx_turns (c : BitVec 8) (f : Ctx → Ctx) : (s.modCtx c f).turns = s.turns := rfl
@[simp] theorem modCtx_reserving (c : BitVec 8) (f : Ctx → Ctx) : (s.modCtx c f).reserving = s.reserving := rfl
@[simp] theorem modCtx_placeDue (c : BitVec 8) (f : Ctx → Ctx) : (s.modCtx c f).placeDue = s.placeDue := rfl
@[simp] theorem modCtx_ops (c : BitVec 8) (f : Ctx → Ctx) : (s.modCtx c f).ops = s.ops := rfl
@[simp] theorem modCtx_dups (c : BitVec 8) (f : Ctx → Ctx) : (s.modCtx c f).dups = s.dups := rfl
@[simp] theorem modCtx_edgeTlb (c : BitVec 8) (f : Ctx → Ctx) : (s.modCtx c f).edgeTlb = s.edgeTlb := rfl
@[simp] theorem modCtx_linkWaits (c : BitVec 8) (f : Ctx → Ctx) : (s.modCtx c f).linkWaits = s.linkWaits := rfl
@[simp] theorem modCtx_recs (c : BitVec 8) (f : Ctx → Ctx) : (s.modCtx c f).recs = s.recs := rfl
@[simp] theorem modCtx_tokenSeq (c : BitVec 8) (f : Ctx → Ctx) : (s.modCtx c f).tokenSeq = s.tokenSeq := rfl
@[simp] theorem modCtx_regs (c : BitVec 8) (f : Ctx → Ctx) : (s.modCtx c f).regs = s.regs := rfl
@[simp] theorem modCtx_own (c : BitVec 8) (f : Ctx → Ctx) : (s.modCtx c f).own = s.own := rfl
@[simp] theorem modCtx_flash (c : BitVec 8) (f : Ctx → Ctx) : (s.modCtx c f).flash = s.flash := rfl
@[simp] theorem modCtx_boot (c : BitVec 8) (f : Ctx → Ctx) : (s.modCtx c f).boot = s.boot := rfl
@[simp] theorem modCtx_umber (c : BitVec 8) (f : Ctx → Ctx) : (s.modCtx c f).umber = s.umber := rfl
@[simp] theorem modCtx_asleep (c : BitVec 8) (f : Ctx → Ctx) : (s.modCtx c f).asleep = s.asleep := rfl
@[simp] theorem modCtx_lastUse (c : BitVec 8) (f : Ctx → Ctx) : (s.modCtx c f).lastUse = s.lastUse := rfl
@[simp] theorem modCtx_waking (c : BitVec 8) (f : Ctx → Ctx) : (s.modCtx c f).waking = s.waking := rfl

/-! ### setWq -/

@[simp] theorem setWq_agenda (q : Nat) (v : Wq) : (s.setWq q v).agenda = s.agenda := rfl
@[simp] theorem setWq_turn (q : Nat) (v : Wq) : (s.setWq q v).turn = s.turn := rfl
@[simp] theorem setWq_fresh (q : Nat) (v : Wq) : (s.setWq q v).fresh = s.fresh := rfl
@[simp] theorem setWq_cur (q : Nat) (v : Wq) : (s.setWq q v).cur = s.cur := rfl
@[simp] theorem setWq_slot (q : Nat) (v : Wq) : (s.setWq q v).slot = s.slot := rfl
@[simp] theorem setWq_upsets (q : Nat) (v : Wq) : (s.setWq q v).upsets = s.upsets := rfl
@[simp] theorem setWq_outbox (q : Nat) (v : Wq) : (s.setWq q v).outbox = s.outbox := rfl
@[simp] theorem setWq_nextId (q : Nat) (v : Wq) : (s.setWq q v).nextId = s.nextId := rfl
@[simp] theorem setWq_cyc (q : Nat) (v : Wq) : (s.setWq q v).cyc = s.cyc := rfl
@[simp] theorem setWq_now (q : Nat) (v : Wq) : (s.setWq q v).now = s.now := rfl
@[simp] theorem setWq_mem (q : Nat) (v : Wq) : (s.setWq q v).mem = s.mem := rfl
@[simp] theorem setWq_poison (q : Nat) (v : Wq) : (s.setWq q v).poison = s.poison := rfl
@[simp] theorem setWq_sectors (q : Nat) (v : Wq) : (s.setWq q v).sectors = s.sectors := rfl
@[simp] theorem setWq_rails (q : Nat) (v : Wq) : (s.setWq q v).rails = s.rails := rfl
@[simp] theorem setWq_ctxs (q : Nat) (v : Wq) : (s.setWq q v).ctxs = s.ctxs := rfl
@[simp] theorem setWq_launches (q : Nat) (v : Wq) : (s.setWq q v).launches = s.launches := rfl
@[simp] theorem setWq_tasks (q : Nat) (v : Wq) : (s.setWq q v).tasks = s.tasks := rfl
@[simp] theorem setWq_saves (q : Nat) (v : Wq) : (s.setWq q v).saves = s.saves := rfl
@[simp] theorem setWq_turns (q : Nat) (v : Wq) : (s.setWq q v).turns = s.turns := rfl
@[simp] theorem setWq_reserving (q : Nat) (v : Wq) : (s.setWq q v).reserving = s.reserving := rfl
@[simp] theorem setWq_placeDue (q : Nat) (v : Wq) : (s.setWq q v).placeDue = s.placeDue := rfl
@[simp] theorem setWq_ops (q : Nat) (v : Wq) : (s.setWq q v).ops = s.ops := rfl
@[simp] theorem setWq_dups (q : Nat) (v : Wq) : (s.setWq q v).dups = s.dups := rfl
@[simp] theorem setWq_edgeTlb (q : Nat) (v : Wq) : (s.setWq q v).edgeTlb = s.edgeTlb := rfl
@[simp] theorem setWq_linkWaits (q : Nat) (v : Wq) : (s.setWq q v).linkWaits = s.linkWaits := rfl
@[simp] theorem setWq_recs (q : Nat) (v : Wq) : (s.setWq q v).recs = s.recs := rfl
@[simp] theorem setWq_tokenSeq (q : Nat) (v : Wq) : (s.setWq q v).tokenSeq = s.tokenSeq := rfl
@[simp] theorem setWq_regs (q : Nat) (v : Wq) : (s.setWq q v).regs = s.regs := rfl
@[simp] theorem setWq_own (q : Nat) (v : Wq) : (s.setWq q v).own = s.own := rfl
@[simp] theorem setWq_flash (q : Nat) (v : Wq) : (s.setWq q v).flash = s.flash := rfl
@[simp] theorem setWq_boot (q : Nat) (v : Wq) : (s.setWq q v).boot = s.boot := rfl
@[simp] theorem setWq_umber (q : Nat) (v : Wq) : (s.setWq q v).umber = s.umber := rfl
@[simp] theorem setWq_asleep (q : Nat) (v : Wq) : (s.setWq q v).asleep = s.asleep := rfl
@[simp] theorem setWq_lastUse (q : Nat) (v : Wq) : (s.setWq q v).lastUse = s.lastUse := rfl
@[simp] theorem setWq_waking (q : Nat) (v : Wq) : (s.setWq q v).waking = s.waking := rfl

/-! ### setRail -/

@[simp] theorem setRail_agenda (g : Nat) (v : Rail) : (s.setRail g v).agenda = s.agenda := rfl
@[simp] theorem setRail_turn (g : Nat) (v : Rail) : (s.setRail g v).turn = s.turn := rfl
@[simp] theorem setRail_fresh (g : Nat) (v : Rail) : (s.setRail g v).fresh = s.fresh := rfl
@[simp] theorem setRail_cur (g : Nat) (v : Rail) : (s.setRail g v).cur = s.cur := rfl
@[simp] theorem setRail_slot (g : Nat) (v : Rail) : (s.setRail g v).slot = s.slot := rfl
@[simp] theorem setRail_upsets (g : Nat) (v : Rail) : (s.setRail g v).upsets = s.upsets := rfl
@[simp] theorem setRail_outbox (g : Nat) (v : Rail) : (s.setRail g v).outbox = s.outbox := rfl
@[simp] theorem setRail_nextId (g : Nat) (v : Rail) : (s.setRail g v).nextId = s.nextId := rfl
@[simp] theorem setRail_cyc (g : Nat) (v : Rail) : (s.setRail g v).cyc = s.cyc := rfl
@[simp] theorem setRail_now (g : Nat) (v : Rail) : (s.setRail g v).now = s.now := rfl
@[simp] theorem setRail_mem (g : Nat) (v : Rail) : (s.setRail g v).mem = s.mem := rfl
@[simp] theorem setRail_poison (g : Nat) (v : Rail) : (s.setRail g v).poison = s.poison := rfl
@[simp] theorem setRail_sectors (g : Nat) (v : Rail) : (s.setRail g v).sectors = s.sectors := rfl
@[simp] theorem setRail_ctxs (g : Nat) (v : Rail) : (s.setRail g v).ctxs = s.ctxs := rfl
@[simp] theorem setRail_wqs (g : Nat) (v : Rail) : (s.setRail g v).wqs = s.wqs := rfl
@[simp] theorem setRail_launches (g : Nat) (v : Rail) : (s.setRail g v).launches = s.launches := rfl
@[simp] theorem setRail_tasks (g : Nat) (v : Rail) : (s.setRail g v).tasks = s.tasks := rfl
@[simp] theorem setRail_saves (g : Nat) (v : Rail) : (s.setRail g v).saves = s.saves := rfl
@[simp] theorem setRail_turns (g : Nat) (v : Rail) : (s.setRail g v).turns = s.turns := rfl
@[simp] theorem setRail_reserving (g : Nat) (v : Rail) : (s.setRail g v).reserving = s.reserving := rfl
@[simp] theorem setRail_placeDue (g : Nat) (v : Rail) : (s.setRail g v).placeDue = s.placeDue := rfl
@[simp] theorem setRail_ops (g : Nat) (v : Rail) : (s.setRail g v).ops = s.ops := rfl
@[simp] theorem setRail_dups (g : Nat) (v : Rail) : (s.setRail g v).dups = s.dups := rfl
@[simp] theorem setRail_edgeTlb (g : Nat) (v : Rail) : (s.setRail g v).edgeTlb = s.edgeTlb := rfl
@[simp] theorem setRail_linkWaits (g : Nat) (v : Rail) : (s.setRail g v).linkWaits = s.linkWaits := rfl
@[simp] theorem setRail_recs (g : Nat) (v : Rail) : (s.setRail g v).recs = s.recs := rfl
@[simp] theorem setRail_tokenSeq (g : Nat) (v : Rail) : (s.setRail g v).tokenSeq = s.tokenSeq := rfl
@[simp] theorem setRail_regs (g : Nat) (v : Rail) : (s.setRail g v).regs = s.regs := rfl
@[simp] theorem setRail_own (g : Nat) (v : Rail) : (s.setRail g v).own = s.own := rfl
@[simp] theorem setRail_flash (g : Nat) (v : Rail) : (s.setRail g v).flash = s.flash := rfl
@[simp] theorem setRail_boot (g : Nat) (v : Rail) : (s.setRail g v).boot = s.boot := rfl
@[simp] theorem setRail_umber (g : Nat) (v : Rail) : (s.setRail g v).umber = s.umber := rfl
@[simp] theorem setRail_asleep (g : Nat) (v : Rail) : (s.setRail g v).asleep = s.asleep := rfl
@[simp] theorem setRail_lastUse (g : Nat) (v : Rail) : (s.setRail g v).lastUse = s.lastUse := rfl
@[simp] theorem setRail_waking (g : Nat) (v : Rail) : (s.setRail g v).waking = s.waking := rfl

/-! ### setTask -/

@[simp] theorem setTask_agenda (t : Task) : (s.setTask t).agenda = s.agenda := rfl
@[simp] theorem setTask_turn (t : Task) : (s.setTask t).turn = s.turn := rfl
@[simp] theorem setTask_fresh (t : Task) : (s.setTask t).fresh = s.fresh := rfl
@[simp] theorem setTask_cur (t : Task) : (s.setTask t).cur = s.cur := rfl
@[simp] theorem setTask_slot (t : Task) : (s.setTask t).slot = s.slot := rfl
@[simp] theorem setTask_upsets (t : Task) : (s.setTask t).upsets = s.upsets := rfl
@[simp] theorem setTask_outbox (t : Task) : (s.setTask t).outbox = s.outbox := rfl
@[simp] theorem setTask_nextId (t : Task) : (s.setTask t).nextId = s.nextId := rfl
@[simp] theorem setTask_cyc (t : Task) : (s.setTask t).cyc = s.cyc := rfl
@[simp] theorem setTask_now (t : Task) : (s.setTask t).now = s.now := rfl
@[simp] theorem setTask_mem (t : Task) : (s.setTask t).mem = s.mem := rfl
@[simp] theorem setTask_poison (t : Task) : (s.setTask t).poison = s.poison := rfl
@[simp] theorem setTask_sectors (t : Task) : (s.setTask t).sectors = s.sectors := rfl
@[simp] theorem setTask_rails (t : Task) : (s.setTask t).rails = s.rails := rfl
@[simp] theorem setTask_ctxs (t : Task) : (s.setTask t).ctxs = s.ctxs := rfl
@[simp] theorem setTask_wqs (t : Task) : (s.setTask t).wqs = s.wqs := rfl
@[simp] theorem setTask_launches (t : Task) : (s.setTask t).launches = s.launches := rfl
@[simp] theorem setTask_saves (t : Task) : (s.setTask t).saves = s.saves := rfl
@[simp] theorem setTask_turns (t : Task) : (s.setTask t).turns = s.turns := rfl
@[simp] theorem setTask_reserving (t : Task) : (s.setTask t).reserving = s.reserving := rfl
@[simp] theorem setTask_placeDue (t : Task) : (s.setTask t).placeDue = s.placeDue := rfl
@[simp] theorem setTask_ops (t : Task) : (s.setTask t).ops = s.ops := rfl
@[simp] theorem setTask_dups (t : Task) : (s.setTask t).dups = s.dups := rfl
@[simp] theorem setTask_edgeTlb (t : Task) : (s.setTask t).edgeTlb = s.edgeTlb := rfl
@[simp] theorem setTask_linkWaits (t : Task) : (s.setTask t).linkWaits = s.linkWaits := rfl
@[simp] theorem setTask_recs (t : Task) : (s.setTask t).recs = s.recs := rfl
@[simp] theorem setTask_tokenSeq (t : Task) : (s.setTask t).tokenSeq = s.tokenSeq := rfl
@[simp] theorem setTask_regs (t : Task) : (s.setTask t).regs = s.regs := rfl
@[simp] theorem setTask_own (t : Task) : (s.setTask t).own = s.own := rfl
@[simp] theorem setTask_flash (t : Task) : (s.setTask t).flash = s.flash := rfl
@[simp] theorem setTask_boot (t : Task) : (s.setTask t).boot = s.boot := rfl
@[simp] theorem setTask_umber (t : Task) : (s.setTask t).umber = s.umber := rfl
@[simp] theorem setTask_asleep (t : Task) : (s.setTask t).asleep = s.asleep := rfl
@[simp] theorem setTask_lastUse (t : Task) : (s.setTask t).lastUse = s.lastUse := rfl
@[simp] theorem setTask_waking (t : Task) : (s.setTask t).waking = s.waking := rfl

/-! ### setLaunch -/

@[simp] theorem setLaunch_agenda (l : Launch) : (s.setLaunch l).agenda = s.agenda := rfl
@[simp] theorem setLaunch_turn (l : Launch) : (s.setLaunch l).turn = s.turn := rfl
@[simp] theorem setLaunch_fresh (l : Launch) : (s.setLaunch l).fresh = s.fresh := rfl
@[simp] theorem setLaunch_cur (l : Launch) : (s.setLaunch l).cur = s.cur := rfl
@[simp] theorem setLaunch_slot (l : Launch) : (s.setLaunch l).slot = s.slot := rfl
@[simp] theorem setLaunch_upsets (l : Launch) : (s.setLaunch l).upsets = s.upsets := rfl
@[simp] theorem setLaunch_outbox (l : Launch) : (s.setLaunch l).outbox = s.outbox := rfl
@[simp] theorem setLaunch_nextId (l : Launch) : (s.setLaunch l).nextId = s.nextId := rfl
@[simp] theorem setLaunch_cyc (l : Launch) : (s.setLaunch l).cyc = s.cyc := rfl
@[simp] theorem setLaunch_now (l : Launch) : (s.setLaunch l).now = s.now := rfl
@[simp] theorem setLaunch_mem (l : Launch) : (s.setLaunch l).mem = s.mem := rfl
@[simp] theorem setLaunch_poison (l : Launch) : (s.setLaunch l).poison = s.poison := rfl
@[simp] theorem setLaunch_sectors (l : Launch) : (s.setLaunch l).sectors = s.sectors := rfl
@[simp] theorem setLaunch_rails (l : Launch) : (s.setLaunch l).rails = s.rails := rfl
@[simp] theorem setLaunch_ctxs (l : Launch) : (s.setLaunch l).ctxs = s.ctxs := rfl
@[simp] theorem setLaunch_wqs (l : Launch) : (s.setLaunch l).wqs = s.wqs := rfl
@[simp] theorem setLaunch_tasks (l : Launch) : (s.setLaunch l).tasks = s.tasks := rfl
@[simp] theorem setLaunch_saves (l : Launch) : (s.setLaunch l).saves = s.saves := rfl
@[simp] theorem setLaunch_turns (l : Launch) : (s.setLaunch l).turns = s.turns := rfl
@[simp] theorem setLaunch_reserving (l : Launch) : (s.setLaunch l).reserving = s.reserving := rfl
@[simp] theorem setLaunch_placeDue (l : Launch) : (s.setLaunch l).placeDue = s.placeDue := rfl
@[simp] theorem setLaunch_ops (l : Launch) : (s.setLaunch l).ops = s.ops := rfl
@[simp] theorem setLaunch_dups (l : Launch) : (s.setLaunch l).dups = s.dups := rfl
@[simp] theorem setLaunch_edgeTlb (l : Launch) : (s.setLaunch l).edgeTlb = s.edgeTlb := rfl
@[simp] theorem setLaunch_linkWaits (l : Launch) : (s.setLaunch l).linkWaits = s.linkWaits := rfl
@[simp] theorem setLaunch_recs (l : Launch) : (s.setLaunch l).recs = s.recs := rfl
@[simp] theorem setLaunch_tokenSeq (l : Launch) : (s.setLaunch l).tokenSeq = s.tokenSeq := rfl
@[simp] theorem setLaunch_regs (l : Launch) : (s.setLaunch l).regs = s.regs := rfl
@[simp] theorem setLaunch_own (l : Launch) : (s.setLaunch l).own = s.own := rfl
@[simp] theorem setLaunch_flash (l : Launch) : (s.setLaunch l).flash = s.flash := rfl
@[simp] theorem setLaunch_boot (l : Launch) : (s.setLaunch l).boot = s.boot := rfl
@[simp] theorem setLaunch_umber (l : Launch) : (s.setLaunch l).umber = s.umber := rfl
@[simp] theorem setLaunch_asleep (l : Launch) : (s.setLaunch l).asleep = s.asleep := rfl
@[simp] theorem setLaunch_lastUse (l : Launch) : (s.setLaunch l).lastUse = s.lastUse := rfl
@[simp] theorem setLaunch_waking (l : Launch) : (s.setLaunch l).waking = s.waking := rfl

/-! ### setOp -/

@[simp] theorem setOp_agenda (o : EngOp) : (s.setOp o).agenda = s.agenda := rfl
@[simp] theorem setOp_turn (o : EngOp) : (s.setOp o).turn = s.turn := rfl
@[simp] theorem setOp_fresh (o : EngOp) : (s.setOp o).fresh = s.fresh := rfl
@[simp] theorem setOp_cur (o : EngOp) : (s.setOp o).cur = s.cur := rfl
@[simp] theorem setOp_slot (o : EngOp) : (s.setOp o).slot = s.slot := rfl
@[simp] theorem setOp_upsets (o : EngOp) : (s.setOp o).upsets = s.upsets := rfl
@[simp] theorem setOp_outbox (o : EngOp) : (s.setOp o).outbox = s.outbox := rfl
@[simp] theorem setOp_nextId (o : EngOp) : (s.setOp o).nextId = s.nextId := rfl
@[simp] theorem setOp_cyc (o : EngOp) : (s.setOp o).cyc = s.cyc := rfl
@[simp] theorem setOp_now (o : EngOp) : (s.setOp o).now = s.now := rfl
@[simp] theorem setOp_mem (o : EngOp) : (s.setOp o).mem = s.mem := rfl
@[simp] theorem setOp_poison (o : EngOp) : (s.setOp o).poison = s.poison := rfl
@[simp] theorem setOp_sectors (o : EngOp) : (s.setOp o).sectors = s.sectors := rfl
@[simp] theorem setOp_rails (o : EngOp) : (s.setOp o).rails = s.rails := rfl
@[simp] theorem setOp_ctxs (o : EngOp) : (s.setOp o).ctxs = s.ctxs := rfl
@[simp] theorem setOp_wqs (o : EngOp) : (s.setOp o).wqs = s.wqs := rfl
@[simp] theorem setOp_launches (o : EngOp) : (s.setOp o).launches = s.launches := rfl
@[simp] theorem setOp_tasks (o : EngOp) : (s.setOp o).tasks = s.tasks := rfl
@[simp] theorem setOp_saves (o : EngOp) : (s.setOp o).saves = s.saves := rfl
@[simp] theorem setOp_turns (o : EngOp) : (s.setOp o).turns = s.turns := rfl
@[simp] theorem setOp_reserving (o : EngOp) : (s.setOp o).reserving = s.reserving := rfl
@[simp] theorem setOp_placeDue (o : EngOp) : (s.setOp o).placeDue = s.placeDue := rfl
@[simp] theorem setOp_dups (o : EngOp) : (s.setOp o).dups = s.dups := rfl
@[simp] theorem setOp_edgeTlb (o : EngOp) : (s.setOp o).edgeTlb = s.edgeTlb := rfl
@[simp] theorem setOp_linkWaits (o : EngOp) : (s.setOp o).linkWaits = s.linkWaits := rfl
@[simp] theorem setOp_recs (o : EngOp) : (s.setOp o).recs = s.recs := rfl
@[simp] theorem setOp_tokenSeq (o : EngOp) : (s.setOp o).tokenSeq = s.tokenSeq := rfl
@[simp] theorem setOp_regs (o : EngOp) : (s.setOp o).regs = s.regs := rfl
@[simp] theorem setOp_own (o : EngOp) : (s.setOp o).own = s.own := rfl
@[simp] theorem setOp_flash (o : EngOp) : (s.setOp o).flash = s.flash := rfl
@[simp] theorem setOp_boot (o : EngOp) : (s.setOp o).boot = s.boot := rfl
@[simp] theorem setOp_umber (o : EngOp) : (s.setOp o).umber = s.umber := rfl
@[simp] theorem setOp_asleep (o : EngOp) : (s.setOp o).asleep = s.asleep := rfl
@[simp] theorem setOp_lastUse (o : EngOp) : (s.setOp o).lastUse = s.lastUse := rfl
@[simp] theorem setOp_waking (o : EngOp) : (s.setOp o).waking = s.waking := rfl

/-! ### emit -/

@[simp] theorem emit_agenda (o : Out) : (s.emit o).agenda = s.agenda := rfl
@[simp] theorem emit_turn (o : Out) : (s.emit o).turn = s.turn := rfl
@[simp] theorem emit_fresh (o : Out) : (s.emit o).fresh = s.fresh := rfl
@[simp] theorem emit_cur (o : Out) : (s.emit o).cur = s.cur := rfl
@[simp] theorem emit_slot (o : Out) : (s.emit o).slot = s.slot := rfl
@[simp] theorem emit_upsets (o : Out) : (s.emit o).upsets = s.upsets := rfl
@[simp] theorem emit_nextId (o : Out) : (s.emit o).nextId = s.nextId := rfl
@[simp] theorem emit_cyc (o : Out) : (s.emit o).cyc = s.cyc := rfl
@[simp] theorem emit_now (o : Out) : (s.emit o).now = s.now := rfl
@[simp] theorem emit_mem (o : Out) : (s.emit o).mem = s.mem := rfl
@[simp] theorem emit_poison (o : Out) : (s.emit o).poison = s.poison := rfl
@[simp] theorem emit_sectors (o : Out) : (s.emit o).sectors = s.sectors := rfl
@[simp] theorem emit_rails (o : Out) : (s.emit o).rails = s.rails := rfl
@[simp] theorem emit_ctxs (o : Out) : (s.emit o).ctxs = s.ctxs := rfl
@[simp] theorem emit_wqs (o : Out) : (s.emit o).wqs = s.wqs := rfl
@[simp] theorem emit_launches (o : Out) : (s.emit o).launches = s.launches := rfl
@[simp] theorem emit_tasks (o : Out) : (s.emit o).tasks = s.tasks := rfl
@[simp] theorem emit_saves (o : Out) : (s.emit o).saves = s.saves := rfl
@[simp] theorem emit_turns (o : Out) : (s.emit o).turns = s.turns := rfl
@[simp] theorem emit_reserving (o : Out) : (s.emit o).reserving = s.reserving := rfl
@[simp] theorem emit_placeDue (o : Out) : (s.emit o).placeDue = s.placeDue := rfl
@[simp] theorem emit_ops (o : Out) : (s.emit o).ops = s.ops := rfl
@[simp] theorem emit_dups (o : Out) : (s.emit o).dups = s.dups := rfl
@[simp] theorem emit_edgeTlb (o : Out) : (s.emit o).edgeTlb = s.edgeTlb := rfl
@[simp] theorem emit_linkWaits (o : Out) : (s.emit o).linkWaits = s.linkWaits := rfl
@[simp] theorem emit_recs (o : Out) : (s.emit o).recs = s.recs := rfl
@[simp] theorem emit_tokenSeq (o : Out) : (s.emit o).tokenSeq = s.tokenSeq := rfl
@[simp] theorem emit_regs (o : Out) : (s.emit o).regs = s.regs := rfl
@[simp] theorem emit_own (o : Out) : (s.emit o).own = s.own := rfl
@[simp] theorem emit_flash (o : Out) : (s.emit o).flash = s.flash := rfl
@[simp] theorem emit_boot (o : Out) : (s.emit o).boot = s.boot := rfl
@[simp] theorem emit_umber (o : Out) : (s.emit o).umber = s.umber := rfl
@[simp] theorem emit_asleep (o : Out) : (s.emit o).asleep = s.asleep := rfl
@[simp] theorem emit_lastUse (o : Out) : (s.emit o).lastUse = s.lastUse := rfl
@[simp] theorem emit_waking (o : Out) : (s.emit o).waking = s.waking := rfl

/-! ### modThOf -/

@[simp] theorem modThOf_agenda (k : Nat) (f : Thread → Thread) : (s.modThOf k f).agenda = s.agenda := rfl
@[simp] theorem modThOf_turn (k : Nat) (f : Thread → Thread) : (s.modThOf k f).turn = s.turn := rfl
@[simp] theorem modThOf_fresh (k : Nat) (f : Thread → Thread) : (s.modThOf k f).fresh = s.fresh := rfl
@[simp] theorem modThOf_cur (k : Nat) (f : Thread → Thread) : (s.modThOf k f).cur = s.cur := rfl
@[simp] theorem modThOf_slot (k : Nat) (f : Thread → Thread) : (s.modThOf k f).slot = s.slot := rfl
@[simp] theorem modThOf_upsets (k : Nat) (f : Thread → Thread) : (s.modThOf k f).upsets = s.upsets := rfl
@[simp] theorem modThOf_outbox (k : Nat) (f : Thread → Thread) : (s.modThOf k f).outbox = s.outbox := rfl
@[simp] theorem modThOf_nextId (k : Nat) (f : Thread → Thread) : (s.modThOf k f).nextId = s.nextId := rfl
@[simp] theorem modThOf_cyc (k : Nat) (f : Thread → Thread) : (s.modThOf k f).cyc = s.cyc := rfl
@[simp] theorem modThOf_now (k : Nat) (f : Thread → Thread) : (s.modThOf k f).now = s.now := rfl
@[simp] theorem modThOf_mem (k : Nat) (f : Thread → Thread) : (s.modThOf k f).mem = s.mem := rfl
@[simp] theorem modThOf_poison (k : Nat) (f : Thread → Thread) : (s.modThOf k f).poison = s.poison := rfl
@[simp] theorem modThOf_rails (k : Nat) (f : Thread → Thread) : (s.modThOf k f).rails = s.rails := rfl
@[simp] theorem modThOf_ctxs (k : Nat) (f : Thread → Thread) : (s.modThOf k f).ctxs = s.ctxs := rfl
@[simp] theorem modThOf_wqs (k : Nat) (f : Thread → Thread) : (s.modThOf k f).wqs = s.wqs := rfl
@[simp] theorem modThOf_launches (k : Nat) (f : Thread → Thread) : (s.modThOf k f).launches = s.launches := rfl
@[simp] theorem modThOf_tasks (k : Nat) (f : Thread → Thread) : (s.modThOf k f).tasks = s.tasks := rfl
@[simp] theorem modThOf_saves (k : Nat) (f : Thread → Thread) : (s.modThOf k f).saves = s.saves := rfl
@[simp] theorem modThOf_turns (k : Nat) (f : Thread → Thread) : (s.modThOf k f).turns = s.turns := rfl
@[simp] theorem modThOf_reserving (k : Nat) (f : Thread → Thread) : (s.modThOf k f).reserving = s.reserving := rfl
@[simp] theorem modThOf_placeDue (k : Nat) (f : Thread → Thread) : (s.modThOf k f).placeDue = s.placeDue := rfl
@[simp] theorem modThOf_ops (k : Nat) (f : Thread → Thread) : (s.modThOf k f).ops = s.ops := rfl
@[simp] theorem modThOf_dups (k : Nat) (f : Thread → Thread) : (s.modThOf k f).dups = s.dups := rfl
@[simp] theorem modThOf_edgeTlb (k : Nat) (f : Thread → Thread) : (s.modThOf k f).edgeTlb = s.edgeTlb := rfl
@[simp] theorem modThOf_linkWaits (k : Nat) (f : Thread → Thread) : (s.modThOf k f).linkWaits = s.linkWaits := rfl
@[simp] theorem modThOf_recs (k : Nat) (f : Thread → Thread) : (s.modThOf k f).recs = s.recs := rfl
@[simp] theorem modThOf_tokenSeq (k : Nat) (f : Thread → Thread) : (s.modThOf k f).tokenSeq = s.tokenSeq := rfl
@[simp] theorem modThOf_regs (k : Nat) (f : Thread → Thread) : (s.modThOf k f).regs = s.regs := rfl
@[simp] theorem modThOf_own (k : Nat) (f : Thread → Thread) : (s.modThOf k f).own = s.own := rfl
@[simp] theorem modThOf_flash (k : Nat) (f : Thread → Thread) : (s.modThOf k f).flash = s.flash := rfl
@[simp] theorem modThOf_boot (k : Nat) (f : Thread → Thread) : (s.modThOf k f).boot = s.boot := rfl
@[simp] theorem modThOf_umber (k : Nat) (f : Thread → Thread) : (s.modThOf k f).umber = s.umber := rfl
@[simp] theorem modThOf_asleep (k : Nat) (f : Thread → Thread) : (s.modThOf k f).asleep = s.asleep := rfl
@[simp] theorem modThOf_lastUse (k : Nat) (f : Thread → Thread) : (s.modThOf k f).lastUse = s.lastUse := rfl
@[simp] theorem modThOf_waking (k : Nat) (f : Thread → Thread) : (s.modThOf k f).waking = s.waking := rfl

/-! ### modTh -/

@[simp] theorem modTh_agenda (f : Thread → Thread) : (s.modTh f).agenda = s.agenda := rfl
@[simp] theorem modTh_turn (f : Thread → Thread) : (s.modTh f).turn = s.turn := rfl
@[simp] theorem modTh_fresh (f : Thread → Thread) : (s.modTh f).fresh = s.fresh := rfl
@[simp] theorem modTh_cur (f : Thread → Thread) : (s.modTh f).cur = s.cur := rfl
@[simp] theorem modTh_slot (f : Thread → Thread) : (s.modTh f).slot = s.slot := rfl
@[simp] theorem modTh_upsets (f : Thread → Thread) : (s.modTh f).upsets = s.upsets := rfl
@[simp] theorem modTh_outbox (f : Thread → Thread) : (s.modTh f).outbox = s.outbox := rfl
@[simp] theorem modTh_nextId (f : Thread → Thread) : (s.modTh f).nextId = s.nextId := rfl
@[simp] theorem modTh_cyc (f : Thread → Thread) : (s.modTh f).cyc = s.cyc := rfl
@[simp] theorem modTh_now (f : Thread → Thread) : (s.modTh f).now = s.now := rfl
@[simp] theorem modTh_mem (f : Thread → Thread) : (s.modTh f).mem = s.mem := rfl
@[simp] theorem modTh_poison (f : Thread → Thread) : (s.modTh f).poison = s.poison := rfl
@[simp] theorem modTh_rails (f : Thread → Thread) : (s.modTh f).rails = s.rails := rfl
@[simp] theorem modTh_ctxs (f : Thread → Thread) : (s.modTh f).ctxs = s.ctxs := rfl
@[simp] theorem modTh_wqs (f : Thread → Thread) : (s.modTh f).wqs = s.wqs := rfl
@[simp] theorem modTh_launches (f : Thread → Thread) : (s.modTh f).launches = s.launches := rfl
@[simp] theorem modTh_tasks (f : Thread → Thread) : (s.modTh f).tasks = s.tasks := rfl
@[simp] theorem modTh_saves (f : Thread → Thread) : (s.modTh f).saves = s.saves := rfl
@[simp] theorem modTh_turns (f : Thread → Thread) : (s.modTh f).turns = s.turns := rfl
@[simp] theorem modTh_reserving (f : Thread → Thread) : (s.modTh f).reserving = s.reserving := rfl
@[simp] theorem modTh_placeDue (f : Thread → Thread) : (s.modTh f).placeDue = s.placeDue := rfl
@[simp] theorem modTh_ops (f : Thread → Thread) : (s.modTh f).ops = s.ops := rfl
@[simp] theorem modTh_dups (f : Thread → Thread) : (s.modTh f).dups = s.dups := rfl
@[simp] theorem modTh_edgeTlb (f : Thread → Thread) : (s.modTh f).edgeTlb = s.edgeTlb := rfl
@[simp] theorem modTh_linkWaits (f : Thread → Thread) : (s.modTh f).linkWaits = s.linkWaits := rfl
@[simp] theorem modTh_recs (f : Thread → Thread) : (s.modTh f).recs = s.recs := rfl
@[simp] theorem modTh_tokenSeq (f : Thread → Thread) : (s.modTh f).tokenSeq = s.tokenSeq := rfl
@[simp] theorem modTh_regs (f : Thread → Thread) : (s.modTh f).regs = s.regs := rfl
@[simp] theorem modTh_own (f : Thread → Thread) : (s.modTh f).own = s.own := rfl
@[simp] theorem modTh_flash (f : Thread → Thread) : (s.modTh f).flash = s.flash := rfl
@[simp] theorem modTh_boot (f : Thread → Thread) : (s.modTh f).boot = s.boot := rfl
@[simp] theorem modTh_umber (f : Thread → Thread) : (s.modTh f).umber = s.umber := rfl
@[simp] theorem modTh_asleep (f : Thread → Thread) : (s.modTh f).asleep = s.asleep := rfl
@[simp] theorem modTh_lastUse (f : Thread → Thread) : (s.modTh f).lastUse = s.lastUse := rfl
@[simp] theorem modTh_waking (f : Thread → Thread) : (s.modTh f).waking = s.waking := rfl

/-! ### wrS -/

@[simp] theorem wrS_agenda (r : Reg) (v : Word) : (s.wrS r v).agenda = s.agenda := rfl
@[simp] theorem wrS_turn (r : Reg) (v : Word) : (s.wrS r v).turn = s.turn := rfl
@[simp] theorem wrS_fresh (r : Reg) (v : Word) : (s.wrS r v).fresh = s.fresh := rfl
@[simp] theorem wrS_cur (r : Reg) (v : Word) : (s.wrS r v).cur = s.cur := rfl
@[simp] theorem wrS_slot (r : Reg) (v : Word) : (s.wrS r v).slot = s.slot := rfl
@[simp] theorem wrS_upsets (r : Reg) (v : Word) : (s.wrS r v).upsets = s.upsets := rfl
@[simp] theorem wrS_outbox (r : Reg) (v : Word) : (s.wrS r v).outbox = s.outbox := rfl
@[simp] theorem wrS_nextId (r : Reg) (v : Word) : (s.wrS r v).nextId = s.nextId := rfl
@[simp] theorem wrS_cyc (r : Reg) (v : Word) : (s.wrS r v).cyc = s.cyc := rfl
@[simp] theorem wrS_now (r : Reg) (v : Word) : (s.wrS r v).now = s.now := rfl
@[simp] theorem wrS_mem (r : Reg) (v : Word) : (s.wrS r v).mem = s.mem := rfl
@[simp] theorem wrS_poison (r : Reg) (v : Word) : (s.wrS r v).poison = s.poison := rfl
@[simp] theorem wrS_rails (r : Reg) (v : Word) : (s.wrS r v).rails = s.rails := rfl
@[simp] theorem wrS_ctxs (r : Reg) (v : Word) : (s.wrS r v).ctxs = s.ctxs := rfl
@[simp] theorem wrS_wqs (r : Reg) (v : Word) : (s.wrS r v).wqs = s.wqs := rfl
@[simp] theorem wrS_launches (r : Reg) (v : Word) : (s.wrS r v).launches = s.launches := rfl
@[simp] theorem wrS_tasks (r : Reg) (v : Word) : (s.wrS r v).tasks = s.tasks := rfl
@[simp] theorem wrS_saves (r : Reg) (v : Word) : (s.wrS r v).saves = s.saves := rfl
@[simp] theorem wrS_turns (r : Reg) (v : Word) : (s.wrS r v).turns = s.turns := rfl
@[simp] theorem wrS_reserving (r : Reg) (v : Word) : (s.wrS r v).reserving = s.reserving := rfl
@[simp] theorem wrS_placeDue (r : Reg) (v : Word) : (s.wrS r v).placeDue = s.placeDue := rfl
@[simp] theorem wrS_ops (r : Reg) (v : Word) : (s.wrS r v).ops = s.ops := rfl
@[simp] theorem wrS_dups (r : Reg) (v : Word) : (s.wrS r v).dups = s.dups := rfl
@[simp] theorem wrS_edgeTlb (r : Reg) (v : Word) : (s.wrS r v).edgeTlb = s.edgeTlb := rfl
@[simp] theorem wrS_linkWaits (r : Reg) (v : Word) : (s.wrS r v).linkWaits = s.linkWaits := rfl
@[simp] theorem wrS_recs (r : Reg) (v : Word) : (s.wrS r v).recs = s.recs := rfl
@[simp] theorem wrS_tokenSeq (r : Reg) (v : Word) : (s.wrS r v).tokenSeq = s.tokenSeq := rfl
@[simp] theorem wrS_regs (r : Reg) (v : Word) : (s.wrS r v).regs = s.regs := rfl
@[simp] theorem wrS_own (r : Reg) (v : Word) : (s.wrS r v).own = s.own := rfl
@[simp] theorem wrS_flash (r : Reg) (v : Word) : (s.wrS r v).flash = s.flash := rfl
@[simp] theorem wrS_boot (r : Reg) (v : Word) : (s.wrS r v).boot = s.boot := rfl
@[simp] theorem wrS_umber (r : Reg) (v : Word) : (s.wrS r v).umber = s.umber := rfl
@[simp] theorem wrS_asleep (r : Reg) (v : Word) : (s.wrS r v).asleep = s.asleep := rfl
@[simp] theorem wrS_lastUse (r : Reg) (v : Word) : (s.wrS r v).lastUse = s.lastUse := rfl
@[simp] theorem wrS_waking (r : Reg) (v : Word) : (s.wrS r v).waking = s.waking := rfl

/-! ### wrP -/

@[simp] theorem wrP_agenda (p : PReg) (b : Bool) : (s.wrP p b).agenda = s.agenda := rfl
@[simp] theorem wrP_turn (p : PReg) (b : Bool) : (s.wrP p b).turn = s.turn := rfl
@[simp] theorem wrP_fresh (p : PReg) (b : Bool) : (s.wrP p b).fresh = s.fresh := rfl
@[simp] theorem wrP_cur (p : PReg) (b : Bool) : (s.wrP p b).cur = s.cur := rfl
@[simp] theorem wrP_slot (p : PReg) (b : Bool) : (s.wrP p b).slot = s.slot := rfl
@[simp] theorem wrP_upsets (p : PReg) (b : Bool) : (s.wrP p b).upsets = s.upsets := rfl
@[simp] theorem wrP_outbox (p : PReg) (b : Bool) : (s.wrP p b).outbox = s.outbox := rfl
@[simp] theorem wrP_nextId (p : PReg) (b : Bool) : (s.wrP p b).nextId = s.nextId := rfl
@[simp] theorem wrP_cyc (p : PReg) (b : Bool) : (s.wrP p b).cyc = s.cyc := rfl
@[simp] theorem wrP_now (p : PReg) (b : Bool) : (s.wrP p b).now = s.now := rfl
@[simp] theorem wrP_mem (p : PReg) (b : Bool) : (s.wrP p b).mem = s.mem := rfl
@[simp] theorem wrP_poison (p : PReg) (b : Bool) : (s.wrP p b).poison = s.poison := rfl
@[simp] theorem wrP_rails (p : PReg) (b : Bool) : (s.wrP p b).rails = s.rails := rfl
@[simp] theorem wrP_ctxs (p : PReg) (b : Bool) : (s.wrP p b).ctxs = s.ctxs := rfl
@[simp] theorem wrP_wqs (p : PReg) (b : Bool) : (s.wrP p b).wqs = s.wqs := rfl
@[simp] theorem wrP_launches (p : PReg) (b : Bool) : (s.wrP p b).launches = s.launches := rfl
@[simp] theorem wrP_tasks (p : PReg) (b : Bool) : (s.wrP p b).tasks = s.tasks := rfl
@[simp] theorem wrP_saves (p : PReg) (b : Bool) : (s.wrP p b).saves = s.saves := rfl
@[simp] theorem wrP_turns (p : PReg) (b : Bool) : (s.wrP p b).turns = s.turns := rfl
@[simp] theorem wrP_reserving (p : PReg) (b : Bool) : (s.wrP p b).reserving = s.reserving := rfl
@[simp] theorem wrP_placeDue (p : PReg) (b : Bool) : (s.wrP p b).placeDue = s.placeDue := rfl
@[simp] theorem wrP_ops (p : PReg) (b : Bool) : (s.wrP p b).ops = s.ops := rfl
@[simp] theorem wrP_dups (p : PReg) (b : Bool) : (s.wrP p b).dups = s.dups := rfl
@[simp] theorem wrP_edgeTlb (p : PReg) (b : Bool) : (s.wrP p b).edgeTlb = s.edgeTlb := rfl
@[simp] theorem wrP_linkWaits (p : PReg) (b : Bool) : (s.wrP p b).linkWaits = s.linkWaits := rfl
@[simp] theorem wrP_recs (p : PReg) (b : Bool) : (s.wrP p b).recs = s.recs := rfl
@[simp] theorem wrP_tokenSeq (p : PReg) (b : Bool) : (s.wrP p b).tokenSeq = s.tokenSeq := rfl
@[simp] theorem wrP_regs (p : PReg) (b : Bool) : (s.wrP p b).regs = s.regs := rfl
@[simp] theorem wrP_own (p : PReg) (b : Bool) : (s.wrP p b).own = s.own := rfl
@[simp] theorem wrP_flash (p : PReg) (b : Bool) : (s.wrP p b).flash = s.flash := rfl
@[simp] theorem wrP_boot (p : PReg) (b : Bool) : (s.wrP p b).boot = s.boot := rfl
@[simp] theorem wrP_umber (p : PReg) (b : Bool) : (s.wrP p b).umber = s.umber := rfl
@[simp] theorem wrP_asleep (p : PReg) (b : Bool) : (s.wrP p b).asleep = s.asleep := rfl
@[simp] theorem wrP_lastUse (p : PReg) (b : Bool) : (s.wrP p b).lastUse = s.lastUse := rfl
@[simp] theorem wrP_waking (p : PReg) (b : Bool) : (s.wrP p b).waking = s.waking := rfl

/-! ### wrD -/

@[simp] theorem wrD_agenda (d : DReg) (v : Desc) : (s.wrD d v).agenda = s.agenda := rfl
@[simp] theorem wrD_turn (d : DReg) (v : Desc) : (s.wrD d v).turn = s.turn := rfl
@[simp] theorem wrD_fresh (d : DReg) (v : Desc) : (s.wrD d v).fresh = s.fresh := rfl
@[simp] theorem wrD_cur (d : DReg) (v : Desc) : (s.wrD d v).cur = s.cur := rfl
@[simp] theorem wrD_slot (d : DReg) (v : Desc) : (s.wrD d v).slot = s.slot := rfl
@[simp] theorem wrD_upsets (d : DReg) (v : Desc) : (s.wrD d v).upsets = s.upsets := rfl
@[simp] theorem wrD_outbox (d : DReg) (v : Desc) : (s.wrD d v).outbox = s.outbox := rfl
@[simp] theorem wrD_nextId (d : DReg) (v : Desc) : (s.wrD d v).nextId = s.nextId := rfl
@[simp] theorem wrD_cyc (d : DReg) (v : Desc) : (s.wrD d v).cyc = s.cyc := rfl
@[simp] theorem wrD_now (d : DReg) (v : Desc) : (s.wrD d v).now = s.now := rfl
@[simp] theorem wrD_mem (d : DReg) (v : Desc) : (s.wrD d v).mem = s.mem := rfl
@[simp] theorem wrD_poison (d : DReg) (v : Desc) : (s.wrD d v).poison = s.poison := rfl
@[simp] theorem wrD_rails (d : DReg) (v : Desc) : (s.wrD d v).rails = s.rails := rfl
@[simp] theorem wrD_ctxs (d : DReg) (v : Desc) : (s.wrD d v).ctxs = s.ctxs := rfl
@[simp] theorem wrD_wqs (d : DReg) (v : Desc) : (s.wrD d v).wqs = s.wqs := rfl
@[simp] theorem wrD_launches (d : DReg) (v : Desc) : (s.wrD d v).launches = s.launches := rfl
@[simp] theorem wrD_tasks (d : DReg) (v : Desc) : (s.wrD d v).tasks = s.tasks := rfl
@[simp] theorem wrD_saves (d : DReg) (v : Desc) : (s.wrD d v).saves = s.saves := rfl
@[simp] theorem wrD_turns (d : DReg) (v : Desc) : (s.wrD d v).turns = s.turns := rfl
@[simp] theorem wrD_reserving (d : DReg) (v : Desc) : (s.wrD d v).reserving = s.reserving := rfl
@[simp] theorem wrD_placeDue (d : DReg) (v : Desc) : (s.wrD d v).placeDue = s.placeDue := rfl
@[simp] theorem wrD_ops (d : DReg) (v : Desc) : (s.wrD d v).ops = s.ops := rfl
@[simp] theorem wrD_dups (d : DReg) (v : Desc) : (s.wrD d v).dups = s.dups := rfl
@[simp] theorem wrD_edgeTlb (d : DReg) (v : Desc) : (s.wrD d v).edgeTlb = s.edgeTlb := rfl
@[simp] theorem wrD_linkWaits (d : DReg) (v : Desc) : (s.wrD d v).linkWaits = s.linkWaits := rfl
@[simp] theorem wrD_recs (d : DReg) (v : Desc) : (s.wrD d v).recs = s.recs := rfl
@[simp] theorem wrD_tokenSeq (d : DReg) (v : Desc) : (s.wrD d v).tokenSeq = s.tokenSeq := rfl
@[simp] theorem wrD_regs (d : DReg) (v : Desc) : (s.wrD d v).regs = s.regs := rfl
@[simp] theorem wrD_own (d : DReg) (v : Desc) : (s.wrD d v).own = s.own := rfl
@[simp] theorem wrD_flash (d : DReg) (v : Desc) : (s.wrD d v).flash = s.flash := rfl
@[simp] theorem wrD_boot (d : DReg) (v : Desc) : (s.wrD d v).boot = s.boot := rfl
@[simp] theorem wrD_umber (d : DReg) (v : Desc) : (s.wrD d v).umber = s.umber := rfl
@[simp] theorem wrD_asleep (d : DReg) (v : Desc) : (s.wrD d v).asleep = s.asleep := rfl
@[simp] theorem wrD_lastUse (d : DReg) (v : Desc) : (s.wrD d v).lastUse = s.lastUse := rfl
@[simp] theorem wrD_waking (d : DReg) (v : Desc) : (s.wrD d v).waking = s.waking := rfl

/-! ### setPc -/

@[simp] theorem setPc_agenda (v : Word) : (s.setPc v).agenda = s.agenda := rfl
@[simp] theorem setPc_turn (v : Word) : (s.setPc v).turn = s.turn := rfl
@[simp] theorem setPc_fresh (v : Word) : (s.setPc v).fresh = s.fresh := rfl
@[simp] theorem setPc_cur (v : Word) : (s.setPc v).cur = s.cur := rfl
@[simp] theorem setPc_slot (v : Word) : (s.setPc v).slot = s.slot := rfl
@[simp] theorem setPc_upsets (v : Word) : (s.setPc v).upsets = s.upsets := rfl
@[simp] theorem setPc_outbox (v : Word) : (s.setPc v).outbox = s.outbox := rfl
@[simp] theorem setPc_nextId (v : Word) : (s.setPc v).nextId = s.nextId := rfl
@[simp] theorem setPc_cyc (v : Word) : (s.setPc v).cyc = s.cyc := rfl
@[simp] theorem setPc_now (v : Word) : (s.setPc v).now = s.now := rfl
@[simp] theorem setPc_mem (v : Word) : (s.setPc v).mem = s.mem := rfl
@[simp] theorem setPc_poison (v : Word) : (s.setPc v).poison = s.poison := rfl
@[simp] theorem setPc_rails (v : Word) : (s.setPc v).rails = s.rails := rfl
@[simp] theorem setPc_ctxs (v : Word) : (s.setPc v).ctxs = s.ctxs := rfl
@[simp] theorem setPc_wqs (v : Word) : (s.setPc v).wqs = s.wqs := rfl
@[simp] theorem setPc_launches (v : Word) : (s.setPc v).launches = s.launches := rfl
@[simp] theorem setPc_tasks (v : Word) : (s.setPc v).tasks = s.tasks := rfl
@[simp] theorem setPc_saves (v : Word) : (s.setPc v).saves = s.saves := rfl
@[simp] theorem setPc_turns (v : Word) : (s.setPc v).turns = s.turns := rfl
@[simp] theorem setPc_reserving (v : Word) : (s.setPc v).reserving = s.reserving := rfl
@[simp] theorem setPc_placeDue (v : Word) : (s.setPc v).placeDue = s.placeDue := rfl
@[simp] theorem setPc_ops (v : Word) : (s.setPc v).ops = s.ops := rfl
@[simp] theorem setPc_dups (v : Word) : (s.setPc v).dups = s.dups := rfl
@[simp] theorem setPc_edgeTlb (v : Word) : (s.setPc v).edgeTlb = s.edgeTlb := rfl
@[simp] theorem setPc_linkWaits (v : Word) : (s.setPc v).linkWaits = s.linkWaits := rfl
@[simp] theorem setPc_recs (v : Word) : (s.setPc v).recs = s.recs := rfl
@[simp] theorem setPc_tokenSeq (v : Word) : (s.setPc v).tokenSeq = s.tokenSeq := rfl
@[simp] theorem setPc_regs (v : Word) : (s.setPc v).regs = s.regs := rfl
@[simp] theorem setPc_own (v : Word) : (s.setPc v).own = s.own := rfl
@[simp] theorem setPc_flash (v : Word) : (s.setPc v).flash = s.flash := rfl
@[simp] theorem setPc_boot (v : Word) : (s.setPc v).boot = s.boot := rfl
@[simp] theorem setPc_umber (v : Word) : (s.setPc v).umber = s.umber := rfl
@[simp] theorem setPc_asleep (v : Word) : (s.setPc v).asleep = s.asleep := rfl
@[simp] theorem setPc_lastUse (v : Word) : (s.setPc v).lastUse = s.lastUse := rfl
@[simp] theorem setPc_waking (v : Word) : (s.setPc v).waking = s.waking := rfl

/-! ### advance -/

@[simp] theorem advance_agenda : (s.advance).agenda = s.agenda := rfl
@[simp] theorem advance_turn : (s.advance).turn = s.turn := rfl
@[simp] theorem advance_fresh : (s.advance).fresh = s.fresh := rfl
@[simp] theorem advance_cur : (s.advance).cur = s.cur := rfl
@[simp] theorem advance_slot : (s.advance).slot = s.slot := rfl
@[simp] theorem advance_upsets : (s.advance).upsets = s.upsets := rfl
@[simp] theorem advance_outbox : (s.advance).outbox = s.outbox := rfl
@[simp] theorem advance_nextId : (s.advance).nextId = s.nextId := rfl
@[simp] theorem advance_cyc : (s.advance).cyc = s.cyc := rfl
@[simp] theorem advance_now : (s.advance).now = s.now := rfl
@[simp] theorem advance_mem : (s.advance).mem = s.mem := rfl
@[simp] theorem advance_poison : (s.advance).poison = s.poison := rfl
@[simp] theorem advance_rails : (s.advance).rails = s.rails := rfl
@[simp] theorem advance_ctxs : (s.advance).ctxs = s.ctxs := rfl
@[simp] theorem advance_wqs : (s.advance).wqs = s.wqs := rfl
@[simp] theorem advance_launches : (s.advance).launches = s.launches := rfl
@[simp] theorem advance_tasks : (s.advance).tasks = s.tasks := rfl
@[simp] theorem advance_saves : (s.advance).saves = s.saves := rfl
@[simp] theorem advance_turns : (s.advance).turns = s.turns := rfl
@[simp] theorem advance_reserving : (s.advance).reserving = s.reserving := rfl
@[simp] theorem advance_placeDue : (s.advance).placeDue = s.placeDue := rfl
@[simp] theorem advance_ops : (s.advance).ops = s.ops := rfl
@[simp] theorem advance_dups : (s.advance).dups = s.dups := rfl
@[simp] theorem advance_edgeTlb : (s.advance).edgeTlb = s.edgeTlb := rfl
@[simp] theorem advance_linkWaits : (s.advance).linkWaits = s.linkWaits := rfl
@[simp] theorem advance_recs : (s.advance).recs = s.recs := rfl
@[simp] theorem advance_tokenSeq : (s.advance).tokenSeq = s.tokenSeq := rfl
@[simp] theorem advance_regs : (s.advance).regs = s.regs := rfl
@[simp] theorem advance_own : (s.advance).own = s.own := rfl
@[simp] theorem advance_flash : (s.advance).flash = s.flash := rfl
@[simp] theorem advance_boot : (s.advance).boot = s.boot := rfl
@[simp] theorem advance_umber : (s.advance).umber = s.umber := rfl
@[simp] theorem advance_asleep : (s.advance).asleep = s.asleep := rfl
@[simp] theorem advance_lastUse : (s.advance).lastUse = s.lastUse := rfl
@[simp] theorem advance_waking : (s.advance).waking = s.waking := rfl

/-! ### setWait -/

@[simp] theorem setWait_agenda (w : Wait) : (s.setWait w).agenda = s.agenda := rfl
@[simp] theorem setWait_turn (w : Wait) : (s.setWait w).turn = s.turn := rfl
@[simp] theorem setWait_fresh (w : Wait) : (s.setWait w).fresh = s.fresh := rfl
@[simp] theorem setWait_cur (w : Wait) : (s.setWait w).cur = s.cur := rfl
@[simp] theorem setWait_slot (w : Wait) : (s.setWait w).slot = s.slot := rfl
@[simp] theorem setWait_upsets (w : Wait) : (s.setWait w).upsets = s.upsets := rfl
@[simp] theorem setWait_outbox (w : Wait) : (s.setWait w).outbox = s.outbox := rfl
@[simp] theorem setWait_nextId (w : Wait) : (s.setWait w).nextId = s.nextId := rfl
@[simp] theorem setWait_cyc (w : Wait) : (s.setWait w).cyc = s.cyc := rfl
@[simp] theorem setWait_now (w : Wait) : (s.setWait w).now = s.now := rfl
@[simp] theorem setWait_mem (w : Wait) : (s.setWait w).mem = s.mem := rfl
@[simp] theorem setWait_poison (w : Wait) : (s.setWait w).poison = s.poison := rfl
@[simp] theorem setWait_rails (w : Wait) : (s.setWait w).rails = s.rails := rfl
@[simp] theorem setWait_ctxs (w : Wait) : (s.setWait w).ctxs = s.ctxs := rfl
@[simp] theorem setWait_wqs (w : Wait) : (s.setWait w).wqs = s.wqs := rfl
@[simp] theorem setWait_launches (w : Wait) : (s.setWait w).launches = s.launches := rfl
@[simp] theorem setWait_tasks (w : Wait) : (s.setWait w).tasks = s.tasks := rfl
@[simp] theorem setWait_saves (w : Wait) : (s.setWait w).saves = s.saves := rfl
@[simp] theorem setWait_turns (w : Wait) : (s.setWait w).turns = s.turns := rfl
@[simp] theorem setWait_reserving (w : Wait) : (s.setWait w).reserving = s.reserving := rfl
@[simp] theorem setWait_placeDue (w : Wait) : (s.setWait w).placeDue = s.placeDue := rfl
@[simp] theorem setWait_ops (w : Wait) : (s.setWait w).ops = s.ops := rfl
@[simp] theorem setWait_dups (w : Wait) : (s.setWait w).dups = s.dups := rfl
@[simp] theorem setWait_edgeTlb (w : Wait) : (s.setWait w).edgeTlb = s.edgeTlb := rfl
@[simp] theorem setWait_linkWaits (w : Wait) : (s.setWait w).linkWaits = s.linkWaits := rfl
@[simp] theorem setWait_recs (w : Wait) : (s.setWait w).recs = s.recs := rfl
@[simp] theorem setWait_tokenSeq (w : Wait) : (s.setWait w).tokenSeq = s.tokenSeq := rfl
@[simp] theorem setWait_regs (w : Wait) : (s.setWait w).regs = s.regs := rfl
@[simp] theorem setWait_own (w : Wait) : (s.setWait w).own = s.own := rfl
@[simp] theorem setWait_flash (w : Wait) : (s.setWait w).flash = s.flash := rfl
@[simp] theorem setWait_boot (w : Wait) : (s.setWait w).boot = s.boot := rfl
@[simp] theorem setWait_umber (w : Wait) : (s.setWait w).umber = s.umber := rfl
@[simp] theorem setWait_asleep (w : Wait) : (s.setWait w).asleep = s.asleep := rfl
@[simp] theorem setWait_lastUse (w : Wait) : (s.setWait w).lastUse = s.lastUse := rfl
@[simp] theorem setWait_waking (w : Wait) : (s.setWait w).waking = s.waking := rfl

/-! ### Runs of bytes -/

@[simp] theorem wrBytes_agenda (a : Nat) (l : List Byte) : (s.wrBytes a l).agenda = s.agenda := by
  induction l generalizing s a with
  | nil => rfl
  | cons b l ih => exact ih _ _
@[simp] theorem wrBytes_turn (a : Nat) (l : List Byte) : (s.wrBytes a l).turn = s.turn := by
  induction l generalizing s a with
  | nil => rfl
  | cons b l ih => exact ih _ _
@[simp] theorem wrBytes_fresh (a : Nat) (l : List Byte) : (s.wrBytes a l).fresh = s.fresh := by
  induction l generalizing s a with
  | nil => rfl
  | cons b l ih => exact ih _ _
@[simp] theorem wrBytes_cur (a : Nat) (l : List Byte) : (s.wrBytes a l).cur = s.cur := by
  induction l generalizing s a with
  | nil => rfl
  | cons b l ih => exact ih _ _
@[simp] theorem wrBytes_slot (a : Nat) (l : List Byte) : (s.wrBytes a l).slot = s.slot := by
  induction l generalizing s a with
  | nil => rfl
  | cons b l ih => exact ih _ _
@[simp] theorem wrBytes_upsets (a : Nat) (l : List Byte) : (s.wrBytes a l).upsets = s.upsets := by
  induction l generalizing s a with
  | nil => rfl
  | cons b l ih => exact ih _ _
@[simp] theorem wrBytes_outbox (a : Nat) (l : List Byte) : (s.wrBytes a l).outbox = s.outbox := by
  induction l generalizing s a with
  | nil => rfl
  | cons b l ih => exact ih _ _
@[simp] theorem wrBytes_nextId (a : Nat) (l : List Byte) : (s.wrBytes a l).nextId = s.nextId := by
  induction l generalizing s a with
  | nil => rfl
  | cons b l ih => exact ih _ _
@[simp] theorem wrBytes_cyc (a : Nat) (l : List Byte) : (s.wrBytes a l).cyc = s.cyc := by
  induction l generalizing s a with
  | nil => rfl
  | cons b l ih => exact ih _ _
@[simp] theorem wrBytes_now (a : Nat) (l : List Byte) : (s.wrBytes a l).now = s.now := by
  induction l generalizing s a with
  | nil => rfl
  | cons b l ih => exact ih _ _
@[simp] theorem wrBytes_poison (a : Nat) (l : List Byte) : (s.wrBytes a l).poison = s.poison := by
  induction l generalizing s a with
  | nil => rfl
  | cons b l ih => exact ih _ _
@[simp] theorem wrBytes_sectors (a : Nat) (l : List Byte) : (s.wrBytes a l).sectors = s.sectors := by
  induction l generalizing s a with
  | nil => rfl
  | cons b l ih => exact ih _ _
@[simp] theorem wrBytes_rails (a : Nat) (l : List Byte) : (s.wrBytes a l).rails = s.rails := by
  induction l generalizing s a with
  | nil => rfl
  | cons b l ih => exact ih _ _
@[simp] theorem wrBytes_ctxs (a : Nat) (l : List Byte) : (s.wrBytes a l).ctxs = s.ctxs := by
  induction l generalizing s a with
  | nil => rfl
  | cons b l ih => exact ih _ _
@[simp] theorem wrBytes_wqs (a : Nat) (l : List Byte) : (s.wrBytes a l).wqs = s.wqs := by
  induction l generalizing s a with
  | nil => rfl
  | cons b l ih => exact ih _ _
@[simp] theorem wrBytes_launches (a : Nat) (l : List Byte) : (s.wrBytes a l).launches = s.launches := by
  induction l generalizing s a with
  | nil => rfl
  | cons b l ih => exact ih _ _
@[simp] theorem wrBytes_tasks (a : Nat) (l : List Byte) : (s.wrBytes a l).tasks = s.tasks := by
  induction l generalizing s a with
  | nil => rfl
  | cons b l ih => exact ih _ _
@[simp] theorem wrBytes_saves (a : Nat) (l : List Byte) : (s.wrBytes a l).saves = s.saves := by
  induction l generalizing s a with
  | nil => rfl
  | cons b l ih => exact ih _ _
@[simp] theorem wrBytes_turns (a : Nat) (l : List Byte) : (s.wrBytes a l).turns = s.turns := by
  induction l generalizing s a with
  | nil => rfl
  | cons b l ih => exact ih _ _
@[simp] theorem wrBytes_reserving (a : Nat) (l : List Byte) : (s.wrBytes a l).reserving = s.reserving := by
  induction l generalizing s a with
  | nil => rfl
  | cons b l ih => exact ih _ _
@[simp] theorem wrBytes_placeDue (a : Nat) (l : List Byte) : (s.wrBytes a l).placeDue = s.placeDue := by
  induction l generalizing s a with
  | nil => rfl
  | cons b l ih => exact ih _ _
@[simp] theorem wrBytes_ops (a : Nat) (l : List Byte) : (s.wrBytes a l).ops = s.ops := by
  induction l generalizing s a with
  | nil => rfl
  | cons b l ih => exact ih _ _
@[simp] theorem wrBytes_dups (a : Nat) (l : List Byte) : (s.wrBytes a l).dups = s.dups := by
  induction l generalizing s a with
  | nil => rfl
  | cons b l ih => exact ih _ _
@[simp] theorem wrBytes_edgeTlb (a : Nat) (l : List Byte) : (s.wrBytes a l).edgeTlb = s.edgeTlb := by
  induction l generalizing s a with
  | nil => rfl
  | cons b l ih => exact ih _ _
@[simp] theorem wrBytes_linkWaits (a : Nat) (l : List Byte) : (s.wrBytes a l).linkWaits = s.linkWaits := by
  induction l generalizing s a with
  | nil => rfl
  | cons b l ih => exact ih _ _
@[simp] theorem wrBytes_recs (a : Nat) (l : List Byte) : (s.wrBytes a l).recs = s.recs := by
  induction l generalizing s a with
  | nil => rfl
  | cons b l ih => exact ih _ _
@[simp] theorem wrBytes_tokenSeq (a : Nat) (l : List Byte) : (s.wrBytes a l).tokenSeq = s.tokenSeq := by
  induction l generalizing s a with
  | nil => rfl
  | cons b l ih => exact ih _ _
@[simp] theorem wrBytes_regs (a : Nat) (l : List Byte) : (s.wrBytes a l).regs = s.regs := by
  induction l generalizing s a with
  | nil => rfl
  | cons b l ih => exact ih _ _
@[simp] theorem wrBytes_own (a : Nat) (l : List Byte) : (s.wrBytes a l).own = s.own := by
  induction l generalizing s a with
  | nil => rfl
  | cons b l ih => exact ih _ _
@[simp] theorem wrBytes_flash (a : Nat) (l : List Byte) : (s.wrBytes a l).flash = s.flash := by
  induction l generalizing s a with
  | nil => rfl
  | cons b l ih => exact ih _ _
@[simp] theorem wrBytes_boot (a : Nat) (l : List Byte) : (s.wrBytes a l).boot = s.boot := by
  induction l generalizing s a with
  | nil => rfl
  | cons b l ih => exact ih _ _
@[simp] theorem wrBytes_umber (a : Nat) (l : List Byte) : (s.wrBytes a l).umber = s.umber := by
  induction l generalizing s a with
  | nil => rfl
  | cons b l ih => exact ih _ _
@[simp] theorem wrBytes_asleep (a : Nat) (l : List Byte) : (s.wrBytes a l).asleep = s.asleep := by
  induction l generalizing s a with
  | nil => rfl
  | cons b l ih => exact ih _ _
@[simp] theorem wrBytes_lastUse (a : Nat) (l : List Byte) : (s.wrBytes a l).lastUse = s.lastUse := by
  induction l generalizing s a with
  | nil => rfl
  | cons b l ih => exact ih _ _
@[simp] theorem wrBytes_waking (a : Nat) (l : List Byte) : (s.wrBytes a l).waking = s.waking := by
  induction l generalizing s a with
  | nil => rfl
  | cons b l ih => exact ih _ _

@[simp] theorem store_agenda (a : Nat) (l : List Byte) : (s.store a l).agenda = s.agenda := wrBytes_agenda s a l
@[simp] theorem store_turn (a : Nat) (l : List Byte) : (s.store a l).turn = s.turn := wrBytes_turn s a l
@[simp] theorem store_fresh (a : Nat) (l : List Byte) : (s.store a l).fresh = s.fresh := wrBytes_fresh s a l
@[simp] theorem store_cur (a : Nat) (l : List Byte) : (s.store a l).cur = s.cur := wrBytes_cur s a l
@[simp] theorem store_slot (a : Nat) (l : List Byte) : (s.store a l).slot = s.slot := wrBytes_slot s a l
@[simp] theorem store_upsets (a : Nat) (l : List Byte) : (s.store a l).upsets = s.upsets := wrBytes_upsets s a l
@[simp] theorem store_outbox (a : Nat) (l : List Byte) : (s.store a l).outbox = s.outbox := wrBytes_outbox s a l
@[simp] theorem store_nextId (a : Nat) (l : List Byte) : (s.store a l).nextId = s.nextId := wrBytes_nextId s a l
@[simp] theorem store_cyc (a : Nat) (l : List Byte) : (s.store a l).cyc = s.cyc := wrBytes_cyc s a l
@[simp] theorem store_now (a : Nat) (l : List Byte) : (s.store a l).now = s.now := wrBytes_now s a l
@[simp] theorem store_sectors (a : Nat) (l : List Byte) : (s.store a l).sectors = s.sectors := wrBytes_sectors s a l
@[simp] theorem store_rails (a : Nat) (l : List Byte) : (s.store a l).rails = s.rails := wrBytes_rails s a l
@[simp] theorem store_ctxs (a : Nat) (l : List Byte) : (s.store a l).ctxs = s.ctxs := wrBytes_ctxs s a l
@[simp] theorem store_wqs (a : Nat) (l : List Byte) : (s.store a l).wqs = s.wqs := wrBytes_wqs s a l
@[simp] theorem store_launches (a : Nat) (l : List Byte) : (s.store a l).launches = s.launches := wrBytes_launches s a l
@[simp] theorem store_tasks (a : Nat) (l : List Byte) : (s.store a l).tasks = s.tasks := wrBytes_tasks s a l
@[simp] theorem store_saves (a : Nat) (l : List Byte) : (s.store a l).saves = s.saves := wrBytes_saves s a l
@[simp] theorem store_turns (a : Nat) (l : List Byte) : (s.store a l).turns = s.turns := wrBytes_turns s a l
@[simp] theorem store_reserving (a : Nat) (l : List Byte) : (s.store a l).reserving = s.reserving := wrBytes_reserving s a l
@[simp] theorem store_placeDue (a : Nat) (l : List Byte) : (s.store a l).placeDue = s.placeDue := wrBytes_placeDue s a l
@[simp] theorem store_ops (a : Nat) (l : List Byte) : (s.store a l).ops = s.ops := wrBytes_ops s a l
@[simp] theorem store_dups (a : Nat) (l : List Byte) : (s.store a l).dups = s.dups := wrBytes_dups s a l
@[simp] theorem store_edgeTlb (a : Nat) (l : List Byte) : (s.store a l).edgeTlb = s.edgeTlb := wrBytes_edgeTlb s a l
@[simp] theorem store_linkWaits (a : Nat) (l : List Byte) : (s.store a l).linkWaits = s.linkWaits := wrBytes_linkWaits s a l
@[simp] theorem store_recs (a : Nat) (l : List Byte) : (s.store a l).recs = s.recs := wrBytes_recs s a l
@[simp] theorem store_tokenSeq (a : Nat) (l : List Byte) : (s.store a l).tokenSeq = s.tokenSeq := wrBytes_tokenSeq s a l
@[simp] theorem store_regs (a : Nat) (l : List Byte) : (s.store a l).regs = s.regs := wrBytes_regs s a l
@[simp] theorem store_own (a : Nat) (l : List Byte) : (s.store a l).own = s.own := wrBytes_own s a l
@[simp] theorem store_flash (a : Nat) (l : List Byte) : (s.store a l).flash = s.flash := wrBytes_flash s a l
@[simp] theorem store_boot (a : Nat) (l : List Byte) : (s.store a l).boot = s.boot := wrBytes_boot s a l
@[simp] theorem store_umber (a : Nat) (l : List Byte) : (s.store a l).umber = s.umber := wrBytes_umber s a l
@[simp] theorem store_asleep (a : Nat) (l : List Byte) : (s.store a l).asleep = s.asleep := wrBytes_asleep s a l
@[simp] theorem store_lastUse (a : Nat) (l : List Byte) : (s.store a l).lastUse = s.lastUse := wrBytes_lastUse s a l
@[simp] theorem store_waking (a : Nat) (l : List Byte) : (s.store a l).waking = s.waking := wrBytes_waking s a l
@[simp] theorem store_mem (a : Nat) (l : List Byte) : (s.store a l).mem = (s.wrBytes a l).mem := rfl

/-! ### Memory depends on mem alone -/

theorem rdByte_congr {s t : State} (h : t.mem = s.mem) (a : Nat) : t.rdByte a = s.rdByte a := by simp only [State.rdByte, h]

end Sys2Proof.Machine
end

