-- ==== Sys2Proof/Laws/Tab.lean ====
section
/-! SUPPORT. Laws of tables: a read after a write at the same key and at another, and the canonical form kept. -/

namespace Sys2Proof

variable {α : Type}

@[simp] theorem tab_get_nil (d : α) (k : Nat) : Tab.get d [] k = d := rfl

@[simp] theorem tab_get_del_self (d : α) (t : Tab α) (k : Nat) : Tab.get d (Tab.del t k) k = d := by
  induction t with
  | nil => rfl
  | cons p t ih => by_cases h : p.1 = k <;> simp [Tab.del, Tab.get, h, ih]

theorem tab_get_del_ne (d : α) (t : Tab α) {k j : Nat} (h : j ≠ k) : Tab.get d (Tab.del t k) j = Tab.get d t j := by
  induction t with
  | nil => rfl
  | cons p t ih =>
    obtain ⟨i, v⟩ := p
    by_cases hk : i = k
    · subst hk
      simp only [Tab.del, if_true, Tab.get, ih, if_neg fun e => h (Eq.symm e)]
    · simp only [Tab.del, hk, if_false, Tab.get, ih]

theorem tab_get_ins_ne (d : α) (t : Tab α) {k j : Nat} (v : α) (h : j ≠ k) : Tab.get d (Tab.ins t k v) j = Tab.get d t j := by
  have hk : k ≠ j := fun e => h e.symm
  induction t with
  | nil => simp [Tab.ins, Tab.get, hk]
  | cons p t ih =>
    obtain ⟨i, w⟩ := p
    by_cases hi : k < i <;> simp [Tab.ins, Tab.get, hi, hk, ih]

theorem tab_get_ins_del (d : α) (t : Tab α) (k : Nat) (v : α) : Tab.get d (Tab.ins (Tab.del t k) k v) k = v := by
  induction t with
  | nil => simp [Tab.del, Tab.ins, Tab.get]
  | cons p t ih =>
    obtain ⟨i, w⟩ := p
    by_cases hk : i = k
    · simp [Tab.del, hk, ih]
    · by_cases hi : k < i <;> simp [Tab.del, Tab.ins, Tab.get, hk, hi, ih]

@[simp] theorem tab_get_put_self (d : α) (t : Tab α) (k : Nat) (v : α) : Tab.get d (Tab.put t k v) k = v :=
  tab_get_ins_del d t k v

theorem tab_get_put_ne (d : α) (t : Tab α) {k j : Nat} (v : α) (h : j ≠ k) : Tab.get d (Tab.put t k v) j = Tab.get d t j := by
  rw [Tab.put, tab_get_ins_ne d _ v h, tab_get_del_ne d t h]

@[simp] theorem tab_get_set_self [DecidableEq α] (d : α) (t : Tab α) (k : Nat) (v : α) : Tab.get d (Tab.set d t k v) k = v := by
  by_cases h : v = d <;> simp [Tab.set, h]

theorem tab_get_set_ne [DecidableEq α] (d : α) (t : Tab α) {k j : Nat} (v : α) (h : j ≠ k) :
    Tab.get d (Tab.set d t k v) j = Tab.get d t j := by
  by_cases hv : v = d
  · simp [Tab.set, hv, tab_get_del_ne d t h]
  · simp [Tab.set, hv, tab_get_put_ne d t v h]

/-! ### Entries listed -/

theorem tab_find_del (t : Tab α) (k j : Nat) : Tab.find (Tab.del t k) j = if j = k then none else Tab.find t j := by
  induction t with
  | nil => simp [Tab.del, Tab.find]
  | cons p t ih =>
    obtain ⟨i, v⟩ := p
    by_cases hi : i = k
    · subst hi
      by_cases hj : j = i
      · simpa only [Tab.del, if_true, if_pos hj] using ih
      · simp only [Tab.del, if_true, ih, if_neg hj, Tab.find, if_neg fun e => hj (Eq.symm e)]
    · by_cases hj : j = k
      · have : ¬i = j := fun e => hi (e.trans hj)
        simp only [Tab.del, if_neg hi, Tab.find, if_neg this, ih]
      · simp only [Tab.del, if_neg hi, Tab.find, ih, if_neg hj]

theorem tab_find_ins {t : Tab α} {k : Nat} (j : Nat) (v : α) (h : Tab.find t k = none) :
    Tab.find (Tab.ins t k v) j = if j = k then some v else Tab.find t j := by
  induction t with
  | nil =>
    by_cases hj : j = k
    · simp [Tab.ins, Tab.find, hj]
    · have : ¬k = j := fun e => hj e.symm
      simp [Tab.ins, Tab.find, hj, this]
  | cons p t ih =>
    obtain ⟨i, w⟩ := p
    by_cases hik : i = k
    · simp [Tab.find, hik] at h
    · have h' : Tab.find t k = none := by simpa only [Tab.find, if_neg hik] using h
      by_cases hlt : k < i
      · by_cases hj : j = k
        · simp [Tab.ins, Tab.find, hlt, hj]
        · simp only [Tab.ins, if_pos hlt, Tab.find, if_neg fun e => hj (Eq.symm e), if_neg hj]
      · simp only [Tab.ins, if_neg hlt, Tab.find, ih h']
        by_cases hi : i = j
        · simp only [if_pos hi, if_neg fun e => hik (hi.trans e)]
        · simp only [if_neg hi]

theorem tab_find_put (t : Tab α) (k j : Nat) (v : α) : Tab.find (Tab.put t k v) j = if j = k then some v else Tab.find t j := by
  have h : Tab.find (Tab.del t k) k = none := by rw [tab_find_del, if_pos rfl]
  rw [Tab.put, tab_find_ins j v h, tab_find_del]
  by_cases hj : j = k <;> simp [hj]

/-! ### The canonical form -/

theorem tab_rising_cons (p : Nat × α) (t : Tab α) :
    Tab.rising (p :: t) = true ↔ (∀ q ∈ t, p.1 < q.1) ∧ Tab.rising t = true := by
  induction t generalizing p with
  | nil => simp [Tab.rising]
  | cons q t ih =>
    obtain ⟨k, v⟩ := p
    obtain ⟨j, w⟩ := q
    simp only [Tab.rising, Bool.and_eq_true, decide_eq_true_eq, ih, List.mem_cons, forall_eq_or_imp]
    constructor
    · rintro ⟨h, h1, h2⟩
      exact ⟨⟨h, fun q hq => Nat.lt_trans h (h1 q hq)⟩, h1, h2⟩
    · rintro ⟨⟨h, _⟩, h2⟩
      exact ⟨h, h2⟩

theorem tab_mem_del {t : Tab α} {k : Nat} {p : Nat × α} (h : p ∈ Tab.del t k) : p ∈ t ∧ p.1 ≠ k := by
  induction t with
  | nil => simp [Tab.del] at h
  | cons q t ih =>
    obtain ⟨j, w⟩ := q
    by_cases hj : j = k
    · simp only [Tab.del, hj, if_true] at h
      exact ⟨List.mem_cons_of_mem _ (ih h).1, (ih h).2⟩
    · simp only [Tab.del, hj, if_false, List.mem_cons] at h
      rcases h with rfl | h
      · exact ⟨by simp, hj⟩
      · exact ⟨List.mem_cons_of_mem _ (ih h).1, (ih h).2⟩

theorem tab_rising_del {t : Tab α} (k : Nat) (h : Tab.rising t = true) : Tab.rising (Tab.del t k) = true := by
  induction t with
  | nil => rfl
  | cons q t ih =>
    obtain ⟨j, w⟩ := q
    have h' := (tab_rising_cons (j, w) t).1 h
    by_cases hj : j = k
    · simpa [Tab.del, hj] using ih h'.2
    · simp only [Tab.del, hj, if_false]
      exact (tab_rising_cons _ _).2 ⟨fun q hq => h'.1 q (tab_mem_del hq).1, ih h'.2⟩

theorem tab_mem_ins {t : Tab α} {k : Nat} {v : α} {p : Nat × α} (h : p ∈ Tab.ins t k v) : p = (k, v) ∨ p ∈ t := by
  induction t with
  | nil => simpa [Tab.ins] using h
  | cons q t ih =>
    obtain ⟨j, w⟩ := q
    by_cases hj : k < j
    · simpa [Tab.ins, hj] using h
    · simp only [Tab.ins, hj, if_false, List.mem_cons] at h ⊢
      rcases h with h | h
      · exact .inr (.inl h)
      · rcases ih h with h | h
        · exact .inl h
        · exact .inr (.inr h)

theorem tab_rising_ins {t : Tab α} {k : Nat} (v : α) (h : Tab.rising t = true) (hk : ∀ p ∈ t, p.1 ≠ k) :
    Tab.rising (Tab.ins t k v) = true := by
  induction t with
  | nil => rfl
  | cons q t ih =>
    obtain ⟨j, w⟩ := q
    have h' := (tab_rising_cons (j, w) t).1 h
    have hj' : j ≠ k := hk (j, w) (by simp)
    by_cases hj : k < j
    · simp only [Tab.ins, hj, if_true]
      refine (tab_rising_cons _ _).2 ⟨fun p hp => ?_, h⟩
      rcases List.mem_cons.1 hp with rfl | hp
      · exact hj
      · exact Nat.lt_trans hj (h'.1 p hp)
    · simp only [Tab.ins, hj, if_false]
      refine (tab_rising_cons _ _).2 ⟨fun p hp => ?_, ih h'.2 fun p hp => hk p (List.mem_cons_of_mem _ hp)⟩
      rcases tab_mem_ins hp with rfl | hp
      · show j < k; omega
      · exact h'.1 p hp

theorem tab_rising_put {t : Tab α} (k : Nat) (v : α) (h : Tab.rising t = true) : Tab.rising (Tab.put t k v) = true :=
  tab_rising_ins v (tab_rising_del k h) fun _ hp => (tab_mem_del hp).2

theorem tab_wf_iff [DecidableEq α] (d : α) (t : Tab α) :
    Tab.wf d t = true ↔ Tab.rising t = true ∧ ∀ p ∈ t, p.2 ≠ d := by
  simp [Tab.wf, Tab.lean]

theorem tab_wf_nil [DecidableEq α] (d : α) : Tab.wf d [] = true := rfl

theorem tab_wf_set [DecidableEq α] {d : α} {t : Tab α} (k : Nat) (v : α) (h : Tab.wf d t = true) :
    Tab.wf d (Tab.set d t k v) = true := by
  rw [tab_wf_iff] at h ⊢
  by_cases hv : v = d
  · simp only [Tab.set, hv, if_true]
    exact ⟨tab_rising_del k h.1, fun p hp => h.2 p (tab_mem_del hp).1⟩
  · simp only [Tab.set, hv, if_false]
    refine ⟨tab_rising_put k v h.1, fun p hp => ?_⟩
    rcases tab_mem_ins hp with rfl | hp
    · exact hv
    · exact h.2 p (tab_mem_del hp).1

theorem tab_rising_filter {t : Tab α} (f : Nat × α → Bool) (h : Tab.rising t = true) : Tab.rising (t.filter f) = true := by
  induction t with
  | nil => rfl
  | cons q t ih =>
    have h' := (tab_rising_cons q t).1 h
    by_cases hf : f q
    · simp only [List.filter_cons, hf, if_true]
      exact (tab_rising_cons _ _).2 ⟨fun p hp => h'.1 p (List.mem_filter.1 hp).1, ih h'.2⟩
    · simpa [List.filter_cons, hf] using ih h'.2

theorem tab_wf_filter [DecidableEq α] {d : α} {t : Tab α} (f : Nat × α → Bool) (h : Tab.wf d t = true) :
    Tab.wf d (t.filter f) = true := by
  rw [tab_wf_iff] at h ⊢
  exact ⟨tab_rising_filter f h.1, fun p hp => h.2 p (List.mem_filter.1 hp).1⟩

/-- Tables in canonical form that read alike are equal data. -/
theorem tab_wf_ext [DecidableEq α] {d : α} {t u : Tab α} (ht : Tab.wf d t = true) (hu : Tab.wf d u = true)
    (h : ∀ k, Tab.get d t k = Tab.get d u k) : t = u := by
  rw [tab_wf_iff] at ht hu
  have low : ∀ (l : Tab α) (k : Nat), (∀ q ∈ l, k < q.1) → Tab.get d l k = d := by
    intro l k hl
    induction l with
    | nil => rfl
    | cons q l ih =>
      obtain ⟨j, w⟩ := q
      have : k < j := hl (j, w) (by simp)
      have hjk : j ≠ k := by omega
      simp [Tab.get, hjk, ih fun q hq => hl q (List.mem_cons_of_mem _ hq)]
  induction t generalizing u with
  | nil =>
    cases u with
    | nil => rfl
    | cons q u =>
      obtain ⟨j, w⟩ := q
      have := h j
      simp [Tab.get] at this
      exact absurd this.symm (hu.2 (j, w) (by simp))
  | cons p t ih =>
    obtain ⟨i, v⟩ := p
    cases u with
    | nil =>
      have := h i
      simp [Tab.get] at this
      exact absurd this (ht.2 (i, v) (by simp))
    | cons q u =>
      obtain ⟨j, w⟩ := q
      have hti := (tab_rising_cons (i, v) t).1 ht.1
      have huj := (tab_rising_cons (j, w) u).1 hu.1
      have hv : v ≠ d := ht.2 (i, v) (by simp)
      have hw : w ≠ d := hu.2 (j, w) (by simp)
      have hij : i = j := by
        rcases Nat.lt_trichotomy i j with hlt | he | hlt
        · have e := h i
          rw [low ((j, w) :: u) i (by
            intro q hq
            rcases List.mem_cons.1 hq with rfl | hq
            · exact hlt
            · exact Nat.lt_trans hlt (huj.1 q hq))] at e
          simp [Tab.get] at e
          exact absurd e hv
        · exact he
        · have e := h j
          rw [low ((i, v) :: t) j (by
            intro q hq
            rcases List.mem_cons.1 hq with rfl | hq
            · exact hlt
            · exact Nat.lt_trans hlt (hti.1 q hq))] at e
          simp [Tab.get] at e
          exact absurd e.symm hw
      subst hij
      have hvw : v = w := by simpa [Tab.get] using h i
      subst hvw
      congr 1
      refine ih ⟨hti.2, fun p hp => ht.2 p (List.mem_cons_of_mem _ hp)⟩
        ⟨huj.2, fun p hp => hu.2 p (List.mem_cons_of_mem _ hp)⟩ fun k => ?_
      by_cases hk : i = k
      · subst hk
        rw [low t i hti.1, low u i huj.1]
      · simpa [Tab.get, hk] using h k

end Sys2Proof
end

