-- ==== Sys2Proof/Laws/Thread.lean ====
section
/-! SUPPORT. Laws of sectors, threads and registers: what a write changes and what it leaves (R43, R44). -/

namespace Sys2Proof.Machine

open Sys2Proof

variable (s : State)

/-! ### Sectors -/

@[simp] theorem sec_setSec_self (k : Nat) (v : Sector) : (s.setSec k v).sec k = v := tab_get_put_self _ _ _ _

theorem sec_setSec_ne {k j : Nat} (v : Sector) (h : j ≠ k) : (s.setSec k v).sec j = s.sec j := tab_get_put_ne _ _ _ h

@[simp] theorem sec_modSec_self (k : Nat) (f : Sector → Sector) : (s.modSec k f).sec k = f (s.sec k) := sec_setSec_self _ _ _

theorem sec_modSec_ne {k j : Nat} (f : Sector → Sector) (h : j ≠ k) : (s.modSec k f).sec j = s.sec j := sec_setSec_ne _ _ h

theorem sec_modSec (k j : Nat) (f : Sector → Sector) : (s.modSec k f).sec j = if j = k then f (s.sec j) else s.sec j := by
  by_cases h : j = k
  · subst h; simp
  · simp [h, sec_modSec_ne _ _ h]

theorem modSec_modSec (k : Nat) (f g : Sector → Sector) : (s.modSec k f).modSec k g = s.modSec k fun x => g (f x) := by
  have put2 : ∀ (t : Tab Sector) (v w : Sector), Tab.put (Tab.put t k v) k w = Tab.put t k w := by
    intro t v w
    have del : ∀ t : Tab Sector, Tab.del (Tab.ins t k v) k = Tab.del t k := by
      intro t
      induction t with
      | nil => simp [Tab.ins, Tab.del]
      | cons p t ih =>
        obtain ⟨j, u⟩ := p
        by_cases h : k < j
        · simp [Tab.ins, Tab.del, h]
        · by_cases hj : j = k <;> simp [Tab.ins, Tab.del, h, hj, ih]
    have del2 : ∀ t : Tab Sector, Tab.del (Tab.del t k) k = Tab.del t k := by
      intro t
      induction t with
      | nil => rfl
      | cons p t ih =>
        obtain ⟨j, u⟩ := p
        by_cases hj : j = k <;> simp [Tab.del, hj, ih]
    simp only [Tab.put, del, del2]
  simp only [State.modSec, sec_setSec_self]
  simp only [State.setSec, put2]

/-! ### The acting thread -/

@[simp] theorem th_modTh (f : Thread → Thread) : (s.modTh f).th = f s.th := by
  show ((s.modSec s.cur _).sec s.cur).th = _
  rw [sec_modSec_self]; rfl

theorem modTh_modTh (f g : Thread → Thread) : (s.modTh f).modTh g = s.modTh fun t => g (f t) := by
  exact modSec_modSec s s.cur (fun x => { x with th := f x.th }) (fun x => { x with th := g x.th })

/-- Changes that agree on the acting thread are one change. -/
theorem modTh_congr {f g : Thread → Thread} (h : f s.th = g s.th) : s.modTh f = s.modTh g := by
  have e : (fun x : Sector => ({ x with th := f x.th } : Sector)) (s.sec s.cur) = ({ s.sec s.cur with th := g (s.sec s.cur).th } : Sector) := by
    show ({ s.sec s.cur with th := f s.th } : Sector) = _
    rw [h]; rfl
  show s.setSec s.cur _ = s.setSec s.cur _
  rw [e]

@[simp] theorem th_wrS (r : Reg) (v : Word) : (s.wrS r v).th = s.th.wrS r v := th_modTh _ _
@[simp] theorem th_wrP (p : PReg) (b : Bool) : (s.wrP p b).th = s.th.wrP p b := th_modTh _ _
@[simp] theorem th_wrD (d : DReg) (v : Desc) : (s.wrD d v).th = s.th.wrD d v := th_modTh _ _
@[simp] theorem th_setPc (v : Word) : (s.setPc v).th = { s.th with pc := v, wait := .none, word := none } := th_modTh _ _
@[simp] theorem th_advance : s.advance.th = { s.th with pc := s.th.pc + 8, wait := .none, word := none } := th_modTh _ _
@[simp] theorem th_setWait (w : Wait) : (s.setWait w).th = { s.th with wait := w } := th_modTh _ _

/-- A read of a scalar register after a write of one. -/
theorem rdS_wrS (t : Thread) (r q : Reg) (v : Word) : (t.wrS r v).rdS q = if q = 0 then 0 else if q = r then v else t.rdS q := by
  by_cases hq : q = 0
  · simp only [Thread.rdS, if_pos hq]
  · simp only [Thread.rdS, if_neg hq]
    by_cases hr : r = 0
    · have h : q ≠ r := fun e => hq (e.trans hr)
      simp only [Thread.wrS, if_pos hr, if_neg h]
    · simp only [Thread.wrS, if_neg hr]
      by_cases h : q = r
      · subst h; simp only [if_true, tab_get_set_self]
      · have hn : q.toNat ≠ r.toNat := fun e => h (BitVec.eq_of_toNat_eq e)
        simp only [if_neg h, tab_get_set_ne _ _ _ hn]

/-- A read of a predicate after a write of one. -/
theorem rdP_wrP (t : Thread) (p q : PReg) (b : Bool) : (t.wrP p b).rdP q = if q = 0 then true else if q = p then b else t.rdP q := by
  have key : ∀ (v : BitVec 8), (predSet v p b).getLsbD q.toNat = if q = p then b else v.getLsbD q.toNat := by
    intro v
    have hq := q.isLt
    by_cases h : q = p
    · subst h
      cases b <;> simp [predSet] <;> omega
    · have hn : ¬ q.toNat = p.toNat := fun e => h (BitVec.eq_of_toNat_eq e)
      have h1 : (1#8 <<< p.toNat).getLsbD q.toNat = false := by
        simp only [BitVec.getLsbD_shiftLeft, BitVec.getLsbD_one, Bool.and_eq_false_iff, decide_eq_false_iff_not,
          Bool.not_eq_false', decide_eq_true_eq]
        omega
      cases b
      · simp only [predSet, if_neg h, Bool.false_eq_true, if_false, BitVec.getLsbD_and, BitVec.getLsbD_not, h1]
        have : q.toNat < 8 := by omega
        simp [this]
      · simp only [predSet, if_neg h, if_true, BitVec.getLsbD_or, h1, Bool.or_false]
  by_cases hq : q = 0
  · simp [Thread.rdP, hq]
  · have hq' : (q == 0) = false := by simpa using hq
    simp only [Thread.rdP, hq', Bool.false_or, if_neg hq]
    by_cases hp : p = 0
    · have h : q ≠ p := fun e => hq (e.trans hp)
      simp only [Thread.wrP, if_pos hp, if_neg h]
    · simp only [Thread.wrP, if_neg hp, key]

/-- A read of a descriptor register after a write of one. -/
theorem rdD_wrD (t : Thread) (d q : DReg) (v : Desc) : (t.wrD d v).rdD q = if q = d then v else t.rdD q := by
  by_cases h : q = d
  · subst h; simp only [Thread.rdD, Thread.wrD, if_true, tab_get_set_self]
  · have hn : q.toNat ≠ d.toNat := fun e => h (BitVec.eq_of_toNat_eq e)
    simp only [Thread.rdD, Thread.wrD, if_neg h, tab_get_set_ne _ _ _ hn]

theorem wrS_eq (t : Thread) (r : Reg) (v : Word) : t.wrS r v = { t with regs := (t.wrS r v).regs } := by
  unfold Thread.wrS; split <;> rfl

theorem wrP_eq (t : Thread) (p : PReg) (b : Bool) : t.wrP p b = { t with preds := (t.wrP p b).preds } := by
  unfold Thread.wrP; split <;> rfl

end Sys2Proof.Machine
end

