-- ==== Sys2Proof/Laws/Control.lean ====
section
/-! SUPPORT. What the shared endings of control words do: a change of the acting thread alone, a scalar or predicate result, the next word, a jump. -/

namespace Sys2Proof.Machine

open Sys2Proof

theorem threadOnly_modTh (s : State) (f : Thread → Thread) : ThreadOnly s (s.modTh f) := by
  refine ⟨rfl, fun k hk => ?_, ?_, fun a => rfl⟩
  · exact sec_modSec_ne _ _ hk
  · show ({ (s.modSec s.cur _).sec s.cur with th := s.th } : Sector) = _
    rw [sec_modSec_self]; rfl

theorem wrS_pc (t : Thread) (r : Reg) (v : Word) : (t.wrS r v).pc = t.pc := by rw [wrS_eq]

theorem wrP_pc (t : Thread) (p : PReg) (b : Bool) : (t.wrP p b).pc = t.pc := by rw [wrP_eq]

/-! ### A scalar result -/

/-- A thread with a scalar register written that stands at an address, in no wait. -/
def Thread.scalarAt (t : Thread) (rd : Reg) (v pc : Word) : Thread := { t.wrS rd v with pc := pc, wait := .none, word := none }

theorem wrS_advance (s : State) (rd : Reg) (v : Word) : (s.wrS rd v).advance = s.modTh fun t => t.scalarAt rd v (s.pc + 8) := by
  refine (modTh_modTh s _ _).trans (modTh_congr s ?_)
  simp only [wrS_pc]; rfl

theorem wrS_setPc (s : State) (rd : Reg) (v pc : Word) : (s.wrS rd v).setPc pc = s.modTh fun t => t.scalarAt rd v pc :=
  (modTh_modTh s _ _).trans (modTh_congr s rfl)

theorem scalarFrame_modTh (s : State) (rd : Reg) (v pc : Word) : ScalarFrame rd s (s.modTh fun t => t.scalarAt rd v pc) := by
  refine ⟨threadOnly_modTh _ _, fun r hr => ?_, ?_⟩
  · show Thread.rdS _ r = Thread.rdS _ r
    rw [th_modTh]
    show (s.th.wrS rd v).rdS r = _
    rw [rdS_wrS]
    by_cases h0 : r = 0
    · simp [h0, Thread.rdS]
    · simp only [if_neg h0, if_neg hr]
  · rw [th_modTh, Thread.scalarAt, wrS_eq]

theorem rdS_scalarAt (s : State) (rd : Reg) (v pc : Word) : (s.modTh fun t => t.scalarAt rd v pc).rdS rd = if rd = 0 then 0 else v := by
  show Thread.rdS _ rd = _
  rw [th_modTh]
  show (s.th.wrS rd v).rdS rd = _
  rw [rdS_wrS]; simp

theorem pc_scalarAt (s : State) (rd : Reg) (v pc : Word) : (s.modTh fun t => t.scalarAt rd v pc).pc = pc := by
  show Thread.pc _ = _
  rw [th_modTh]; rfl

theorem writesScalar_of {s : State} {i : Instr} {rd : Reg} {v w : Word} (h : exec i s = s.putS rd w) (e : w = v) : WritesScalar s i rd v := by
  subst e
  rw [State.putS, wrS_advance] at h
  exact ⟨_, h, rdS_scalarAt _ _ _ _, pc_scalarAt _ _ _ _, scalarFrame_modTh _ _ _ _⟩

/-! ### A predicate result -/

/-- A thread with a predicate register written that stands at an address, in no wait. -/
def Thread.predAt (t : Thread) (pd : PReg) (b : Bool) (pc : Word) : Thread := { t.wrP pd b with pc := pc, wait := .none, word := none }

theorem wrP_advance (s : State) (pd : PReg) (b : Bool) : (s.wrP pd b).advance = s.modTh fun t => t.predAt pd b (s.pc + 8) := by
  refine (modTh_modTh s _ _).trans (modTh_congr s ?_)
  simp only [wrP_pc]; rfl

theorem writesPred_of {s : State} {i : Instr} {pd : PReg} {v w : Bool} (h : exec i s = s.putP pd w) (e : w = v) : WritesPred s i pd v := by
  subst e
  rw [State.putP, wrP_advance] at h
  refine ⟨_, h, ?_, ?_, threadOnly_modTh _ _, fun p hp => ?_, ?_⟩
  · show Thread.rdP _ pd = _
    rw [th_modTh]
    show (s.th.wrP pd w).rdP pd = _
    rw [rdP_wrP]
    by_cases h0 : pd = 0
    · simp [h0]
    · have h1 : (pd == 0) = false := by simpa using h0
      simp only [if_neg h0, if_true, h1, Bool.false_or]
  · show Thread.pc _ = _
    rw [th_modTh]; rfl
  · show Thread.rdP _ p = Thread.rdP _ p
    rw [th_modTh]
    show (s.th.wrP pd w).rdP p = _
    rw [rdP_wrP]
    by_cases h0 : p = 0
    · simp [h0, Thread.rdP]
    · simp only [if_neg h0, if_neg hp]
  · rw [th_modTh, Thread.predAt, wrP_eq]

/-! ### The next word, a jump -/

theorem advance_spec (s : State) : s.advance.pc = s.pc + 8 ∧ PcOnly s s.advance := by
  refine ⟨?_, threadOnly_modTh _ _, ?_⟩
  · show Thread.pc _ = _
    rw [th_advance]; rfl
  · rw [th_advance]

theorem setPc_spec (s : State) (v : Word) : (s.setPc v).pc = v ∧ PcOnly s (s.setPc v) := by
  refine ⟨?_, threadOnly_modTh _ _, ?_⟩
  · show Thread.pc _ = _
    rw [th_setPc]
  · rw [th_setPc]

theorem onlyAdvances_of {s : State} {i : Instr} (h : exec i s = .next s.advance) : OnlyAdvances s i :=
  ⟨_, h, (advance_spec s).1, (advance_spec s).2⟩

theorem onlyJumps_of {s : State} {i : Instr} {v a : Word} (h : exec i s = .next (s.setPc v)) (e : v = a) : OnlyJumps s i a := by
  subst e
  exact ⟨_, h, (setPc_spec s v).1, (setPc_spec s v).2⟩

/-! ### Endings -/

@[simp] theorem finish_ok (s t : State) : s.finish (.ok t) = .next t := rfl
@[simp] theorem finish_trap (s : State) (c : Cause) (v : Word) : s.finish (.trap c v) = .next (s.takeTrap c v) := rfl
@[simp] theorem finish_hold (s : State) : s.finish .hold = .next s := rfl

/-- A trap outside trap state writes the trap registers of the acting thread, and nothing else of the state (R411). -/
theorem takeTrap_spec (s : State) (c : Cause) (v : Word) (h : s.th.ts = false) :
    s.takeTrap c v = s.modTh fun t => t.enterTrap s.cyc c v := by simp [State.takeTrap, h]

end Sys2Proof.Machine
end

