-- ==== Sys2Proof/Laws/Memory.lean ====
section
/-! SUPPORT. Laws of memory: a read after a write, runs of bytes, words, and the canonical form that every memory operation keeps. -/

namespace Sys2Proof.Machine

open Sys2Proof

variable (s : State)

/-! ### Bytes -/

theorem rdByte_wrByte (a c : Nat) (b : Byte) : (s.wrByte a b).rdByte c = if c = a then b else s.rdByte c := by
  by_cases h : c = a
  · subst h; simp [State.rdByte, State.wrByte]
  · simp [State.rdByte, State.wrByte, h, tab_get_set_ne _ _ _ h]

theorem rdByte_wrBytes (a c : Nat) (l : List Byte) :
    (s.wrBytes a l).rdByte c = if a ≤ c ∧ c < a + l.length then l.getD (c - a) 0 else s.rdByte c := by
  induction l generalizing s a with
  | nil =>
    have : ¬(a ≤ c ∧ c < a + 0) := by omega
    simp [State.wrBytes, this]
  | cons b l ih =>
    rw [State.wrBytes, ih, rdByte_wrByte, List.length_cons]
    by_cases h1 : a + 1 ≤ c ∧ c < a + 1 + l.length
    · have h2 : a ≤ c ∧ c < a + (l.length + 1) := by omega
      have h3 : c - a = c - (a + 1) + 1 := by omega
      rw [if_pos h1, if_pos h2, h3, List.getD_cons_succ]
    · rw [if_neg h1]
      by_cases h2 : c = a
      · subst h2
        rw [if_pos rfl, if_pos (by omega), Nat.sub_self, List.getD_cons_zero]
      · rw [if_neg h2, if_neg (by omega)]

theorem rdByte_store (a c : Nat) (l : List Byte) :
    (s.store a l).rdByte c = if a ≤ c ∧ c < a + l.length then l.getD (c - a) 0 else s.rdByte c :=
  rdByte_wrBytes s a c l

/-- A run of bytes written changes memory alone. -/
theorem wrBytes_eq (a : Nat) (l : List Byte) : s.wrBytes a l = { s with mem := (s.wrBytes a l).mem } := by
  induction l generalizing s a with
  | nil => rfl
  | cons b l ih =>
    have h := ih (s.wrByte a b) (a + 1)
    exact h

/-- A store changes memory and its poison alone. -/
theorem store_eq (a : Nat) (l : List Byte) : s.store a l = { s with mem := (s.store a l).mem, poison := (s.store a l).poison } := by
  have h := wrBytes_eq s a l
  have := congrArg (fun u : State => { u with poison := poisonAfter s.poison a l.length }) h
  exact this

/-! ### Numbers and bytes -/

@[simp] theorem bytesOf_length (n v : Nat) : (bytesOf n v).length = n := by
  induction n generalizing v with
  | zero => rfl
  | succ n ih => simp [bytesOf, ih]

theorem bytesOf_getD (n v i : Nat) (h : i < n) : ((bytesOf n v).getD i 0).toNat = v / 2 ^ (8 * i) % 256 := by
  induction n generalizing v i with
  | zero => omega
  | succ n ih =>
    cases i with
    | zero => simp [bytesOf]
    | succ i =>
      rw [bytesOf, List.getD_cons_succ, ih _ _ (by omega), Nat.div_div_eq_div_mul, Nat.mul_add, Nat.pow_add, Nat.mul_comm]

theorem natOf_bytesOf (n v : Nat) : natOf (bytesOf n v) = v % 2 ^ (8 * n) := by
  induction n generalizing v with
  | zero => simp [bytesOf, natOf, Nat.mod_one]
  | succ n ih =>
    rw [bytesOf, natOf, ih]
    have h1 : 2 ^ (8 * (n + 1)) = 256 * 2 ^ (8 * n) := by
      rw [Nat.mul_add, Nat.pow_add]; omega
    rw [h1, Nat.mod_mul]
    simp [BitVec.toNat_ofNat]

theorem natOf_lt (l : List Byte) : natOf l < 2 ^ (8 * l.length) := by
  induction l with
  | nil => simp [natOf]
  | cons b l ih =>
    have hb := b.isLt
    have h1 : 2 ^ (8 * (l.length + 1)) = 256 * 2 ^ (8 * l.length) := by
      rw [Nat.mul_add, Nat.pow_add]; omega
    rw [natOf, List.length_cons, h1]
    omega

theorem rdBytes_store_self (a : Nat) (l : List Byte) : (s.store a l).rdBytes a l.length = l := by
  have gen : ∀ (n k : Nat), k + n = l.length → (s.store a l).rdBytes (a + k) n = l.drop k := by
    intro n
    induction n with
    | zero => intro k hk; simp [State.rdBytes]; omega
    | succ n ih =>
      intro k hk
      have hlt : k < l.length := by omega
      rw [State.rdBytes, rdByte_store, if_pos (by omega), Nat.add_sub_cancel_left, Nat.add_assoc, ih (k + 1) (by omega),
        List.getD_eq_getElem _ _ hlt, List.getElem_cons_drop]
  simpa using gen l.length 0 (by omega)

theorem rdBytes_congr {s t : State} (a n : Nat) (h : ∀ b, a ≤ b → b < a + n → t.rdByte b = s.rdByte b) : t.rdBytes a n = s.rdBytes a n := by
  induction n generalizing a with
  | zero => rfl
  | succ n ih =>
    rw [State.rdBytes, State.rdBytes, h a (by omega) (by omega), ih (a + 1) fun b h1 h2 => h b (by omega) (by omega)]

/-! ### Words -/

theorem rdWord_wrWord_self (a : Nat) (v : Word) : (s.wrWord a v).rdWord a = v := by
  have h := rdBytes_store_self s a (bytesOf 8 v.toNat)
  rw [bytesOf_length] at h
  rw [State.rdWord, State.wrWord, h, natOf_bytesOf]
  apply BitVec.eq_of_toNat_eq
  have := v.isLt
  rw [BitVec.toNat_ofNat]
  omega

theorem rdWord_wrWord_ne (a b : Nat) (v : Word) (h : b + 8 ≤ a ∨ a + 8 ≤ b) : (s.wrWord a v).rdWord b = s.rdWord b := by
  rw [State.rdWord, State.rdWord, rdBytes_congr b 8 fun c h1 h2 => ?_]
  rw [State.wrWord, rdByte_store, if_neg]
  rw [bytesOf_length]; omega

theorem rdWord_congr {s t : State} (h : t.mem = s.mem) (a : Nat) : t.rdWord a = s.rdWord a := by
  rw [State.rdWord, State.rdWord, rdBytes_congr a 8 fun b _ _ => rdByte_congr h b]

/-! ### The canonical form -/

theorem memWf_wrByte {s : State} (a : Nat) (b : Byte) (h : s.memWf = true) : (s.wrByte a b).memWf = true := tab_wf_set a b h

theorem memWf_wrBytes {s : State} (a : Nat) (l : List Byte) (h : s.memWf = true) : (s.wrBytes a l).memWf = true := by
  induction l generalizing s a with
  | nil => exact h
  | cons b l ih => exact ih _ (memWf_wrByte a b h)

theorem memWf_store {s : State} (a : Nat) (l : List Byte) (h : s.memWf = true) : (s.store a l).memWf = true := memWf_wrBytes a l h

theorem memWf_wrWord {s : State} (a : Nat) (v : Word) (h : s.memWf = true) : (s.wrWord a v).memWf = true := memWf_store a _ h

theorem memWf_reset : State.reset.memWf = true := rfl

/-- Memories in canonical form that read alike are equal data. -/
theorem mem_ext {s t : State} (hs : s.memWf = true) (ht : t.memWf = true) (h : ∀ a, s.rdByte a = t.rdByte a) : s.mem = t.mem :=
  tab_wf_ext hs ht h

end Sys2Proof.Machine
end

