-- ==== Sys2Proof/Laws/Access.lean ====
section
/-! SUPPORT. What the shared steps of a memory access do: an error that strikes, the place of an access, and what they leave unchanged (R288, R404). -/

namespace Sys2Proof.Machine

open Sys2Proof

theorem strike_quiet {s : State} (h : Quiet s) (sid : Nat) (t : Tgt) (n : Nat) : s.strike sid t n = .go (s.touch t) := by
  obtain ⟨h1, h2⟩ := h
  simp [State.strike, State.meet, State.retriesOf, State.busSwapping, State.nextHit, h1, h2]

/-- touch changes the record of staged pages alone. -/
theorem touch_eq (s : State) (t : Tgt) : s.touch t = { s with flash := { s.flash with staged := (s.touch t).flash.staged } } := by
  unfold State.touch; split <;> rfl

/-- The state in which an access that nothing keeps goes on. -/
def State.reached (s : State) (t : Tgt) : State := (s.touch t).noteRc t

theorem touch_sectors (s : State) (t : Tgt) : (s.touch t).sectors = s.sectors := by rw [touch_eq]
theorem touch_cur (s : State) (t : Tgt) : (s.touch t).cur = s.cur := by rw [touch_eq]
theorem touch_sec (s : State) (t : Tgt) (k : Nat) : (s.touch t).sec k = s.sec k := by rw [touch_eq]; rfl

theorem reached_rest (s : State) (t : Tgt) :
    ({ s.reached t with sectors := s.sectors, flash := s.flash } : State) = s ∧
    ({ (s.reached t).flash with staged := s.flash.staged } : Flash) = s.flash := by
  unfold State.reached State.noteRc
  rw [touch_eq]
  split <;> exact ⟨rfl, rfl⟩

theorem reached_sec_ne (s : State) (t : Tgt) {k : Nat} (h : k ≠ s.cur) : (s.reached t).sec k = s.sec k := by
  unfold State.reached State.noteRc
  split
  · exact touch_sec s t k
  · rw [sec_modSec_ne _ _ (by rwa [touch_cur]), touch_sec]

theorem reached_sec_self (s : State) (t : Tgt) :
    ({ (s.reached t).sec s.cur with rcache := (s.sec s.cur).rcache } : Sector) = s.sec s.cur := by
  unfold State.reached State.noteRc
  split
  · rw [touch_sec]
  · have hc := touch_cur s t
    rw [hc, sec_modSec_self, touch_sec]

theorem reached_field {α : Type} (f : State → α) (hf : ∀ (u : State) a b, f { u with sectors := a, flash := b } = f u) (s : State) (t : Tgt) :
    f (s.reached t) = f s := by
  have h := (reached_rest s t).1
  rw [← hf (s.reached t) s.sectors s.flash, h]

theorem reached_mem (s : State) (t : Tgt) : (s.reached t).mem = s.mem := reached_field State.mem (fun _ _ _ => rfl) s t
theorem reached_poison (s : State) (t : Tgt) : (s.reached t).poison = s.poison := reached_field State.poison (fun _ _ _ => rfl) s t
theorem reached_cur (s : State) (t : Tgt) : (s.reached t).cur = s.cur := reached_field State.cur (fun _ _ _ => rfl) s t
theorem reached_dups (s : State) (t : Tgt) : (s.reached t).dups = s.dups := reached_field State.dups (fun _ _ _ => rfl) s t
theorem reached_tasks (s : State) (t : Tgt) : (s.reached t).tasks = s.tasks := reached_field State.tasks (fun _ _ _ => rfl) s t
theorem reached_launches (s : State) (t : Tgt) : (s.reached t).launches = s.launches := reached_field State.launches (fun _ _ _ => rfl) s t

theorem reached_sec (s : State) (t : Tgt) (k : Nat) : ({ (s.reached t).sec k with rcache := (s.sec k).rcache } : Sector) = s.sec k := by
  by_cases h : k = s.cur
  · subst h; exact reached_sec_self s t
  · rw [reached_sec_ne s t h]

theorem reached_th (s : State) (t : Tgt) : (s.reached t).th = s.th := by
  show ((s.reached t).sec (s.reached t).cur).th = (s.sec s.cur).th
  rw [reached_cur, ← reached_sec s t s.cur]

/-- What depends on memory, poison, and the sectors' tasks reads alike after an access has found its place. -/
theorem reached_queueFloor (s : State) (t : Tgt) (k : Nat) : (s.reached t).queueFloor k = s.queueFloor k := by
  have h := reached_sec s t k
  unfold State.queueFloor State.task?
  rw [reached_tasks, ← h]

theorem reached_reserved (s : State) (t : Tgt) (a n : Nat) : (s.reached t).reserved a n = s.reserved a n := by
  unfold State.reserved
  rw [reached_queueFloor]

theorem reached_mem_words (s : State) (t : Tgt) (a : Nat) :
    (s.reached t).vNext a = s.vNext a ∧ (s.reached t).vFloor a = s.vFloor a ∧ ∀ v, (s.reached t).vVal a v = s.vVal a v := by
  have hw := fun a => rdWord_congr (reached_mem s t) a
  exact ⟨by simp only [State.vNext, hw], by simp only [State.vFloor, hw], fun v => by simp only [State.vVal, hw]⟩

theorem reached_rdTgt (s : State) (t u : Tgt) (n : Nat) : (s.reached t).rdTgt u n = s.rdTgt u n := by
  have hw := fun a => rdWord_congr (reached_mem s t) a
  have hb := fun a => rdByte_congr (reached_mem s t) a
  have hv : ∀ a, (s.reached t).vNewest a = s.vNewest a := by
    intro a
    unfold State.vNewest State.vVal State.vNext State.vFloor
    simp only [hw]
  simp only [State.rdTgt, State.rdTgtByte, hv, hb, reached_reserved]

theorem reached_poisonIn (s : State) (t : Tgt) (a n : Nat) : (s.reached t).poisonIn a n = s.poisonIn a n := by
  simp only [State.poisonIn, reached_poison]

theorem touch_failed (s : State) (t : Tgt) (p : Nat) :
    ((s.touch t).staged? p).map (fun x => (x.failed, x.poison)) = (s.staged? p).map fun x => (x.failed, x.poison) := by
  unfold State.touch
  split
  · rename_i x h1 h2
    show (Tab.find (Tab.put _ _ _) p).map _ = _
    rw [tab_find_put]
    by_cases hp : p = flashPage t.phys
    · subst hp; simp [h2]
    · simp [hp, State.staged?]
  · rfl

theorem reached_tgtPoison (s : State) (t u : Tgt) (n : Nat) : (s.reached t).tgtPoison u n = s.tgtPoison u n := by
  have hs : ∀ p, ((s.reached t).staged? p).map (fun x => (x.failed, x.poison)) = (s.staged? p).map fun x => (x.failed, x.poison) := by
    intro p
    have : (s.reached t).staged? p = (s.touch t).staged? p := by
      unfold State.reached State.noteRc; split <;> rfl
    rw [this, touch_failed]
  unfold State.tgtPoison
  have h := hs (flashPage u.phys)
  simp only [reached_poisonIn]
  generalize (s.reached t).staged? (flashPage u.phys) = a at h ⊢
  generalize s.staged? (flashPage u.phys) = b at h ⊢
  cases a <;> cases b <;> simp_all

/-! ### The place of an access -/

/-- An access that reaches its place goes on there. -/
theorem place_reaches {s : State} {ea : Word} {n : Nat} {acc : Acc} {t : Tgt} (h : Reaches s ea n acc t) (barred : Tgt → Bool)
    (hb : barred t = false) (k bad : State → Tgt → Res State) : s.place ea n acc barred k bad = k (s.reached t) t := by
  obtain ⟨h1, h2, h3, h4, h5⟩ := h
  have h6 : ¬(acc ≠ .write ∧ s.readHeld s.cur t = true) := fun ⟨a, b⟩ => by simp [h4 a] at b
  simp [State.place, h1, h2, hb, h3, h6, strike_quiet h5, State.reached]

/-- A place that an access may not use takes PERMISSION. -/
theorem place_barred {s : State} {ea : Word} {n : Nat} {acc : Acc} {t : Tgt} (h1 : ea.toNat % n = 0) (h2 : s.xlate s.ctxId s.cur ea acc = .ok t)
    (barred : Tgt → Bool) (hb : barred t = true) (k bad : State → Tgt → Res State) : s.place ea n acc barred k bad = .trap .permission ea := by
  simp [State.place, h1, h2, hb]

theorem place_misaligned {s : State} {ea : Word} {n : Nat} (h : ea.toNat % n ≠ 0) (acc : Acc) (barred : Tgt → Bool) (k bad : State → Tgt → Res State) :
    s.place ea n acc barred k bad = .trap .misaligned ea := by simp [State.place, h]

theorem place_fault {s : State} {ea : Word} {n : Nat} {acc : Acc} (h1 : ea.toNat % n = 0) (h2 : s.xlate s.ctxId s.cur ea acc = .fault)
    (barred : Tgt → Bool) (k bad : State → Tgt → Res State) : s.place ea n acc barred k bad = .trap .xlateFault ea := by
  simp [State.place, h1, h2]

theorem place_perm {s : State} {ea : Word} {n : Nat} {acc : Acc} (h1 : ea.toNat % n = 0) (h2 : s.xlate s.ctxId s.cur ea acc = .perm)
    (barred : Tgt → Bool) (k bad : State → Tgt → Res State) : s.place ea n acc barred k bad = .trap .permission ea := by
  simp [State.place, h1, h2]

/-! ### The end of an access -/

/-- After an access has found its place, memory may change and so may the acting thread: the frame of an access holds. -/
theorem accessFrame_of (s : State) (t : Tgt) (m : Tab Byte) (p : Tab Bool) (f : Thread → Thread) :
    AccessFrame s (({ s.reached t with mem := m, poison := p } : State).modTh f) := by
  have h := reached_rest s t
  have hc := reached_cur s t
  refine ⟨?_, h.2, fun k hk => ?_, ?_⟩
  · have := congrArg (fun u : State => { u with mem := s.mem, poison := s.poison }) h.1
    exact this
  · show (State.modSec _ _ _).sec k = _
    rw [sec_modSec_ne _ _ (by show k ≠ (s.reached t).cur; rwa [hc])]
    exact reached_sec_ne s t hk
  · show ({ (State.modSec _ (s.reached t).cur _).sec s.cur with th := s.th, rcache := _ } : Sector) = _
    rw [hc, sec_modSec_self]
    have e := reached_sec_self s t
    have := congrArg (fun x : Sector => { x with th := s.th }) e
    exact this

theorem threadScalar_of (s : State) (t : Tgt) (m : Tab Byte) (p : Tab Bool) (rd : Reg) (v : Word) :
    let u := (({ s.reached t with mem := m, poison := p } : State).modTh fun h => h.scalarAt rd v (s.pc + 8))
    u.rdS rd = (if rd = 0 then 0 else v) ∧ u.pc = s.pc + 8 ∧ ThreadScalar rd s u := by
  have ht : ({ s.reached t with mem := m, poison := p } : State).th = s.th := reached_th s t
  refine ⟨?_, ?_, fun r hr => ?_, ?_⟩
  · exact rdS_scalarAt _ _ _ _
  · exact pc_scalarAt _ _ _ _
  · show Thread.rdS _ r = Thread.rdS _ r
    rw [th_modTh, ht]
    show (s.th.wrS rd v).rdS r = _
    rw [rdS_wrS]
    by_cases h0 : r = 0
    · simp [h0, Thread.rdS]
    · simp only [if_neg h0, if_neg hr]
  · rw [th_modTh, ht, Thread.scalarAt, wrS_eq]

end Sys2Proof.Machine
end

