-- ==== Sys2Proof/Laws/Decode.lean ====
section
/-! SUPPORT. The fields read back from the word that they are written to, for each format, and what a word's opcode and guard are. -/

namespace Sys2Proof

theorem fld_toNat (w : Word) (lo n : Nat) : (fld w lo n).toNat = w.toNat / 2 ^ lo % 2 ^ n := by simp [fld]

/-- The value of the bits that every control word has at its top. -/
theorem putTop_eq (op : BitVec 8) (g : Guard) :
    putTop op g = op.toNat * 2 ^ 56 + g.g.toNat * 2 ^ 53 + g.neg.toNat * 2 ^ 52 := by
  cases h : g.neg <;> simp [putTop, plc, h]

/-- A word of a top and a rest below bit 52 has the opcode and the guard of the top. -/
theorem top_of (op : BitVec 8) (g : Guard) (n : Nat) (h : n < 2 ^ 52) (w : Word) (e : w.toNat = putTop op g + n) :
    fld w 56 8 = op ∧ (⟨fld w 53 3, fld w 52 1 == 1⟩ : Guard) = g := by
  rw [putTop_eq] at e
  have h1 := op.isLt
  have h2 := g.g.isLt
  have h3 : g.neg.toNat < 2 := by cases g.neg <;> decide
  have a1 : fld w 56 8 = op := BitVec.eq_of_toNat_eq (by rw [fld_toNat]; omega)
  have a2 : fld w 53 3 = g.g := BitVec.eq_of_toNat_eq (by rw [fld_toNat]; omega)
  have a3 : (fld w 52 1).toNat = g.neg.toNat := by rw [fld_toNat]; omega
  refine ⟨a1, ?_⟩
  rw [a2]
  have a4 : (fld w 52 1 == 1) = g.neg := by
    cases hn : g.neg <;> rw [hn] at a3
    · simp only [beq_eq_false_iff_ne, ne_eq]; intro h; rw [h] at a3; exact absurd a3 (by decide)
    · simp only [beq_iff_eq]; exact BitVec.eq_of_toNat_eq a3
  rw [a4]

theorem putTop_lt (op : BitVec 8) (g : Guard) : putTop op g + 2 ^ 52 ≤ 2 ^ 64 := by
  rw [putTop_eq]
  have h1 := op.isLt
  have h2 := g.g.isLt
  have h3 : g.neg.toNat < 2 := by cases g.neg <;> decide
  omega

variable (op : BitVec 8) (g : Guard)

theorem putR_toNat (f : FmtR) : (putR op g f).toNat = putTop op g +
    (f.sd.toNat * 2 ^ 47 + f.sa.toNat * 2 ^ 42 + f.sb.toNat * 2 ^ 37 + f.sc.toNat * 2 ^ 32 + f.fn.toNat * 2 ^ 24 + f.low.toNat) := by
  have := putTop_lt op g
  have h1 := f.sd.isLt; have h2 := f.sa.isLt; have h3 := f.sb.isLt; have h4 := f.sc.isLt; have h5 := f.fn.isLt; have h6 := f.low.isLt
  simp only [putR, plc, BitVec.toNat_ofNat]
  rw [Nat.mod_eq_of_lt (by omega)]
  omega

theorem putI_toNat (f : FmtI) : (putI op g f).toNat = putTop op g +
    (f.sd.toNat * 2 ^ 47 + f.sa.toNat * 2 ^ 42 + f.sz.toNat * 2 ^ 40 + f.fn.toNat * 2 ^ 32 + f.imm.toNat) := by
  have := putTop_lt op g
  have h1 := f.sd.isLt; have h2 := f.sa.isLt; have h3 := f.sz.isLt; have h5 := f.fn.isLt; have h6 := f.imm.isLt
  simp only [putI, plc, BitVec.toNat_ofNat]
  rw [Nat.mod_eq_of_lt (by omega)]
  omega

theorem putB_toNat (f : FmtB) : (putB op g f).toNat = putTop op g +
    (f.sa.toNat * 2 ^ 47 + f.sb.toNat * 2 ^ 42 + f.cond.toNat * 2 ^ 38 + f.low.toNat * 2 ^ 32 + f.off.toNat) := by
  have := putTop_lt op g
  have h2 := f.sa.isLt; have h3 := f.sb.isLt; have h5 := f.cond.isLt; have h6 := f.low.isLt; have h7 := f.off.isLt
  simp only [putB, plc, BitVec.toNat_ofNat]
  rw [Nat.mod_eq_of_lt (by omega)]
  omega

theorem putS_toNat (f : FmtS) : (putS op g f).toNat = putTop op g +
    (f.sd.toNat * 2 ^ 47 + f.sa.toNat * 2 ^ 42 + f.sb.toNat * 2 ^ 37 + f.dr.toNat * 2 ^ 33 + f.q.toNat * 2 ^ 26 + f.fn.toNat * 2 ^ 18 + f.opt.toNat) := by
  have := putTop_lt op g
  have h1 := f.sd.isLt; have h2 := f.sa.isLt; have h3 := f.sb.isLt; have h4 := f.dr.isLt; have h5 := f.q.isLt; have h6 := f.fn.isLt
  have h7 := f.opt.isLt
  simp only [putS, plc, BitVec.toNat_ofNat]
  rw [Nat.mod_eq_of_lt (by omega)]
  omega

theorem putY_toNat (f : FmtY) : (putY op g f).toNat = putTop op g +
    (f.sd.toNat * 2 ^ 47 + f.sa.toNat * 2 ^ 42 + f.fn.toNat * 2 ^ 32 + f.imm.toNat) := by
  have := putTop_lt op g
  have h1 := f.sd.isLt; have h2 := f.sa.isLt; have h5 := f.fn.isLt; have h6 := f.imm.isLt
  simp only [putY, plc, BitVec.toNat_ofNat]
  rw [Nat.mod_eq_of_lt (by omega)]
  omega

theorem top_putR (f : FmtR) : fld (putR op g f) 56 8 = op ∧ (⟨fld (putR op g f) 53 3, fld (putR op g f) 52 1 == 1⟩ : Guard) = g := by
  have h1 := f.sd.isLt; have h2 := f.sa.isLt; have h3 := f.sb.isLt; have h4 := f.sc.isLt; have h5 := f.fn.isLt; have h6 := f.low.isLt
  exact top_of op g _ (by omega) _ (putR_toNat op g f)

theorem top_putI (f : FmtI) : fld (putI op g f) 56 8 = op ∧ (⟨fld (putI op g f) 53 3, fld (putI op g f) 52 1 == 1⟩ : Guard) = g := by
  have h1 := f.sd.isLt; have h2 := f.sa.isLt; have h3 := f.sz.isLt; have h5 := f.fn.isLt; have h6 := f.imm.isLt
  exact top_of op g _ (by omega) _ (putI_toNat op g f)

theorem top_putB (f : FmtB) : fld (putB op g f) 56 8 = op ∧ (⟨fld (putB op g f) 53 3, fld (putB op g f) 52 1 == 1⟩ : Guard) = g := by
  have h2 := f.sa.isLt; have h3 := f.sb.isLt; have h5 := f.cond.isLt; have h6 := f.low.isLt; have h7 := f.off.isLt
  exact top_of op g _ (by omega) _ (putB_toNat op g f)

theorem top_putS (f : FmtS) : fld (putS op g f) 56 8 = op ∧ (⟨fld (putS op g f) 53 3, fld (putS op g f) 52 1 == 1⟩ : Guard) = g := by
  have h1 := f.sd.isLt; have h2 := f.sa.isLt; have h3 := f.sb.isLt; have h4 := f.dr.isLt; have h5 := f.q.isLt; have h6 := f.fn.isLt
  have h7 := f.opt.isLt
  exact top_of op g _ (by omega) _ (putS_toNat op g f)

theorem top_putY (f : FmtY) : fld (putY op g f) 56 8 = op ∧ (⟨fld (putY op g f) 53 3, fld (putY op g f) 52 1 == 1⟩ : Guard) = g := by
  have h1 := f.sd.isLt; have h2 := f.sa.isLt; have h5 := f.fn.isLt; have h6 := f.imm.isLt
  exact top_of op g _ (by omega) _ (putY_toNat op g f)

theorem getR_putR (f : FmtR) : getR (putR op g f) = f := by
  obtain ⟨sd, sa, sb, sc, fn, low⟩ := f
  have h0 := sd.isLt; have h1 := sa.isLt; have h2 := sb.isLt; have h3 := sc.isLt; have h4 := fn.isLt; have h5 := low.isLt
  have e := putR_toNat op g ⟨sd, sa, sb, sc, fn, low⟩
  rw [putTop_eq] at e
  dsimp only at e
  unfold getR
  congr 1 <;> exact BitVec.eq_of_toNat_eq (by rw [fld_toNat, e]; omega)

theorem getI_putI (f : FmtI) : getI (putI op g f) = f := by
  obtain ⟨sd, sa, sz, fn, imm⟩ := f
  have h0 := sd.isLt; have h1 := sa.isLt; have h2 := sz.isLt; have h3 := fn.isLt; have h4 := imm.isLt
  have e := putI_toNat op g ⟨sd, sa, sz, fn, imm⟩
  rw [putTop_eq] at e
  dsimp only at e
  unfold getI
  congr 1 <;> exact BitVec.eq_of_toNat_eq (by rw [fld_toNat, e]; omega)

theorem getB_putB (f : FmtB) : getB (putB op g f) = f := by
  obtain ⟨sa, sb, cond, low, off⟩ := f
  have h0 := sa.isLt; have h1 := sb.isLt; have h2 := cond.isLt; have h3 := low.isLt; have h4 := off.isLt
  have e := putB_toNat op g ⟨sa, sb, cond, low, off⟩
  rw [putTop_eq] at e
  dsimp only at e
  unfold getB
  congr 1 <;> exact BitVec.eq_of_toNat_eq (by rw [fld_toNat, e]; omega)

theorem getS_putS (f : FmtS) : getS (putS op g f) = f := by
  obtain ⟨sd, sa, sb, dr, q, fn, opt⟩ := f
  have h0 := sd.isLt; have h1 := sa.isLt; have h2 := sb.isLt; have h3 := dr.isLt; have h4 := q.isLt; have h5 := fn.isLt; have h6 := opt.isLt
  have e := putS_toNat op g ⟨sd, sa, sb, dr, q, fn, opt⟩
  rw [putTop_eq] at e
  dsimp only at e
  unfold getS
  congr 1 <;> exact BitVec.eq_of_toNat_eq (by rw [fld_toNat, e]; omega)

theorem getY_putY (f : FmtY) : getY (putY op g f) = f := by
  obtain ⟨sd, sa, fn, imm⟩ := f
  have h0 := sd.isLt; have h1 := sa.isLt; have h2 := fn.isLt; have h3 := imm.isLt
  have e := putY_toNat op g ⟨sd, sa, fn, imm⟩
  rw [putTop_eq] at e
  dsimp only at e
  unfold getY
  congr 1 <;> exact BitVec.eq_of_toNat_eq (by rw [fld_toNat, e]; omega)

theorem getF_putF (f : FabOp) : getF (putF f) = f := by
  obtain ⟨op, fmt, rnd, sat, t0, t1, ik, imm, x⟩ := f
  have h0 := op.isLt; have h1 := fmt.isLt; have h2 := rnd.isLt; have h3 := t0.isLt; have h4 := t1.isLt; have h5 := ik.isLt
  have h6 := imm.isLt; have h7 := x.isLt
  have h8 : sat.toNat < 2 := by cases sat <;> decide
  have e : (putF ⟨op, fmt, rnd, sat, t0, t1, ik, imm, x⟩).toNat = op.toNat * 2 ^ 56 + fmt.toNat * 2 ^ 52 + rnd.toNat * 2 ^ 49 +
      sat.toNat * 2 ^ 48 + t0.toNat * 2 ^ 38 + t1.toNat * 2 ^ 28 + ik.toNat * 2 ^ 26 + imm.toNat * 2 ^ 10 + x.toNat := by
    have es : (if sat = true then 2 ^ 48 else 0) = sat.toNat * 2 ^ 48 := by cases sat <;> rfl
    simp only [putF, plc, es, BitVec.toNat_ofNat]
    rw [Nat.mod_eq_of_lt (by omega)]
    omega
  have a3 : (fld (putF ⟨op, fmt, rnd, sat, t0, t1, ik, imm, x⟩) 48 1).toNat = sat.toNat := by rw [fld_toNat, e]; omega
  have a4 : (fld (putF ⟨op, fmt, rnd, sat, t0, t1, ik, imm, x⟩) 48 1 == 1) = sat := by
    cases hn : sat <;> rw [hn] at a3
    · simp only [beq_eq_false_iff_ne, ne_eq]; intro h; rw [h] at a3; exact absurd a3 (by decide)
    · simp only [beq_iff_eq]; exact BitVec.eq_of_toNat_eq a3
  unfold getF
  rw [a4]
  congr 1
  · exact BitVec.eq_of_toNat_eq (by rw [fld_toNat, e]; omega)
  · congr 1 <;> exact BitVec.eq_of_toNat_eq (by rw [fld_toNat, e]; omega)

theorem putF_getF (w : Word) : putF (getF w) = w := by
  have hw := w.isLt
  apply BitVec.eq_of_toNat_eq
  have es : (if (getF w).w.sat = true then 2 ^ 48 else 0) = (fld w 48 1).toNat * 2 ^ 48 := by
    have : (fld w 48 1).toNat < 2 := (fld w 48 1).isLt
    split
    · rename_i h; have h' : fld w 48 1 = 1 := by simpa [getF] using h
      rw [h']; rfl
    · rename_i h
      have : (fld w 48 1).toNat ≠ 1 := fun h1 => h (by simpa [getF] using BitVec.eq_of_toNat_eq h1)
      omega
  unfold putF
  rw [es]
  simp only [getF, plc, BitVec.toNat_ofNat, fld_toNat]
  omega

/-- A control word's decoding, from that of its operation. -/
theorem decodeCtl_of {w : Word} {g : Guard} {i : Instr} (h : (⟨fld w 53 3, fld w 52 1 == 1⟩ : Guard) = g) (hg : g.neg = true → g.g ≠ 0)
    (hi : decOp w = some i) : decodeCtl w = some (g, i) := by
  subst h
  unfold decodeCtl
  dsimp only
  rw [if_neg (fun hh => hg hh.1 hh.2), hi]
  rfl

end Sys2Proof
end

