-- ==== Sys2Proof/Laws/Fabric.lean ====
section
/-! SUPPORT. What the shared steps of fabric slots do: what sending and taking tokens leaves unchanged, when a slot's turn goes on, and the result of an element operation, of a router operator and of a passed token (R117, R195, R199). -/

namespace Sys2Proof.Machine

open Sys2Proof

/-! ### What tokens leave unchanged -/

/-- What only changes tasks and the next identity, without a change of a thread. -/
def TasksOnly (s t : State) : Prop := ({ t with tasks := s.tasks, nextId := s.nextId } : State) = s

theorem TasksOnly.refl (s : State) : TasksOnly s s := rfl
theorem TasksOnly.trans {s t u : State} (h : TasksOnly s t) (g : TasksOnly t u) : TasksOnly s u := by
  unfold TasksOnly at *
  rw [← h, ← g]
theorem tasksOnly_modTask (s : State) (id : Nat) (f : Task → Task) : TasksOnly s (s.modTask id f) := rfl
theorem tasksOnly_modInst (s : State) (b : BlkRef) (f : Inst → Inst) : TasksOnly s (s.modInst b f) := rfl
theorem tasksOnly_push {s u : State} {b : BlkRef} {key cap : Nat} {t : Token} (h : s.push b key cap t = some u) : TasksOnly s u := by
  unfold State.push at h
  split at h
  · cases h
  · cases h; rfl
theorem tasksOnly_toGate {s u : State} {a b c d e : Nat} {p : Word} {k : Bool} (h : s.toGate a b c d e p k = some u) : TasksOnly s u := by
  unfold State.toGate at h
  repeat' split at h
  all_goals cases h
  rfl
theorem tasksOnly_sendTo {s u : State} {f : Fab} {x : BitVec 10} {t : Token} (h : s.sendTo f x t = some u) : TasksOnly s u := by
  unfold State.sendTo at h
  split at h
  · cases h; rfl
  · exact tasksOnly_push h
  · split at h
    · cases h; rfl
    · exact tasksOnly_toGate h
theorem tasksOnly_sendAll {s u : State} {f : Fab} {l : List (BitVec 10 × Token)} (h : s.sendAll f l = some u) : TasksOnly s u := by
  induction l generalizing s with
  | nil => cases h; rfl
  | cons p l ih =>
    unfold State.sendAll at h
    split at h
    · cases h
    · rename_i h1
      exact (tasksOnly_sendTo h1).trans (ih h)
theorem tasksOnly_take (s : State) (f : Fab) (l : List (Nat × Token)) : TasksOnly s (l.foldl (fun (s : State) p => s.take f p.1) s) := by
  induction l generalizing s with
  | nil => rfl
  | cons p l ih => exact (tasksOnly_modInst s _ _).trans (ih _)
theorem tasksOnly_countTurn (s : State) (f : Fab) : TasksOnly s (s.countTurn f) := by
  unfold State.countTurn; split <;> rfl
theorem tasksOnly_noteO (s : State) (f : Fab) (l : List (Nat × Token)) : TasksOnly s (s.noteO f l) := by
  unfold State.noteO; dsimp only; split <;> rfl
theorem tasksOnly_takeAll (s : State) (f : Fab) (l : List (Nat × Token)) : TasksOnly s (s.takeAll f l) := by
  have h := (tasksOnly_take s f l).trans (tasksOnly_noteO _ f l)
  unfold State.takeAll
  dsimp only
  split
  · exact h
  · exact h.trans (tasksOnly_countTurn _ f)
theorem tasksOnly_raise (s : State) (f : Fab) (w : Nat) (fl : FlagSet) : TasksOnly s (s.raise f w fl) := by
  unfold State.raise; split <;> rfl

theorem fabricFrame_of {s t : State} (h : TasksOnly s t) : FabricFrame s t := by
  refine ⟨?_, ?_, ?_⟩
  · rw [← h]
  · intro j; rw [← h]; rfl
  · intro a; rw [← h]; rfl

theorem fabricFrame_stepPhase {s t : State} (f : Fab) (h : FabricFrame s t) : FabricFrame s (t.stepPhase f) := by
  obtain ⟨h1, h2, h3⟩ := h
  refine ⟨h1, fun j => ?_, h3⟩
  rw [← h2 j, State.stepPhase, sec_modSec]
  split
  · rename_i e; subst e; rfl
  · rfl

theorem firedState_frame {s u : State} {f : Fab} {l0} (h : s.sendAll f l0 = some u) (l : List (Nat × Token)) (fl : FlagSet) :
    FabricFrame s (firedState u f l fl) := by
  have := ((tasksOnly_sendAll h).trans (tasksOnly_takeAll u f l)).trans (tasksOnly_raise _ f (waveOf l) fl)
  unfold firedState
  split
  · exact fabricFrame_stepPhase f (fabricFrame_of this)
  · exact fabricFrame_of this

theorem eosOf_none {l : List (Nat × Token)} (h : NoEos l) : eosOf l = none := by
  unfold eosOf
  rw [if_neg]
  simp only [List.any_eq_true, List.mem_filter, not_exists, not_and, decide_eq_true_eq]
  rintro p ⟨h1, h2⟩ h3
  exact h p h1 h2 (by simpa using h3)

theorem fabric_acts {s : State} {w : FabW} {f : Fab} (h : SlotActs s w f) (go : Fab → Fire) :
    s.fabric w go = match go f with
      | .wait => .next s
      | .fault c wave elem => .next (s.regionFault f c wave elem)
      | .done t => .next t := by
  obtain ⟨h1, h2⟩ := h
  cases h : go f <;> simp [State.fabric, h1, h2, h]

theorem any_poison {l : List (Nat × Token)} (h : ∀ p ∈ l, p.2.poison = false) : (l.any fun p => p.2.poison) = false := by
  simpa [List.any_eq_false] using h

theorem checked_go {s : State} {f : Fab} {need l} (h1 : s.heads f [0,1,2,3] = some l) (h2 : l ≠ []) (h3 : ∀ p ∈ l, p.2.poison = false) (h4 : NoEos l)
    (h5 : tagsOk need l = true) (go) : s.checked f need go = go l := by
  have : l.isEmpty = false := by simpa using h2
  unfold State.checked
  rw [h1]
  simp only [this, eosOf_none h4, any_poison h3, h5]
  simp

theorem fireElem_sent {s : State} {w : FabW} {f : Fab} {need l u} (h : FiresOn s w f need l) (hd : s.ditherLate f = false) (go : Pay → Pay → Pay → Nat → Made)
    (hu : s.sendAll f (f.both (dataToken (go (f.operand l 0) (f.operand l 1) (f.operand l 2) (s.phaseOf f)).tag (go (f.operand l 0) (f.operand l 1) (f.operand l 2) (s.phaseOf f)).pay (waveOf l))) = some u) :
    s.fireElem f need go = .done (firedState u f l (go (f.operand l 0) (f.operand l 1) (f.operand l 2) (s.phaseOf f)).fl) := by
  obtain ⟨h1, ⟨h2, h3, h4⟩, h5, h6⟩ := h
  unfold State.fireElem
  rw [if_neg (by simp [hd]), checked_go h2 h3 h4 h5 h6]
  simp only [hu, Fire.sent]
  rfl

theorem elementResult_of {s : State} {i : Instr} {w : FabW} {need make} (h : exec i s = s.fabric w fun f => s.fireElem f need make) :
    ElementResult s i w need make := by
  intro f l u hf hd m hu
  refine ⟨?_, firedState_frame hu _ _⟩
  rw [h, fabric_acts hf.1, fireElem_sent hf hd make hu]
/-! ### Tasks, instances and operator states -/

theorem find_map_id {l : List Task} {f : Task → Task} {id k : Nat} (h : ∀ t : Task, (f t).id = t.id) :
    (l.map fun t => if t.id = id then f t else t).find? (fun x => x.id == k) = (l.find? fun x => x.id == k).map fun t => if t.id = id then f t else t := by
  induction l with
  | nil => rfl
  | cons t l ih =>
    have e : (if t.id = id then f t else t).id = t.id := by split <;> simp [h]
    simp only [List.map_cons, List.find?_cons, e]
    split
    · rfl
    · exact ih

/-- A task after a change of one. -/
theorem task_modTask (s : State) (id k : Nat) (f : Task → Task) (h : ∀ t : Task, (f t).id = t.id) :
    (s.modTask id f).task? k = if k = id then (s.task? k).map f else s.task? k := by
  show (List.map _ s.tasks).find? _ = _
  rw [find_map_id h]
  show (s.task? k).map _ = _
  by_cases hk : k = id
  · rw [if_pos hk]
    cases ht : s.task? k with
    | none => rfl
    | some t =>
      have := List.find?_some ht
      simp at this
      simp [this, hk]
  · rw [if_neg hk]
    cases ht : s.task? k with
    | none => rfl
    | some t =>
      have := List.find?_some ht
      simp at this
      simp [this, hk]

/-- An image instance after a change of its own. -/
theorem inst_modInst (s : State) (b : BlkRef) (f : Inst → Inst) : (s.modInst b f).inst? b = (s.inst? b).map f := by
  unfold State.inst? State.modInst
  rw [task_modTask _ _ _ _ (by intro t; rfl), if_pos rfl]
  cases s.task? b.task with
  | none => rfl
  | some t => simp

theorem opSt_take (s : State) (f : Fab) (p : Nat) : (s.take f p).opSt f = s.opSt f := by
  unfold State.take State.opSt State.instOf
  rw [inst_modInst]
  cases s.inst? f.b <;> rfl

theorem opSt_countTurn (s : State) (f : Fab) : (s.countTurn f).opSt f = s.opSt f := by
  unfold State.countTurn
  split
  · unfold State.opSt State.instOf
    rw [inst_modInst]
    cases s.inst? f.b <;> rfl
  · rfl

theorem opSt_takes (s : State) (f : Fab) (l : List (Nat × Token)) : (l.foldl (fun (s : State) p => s.take f p.1) s).opSt f = s.opSt f := by
  induction l generalizing s with
  | nil => rfl
  | cons p l ih => exact (ih _).trans (opSt_take s f p.1)

/-- Where no EOS stands at o, nothing is noted. -/
theorem noteO_none (s : State) (f : Fab) {l : List (Nat × Token)} (h : ∀ p ∈ l, p.1 = 3 → p.2.kind ≠ .eos) : s.noteO f l = s := by
  have : (l.filter fun p => p.1 == 3 && p.2.kind == .eos) = [] := by
    simp only [List.filter_eq_nil_iff, Bool.and_eq_true, beq_iff_eq, not_and]
    exact fun p hp h3 => h p hp h3
  simp [State.noteO, this]

theorem opSt_takeAll (s : State) (f : Fab) {l : List (Nat × Token)} (hl : ∀ p ∈ l, p.1 = 3 → p.2.kind ≠ .eos) : (s.takeAll f l).opSt f = s.opSt f := by
  have h := opSt_takes s f l
  unfold State.takeAll
  rw [noteO_none _ f hl]
  dsimp only
  split
  · exact h
  · exact (opSt_countTurn _ f).trans h

theorem tasksOnly_setOpSt (s : State) (f : Fab) (o : OpSt) : TasksOnly s (s.setOpSt f o) := rfl

theorem passedState_frame {s u : State} {f : Fab} {l0} (h : s.sendAll f l0 = some u) (l : List (Nat × Token)) (o : OpSt) :
    FabricFrame s (passedState u f l o) :=
  fabricFrame_of ((tasksOnly_sendAll h).trans ((tasksOnly_takeAll u f l).trans (tasksOnly_setOpSt _ f _)))

theorem fireAt_go {s : State} {f : Fab} {poss l} (h : TokensAt s f (poss ++ [3]) l) (go) : s.fireAt f poss go = go l := by
  obtain ⟨h1, h2, h3⟩ := h
  have : l.isEmpty = false := by simpa using h2
  unfold State.fireAt
  rw [h1]
  simp [this, any_poison h3]

theorem passes_of {s : State} {i : Instr} {w : FabW} {f : Fab} {l out o} {go} (ha : SlotActs s w f) (h : exec i s = s.fabric w go) (e : go f = s.pass f l out o) :
    Passes s i f l out o := by
  intro u hu
  refine ⟨?_, passedState_frame hu _ _⟩
  rw [h, fabric_acts ha, e, State.pass, hu]
  rfl
end Sys2Proof.Machine
end

