-- ==== Sys2Proof/Tests/Slice0.lean ====
section
/-! SUPPORT. The model's own tests: words that the spec's tables write out and what they decode to, ill-formed terms that wellFormed refuses, states and operands that meet the hypotheses of each statement, and single steps whose results the spec's own tables and worked examples give. -/

namespace Sys2Proof.Tests

open Sys2Proof Sys2Proof.Machine

set_option Elab.async false

/-! ### Words and ill-formed terms -/

theorem test_word_add : decodeCtl 0x0101844000000000 = some (⟨0, false⟩, .add 3 1 2) := by decide
theorem test_word_sub : decodeCtl 0x014294C001000000 = some (⟨2, false⟩, .sub 5 5 6) := by decide
theorem test_word_cmp : decodeCtl 0x0C0190A004000000 = some (⟨0, false⟩, .cmp .ltn 3 4 5) := by decide
theorem test_word_addi : decodeCtl 0x02518C00FFFFFFFF = some (⟨2, true⟩, .addi 3 3 0xFFFFFFFF) := by decide
theorem test_word_li : decodeCtl 0x0A04800012345678 = some (⟨0, false⟩, .li 9 0x12345678) := by decide
theorem test_word_lhi : decodeCtl 0x0B04A400000000AB = some (⟨0, false⟩, .lhi 9 9 0xAB) := by decide
theorem test_word_ld : decodeCtl 0x3003920000000040 = some (⟨0, false⟩, .ld .w 7 4 0x40) := by decide
theorem test_word_st : decodeCtl 0x31049300FFFFFFF8 = some (⟨0, false⟩, .st .d 9 4 0xFFFFFFF8) := by decide
theorem test_word_bcc : decodeCtl 0x24008880FFFFFFFD = some (⟨0, false⟩, .bcc .lt 1 2 0xFFFFFFFD) := by decide
theorem test_word_j : decodeCtl 0x2000000000000005 = some (⟨0, false⟩, .j 5) := by decide
theorem test_word_sbind_rd : decodeCtl 0x5400000610000000 = some (⟨0, false⟩, .sbindRd 4 3 0 false) := by decide
theorem test_word_svc : decodeCtl 0x8200000000000011 = some (⟨0, false⟩, .svc 17) := by decide
theorem test_word_halt : decodeCtl 0x8500000000000000 = some (⟨0, false⟩, .halt) := by decide
theorem test_word_sel : decodeCtl 0x0101844217000000 = some (⟨0, false⟩, .sel 3 2 1 2) := by decide
theorem test_word_shli : decodeCtl 0x0602080000000003 = some (⟨0, false⟩, .shli 4 2 3) := by decide
theorem test_word_cmpi : decodeCtl 0x0D009C07FFFFFFFB = some (⟨0, false⟩, .cmpi .gt 1 7 0xFFFFFFFB) := by decide
theorem test_word_pandn : decodeCtl 0x0E02044003000000 = some (⟨0, false⟩, .pandn 4 1 2) := by decide
theorem test_word_sbind_rd_eos : decodeCtl 0x5400000400000001 = some (⟨0, false⟩, .sbindRd 0 2 0 true) := by decide
theorem test_word_sbind_wr : decodeCtl 0x5400180A24040000 = some (⟨0, false⟩, .sbindWr 9 5 6) := by decide
theorem test_word_sbar : decodeCtl 0x5500000010000000 = some (⟨0, false⟩, .sbar (.port 4)) := by decide
theorem test_word_sbar_all : decodeCtl 0x5500000000000001 = some (⟨0, false⟩, .sbar .all) := by decide
theorem test_word_seos : decodeCtl 0x5604000010000000 = some (⟨0, false⟩, .seos 8 4) := by decide
theorem test_word_tinj_data : decodeCtl 0x570014C010000005 = some (⟨0, false⟩, .tinjData 4 5 6 5 false) := by decide
theorem test_word_tinj_thread : decodeCtl 0x57001C4000040000 = some (⟨0, false⟩, .tinjThread 7 2) := by decide
theorem test_word_sstat : decodeCtl 0x5905000010000000 = some (⟨0, false⟩, .sstat 10 4) := by decide
theorem test_word_jal : decodeCtl 0x2100000000000010 = some (⟨0, false⟩, .jal 16) := by decide
theorem test_word_jr : decodeCtl 0x22007C0000000000 = some (⟨0, false⟩, .jr 31) := by decide
theorem test_word_jalr : decodeCtl 0x2304900000000000 = some (⟨0, false⟩, .jalr 9 4) := by decide
theorem test_word_bcc_gen : decodeCtl 0x2421914000000009 = some (⟨1, false⟩, .bcc .gen 3 4 9) := by decide
theorem test_word_loop : decodeCtl 0x25038000FFFFFFFC = some (⟨0, false⟩, .loop 7 0xFFFFFFFC) := by decide
theorem test_word_gbar : decodeCtl 0x7200000000000000 = some (⟨0, false⟩, .gbar) := by decide
theorem test_word_sig : decodeCtl 0x7300000000000003 = some (⟨0, false⟩, .sig 3) := by decide
theorem test_word_nop : decodeCtl 0x8800000000000000 = some (⟨0, false⟩, .nop) := by decide
theorem test_word_cfgld : decodeCtl 0x5004A00600000000 = some (⟨0, false⟩, .cfgld 9 3 8) := by decide
theorem test_word_cfgarm : decodeCtl 0x5105000000000000 = some (⟨0, false⟩, .cfgarm 10) := by decide
theorem test_word_cfgsw : decodeCtl 0x5205000000000000 = some (⟨0, false⟩, .cfgsw 10) := by decide
theorem test_word_sdrain : decodeCtl 0x5305800000000000 = some (⟨0, false⟩, .sdrain 11) := by decide
theorem test_word_sdrain_go : decodeCtl 0x5305800000000001 = some (⟨0, false⟩, .sdrainGo 11) := by decide
theorem test_word_mark : decodeCtl 0x5802800000000000 = some (⟨0, false⟩, .mark 5) := by decide
theorem test_word_pwrq_d : decodeCtl 0x8700140000000003 = some (⟨0, false⟩, .pwrq .d 5) := by decide
theorem test_word_ldn : decodeCtl 0x3003090100000006 = some (⟨0, false⟩, .ldn .h 6 2 6) := by decide
theorem test_word_st_b : decodeCtl 0x3103880000000003 = some (⟨0, false⟩, .st .b 7 2 3) := by decide
theorem test_word_amo_add : decodeCtl 0x350190A003000000 = some (⟨0, false⟩, .amo .add true 3 4 5) := by decide
theorem test_word_amo_cas : decodeCtl 0x350190A692000000 = some (⟨0, false⟩, .amoCas false 3 4 5 6) := by decide
theorem test_word_ldv : decodeCtl 0x320298E004000000 = some (⟨0, false⟩, .ldv .module 5 6 7) := by decide
theorem test_word_stv : decodeCtl 0x3300192002000000 = some (⟨0, false⟩, .stv .gang 6 9) := by decide
theorem test_word_vrcl : decodeCtl 0x3400190000000000 = some (⟨0, false⟩, .vrcl 6 8) := by decide
theorem test_word_fence : decodeCtl 0x3600000400000000 = some (⟨0, false⟩, .fence .module) := by decide
theorem test_word_fence_layer : decodeCtl 0x3600001000000000 = some (⟨0, false⟩, .fenceLayer) := by decide
theorem test_word_pfch : decodeCtl 0x3700100000000080 = some (⟨0, false⟩, .pfch 4 0x80) := by decide
theorem test_word_tmap : decodeCtl 0x6000000400008000 = some (⟨0, false⟩, .tmap 2 (.const 0)) := by decide
theorem test_word_tmap_win : decodeCtl 0x6000000600048001 = some (⟨0, false⟩, .tmapWin 3 (.const 1)) := by decide
theorem test_word_cpy : decodeCtl 0x6104A80410000000 = some (⟨0, false⟩, .cpy 9 4 2 10 0 .mem) := by decide
theorem test_word_publ : decodeCtl 0x6405B1A800000000 = some (⟨0, false⟩, .publ 11 4 12 13) := by decide
theorem test_word_rstr : decodeCtl 0x6704A96014000000 = some (⟨0, false⟩, .rstr 9 5 10 11) := by decide
theorem test_word_coll : decodeCtl 0x6804A80414000027 = some (⟨0, false⟩, .collSum 7 .gang 9 5 2 10 0) := by decide
theorem test_word_twait_rel : decodeCtl 0x7000140001000000 = some (⟨0, false⟩, .twaitRel 5) := by decide
theorem test_word_bmwait : decodeCtl 0x71001D0900000000 = some (⟨0, false⟩, .bmwait 7 8 9) := by decide
theorem test_word_rwait : decodeCtl 0x74029C0C00000000 = some (⟨0, false⟩, .rwaitFill 5 6 7) := by decide
theorem test_word_radv : decodeCtl 0x7500200C00040000 = some (⟨0, false⟩, .radvFree 0 6 8) := by decide
theorem test_word_inst : decodeCtl 0x6504A96410000103 = some (⟨0, false⟩, .inst 9 4 2 10 11 (some 3)) := by decide
theorem test_word_stage : decodeCtl 0x6604816414000000 = some (⟨0, false⟩, .stage 9 5 2 11 none) := by decide
theorem test_word_sysrd : decodeCtl 0x8002800000000004 = some (⟨0, false⟩, .sysrd 5 .flags) := by decide
theorem test_word_syswr : decodeCtl 0x8100240000000011 = some (⟨0, false⟩, .syswr .trappc 9) := by decide
theorem test_word_tinv : decodeCtl 0x8600100400000000 = some (⟨0, false⟩, .tinv .module 4) := by decide
theorem test_word_trap : decodeCtl 0x836000000000001F = some (⟨3, false⟩, .trap 0x1F) := by decide
theorem test_word_tret : decodeCtl 0x8400000000000000 = some (⟨0, false⟩, .tret) := by decide
theorem test_fabword_vadd : decodeFab 0x0150053FF0000000 = some (.vadd ⟨5, 0, false, 0x014, 0x3FF, 0, 0, 0⟩) := by decide
theorem test_fabword_ffma : decodeFab 0x2381050250000000 = some (.ffma ⟨8, 0, true, 0x014, 0x025, 0, 0, 0⟩) := by decide
theorem test_fabword_vadd_imm : decodeFab 0x0150823FF4000C00 = some (.vadd ⟨5, 0, false, 0x208, 0x3FF, 1, 3, 0⟩) := by decide
theorem test_fabword_fan : decodeFab 0x5500030130000000 = some (.fan ⟨0, 0, false, 0x00C, 0x013, 0, 0, 0⟩) := by decide
theorem test_fabword_vmad : decodeFab 0x0731043FF0000000 = some (.vmad ⟨3, 0, true, 0x010, 0x3FF, 0, 0, 0⟩) := by decide
theorem test_fabword_vcmp : decodeFab 0x155006BFF0000002 = some (.vcmp ⟨5, 0, false, 0x01A, 0x3FF, 0, 0, 2⟩) := by decide
theorem test_fabword_pack : decodeFab 0x31A1037FF0000037 = some (.pack ⟨10, 0, true, 0x00D, 0x3FF, 0, 0, 0x37⟩) := by decide
theorem test_fabword_mma : decodeFab 0x40A0013FFC000200 = some (.mma ⟨10, 0, false, 0x004, 0x3FF, 3, 0, 0x200⟩) := by decide
theorem test_fabword_mdrn : decodeFab 0x4380823FFC000DC5 = some (.mdrn ⟨8, 0, false, 0x208, 0x3FF, 3, 3, 0x1C5⟩) := by decide
theorem test_fabword_mrd : decodeFab 0x42AA033FFC001C00 = some (.mrd ⟨10, 5, false, 0x00C, 0x3FF, 3, 7, 0⟩) := by decide
theorem test_fabword_iter : decodeFab 0x5700024060000000 = some (.iter ⟨0, 0, false, 0x009, 0x006, 0, 0, 0⟩) := by decide
theorem test_fabword_pin : decodeFab 0x7080013FF0000000 = some (.pin ⟨8, 0, false, 0x004, 0x3FF, 0, 0, 0⟩) := by decide
theorem test_fabword_const : decodeFab 0x7470027FFCFE0000 = some (.const ⟨7, 0, false, 0x009, 0x3FF, 3, 0x3F80, 0⟩) := by decide
theorem test_fabword_dly : decodeFab 0x7300033FF0000003 = some (.dly ⟨0, 0, false, 0x00C, 0x3FF, 0, 0, 3⟩) := by decide
theorem test_fabword_mld : decodeFab 0x6080013FF0000001 = some (.mld ⟨8, 0, false, 0x004, 0x3FF, 0, 0, 1⟩) := by decide
theorem test_fabword_mst : decodeFab 0x6100FFFFF0000016 = some (.mst ⟨0, 0, false, 0x3FF, 0x3FF, 0, 0, 0x16⟩) := by decide
theorem test_fabword_matm : decodeFab 0x6200033FF0000010 = some (.matm ⟨0, 0, false, 0x00C, 0x3FF, 0, 0, 0x10⟩) := by decide
theorem test_fabword_otok : decodeFab 0x650006FFF0000004 = some (.otok ⟨0, 0, false, 0x01B, 0x3FF, 0, 0, 4⟩) := by decide
theorem test_illformed_ldn_d : Instr.wellFormed (.ldn .d 1 2 0) = false := by decide
theorem test_illformed_ldv_cell : Instr.wellFormed (.ldv .cell 1 2 3) = false := by decide
theorem test_illformed_stv_cell : Instr.wellFormed (.stv .cell 1 2) = false := by decide
theorem test_illformed_fence_cell : Instr.wellFormed (.fence .cell) = false := by decide
theorem test_illformed_tinv_domain : Instr.wellFormed (.tinv .domain 1) = false := by decide
theorem test_illformed_coll_fmt : Instr.wellFormed (.collSum 12 .gang 1 2 3 4 0) = false := by decide
theorem test_illformed_coll_gang_key : Instr.wellFormed (.collBcast 7 .gang 1 2 3 4 5) = false := by decide
theorem test_illformed_fab_fmt : Instr.wellFormed (.vadd ⟨7, 0, false, 0x3FF, 0x3FF, 0, 0, 0⟩) = false := by decide
theorem test_illformed_fab_rnd : Instr.wellFormed (.fadd ⟨7, 6, false, 0x3FF, 0x3FF, 0, 0, 0⟩) = false := by decide
theorem test_illformed_fab_sat : Instr.wellFormed (.vmin ⟨5, 0, true, 0x3FF, 0x3FF, 0, 0, 0⟩) = false := by decide
theorem test_illformed_fab_ik : Instr.wellFormed (.fldx ⟨7, 0, false, 0x3FF, 0x3FF, 1, 0, 0⟩) = false := by decide
theorem test_illformed_fab_x : Instr.wellFormed (.vcmp ⟨5, 0, false, 0x3FF, 0x3FF, 0, 0, 6⟩) = false := by decide
theorem test_illformed_fab_exit : Instr.wellFormed (.vadd ⟨5, 0, false, 0x201, 0x3FF, 0, 0, 0⟩) = false := by decide
theorem test_illformed_fab_t1 : Instr.wellFormed (.vadd ⟨5, 0, false, 0x3FF, 0x004, 0, 0, 0⟩) = false := by decide
theorem test_illformed_master : Instr.wellFormed (.claim 5 1 false) = false := by decide
theorem test_illformed_layer : Instr.wellFormed (.layerDisable 0 3) = false := by decide

/-! ### A small machine -/

/-- A mapping of 64 KiB: its first address, placement word, frame, and the bits V, R, W, X. -/
def ent (vb pw fr perm : Nat) : RtEnt :=
  { w0 := BitVec.ofNat 64 vb, w1 := 0, w2 := BitVec.ofNat 64 fr, w3 := BitVec.ofNat 64 (perm * 2 ^ 36 + pw) }

/-- A plain, a versioned, a read-duplicated, a read-only and a flash page of context 1. -/
def rt1 : Tab RtEnt :=
  [(0, ent 0x10000 0x11 0 15), (1, ent 0x20000 0x80000011 0x100000 14), (2, ent 0x30000 0x40000011 0x200000 14),
   (3, ent 0x40000 0x11 0x300000 12), (4, ent 0x50000 0x10600001 0 14)]

/-- Context 1. -/
def ctx1 : Ctx := { st := .active, saven := 8, sectmax := 64, rt := rt1, fr := { base := 0x11000 }, sr := { base := 0x10000 } }

/-- Task 1 on an instance of one row of n sectors. -/
def task1 (n : Nat) : Task := { id := 1, launch := 1, ctx := 1, idx := 0, insts := [{ w := n }], nsect := n }

/-- A thread at 0x12000 with registers. -/
def thr (regs : Tab Word) : Thread := { live := true, pc := 0x12000, regs := regs }

/-- A sector of task 1. -/
def sec1 (k : Nat) (t : Thread) : Sector := { v := true, ctx := 1, task := 1, s4 := k, s6 := k, th := t }

/-- The machine with task 1 on one sector, whose thread acts. -/
def one (t : Thread) : Machine.State :=
  { ctxs := [(1, ctx1)], sectors := [(0, sec1 0 t)], tasks := [task1 1], launches := [{ id := 1, q := 0, ctx := 1, st := .running }] }

/-- The machine with task 1 on two sectors; the thread of sector 0 acts. -/
def two (t u : Thread) : Machine.State :=
  { one t with sectors := [(0, sec1 0 t), (1, sec1 1 u)], tasks := [task1 2] }

/-- One sector whose registers s1 to s4 hold values. -/
def regs (a b c d : Word) : Machine.State := one (thr [(1, a), (2, b), (3, c), (4, d)])

/-! ### Witnesses: states and operands that meet the hypotheses of each statement -/

theorem witness_DivisionIdentity : let s := regs 7 0xFFFFFFFFFFFFFFFE 0 0
    (s.rdS 2).toInt ≠ 0 ∧ ¬((s.rdS 1).toInt = -2 ^ 63 ∧ (s.rdS 2).toInt = -1) := by decide
theorem witness_DivisionIdentity_most_negative : let s := regs 0x8000000000000000 1 0 0
    (s.rdS 2).toInt ≠ 0 ∧ ¬((s.rdS 1).toInt = -2 ^ 63 ∧ (s.rdS 2).toInt = -1) := by decide
theorem witness_TransfersSetThePc_target : ((regs 0x7FFFF8 0 0 0).rdS 1).toNat % 8 = 0 ∧ ((regs 0x7FFFFF 0 0 0).rdS 1).toNat % 8 ≠ 0 := by decide
theorem witness_TransfersSetThePc_cond : CondMeans .ge ((regs 5 5 6 0).rdS 1) ((regs 5 5 6 0).rdS 2) ∧
    ¬CondMeans .ge ((regs 5 5 6 0).rdS 1) ((regs 5 5 6 0).rdS 3) := by unfold CondMeans; decide
theorem witness_PlainLoadsReadThePlace : let s := regs 0x1FFF8 0 0 0
    Reaches s (s.rdS 1 + (0 : BitVec 32).signExtend 64) 8 .read ⟨some 0, 0x11, 0, 0xFFF8, 0xFFF8⟩ ∧ s.tgtPoison ⟨some 0, 0x11, 0, 0xFFF8, 0xFFF8⟩ 8 = false := by
  unfold Reaches Quiet; decide
theorem witness_PlainLoadsReadThePlace_scratch : let s := regs 0xFFFFFFFFFFFFFFFC 0 0 0
    Reaches s (s.rdS 1 + (0 : BitVec 32).signExtend 64) 4 .read { off := 0x3FFFFC, phys := scratchAt 0 0x3FFFFC } ∧
    s.tgtPoison { off := 0x3FFFFC, phys := scratchAt 0 0x3FFFFC } 4 = false := by
  unfold Reaches Quiet; decide
theorem witness_PlainStoresWriteThePlace : let s := regs 0x1FFFF 0xAB 0 0
    let t : Tgt := ⟨some 0, 0x11, 0, 0xFFFF, 0xFFFF⟩
    Reaches s (s.rdS 1 + (0 : BitVec 32).signExtend 64) 1 .write t ∧ s.storeBarred t 1 = false ∧ t.rdup = false := by
  unfold Reaches Quiet; decide
theorem witness_PlainStoresWriteThePlace_duplicated : let s := regs 0x30000 0xAB 0 0
    let t : Tgt := ⟨some 2, 0x40000011, 0x200000, 0, 0x200000⟩
    Reaches s (s.rdS 1 + (0 : BitVec 32).signExtend 64) 8 .write t ∧ s.storeBarred t 8 = false ∧ t.rdup = true := by
  unfold Reaches Quiet; decide
theorem witness_AtomicsUpdateThePlace : let s := regs 0x1FFFC 3 0 1
    let t : Tgt := ⟨some 0, 0x11, 0, 0xFFFC, 0xFFFC⟩
    Reaches s (s.rdS 1) 4 .both t ∧ s.storeBarred t 4 = false ∧ s.tgtPoison t 4 = false ∧
    natOf (s.rdTgt t 4) = (s.rdS 3).toNat % 2 ^ 32 ∧ natOf (s.rdTgt t 4) ≠ (s.rdS 4).toNat % 2 ^ 32 := by
  unfold Reaches Quiet; decide
theorem witness_AccessTraps_misaligned : ((regs 0x10001 0 0 0).rdS 1 + (0 : BitVec 32).signExtend 64).toNat % 2 ≠ 0 ∧ ((regs 0x10007 0 0 0).rdS 1).toNat % 8 ≠ 0 := by decide
theorem witness_AccessTraps_fault : let s := regs 0x60000 0 0 0
    let ea := s.rdS 1 + (0 : BitVec 32).signExtend 64
    ea.toNat % 8 = 0 ∧ s.xlate s.ctxId s.cur ea .read = .fault ∧ s.xlate s.ctxId s.cur ea .write = .fault := by decide
theorem witness_AccessTraps_perm : let s := regs 0x40000 0 0 0
    let ea := s.rdS 1 + (0 : BitVec 32).signExtend 64
    ea.toNat % 8 = 0 ∧ s.xlate s.ctxId s.cur ea .write = .perm ∧ (s.rdS 1).toNat % 8 = 0 ∧ s.xlate s.ctxId s.cur (s.rdS 1) .both = .perm := by decide
theorem witness_AccessTraps_perm_read : let s := regs 0x70000 0 0 0
    let u : Machine.State := { s with ctxs := [(1, { ctx1 with rt := [(5, ent 0x70000 0x11 0 8)] })] }
    let ea := u.rdS 1 + (0 : BitVec 32).signExtend 64
    ea.toNat % 8 = 0 ∧ u.xlate u.ctxId u.cur ea .read = .perm := by decide
theorem witness_AccessTraps_fault_both : let s := regs 0x60000 0 0 0
    (s.rdS 1).toNat % 8 = 0 ∧ s.xlate s.ctxId s.cur (s.rdS 1) .both = .fault ∧ (s.rdS 1).toNat % 4 = 0 := by decide
theorem witness_AccessTraps_barred_both : let s := regs 0x20000 0 0 0
    let t : Tgt := ⟨some 1, 0x80000011, 0x100000, 0, 0x100000⟩
    s.xlate s.ctxId s.cur (s.rdS 1) .both = .ok t ∧ s.storeBarred t 4 = true := by decide
theorem witness_AccessTraps_poison : let s : Machine.State := { regs 0x1FFFC 0 0 0 with poison := [(0xFFFC / 64, true)] }
    let t : Tgt := ⟨some 0, 0x11, 0, 0xFFFC, 0xFFFC⟩
    Reaches s (s.rdS 1 + (0 : BitVec 32).signExtend 64) 4 .read t ∧ Reaches s (s.rdS 1) 4 .both t ∧ s.storeBarred t 4 = false ∧ s.tgtPoison t 4 = true := by
  unfold Reaches Quiet; decide
theorem witness_AccessTraps_barred : let s := regs 0x20000 0 0 0
    let t : Tgt := ⟨some 1, 0x80000011, 0x100000, 0, 0x100000⟩
    let ea := s.rdS 1 + (0 : BitVec 32).signExtend 64
    ea.toNat % 8 = 0 ∧ s.xlate s.ctxId s.cur ea .write = .ok t ∧ s.storeBarred t 8 = true := by decide
/-- The object at 0x20000, with versions from its floor to before its next. -/
def obj (floor next : Word) (ver : Word) : Machine.State :=
  ((regs 0x20000 ver 0 0).wrWord 0x100000 next).wrWord 0x100008 floor
/-- Its place. -/
def objT : Tgt := ⟨some 1, 0x80000011, 0x100000, 0, 0x100000⟩
theorem witness_Versions_read : let s := obj 3 7 3
    Reaches s (s.rdS 1) 8 .read objT ∧ objT.ver = true ∧ s.poisonIn objT.line 64 = false ∧ s.vFloor objT.line ≤ (s.rdS 2).toNat ∧
    (s.rdS 2).toNat < s.vNext objT.line := by unfold Reaches Quiet; decide +kernel
theorem witness_Versions_retired : let s := obj 3 7 2
    Reaches s (s.rdS 1) 8 .read objT ∧ objT.ver = true ∧ s.poisonIn objT.line 64 = false ∧ (s.rdS 2).toNat < s.vFloor objT.line := by
  unfold Reaches Quiet; decide +kernel
theorem witness_Versions_to_come : let s := obj 3 7 7
    Reaches s (s.rdS 1) 8 .read objT ∧ objT.ver = true ∧ s.poisonIn objT.line 64 = false ∧ s.vFloor objT.line ≤ (s.rdS 2).toNat ∧
    s.vNext objT.line ≤ (s.rdS 2).toNat := by unfold Reaches Quiet; decide +kernel
theorem witness_Versions_create : let s := obj 3 6 1
    Reaches s (s.rdS 1) 8 .both objT ∧ objT.ver = true ∧ s.poisonIn objT.line 64 = false ∧ s.vNext objT.line - s.vFloor objT.line < 4 ∧
    s.writesDone s.cur = true ∧ s.vNext objT.line + 1 < 2 ^ 64 ∧ NoLaunchWaits s := by unfold Reaches Quiet NoLaunchWaits; decide +kernel
theorem witness_Versions_full : let s := obj 3 7 1
    Reaches s (s.rdS 1) 8 .both objT ∧ objT.ver = true ∧ s.poisonIn objT.line 64 = false ∧ 4 ≤ s.vNext objT.line - s.vFloor objT.line := by
  unfold Reaches Quiet; decide +kernel
theorem witness_Versions_traps : let s := regs 0x60000 0 0 0
    let p : Machine.State := { regs 0x70000 0 0 0 with ctxs := [(1, { ctx1 with rt := [(5, ent 0x70000 0x11 0 8)] })] }
    ((regs 0x20001 0 0 0).rdS 1).toNat % 8 ≠ 0 ∧ (s.rdS 1).toNat % 8 = 0 ∧ s.xlate s.ctxId s.cur (s.rdS 1) .read = .fault ∧ s.xlate s.ctxId s.cur (s.rdS 1) .both = .fault ∧
    (p.rdS 1).toNat % 8 = 0 ∧ p.xlate p.ctxId p.cur (p.rdS 1) .read = .perm ∧ p.xlate p.ctxId p.cur (p.rdS 1) .both = .perm := by decide
theorem witness_Versions_poison : let s : Machine.State := { obj 3 7 3 with poison := [(0x100000 / 64, true)] }
    Reaches s (s.rdS 1) 8 .read objT ∧ Reaches s (s.rdS 1) 8 .both objT ∧ objT.ver = true ∧ s.poisonIn objT.line 64 = true := by unfold Reaches Quiet; decide +kernel
theorem witness_Versions_plain_page : let s := regs 0x10000 0 0 0
    Reaches s (s.rdS 1) 8 .read ⟨some 0, 0x11, 0, 0, 0⟩ ∧ Reaches s (s.rdS 1) 8 .both ⟨some 0, 0x11, 0, 0, 0⟩ ∧
    (⟨some 0, 0x11, 0, 0, 0⟩ : Tgt).ver = false := by unfold Reaches Quiet; decide
/-- A write of sector 0 to a duplicated line that waits for its acknowledgements. -/
def dup0 : DupWrite := ⟨0, 1, 2, 0x30000, 0x200000, [1, 2]⟩
theorem witness_Fences : (∀ d ∈ (regs 0 0 0 0).dups, d.sid ≠ (regs 0 0 0 0).cur) ∧
    ∃ d ∈ ({ regs 0 0 0 0 with dups := [dup0] } : Machine.State).dups, d.sid = (regs 0 0 0 0).cur := by decide
theorem witness_TakingATrap : (regs 0 0 0 0).th.ts = false := by decide
theorem witness_TakingATrap_again : let s := one { thr [] with ts := true }
    s.th.ts = true ∧ s.task? (s.sec s.cur).task = some (task1 1) ∧ (task1 1).runs = true ∧ s.cur ∈ (task1 1).sids := by decide
theorem witness_TrapWords_writes : (regs 0 0 0 0).writesDone 0 = true ∧ ({ regs 0 0 0 0 with dups := [dup0] } : Machine.State).writesDone 0 = false := by decide
theorem witness_TrapWords_tret : (one { thr [] with ts := true }).th.ts = true ∧ (one { thr [] with ts := true }).th.notice = none ∧ (one (thr [])).th.ts = false := by decide
theorem witness_Halt_last : let s := two (thr []) { thr [] with halted := true }
    s.task? (s.sec s.cur).task = some (task1 2) ∧ (task1 2).st = .resident ∧ s.cur ∈ (task1 2).sids ∧
    ∀ j ∈ (task1 2).sids, j ≠ s.cur → (s.sec j).th.halted = true := by decide
theorem witness_Halt_first : let s := two (thr []) (thr [])
    s.task? (s.sec s.cur).task = some (task1 2) ∧ (task1 2).st = .resident ∧ s.cur ∈ (task1 2).sids ∧
    ∃ j ∈ (task1 2).sids, j ≠ s.cur ∧ (s.sec j).th.halted = false := by decide
/-- Context 1 holds all four sectors of rail group 0. -/
def group0 : Machine.State := { one (thr [(1, 0), (2, 16), (3, 31), (4, 32)]) with sectors := [(0, sec1 0 (thr [(1, 0), (2, 16), (3, 31), (4, 32)])), (1, sec1 1 (thr [])), (8, sec1 2 (thr [])), (9, sec1 3 (thr []))] }
theorem witness_Pwrq_no_group : ((group0.rdS 4).toNat ≠ 0 ∧ 32 ≤ (group0.rdS 4).toNat) ∧ ((regs 15 0 0 0).rdS 1).toNat ≠ 0 ∧ ((regs 15 0 0 0).rdS 1).toNat / 16 % 2 = 0 := by decide
/-- Sector 1 belongs to context 2. -/
def group1 : Machine.State := { group0 with sectors := [(0, sec1 0 (thr [(1, 0), (2, 16)])), (1, { sec1 1 (thr []) with ctx := 2 }), (15, { sec1 1 (thr []) with ctx := 2 })] }
theorem witness_Pwrq_not_owned : (group1.rdS 1).toNat = 0 ∧ group1.whollyOwned (railOf group1.cur) (group1.sec group1.cur).ctx = false ∧
    (group1.rdS 2).toNat / 16 % 2 = 1 ∧ (group1.rdS 2).toNat < 32 ∧ group1.whollyOwned 0 (group1.sec group1.cur).ctx = false := by decide
theorem witness_Pwrq_same : let s := group0
    ((s.rdS 2).toNat / 16 % 2 = 1 ∧ (s.rdS 2).toNat < 32) ∧ s.whollyOwned 0 (s.sec s.cur).ctx = true ∧ (s.rail 0).mv = .steady ∧ (s.rail 0).cur = opNum .a := by decide
/-- Group 0 with its rail group in a state, an image in sector 0, and registers of the module. -/
def group2 (r : Rail) (act : Option Share) (x : Regs) : Machine.State :=
  { group0 with rails := [(0, r)], regs := x, sectors := [(0, { sec1 0 (thr [(1, 0)]) with act := act }), (1, sec1 1 (thr [])), (8, sec1 2 (thr [])), (9, sec1 3 (thr []))] }
theorem witness_Pwrq_moving : let s := group2 { mv := .swap, tgt := 2 } none {}
    (s.rdS 1).toNat = 0 ∧ s.whollyOwned 0 (s.sec s.cur).ctx = true ∧ (s.rail 0).mv ≠ .steady := by decide
theorem witness_Pwrq_no_section : let s := group2 {} (some { image := {} }) {}
    s.whollyOwned 0 (s.sec s.cur).ctx = true ∧ (s.rail 0).mv = .steady ∧ (s.rail 0).cur ≠ opNum .b ∧ s.sectionsOk 0 (opNum .b) = false := by decide
theorem witness_Pwrq_starts : let s := group2 { cur := 1 } none { emerg := true }
    s.whollyOwned 0 (s.sec s.cur).ctx = true ∧ (s.rail 0).mv = .steady ∧ s.sectionsOk 0 (opNum .a) = true ∧ s.regs.emerg = true ∧ (group2 { cur := 1 } none {}).regs.emerg = false ∧
    opNum .a < (s.rail 0).cur ∧ (s.rail 0).cur < opNum .c ∧ s.sectionsOk 0 (opNum .c) = true := by decide
theorem witness_TimedWaits : let s : Machine.State := { regs 10 11 0 1 with cyc := 10 }
    (s.rdS 1).toNat ≤ s.cyc ∧ s.cyc < (s.rdS 2).toNat ∧ (∀ d, s.th.wait ≠ .until d) ∧ (s.rdS 3).toNat = 0 ∧ (s.rdS 4).toNat ≠ 0 :=
  ⟨by decide, by decide, fun _ h => (nomatch h), by decide, by decide⟩
theorem witness_TimedWaits_recorded : let s : Machine.State := { one { thr [] with wait := .until 10 } with cyc := 10 }
    let u : Machine.State := { one { thr [] with wait := .until 10 } with cyc := 9 }
    s.th.wait = .until 10 ∧ 10 ≤ s.cyc ∧ u.th.wait = .until 10 ∧ u.cyc < 10 := by decide
/-- Sector 0 with chunk 8191 committed. -/
def chunks (t : Thread) : Machine.State := { one t with sectors := [(0, { sec1 0 t with bitmap := [(8191, true)] })], cyc := 5 }
theorem witness_ChunkWaits_complete : let s := chunks (thr [(1, 8191), (2, 1), (3, 5), (4, 6)])
    MaskComplete s (s.rdS 1) (s.rdS 2) ∧ (s.rdS 3).toNat ≤ s.cyc ∧ s.cyc < (s.rdS 4).toNat := by unfold MaskComplete chunkOf; decide
theorem witness_ChunkWaits_missing : let s := chunks (thr [(1, 8191), (2, 3), (3, 5), (4, 6)])
    ¬MaskComplete s (s.rdS 1) (s.rdS 2) ∧ (s.rdS 3).toNat ≤ s.cyc := by unfold MaskComplete chunkOf; decide
/-- An operation of sector 0, promised for CYC 5 and due at 8 since a save. -/
def op9 (st : EngSt) : EngOp := { id := 9, kind := .cpy, sid := 0, ctx := 1, task := 1, st := st, promise := 5, due := 8 }
/-- Sector 0, whose chunk 0 belongs to that operation. -/
def owned (st : EngSt) : Machine.State :=
  let t := thr [(1, 0), (2, 1), (3, 5)]
  { one t with sectors := [(0, { sec1 0 t with chunkOp := [(0, 9)] })], ops := [op9 st], cyc := 5 }
theorem witness_ChunkWaits_failed : ((owned .failed).rdS 2).getLsbD 0 = true ∧ ChunkOf (owned .failed) (chunkOf ((owned .failed).rdS 1) 0) (op9 .failed) ∧ (op9 .failed).st = .failed :=
  ⟨by decide, ⟨9, by decide, by decide +kernel⟩, rfl⟩
theorem witness_ChunkWaits_outstanding (i : Nat) (o : EngOp) (h : ChunkOf (owned .running) (chunkOf ((owned .running).rdS 1) i) o) : o.st ≠ .failed := by
  obtain ⟨id, -, h⟩ := h
  obtain rfl := List.mem_singleton.1 (List.mem_of_find?_eq_some h)
  decide
theorem witness_ChunkWaits_promise : DeadlineIs (owned .running) ((owned .running).rdS 3).toNat 8 ∧ (owned .running).cyc < 8 :=
  ⟨⟨by decide, fun o h => by obtain rfl := List.mem_singleton.1 h.1; decide, .inr ⟨op9 .running, ⟨List.mem_singleton.2 rfl, by decide, .inl (by decide)⟩, rfl⟩⟩, by decide⟩
theorem witness_ChunkWaits_time : DeadlineIs (chunks (thr [(3, 5)])) ((chunks (thr [(3, 5)])).rdS 3).toNat 5 ∧ 5 ≤ (chunks (thr [(3, 5)])).cyc :=
  ⟨⟨by decide, fun _ h => (nomatch h.1), .inl (by decide)⟩, by decide⟩
theorem witness_Gbar : let s := two (thr []) { thr [] with wait := .met 0 1 }
    s.writesDone s.cur = true ∧ s.cur ∈ s.gangSids ∧ ∀ k ∈ s.gangSids, k ≠ s.cur → (s.sec k).th.reached .gbar (s.th.count .gbar + 1) = true := by decide
theorem witness_Gbar_waits : let s := two (thr []) (thr [])
    s.writesDone s.cur = true ∧ s.cur ∈ s.gangSids ∧ ∃ k ∈ s.gangSids, k ≠ s.cur ∧ (s.sec k).th.reached .gbar (s.th.count .gbar + 1) = false := by decide
theorem witness_Sig : let s : Machine.State := { regs 0 0 0 0 with ctxs := [(1, { ctx1 with sr := { base := 0x10000, head := 0, tail := 15 } })] }
    let ring := (s.ctx s.ctxId).sr
    let va := ring.base.toNat + 16 * (ring.tail.toNat % 2 ^ ring.nlog)
    ring.full = false ∧ s.writesDone s.cur = true ∧ va < 2 ^ 55 ∧ s.xlateV s.ctxId va .write = .ok ⟨some 0, 0x11, 0, 0xF0, 0xF0⟩ ∧
    s.storeBarred ⟨some 0, 0x11, 0, 0xF0, 0xF0⟩ 16 = false ∧ s.unreachable ⟨some 0, 0x11, 0, 0xF0, 0xF0⟩ = false ∧ Quiet s := by unfold Quiet; decide
theorem witness_Sig_ends : let s : Machine.State := { regs 0 0 0 0 with ctxs := [(1, { ctx1 with sr := { base := 0x60000 } })] }
    let u : Machine.State := { regs 0 0 0 0 with ctxs := [(1, { ctx1 with sr := { base := 0x20000 } })], dups := [dup0] }
    (s.ctx s.ctxId).sr.full = false ∧ s.writesDone s.cur = true ∧ s.xlateV s.ctxId 0x60000 .write = .fault ∧ u.xlateV u.ctxId 0x20000 .write = .ok objT ∧
    u.storeBarred objT 16 = true ∧ u.writesDone u.cur = false := by decide +kernel
theorem witness_Sig_full : let s : Machine.State := { regs 0 0 0 0 with ctxs := [(1, { ctx1 with sr := { base := 0x10000, head := 0xFFFF, tail := 15 } })] }
    (s.ctx s.ctxId).sr.full = true := by decide
/-- A ring of 16 slots with its header at scratch offset 0x1000, and a thread that names it. -/
def ring1 (fill free n : Word) : Machine.State :=
  ((one { thr [(1, n)] with descs := [(3, { tag := tagRing, img := 0x0000100008002000 })] }).wrWord (scratchAt 0 0x1000) fill).wrWord (scratchAt 0 0x1008) free
theorem witness_Rings_ready : RingReady (ring1 20 4 16) ((ring1 20 4 16).rdD 3) ∧ ((ring1 20 4 16).rdD 3).ringN = 16 ∧ (ring1 20 4 16).writesDone 0 = true := by
  unfold RingReady; decide +kernel
/-- What a ring's clauses ask of its use and a count. -/
def ringUse (s : Machine.State) : Nat × Nat := ((ringFill s (s.rdD 3) - ringFree s (s.rdD 3)).toNat, (s.rdS 1).toNat)
theorem witness_Rings : ringUse (ring1 20 4 17) = (16, 17) ∧ ringUse (ring1 21 4 16) = (17, 16) ∧ ringUse (ring1 20 4 16) = (16, 16) ∧
    ringUse (ring1 19 4 16) = (15, 16) ∧ ringUse (ring1 19 4 1) = (15, 1) ∧ ringUse (ring1 20 4 1) = (16, 1) ∧ (ring1 20 4 1).th.ts = false := by decide +kernel
/-- The place of a page's 64 bytes, and a state that holds an image there. -/
def imgT : Tgt := ⟨some 0, 0x11, 0, 0x40, 0x40⟩
/-- A thread that reads the image of eight words. -/
def image (ws : List Word) : Machine.State := (regs 0x10040 0 0 0).store 0x40 (bytesOf 512 (imgOf ws).toNat |>.take 64)
/-- The image that such a thread reads. -/
def readImage (ws : List Word) : Pay := BitVec.ofNat 512 (natOf ((image ws).rdTgt imgT 64))
theorem witness_Descriptors : Reaches (image [0x10000, 64]) ((image [0x10000, 64]).rdS 1) 64 .read imgT ∧ (image [0x10000, 64]).tgtPoison imgT 64 = false := by
  unfold Reaches Quiet; decide +kernel
theorem witness_Descriptors_good : Desc.plainBad ⟨1, readImage [0x10000, 64]⟩ = none ∧ Desc.patBad ⟨2, readImage [127]⟩ = none ∧
    Desc.ringBad ⟨4, readImage [0x0000100008002000]⟩ = none ∧ Desc.winBad ⟨1, readImage [0x10000, 0x10004, 0x10001, 0x1000010001]⟩ = none := by decide +kernel
theorem witness_Descriptors_bad : Desc.plainBad ⟨1, readImage [0x10000, 4097]⟩ = some 1 ∧ Desc.patBad ⟨2, readImage [128]⟩ = some 0 ∧
    Desc.ringBad ⟨4, readImage [0]⟩ = some 0 ∧ Desc.winBad ⟨1, readImage [0x10000, 0x10004, 0, 0x1000010001]⟩ = some 2 := by decide +kernel
/-- A thread whose object has a CONST section of 128 bytes at 0x10040, and one in which it is poisoned. -/
def constS (bad : Bool) : Machine.State :=
  { image [0x10000, 64] with
    ctxs := [(1, { ctx1 with handles := [(0, { st := .sealed, obj := { va := 0x10000, constOff := 0x40, constSize := 128 } })] })]
    poison := if bad then [(1, true)] else [] }
theorem witness_Descriptors_const : let o : Obj := { va := 0x10000, constOff := 0x40, constSize := 128 }
    let a := o.va + BitVec.ofNat 64 (o.constOff + (0 : BitVec 15).toNat * 64)
    (constS false).ownObj = some o ∧ (1 : BitVec 15).toNat * 64 + 64 ≤ o.constSize ∧ o.constSize < (2 : BitVec 15).toNat * 64 + 64 ∧
    Reaches (constS false) a 64 .read imgT ∧ (constS false).tgtPoison imgT 64 = false ∧ Reaches (constS true) a 64 .read imgT ∧ (constS true).tgtPoison imgT 64 = true := by
  unfold Reaches Quiet; decide +kernel
/-- A thread with a map in d2, a pattern in d3 and nothing in d4. -/
def maps (r : Tab Word) (m : Pay) : Machine.State := one { thr r with descs := [(2, { tag := tagTmap, img := m }), (3, { tag := tagPattern, img := 5 })] }
theorem witness_Descriptors_copy : (maps [] 0).rdS 1 = 0 ∧ ((maps [(1, 1)] 0).rdD 2).tag = 1 ∧ (maps [(1, 1)] 0).rdS 1 ≠ 0 ∧ ((maps [(1, 1)] 0).rdD 3).tag ≠ 1 := by decide
/-! ### Configurations and instances -/

/-- An object of two images of one sector, the first with an entry queue. -/
def obj2 : Obj := { images := [{ qv := true, blks := [{ words := [0x560000FFFFF00000] }], scheds := [{ blks := [[{}]] }] }, { w := 2 }], gangs := [[0]] }
/-- Context 1 with that object in slot 0. -/
def ctxO : Ctx := { ctx1 with handles := [(0, { st := .sealed, obj := obj2 })] }
/-- The object named in d2, and its thread's instance. -/
def loader (img : Word) (x : Sector → Sector) (i : Inst) : Machine.State :=
  { one { thr [(1, img)] with descs := [(2, { tag := tagObject })] } with
    ctxs := [(1, ctxO)], tasks := [{ task1 1 with insts := [i] }]
    sectors := [(0, x (sec1 0 { thr [(1, img)] with descs := [(2, { tag := tagObject })] }))] }
theorem witness_ShadowLoads : let s := loader 0 id {}
    let x := s.sec s.cur
    (s.rdD 2).tag = tagObject ∧ s.task? x.task = some { task1 1 with insts := [{}] } ∧ s.ownObj = some obj2 ∧
    ({ task1 1 with insts := [{}] } : Task).images.contains 0 = true ∧ s.ownInst.host = none ∧ (obj2.images.getD 0 {}).w = s.ownInst.w ∧
    (obj2.images.getD 0 {}).h = s.ownInst.h ∧ x.shSt ≠ .armed ∧ (s.rail (railOf s.cur)).mv = .steady ∧ s.upsets = [] := by decide +kernel
theorem witness_ShadowLoads_tag : ((maps [] 0).rdD 2).tag ≠ tagObject := by decide
theorem witness_ShadowLoads_image : ({ task1 1 with insts := [{}] } : Task).images.contains ((loader 255 id {}).rdS 1).toNat = false := by decide
theorem witness_ShadowLoads_host : let i : Inst := { host := some { cands := [0] } }
    ({ task1 1 with insts := [i] } : Task).images.contains 0 = true ∧ (loader 0 id i).ownInst.host ≠ none := by decide
theorem witness_ShadowLoads_shape : let i : Inst := { img := 1 }
    ({ task1 1 with insts := [i] } : Task).images.contains ((loader 1 id i).rdS 1).toNat = true ∧ (loader 1 id i).ownInst.host = none ∧
    (obj2.images.getD 1 {}).w ≠ (loader 1 id i).ownInst.w := by decide
theorem witness_ShadowLoads_waits : let s := loader 0 (fun x => { x with shSt := .armed }) {}
    let u : Machine.State := { loader 0 id {} with rails := [(0, { mv := .swap })] }
    s.ownInst.host = none ∧ (s.sec s.cur).shSt = .armed ∧ u.ownInst.host = none ∧ (u.rail (railOf u.cur)).mv ≠ .steady := by decide
theorem witness_InstanceMeetings_host : (loader 0 id { host := some { cands := [0] } }).ownInst.host ≠ none := by decide
theorem witness_InstanceMeetings_answer : let s := one { thr [] with answer := some (Meet.cfgsw.code, 7) }
    s.ownInst.host = none ∧ s.th.answer = some (Meet.cfgsw.code, 7) := by decide
theorem witness_InstanceMeetings_last : let s := two (thr []) { thr [] with wait := .met 3 1 }
    LastToMeet s .sdrain ∧ s.cur ∈ s.instSids :=
  ⟨⟨by decide, by decide, fun _ h => (nomatch h), by decide⟩, by decide⟩
theorem witness_InstanceMeetings_first : let s := two (thr []) (thr [])
    s.ownInst.host = none ∧ (∀ v, s.th.answer ≠ some (Meet.cfgarm.code, v)) ∧
    ∃ j ∈ s.instSids, j ≠ s.cur ∧ (s.sec j).th.reached .cfgarm (s.th.count .cfgarm + 1) = false :=
  ⟨by decide, fun _ h => (nomatch h), by decide⟩
/-- A sector of one configuration and a shadow of a state. -/
def armer (act shadow : Option Share) (st : ShadowSt) : Machine.State := { one (thr []) with sectors := [(0, { sec1 0 (thr []) with act := act, shadow := shadow, shSt := st })] }
/-- Two slots of one site, alone or in one region. -/
def pairOf (joined : Bool) : Share :=
  let alone : Word := putF ⟨0x01, ⟨5, 0, false, 0x3FF, 0x3FF, 0, 0, 0⟩⟩
  { image := { blks := [{ words := [alone, if joined then putF ⟨0x0B, ⟨5, 0, false, 1, 0x3FF, 0, 0, 0⟩⟩ else alone] }] }, sched := [[{}, { tick := 1 }]] }
/-- What the effects of cfgarm and cfgsw ask of such a sector. -/
def armCase (s : Machine.State) : Bool × Bool × Nat :=
  ((s.sec 0).shSt == .complete, (s.sec 0).splits, ((s.sec 0).act.toList.flatMap (s.sec 0).ownSlots).length)
theorem witness_InstanceMeetings_effects : armCase (armer none none .empty) = (false, false, 0) ∧ armCase (armer none (some (pairOf true)) .complete) = (true, false, 0) ∧
    armCase (armer (some (pairOf true)) (some (pairOf true)) .complete) = (true, false, 2) ∧ (armer none none .empty).instSids.Nodup ∧
    0 ∈ (armer none none .empty).instSids ∧ LastToMeet (armer none none .empty) .cfgarm :=
  ⟨by decide +kernel, by decide +kernel, by decide +kernel, by decide, by decide, by decide, by decide, fun _ h => (nomatch h), by decide⟩
theorem witness_InstanceMeetings_splits : armCase (armer (some (pairOf false)) (some (pairOf true)) .complete) = (true, true, 2) := by decide +kernel

/-! ### Streams -/

/-- The image of a map of 4 elements of 64 bytes from 0x10000 on. -/
def mapImg : Pay := imgOf [0x10000, 64, 0x40000003]
/-- A thread with that map in d2, and port 127 of its sector. -/
def port127 (p : PortSt) : Machine.State :=
  let t : Thread := { thr [(1, 0), (2, 1), (3, 64)] with descs := [(2, { tag := tagTmap, img := mapImg }), (3, { tag := tagPattern, img := 5 })] }
  { one t with sectors := [(0, { sec1 0 t with ports := [(127, p)] })] }
/-- A binding of that map. -/
def bind1 (write : Bool) : Bind := { desc := { tag := tagTmap, img := mapImg }, write := write }
theorem witness_Bindings_tag : ((port127 {}).rdD 4).tag ≠ 1 ∧ ((port127 {}).rdD 4).tag ≠ 2 := by decide +kernel
theorem witness_Bindings_misaligned : ((port127 {}).rdD 2).tag = 1 ∧ ((port127 {}).rdD 2).bindAligned ((port127 {}).rdS 2) = false := by decide +kernel
theorem witness_Bindings_active : let s := port127 {}
    (s.rdD 2).tag = 1 ∧ (s.rdD 2).bindAligned (s.rdS 3) = true ∧ s.writesDone s.cur = true ∧ (s.port s.cur 127).act = none ∧ (s.rdD 2).bindIndex true = true := by decide +kernel
theorem witness_Bindings_pending : let s := port127 { act := some (bind1 true) }
    (s.rdD 2).tag = 1 ∧ (s.rdD 2).bindAligned (s.rdS 1) = true ∧ s.writesDone s.cur = true ∧ (s.port s.cur 127).act ≠ none ∧ (s.port s.cur 127).pend = none := by decide +kernel
theorem witness_Bindings_full : let s := port127 { act := some (bind1 true), pend := some (bind1 true) }
    (s.rdD 2).tag = 1 ∧ (s.rdD 2).bindAligned (s.rdS 1) = true ∧ (s.port s.cur 127).act ≠ none ∧ (s.port s.cur 127).pend ≠ none := by decide +kernel
theorem witness_Bindings_pattern : slicePort (dieOf (port127 {}).cur) (((port127 {}).rdD 3).fld 0 0 7) = (0, 11) ∧ ((port127 {}).rdD 3).tag = 2 ∧ (port127 {}).rdS 1 = 0 ∧
    ¬slicePort (dieOf (port127 {}).cur) (((port127 {}).rdD 3).fld 0 0 7) = (0, 127) ∧ (port127 {}).rdS 3 ≠ 0 := by decide +kernel
theorem witness_Bindings_index : let d : Desc := { tag := tagTmap, img := imgOf [0x10000, 0xA040, 0x40000000, 0x40000003, 0, 0, 0x100] }
    d.tag = 1 ∧ d.bindAligned 0 = true ∧ d.win = false ∧ d.idx = true := by decide +kernel
theorem witness_Bindings_writes : ({ port127 {} with dups := [dup0] } : Machine.State).writesDone 0 = false := by decide
theorem witness_PortWords_seos : ((port127 {}).port 0 127).act = none ∧ ((port127 { act := some (bind1 true) }).port 0 127).act = some (bind1 true) ∧
    (bind1 true).write = true ∧ ((port127 { act := some (bind1 false) }).port 0 127).act = some (bind1 false) ∧ (bind1 false).write = false ∧
    ((port127 { act := some (bind1 false) }).port 0 127).sentAll = true := by decide +kernel
theorem witness_PortWords_sbar : let s := port127 {}
    (∀ id ports, s.th.wait ≠ .bar id ports) ∧ (s.port s.cur 127).act = none ∧ (s.port s.cur 127).pend = none ∧ s.draining s.cur s.nextId = false :=
  ⟨fun _ _ h => (nomatch h), by decide +kernel⟩
theorem witness_PortWords_seos_waits : let p : PortSt := { act := some (bind1 false), head := [dataToken 8 1 0] }
    ((port127 p).port 0 127).act = some (bind1 false) ∧ ((port127 p).port 0 127).sentAll = false := by decide +kernel
theorem witness_PortWords_sbar_bound : let s := port127 { act := some (bind1 false) }
    ([127].filter fun j => (s.port s.cur j).act.isSome || (s.port s.cur j).pend.isSome) = [127] ∧ ((List.range 128).filter fun j => (s.port s.cur j).act.isSome) = [127] ∧
    (∀ id ports, s.th.wait ≠ .bar id ports) := ⟨by decide +kernel, by decide +kernel, fun _ _ h => (nomatch h)⟩
theorem witness_PortWords_sbar_wait : let s := one { thr [] with wait := .bar 3 [127] }
    let u : Machine.State := { s with sectors := [(0, { s.sec 0 with ports := [(127, { act := some (bind1 false) })] })] }
    s.th.wait = .bar 3 [127] ∧ (∀ j ∈ [127], (s.port s.cur j).act = none ∧ (s.port s.cur j).pend = none) ∧
    (∀ k, s.task? (s.sec s.cur).task = some k → ∀ x ∈ k.stores, ¬(x.sid = s.cur ∧ x.port = some 127)) ∧ s.draining s.cur 3 = false ∧
    u.th.wait = .bar 3 [127] ∧ (u.port u.cur 127).act ≠ none := by
  refine ⟨by decide, by decide +kernel, ?_, by decide, by decide, by decide⟩
  intro k h x hx
  obtain rfl : task1 1 = k := Option.some.inj h
  cases hx
/-- Sector 0 holds a configuration whose one slot is the pin of port 0. -/
def pinned : Machine.State :=
  let sh : Share := { image := { blks := [{ words := [0x7000013FF0000000] }] }, sched := [[{}]] }
  { one (thr []) with sectors := [(0, { sec1 0 (thr []) with act := some sh })] }
theorem witness_PortWords_tinj : let s := pinned
    (s.port s.cur 0).act = none ∧ (s.port s.cur 0).pend = none ∧ (s.port s.cur 0).head = [] ∧ s.pinFmt? s.cur 0 ≠ none := by decide +kernel
theorem witness_PortWords_tinj_waits : ((port127 { act := some (bind1 false) }).port 0 127).reads = true := by decide
/-- A thread token at the gate of sector 0 for the queue of image 0 of instance 0. -/
def packet (id : Nat) (pay : Word) : Packet := { id := id, gate := 0, inst := 0, img := 0, pay := pay }
theorem witness_ThreadTokens : let s := loader 0 id {}
    s.queueImage (s.rdS 1) = true ∧ (∃ k, s.task? (s.sec s.cur).task = some k ∧ k.queueInst 0 0 = some 0 ∧
      (k.packets.filter fun p => p.gate == s.cur && p.inst == 0 && p.img == 0).length < 2) := ⟨by decide, _, rfl, by decide, by decide⟩
theorem witness_ThreadTokens_refused : (loader 1 id {}).queueImage ((loader 1 id {}).rdS 1) = false := by decide
theorem witness_ThreadTokens_full : let t : Task := { task1 1 with insts := [{}], packets := [packet 5 1, packet 6 2] }
    let s : Machine.State := { loader 0 id {} with tasks := [t] }
    s.queueImage (s.rdS 1) = true ∧ s.task? (s.sec s.cur).task = some t ∧ t.queueInst 0 0 = some 0 ∧
    2 ≤ (t.packets.filter fun p => p.gate == s.cur && p.inst == 0 && p.img == 0).length := by decide
theorem witness_Mark : let s := two (thr []) (thr [])
    s.task? (s.sec s.cur).task = some (task1 2) ∧ (task1 2).pre = .none ∧ s.cur ∈ (task1 2).sids ∧ s.saveRoom (task1 2) = true := by decide
theorem witness_Mark_early : let s := two (thr []) { thr [] with wait := .record 3, ts := true }
    s.saveRoom (task1 2) = true ∧ ∃ j ∈ (task1 2).sids, (j ≠ s.cur ∧ ∃ c, (s.sec j).th.wait = .record c) ∧ (s.sec j).th.stopped = false :=
  ⟨by decide, 1, by decide, ⟨by decide, 3, by decide⟩, by decide⟩
theorem witness_Mark_waits : let s : Machine.State := { two (thr []) (thr []) with ctxs := [(1, { ctx1 with saven := 1 })] }
    s.task? (s.sec s.cur).task = some (task1 2) ∧ s.saveRoom (task1 2) = false := by decide

/-! ### Engine words -/

/-- A thread with a map in d2, one with an index list in d3, and destinations in s1 to s4. -/
def engineer (a b c d : Word) (n : Nat) : Machine.State :=
  let t : Thread := { thr [(1, a), (2, b), (3, c), (4, d)] with
    descs := [(2, { tag := tagTmap, img := mapImg }), (3, { tag := tagTmap, img := imgOf [0x10000, 0xA040, 0x40000000, 0x40000003, 0, 0, 0x100] })] }
  { one t with ops := (List.range n).map fun k => { id := k, kind := .cpy, sid := 0, ctx := 1, task := 1 } }
theorem witness_Copies_scratch : let s := engineer 0xFFFFFFFFFFFFFE00 0 0 0 63
    let d := s.rdD 2
    d.tag = tagTmap ∧ MayIssue s ∧ s.indexBad d = false ∧ s.engDest (s.rdS 1) (d.addBase (s.rdS 2)).bytes = .ok (.scratch 0x3FFE00) ∧ d.idx = false ∧
    (s.rdS 1).toNat % 512 = 0 ∧ isS (s.rdS 1) = true ∧ sOff (s.rdS 1) + ((d.addBase (s.rdS 2)).bytes + 511) / 512 * 512 ≤ 2 ^ 22 := by unfold MayIssue; decide +kernel
theorem witness_Copies_gather : let s := engineer 0x10000 0 0 0 0
    let d := s.rdD 3
    d.tag = tagTmap ∧ MayIssue s ∧ s.indexBad d = false ∧ s.engDest (s.rdS 1) (d.addBase (s.rdS 2)).bytes = .ok (.virt 0x10000) ∧ d.win = false ∧ d.idx = true := by
  unfold MayIssue; decide +kernel
theorem witness_Copies_scatter : let s := engineer 0xFFFFFFFFFFFFFE00 0 0 0 0
    let m := (s.rdD 2).addBase (s.rdS 2)
    m.base < 2 ^ 55 ∧ ∀ e i, findRt (s.ctx s.ctxId).rt m.base = some (i, e) → (pwValid e.pw e.frame && pwKind e.pw == 1) = false := by
  refine ⟨by decide +kernel, fun e i h => ?_⟩
  have : findRt ((engineer 0xFFFFFFFFFFFFFE00 0 0 0 0).ctx (engineer 0xFFFFFFFFFFFFFE00 0 0 0 0).ctxId).rt
    (((engineer 0xFFFFFFFFFFFFFE00 0 0 0 0).rdD 2).addBase ((engineer 0xFFFFFFFFFFFFFE00 0 0 0 0).rdS 2)).base = some (0, ent 0x10000 0x11 0 15) := by decide +kernel
  rw [this] at h
  cases h
  decide
theorem witness_Copies_edge : let s := engineer 0 0 0xFFF00 0 0
    (s.rdS 3).toNat % 64 = 0 ∧ (s.rdS 3).toNat + ((s.rdD 2).addBase (s.rdS 2)).bytes ≤ 2 ^ 20 ∧ (s.rdS 1).toNat + ((s.rdD 2).addBase (s.rdS 2)).bytes ≤ 256 ∧
    (s.rdD 2).idx = false := by decide +kernel
/-- An address whose entry is not being replaced and maps no SF page may be scattered to. -/
theorem scatMay_of (s : Machine.State) (a : Word) (i : Nat) (e : RtEnt) (h : findRt (s.ctx s.ctxId).rt a.toNat = some (i, e))
    (h1 : s.rtHeld s.ctxId i = false) (h2 : (pwValid e.pw e.frame && pwKind e.pw == 1) = false) : ScatMay s a := by
  intro j f _ g
  rw [h] at g
  cases g
  exact ⟨h1, h2⟩
/-- A thread with a map of one element at 0x10000, which a scatter may write. -/
def scatS : Machine.State := one { thr [] with descs := [(2, { tag := tagTmap, img := imgOf [0x10000, 64, 0x40000000] })] }
theorem witness_Copies_scatter_bytes : scatS.scatBytes ((scatS.rdD 2).addBase (scatS.rdS 2)) = [0x10000, 0x1003F] ∧ ∀ a ∈ [(0x10000 : Word), 0x1003F], ScatMay scatS a := by
  have e : findRt (scatS.ctx scatS.ctxId).rt (0x10000 : Word).toNat = some (0, ent 0x10000 0x11 0 15) ∧
    findRt (scatS.ctx scatS.ctxId).rt (0x1003F : Word).toNat = some (0, ent 0x10000 0x11 0 15) := by decide +kernel
  refine ⟨by decide +kernel, fun a h => ?_⟩
  obtain rfl | h := List.mem_cons.1 h
  · exact scatMay_of scatS _ 0 (ent 0x10000 0x11 0 15) e.1 (by decide +kernel) (by decide +kernel)
  · obtain rfl := List.mem_singleton.1 h
    exact scatMay_of scatS _ 0 (ent 0x10000 0x11 0 15) e.2 (by decide +kernel) (by decide +kernel)
/-- A thread whose map in d2 starts at an address and whose context maps scratch at 0x70000, with an entry that is being replaced. -/
def scatterer (base : Word) (to_ : Word) (held : Option RtCmd) : Machine.State :=
  let t : Thread := { thr [(1, to_)] with descs := [(2, { tag := tagTmap, img := imgOf [base, 64, 0x4000000F] })] }
  { one t with ctxs := [(1, { ctx1 with rt := rt1 ++ [(5, ent 0x70000 0x20000001 0 14)] })], regs := { rtCmd := held } }
theorem witness_Copies_scatter_sf : let s := scatterer 0x50000 0 none
    let m := (s.rdD 2).addBase (s.rdS 2)
    (s.scatBytes m).head? = some 0x50000 ∧ m.base < 2 ^ 55 ∧ findRt (s.ctx s.ctxId).rt 0x50000 = some (4, ent 0x50000 0x10600001 0 14) ∧ s.rtHeld s.ctxId 4 = false ∧
    pwValid (ent 0x50000 0x10600001 0 14).pw (ent 0x50000 0x10600001 0 14).frame = true ∧ pwKind (ent 0x50000 0x10600001 0 14).pw = 1 ∧
    (scatterer 0x50000 0 (some ⟨1, 4, {}⟩)).rtHeld 1 4 = true ∧ 2 ^ 55 ≤ ((scatterer 0xFFFFFFFFFFC00000 0 none).rdD 2).base := by decide +kernel
theorem witness_Copies_destinations : let s := scatterer 0x10000 0x50000 none
    let u := scatterer 0x10000 0x70040 none
    let e := ent 0x70000 0x20000001 0 14
    findRt (s.ctx s.ctxId).rt 0x50000 = some (4, ent 0x50000 0x10600001 0 14) ∧ (s.rdS 1).toNat < 2 ^ 55 ∧ findRt (u.ctx u.ctxId).rt 0x70040 = some (5, e) ∧
    u.rtHeld u.ctxId 5 = false ∧ pwValid e.pw e.frame = true ∧ pwKind e.pw = 2 ∧ (u.rdS 1).toNat % 512 ≠ 0 ∧ (scatterer 0x10000 0x70040 (some ⟨1, 5, {}⟩)).rtHeld 1 5 = true ∧
    2 ^ 22 < sOff 0xFFFFFFFFFFFFFE00 + (((s.rdD 2).addBase (s.rdS 2)).bytes + 511) / 512 * 512 := by decide +kernel
theorem witness_Copies_edges : let s := engineer 0xFFF40 0xFFFC0 0 0 64
    let n := ((s.rdD 2).addBase (s.rdS 3)).bytes
    (0x20 : Word).toNat % 64 ≠ 0 ∧ 2 ^ 20 < (s.rdS 1).toNat + n ∧ 256 < (s.rdS 2).toNat + n ∧ (s.rdS 3).toNat + n ≤ 256 ∧ ¬MayIssue s := by unfold MayIssue; decide +kernel
theorem witness_Copies_bad_index : let s : Machine.State := { engineer 0x10000 0 0 0 0 with poison := [(scratchAt 0 0x100 / 64, true)] }
    s.badIndex (s.rdD 3) = some 4 ∧ s.engDest (s.rdS 1) ((s.rdD 3).addBase (s.rdS 2)).bytes = .ok (.virt 0x10000) := by decide +kernel
theorem witness_Copies_tag : ((engineer 0 0 0 0 0).rdD 4).tag ≠ tagTmap := by decide
theorem witness_Copies_misaligned : let s := engineer 0xFFFFFFFFFFFFFE01 0 0 0 0
    (s.rdD 2).tag = tagTmap ∧ (s.rdD 2).idx = false ∧ isS (s.rdS 1) = true ∧ (s.rdS 1).toNat % 512 ≠ 0 := by decide +kernel
theorem witness_Copies_no_room : let s := engineer 0xFFFFFFFFFFFFFE00 0 0 0 64
    (s.rdD 2).tag = tagTmap ∧ (s.rdD 2).idx = false ∧ s.engDest (s.rdS 1) ((s.rdD 2).addBase (s.rdS 2)).bytes = .ok (.scratch 0x3FFE00) ∧ ¬MayIssue s := by unfold MayIssue; decide +kernel
theorem witness_Copies_store_pending : let s : Machine.State := { engineer 0xFFFFFFFFFFFFFE00 0 0 0 0 with dups := [dup0] }
    s.engRoom = true ∧ s.engDest (s.rdS 1) ((s.rdD 2).addBase (s.rdS 2)).bytes = .ok (.scratch 0x3FFE00) ∧ ¬MayIssue s := by unfold MayIssue; decide +kernel
theorem witness_Collectives : let s := engineer 0x10000 0 0 0x20000 0
    let d := s.rdD 2
    d.tag = tagTmap ∧ MayIssue s ∧ s.indexBad d = false ∧ s.engDest (s.rdS 1) d.bytes = .ok (.virt 0x10000) ∧
    s.engDest (s.rdS 1) (d.bytes * s.gangSids.length * ((s.rdS 4).toNat / 2 ^ 16 % 2 ^ 16)) = .ok (.virt 0x10000) := by unfold MayIssue; decide +kernel
/-- A complete copy that the handle in d5 names; a dense map of one flash page in d6. -/
def publisher : Machine.State :=
  let t : Thread := { thr [(1, 0x20008), (2, 0x50000), (3, 0x10000), (4, 0x11)] with
    descs := [(5, engHandle 9), (6, { tag := tagTmap, img := imgOf [0x10000, 4096, 0x1000000003] })] }
  { one t with ops := [{ id := 9, kind := .cpy, sid := 0, ctx := 1, task := 1, st := .complete }] }
theorem statusWord_at : StatusWordAt publisher (publisher.rdS 1) ⟨some 1, 0x80000011, 0x100000, 8, 0x100008⟩ := by unfold StatusWordAt; decide +kernel
theorem witness_Publish : let s := publisher
    (s.rdD 5).tag = tagEngine ∧ (∃ o, s.op? (s.rdD 5).img.toNat = some o ∧ o.kind ≠ .inst ∧ o.kind ≠ .stage ∧ o.publ = none ∧ o.live = true) ∧
    ∃ t, StatusWordAt s (s.rdS 1) t :=
  ⟨by decide +kernel, ⟨{ id := 9, kind := .cpy, sid := 0, ctx := 1, task := 1, st := .complete }, by decide +kernel⟩, _, statusWord_at⟩
theorem witness_Install : let s := publisher
    let d := s.rdD 6
    (d.tag = tagTmap ∧ d.win = false ∧ d.idx = false ∧ d.dims = 1 ∧ d.stride 0 = d.esz ∧ d.bytes % 16384 = 0 ∧ d.base % 16384 = 0) ∧
    (∃ t, StatusWordAt s (s.rdS 1) t) ∧ MayIssue s ∧ (s.rdS 2).toNat % 16384 = 0 := ⟨by decide +kernel, ⟨_, statusWord_at⟩, by unfold MayIssue; decide +kernel⟩
/-- The publisher with other descriptors in d5 and d6, an operation, and a status word. -/
def publishes (h d : Desc) (o : EngOp) (a : Word) : Machine.State :=
  { publisher with sectors := [(0, { publisher.sec 0 with th := { thr [(1, a), (2, 0x50000)] with descs := [(5, h), (6, d)] } })], ops := [o] }
theorem witness_Publish_refused : let o : EngOp := { id := 9, kind := .cpy, sid := 0, ctx := 1, task := 1, st := .complete }
    let s := publishes (engHandle 8) {} o 0x20009
    (s.rdD 6).tag ≠ tagEngine ∧ (s.rdD 5).tag = tagEngine ∧ s.op? (s.rdD 5).img.toNat = none ∧ (s.rdS 1).toNat % 8 ≠ 0 ∧
    (publishes (engHandle 9) {} { o with kind := .inst } 0).op? (engHandle 9).img.toNat = some { o with kind := .inst } ∧
    (publishes (engHandle 9) {} { o with live := false } 0).op? (engHandle 9).img.toNat = some { o with live := false } := by decide +kernel
theorem witness_Publish_status : let s := publisher
    s.xlate s.ctxId s.cur 0x60000 .both = .fault ∧ s.xlate s.ctxId s.cur 0x40000 .both = .perm ∧ s.xlate s.ctxId s.cur 0x10000 .both = .ok ⟨some 0, 0x11, 0, 0, 0⟩ ∧
    (⟨some 0, 0x11, 0, 0, 0⟩ : Tgt).ver = false := by decide +kernel
theorem witness_Install_refused : let d : Desc := publisher.rdD 6
    let part : Desc := { tag := tagTmap, img := imgOf [0x10000, 4096, 0x1000000002] }
    let off : Desc := { tag := tagTmap, img := imgOf [0x10040, 4096, 0x1000000003] }
    (publisher.rdD 4).tag ≠ tagTmap ∧ (({ tag := tagTmap, img := mapImg } : Desc).dims = 1 ∧ ({ tag := tagTmap, img := imgOf [0x10000, 64, 0x80000003] } : Desc).stride 0 ≠ 64) ∧
    (part.tag = tagTmap ∧ part.win = false ∧ part.idx = false ∧ part.dims = 1 ∧ part.stride 0 = part.esz ∧ part.bytes % 16384 ≠ 0) ∧
    (off.bytes % 16384 = 0 ∧ off.base % 16384 ≠ 0) ∧ d.bytes % 16384 = 0 ∧ d.base % 16384 = 0 ∧ (0x50040 : Word).toNat % 16384 ≠ 0 := by decide +kernel
theorem witness_Restripe_codes : let pw := (ent 0x10000 0x11 0 15).pw
    findRt (publisher.ctx 1).rt 0x60000 = none ∧ findRt (publisher.ctx 1).rt 0x10000 = some (0, ent 0x10000 0x11 0 15) ∧ pwKind pw = 0 ∧ pwValid pw 0 = true ∧
    pwKind 0x10000001 ≠ 0 ∧ pwValid 0x10 0 = false ∧ pwVer 0x80000011 ≠ pwVer pw ∧ pwValid 0 0 = false ∧
    (({ publisher with ctxs := [(1, { ctx1 with rt := [(0, { ent 0x10000 0x11 0 15 with w1 := 0xFFFFFF })] })] } : Machine.State).rstrCheck 0x10000 0x0C800011) = .inl 0x05 := by decide +kernel
theorem witness_Restripe : publisher.rstrCheck (publisher.rdS 3) (publisher.rdS 4) = .inr (0, ent 0x10000 0x11 0 15) ∧
    publisher.rstrCheck (publisher.rdS 2) (publisher.rdS 4) = .inl 0x02 ∧ MayIssue publisher ∧ publisher.rstrHeld (publisher.rdS 3) = false ∧
    ({ publisher with regs := { rtCmd := some ⟨1, 0, {}⟩ } } : Machine.State).rstrHeld (publisher.rdS 3) = true := by unfold MayIssue; decide +kernel
/-! ### Fabric slots -/

/-- The block whose slots act. -/
def b0 : BlkRef := ⟨1, 0, 0, 0, 0⟩
/-- The fields of a word without targets. -/
def wf (fmt : BitVec 4) (imm : BitVec 16) (x : BitVec 10) : FabW := ⟨fmt, 0, false, 0x3FF, 0x3FF, 0, imm, x⟩
/-- A block of a word in slot 0, with slots that feed its positions; its entry feeds position a. -/
def blockOf (op : BitVec 8) (w : FabW) (feeds : List Nat) : Blk :=
  { words := putF ⟨op, w⟩ :: feeds.map fun p => putF ⟨0x72, { wf 0 0 0 with t0 := BitVec.ofNat 10 p }⟩ }
/-- The configuration of that block. -/
def shareFor (op : BitVec 8) (w : FabW) (feeds : List Nat) : Share := { image := { blks := [blockOf op w feeds] }, sched := [[{}]] }
/-- The acting slot. -/
def fabF (op : BitVec 8) (w : FabW) (feeds : List Nat) : Fab := ⟨b0, 0, w, shareFor op w feeds, blockOf op w feeds, {}, 0, 0, 0⟩
/-- The task that holds it, with its operator state and the tokens at its positions. -/
def fabTask (o : OpSt) (toks : Tab (List Token)) : Task :=
  { task1 1 with insts := [{ ops := [(0, o)], chans := toks, waves := [(0, 1)] }], wrecs := [{ b := b0, w := 0 }] }
/-- A machine whose slot 0 acts. -/
def fabS (op : BitVec 8) (w : FabW) (feeds : List Nat) (o : OpSt) (toks : Tab (List Token)) : Machine.State :=
  { one (thr []) with
    sectors := [(0, { sec1 0 (thr []) with act := some (shareFor op w feeds) })], tasks := [fabTask o toks], slot := ⟨b0, 0⟩ }
/-- A data token. -/
def tok (fmt : BitVec 4) (p : Pay) : Token := dataToken fmt p 0
/-- A region of two slots at one site, the second of which feeds b of the first. -/
def blk2 : Blk := { words := [putF ⟨0x01, wf 5 0 0⟩, putF ⟨0x0B, { wf 5 0 0 with t0 := 1 }⟩] }
/-- Its configuration. -/
def share2 : Share := { image := { blks := [blk2] }, sched := [[{}, {}]] }
theorem witness_Element_waits : let s : Machine.State :=
      { fabS 0x01 (wf 5 0 0) [] {} [(0, [tok 5 1])] with sectors := [(0, { sec1 0 (thr []) with act := some share2 })] }
    let f : Fab := ⟨b0, 0, wf 5 0 0, share2, blk2, {}, 0, 0, 0⟩
    SlotActs s (wf 5 0 0) f ∧ s.heads f [0, 1, 2, 3] = none ∧ (fabS 0x01 (wf 5 0 0) [] {} []).fab? (wf 5 0 0) = none := by unfold SlotActs; decide +kernel
/-- The word of a dithering addition of f32. -/
def ditherW : FabW := { wf 7 0 0 with rnd := 5 }
theorem witness_Element_dither : let s := fabS 0x20 ditherW [] {} [(0, [tok 7 1])]
    let late : Machine.State := { s with now := [.dither 0 0 1] }
    SlotActs s ditherW (fabF 0x20 ditherW []) ∧ s.ditherLate (fabF 0x20 ditherW []) = false ∧
    SlotActs late ditherW (fabF 0x20 ditherW []) ∧ late.ditherLate (fabF 0x20 ditherW []) = true ∧
    ({ s with now := [.dither 0 0 0, .dither 0 1 1] } : Machine.State).ditherLate (fabF 0x20 ditherW []) = false := by unfold SlotActs; decide +kernel
/-- The tokens at the heads of a vadd's operands. -/
def addsTo (a b : Token) : Machine.State × Option (List (Nat × Token)) :=
  let s := fabS 0x01 (wf 5 0 0) [1] {} [(0, [a]), (1, [b])]
  (s, s.heads (fabF 0x01 (wf 5 0 0) [1]) [0, 1, 2, 3])
theorem witness_Element_some_eos : (addsTo (eosToken 0) (tok 5 1)).2 = some [(0, eosToken 0), (1, tok 5 1)] ∧ (eosToken 0).kind = .eos ∧ (tok 5 1).kind ≠ .eos := by decide +kernel
theorem witness_Element_all_eos : (addsTo (eosToken 0) (eosToken 0)).2 = some [(0, eosToken 0), (1, eosToken 0)] ∧
    ((addsTo (eosToken 0) (eosToken 0)).1.sendAll (fabF 0x01 (wf 5 0 0) [1]) ((fabF 0x01 (wf 5 0 0) [1]).both (eosToken 0))).isSome = true := by decide +kernel
theorem witness_Element_eos_poison : let e : Token := { eosToken 0 with poison := true }
    (addsTo e (eosToken 0)).2 = some [(0, e), (1, eosToken 0)] ∧ (∀ p ∈ [(0, e), (1, eosToken 0)], p.2.kind = .eos) ∧ e.poison = true := by decide +kernel
theorem witness_Element_poison : (addsTo { tok 5 1 with poison := true } (tok 5 1)).2 = some [(0, { tok 5 1 with poison := true }), (1, tok 5 1)] ∧
    NoEos [(0, { tok 5 1 with poison := true }), (1, tok 5 1)] := by unfold NoEos; decide +kernel
theorem witness_Element_tag : (addsTo (tok 5 1) (tok 6 1)).2 = some [(0, tok 5 1), (1, tok 6 1)] ∧ NoEos [(0, tok 5 1), (1, tok 6 1)] ∧
    (∀ p ∈ [(0, tok 5 1), (1, tok 6 1)], p.2.poison = false) ∧ tagsOk (needAB (wf 5 0 0).fmt) [(0, tok 5 1), (1, tok 6 1)] = false := by unfold NoEos; decide +kernel
/-- Whether a slot can fire on the tokens at its positions, with room for its result. -/
def canFire (op : BitVec 8) (w : FabW) (feeds : List Nat) (need : List (Nat × BitVec 4)) (toks : List (Nat × Token)) : Prop :=
  FiresOn (fabS op w feeds {} (toks.map fun p => (p.1, [p.2]))) w (fabF op w feeds) need toks ∧
  ((fabS op w feeds {} (toks.map fun p => (p.1, [p.2]))).sendAll (fabF op w feeds) ((fabF op w feeds).both (tok 0 0))).isSome = true
theorem witness_IntegerElementFirings : canFire 0x01 (wf 5 0 0) [1] (needAB 5) [(0, tok 5 1), (1, tok 5 2)] := by
  unfold canFire FiresOn SlotActs TokensAt NoEos; decide +kernel
theorem witness_IntegerElementFirings_vmad : canFire 0x07 (wf 3 0 1) [1, 2] ((2, wideTag 3) :: needAB 3) [(0, tok 3 1), (1, tok 3 2), (2, tok 5 3)] := by
  unfold canFire FiresOn SlotActs TokensAt NoEos; decide +kernel
theorem witness_IntegerElementFirings_vsel : canFire 0x16 (wf 5 0 0) [1, 2] ((2, 15) :: needAB 5) [(0, tok 5 1), (1, tok 5 2), (2, tok 15 3)] := by
  unfold canFire FiresOn SlotActs TokensAt NoEos; decide +kernel
theorem witness_WrapOrSaturate : let a := payOf 8 [127, 128, 1]
    fmtInt 1 = true ∧ 63 < 512 / fmtWidth 1 ∧ intMax 1 < intVal 1 (elem 8 a 0) + intVal 1 (elem 8 a 0) ∧ intVal 1 (elem 8 a 1) + intVal 1 (elem 8 a 1) < intMin 1 ∧
    intMin 1 ≤ intVal 1 (elem 8 a 2) + intVal 1 (elem 8 a 2) ∧ intVal 1 (elem 8 a 2) + intVal 1 (elem 8 a 2) ≤ intMax 1 := by decide +kernel
theorem witness_FloatElementFirings : canFire 0x20 (wf 7 0 0) [1] (needAB 7) [(0, tok 7 1), (1, tok 7 2)] := by
  unfold canFire FiresOn SlotActs TokensAt NoEos; decide +kernel
theorem witness_FloatElementFirings_ffma : canFire 0x23 (wf 8 0 0) [1, 2] ((2, 8) :: needAB 8) [(0, tok 8 1), (1, tok 8 2), (2, tok 8 3)] := by
  unfold canFire FiresOn SlotActs TokensAt NoEos; decide +kernel
theorem witness_FloatElementFirings_fldx : canFire 0x2E (wf 8 0 0) [1] [(0, 8), (1, expTag 8)] [(0, tok 8 1), (1, tok 3 2)] := by
  unfold canFire FiresOn SlotActs TokensAt NoEos; decide +kernel
theorem witness_Float_finite : decodeVal 7 0x3F800000 = .fin false 0x800000 (-23) ∧ decodeVal 7 0xC0000000 = .fin true 0x800000 (-22) ∧ decodeVal 7 1 = .fin false 1 (-149) ∧
    decodeVal 7 0x80000000 = .fin true 0 (-149) ∧ decodeVal 7 0x7F800000 = .inf false ∧ decodeVal 7 0xFF800000 = .inf true ∧ decodeVal 7 0x7FC00000 = .nan := by decide +kernel
theorem witness_Float_order : exactOf true 0x800000 (-22) < exactOf false 0x800000 (-23) ∧ exactOf false 0x800000 (-23) = ((1 : Int) : ℚ) := by
  unfold exactOf; norm_num
theorem witness_Reductions : 2 ^ 6 = 512 / fmtWidth 1 ∧ fmtInt 1 = true ∧ 2 ^ 4 = 512 / fmtWidth 7 ∧ fmtInt 7 = false := by decide
theorem witness_FormatValues : (floatP 10).isSome = true ∧ 0x7E < 2 ^ fmtWidth 10 ∧ decodeVal 10 0x7E = .fin false 14 5 ∧ decodeVal 10 1 = .fin false 1 (-9) := by decide +kernel
theorem witness_Conversions : canFire 0x30 (wf 8 0 7) [] [(0, 7)] [(0, tok 7 1)] ∧ canFire 0x31 (wf 10 0 0x37) [1] [(0, 7), (1, 10)] [(0, tok 7 1), (1, tok 10 2)] := by
  unfold canFire FiresOn SlotActs TokensAt NoEos; decide +kernel
theorem witness_Conversions_unpk_scl : canFire 0x32 (wf 8 0 0x1A) [] [(0, 10)] [(0, tok 10 1)] ∧ canFire 0x33 (wf 10 0 8) [1] [(0, 8), (1, 14)] [(0, tok 8 1), (1, tok 14 2)] := by
  unfold canFire FiresOn SlotActs TokensAt NoEos; decide +kernel
theorem witness_Lanes : canFire 0x37 (wf 7 0 0) [1] [(0, 7), (1, 6)] [(0, tok 7 1), (1, tok 6 2)] ∧ canFire 0x3A (wf 7 0 15) [1] (needAB 7) [(0, tok 7 1), (1, tok 7 2)] := by
  unfold canFire FiresOn SlotActs TokensAt NoEos; decide +kernel

/-- Tokens stand at the positions listed of a slot with a given operator state. -/
def standsAt (op : BitVec 8) (w : FabW) (feeds : List Nat) (o : OpSt) (poss : List Nat) (toks : List (Nat × Token)) : Prop :=
  let s := fabS op w feeds o (toks.map fun p => (p.1, [p.2]))
  SlotActs s w (fabF op w feeds) ∧ TokensAt s (fabF op w feeds) poss toks
theorem witness_Router_steer : standsAt 0x50 (wf 0 0 1) [2] {} [0, 2, 3] [(0, tok 5 1), (2, tok 15 1)] ∧ (tok 15 1).kind ≠ .eos ∧ (tok 15 1).fmt = 15 := by
  unfold standsAt SlotActs TokensAt; decide +kernel
theorem witness_Router_merge : standsAt 0x51 (wf 0 0 0) [1, 2] {} [2, 0, 3] [(2, tok 15 1), (0, tok 5 1)] ∧
    standsAt 0x51 (wf 0 0 0) [1, 2] {} [2, 1, 3] [(2, tok 15 0), (1, tok 5 1)] ∧ bitAt (tok 15 1).pay.toNat 0 = true ∧ bitAt (tok 15 0).pay.toNat 0 = false := by
  unfold standsAt SlotActs TokensAt; decide +kernel
theorem witness_Router_join : standsAt 0x54 (wf 0 0 0) [1] {} [0, 1, 3] [(0, tok 5 1), (1, tok 5 2)] ∧ standsAt 0x55 (wf 0 0 0) [] {} [0, 3] [(0, tok 5 1)] := by
  unfold standsAt SlotActs TokensAt; decide +kernel
theorem witness_Router_carry_first : standsAt 0x52 (wf 0 0 0) [1, 2] {} [0, 3] [(0, tok 5 1)] ∧ ({} : OpSt).st = 0 ∧ (tok 5 1).kind ≠ .eos := by
  unfold standsAt SlotActs TokensAt; decide +kernel
theorem witness_Router_carry_go : standsAt 0x52 (wf 0 0 0) [1, 2] { st := 1, hold := some (tok 5 1) } [2, 3] [(2, tok 15 1)] ∧
    standsAt 0x53 (wf 0 0 0) [1, 2] { st := 1, hold := some (tok 5 1) } [2, 3] [(2, tok 15 0)] := by unfold standsAt SlotActs TokensAt; decide +kernel
theorem witness_Router_carry_back : standsAt 0x52 (wf 0 0 0) [1, 2] { st := 2, hold := some (tok 5 1) } [1, 3] [(1, tok 5 1)] ∧ (tok 5 1).kind ≠ .eos := by
  unfold standsAt SlotActs TokensAt; decide +kernel
theorem witness_Router_iter_take : standsAt 0x57 (wf 0 0 0) [] {} [0, 3] [(0, tok 5 0x200000000)] ∧ ({} : OpSt).hold = none ∧ (tok 5 0x200000000).fmt = 5 := by
  unfold standsAt SlotActs TokensAt; decide +kernel
theorem witness_Router_iter_send : let o : OpSt := { hold := some (tok 5 0x200000000), k := 1 }
    let s := fabS 0x57 (wf 0 0 0) [] o []
    SlotActs s (wf 0 0 0) (fabF 0x57 (wf 0 0 0) []) ∧ s.opSt (fabF 0x57 (wf 0 0 0) []) = o ∧ 1 < bitsAt (0x200000000 : Pay).toNat 32 32 ∧ bitsAt (0x200000000 : Pay).toNat 32 32 ≤ 2 := by
  unfold SlotActs; decide +kernel
theorem witness_Router_const : let s := fabS 0x74 (wf 7 0 0) [3] {} [(3, [tok 0 0])]
    let u := fabS 0x74 (wf 7 0 0) [] {} [(4, [tok 0 0])]
    s.head (fabF 0x74 (wf 7 0 0) [3]) (if (fabF 0x74 (wf 7 0 0) [3]).fed 3 then 3 else 4) = some (tok 0 0) ∧
    u.head (fabF 0x74 (wf 7 0 0) []) (if (fabF 0x74 (wf 7 0 0) []).fed 3 then 3 else 4) = some (tok 0 0) ∧ (tok 0 0).poison = false := by decide +kernel
theorem witness_Router_eosq : standsAt 0x75 (wf 0 0 1) [] {} [0, 3] [(0, tok 5 1)] ∧ standsAt 0x75 (wf 0 0 1) [] {} [0, 3] [(0, eosToken 0)] ∧
    (tok 5 1).kind ≠ .eos ∧ (eosToken 0).kind = .eos := by unfold standsAt SlotActs TokensAt; decide +kernel

/-! ### Matrix words and tiles -/

/-- The word of an mma of 16 rows on tile 0, with a scale. -/
def mmaW (scaled : Bool) : FabW := { wf 10 0 (if scaled then 0x200 else 0) with ik := 3 }
/-- A machine at that word with a panel. -/
def mmaS (scaled : Bool) (o : OpSt) (toks : Tab (List Token)) (tcw : BitVec 16) : Machine.State :=
  let s := fabS 0x40 (mmaW scaled) [1, 2] o toks
  { s with sectors := [(0, { s.sec 0 with cells := [(0, { tcw := [(0, tcw)] })] })] }
/-- The slot of that word. -/
def mmaF (scaled : Bool) : Fab := fabF 0x40 (mmaW scaled) [1, 2]
/-- A panel of 16 tokens. -/
def panel16 : List Token := List.replicate 16 (tok 10 0)
theorem witness_Mma_panel : let s := mmaS true {} [(1, [tok 10 1])] 0
    SlotActs s (mmaW true) (mmaF true) ∧ s.head (mmaF true) 1 = some (tok 10 1) ∧ s.mayBegin (mmaF true) (mmaF true).mmaTile = true ∧ (mmaF true).fed 3 = false := by
  unfold SlotActs; decide +kernel
theorem witness_Mma_panel_order : let f := fabF 0x40 (mmaW false) [1, 3]
    let s := fabS 0x40 (mmaW false) [1, 3] {} [(1, [tok 10 1]), (3, [tok 0 0])]
    SlotActs s (mmaW false) f ∧ s.head f 1 = some (tok 10 1) ∧ s.head f 3 = some (tok 0 0) ∧ s.mayBegin f f.mmaTile = true ∧ f.fed 1 = true ∧ f.fed 3 = true ∧
    (fabS 0x40 (mmaW false) [1, 3] {} [(1, [tok 10 1])]).head f 3 = none := by unfold SlotActs; decide +kernel
theorem witness_Mma_panel_waits : (mmaS true {} [(1, [tok 10 1])] 0x8000).mayBegin (mmaF true) (mmaF true).mmaTile = false := by decide +kernel
theorem witness_Mma_panel_goes_on : let o : OpSt := { panel := panel16.drop 1 }
    (mmaS true o [(1, [tok 10 1])] 0x4000).head (mmaF true) 1 = some (tok 10 1) ∧ o.panel ≠ [] ∧ o.panel.length < 16 * (mmaF true).mmaTile.n := by decide +kernel
theorem witness_Mma_scales : let o : OpSt := { panel := panel16 }
    (mmaS true o [(2, [tok 14 1])] 0x4000).head (mmaF true) 2 = some (tok 14 1) ∧ (mmaW true).x.getLsbD 9 = true ∧
    16 * (mmaF true).mmaTile.n ≤ o.panel.length ∧ o.scales.length < 16 * (mmaF true).mmaTile.n := by decide +kernel
theorem witness_Mma_row : let o : OpSt := { panel := panel16, scales := panel16, pos := 14 }
    let s := mmaS true o [(0, [tok 10 1]), (2, [tok 14 1])] 0x4000
    s.head (mmaF true) 0 = some (tok 10 1) ∧ badOperand (tok 10 1) 10 = none ∧ 16 * (mmaF true).mmaTile.n ≤ o.panel.length ∧
    16 * (mmaF true).mmaTile.n ≤ o.scales.length ∧ s.head (mmaF true) 2 = some (tok 14 1) ∧ badOperand (tok 14 1) 14 = none ∧ o.pos + 1 < (mmaF true).mmaTile.m ∧
    ¬groupsOf 10 ≤ o.grp + 1 ∧ groupsOf 10 ≤ (groupsOf 10 - 1) + 1 ∧ 1 < groupsOf 10 := by decide +kernel
theorem witness_Mma_last_row : let o : OpSt := { panel := panel16, pos := 15, grp := groupsOf 10 - 1 }
    let s := mmaS false o [(0, [tok 10 1])] 0x4000
    s.head (mmaF false) 0 = some (tok 10 1) ∧ (mmaW false).x.getLsbD 9 = false ∧ groupsOf 10 ≤ o.grp + 1 ∧ o.grp ≠ 0 ∧ (mmaF false).mmaTile.m ≤ o.pos + 1 ∧
    (mmaW false).imm.toNat / 4 % 4096 ≤ o.step ∧ 0 < ({ mmaW false with imm := 4 } : FabW).imm.toNat / 4 % 4096 ∧
    ((s.doneMma (mmaF false) (mmaF false).mmaTile).sendAll (mmaF false) ((mmaF false).both (zeroToken 0))).isSome = true := by decide +kernel
/-- A machine at a word on tile 0 of its cell, with that tile's word. -/
def tileS (op : BitVec 8) (w : FabW) (o : OpSt) (tcw : BitVec 16) : Machine.State :=
  let s := fabS op w [] o [(0, [tok 0 0])]
  { s with sectors := [(0, { s.sec 0 with cells := [(0, { tcw := [(0, tcw)] })] })] }
/-- The slot of that word. -/
def tileF (op : BitVec 8) (w : FabW) : Fab := fabF op w []
theorem witness_Tiles : let s := tileS 0x41 (wf 0 0 0) {} 0x4000
    let u := tileS 0x41 (wf 0 0 0) {} 0x8000
    (SlotActs s (wf 0 0 0) (tileF 0x41 (wf 0 0 0)) ∧ TokensAt s (tileF 0x41 (wf 0 0 0)) [0, 1, 2, 3] [(0, tok 0 0)] ∧ NoEos [(0, tok 0 0)]) ∧
    tcwState (s.tcw (tileF 0x41 (wf 0 0 0)).tile) = .acc ∧ tcwState (u.tcw (tileF 0x41 (wf 0 0 0)).tile) ≠ .acc ∧
    ((u.clearTile (tileF 0x41 (wf 0 0 0)).tile).sendAll (tileF 0x41 (wf 0 0 0)) ((tileF 0x41 (wf 0 0 0)).both (zeroToken 0))).isSome = true := by
  unfold SlotActs TokensAt NoEos; decide +kernel
theorem witness_Tiles_full : let s := tileS 0x42 (wf 8 0 0) {} 0x8000
    let u := tileS 0x42 (wf 8 0 0) {} 0
    (s.opSt (tileF 0x42 (wf 8 0 0))).hold = none ∧ tcwState (s.tcw (tileF 0x42 (wf 8 0 0)).tile) = .full ∧ taintFault (s.tcw (tileF 0x42 (wf 8 0 0)).tile) = none ∧
    tcwState (u.tcw (tileF 0x42 (wf 8 0 0)).tile) ≠ .full := by decide +kernel
theorem witness_Tiles_sends : let o : OpSt := { hold := some (tok 0 0), st := 1, outq := [(0, tok 8 1), (0, tok 8 2)] }
    let s := tileS 0x43 (wf 8 0 0) o 0x8000
    (s.opSt (tileF 0x43 (wf 8 0 0))).hold = some (tok 0 0) ∧ o.st = 1 ∧ o.outq = (0, tok 8 1) :: [(0, tok 8 2)] ∧
    (s.sendAll (tileF 0x43 (wf 8 0 0)) (((tileF 0x43 (wf 8 0 0)).drainTo (tok 0 0)).map fun g => (g, tok 8 1))).isSome = true ∧ ({ o with st := 0 } : OpSt).st ≠ 1 := by decide +kernel
theorem witness_Tiles_mnrm : let w := wf 0 0 0
    let f := tileF 0x44 w
    let t := f.tile
    let s := tileS 0x44 w { hold := some (tok 6 0), k := t.m } 0x8000
    f.tileInt t = false ∧ (s.opSt f).hold = some (tok 6 0) ∧ t.m ≤ (s.opSt f).k ∧ 0 < t.m ∧ (s.sendAll f (f.both (tok 6 0))).isSome = true := by decide +kernel
/-- Block 0 holds an mma of an integer format on tile 0, and an mnrm of that tile. -/
def intTile : Blk := { words := [putF ⟨0x44, wf 0 0 0⟩, putF ⟨0x40, wf 1 0 0⟩] }
theorem witness_Tiles_mnrm_integer : let f : Fab := ⟨b0, 0, wf 0 0 0, { image := { blks := [intTile] }, sched := [[{}, {}]] }, intTile, {}, 0, 0, 0⟩
    let s := tileS 0x44 (wf 0 0 0) {} 0x8000
    f.tileInt f.tile = true ∧ ((s.setRc f.tile 0).sendAll f (f.both (dataToken 6 (s.mnrmStatus f.tile) 0))).isSome = true := by decide +kernel
theorem witness_Tiles_tainted : taintFault ((tileS 0x42 (wf 8 0 0) {} 0x8010).tcw (tileF 0x42 (wf 8 0 0)).tile) = some .poison ∧
    taintFault ((tileS 0x42 (wf 8 0 0) {} 0x8008).tcw (tileF 0x42 (wf 8 0 0)).tile) = some .regionFault := by decide +kernel
theorem witness_Tiles_mdrn_steers : let w := wf 8 0 0xC0
    w.x.getLsbD 6 = true ∧ tagsOk [(0, 6)] [(0, tok 6 1)] = true ∧ ¬(w.x.toNat / 128 < (tokAt [(0, tok 6 1)] 0).pay.toNat % 8) ∧
    w.x.toNat / 128 < (tokAt [(0, tok 6 2)] 0).pay.toNat % 8 := by decide +kernel
theorem witness_Tiles_mdrn_takes : let w := wf 8 0 0x30
    let f := fabF 0x43 w [1, 2]
    let s := fabS 0x43 w [1, 2] { hold := some (tok 0 0) } [(1, [tok 7 0]), (2, [tok 7 0])]
    w.x.getLsbD 4 = true ∧ w.x.getLsbD 5 = true ∧ (s.opSt f).panel.length < f.tile.m / 16 ∧ s.head f 1 = some (tok 7 0) ∧ badOperand (tok 7 0) 7 = none ∧
    (s.opSt f).scales.length < f.tile.n ∧ s.head f 2 = some (tok 7 0) := by decide +kernel
theorem witness_Tiles_mrd_sends : let o : OpSt := { hold := some (tok 0 0), k := 3 }
    let s := tileS 0x42 (wf 8 0 0) o 0x8000
    s.opSt (tileF 0x42 (wf 8 0 0)) = o ∧ (s.sendAll (tileF 0x42 (wf 8 0 0)) ((tileF 0x42 (wf 8 0 0)).both (tok 8 0))).isSome = true := by decide +kernel
theorem witness_Tiles_mdrn_forms : let o : OpSt := { hold := some (tok 0 0), panel := [tok 7 0], scales := [tok 7 0] }
    o.st ≠ 1 ∧ (tileF 0x43 (wf 8 0 0x30)).tile.m / 16 ≤ o.panel.length ∧ (tileF 0x43 (wf 8 0 0x30)).tile.n ≤ o.scales.length := by decide +kernel

/-! ### Memory nodes -/

/-- A place of the plain page. -/
def plainT : Tgt := ⟨some 0, 0x11, 0, 0x40, 0x40⟩
/-- A memory node with tokens at its positions. -/
def nodeS (op : BitVec 8) (w : FabW) (feeds : List Nat) (toks : List (Nat × Token)) : Machine.State := fabS op w feeds {} (toks.map fun p => (p.1, [p.2]))
theorem witness_Memory_mld : let w := wf 8 0 0
    let s := nodeS 0x60 w [] [(0, tok 0 0x10040)]
    FiresOn s w (fabF 0x60 w []) [(0, 0)] [(0, tok 0 0x10040)] ∧ w.x.getLsbD 0 = false ∧ NodeReaches s (fabF 0x60 w []) 0x10040 64 64 .read plainT ∧
    s.staged? (flashPage plainT.phys) = none := by unfold FiresOn SlotActs TokensAt NoEos NodeReaches Quiet; decide +kernel
theorem witness_Memory_mld_stored : ∀ k, (nodeS 0x60 (wf 8 0 0) [] [(0, tok 0 0x10040)]).task? b0.task = some k → k.stores = [] := by
  intro k h
  obtain rfl : fabTask {} [(0, [tok 0 0x10040])] = k := by
    have e : (nodeS 0x60 (wf 8 0 0) [] [(0, tok 0 0x10040)]).task? b0.task = some (fabTask {} [(0, [tok 0 0x10040])]) := by decide +kernel
    rw [e] at h
    exact Option.some.inj h
  rfl
theorem witness_Memory_mld_local : let w := wf 8 0 1
    FiresOn (nodeS 0x60 w [] [(0, tok 0 0x3FFFC0)]) w (fabF 0x60 w []) [(0, 0)] [(0, tok 0 0x3FFFC0)] ∧ w.x.getLsbD 0 = true := by
  unfold FiresOn SlotActs TokensAt NoEos; decide +kernel
theorem witness_Memory_mst : let w := wf 0 0 0
    let s := nodeS 0x61 w [1] [(0, tok 0 0x10040), (1, tok 5 7)]
    FiresOn s w (fabF 0x61 w [1]) [(0, 0), (2, 15)] [(0, tok 0 0x10040), (1, tok 5 7)] ∧ NodeReaches s (fabF 0x61 w [1]) 0x10040 64 64 .write plainT ∧
    plainT.sf = false ∧ plainT.ver = false ∧ s.bufFull (fabF 0x61 w [1]) 0 (s.storeOwner (fabF 0x61 w [1]) plainT) 0 = false := by
  unfold FiresOn SlotActs TokensAt NoEos NodeReaches Quiet; decide +kernel
theorem witness_Memory_mst_local : let w := wf 5 0 1
    let s := nodeS 0x61 w [1] [(0, tok 0 0x40), (1, tok 5 7)]
    let t := localTgt (fabF 0x61 w [1]) 0x40
    FiresOn s w (fabF 0x61 w [1]) [(0, 0), (1, 5), (2, 15)] [(0, tok 0 0x40), (1, tok 5 7)] ∧ s.reserved t.phys 64 = false ∧
    s.bufFull (fabF 0x61 w [1]) 0 (s.storeOwner (fabF 0x61 w [1]) t) (t.storeKind []).granule = false := by
  unfold FiresOn SlotActs TokensAt NoEos; decide +kernel
theorem witness_Memory_matm : let w := wf 0 0 0x19
    let s := nodeS 0x62 w [1, 2] [(0, tok 0 0x10048), (1, tok 0 5), (2, tok 0 0)]
    let t : Tgt := ⟨some 0, 0x11, 0, 0x48, 0x48⟩
    FiresOn s w (fabF 0x62 w [1, 2]) [(0, 0), (1, 0), (2, 0)] [(0, tok 0 0x10048), (1, tok 0 5), (2, tok 0 0)] ∧ NodeReaches s (fabF 0x62 w [1, 2]) 0x10048 8 8 .both t ∧
    t.sf = false ∧ t.ver = false ∧ (s.touch t).tgtPoison t 8 = false ∧ amoNew 9 64 0 5 0 = some 5 ∧ amoNew 9 64 0 5 1 = none := by
  unfold FiresOn SlotActs TokensAt NoEos NodeReaches Quiet; decide +kernel
/-- A version node at the object, whose versions are 3 to 6. -/
def versionS (op : BitVec 8) (v : Pay) : Machine.State :=
  ((nodeS op (wf 0 0 0) [1] [(0, tok 0 0x20000), (1, tok 0 v)]).wrWord 0x100000 7).wrWord 0x100008 3
theorem witness_Memory_mldv : FiresOn (versionS 0x63 3) (wf 0 0 0) (fabF 0x63 (wf 0 0 0) [1]) [(0, 0), (1, 0)] [(0, tok 0 0x20000), (1, tok 0 3)] ∧
    NodeReaches (versionS 0x63 3) (fabF 0x63 (wf 0 0 0) [1]) 0x20000 8 8 .read objT ∧ objT.ver = true ∧ (versionS 0x63 3).poisonIn objT.line 64 = false ∧
    (versionS 0x63 3).vFloor objT.line = 3 ∧ (versionS 0x63 3).vNext objT.line = 7 := by unfold FiresOn SlotActs TokensAt NoEos NodeReaches Quiet; decide +kernel
theorem witness_Memory_mstv : FiresOn (versionS 0x64 3) (wf 0 0 0) (fabF 0x64 (wf 0 0 0) [1]) [(0, 0), (1, 0)] [(0, tok 0 0x20000), (1, tok 0 3)] ∧
    NodeReaches (versionS 0x64 3) (fabF 0x64 (wf 0 0 0) [1]) 0x20000 8 8 .both objT := by unfold FiresOn SlotActs TokensAt NoEos NodeReaches Quiet; decide +kernel
/-- The object's line is poisoned. -/
def badVersionS (op : BitVec 8) : Machine.State := { versionS op 3 with poison := [(0x100000 / 64, true)] }
theorem witness_Memory_mldv_poison : FiresOn (badVersionS 0x63) (wf 0 0 0) (fabF 0x63 (wf 0 0 0) [1]) [(0, 0), (1, 0)] [(0, tok 0 0x20000), (1, tok 0 3)] ∧
    NodeReaches (badVersionS 0x63) (fabF 0x63 (wf 0 0 0) [1]) 0x20000 8 8 .read objT ∧ (badVersionS 0x63).poisonIn objT.line 64 = true ∧
    (((badVersionS 0x63).touch objT).sendAll (fabF 0x63 (wf 0 0 0) [1]) ((fabF 0x63 (wf 0 0 0) [1]).both { dataToken 0 0 0 with poison := true })).isSome = true := by
  unfold FiresOn SlotActs TokensAt NoEos NodeReaches Quiet; decide +kernel
theorem witness_Memory_mstv_poison : FiresOn (badVersionS 0x64) (wf 0 0 0) (fabF 0x64 (wf 0 0 0) [1]) [(0, 0), (1, 0)] [(0, tok 0 0x20000), (1, tok 0 3)] ∧
    NodeReaches (badVersionS 0x64) (fabF 0x64 (wf 0 0 0) [1]) 0x20000 8 8 .both objT ∧ (badVersionS 0x64).poisonIn objT.line 64 = true := by
  unfold FiresOn SlotActs TokensAt NoEos NodeReaches Quiet; decide +kernel
theorem witness_Memory_otok : standsAt 0x65 (wf 0 0 4) [] {} [0, 3] [(0, tok 5 1)] ∧
    (fabS 0x65 (wf 0 0 4) [] { panel := [tok 5 1] } []).wavesDone b0 0 = false ∧
    ({ fabS 0x65 (wf 0 0 4) [] { panel := [tok 5 1] } [] with tasks := [{ fabTask { panel := [tok 5 1] } [] with wrecs := [] }] } : Machine.State).wavesDone b0 0 = true := by
  unfold standsAt SlotActs TokensAt; decide +kernel

/-! ### Pins -/

/-- A pin or pout whose port has a state. -/
def pinS (op : BitVec 8) (o : OpSt) (p : PortSt) (toks : Tab (List Token)) : Machine.State :=
  let s := fabS op (wf 8 0 0) [] o toks
  { s with sectors := [(0, { s.sec 0 with ports := [(0, p)] })] }
/-- Its slot. -/
def pinF (op : BitVec 8) : Fab := fabF op (wf 8 0 0) []
theorem witness_Pins_head : let s := pinS 0x70 { owe := some 0 } { head := [tok 8 1] } []
    SlotActs s (wf 8 0 0) (pinF 0x70) ∧ (s.port 0 0).head = [tok 8 1] ∧ (s.opSt (pinF 0x70)).owe = some 0 ∧ (tok 8 1).kind ≠ .drain ∧ (pinF 0x70).fed 3 = false ∧
    (s.sendAll (pinF 0x70) ((pinF 0x70).both (tok 8 1))).isSome = true := by unfold SlotActs; decide +kernel
theorem witness_Pins_head_order : let f := fabF 0x70 (wf 8 0 0) [3]
    let s : Machine.State := { fabS 0x70 (wf 8 0 0) [3] { owe := some 0 } [(3, [tok 0 0])] with
      sectors := [(0, { (fabS 0x70 (wf 8 0 0) [3] {} []).sec 0 with ports := [(0, { head := [tok 8 1] })] })] }
    SlotActs s (wf 8 0 0) f ∧ (s.port 0 0).head = [tok 8 1] ∧ f.fed 3 = true ∧ s.head f 3 = some (tok 0 0) := by unfold SlotActs; decide +kernel
theorem witness_Pins_poison_order : let f := fabF 0x70 (wf 8 0 0) [3]
    let bad : Token := { tok 0 0 with poison := true }
    let s : Machine.State := { fabS 0x70 (wf 8 0 0) [3] { owe := some 0 } [(3, [bad])] with
      sectors := [(0, { (fabS 0x70 (wf 8 0 0) [3] {} []).sec 0 with ports := [(0, { head := [tok 8 1] })] })] }
    (s.port 0 0).head = [tok 8 1] ∧ (s.opSt f).owe = some 0 ∧ (tok 8 1).kind ≠ .eos ∧ f.fed 3 = true ∧ s.head f 3 = some bad ∧ bad.poison = true := by decide +kernel
theorem witness_Pins_empty : let s := pinS 0x70 { owe := some 0 } {} []
    (s.port 0 0).head = [] ∧ (s.port 0 0).act = none := by decide +kernel
theorem witness_Pins_element : let s := pinS 0x70 { owe := some 0 } { act := some (bind1 false) } []
    (s.port 0 0).head = [] ∧ (s.opSt (pinF 0x70)).owe = some 0 ∧ (s.port 0 0).act = some (bind1 false) ∧ (bind1 false).write = false ∧ (s.port 0 0).held = none ∧
    s.plan 0 (bind1 false) 0 = .elem [.mem 0x10000 64] ∧ (match s.readPieces 0 [.mem 0x10000 64] with | .bytes _ _ k => !k | _ => false) = true := by decide +kernel
theorem witness_Pins_pout_eos : let s := pinS 0x71 {} {} [(0, [eosToken 0])]
    TokensAt s (pinF 0x71) [0, 3] [(0, eosToken 0)] ∧ (tokAt [(0, eosToken 0)] 0).kind = .eos := by unfold TokensAt; decide +kernel
theorem witness_Pins_pout : let s := pinS 0x71 {} { act := some { bind1 true with pos := 3 } } [(0, [tok 8 1])]
    TokensAt s (pinF 0x71) [0, 3] [(0, tok 8 1)] ∧ (tokAt [(0, tok 8 1)] 0).kind = .data ∧ (s.port 0 0).act = some { bind1 true with pos := 3 } ∧
    (s.port 0 0).held = none ∧ (match s.putPieces (pinF 0x71) (s.plan 0 { bind1 true with pos := 3 } 3).pieces (bytesOf 64 1) with | .stores ks => ks.length == 1 | _ => false) = true ∧
    s.plan 0 { bind1 true with pos := 4 } 4 = .ended ∧ s.plan 0 { bind1 true with pos := 3 } 3 ≠ .ended := by unfold TokensAt; decide +kernel
/-- A configuration whose pout of port 0 stands in block 0, and whose block 1 sends its exit 0 to that port. -/
def shareR : Share :=
  { image := { blks := [blockOf 0x71 (wf 8 0 0) [], { words := [putF ⟨0x72, { wf 0 0 0 with t0 := 0x200 }⟩], exits := 1 }], routes := [{ src := 1, exit := 0, kind := 1, dst := 0 }] }
    sched := [[{}], [{}]] }
/-- A machine at that pout, with a token that waits on the route, and a port of a state. -/
def routedS (t : Token) (p : PortSt) : Machine.State :=
  let s := fabS 0x71 (wf 8 0 0) [] {} []
  { s with
    sectors := [(0, { sec1 0 (thr []) with act := some shareR, ports := [(0, p)] })]
    tasks := [{ task1 1 with insts := [{ ops := [(0, {})], chans := [(chanKey { b0 with blk := 1 } 0 7, [t])], waves := [(0, 1)] }] }] }
/-- Its slot. -/
def routedF : Fab := ⟨b0, 0, wf 8 0 0, shareR, blockOf 0x71 (wf 8 0 0) [], {}, 0, 0, 0⟩
theorem witness_Pins_routed : let s := routedS (tok 8 1) { act := some (bind1 true) }
    SlotActs s (wf 8 0 0) routedF ∧ s.heads routedF [0, 3] = none ∧ s.routedToPort routedF = some ({ b0 with blk := 1 }, 0, tok 8 1) ∧ (tok 8 1).kind = .data ∧
    (s.port 0 0).act = some (bind1 true) ∧ (s.port 0 0).held = none ∧
    (match s.putPieces routedF (s.plan 0 (bind1 true) 0).pieces (bytesOf 64 1) with | .stores ks => ks.length == 1 | _ => false) = true := by unfold SlotActs; decide +kernel
theorem witness_Pins_routed_others : (routedS (eosToken 0) {}).routedToPort routedF = some ({ b0 with blk := 1 }, 0, eosToken 0) ∧
    (routedS { tok 8 1 with poison := true } {}).routedToPort routedF = some ({ b0 with blk := 1 }, 0, { tok 8 1 with poison := true }) := by decide +kernel
theorem witness_Pins_pout_unbound : (pinS 0x71 {} {} [(0, [tok 8 1])]).routedToPort (pinF 0x71) = none ∧ ((pinS 0x71 {} {} [(0, [tok 8 1])]).port 0 0).act = none ∧ (tokAt [(0, { tok 8 1 with kind := .thread })] 0).kind = .thread := by decide +kernel

/-! ### Waves -/

/-- A machine whose block 0 has a pin with a token to give. -/
def waveS : Machine.State := pinS 0x70 {} { head := [tok 8 1] } []
theorem witness_Waves_fire : ∃ k, (waveS.passDrains b0).bk? b0 = some k ∧ k.t.fires = true ∧ k.hasSource = true ∧ (waveS.passDrains b0).sourcesReady k = true :=
  ⟨⟨b0, fabTask {} [], { ops := [(0, {})], waves := [(0, 1)] }, shareFor 0x70 (wf 8 0 0) [], blockOf 0x70 (wf 8 0 0) [], ⟩, by decide +kernel⟩
/-- A store of wave 0 for an owner. -/
def store0 (owner : Nat) : PStore := { b := b0, wave := 0, owner := owner, sid := 0, k := .bytes (scratchAt 0 0) [some 1] }
/-- Wave 0 has fired, with stores held. -/
def commitS (awc : Bool) (l : List PStore) : Machine.State :=
  let s := fabS 0x01 (wf 5 0 0) [] {} []
  { s with tasks := [{ fabTask {} [] with wrecs := [{ b := b0, w := 0, awc := awc }], stores := l }] }
theorem witness_Waves_commit : ∃ t i r, (commitS false []).wave? b0 0 = some (t, i, r) ∧ t.releases = true ∧ i.waveDone b0 0 = true ∧ t.isFirst b0 0 = true ∧ t.storesOf b0 0 = [] :=
  ⟨_, _, _, rfl, by decide +kernel⟩
theorem witness_Waves_commit_atomic : ∃ t i r, (commitS true [store0 0, store0 1]).wave? b0 0 = some (t, i, r) ∧ t.isFirst b0 0 = true ∧ t.storesOf b0 0 ≠ [] ∧ r.awc = true ∧
    ∀ p ∈ t.storesOf b0 0, (commitS true [store0 0, store0 1]).storeHeld (t.storesOf b0 0) p = false ∧ (commitS true [store0 0, store0 1]).handHeld p = false :=
  ⟨_, _, _, rfl, by decide +kernel⟩
/-- Whether stores about to be released meet nothing, and whether one of them has to wait. -/
def meets (s : Machine.State) (l : List PStore) : Bool := (s.meetStores l).1
/-- A store of wave 0 to the plain page. -/
def store1 : PStore := { b := b0, wave := 0, owner := noOwner, sid := 0, k := .page 0 0x11 0 0x40 [some 1] }
theorem witness_Waves_meets : meets (commitS true [store0 0, store0 1]) [store0 0, store0 1] = true ∧ Quiet (commitS true [store1]) ∧
    (∀ p ∈ [store1], ∀ t, p.k.tgt? = some t → (commitS true [store1]).unreachable t = false ∧ t.sf = false) := by
  refine ⟨by decide +kernel, by unfold Quiet; decide +kernel, ?_⟩
  intro p hp t h
  obtain rfl := List.mem_singleton.1 hp
  cases h
  decide +kernel
/-- A store of wave 0 through a page that maps scratch of a sector, and a machine that holds sector 0. -/
def storeM (sect : Nat) : PStore := { store1 with k := .page 5 0x20000001 (sect * 2 ^ 56) 0x40 [some 1] }
theorem witness_Waves_meet_lost : let s := commitS true [storeM 1]
    (∃ t k, (storeM 1).k.tgt? = some t ∧ s.task? (storeM 1).b.task = some k ∧ k.runs = true ∧ s.holdsMapped k.ctx t = false ∧ (storeM 1).bad = false) ∧
    ∃ t k, (storeM 0).k.tgt? = some t ∧ s.task? (storeM 0).b.task = some k ∧ s.holdsMapped k.ctx t = true :=
  ⟨⟨_, _, rfl, rfl, by decide +kernel⟩, _, _, rfl, rfl, by decide +kernel⟩
theorem witness_Waves_meet_waits : meets ({ commitS false [store1] with umber := { retries := [{ die := 0, sect := 0, lanes := [3], tries := 1, sid := 0, due := 10, layer := 0, line := 0 }] } } : Machine.State) [store1] = false := by decide +kernel
theorem witness_Waves_release : ∃ t i r, (commitS false [store0 0, store0 noOwner]).wave? b0 0 = some (t, i, r) ∧ t.releases = true ∧ i.waveDone b0 0 = true ∧ r.awc = false ∧
    shareOf t b0 0 0 ≠ [] ∧ (∀ p ∈ shareOf t b0 0 0, (commitS false [store0 0, store0 noOwner]).handHeld p = false) ∧ (∀ p ∈ t.stores, p.b = b0 → p.owner = 0 → 0 ≤ p.wave) ∧
    shareOf t b0 0 noOwner = [store0 noOwner] ∧ (commitS false [store0 0, store0 noOwner]).storeHeld [store0 noOwner] (store0 noOwner) = false :=
  ⟨_, _, _, rfl, by decide +kernel⟩
/-- A thread token on its way to an entry queue of two slots that holds one. -/
def packetS : Machine.State :=
  { loader 0 id {} with tasks := [{ task1 1 with insts := [{ qtop := [(0, 0x3FFFF0)], qlen := [(0, 2)], fill := [(0, 1)] }], packets := [packet 5 9, packet 6 8] }] }
theorem witness_Waves_delivery : ∃ t, packetS.task? 1 = some t ∧ t.runs = true ∧ t.packets.find? (fun p => p.id == 5) = some (packet 5 9) ∧
    t.packets.find? (fun x => x.gate == 0 && x.inst == 0 && x.img == 0) = some (packet 5 9) ∧ packetS.linked t.ctx 0 (t.insts.getD 0 {}).queueSid = true ∧
    packetS.linked t.ctx 3 (t.insts.getD 0 {}).queueSid = false ∧
    Tab.get 0 (t.insts.getD 0 {}).fill 0 - Tab.get 0 (t.insts.getD 0 {}).free 0 < Tab.get 0 (t.insts.getD 0 {}).qlen 0 := ⟨_, rfl, by decide +kernel⟩
/-- A port of a read binding with spilled elements. -/
def spilled (l : List Spill) : Machine.State := pinS 0x70 {} { act := some (bind1 false), spill := l } []
theorem witness_Waves_replay : let s := spilled [{ pos := 1 }, { pos := 2, st := 1, order := 4 }, { pos := 3, st := 2, order := 3 }]
    let u := spilled [{ pos := 1, st := 1, order := 2 }, { pos := 2, st := 1, order := 1 }]
    let v := spilled [{ pos := 1, st := 1, order := 1, data := 5, got := some true }]
    (s.port 0 0).act = some (bind1 false) ∧ (s.port 0 0).nextReplay = some { pos := 3, st := 2, order := 3 } ∧
    (u.port 0 0).nextReplay = some { pos := 2, st := 1, order := 1 } ∧ (match u.readPieces 0 (u.plan 0 (bind1 false) 2).pieces with | .bytes _ _ k => !k | _ => false) = true ∧
    (v.port 0 0).nextReplay = some { pos := 1, st := 1, order := 1, data := 5, got := some true } := by decide +kernel
theorem witness_Waves_replay_full : let p : PortSt := { act := some (bind1 false), spill := [{ pos := 1, st := 1 }], held := some { pos := 2 }, full := true }
    p.nextReplay = some { pos := 1, st := 1 } ∧ p.held = some { pos := 2 } ∧ p.full = true ∧ ({ p with full := false } : PortSt).full = false := by decide +kernel

/-! ### Queues and tasks -/

/-- Queue 5 of context 1, with a state of the module. -/
def queueS (q : Wq) : Machine.State := { one (thr []) with wqs := [(5, { q with ctx := 1 })], own := { owner := 0 }, regs := { bootCode := 0 } }
theorem witness_Queues_refused : (queueS {}).mayWrite 1 = false ∧ (queueS {}).mayWrite 0 = true := by decide
theorem witness_Queues_enable : let w := (queueS { tail := 16 }).wq 5
    let on := { w.config 0x4000000000000001 with en := true, flt := false, fcause := 0 }
    w.en = false ∧ (queueS { tail := 16 }).regs.bootCode = 0 ∧ on.count ≤ 2 ^ on.qlog := by decide +kernel
theorem witness_Queues_disable : ((queueS { en := true }).wq 5).en = true ∧ ((queueS {}).wq 5).en = false := by decide
theorem witness_Queues_doorbell : let w := (queueS { en := true, tail := 3, head := 3 }).wq 5
    w.tail ≠ (19 : Word).setWidth 16 ∧ ({ w with tail := 19 } : Wq).count ≤ 2 ^ w.qlog ∧ w.en = true ∧ w.flt = false ∧ 2 ^ w.qlog < ({ w with tail := 20 } : Wq).count := by decide +kernel
theorem witness_Queues_clear : let w := (queueS { en := true, flt := true, tail := 16 }).wq 5
    (0x10000 : Word).getLsbD 16 = true ∧ w.flt = true ∧ w.count ≤ 2 ^ w.qlog := by decide +kernel
/-- An entry at 0x10000 with a completion object at 0x20000: one task of gang 0 in slot 0, no dependence. -/
def entryWords : List Word := [0x800000004C, 0, 0x20000, 0, 0, 0, 0, 0]
/-- The words of an entry at address 0x10000, for a queue whose BASE names it. -/
def fetchS (c : Ctx) : Machine.State :=
  { (queueS { en := true, tail := 1, base := 0x10000 }).store 0 (entryWords.flatMap fun w => (bytesOf 64 w.toNat).take 8) with ctxs := [(1, c)] }
/-- The place of the entry. -/
def entryT : Tgt := ⟨some 0, 0x11, 0, 0, 0⟩
theorem witness_Queues_fetch : let s := fetchS ctxO
    let w := s.wq 5
    w.en = true ∧ w.flt = false ∧ w.head ≠ w.tail ∧ s.fetchRoom 5 = true ∧ (s.ctx w.ctx).st = .active ∧ isVirt w.base = true ∧
    s.xlateV w.ctx w.base.toNat .read = .ok entryT ∧ s.flashHeld entryT = false ∧ s.tgtPoison entryT 64 = false ∧ s.unreachable entryT = false ∧ Quiet s := by unfold Quiet; decide +kernel
theorem witness_Queues_fetch_ready : let s := fetchS ctxO
    let ws := (List.range 8).map fun i => BitVec.ofNat 64 (natOf (((s.rdTgt entryT 64).drop (8 * i)).take 8))
    let l := entryLaunch 5 1 s.nextId ws
    ws = entryWords ∧ s.cwCheck 1 (ws.getD 2 0) = some none ∧ NoLaunchWaits s ∧ entryForm ws = true ∧ s.entryFits l = true ∧ l.deps = [] := by
  unfold NoLaunchWaits; decide +kernel
theorem witness_Queues_fetch_not_active : ((fetchS { ctxO with st := .ending }).ctx ((fetchS { ctxO with st := .ending }).wq 5).ctx).st ≠ .active := by decide +kernel
/-- Sector 3, freed and being scrubbed. -/
def scrubbing : Machine.State := { one (thr []) with sectors := [(0, sec1 0 (thr [])), (3, { scrub := some 10 })], cyc := 10 }
theorem witness_Tasks_scrub : (scrubbing.sec 3).scrub = some 10 ∧ 10 ≤ scrubbing.cyc ∧ (scrubbing.sec 3).v = false := by decide
/-- A launch of context 1 that is READY. -/
def readyL (id q : Nat) (prio : Nat) : Launch := { id := id, q := q, ctx := 1, st := .ready, tcount := 1, prio := prio }
/-- Two launches that wait for a context that may hold no more sectors. -/
def starved : Machine.State :=
  { one (thr []) with launches := [readyL 1 4 7, readyL 2 3 6], ctxs := [(1, { ctxO with sectmax := 0 })], wqs := [(4, { ctx := 1, en := true, tail := 1 }), (3, { ctx := 1, en := true, tail := 1 })], cyc := 5000000 }
theorem witness_Tasks_reservation : starved.launch? 1 = some (readyL 1 4 7) ∧ starved.reserving = none ∧ starved.mayReserve (readyL 1 4 7) = true ∧
    starved.mayReserve (readyL 2 3 6) = true ∧ starved.sevenAt (readyL 1 4 7) < starved.sevenAt (readyL 2 3 6) := by decide +kernel
/-- A machine whose only thread has halted. -/
def halted1 : Machine.State := one { thr [] with halted := true }
theorem witness_Tasks_end : halted1.task? 1 = some (task1 1) ∧ (task1 1).runs = true ∧ (task1 1).pre ≠ .snapped ∧
    (∀ k ∈ (task1 1).sids, (halted1.sec k).th.halted = true ∧ halted1.writesDone k = true) ∧ (∀ o ∈ halted1.ops, o.task = 1 → o.isOver = true) ∧
    halted1.empty (task1 1) = true ∧ halted1.launch? (task1 1).launch = some { id := 1, q := 0, ctx := 1, st := .running } := by decide +kernel
/-- Task 1 in a stage of its end or its pre-emption. -/
def taskS (t : Task) : Machine.State := { one (thr []) with tasks := [t], cyc := 10 }
theorem witness_Tasks_stages : (taskS { task1 1 with st := .ended }).task? 1 = some { task1 1 with st := .ended } ∧
    (taskS { task1 1 with pre := .notice 10 }).task? 1 = some { task1 1 with pre := .notice 10 } ∧ 10 ≤ (taskS (task1 1)).cyc ∧
    ({ task1 1 with pre := .notice 10 } : Task).runs = true ∧ (taskS { task1 1 with pre := .snapped }).task? 1 = some { task1 1 with pre := .snapped } ∧
    (taskS { task1 1 with pre := .markers }).task? 1 = some { task1 1 with pre := .markers } ∧
    (taskS { task1 1 with pre := .markers }).checkpointQuiet { task1 1 with pre := .markers } = true := by decide +kernel
theorem witness_Tasks_grace_early : let t : Task := { task1 2 with pre := .notice 10 }
    let s : Machine.State := { two (thr []) { thr [] with wait := .record 3, ts := true } with tasks := [t], cyc := 10 }
    s.task? 1 = some t ∧ t.runs = true ∧ (∃ j ∈ t.sids, (∃ c, (s.sec j).th.wait = .record c) ∧ (s.sec j).th.stopped = false) ∧ ∃ j ∈ t.sids, ¬∃ c, (s.sec j).th.wait = .record c := by
  refine ⟨by decide, by decide, ⟨1, by decide, ⟨3, by decide⟩, by decide⟩, 0, by decide, ?_⟩
  rintro ⟨c, h⟩
  cases h
/-- Slot 0 while its task takes its markers. -/
def markS : Machine.State :=
  let s := fabS 0x01 (wf 5 0 0) [] {} []
  { s with tasks := [{ fabTask {} [] with pre := .markers, wrecs := [] }] }
theorem witness_Tasks_marker : ∃ k, markS.bk? b0 = some k ∧ k.t.pre = .markers ∧ k.t.runs = true ∧ 0 < k.blk.n ∧ markS.canMark k 0 = true := ⟨_, rfl, by decide +kernel⟩

/-! ### Swaps and waits -/

/-- Task 1, whose instance schedules two images of one sector. -/
def hostT (h : HostSt) (drain : Nat) : Task := { task1 1 with insts := [{ host := some h, drain := drain, qtop := [(0, 0x3FFFF0)], qlen := [(0, 2)], fill := [(0, 1)] }] }
/-- Its machine; the object in slot 0 holds the two images. -/
def hostS (h : HostSt) (drain : Nat) : Machine.State :=
  { one (thr []) with tasks := [hostT h drain], ctxs := [(1, { ctx1 with handles := [(0, { st := .sealed, obj := { obj2 with images := [{ scheds := [{}] }, {}, {}] } })] })] }
theorem witness_Swaps_decision : let h : HostSt := { cands := [0, 2] }
    (hostS h 0).task? 1 = some (hostT h 0) ∧ ∃ i, (hostT h 0).insts.findIdx? (fun i => i.host.isSome) = some 0 ∧ (hostT h 0).insts[0]? = some i ∧ i.host = some h ∧
    (hostT h 0).fires = true ∧ i.drain = 0 ∧ i.decisionDue h = true ∧ i.choose h = some 0 ∧ h.resident ≠ some 0 := ⟨by decide +kernel, _, by decide +kernel, rfl, by decide +kernel⟩
theorem witness_Swaps_decision_stays : let h : HostSt := { cands := [0, 2], resident := some 0 }
    ∃ i, (hostT h 0).insts[0]? = some i ∧ i.decisionDue h = true ∧ i.choose h = some 0 ∧ h.resident = some 0 := ⟨_, rfl, by decide +kernel⟩
/-- Whether the host can load image c. -/
def hostLoads (c : Nat) : Bool :=
  let s := hostS { cands := [0, 2], chosen := some c } 3
  (({ s with nextId := s.nextId + 1 } : Machine.State).loadHost (hostT { cands := [0, 2], chosen := some c } 3) (Tab.get {} (s.ctx 1).handles 0).obj c s.nextId
    ((hostT { cands := [0, 2], chosen := some c } 3).insts.getD 0 {}).sids).isSome
theorem witness_Swaps_host : let h : HostSt := { cands := [0, 2], chosen := some 0 }
    (hostT h 3).insts.findIdx? (fun i => i.host.isSome) = some 0 ∧ ((hostS h 3).quietInst 1 0 3).isSome = true ∧ ((hostT h 3).insts.getD 0 {}).host = some h ∧
    ((hostS h 3).launch? 1).isSome = true ∧ (hostS h 3).tilesEmpty ((hostT h 3).insts.getD 0 {}).sids = true ∧ (hostS h 3).steadyAt ((hostT h 3).insts.getD 0 {}).sids = true ∧ hostLoads 0 = true ∧
    ({ hostS h 3 with rails := [(0, { mv := .swap })] } : Machine.State).steadyAt ((hostT h 3).insts.getD 0 {}).sids = false ∧
    ({ hostS h 3 with sectors := [(0, { sec1 0 (thr []) with cells := [(0, { tcw := [(0, 0x8000)] })] })] } : Machine.State).tilesEmpty ((hostT h 3).insts.getD 0 {}).sids = false := by decide +kernel
theorem witness_Swaps_host_refused : hostLoads 1 = false := by decide +kernel
theorem witness_Swaps_quiet : ((taskS { task1 1 with insts := [{ drain := 1 }] }).quietInst 1 0 1).isSome = true ∧
    ((taskS { task1 1 with insts := [{ drain := 2 }] }).quietInst 1 0 2).isSome = true ∧ ({ drain := 1 } : Inst).sids.Nodup := by decide +kernel
/-- Slot 0 has passed on its EOS, and a new configuration is armed. -/
def armedS : Machine.State :=
  let s := fabS 0x01 (wf 5 0 0) [] { eosSent := true } []
  { s with sectors := [(0, { s.sec 0 with shadow := some (shareFor 0x02 (wf 5 0 0) []), shSt := .armed })] }
theorem witness_Swaps_group : (armedS.sec 0).shSt = .armed ∧
    ∃ a h, (armedS.sec 0).act = some a ∧ (armedS.sec 0).shadow = some h ∧ armedS.groupReady 0 a (a.group 0 0) = true := ⟨by decide +kernel, _, _, rfl, rfl, by decide +kernel⟩
/-- A thread in a wait, with its word in execution. -/
def waiting (w : Wait) (word : Word) (r : Tab Word) : Machine.State := { one { thr r with wait := w, word := some word } with cyc := 10 }
/-- Such a thread's turn, of a word and a wait that are as a condition asks. -/
def turnIs (s : Machine.State) (p : Instr → Machine.State → Bool) : Bool := match s.ctlTurn 0 with
  | .exec i u => p i u
  | .done _ => false
theorem witness_Swaps_sbar : let s := waiting (.bar 3 [4]) 0x5500000010000000 []
    turnIs (s.passAll (s.sec 0).task) (fun i u => i == .sbar (.port 4) && u.th.wait == .bar 3 [4] && u.drained u.cur 3 [4]) = true := by decide +kernel
theorem witness_Swaps_twait : turnIs (waiting (.until 10) 0x7000140001000000 []) (fun i u => i == .twaitRel 5 && u.th.wait == .until 10 && u.cyc == 10) = true := by decide +kernel
theorem witness_Swaps_bmwait : turnIs (waiting (.until 9) 0x71001D0900000000 [(7, 0), (8, 0), (9, 9)]) (fun i u => i == .bmwait 7 8 9 && u.th.wait == .until 9 && u.cyc == 10 &&
    u.ops == [] && u.rdS 9 == 9 && u.rdS 8 == 0) = true := by decide +kernel
theorem witness_Swaps_bmwait_missed : turnIs (waiting (.until 9) 0x71001D0900000000 [(7, 0), (8, 1), (9, 9)]) (fun i u => i == .bmwait 7 8 9 && u.th.wait == .until 9 && u.cyc == 10 &&
    u.ops == [] && u.rdS 9 == 9 && u.rdS 8 == 1 && !(u.sec u.cur).bit 0) = true := by decide +kernel
theorem witness_Swaps_bmwait_time (u : Machine.State) (h : u.ops = []) : DeadlineIs u 9 9 :=
  ⟨le_rfl, fun o p => (by have q := p.1; rw [h] at q; cases q), .inl rfl⟩

/-! ### Power -/

/-- A machine at CYC 4096 with a rail group and module registers. -/
def railS (r : Rail) (x : Regs) : Machine.State := { one (thr []) with rails := [(0, r)], regs := x, cyc := 4096 }
theorem witness_Power_moves : ((railS { mv := .raiseV 4096 } {}).rail 0).mv = .raiseV 4096 ∧ ((railS { mv := .raiseV 4096 } {}).rail 0).pend = none ∧
    4096 ≤ (railS {} {}).cyc ∧ ((railS { mv := .lowerV 4096 } {}).rail 0).mv = .lowerV 4096 ∧
    (let r := (railS { mv := .hold 4096, cur := 0, tgt := 2 } {}).rail 0; r.mv = .hold 4096 ∧ r.cur ≤ r.tgt) ∧
    (let r := (railS { mv := .hold 4096, cur := 2, tgt := 0 } {}).rail 0; r.mv = .hold 4096 ∧ r.tgt < r.cur) := by decide
theorem witness_Power_swap : ((railS { mv := .swap } {}).rail 0).mv = .swap ∧ (railS { mv := .swap } {}).regionsIdle (groupSids 0) = true := by decide +kernel
theorem witness_Power_stretch : (pinned.sec 0).act ≠ none ∧ (armedS.sec 0).shSt = .armed ∧ (railS {} {}).cyc % 4096 = 0 := by decide +kernel
theorem witness_Power_throttle : ((railS { thrEnd := some 4096, why := 1 } {}).rail 0).thrEnd = some 4096 ∧ ({ heat := some 3, why := 1 } : Rail).why ≠ 3 ∧ ({ why := 3 } : Rail).why = 3 ∧
    (1520 : Int) < (1521 : BitVec 16).toInt ∧ ¬(1520 : Int) < (1520 : BitVec 16).toInt ∧ ((railS { heat := some 3 } {}).rail 0).heat ≠ none ∧ ((railS {} {}).rail 0).heat = none := by decide
theorem witness_Power_window : (railS {} {}).now.any Mark.isStretch = false ∧ ({ railS {} {} with now := [.stretch 0] } : Machine.State).now.any Mark.isStretch = true := by decide
theorem witness_Power_ballast : (railS {} { slope := 400 }).regs.slope < (401 : BitVec 16) ∧ (railS {} { ballast := some 0 }).regs.ballast = some 0 ∧ (railS {} {}).regs.ballast = none ∧ (railS {} {}).regs.isOver = false ∧
    0 + 23500 ≤ ({ railS {} { ballast := some 0 } with cyc := 23500 } : Machine.State).cyc := by decide
theorem witness_Power_cap : (railS {} { capw := 3400 }).regs.capw < (3401 : BitVec 16) ∧ (railS {} {}).regs.emerg = false ∧ (railS {} { isOver := true }).regs.isOver = true ∧
    (railS {} {}).regs.ballast = none ∧ (railS {} { ballast := some 0, ballastFirst := true }).regs.ballastFirst = true ∧
    (railS {} { ballast := some 0 }).regs.ballast ≠ none ∧ (railS {} { ballast := some 0, ballastFirst := false }).regs.ballastFirst = false := by decide
theorem witness_Power_emergency : (railS {} { ballast := some 0 }).regs.ballast ≠ none ∧ (railS {} { emerg := true }).regs.emerg = true ∧
    100 * (3230 : BitVec 16).toNat ≤ 95 * (railS {} { capw := 3400 }).regs.capw.toNat := by decide
theorem witness_Power_self_refresh : let s : Machine.State := { one (thr []) with regs := { carveNow := 0 }, ctxs := [], cyc := 940000 }
    s.covered 0 = false ∧ Tab.get 0 s.lastUse 0 + 940000 ≤ s.cyc := by decide

/-! ### Engines -/

/-- A copy of the map's 256 bytes to scratch. -/
def copy1 : EngOp := { id := 9, kind := .cpy, sid := 0, ctx := 1, task := 1, desc := { tag := tagTmap, img := mapImg }, len := 256 }
/-- A machine with an operation. -/
def engS (o : EngOp) : Machine.State := { one (thr []) with ops := [o] }
/-- Whether a state moves a piece. -/
def moves (s : Machine.State) (o : EngOp) (k : Nat) : Bool := match s.engPiece o k with
  | .bytes u l => u.savedOf o == none && u.ownsSector o && u.reserved (scratchAt o.sid (k * 512)) 512 == false && decide (l.length ≤ 512) &&
    (match u.engPut o k l with | .bytes _ _ => true | _ => false)
  | _ => false
theorem witness_Engines_chunk : (engS copy1).op? 9 = some copy1 ∧ copy1.st = .running ∧ copy1.madder = true ∧ copy1.isColl = false ∧ 0 < copy1.pieces ∧ 0 ∉ copy1.done ∧
    copy1.kind ≠ .scat ∧ copy1.tgt = .scratch 0 ∧ moves (engS copy1) copy1 0 = true := by decide +kernel
/-- Its reduction with the other members of its gang. -/
def coll1 : EngOp := { copy1 with kind := .coll 1 5 false, parties := 1 }
theorem witness_Engines_meet : ((engS coll1).op? 9 = some coll1 ∧ coll1.isColl = true ∧ coll1.started = false ∧ 0 < coll1.pieces) ∧ ((engS coll1).collMeet coll1).isSome = true ∧
    (engS { coll1 with parties := 2 }).collMeet { coll1 with parties := 2 } = none := by decide +kernel
theorem witness_Engines_complete : let o : EngOp := { copy1 with done := [0] }
    (engS o).op? 9 = some o ∧ o.pieces ≤ o.done.length ∧ ∀ p j a, o.tgt ≠ .edge p j a := ⟨by decide +kernel, by decide +kernel, fun _ _ _ h => (nomatch h)⟩
theorem witness_Engines_publish : let o : EngOp := { copy1 with st := .complete, publ := some (0x20000, 0x1200), stAt := some (1, 0) }
    let s := (engS o).wrWord 0x100000 7 |>.wrWord 0x100008 4
    s.op? 9 = some o ∧ o.live = true ∧ o.pubWait = none ∧ s.pubBefore o = false ∧ s.writesDone 0 = true ∧ s.statusTgt o = some objT ∧ s.layerHeld objT.pw objT.off = false ∧
    s.vFull objT.line = false ∧ o.shadow = [] ∧ NoLaunchWaits s ∧ s.vNext objT.line + 1 < 2 ^ 64 ∧ s.meetShadow o o.granules = (true, s) ∧ s.swapIn o o.granules = .bytes s [] ∧
    s.meet (engWho 9 0) objT 8 = .go s ∧ Quiet s ∧ s.writtenOf o = none := by
  unfold NoLaunchWaits Quiet; decide +kernel
theorem witness_Engines_publish_meets : let o : EngOp := { copy1 with st := .complete, publ := some (0x20000, 0x1200), stAt := some (1, 0), shadow := [(0x10000, 5)] }
    let s := engS o
    let r : Retry := { die := 0, sect := 0, lanes := [3], tries := 1, sid := engWho 9 0, due := 10, layer := 0, line := 0 }
    let u : Machine.State := { s with umber := { retries := [r] } }
    (s.meetShadow o o.granules).1 = true ∧ (match s.swapIn o o.granules with | .bytes _ _ => true | _ => false) = true ∧ (u.meetShadow o o.granules).1 = false := by decide +kernel
/-- What the line of a status word meets: nothing, a transfer under retry, a contained one. -/
def meetsAt (l : List Retry) : Nat := match ({ engS copy1 with umber := { retries := l } } : Machine.State).meet (engWho 9 0) objT 8 with
  | .go _ => 0
  | .wait _ => 1
  | .bad _ => 2
/-- A transfer of that line. -/
def lineRetry (failed : Bool) : Retry := { die := 0, sect := 0, lanes := [3], tries := 1, sid := engWho 9 0, due := 10, layer := 0, line := objT.physLine (objT.off / 128), failed := failed }
theorem witness_Engines_publish_line : meetsAt [] = 0 ∧ meetsAt [lineRetry false] = 1 ∧ meetsAt [lineRetry true] = 2 := by decide +kernel
theorem witness_Engines_dup : let s : Machine.State := { one (thr []) with dups := [{ dup0 with phys := 0x200080 }, dup0] }
    s.dups[1]? = some dup0 ∧ Quiet s ∧ ∀ e ∈ s.dups.take 1, e.sid = dup0.sid → e.phys / 128 ≠ dup0.phys / 128 := by unfold Quiet; decide
theorem witness_Engines_dup_waits : let s : Machine.State := { one (thr []) with dups := [{ dup0 with phys := 0x200040 }, dup0] }
    s.dups[1]? = some dup0 ∧ ∃ e ∈ s.dups.take 1, e.sid = dup0.sid ∧ e.phys / 128 = dup0.phys / 128 := by decide
theorem witness_Engines_restripe : let o : EngOp := { copy1 with kind := .rstr, entry := 0, pw := 0x12 }
    let held : DupWrite := { dup0 with idx := 0 }
    (engS o).op? 9 = some o ∧ (∀ p ∈ (engS o).ops, p.restripes o.ctx o.entry = true → 9 ≤ p.id) ∧ (engS o).allAwake o.pw.toNat = true ∧
    ({ engS o with asleep := [((hbmChannels o.pw.toNat).headD 0, true)] } : Machine.State).allAwake o.pw.toNat = false ∧
    (¬∃ d ∈ (engS o).dups, d.ctx = o.ctx ∧ d.idx = o.entry) ∧ (∃ d ∈ ({ engS o with dups := [held] } : Machine.State).dups, d.ctx = o.ctx ∧ d.idx = o.entry) ∧
    Quiet (engS o) ∧ (engS o).recs = [] ∧ NoLaunchWaits (engS o) ∧ (engS o).writtenOf o = none := by unfold Quiet NoLaunchWaits; decide +kernel

/-! ### Flash -/

/-- A machine with staged pages, an operation, and room for n sets of pages. -/
def flashS (l : Tab Staged) (carve : Nat) (os : List EngOp) : Machine.State :=
  { one (thr []) with flash := { staged := l }, regs := { carveNow := carve }, ops := os, own := { owner := 0 } }
theorem witness_Flash_fill : (flashS [(5, {})] 1 []).staged? 5 ≠ none ∧ (flashS [] 1 []).staged? 5 = none ∧
    (flashS [] 1 []).flash.staged.length < (flashS [] 1 []).regs.carvePages := by decide
theorem witness_Flash_fill_full : (flashS (.replicate 65536 (7, {})) 1 []).regs.carvePages = 65536 ∧ 0 < (flashS [] 1 []).regs.carvePages ∧
    (flashS [(7, { at_ := 3 }), (9, { at_ := 2 })] 1 []).victim = some 9 := by decide
/-- An install of one page and a stage of one block. -/
def install1 : EngOp := { copy1 with kind := .inst, len := 16384, tgt := .virt 0x50000, src := 0x10000, word := 0x20000 }
/-- A stage of the flash page. -/
def stage1 : EngOp := { copy1 with kind := .stage, len := 16384, src := 0x50000, word := 0x20000 }
theorem witness_Flash_install : (flashS [] 1 [install1]).op? 9 = some install1 ∧ install1.st = .running ∧ install1.started = false ∧
    ({ install1 with started := true } : EngOp).done.length < install1.len / 16384 := by decide +kernel
theorem witness_Flash_install_done : let o : EngOp := { install1 with started := true, done := [0], result := List.replicate 16 1, stAt := some (1, 0) }
    let s := flashS [] 1 [o]
    s.op? 9 = some o ∧ o.live = true ∧ o.pubWait = none ∧ s.statusTgt o = some objT ∧ s.layerHeld objT.pw objT.off = false ∧ s.vFull objT.line = false ∧ s.pubBefore o = false ∧
    s.writesDone 0 = true ∧ o.len / 16384 ≤ o.done.length ∧ s.rangeSt o 1 .write (pagesOf o.dest o.len) = .fit := by decide +kernel
/-- What the ranges of an install come to, and what its source holds. -/
def installs (s : Machine.State) (o : EngOp) : Bool × Bool × Bool := (s.rangeSt o 0 .read (pagesOf o.src o.len) == .fit, s.rangeSt o 1 .write (pagesOf o.dest o.len) == .fit,
  match s.engReadAll o (lineRuns (o.len / 64 + 2) o.src o.len) with
  | .bytes u l => u.op? 9 == some o && l.length == o.len && u.freshPages o
  | _ => false)
theorem witness_Flash_install_fits : installs (flashS [] 1 [install1]) install1 = (true, true, true) ∧ install1.keySlot = none ∧
    (flashS [] 1 [install1]).rangeSt install1 0 .read [0x50000] = .unfit ∧ (flashS [] 1 [install1]).rangeSt install1 0 .read [0x70000] = .fault 0x70000 .xlateFault ∧
    ({ flashS [] 1 [install1] with regs := { rtCmd := some ⟨1, 0, {}⟩ } } : Machine.State).rangeSt install1 0 .read [0x10000] = .wait := by decide +kernel
theorem witness_Flash_install_refused : ((ctx1.refill 0).left < install1.len ∧ install1.len ≤ (({ ctx1 with left := 16384, allow := 1 } : Ctx).refill 0).left) ∧
    ({ flashS [] 1 [install1] with flash := { worn := [(blockKey 0 0, 196608000)] } } : Machine.State).freshPages install1 = false ∧ ctx1.key? 3 = none := by decide +kernel
theorem witness_Flash_install_page : ∃ t, (flashS [] 1 [install1]).pageAt 1 (install1.dest + BitVec.ofNat 64 (16384 * 0)) = some t ∧
    ((flashS [] 1 [install1]).flash.program (stackOf t.phys)).sparesLeft (stackOf t.phys) ≠ 0 ∧
    (({ spares := [(stackOf t.phys, 4096)] } : Flash).program (stackOf t.phys)).sparesLeft (stackOf t.phys) = 0 := ⟨_, rfl, by decide +kernel, by decide +kernel⟩
theorem witness_Flash_swap : ∃ t, (flashS [] 1 []).pageAt 1 0x50000 = some t ∧ ∃ u, (flashS [] 1 []).pageAt 1 0x54000 = some u ∧ t.phys + 16384 ≤ u.phys :=
  ⟨_, rfl, _, rfl, by decide +kernel⟩
theorem witness_Flash_ends : ({ install1 with st := .failed } : EngOp).st = .failed ∧ ({ stage1 with st := .complete } : EngOp).kind = .stage := by decide
theorem witness_Flash_stage : let s := flashS [] 1 [stage1]
    s.op? 9 = some stage1 ∧ stage1.done.length < (stage1.len + 65535) / 65536 ∧ s.rangeSt stage1 1 .read (pagesOf stage1.src stage1.len) = .fit ∧ stage1.keySlot = none ∧
    (s.stageAll stage1 (s.blockMark stage1 0) (stage1.blockPages 0)).isSome = true := by decide +kernel
theorem witness_Flash_refill : let s : Machine.State := { one (thr []) with ctxs := [(1, { ctx1 with allow := 1000 })], cyc := 940000000000 }
    (s.ctx 1).st ≠ .free ∧ ((s.ctx 1).refill s.cyc).left ≠ (s.ctx 1).left := by decide
theorem witness_Flash_scrub : (flashS [] 1 []).rstWrite 0 = true ∧ (flashS [] 1 []).scrubsPool 0 65536 = false ∧ (flashS [] 1 []).rstWrite 1 = false ∧
    ({ flashS [] 1 [] with regs := { flscrub := some (0, 1) } } : Machine.State).regs.flscrub ≠ none := by decide

/-! ### Handlers -/

theorem witness_Handlers_record : let s := one { thr [] with wait := .record 7, ts := true, cause := 1 }
    (s.sec 0).th.wait = .record 7 ∧ (s.sec 0).th.live = true ∧ s.writesDone 0 = true := by decide
/-- A posted record with token 5. -/
def rec5 (trap : Bool) (who : Nat) : Rec := { ctx := 1, token := 5, trap := trap, who := who, task := 1, posted := true }
/-- A machine whose owner is master 0, with that record unanswered. -/
def recS (r : Rec) (t : Thread) (os : List EngOp) : Machine.State := { one t with recs := [r], own := { owner := 0 }, ops := os }
theorem witness_Handlers_none : (recS (rec5 true 0) (thr []) []).answered 0 5 false = none ∧ (recS (rec5 false 2) (thr []) []).answered 0 5 true = none ∧
    (recS (rec5 true 0) (thr []) []).answered 1 5 true = none := by decide
theorem witness_Handlers_fault : let o : EngOp := { copy1 with st := .waiting 5 }
    let s := recS (rec5 false 2) (thr []) [o]
    s.answered 0 5 false = some (rec5 false 2) ∧ (rec5 false 2).who = 2 ∧ s.ops.find? (fun o => o.st == .waiting 5) = some o ∧ s.op? 9 = some o ∧ s.writtenOf o = none := by decide +kernel
theorem witness_Handlers_trap : let s := recS (rec5 true 0) { thr [] with ts := true, wait := .answer 5 } []
    s.answered 0 5 true = some (rec5 true 0) ∧ s.saves = [] ∧ (s.sec 0).v = true ∧ (s.sec 0).task = (rec5 true 0).task ∧ (s.sec 0).th.wait = .answer 5 := by decide

/-! ### The range table, contexts, handles -/

/-- Master 0's machine with RTE and a command in progress. -/
def rtS (e : RtEnt) (k : Option RtCmd) : Machine.State := { one (thr []) with own := { owner := 0 }, regs := { rte := e, rtCmd := k } }
theorem witness_RangeTable_refused : (rtS {} none).mayWrite 1 = false ∧ (rtS {} (some ⟨1, 2, {}⟩)).regs.rtCmd ≠ none := by decide
theorem witness_RangeTable_write : let s := rtS (ent 0x80000 0x11 0x400000 15) none
    s.mayWrite 0 = true ∧ s.regs.rtCmd = none ∧ (s.regs.rte.setMig false).v = true ∧ ((rtS {} none).regs.rte.setMig false).v = false ∧
    (s.ctx 1).st ≠ .free ∧ (s.ctx 2).st = .free := by decide
theorem witness_RangeTable_swap : let s := rtS {} (some ⟨1, 2, {}⟩)
    s.regs.rtCmd = some ⟨1, 2, {}⟩ ∧ s.drainedRt 1 2 = true ∧ ({ s with dups := [dup0] } : Machine.State).drainedRt 1 2 = false ∧ s.recs = [] ∧ NoLaunchWaits s := by
  unfold NoLaunchWaits; decide
theorem witness_RangeTable_wakes : let e := ent 0x80000 0x11 0x400000 15
    let s := rtS {} (some ⟨1, 9, e⟩)
    s.allAwake e.pwOn = true ∧ ({ s with asleep := [((hbmChannels e.pwOn).headD 0, true)] } : Machine.State).allAwake e.pwOn = false := by decide +kernel
/-- Master 0's machine with a context in place 2, a range-table entry of context 1 that holds code, and registers. -/
def ctxS (x : Ctx) (r : Regs) : Machine.State := { one (thr []) with own := { owner := 0 }, regs := r, ctxs := [(1, x)] }
theorem witness_Contexts_masters : (ctxS ctx1 {}).mayWrite 1 = false ∧ ((1 : Master).toNat > 4 ∨ (ctxS ctx1 {}).own.owner ≠ (1 : Master).toNat) ∧ (0 : Master).toNat ≤ 4 ∧
    (ctxS ctx1 {}).own.owner = (0 : Master).toNat ∧ (ctxS ctx1 {}).mayWrite 0 = true := by decide
theorem witness_Contexts_end : ((ctxS ctx1 {}).ctx 1 |>.control 0).st = .active ∧ ((ctxS ctx1 {}).ctx 2 |>.control 0).st ≠ .active := by decide
theorem witness_Handles : let s := ctxS ctxO {}
    s.regs.hcmd = none ∧ (s.ctx 2).st ≠ .active ∧ (s.ctx 1).st = .active ∧ (Tab.get {} (s.ctx 1).handles 0).st ≠ .empty ∧ (Tab.get {} (s.ctx 1).handles 1).st = .empty ∧
    (Tab.get {} (s.ctx 1).handles 1).st ≠ .sealed ∧ (Tab.get {} (s.ctx 1).handles 0).st = .sealed := by decide
/-- The outcome of a read of a context's memory. -/
def reads (s : Machine.State) (va : Word) (n : Nat) : Option (List Byte) := match s.readRun 1 va n with
  | .bytes _ b => some b
  | _ => none
/-- A context with a page of code at 0x60000 that may be read and executed but not written. -/
def ctxX : Ctx := { ctx1 with rt := [(0, ent 0x10000 0x11 0 14), (1, ent 0x60000 0x11 0x500000 13)] }
theorem witness_Handles_load : let s := ctxS ctxX { hsrc := 0x10000, hva := 0x60000 }
    (reads s 0x10000 64).isSome = true ∧ (reads s 0x10000 (64 + 32 * 0)).isSome = true ∧ (ctxS ctxX { hsrc := 0x10000, hva := 0x60001 }).codeOk 1 0x60001 0 = false ∧
    s.codeOk 1 0x60000 0 = true ∧ (loadObj 0x60000 []).2.isSome = true ∧ reads s 0x10000 0 = some [] ∧
    s.codeComing 1 0x60000 0 = false ∧ s.rangeHeld 1 0x60000 0 = false ∧ (s.putRun 1 (s.vaTgts 1 0x60000 0) []).2 = true := by decide +kernel
theorem witness_Handles_load_later : let e := ent 0x80000 0x11 0x500000 15
    (ctxS ctxX { rtCmd := some ⟨1, 9, e⟩ }).codeComing 1 0x60000 64 = true ∧ (ctxS ctxX { rtCmd := some ⟨1, 1, {}⟩ }).rangeHeld 1 0x60000 64 = true := by decide +kernel
theorem witness_Handles_store_waits : let s := ctxS ctxX {}
    let l := s.vaTgts 1 0x60000 64
    let r : Retry := { die := 0, sect := 0, lanes := [3], tries := 1, sid := whoLoad, due := 10, layer := 0, line := (l.headD ({}, 0)).1.physLine 0 }
    (({ s with umber := { retries := [r] } } : Machine.State).putRun 1 l (List.replicate 64 0)).2 = false := by decide +kernel
theorem witness_Handles_loading : let r : LoadCmd := { due := 5, src := 0x10000, va := 0x60000, data := 0 }
    let s := ctxS { ctxX with handles := [(0, { st := .loading })] } { hcmd := some (1, 0), hload := some r }
    s.regs.hcmd = some ((1 : BitVec 8).toNat, (0 : BitVec 8).toNat) ∧ s.regs.hload = some r ∧ (s.ctx 1).st = .active ∧ ((secTable []).any fun e => e.kind == 0x02) = false ∧
    ((ctxS { ctxX with st := .ending } {}).ctx 1).st ≠ .active := by decide +kernel
theorem witness_Handles_load_waits : let s := ctxS { ctxX with rt := [(4, ent 0x50000 0x10600001 0 14)] } {}
    (match s.readRun 1 0x50000 64 with | .wait _ => true | _ => false) = true := by decide +kernel
theorem witness_Handles_load_fault : (match (ctxS ctxX { hsrc := 0x70000 }).readRun 1 0x70000 64 with | .fault _ => true | _ => false) = true := by decide +kernel
theorem witness_Handles_unload : (ctxS ctxO { hcmd := some (1, 0) }).regs.hcmd = some (1, 0) ∧ (ctxS ctxO { hcmd := some (1, 0) }).handleHeld 1 0 = true ∧
    ({ ctxS ctxO { hcmd := some (1, 0) } with launches := [], tasks := [] } : Machine.State).handleHeld 1 0 = false := by decide
theorem witness_Handles_unloading : let s := ctxS { ctx1 with handles := [(0, { st := .unloading, obj := obj2 })] } { hcmd := some (1, 0) }
    let u : Machine.State := { s with launches := [], tasks := [] }
    u.handleHeld 1 0 = false ∧ (Tab.get {} (u.ctx 1).handles 0).st = .unloading := by decide
theorem witness_Contexts_freed : let s := ctxS { ctx1 with st := .ending } {}
    (s.ctx 1).st = .ending ∧ s.ctxQuiet 1 = true := by decide

/-! ### The outside -/

/-- A machine with an owner and an offer. -/
def ownS (o : Own) : Machine.State := { one (thr []) with own := o, cyc := 10 }
theorem witness_Ownership : (ownS {}).ownWrite 5 1 = false ∧ (ownS {}).ownWrite 0 0 = false ∧ (ownS {}).ownWrite 3 1 = true ∧ (ownS {}).own.owner = 7 ∧
    (ownS { owner := 0, leaseEnd := 10 }).own.owner = 0 ∧ (ownS { owner := 0 }).own.offerTo ≠ some 1 ∧ (ownS { owner := 0, offer := some (2, 11) }).own.offerTo = some 2 ∧
    (1 : Master) ≠ 0 ∧ (4 : Master) ≠ 1 := by decide
theorem witness_Ownership_lapses : (ownS { owner := 0, offer := some (2, 10) }).own.offer = some (2, 10) ∧ 10 ≤ (ownS {}).cyc ∧ (ownS {}).cyc < 11 ∧
    (ownS { owner := 0, leaseEnd := 10 }).own.owner ≠ 7 ∧ (ownS { owner := 0, leaseEnd := 10 }).own.leaseEnd ≤ (ownS {}).cyc := by decide
theorem witness_Attestation : (ownS {}).answers 2 = true ∧ (ownS {}).regs.attCmd = none ∧
    ({ ownS {} with regs := { attCmd := some (1, true, 3) } } : Machine.State).regs.attCmd = some (1, true, 3) := by decide
/-- A machine whose window 0 shows context 1 from 0x10000 on, with an entry of the peer map for context 1 of module 2. -/
def winS : Machine.State := { one (thr []) with regs := { wbase := [(0, 0x10000)], wcfg := [(0, 0x101)], peermap := [(0, 0xC201010000000000)] } }
/-- What an access from outside comes to. -/
def extIs (r : ExtGot) : Nat := match r with
  | .done _ _ => 0
  | .fault _ _ => 1
  | .poison _ => 2
  | .wait _ => 3
theorem witness_Outside_window : winS.answers 0 = true ∧ (Tab.get 0 winS.regs.wcfg 1).getLsbD 8 = false ∧ (Tab.get 0 winS.regs.wcfg 0).getLsbD 8 = true ∧
    65536 - 8 + extSize (.read 8) ≤ windowLen (Tab.get 0 winS.regs.wcfg 0) ∧ windowLen (Tab.get 0 winS.regs.wcfg 0) < 65536 - 8 + extSize (.read 9) := by decide
theorem witness_Outside_got : extIs (winS.extAccess 1 256 0x10000 (.read 8)) = 0 ∧ extIs (winS.extAccess 1 256 0x70000 (.read 8)) = 1 ∧
    extIs (({ winS with poison := [(1, true)] } : Machine.State).extAccess 1 256 0x10040 (.read 8)) = 2 := by decide +kernel
theorem witness_Outside_waits : let s : Machine.State := { winS with ctxs := [(1, { ctx1 with rt := [(4, ent 0x50000 0x10600001 0 14)] })] }
    extIs (s.extAccess 1 256 0x50000 (.read 8)) = 3 := by decide +kernel
theorem witness_Outside_peer_boot : winS.regs.bootCode = 0 ∧ ({ winS with regs := { winS.regs with bootCode := 2 } } : Machine.State).regs.bootCode ≠ 0 ∧
    ¬2 ^ 55 ≤ (0x10000 : BitVec 57).toNat ∧ 2 ^ 55 ≤ (0x80000000000000 : BitVec 57).toNat := by decide
theorem witness_Outside_peer : winS.peerEntry 3 1 = none ∧ winS.peerEntry 2 1 = some 0xC201010000000000 ∧ (0xC201010000000000 : Word).getLsbD 62 = true ∧
    BitVec.ofNat 8 (bitsAt (0xC201010000000000 : Word).toNat 40 8) = (1 : BitVec 8) ∧ extWrites (.write 8 1) = true ∧ extWrites (.read 8) = false := by decide
theorem witness_Outside_link : let s : Machine.State := { one { thr [] with wait := .link 9 } with cyc := 9 }
    (s.sec 0).th.wait = .link 9 ∧ 9 ≤ s.cyc := by decide
theorem witness_Outside_registers : (∀ k, Machine.blockOf (0x600008 : Word).toNat 0x604000 8 4 ≠ some (k, 0)) ∧ winS.mayWrite 0 = false ∧
    (match winS.busWrite 4 0x600008 0 with | .next _ => true | _ => false) = true := by
  refine ⟨fun k h => ?_, by decide, by decide +kernel⟩
  have e : Machine.blockOf (0x600008 : Word).toNat 0x604000 8 4 = none := by decide
  rw [e] at h
  cases h

/-! ### Errors and resets -/

/-- A retry of sector 0 after n failures. -/
def retry (n : Nat) (swapping : Bool) : Retry := { die := 0, sect := 0, lanes := .replicate n 3, tries := n, sid := 0, due := 10, layer := 0, swapping := swapping, line := 0 }
/-- Its machine, with so many spare lanes in use. -/
def retryS (r : Retry) (used : Tab Nat) : Machine.State :=
  { one (thr []) with sectors := [(0, { sec1 0 (thr []) with busLanes := used })], umber := { retries := [r], copies := [⟨0, 0, 0, 0⟩] }, cyc := 10 }
theorem witness_Errors_retry : let s := retryS (retry 2 false) []
    0 < s.umber.retries.length ∧ (retry 2 false).failed = false ∧ (retry 2 false).due ≤ s.cyc ∧ (retry 2 false).swapping = false ∧ (retry 2 false).tries + 1 < 4 ∧
    4 ≤ (retry 3 false).tries + 1 ∧ (s.sec 0).lanesUsed + (s.lanesSwapping 0 0).length < 2 ∧ 2 ≤ ((retryS (retry 3 false) [(1, 1), (5, 2)]).sec 0).lanesUsed ∧
    2 ≤ ((retryS (retry 4 true) [(1, 1)]).sec 0).lanesUsed + ((retryS (retry 4 true) [(1, 1)]).lanesSwapping 0 0).length := by decide
theorem witness_Errors_swap : (retry 4 true).swapping = true ∧ (((retryS (retry 4 true) [(1, 1)]).sec 0).swapLane (worstLane (retry 4 true).lanes)).isSome = true ∧ (retry 4 true).repair = false ∧ ({ retry 4 true with repair := true } : Retry).repair = true ∧
    0 < (retryS (retry 4 true) []).umber.copies.length ∧ ((retryS (retry 4 true) [(1, 1), (5, 2)]).sec 0).swapLane (worstLane (retry 4 true).lanes) = none := by decide
theorem witness_Errors_bus : (retryS (retry 2 false) []).busSwapping 0 0 = false ∧
    ({ retryS (retry 2 false) [] with umber := { retries := [retry 2 false, { retry 4 true with due := 100 }] } } : Machine.State).busSwapping 0 0 = true := by decide
theorem witness_Errors_layer : let s : Machine.State := { Machine.State.reset with umber := { lost := [(1, 2, 5)] } }
    let ls := (s.umber.lost.filter fun x => x.1 == 1 && x.2.1 == 2).map fun (x : Nat × Nat × Nat) => x.2.2
    ls ≠ [] ∧ s.ctxs = [] ∧ s.recs = [] ∧ NoLaunchWaits s := by unfold NoLaunchWaits; decide
theorem witness_Resets : let s : Machine.State := { one (thr []) with own := { owner := 0 } }
    s.rails = [] ∧ s.rstWrite 0 = true ∧ s.rstWrite 1 = false ∧ (6 : Word).toNat % 4 = 2 ∧ (5 : Word).toNat % 4 = 1 := by decide
/-- A firmware image passes or is refused as its signatures are; the two clauses about an image between them cover every machine that holds one. -/
theorem witness_Boot (f : Firmware) (minSvn : BitVec 32) : f.check minSvn = 0 ∨ f.check minSvn ≠ 0 := Decidable.em _
theorem witness_Boot_old_svn : ({ svn := 1 } : Firmware).check 2 ≠ 0 := by
  unfold Firmware.check
  split
  · decide
  · simp
theorem witness_Boot_signed (h : ∀ d g, Config.mlDsaVerify d g = true) : ({ svn := 2 } : Firmware).check 2 = 0 := by simp [Firmware.check, h]
/-- A machine whose reset has chosen an image, or none. -/
def bootS (f : Option Firmware) : Machine.State := { one (thr []) with boot := { due := true, chosen := f } }
theorem witness_Boot_chosen : (bootS (some {})).boot.due = true ∧ (bootS (some {})).boot.chosen = some {} ∧ (bootS none).boot.chosen = none := by decide
theorem witness_Boot_none : Machine.State.reset.boot.due = true ∧ ({ due := false } : Boot).due = false ∧ Machine.State.reset.boot.newer = none ∧ Machine.State.reset.boot.current = none := by decide

/-! ### The whole machine -/

theorem witness_EveryStepKeepsMemoryCanonical : Machine.State.reset.memWf = true ∧ (regs 0 0 0 0).memWf = true ∧ ((regs 0 0 0 0).wrWord 0x100000 7).memWf = true := by decide +kernel
theorem witness_ControlWordsRoundTrip : (Instr.add 3 1 2).wellFormed = true ∧ (encodeCtl ⟨2, true⟩ (.add 3 1 2)).isSome = true ∧ ((⟨2, true⟩ : Guard).neg = true → (⟨2, true⟩ : Guard).g ≠ 0) := by decide
theorem witness_FabricWordsRoundTrip : (Instr.vadd (wf 5 0 0)).wellFormed = true ∧ (encodeFab (.vadd (wf 5 0 0))).isSome = true ∧ (decodeFab (putF ⟨0x01, wf 5 0 0⟩)).isSome = true := by decide
/-- The acting machine with a turn on its agenda. -/
def turnS (t : Thread) (a : Agent) : Machine.State := { one t with agenda := [⟨3, a⟩] }
theorem witness_Step_turn : TurnIsNext (turnS (thr []) (.thread 0)) ⟨3, .thread 0⟩ (one (thr [])) :=
  ⟨by decide +kernel, by decide +kernel, .inl ⟨[], by decide +kernel, by decide +kernel⟩⟩
theorem witness_Step_word : let s := one { thr [] with word := some 0x0101844000000000 }
    s.th.runs = true ∧ s.replaying 0 = false ∧ s.th.notice = none ∧ s.th.word = some 0x0101844000000000 ∧ (decodeCtl 0x0101844000000000).isSome = true ∧
    decodeCtl 0x0101844018000000 = none := by decide +kernel
/-- A thread at 0x60000, the start of a TEXT section of 64 bytes. -/
def textS : Machine.State :=
  { (one { thr [] with pc := 0x60000 }).wrWord 0x500000 0x0101844000000000 with ctxs := [(1, { ctxX with handles := [(0, { st := .sealed, obj := { va := 0x60000, textSize := 64 } })] })] }
theorem witness_Step_fetch : let t : Tgt := ⟨some 1, 0x11, 0x500000, 0, 0x500000⟩
    textS.th.fblk = none ∧ textS.textSpan (textS.sec textS.cur) = some (0x60000, 64) ∧ textS.pc.toNat = 0x60000 ∧
    textS.xlateV (textS.sec textS.cur).ctx 0x60000 .fetch = .ok t ∧ textS.readHeld textS.cur t = false ∧ textS.unreachable t = false ∧
    Quiet textS ∧ (match textS.fetchAt with | .inr (_, b, w) => w == 0x0101844000000000 && !b.poisoned 0x60000 | .inl _ => false) = true := by unfold Quiet; decide +kernel
theorem witness_Step_slot : (fabS 0x01 (wf 5 0 0) [] {} []).slotWord ⟨b0, 0⟩ = some (putF ⟨0x01, wf 5 0 0⟩) ∧ (decodeFab (putF ⟨0x01, wf 5 0 0⟩)).isSome = true ∧
    (one (thr [])).slotWord ⟨b0, 0⟩ = none := by decide +kernel
/-- A machine in whose reference cycle master 3 has already written OWNCTL. -/
def lateS : Machine.State := { one (thr []) with now := [.own 3] }
theorem witness_Step_late : lateS.barred (.claim 1 5 false) = true ∧ lateS.barred (.claim 4 5 false) = false ∧ lateS.resetOf .powerOn = some 0 ∧
    encode (.claim 1 5 false) = none ∧ lateS.resetOf .nop = none ∧ ownWriter .nop = none := by decide
/-- A machine in whose reference cycle a warm reset has come. -/
def resetS : Machine.State := { one (thr []) with now := [.reset 3] }
theorem witness_Step_outdone : resetS.resetOf (.fatalReset true) = some 4 ∧ resetS.outdone (.fatalReset true) = true ∧ resetS.outdone .powerOn = false ∧
    encode (.fatalReset true) = none := by decide
theorem witness_Step_event : encode .powerOn = none ∧ ({ one (thr []) with placeDue := true } : Machine.State).placeDue = true := by decide +kernel

/-! ### Single steps, their results from the spec's own tables and examples -/

/-- What a step answers, if it goes on and meets a condition. -/
def goes (r : Host.Outcome Machine.State Machine.Fault Machine.Refusal) (p : Machine.State → Bool) : Bool := match r with
  | .next t => p t
  | _ => false
/-- What a control word leaves in s3. -/
def s3Of (i : Instr) (s : Machine.State) : Option Word := match exec i s with
  | .next t => some (t.rdS 3)
  | _ => none
-- R113's table of borderline divisions
theorem test_div_minus_seven : s3Of (.div 3 1 2) (regs (-7) 2 0 0) = some (-3) ∧ s3Of (.rem 3 1 2) (regs (-7) 2 0 0) = some (-1) := by decide +kernel
theorem test_divn_minus_seven : s3Of (.divn 3 1 2) (regs (-7) 2 0 0) = some 0x7FFFFFFFFFFFFFFC ∧ s3Of (.remn 3 1 2) (regs (-7) 2 0 0) = some 1 := by decide +kernel
theorem test_div_by_zero : s3Of (.div 3 1 2) (regs 7 0 0 0) = some 0xFFFFFFFFFFFFFFFF ∧ s3Of (.remn 3 1 2) (regs 7 0 0 0) = some 7 := by decide +kernel
theorem test_div_most_negative : s3Of (.div 3 1 2) (regs 0x8000000000000000 (-1) 0 0) = some 0x8000000000000000 ∧ s3Of (.rem 3 1 2) (regs 0x8000000000000000 (-1) 0 0) = some 0 := by decide +kernel
theorem test_add_wraps : s3Of (.add 3 1 2) (regs 0xFFFFFFFFFFFFFFFF 1 0 0) = some 0 := by decide +kernel
theorem test_shift_ignores_high_bits : s3Of (.shl 3 1 2) (regs 1 0x41 0 0) = some 2 := by decide +kernel
theorem test_source_is_destination : s3Of (.sub 3 1 3) (regs 5 0 7 0) = some (-2) := by decide +kernel
-- a load sign-extends and a store writes its low bytes (R116)
theorem test_load_sign_extends : s3Of (.ld .h 3 1 0) ((regs 0x10000 0 0 0).store 0 [0x34, 0x92]) = some 0xFFFFFFFFFFFF9234 := by decide +kernel
theorem test_store_low_bytes : goes (exec (.st .b 2 1 1) (regs 0x10000 0x1FE 0 0)) (fun t => t.rdByte 1 == 0xFE && t.rdByte 2 == 0) = true := by decide +kernel
-- R281's placement word and byte
theorem test_placement : hbmSpot 0x05A430F3 0x100000 0x23480 = (1, 11, 0x101080) ∧ Machine.State.reset.lineHome 0x05A430F3 0x23480 = some (1, 0, 26) := by decide +kernel
-- the entry of R362 and its translation in context 7
theorem test_entry : let e : RtEnt := ⟨0x0000020000000000, 0xF, 0x100000, 0x000000E005A430F3⟩
    e.vbase = 0x20000000000 ∧ e.len = 2 ^ 20 ∧ e.pw = 0x05A430F3 ∧ e.v = true ∧ e.r = true ∧ e.w = true ∧ e.x = false ∧ e.mig = false ∧
    (let s : Machine.State := { ctxs := [(7, { st := .active, rt := [(12, e)] })] }
     s.xlateV 7 0x20000023480 .read = .ok ⟨some 12, 0x05A430F3, 0x100000, 0x23480, hbmAt 1 11 0x101080⟩ ∧ s.xlateV 7 0x20000023480 .fetch = .perm ∧
     s.xlateV 9 0x20000023480 .read = .fault) := by decide +kernel
/-- The tile of the worked renormalisation. -/
def workedT : TileRef := ⟨0, 0, 1, 16, 0⟩
/-- The machine after its row 0. -/
def worked : Machine.State :=
  let tokens := fun (l : List (List Nat)) => l.map fun x => tok 10 (payOf 8 x)
  let a := payOf 8 ([0x7E, 0x04, 0x08] ++ List.replicate 29 0 ++ [0x7E])
  let panel := tokens ([[0x7E, 0x04] ++ List.replicate 30 0 ++ [0x7E], [0x7E, 0x04, 0x04]] ++ List.replicate 14 [])
  (List.range (groupsOf 10)).foldl (fun (s : Machine.State) q =>
    s.mmaGroup workedT 10 0 q a (some (payOf 8 [0x7F, 0x87])) panel (List.replicate 16 (tok 14 (payOf 8 [0x7F, 0x7F])))) ((one (thr [])).clearTile workedT)
-- the values of "One renormalisation, worked": the mantissas, the exponent, the headroom and the count
theorem test_renormalisation : let c := (worked.sec 0).cell 0
    Tab.get 0 c.mant 0 = 0x6262000000 ∧ Tab.get 0 c.mant 1 = 0x62000002 ∧ Tab.get 0 c.exp 0 = 27 ∧ Tab.get 0 c.head 0 = 8 ∧ worked.rcOf workedT = 1 := by decide +kernel
theorem test_renormalised_drain : roundVal 7 0 false 0 (worked.tileVal workedT false 0 0) = (0x4C44C400, 0) ∧
    roundVal 7 0 false 1 (worked.tileVal workedT false 0 1) = (0x48440000, fNX) ∧ roundVal 7 0 false 2 (worked.tileVal workedT false 0 2) = (0, 0) := by decide +kernel
-- a trap saves pc and value; scall stores its code (R240)
theorem test_svc_traps : goes (exec (.svc 17) (regs 0 0 0 0)) (fun t => t.th.ts && t.th.trapPc == 0x12000 && t.th.cause == Cause.svc.code && t.th.trapVal == 17) = true := by decide +kernel
-- a vadd in s16 wraps, lane by lane (R120)
theorem test_vadd_wraps : goes (exec (.vadd { wf 3 0 0 with t0 := 0x004 }) (fabS 0x01 { wf 3 0 0 with t0 := 0x004 } [1] {} [(0, [tok 3 0x8001FFFF]), (1, [tok 3 0x8001FFFF])]))
    (fun t => ((t.instOf b0).chans.any fun p => p.2.any fun k => k.pay == 0x0002FFFE)) = true := by decide +kernel

end Sys2Proof.Tests
end

section
/-! PROOFS. Compares and predicate logic (R53, R55, R115, R116). -/

namespace Sys2Proof.Machine

open Sys2Proof

/-! ### Facts about the operations -/

/-- The truth value that a compare computes is what its condition code says of the two values (R53). -/
theorem condHolds_iff (c : Cond) (a b : Word) : c.holds a b = true ↔ CondMeans c a b := by
  cases c with
  | eq => exact beq_iff_eq
  | ne => exact bne_iff_ne
  | lt => exact BitVec.slt_iff_toInt_lt
  | ge => simp [Cond.holds, CondMeans, BitVec.slt]
  | ltn => simp [Cond.holds, CondMeans, BitVec.ult]
  | gen => simp [Cond.holds, CondMeans, BitVec.ult]
  | le => simp [Cond.holds, CondMeans, BitVec.slt]
  | gt => exact BitVec.slt_iff_toInt_lt
  | len => simp [Cond.holds, CondMeans, BitVec.ult]
  | gtn => simp [Cond.holds, CondMeans, BitVec.ult]

/-- The immediate's sign extension keeps its signed value (R47). -/
theorem sx_eq_ofInt (imm : BitVec 32) : sx imm = BitVec.ofInt 64 imm.toInt := rfl

/-- A word of format C.R holds its opcode and its fn code where R46 places them. -/
theorem opIs_of_putR {i : Instr} {op : BitVec 8} {f : FmtR} {o fn : Nat} (h : ∀ g, encodeCtl g i = some (putR op g f))
    (ho : op.toNat = o) (hf : f.fn.toNat = fn) : OpIs i o fn := by
  subst ho hf
  intro g w hw
  obtain rfl : putR op g f = w := Option.some.inj ((h g).symm.trans hw)
  have hop := congrArg BitVec.toNat (top_putR op g f).1
  have hfn := congrArg (fun r => BitVec.toNat r.fn) (getR_putR op g f)
  have hlt := (putR op g f).isLt
  simp only [getR, fld_toNat] at hop hfn
  exact ⟨by omega, hfn⟩

/-! ### What each instruction does -/

section
variable (pd pa pb : PReg) (s : State)

theorem exec_cmp (c : Cond) (ra rb : Reg) : exec (.cmp c pd ra rb) s = s.putP pd (c.holds (s.rdS ra) (s.rdS rb)) := rfl
theorem exec_cmpi (c : Cond) (ra : Reg) (imm : BitVec 32) : exec (.cmpi c pd ra imm) s = s.putP pd (c.holds (s.rdS ra) (sx imm)) := rfl
theorem exec_pand : exec (.pand pd pa pb) s = s.putP pd (s.rdP pa && s.rdP pb) := rfl
theorem exec_por : exec (.por pd pa pb) s = s.putP pd (s.rdP pa || s.rdP pb) := rfl
theorem exec_pxor : exec (.pxor pd pa pb) s = s.putP pd (s.rdP pa ^^ s.rdP pb) := rfl
theorem exec_pandn : exec (.pandn pd pa pb) s = s.putP pd (s.rdP pa && !s.rdP pb) := rfl
theorem exec_porn : exec (.porn pd pa pb) s = s.putP pd (s.rdP pa || !s.rdP pb) := rfl
theorem exec_pmov : exec (.pmov pd pa) s = s.putP pd (s.rdP pa) := rfl
theorem exec_pnot : exec (.pnot pd pa) s = s.putP pd (!s.rdP pa) := rfl

end

/-- R115: `cmp` compares two registers. -/
theorem cmp_writesPred (c : Cond) (pd : PReg) (ra rb : Reg) (s : State) :
    ∃ v : Bool, (v = true ↔ CondMeans c (s.rdS ra) (s.rdS rb)) ∧ WritesPred s (.cmp c pd ra rb) pd v :=
  ⟨_, condHolds_iff c _ _, writesPred_of (exec_cmp pd s c ra rb) rfl⟩

/-- R115: `cmpi` compares a register with the sign-extended immediate. -/
theorem cmpi_writesPred (c : Cond) (pd : PReg) (ra : Reg) (imm : BitVec 32) (s : State) :
    ∃ v : Bool, (v = true ↔ CondMeans c (s.rdS ra) (BitVec.ofInt 64 imm.toInt)) ∧ WritesPred s (.cmpi c pd ra imm) pd v :=
  ⟨_, sx_eq_ofInt imm ▸ condHolds_iff c _ _, writesPred_of (exec_cmpi pd s c ra imm) rfl⟩

/-- R55, R116: every word of `plog` has opcode 0x0E and the fn code of its mnemonic. -/
theorem opIs_plog (pd pa pb : PReg) : ∀ x ∈ [(Instr.pand pd pa pb, 0x00), (.por pd pa pb, 0x01), (.pxor pd pa pb, 0x02),
    (.pandn pd pa pb, 0x03), (.porn pd pa pb, 0x04), (.pmov pd pa, 0x05), (.pnot pd pa, 0x06)], OpIs x.1 0x0E x.2 := by
  simp only [List.forall_mem_cons]
  refine ⟨?pand, ?por, ?pxor, ?pandn, ?porn, ?pmov, ?pnot, List.forall_mem_nil _⟩ <;>
    exact opIs_of_putR (fun _ => rfl) rfl rfl

/-- Settles O4: the two compares by the meaning of their condition codes, the words of plog by their equations, and the codes of those
words by the layout of format C.R. -/
theorem compareAndPredicateResults : Obligations.CompareAndPredicateResults := by
  unfold Obligations.CompareAndPredicateResults
  intro c pd pa pb ra rb imm s
  exact ⟨cmp_writesPred c pd ra rb s, cmpi_writesPred c pd ra imm s,
    writesPred_of (exec_pand pd pa pb s) rfl, writesPred_of (exec_por pd pa pb s) rfl, writesPred_of (exec_pxor pd pa pb s) rfl,
    writesPred_of (exec_pandn pd pa pb s) rfl, writesPred_of (exec_porn pd pa pb s) rfl,
    writesPred_of (exec_pmov pd pa s) rfl, writesPred_of (exec_pnot pd pa s) rfl, opIs_plog pd pa pb⟩

end Sys2Proof.Machine
end

section
/-! PROOFS. The integer group (R113). -/

namespace Sys2Proof.Machine

open Sys2Proof

/-! ### The model's results as the numbers of R113 -/

/-- A remainder modulo a product, shifted: the low bits drop out and the modulus shrinks with them. -/
theorem emod_two_pow_ediv_two_pow (n : Int) (lo m : Nat) : n % 2 ^ (lo + m) / 2 ^ lo = n / 2 ^ lo % 2 ^ m := by
  have hpos : (0 : Int) < 2 ^ lo := by positivity
  calc n % 2 ^ (lo + m) / 2 ^ lo
      = (n - 2 ^ lo * (2 ^ m * (n / (2 ^ lo * 2 ^ m)))) / 2 ^ lo := by rw [pow_add, Int.emod_def, Int.mul_assoc]
    _ = n / 2 ^ lo - 2 ^ m * (n / 2 ^ lo / 2 ^ m) := by rw [Int.sub_mul_ediv_left _ _ hpos.ne', Int.ediv_ediv_of_nonneg hpos.le]
    _ = n / 2 ^ lo % 2 ^ m := (Int.emod_def _ _).symm

/-- A slice of a number's two's complement is the number shifted down, as long as the slice lies inside the word. -/
theorem extractLsb'_ofInt {w lo len : Nat} (h : lo + len ≤ w) (n : Int) :
    (BitVec.ofInt w n).extractLsb' lo len = BitVec.ofInt len (n / 2 ^ lo) := by
  obtain ⟨d, rfl⟩ := Nat.exists_eq_add_of_le h
  apply BitVec.eq_of_toNat_eq
  rw [BitVec.extractLsb'_toNat, BitVec.toNat_ofInt, BitVec.toNat_ofInt, Nat.shiftRight_eq_div_pow]
  zify
  rw [Int.toNat_of_nonneg (Int.emod_nonneg _ (by positivity)), Int.toNat_of_nonneg (Int.emod_nonneg _ (by positivity)),
    Nat.add_assoc, emod_two_pow_ediv_two_pow, pow_add, Int.emod_emod_of_dvd _ (Dvd.intro _ rfl)]

/-- The same for a natural number. -/
theorem extractLsb'_ofNat {w lo len : Nat} (h : lo + len ≤ w) (n : Nat) :
    (BitVec.ofNat w n).extractLsb' lo len = BitVec.ofNat len (n / 2 ^ lo) := by
  rw [← BitVec.ofInt_natCast, extractLsb'_ofInt h, ← BitVec.ofInt_natCast, Int.natCast_ediv, Nat.cast_pow, Nat.cast_ofNat]

theorem sub_eq_ofInt (a b : Word) : a - b = BitVec.ofInt 64 (a.toInt - b.toInt) := by
  rw [Int.sub_eq_add_neg, BitVec.ofInt_add, BitVec.ofInt_neg, BitVec.ofInt_toInt, BitVec.ofInt_toInt, BitVec.sub_eq_add_neg]

theorem lowHalf_mul (n : Int) : BitVec.ofInt 64 n = (BitVec.ofInt 128 n).extractLsb' 0 64 := by
  rw [extractLsb'_ofInt (by decide), pow_zero, Int.ediv_one]

/-- A zero divisor gives all ones, and else the quotient of the words is the quotient of their numbers. -/
theorem divn_eq (a b : Word) : (if b = 0 then BitVec.allOnes 64 else a / b) =
    if b.toNat = 0 then 0xFFFFFFFFFFFFFFFF else BitVec.ofNat 64 (a.toNat / b.toNat) :=
  if_congr BitVec.toNat_eq rfl BitVec.udiv_def

theorem remn_eq (a b : Word) : (if b = 0 then a else a % b) = if b.toNat = 0 then a else BitVec.ofNat 64 (a.toNat % b.toNat) :=
  if_congr BitVec.toNat_eq rfl BitVec.umod_def

theorem divS_eq (a b : Word) : divS a b = if b.toNat = 0 then 0xFFFFFFFFFFFFFFFF
    else if a.toInt = -2 ^ 63 ∧ b.toInt = -1 then a else BitVec.ofInt 64 (a.toInt.tdiv b.toInt) :=
  if_congr BitVec.toNat_eq rfl rfl

theorem remS_eq (a b : Word) : remS a b = if b.toNat = 0 then a
    else if a.toInt = -2 ^ 63 ∧ b.toInt = -1 then 0 else BitVec.ofInt 64 (a.toInt - b.toInt * a.toInt.tdiv b.toInt) :=
  if_congr BitVec.toNat_eq rfl rfl

theorem shiftLeft_eq_ofNat (a : Word) (k : Nat) : a <<< k = BitVec.ofNat 64 (a.toNat * 2 ^ k) := by
  rw [← Nat.shiftLeft_eq]; rfl

theorem ushiftRight_eq_ofNat (a : Word) (k : Nat) : a >>> k = BitVec.ofNat 64 (a.toNat / 2 ^ k) := by
  rw [← Nat.shiftRight_eq_div_pow, ← BitVec.toNat_ushiftRight, BitVec.ofNat_toNat, BitVec.setWidth_eq]

theorem sshiftRight_eq_ofInt (a : Word) (k : Nat) : a.sshiftRight k = BitVec.ofInt 64 (a.toInt / 2 ^ k) := by
  rw [BitVec.sshiftRight_eq, Int.shiftRight_eq_div_pow, Nat.cast_pow, Nat.cast_ofNat]

/-- A choice by a signed comparison of words is one by the comparison of their numbers. -/
theorem ite_slt (a b x y : Word) : (if a.slt b then x else y) = if a.toInt < b.toInt then x else y :=
  if_congr BitVec.slt_iff_toInt_lt rfl rfl

theorem ite_ult (a b x y : Word) : (if a.ult b then x else y) = if a.toNat < b.toNat then x else y :=
  if_congr BitVec.ult_iff_toNat_lt rfl rfl

/-! ### Counts of bits -/

theorem bitAt_eq_testBit (v k : Nat) : bitAt v k = v.testBit k := by
  rw [Nat.testBit_eq_decide_div_mod_eq]; rfl

/-- The top bit of a number of m + 1 bits. -/
theorem bitAt_top_iff {v m : Nat} (h : v < 2 ^ (m + 1)) : bitAt v m = true ↔ 2 ^ m ≤ v := by
  rw [bitAt_eq_testBit]
  exact ⟨Nat.ge_two_pow_of_testBit, fun hv => Nat.testBit_of_two_pow_le_and_two_pow_add_one_gt hv h⟩

/-- `clzN` counts the zeros above the highest one bit. -/
theorem clzN_spec (m v : Nat) (h : v < 2 ^ m) :
    clzN m v ≤ m ∧ v < 2 ^ (m - clzN m v) ∧ (v ≠ 0 → 2 ^ (m - 1 - clzN m v) ≤ v) := by
  induction m with
  | zero => exact ⟨le_rfl, h, fun hv => absurd (Nat.lt_one_iff.mp h) hv⟩
  | succ m ih =>
    by_cases htop : bitAt v m = true
    · simp only [clzN, if_pos htop]
      exact ⟨Nat.zero_le _, h, fun _ => (bitAt_top_iff h).mp htop⟩
    · obtain ⟨hle, hbelow, habove⟩ := ih (Nat.lt_of_not_le (mt (bitAt_top_iff h).mpr htop))
      have hwidth : m + 1 - (1 + clzN m v) = m - clzN m v := by omega
      have hhigh : m + 1 - 1 - (1 + clzN m v) = m - 1 - clzN m v := by omega
      simp only [clzN, if_neg htop, hwidth, hhigh]
      exact ⟨by omega, hbelow, habove⟩

theorem popN_eq_countP (m v : Nat) : popN m v = (List.range m).countP (bitAt v) := by
  induction m with
  | zero => rfl
  | succ m ih => rw [popN, ih, List.range_succ, List.countP_append, List.countP_singleton, Nat.add_comm]

theorem popN_toNat (a : Word) : popN 64 a.toNat = (List.range 64).countP fun k => a.getLsbD k := by
  rw [popN_eq_countP, funext (bitAt_eq_testBit a.toNat)]; rfl

/-! ### What each instruction does -/

section
variable (rd ra rb : Reg) (p : PReg) (s : State)

theorem exec_add : exec (.add rd ra rb) s = s.putS rd (s.rdS ra + s.rdS rb) := rfl
theorem exec_sub : exec (.sub rd ra rb) s = s.putS rd (s.rdS ra - s.rdS rb) := rfl
theorem exec_mul : exec (.mul rd ra rb) s = s.putS rd (BitVec.ofInt 64 ((s.rdS ra).toInt * (s.rdS rb).toInt)) := rfl
theorem exec_mulh : exec (.mulh rd ra rb) s = s.putS rd (BitVec.ofInt 64 ((s.rdS ra).toInt * (s.rdS rb).toInt / 2 ^ 64)) := rfl
theorem exec_mulhn : exec (.mulhn rd ra rb) s = s.putS rd (BitVec.ofNat 64 ((s.rdS ra).toNat * (s.rdS rb).toNat / 2 ^ 64)) := rfl
theorem exec_div : exec (.div rd ra rb) s = s.putS rd (divS (s.rdS ra) (s.rdS rb)) := rfl
theorem exec_divn : exec (.divn rd ra rb) s = s.putS rd (if s.rdS rb = 0 then BitVec.allOnes 64 else s.rdS ra / s.rdS rb) := rfl
theorem exec_rem : exec (.rem rd ra rb) s = s.putS rd (remS (s.rdS ra) (s.rdS rb)) := rfl
theorem exec_remn : exec (.remn rd ra rb) s = s.putS rd (if s.rdS rb = 0 then s.rdS ra else s.rdS ra % s.rdS rb) := rfl
theorem exec_and : exec (.and rd ra rb) s = s.putS rd (s.rdS ra &&& s.rdS rb) := rfl
theorem exec_or : exec (.or rd ra rb) s = s.putS rd (s.rdS ra ||| s.rdS rb) := rfl
theorem exec_xor : exec (.xor rd ra rb) s = s.putS rd (s.rdS ra ^^^ s.rdS rb) := rfl
theorem exec_shl : exec (.shl rd ra rb) s = s.putS rd (s.rdS ra <<< ((s.rdS rb).toNat % 64)) := rfl
theorem exec_shr : exec (.shr rd ra rb) s = s.putS rd (s.rdS ra >>> ((s.rdS rb).toNat % 64)) := rfl
theorem exec_sra : exec (.sra rd ra rb) s = s.putS rd ((s.rdS ra).sshiftRight ((s.rdS rb).toNat % 64)) := rfl
theorem exec_min : exec (.min rd ra rb) s = s.putS rd (if (s.rdS ra).slt (s.rdS rb) then s.rdS ra else s.rdS rb) := rfl
theorem exec_max : exec (.max rd ra rb) s = s.putS rd (if (s.rdS rb).slt (s.rdS ra) then s.rdS ra else s.rdS rb) := rfl
theorem exec_minn : exec (.minn rd ra rb) s = s.putS rd (if (s.rdS ra).ult (s.rdS rb) then s.rdS ra else s.rdS rb) := rfl
theorem exec_maxn : exec (.maxn rd ra rb) s = s.putS rd (if (s.rdS rb).ult (s.rdS ra) then s.rdS ra else s.rdS rb) := rfl
theorem exec_slt : exec (.slt rd ra rb) s = s.putS rd (if (s.rdS ra).slt (s.rdS rb) then 1 else 0) := rfl
theorem exec_sltn : exec (.sltn rd ra rb) s = s.putS rd (if (s.rdS ra).ult (s.rdS rb) then 1 else 0) := rfl
theorem exec_clz : exec (.clz rd ra) s = s.putS rd (BitVec.ofNat 64 (clzN 64 (s.rdS ra).toNat)) := rfl
theorem exec_popc : exec (.popc rd ra) s = s.putS rd (BitVec.ofNat 64 (popN 64 (s.rdS ra).toNat)) := rfl
theorem exec_sel : exec (.sel rd p ra rb) s = s.putS rd (if s.rdP p then s.rdS ra else s.rdS rb) := rfl

/-- R113: `clz` writes the number of zeros above the highest one bit. -/
theorem clz_writesScalar : ∃ n : Nat, WritesScalar s (.clz rd ra) rd (BitVec.ofNat 64 n) ∧ n ≤ 64 ∧
    (s.rdS ra).toNat < 2 ^ (64 - n) ∧ ((s.rdS ra).toNat ≠ 0 → 2 ^ (63 - n) ≤ (s.rdS ra).toNat) :=
  ⟨_, writesScalar_of (exec_clz rd ra s) rfl, clzN_spec 64 _ (s.rdS ra).isLt⟩

/-- R113: every word of the integer group has opcode 0x01 and the fn code of its mnemonic. -/
theorem opIs_int : ∀ x ∈ [(Instr.add rd ra rb, 0x00), (.sub rd ra rb, 0x01), (.mul rd ra rb, 0x02), (.mulh rd ra rb, 0x03),
    (.mulhn rd ra rb, 0x04), (.div rd ra rb, 0x05), (.divn rd ra rb, 0x06), (.rem rd ra rb, 0x07), (.remn rd ra rb, 0x08),
    (.and rd ra rb, 0x09), (.or rd ra rb, 0x0A), (.xor rd ra rb, 0x0B), (.shl rd ra rb, 0x0C), (.shr rd ra rb, 0x0D),
    (.sra rd ra rb, 0x0E), (.min rd ra rb, 0x0F), (.max rd ra rb, 0x10), (.minn rd ra rb, 0x11), (.maxn rd ra rb, 0x12),
    (.slt rd ra rb, 0x13), (.sltn rd ra rb, 0x14), (.clz rd ra, 0x15), (.popc rd ra, 0x16), (.sel rd p ra rb, 0x17)],
    OpIs x.1 0x01 x.2 := by
  simp only [List.forall_mem_cons]
  refine ⟨?add, ?sub, ?mul, ?mulh, ?mulhn, ?div, ?divn, ?rem, ?remn, ?and, ?or, ?xor, ?shl, ?shr, ?sra, ?min, ?max, ?minn, ?maxn,
    ?slt, ?sltn, ?clz, ?popc, ?sel, List.forall_mem_nil _⟩ <;>
    exact opIs_of_putR (fun _ => rfl) rfl rfl

end

/-- Settles O1: each word by its equation and the number that its result stands for, and the codes by the layout of format C.R. -/
theorem integerGroupResults : Obligations.IntegerGroupResults := by
  unfold Obligations.IntegerGroupResults
  intro rd ra rb p s a b
  exact ⟨writesScalar_of (exec_add rd ra rb s) (BitVec.add_def a b),
    writesScalar_of (exec_sub rd ra rb s) (sub_eq_ofInt a b),
    writesScalar_of (exec_mul rd ra rb s) (lowHalf_mul _),
    writesScalar_of (exec_mulh rd ra rb s) (extractLsb'_ofInt (by decide) _).symm,
    writesScalar_of (exec_mulhn rd ra rb s) (extractLsb'_ofNat (by decide) _).symm,
    writesScalar_of (exec_div rd ra rb s) (divS_eq a b),
    writesScalar_of (exec_divn rd ra rb s) (divn_eq a b),
    writesScalar_of (exec_rem rd ra rb s) (remS_eq a b),
    writesScalar_of (exec_remn rd ra rb s) (remn_eq a b),
    writesScalar_of (exec_and rd ra rb s) rfl,
    writesScalar_of (exec_or rd ra rb s) rfl,
    writesScalar_of (exec_xor rd ra rb s) rfl,
    writesScalar_of (exec_shl rd ra rb s) (shiftLeft_eq_ofNat a _),
    writesScalar_of (exec_shr rd ra rb s) (ushiftRight_eq_ofNat a _),
    writesScalar_of (exec_sra rd ra rb s) (sshiftRight_eq_ofInt a _),
    writesScalar_of (exec_min rd ra rb s) (ite_slt a b a b),
    writesScalar_of (exec_max rd ra rb s) (ite_slt b a a b),
    writesScalar_of (exec_minn rd ra rb s) (ite_ult a b a b),
    writesScalar_of (exec_maxn rd ra rb s) (ite_ult b a a b),
    writesScalar_of (exec_slt rd ra rb s) (ite_slt a b 1 0),
    writesScalar_of (exec_sltn rd ra rb s) (ite_ult a b 1 0),
    clz_writesScalar rd ra s,
    writesScalar_of (exec_popc rd ra s) (congrArg _ (popN_toNat a)),
    writesScalar_of (exec_sel rd ra rb p s) rfl,
    opIs_int rd ra rb p⟩

end Sys2Proof.Machine
end

section
/-! PROOFS. Waits for a time and for chunks (R249, R316, R317). -/

namespace Sys2Proof.Machine

open Sys2Proof

theorem waitsFor_of {s : State} {i : Instr} {w : Wait} (h : exec i s = .next (s.setWait w)) : WaitsFor s i w :=
  ⟨_, h, th_setWait s w, threadOnly_modTh _ _⟩

/-! ### Waits for a time -/

/-- A word that waits until a time goes on once it has come. -/
theorem onlyAdvances_of_waitUntil {s : State} {i : Instr} {t : Nat} (h : exec i s = .next (s.waitUntil t)) (ht : t ≤ s.cyc) :
    OnlyAdvances s i :=
  onlyAdvances_of (by rw [h, State.waitUntil, if_pos ht])

/-- A word that waits until a time records that time while it lies ahead. -/
theorem waitsFor_of_waitUntil {s : State} {i : Instr} {t : Nat} (h : exec i s = .next (s.waitUntil t)) (ht : s.cyc < t) :
    WaitsFor s i (.until t) :=
  waitsFor_of (by rw [h, State.waitUntil, if_neg (Nat.not_le.mpr ht)])

theorem exec_twait (ra : Reg) (s : State) : exec (.twait ra) s = .next (s.waitUntil (s.rdS ra).toNat) := rfl

/-- A `twait.rel` that has set its deadline keeps it. -/
theorem exec_twaitRel_again (ra : Reg) {s : State} {d : Nat} (h : s.th.wait = .until d) :
    exec (.twaitRel ra) s = .next (s.waitUntil d) := by
  show execTwaitRel ra s = _
  rw [execTwaitRel, h]

/-- A `twait.rel` that first executes sets its deadline from CYC. -/
theorem exec_twaitRel_first (ra : Reg) {s : State} (h : ∀ d, s.th.wait ≠ .until d) :
    exec (.twaitRel ra) s = .next (s.waitUntil (s.cyc + (s.rdS ra).toNat)) := by
  show execTwaitRel ra s = _
  unfold execTwaitRel
  split
  · next d hd => exact absurd hd (h d)
  · rfl

/-! ### The time of a promise (R249) -/

/-- A fold by maximum over the operations that meet a condition gives the start value or the latest time of one of them. -/
theorem foldl_max_due (p : EngOp → Prop) [DecidablePred p] (l : List EngOp) (v : Nat) :
    let r := l.foldl (fun m o => if p o then max m o.due else m) v
    v ≤ r ∧ (∀ o ∈ l, p o → o.due ≤ r) ∧ (r = v ∨ ∃ o ∈ l, p o ∧ o.due = r) := by
  induction l generalizing v with
  | nil => exact ⟨le_rfl, fun _ h => absurd h List.not_mem_nil, .inl rfl⟩
  | cons x l ih =>
    obtain ⟨hv, hle, hmax⟩ := ih (if p x then max v x.due else v)
    simp only [List.foldl_cons, List.forall_mem_cons, List.exists_mem_cons_iff]
    by_cases hx : p x
    · simp only [if_pos hx] at hv hle hmax ⊢
      refine ⟨(le_max_left _ _).trans hv, ⟨fun _ => (le_max_right _ _).trans hv, hle⟩, ?_⟩
      rcases hmax with heq | hlater
      · rcases max_choice v x.due with hm | hm
        · exact .inl (heq.trans hm)
        · exact .inr (.inl ⟨hx, (heq.trans hm).symm⟩)
      · exact .inr (.inr hlater)
    · simp only [if_neg hx] at hv hle hmax ⊢
      exact ⟨hv, ⟨fun h => absurd h hx, hle⟩, hmax.imp_right .inr⟩

/-- The model's deadline of a promise is the one of R249. -/
theorem deadlineIs_promiseDue (s : State) (v : Nat) : DeadlineIs s v (s.promiseDue v) := by
  obtain ⟨hv, hle, hmax⟩ := foldl_max_due
    (fun o => o.ofSector (s.sec s.cur) ∧ (o.promise = v ∨ o.due = v ∨ o.given.contains v)) s.ops v
  simp only [List.contains_iff_mem] at hle hmax
  exact ⟨hv, fun o ⟨hmem, ho⟩ => by simpa only [State.promiseDue, List.contains_iff_mem] using hle o hmem ho,
    by simpa only [State.promiseDue, Promises, List.contains_iff_mem, and_assoc] using hmax⟩

theorem deadlineIs_unique {s : State} {v t u : Nat} (ht : DeadlineIs s v t) (hu : DeadlineIs s v u) : t = u := by
  have le : ∀ {t u : Nat}, DeadlineIs s v t → DeadlineIs s v u → t ≤ u := by
    rintro t u ⟨-, -, rfl | ⟨o, ho, rfl⟩⟩ ⟨hv, hle, -⟩
    · exact hv
    · exact hle o ho
  exact le_antisymm (le ht hu) (le hu ht)

/-! ### The chunks of a mask -/

/-- A sum of distinct powers of two holds exactly the bits of its exponents. -/
theorem testBit_foldl_two_pow {l : List Nat} (h : l.SortedLT) (i : Nat) :
    (l.foldl (fun a i => a + 2 ^ i) 0).testBit i = decide (i ∈ l) := by
  have hsum : l.foldl (fun a i => a + 2 ^ i) 0 = (l.map fun i => 2 ^ i).sum := by
    rw [List.sum_eq_foldl, List.foldl_map]
  rw [hsum, Bool.eq_iff_iff, ← Nat.mem_bitIndices, Nat.bitIndices_sum_map_two_pow h, decide_eq_true_iff]

theorem sortedLT_filter_range (p : Nat → Bool) (n : Nat) : ((List.range n).filter p).SortedLT :=
  (List.pairwise_lt_range.filter p).sortedLT

/-- The missing bits are those of the mask whose chunks have not committed (R317). -/
theorem missing_getLsbD (s : State) (a m : Word) {i : Nat} (hi : i < 64) :
    (s.missing (a.toNat % 8192) m).getLsbD i = (m.getLsbD i && !(s.sec s.cur).bit (chunkOf a i)) := by
  rw [State.missing, BitVec.getLsbD_ofNat, testBit_foldl_two_pow (sortedLT_filter_range _ _)]
  simp [hi, chunkOf, List.mem_filter]

theorem missing_eq_zero_iff (s : State) (a m : Word) : s.missing (a.toNat % 8192) m = 0 ↔ MaskComplete s a m := by
  have hbits : s.missing (a.toNat % 8192) m = 0 ↔ ∀ i, i < 64 → (m.getLsbD i && !(s.sec s.cur).bit (chunkOf a i)) = false := by
    constructor
    · intro h i hi
      rw [← missing_getLsbD s a m hi, h]
      exact BitVec.getLsbD_zero
    · intro h
      refine BitVec.eq_of_getLsbD_eq fun i hi => ?_
      rw [missing_getLsbD s a m hi, h i hi]
      exact BitVec.getLsbD_zero.symm
  rw [hbits]
  refine forall₂_congr fun i _ => ?_
  cases m.getLsbD i <;> simp

/-! ### The first failed chunk -/

/-- The operation that a chunk of the acting sector belongs to, where it has failed. -/
def State.failedOp (s : State) (k : Nat) : Option EngOp :=
  ((Tab.find (s.sec s.cur).chunkOp k).bind s.op?).filter fun o => o.st = .failed

theorem failedOp_eq_some_iff (s : State) (k : Nat) (o : EngOp) : s.failedOp k = some o ↔ ChunkOf s k o ∧ o.st = .failed := by
  rw [State.failedOp, Option.filter_eq_some_iff, Option.bind_eq_some_iff, decide_eq_true_iff]; rfl

theorem failedChunk_eq (s : State) (l : List Nat) : s.failedChunk l = l.findSome? s.failedOp := by
  refine congrArg (fun f => l.findSome? f) (funext fun k => ?_)
  unfold State.failedOp
  cases (Tab.find (s.sec s.cur).chunkOp k).bind s.op? with
  | none => rfl
  | some o => simp [Option.filter_some]

/-- Bit i of a mask names a chunk of a failed operation (R317). -/
def FailsAt (s : State) (a m : Word) (i : Nat) (o : EngOp) : Prop :=
  m.getLsbD i = true ∧ ChunkOf s (chunkOf a i) o ∧ o.st = .failed

theorem failsAt_iff (s : State) (a m : Word) (i : Nat) (o : EngOp) :
    FailsAt s a m i o ↔ m.getLsbD i = true ∧ s.failedOp (chunkOf a i) = some o := by
  rw [FailsAt, failedOp_eq_some_iff]

theorem failedChunk_maskChunks (s : State) (a m : Word) : s.failedChunk (maskChunks (a.toNat % 8192) m) =
    ((List.range 64).filter fun i => m.getLsbD i).findSome? fun i => s.failedOp (chunkOf a i) := by
  rw [failedChunk_eq, maskChunks, List.findSome?_map]; rfl

theorem mem_maskBits {m : Word} {i : Nat} : i ∈ (List.range 64).filter (fun i => m.getLsbD i) ↔ i < 64 ∧ m.getLsbD i = true := by
  rw [List.mem_filter, List.mem_range]

theorem failedChunk_eq_none {s : State} {a m : Word} (h : ∀ i o, i < 64 → ¬FailsAt s a m i o) :
    s.failedChunk (maskChunks (a.toNat % 8192) m) = none := by
  rw [failedChunk_maskChunks, List.findSome?_eq_none_iff]
  intro i hi
  obtain ⟨hlt, hbit⟩ := mem_maskBits.mp hi
  exact Option.eq_none_iff_forall_ne_some.mpr fun o ho => h i o hlt ((failsAt_iff s a m i o).mpr ⟨hbit, ho⟩)

/-- The first failed chunk of a mask is the one below which no bit names one (log 138). -/
theorem failedChunk_eq_some {s : State} {a m : Word} {i : Nat} {o : EngOp} (hi : i < 64) (ho : FailsAt s a m i o)
    (hfirst : ∀ j p, j < i → ¬FailsAt s a m j p) : s.failedChunk (maskChunks (a.toNat % 8192) m) = some o := by
  obtain ⟨hbit, hop⟩ := (failsAt_iff s a m i o).mp ho
  obtain ⟨below, above, hsplit⟩ := List.append_of_mem (mem_maskBits.mpr ⟨hi, hbit⟩)
  have hsorted := (sortedLT_filter_range (fun i => m.getLsbD i) 64).pairwise
  rw [hsplit, List.pairwise_append] at hsorted
  obtain ⟨-, -, hbelow⟩ := hsorted
  rw [failedChunk_maskChunks, List.findSome?_eq_some_iff]
  refine ⟨below, i, above, hsplit, hop, fun j hj => Option.eq_none_iff_forall_ne_some.mpr fun p hp => ?_⟩
  have hbitj := (mem_maskBits.mp (hsplit ▸ List.mem_append_left _ hj)).2
  exact hfirst j p (hbelow j hj i List.mem_cons_self) ((failsAt_iff s a m j p).mpr ⟨hbitj, hp⟩)

/-! ### bmwait -/

section
variable {s : State} (ra rb : Reg) {rc : Reg}

theorem exec_bmwait : exec (.bmwait ra rb rc) s = s.maskWait ra rb rc := rfl

/-- Without a promise and without a failed chunk, `bmwait` goes on when its mask is complete, and else waits. -/
theorem exec_bmwait_unfailed (hrc : rc = 0) (h : s.failedChunk (maskChunks ((s.rdS ra).toNat % 8192) (s.rdS rb)) = none) :
    exec (.bmwait ra rb rc) s = if s.missing ((s.rdS ra).toNat % 8192) (s.rdS rb) = 0 then .next s.advance else .next s := by
  rw [exec_bmwait, State.maskWait, if_neg (not_not.mpr hrc), h]

theorem exec_bmwait_failed {o : EngOp} (hrc : rc = 0)
    (h : s.failedChunk (maskChunks ((s.rdS ra).toNat % 8192) (s.rdS rb)) = some o) :
    exec (.bmwait ra rb rc) s = .next (s.takeTrap (statusCause o.status) o.failAddr) := by
  rw [exec_bmwait, State.maskWait, if_neg (not_not.mpr hrc), h]; rfl

theorem exec_bmwait_early {t : Nat} (hrc : rc ≠ 0) (h : DeadlineIs s (s.rdS rc).toNat t) (ht : s.cyc < t) :
    exec (.bmwait ra rb rc) s = .next (s.setWait (.until t)) := by
  obtain rfl := deadlineIs_unique h (deadlineIs_promiseDue s _)
  rw [exec_bmwait, State.maskWait, if_pos hrc, if_pos ht]

/-- At the time of its promise, `bmwait` goes on when its mask is complete, and else takes PROMISE_MISSED. -/
theorem exec_bmwait_due {t : Nat} (hrc : rc ≠ 0) (h : DeadlineIs s (s.rdS rc).toNat t) (ht : t ≤ s.cyc) :
    exec (.bmwait ra rb rc) s = s.finish (if s.missing ((s.rdS ra).toNat % 8192) (s.rdS rb) = 0 then .ok s.advance
      else .trap .promiseMissed (s.missing ((s.rdS ra).toNat % 8192) (s.rdS rb))) := by
  obtain rfl := deadlineIs_unique h (deadlineIs_promiseDue s _)
  rw [exec_bmwait, State.maskWait, if_pos hrc, if_neg (Nat.not_lt.mpr ht)]

end

/-- Settles O17: the two time waits by their common end, and bmwait by its missing bits, its first failed chunk and the one deadline
of its promise. -/
theorem waitsForTimesAndChunks : Obligations.WaitsForTimesAndChunks := by
  unfold Obligations.WaitsForTimesAndChunks
  refine ⟨?times, ?chunks⟩
  case times =>
    intro ra s v
    refine ⟨opIs_of_putR (fun _ => rfl) rfl rfl, opIs_of_putR (fun _ => rfl) rfl rfl,
      onlyAdvances_of_waitUntil (exec_twait ra s), waitsFor_of_waitUntil (exec_twait ra s), ?now, ?later, ?again⟩
    case now => exact fun hw hv => onlyAdvances_of_waitUntil (exec_twaitRel_first ra hw) (congrArg (s.cyc + ·) hv).le
    case later => exact fun hw hv => waitsFor_of_waitUntil (exec_twaitRel_first ra hw) (Nat.lt_add_of_pos_right (Nat.pos_of_ne_zero hv))
    case again =>
      exact fun d hd => ⟨onlyAdvances_of_waitUntil (exec_twaitRel_again ra hd), waitsFor_of_waitUntil (exec_twaitRel_again ra hd)⟩
  case chunks =>
    intro ra rb rc s a m w fails
    have hdone := missing_eq_zero_iff s a m
    refine ⟨?unfailed, ?failed, ?promise⟩
    case unfailed =>
      intro hrc hnone
      have hexec := exec_bmwait_unfailed ra rb hrc (failedChunk_eq_none hnone)
      exact ⟨fun h => onlyAdvances_of (hexec.trans (if_pos (hdone.mpr h))), fun h => hexec.trans (if_neg (mt hdone.mp h))⟩
    case failed =>
      exact fun i o hrc hi ho hfirst => exec_bmwait_failed ra rb hrc (failedChunk_eq_some hi ho hfirst)
    case promise =>
      intro t hrc ht
      refine ⟨fun hlt => waitsFor_of (exec_bmwait_early ra rb hrc ht hlt), fun hle h => ?complete, fun hle h => ?missed⟩
      case complete => exact onlyAdvances_of (by rw [exec_bmwait_due ra rb hrc ht hle, if_pos (hdone.mpr h), finish_ok])
      case missed =>
        refine ⟨_, ?_, fun i hi => missing_getLsbD s a m hi⟩
        show exec (.bmwait ra rb rc) s = _
        rw [exec_bmwait_due ra rb hrc ht hle, if_neg (mt hdone.mp h), finish_trap]

end Sys2Proof.Machine
end

section
/-! PROOFS. Control words: decode of encode (R46, R48, R51 to R56). -/

namespace Sys2Proof

/-- The decoder gives an instruction back from every word that the encoder makes of it. -/
def RoundTrips (i : Instr) : Prop :=
  ∀ (g : Guard) (w : Word), (g.neg = true → g.g ≠ 0) → encodeCtl g i = some w → decodeCtl w = some (g, i)

/-! ### One lemma for each format: what its words decode to is decided by their opcode and their fields -/

section
variable {i : Instr} (op : BitVec 8)

theorem roundTrips_putR (f : FmtR) (he : ∀ g, encodeCtl g i = some (putR op g f))
    (hd : ∀ w, fld w 56 8 = op → getR w = f → decOp w = some i) : RoundTrips i := by
  intro g w hg hw
  obtain rfl : putR op g f = w := Option.some.inj ((he g).symm.trans hw)
  exact decodeCtl_of (top_putR op g f).2 hg (hd _ (top_putR op g f).1 (getR_putR op g f))

theorem roundTrips_putI (f : FmtI) (he : ∀ g, encodeCtl g i = some (putI op g f))
    (hd : ∀ w, fld w 56 8 = op → getI w = f → decOp w = some i) : RoundTrips i := by
  intro g w hg hw
  obtain rfl : putI op g f = w := Option.some.inj ((he g).symm.trans hw)
  exact decodeCtl_of (top_putI op g f).2 hg (hd _ (top_putI op g f).1 (getI_putI op g f))

theorem roundTrips_putB (f : FmtB) (he : ∀ g, encodeCtl g i = some (putB op g f))
    (hd : ∀ w, fld w 56 8 = op → getB w = f → decOp w = some i) : RoundTrips i := by
  intro g w hg hw
  obtain rfl : putB op g f = w := Option.some.inj ((he g).symm.trans hw)
  exact decodeCtl_of (top_putB op g f).2 hg (hd _ (top_putB op g f).1 (getB_putB op g f))

theorem roundTrips_putS (f : FmtS) (he : ∀ g, encodeCtl g i = some (putS op g f))
    (hd : ∀ w, fld w 56 8 = op → getS w = f → decOp w = some i) : RoundTrips i := by
  intro g w hg hw
  obtain rfl : putS op g f = w := Option.some.inj ((he g).symm.trans hw)
  exact decodeCtl_of (top_putS op g f).2 hg (hd _ (top_putS op g f).1 (getS_putS op g f))

theorem roundTrips_putY (f : FmtY) (he : ∀ g, encodeCtl g i = some (putY op g f))
    (hd : ∀ w, fld w 56 8 = op → getY w = f → decOp w = some i) : RoundTrips i := by
  intro g w hg hw
  obtain rfl : putY op g f = w := Option.some.inj ((he g).symm.trans hw)
  exact decodeCtl_of (top_putY op g f).2 hg (hd _ (top_putY op g f).1 (getY_putY op g f))
end

/-! ### Fields read back from their encoding -/

theorem predOk_prReg (p : PReg) : predOk (prReg p) = true := by
  have := p.isLt
  simp only [predOk, prReg, BitVec.toNat_setWidth, decide_eq_true_eq]
  omega

theorem predOf_prReg (p : PReg) : predOf (prReg p) = p :=
  BitVec.setWidth_setWidth_of_le p (by decide)

theorem condOf_code8 (c : Cond) : condOf (BitVec.ofNat 8 c.code).toNat = some c := by cases c <;> rfl

theorem decHandle_setWidth (sd sa sb : Reg) (dr h : DReg) (fn : BitVec 8) (opt : BitVec 18) :
    decHandle ⟨sd, sa, sb, dr, h.setWidth 7, fn, opt⟩ = some h := by
  have hlt : (h.setWidth 7).toNat < 16 := by
    rw [BitVec.toNat_setWidth]
    have := h.isLt
    omega
  simp only [decHandle, need, hlt, decide_true, if_true, BitVec.setWidth_setWidth_of_le h (show 4 ≤ 7 by decide), BitVec.setWidth_eq]

theorem dstOpt_edge_toNat (prog : Bool) (slice : BitVec 7) :
    (dstOpt (.edge prog slice)).toNat = 2 ^ 17 + (prog.toNat * 2 ^ 7 + slice.toNat) := by
  have hlt := slice.isLt
  cases prog <;> simp only [dstOpt, BitVec.toNat_ofNat, Bool.toNat_true, Bool.toNat_false, if_true, if_false, Bool.false_eq_true] <;> omega

theorem decDst_dstOpt (d : EngDst) : decDst (dstOpt d) = some d := by
  cases d with
  | mem => rfl
  | edge prog slice =>
    have hlt := slice.isLt
    have hp : prog.toNat < 2 := Bool.toNat_lt prog
    have ho := dstOpt_edge_toNat prog slice
    have hne : dstOpt (.edge prog slice) ≠ 0 := fun h => by rw [h] at ho; exact absurd ho (by change 0 ≠ _; omega)
    have hprog : ((2 ^ 17 + (prog.toNat * 2 ^ 7 + slice.toNat)) / 2 ^ 7 % 2 == 1) = prog := by
      have : (2 ^ 17 + (prog.toNat * 2 ^ 7 + slice.toNat)) / 2 ^ 7 % 2 = prog.toNat := by omega
      rw [this]
      cases prog <;> rfl
    have hslice : (dstOpt (.edge prog slice)).setWidth 7 = slice :=
      BitVec.eq_of_toNat_eq (by rw [BitVec.toNat_setWidth, ho]; omega)
    rw [decDst, if_neg hne, hslice, ho, hprog, if_pos (by omega)]

theorem decKey_keyOpt (k : Option (BitVec 4)) : decKey (keyOpt k) = some k := by
  cases k with
  | none => rfl
  | some k => revert k; decide

theorem tmapOpt_const_toNat {k : Nat} (hk : k < 3) (off : BitVec 15) :
    (tmapOpt k (.const off)).toNat = k * 2 ^ 16 + 2 ^ 15 + off.toNat := by
  have := off.isLt
  rw [tmapOpt, BitVec.toNat_ofNat]
  omega

theorem tmapOpt_addr_toNat {k : Nat} (hk : k < 3) (ra : Reg) : (tmapOpt k (.addr ra)).toNat = k * 2 ^ 16 := by
  rw [tmapOpt, BitVec.toNat_ofNat]
  omega

/-- The kind of a tmap stands above its source (R297). -/
theorem tmapOpt_kind {k : Nat} (hk : k < 3) (src : TmapSrc) : (tmapOpt k src).toNat / 2 ^ 16 = k := by
  cases src with
  | const off => have := off.isLt; rw [tmapOpt_const_toNat hk]; omega
  | addr ra => rw [tmapOpt_addr_toNat hk]; omega

theorem decTmapSrc_of {k : Nat} (hk : k < 3) (src : TmapSrc) (sd sb : Reg) (dr : DReg) (q : Port) (fn : BitVec 8) :
    decTmapSrc ⟨sd, tmapSa src, sb, dr, q, fn, tmapOpt k src⟩ = some src := by
  cases src with
  | const off =>
    have hlt := off.isLt
    have ho := tmapOpt_const_toNat hk off
    have hoff : (tmapOpt k (.const off)).setWidth 15 = off :=
      BitVec.eq_of_toNat_eq (by rw [BitVec.toNat_setWidth, ho]; omega)
    simp only [decTmapSrc, hoff, ho]
    rw [if_pos (by omega)]
    rfl
  | addr ra =>
    have ho := tmapOpt_addr_toNat hk ra
    simp only [decTmapSrc, ho]
    rw [if_neg (by omega), show k * 2 ^ 16 % 2 ^ 15 = 0 by omega]
    rfl

/-- What a tmap word of fn code 0 forms, by the kind that stands above its source (R297). -/
theorem decTmap_fn0 {k : Nat} (hk : k < 3) (src : TmapSrc) (dr : DReg) :
    decTmap ⟨0, tmapSa src, 0, dr, 0, 0, tmapOpt k src⟩ = some ([Instr.tmap dr src, .tmapPat dr src, .tmapRing dr src][k]'hk) := by
  have hs := decTmapSrc_of hk src 0 0 dr 0 0
  have hkind := tmapOpt_kind hk src
  unfold decTmap
  simp only [hkind, hs]
  obtain rfl | rfl | rfl : k = 0 ∨ k = 1 ∨ k = 2 := by omega
  all_goals rfl

theorem decTmap_win (src : TmapSrc) (dr : DReg) :
    decTmap ⟨0, tmapSa src, 0, dr, 0, 1, tmapOpt 0 src⟩ = some (.tmapWin dr src) := by
  show (if (0 : Reg) = 0 ∧ (tmapOpt 0 src).toNat / 2 ^ 16 = 0 then _ else none) = _
  rw [if_pos ⟨rfl, tmapOpt_kind (by decide) src⟩, decTmapSrc_of (by decide) src]
  rfl

theorem decTmap_copy (dm dn : DReg) (ra : Reg) :
    decTmap ⟨0, ra, dn.setWidth 5, dm, 0, 2, 0⟩ = some (.tmapCopy dm dn ra) := by
  have hlt : ∀ d : DReg, (d.setWidth 5).toNat < 16 := by decide
  show need (decide ((dn.setWidth 5).toNat < 16)) (Instr.tmapCopy dm ((dn.setWidth 5).setWidth 4) ra) = _
  rw [need, if_pos (decide_eq_true (hlt dn)), BitVec.setWidth_setWidth_of_le dn (by decide), BitVec.setWidth_eq]

theorem decShift_of (rd ra : Reg) (n : BitVec 6) (k : BitVec 6 → Instr) :
    decShift ⟨rd, ra, 0, 0, n.setWidth 32⟩ k = some (k n) := by
  have hlt : (n.setWidth 32).toNat < 64 := by
    rw [BitVec.toNat_setWidth]
    have := n.isLt
    omega
  simp only [decShift, need, hlt, decide_true, BitVec.setWidth_setWidth_of_le n (show 6 ≤ 32 by decide), BitVec.setWidth_eq]
  rfl

theorem decCode_of (code : BitVec 16) (k : BitVec 16 → Instr) : decCode ⟨0, 0, 0, code.setWidth 32⟩ k = some (k code) := by
  have hlt : (code.setWidth 32).toNat < 2 ^ 16 := by
    rw [BitVec.toNat_setWidth]
    have := code.isLt
    omega
  simp only [decCode, need, hlt, decide_true, BitVec.setWidth_setWidth_of_le code (show 16 ≤ 32 by decide), BitVec.setWidth_eq]
  rfl

/-- The element format stands below the scope in opt (R312). -/
theorem collOpt_fields (fmt : BitVec 4) (sc : CollScope) : (collOpt fmt sc).toNat / 2 ^ 7 = 0 ∧ (collOpt fmt sc).setWidth 4 = fmt ∧
    (collOpt fmt sc).toNat / 2 ^ 4 % 8 = match sc with | .gang => 2 | .domain => 5 := by
  cases sc
  all_goals revert fmt; decide

/-- The collective of an fn code, where its operands are allowed (R312). -/
theorem decColl_of (fmt : BitVec 4) {sc : CollScope} (rd : Reg) (dh dm : DReg) (ra : Reg) {rb : Reg} (fn : BitVec 8)
    (hrb : (sc != .gang || rb == 0) = true) :
    decColl ⟨rd, ra, rb, dm, dh.setWidth 7, fn, collOpt fmt sc⟩ =
      match fn.toNat with
      | 0 => need (collFmtOk fmt) (.collSum fmt sc rd dh dm ra rb)
      | 1 => need (collFmtOk fmt) (.collMax fmt sc rd dh dm ra rb)
      | 2 => need (collFmtOk fmt) (.collMin fmt sc rd dh dm ra rb)
      | 3 => some (.collGather fmt sc rd dh dm ra rb)
      | 4 => some (.collBcast fmt sc rd dh dm ra rb)
      | _ => none := by
  obtain ⟨htop, hfmt, hsc⟩ := collOpt_fields fmt sc
  unfold decColl
  simp only [htop, hfmt, hsc, decHandle_setWidth]
  cases sc with
  | gang =>
    obtain rfl : rb = 0 := by simpa using hrb
    rfl
  | domain => rfl

/-- The opt field of a tinj.data gives its tag and its broadcast bit back (R216). -/
theorem tinjOpt_fields (tag : BitVec 4) (bcast : Bool) :
    let opt := BitVec.ofNat 18 (tag.toNat + if bcast then 16 else 0)
    opt.toNat < 32 ∧ opt.setWidth 4 = tag ∧ decide (16 ≤ opt.toNat) = bcast := by
  revert tag bcast
  decide

theorem decTinj_of (q : Port) (ra rb : Reg) (tag : BitVec 4) (bcast : Bool) :
    let opt := BitVec.ofNat 18 (tag.toNat + if bcast then 16 else 0)
    need (decide (opt.toNat < 32)) (Instr.tinjData q ra rb (opt.setWidth 4) (decide (16 ≤ opt.toNat))) =
      some (.tinjData q ra rb tag bcast) := by
  obtain ⟨hlt, htag, hb⟩ := tinjOpt_fields tag bcast
  intro opt
  rw [htag, hb, decide_eq_true hlt]
  rfl

theorem decSig_of (n : BitVec 8) :
    need (decide ((n.setWidth 32).toNat < 256)) (Instr.sig ((n.setWidth 32).setWidth 8)) = some (.sig n) := by
  have hlt : (n.setWidth 32).toNat < 256 := by
    rw [BitVec.toNat_setWidth]
    have := n.isLt
    omega
  rw [decide_eq_true hlt, BitVec.setWidth_setWidth_of_le n (by decide), BitVec.setWidth_eq]
  rfl

/-- The fn code of an atomic gives its operation and its size back (R56). -/
theorem amoFn_fields (o : AmoOp) (dbl : Bool) :
    let fn := (BitVec.ofNat 8 (o.code * 16 + if dbl then 3 else 2)).toNat
    fn % 16 = (if dbl then 3 else 2) ∧ fn / 16 ≠ 9 ∧ amoOf (fn / 16) = some o := by
  cases o
  all_goals revert dbl; decide

theorem decAmo_of (o : AmoOp) (dbl : Bool) (rd ra rb : Reg) :
    decAmo ⟨rd, ra, rb, 0, BitVec.ofNat 8 (o.code * 16 + if dbl then 3 else 2), 0⟩ = some (.amo o dbl rd ra rb) := by
  obtain ⟨hsize, hcas, hop⟩ := amoFn_fields o dbl
  simp only [decAmo, hsize, if_neg hcas, hop]
  cases dbl <;> rfl

theorem decAmo_cas (dbl : Bool) (rd ra rb rc : Reg) :
    decAmo ⟨rd, ra, rb, rc, if dbl then 0x93 else 0x92, 0⟩ = some (.amoCas dbl rd ra rb rc) := by
  cases dbl
  all_goals simp only [decAmo]; rfl

/-! ### The words -/

/-- Every well-formed control instruction comes back from its words. -/
theorem roundTrips (i : Instr) (h : i.wellFormed = true) : RoundTrips i := by
  cases i
  -- no field but registers and immediates of full width
  case add | sub | mul | mulh | mulhn | div | divn | rem | remn | and | or | xor | shl | shr | sra | min | max | minn | maxn | slt | sltn
      | clz | popc | jr | jalr | vrcl | twait | twaitRel | bmwait =>
    exact roundTrips_putR _ _ (fun _ => rfl) fun w ho hf => by unfold decOp; rw [ho, hf]; rfl
  case addi | andi | ori | xori | slti | li | lhi | pfch =>
    exact roundTrips_putI _ _ (fun _ => rfl) fun w ho hf => by unfold decOp; rw [ho, hf]; rfl
  case j | jal | loop =>
    exact roundTrips_putB _ _ (fun _ => rfl) fun w ho hf => by unfold decOp; rw [ho, hf]; rfl
  case cfgld | cfgarm | cfgsw | sdrain | sdrainGo | sbindWr | seos | tinjThread | mark | sstat | publ | rwaitFill | rwaitFree
      | radvFill | radvFree =>
    exact roundTrips_putS _ _ (fun _ => rfl) fun w ho hf => by unfold decOp; rw [ho, hf]; rfl
  case gbar | tret | halt | nop | fenceLayer =>
    exact roundTrips_putY _ _ (fun _ => rfl) fun w ho hf => by unfold decOp; rw [ho, hf]; rfl
  -- predicates in 5-bit fields
  case sel rd p ra rb =>
    exact roundTrips_putR _ _ (fun _ => rfl) fun w ho hf => by
      unfold decOp; rw [ho, hf]
      show need (predOk (prReg p)) (Instr.sel rd (predOf (prReg p)) ra rb) = _
      rw [predOk_prReg, predOf_prReg]; rfl
  case cmp c pd ra rb =>
    exact roundTrips_putR _ _ (fun _ => rfl) fun w ho hf => by
      unfold decOp; rw [ho, hf]
      show decCmp _ = _
      simp only [decCmp, predOk_prReg, predOf_prReg, condOf_code8]; rfl
  case cmpi c pd ra imm =>
    exact roundTrips_putI _ _ (fun _ => rfl) fun w ho hf => by
      unfold decOp; rw [ho, hf]
      show decCmpi _ = _
      simp only [decCmpi, predOk_prReg, predOf_prReg, condOf_code8]; rfl
  case pand | por | pxor | pandn | porn | pmov | pnot =>
    exact roundTrips_putR _ _ (fun _ => rfl) fun w ho hf => by
      unfold decOp; rw [ho, hf]
      show decPlog _ = _
      simp only [decPlog, predOk_prReg, predOf_prReg]; rfl
  -- codes of the enumerations
  case bcc c ra rb off =>
    cases c <;> exact roundTrips_putB _ _ (fun _ => rfl) fun w ho hf => by unfold decOp; rw [ho, hf]; rfl
  case ld sz rd ra imm =>
    cases sz <;> exact roundTrips_putI _ _ (fun _ => rfl) fun w ho hf => by unfold decOp; rw [ho, hf]; rfl
  case st sz rd ra imm =>
    cases sz <;> exact roundTrips_putI _ _ (fun _ => rfl) fun w ho hf => by unfold decOp; rw [ho, hf]; rfl
  case ldn sz rd ra imm =>
    cases sz
    case d => cases h
    all_goals exact roundTrips_putI _ _ (fun _ => rfl) fun w ho hf => by unfold decOp; rw [ho, hf]; rfl
  case amo o dbl rd ra rb =>
    exact roundTrips_putR _ _ (fun _ => rfl) fun w ho hf => by unfold decOp; rw [ho, hf]; exact decAmo_of o dbl rd ra rb
  case amoCas dbl rd ra rb rc =>
    exact roundTrips_putR _ _ (fun _ => rfl) fun w ho hf => by unfold decOp; rw [ho, hf]; exact decAmo_cas dbl rd ra rb rc
  case ldv sc rd ra rb =>
    cases sc
    case cell => cases h
    all_goals exact roundTrips_putR _ _ (fun _ => rfl) fun w ho hf => by unfold decOp; rw [ho, hf]; rfl
  case stv sc ra rb =>
    cases sc
    case cell => cases h
    all_goals exact roundTrips_putR _ _ (fun _ => rfl) fun w ho hf => by unfold decOp; rw [ho, hf]; rfl
  case fence sc =>
    cases sc
    case cell => cases h
    all_goals exact roundTrips_putY _ _ (fun _ => rfl) fun w ho hf => by unfold decOp; rw [ho, hf]; rfl
  case tinv sc ra =>
    cases sc
    case cell | domain => cases h
    all_goals exact roundTrips_putY _ _ (fun _ => rfl) fun w ho hf => by unfold decOp; rw [ho, hf]; rfl
  case pwrq t ra =>
    cases t <;> exact roundTrips_putY _ _ (fun _ => rfl) fun w ho hf => by unfold decOp; rw [ho, hf]; rfl
  case sysrd rd n =>
    cases n <;> exact roundTrips_putY _ _ (fun _ => rfl) fun w ho hf => by unfold decOp; rw [ho, hf]; rfl
  case syswr n ra =>
    cases n <;> exact roundTrips_putY _ _ (fun _ => rfl) fun w ho hf => by unfold decOp; rw [ho, hf]; rfl
  case sbindRd q dr ra eos =>
    cases eos <;> exact roundTrips_putS _ _ (fun _ => rfl) fun w ho hf => by unfold decOp; rw [ho, hf]; rfl
  case sbar sel =>
    cases sel <;> exact roundTrips_putS _ _ (fun _ => rfl) fun w ho hf => by unfold decOp; rw [ho, hf]; rfl
  -- narrower immediates
  case shli | shri | srai =>
    exact roundTrips_putI _ _ (fun _ => rfl) fun w ho hf => by unfold decOp; rw [ho, hf]; exact decShift_of _ _ _ _
  case svc | trap =>
    exact roundTrips_putY _ _ (fun _ => rfl) fun w ho hf => by unfold decOp; rw [ho, hf]; exact decCode_of _ _
  case sig n =>
    exact roundTrips_putY _ _ (fun _ => rfl) fun w ho hf => by unfold decOp; rw [ho, hf]; exact decSig_of _
  case tinjData q ra rb tag bcast =>
    exact roundTrips_putS _ _ (fun _ => rfl) fun w ho hf => by unfold decOp; rw [ho, hf]; exact decTinj_of _ _ _ _ _
  -- descriptors and engine words
  case tmap dr src =>
    exact roundTrips_putS _ _ (fun _ => rfl) fun w ho hf => by
      unfold decOp; rw [ho, hf]; exact decTmap_fn0 (show 0 < 3 by decide) src dr
  case tmapPat dr src =>
    exact roundTrips_putS _ _ (fun _ => rfl) fun w ho hf => by
      unfold decOp; rw [ho, hf]; exact decTmap_fn0 (show 1 < 3 by decide) src dr
  case tmapRing dr src =>
    exact roundTrips_putS _ _ (fun _ => rfl) fun w ho hf => by
      unfold decOp; rw [ho, hf]; exact decTmap_fn0 (show 2 < 3 by decide) src dr
  case tmapWin dr src =>
    exact roundTrips_putS _ _ (fun _ => rfl) fun w ho hf => by unfold decOp; rw [ho, hf]; exact decTmap_win src dr
  case tmapCopy dm dn ra =>
    exact roundTrips_putS _ _ (fun _ => rfl) fun w ho hf => by unfold decOp; rw [ho, hf]; exact decTmap_copy dm dn ra
  case cpy rd dh dm ra rb dst =>
    exact roundTrips_putS _ _ (fun _ => rfl) fun w ho hf => by
      unfold decOp; rw [ho, hf]
      show (decHandle _).bind (fun d => (decDst (dstOpt dst)).map fun x => Instr.cpy rd d dm ra rb x) = _
      rw [decHandle_setWidth, decDst_dstOpt]; rfl
  case gath rd dh dm ra rb dst =>
    exact roundTrips_putS _ _ (fun _ => rfl) fun w ho hf => by
      unfold decOp; rw [ho, hf]
      show (decHandle _).bind (fun d => (decDst (dstOpt dst)).map fun x => Instr.gath rd d dm ra rb x) = _
      rw [decHandle_setWidth, decDst_dstOpt]; rfl
  case inst rd dh dm ra rb key =>
    exact roundTrips_putS _ _ (fun _ => rfl) fun w ho hf => by
      unfold decOp; rw [ho, hf]
      show (decHandle _).bind (fun d => (decKey (keyOpt key)).map fun x => Instr.inst rd d dm ra rb x) = _
      rw [decHandle_setWidth, decKey_keyOpt]; rfl
  case stage rd dh dm rb key =>
    exact roundTrips_putS _ _ (fun _ => rfl) fun w ho hf => by
      unfold decOp; rw [ho, hf]
      show (decHandle _).bind (fun d => (decKey (keyOpt key)).map fun x => Instr.stage rd d dm rb x) = _
      rw [decHandle_setWidth, decKey_keyOpt]; rfl
  case scat rd dh dm ra rb =>
    exact roundTrips_putS _ _ (fun _ => rfl) fun w ho hf => by
      unfold decOp; rw [ho, hf]
      exact congrArg (Option.map fun d => Instr.scat rd d dm ra rb) (decHandle_setWidth rd ra rb dm dh 0 0)
  case rstr rd dh ra rb =>
    exact roundTrips_putS _ _ (fun _ => rfl) fun w ho hf => by
      unfold decOp; rw [ho, hf]
      exact congrArg (Option.map fun d => Instr.rstr rd d ra rb) (decHandle_setWidth rd ra rb 0 dh 0 0)
  case collSum fmt sc rd dh dm ra rb | collMax fmt sc rd dh dm ra rb | collMin fmt sc rd dh dm ra rb =>
    obtain ⟨hfmt, hrb⟩ : collFmtOk fmt = true ∧ (sc != .gang || rb == 0) = true := (Bool.and_eq_true _ _).mp h
    exact roundTrips_putS _ _ (fun _ => rfl) fun w ho hf => by
      unfold decOp; rw [ho, hf]
      exact (decColl_of fmt rd dh dm ra _ hrb).trans (if_pos hfmt)
  case collGather fmt sc rd dh dm ra rb | collBcast fmt sc rd dh dm ra rb =>
    exact roundTrips_putS _ _ (fun _ => rfl) fun w ho hf => by
      unfold decOp; rw [ho, hf]; exact decColl_of fmt rd dh dm ra _ h
  -- fabric words and events have no control word
  all_goals exact fun _ _ _ hw => nomatch hw

/-- Settles O57: each format gives its fields back, and each opcode's decoder its instruction. -/
theorem controlWordsRoundTrip : Obligations.ControlWordsRoundTrip := by
  unfold Obligations.ControlWordsRoundTrip
  exact fun g i w hg hi hw => roundTrips i hi g w hg hw

end Sys2Proof
end

section
/-! PROOFS. Fabric words: decode and encode agree (R63 to R71). -/

namespace Sys2Proof

/-- The decoder gives a fabric instruction back from the word of its parts. -/
theorem decodeFab_putF (f : FabOp) : decodeFab (putF f) = if fabOk f.op f.w then fabOf f.op.toNat f.w else none := by
  rw [decodeFab, getF_putF]

/-- A fabric instruction is well-formed exactly when its word keeps the rules of R64 to R71, and its opcode stands for it. -/
theorem fabParts_spec {i : Instr} {f : FabOp} (h : fabParts i = some f) : i.wellFormed = fabOk f.op f.w ∧ fabOf f.op.toNat f.w = some i := by
  cases i
  all_goals simp only [fabParts, Option.some.injEq, reduceCtorEq] at h
  all_goals
    subst h
    exact ⟨rfl, rfl⟩

/-- The parts of the instruction that an opcode stands for are that opcode and the fields. -/
theorem fabParts_of_fabOf {op : BitVec 8} {w : FabW} {i : Instr} (h : fabOf op.toNat w = some i) : fabParts i = some ⟨op, w⟩ := by
  unfold fabOf at h
  split at h
  all_goals simp only [Option.some.injEq, reduceCtorEq] at h
  all_goals
    next hop =>
    subst h
    exact congrArg (fun o => some (FabOp.mk o w)) (BitVec.eq_of_toNat_eq hop.symm)

/-- Settles O58: a fabric word is its opcode and its fields, and the rules of the word are those of the instruction. -/
theorem fabricWordsRoundTrip : Obligations.FabricWordsRoundTrip := by
  unfold Obligations.FabricWordsRoundTrip
  refine ⟨fun i w hwf hw => ?decodeEncode, fun i w hi => ?encodeDecode⟩
  case decodeEncode =>
    obtain ⟨f, hf, rfl⟩ := Option.map_eq_some_iff.mp hw
    obtain ⟨hok, hof⟩ := fabParts_spec hf
    rw [decodeFab_putF, if_pos (hok.symm.trans hwf), hof]
  case encodeDecode =>
    rw [← putF_getF w, decodeFab_putF] at hi
    obtain ⟨hok, hof⟩ := Option.ite_none_right_eq_some.mp hi
    have hparts := fabParts_of_fabOf hof
    exact ⟨(fabParts_spec hparts).1.trans hok, by rw [encodeFab, hparts, Option.map_some, putF_getF]⟩

end Sys2Proof
end

section
/-! PROOFS. Quotient and remainder, the immediate group, transfers of control (R47, R50, R113, R114, R218). -/

namespace Sys2Proof.Machine

open Sys2Proof

/-! ### Quotient and remainder (R113) -/

/-- A number of 64 bits in two's complement is its own word's number. -/
theorem toInt_ofInt64 {x : Int} (hlo : -2 ^ 63 ≤ x) (hhi : x < 2 ^ 63) : (BitVec.ofInt 64 x).toInt = x :=
  BitVec.toInt_ofInt_eq_self (by decide) (by simpa using hlo) (by simpa using hhi)

theorem toInt_bounds (a : Word) : -2 ^ 63 ≤ a.toInt ∧ a.toInt < 2 ^ 63 :=
  ⟨BitVec.le_toInt a, BitVec.toInt_lt⟩

theorem toNat_ne_zero_of_toInt {b : Word} (h : b.toInt ≠ 0) : b.toNat ≠ 0 := fun e =>
  h (by rw [show b = 0 from BitVec.eq_of_toNat_eq e]; rfl)

/-- The truncated quotient of two words fits a word, but for that of the least number by -1. -/
theorem tdiv_bounds (a b : Word) (h : ¬(a.toInt = -2 ^ 63 ∧ b.toInt = -1)) :
    -2 ^ 63 ≤ a.toInt.tdiv b.toInt ∧ a.toInt.tdiv b.toInt < 2 ^ 63 := by
  obtain ⟨hlo, hhi⟩ := toInt_bounds a
  have habs : (a.toInt.tdiv b.toInt).natAbs ≤ a.toInt.natAbs := by
    rw [Int.natAbs_tdiv]
    exact Nat.div_le_self _ _
  by_cases hmin : a.toInt = -2 ^ 63
  · have hb : b.toInt ≠ -1 := fun e => h ⟨hmin, e⟩
    by_cases hpos : 0 ≤ b.toInt
    · have hneg : (-a.toInt).tdiv b.toInt = -a.toInt.tdiv b.toInt := Int.neg_tdiv ..
      have := Int.tdiv_nonneg (show 0 ≤ -a.toInt by omega) hpos
      omega
    · have h2 : (a.toInt.tdiv b.toInt).natAbs = a.toInt.natAbs / b.toInt.natAbs := Int.natAbs_tdiv ..
      have h3 : a.toInt.natAbs / b.toInt.natAbs ≤ a.toInt.natAbs / 2 := Nat.div_le_div_left (by omega) (by decide)
      omega
  · omega

/-- The number that `div` writes, where the divisor is not 0 and the quotient fits. -/
theorem divS_toInt {a b : Word} (hb : b.toInt ≠ 0) (h : ¬(a.toInt = -2 ^ 63 ∧ b.toInt = -1)) :
    (divS a b).toInt = a.toInt.tdiv b.toInt := by
  rw [divS_eq, if_neg (toNat_ne_zero_of_toInt hb), if_neg h]
  exact toInt_ofInt64 (tdiv_bounds a b h).1 (tdiv_bounds a b h).2

/-- The number that `rem` writes, where the divisor is not 0 and the quotient fits. -/
theorem remS_toInt {a b : Word} (hb : b.toInt ≠ 0) (h : ¬(a.toInt = -2 ^ 63 ∧ b.toInt = -1)) :
    (remS a b).toInt = a.toInt.tmod b.toInt := by
  obtain ⟨hlo, hhi⟩ := toInt_bounds b
  have habs : (a.toInt.tmod b.toInt).natAbs < b.toInt.natAbs := by
    rw [Int.natAbs_tmod]
    exact Nat.mod_lt _ (Int.natAbs_pos.mpr hb)
  rw [remS_eq, if_neg (toNat_ne_zero_of_toInt hb), if_neg h, ← Int.tmod_def]
  exact toInt_ofInt64 (by omega) (by omega)

/-- A remainder other than 0 takes the sign of its dividend. -/
theorem tmod_neg_iff {a b : Int} : a.tmod b = 0 ∨ (a.tmod b < 0 ↔ a < 0) := by
  rcases lt_or_ge a 0 with ha | ha
  · have : (-a).tmod b = -(a.tmod b) := Int.neg_tmod a b
    have := Int.tmod_nonneg b (show 0 ≤ -a by omega)
    omega
  · have := Int.tmod_nonneg b ha
    omega

/-- Settles O2: the numbers that the two words write are quotient and remainder of truncated division. -/
theorem divisionIdentity : Obligations.DivisionIdentity := by
  unfold Obligations.DivisionIdentity
  intro s ra rb hb hfits
  obtain ⟨t, ht, hq, -⟩ := writesScalar_of (exec_div 8 ra rb s) rfl
  obtain ⟨u, hu, hr, -⟩ := writesScalar_of (exec_rem 9 ra rb s) rfl
  rw [if_neg (by decide)] at hq hr
  refine ⟨t, u, ht, hu, ?_⟩
  rw [hq, hr, divS_toInt hb hfits, remS_toInt hb hfits]
  exact ⟨(Int.mul_tdiv_add_tmod _ _).symm, tmod_neg_iff⟩

/-! ### The immediate group (R114) -/

theorem sx_toInt (imm : BitVec 32) : (sx imm).toInt = imm.toInt :=
  BitVec.toInt_signExtend_of_le (by decide)

theorem add_sx (a : Word) (imm : BitVec 32) : a + sx imm = BitVec.ofInt 64 (a.toInt + imm.toInt) := by
  rw [BitVec.ofInt_add, BitVec.ofInt_toInt, sx_eq_ofInt]

theorem append_setWidth_eq_ofNat (imm : BitVec 32) (a : Word) :
    imm ++ a.setWidth 32 = BitVec.ofNat 64 (imm.toNat * 2 ^ 32 + a.toNat % 2 ^ 32) := by
  apply BitVec.eq_of_toNat_eq
  have h1 := imm.isLt
  have h2 := (a.setWidth 32).isLt
  rw [BitVec.toNat_append, ← Nat.shiftLeft_add_eq_or_of_lt h2, Nat.shiftLeft_eq, BitVec.toNat_setWidth, BitVec.toNat_ofNat]
  omega

section
variable (rd ra : Reg) (imm : BitVec 32) (n : BitVec 6) (s : State)

theorem exec_addi : exec (.addi rd ra imm) s = s.putS rd (s.rdS ra + sx imm) := rfl
theorem exec_andi : exec (.andi rd ra imm) s = s.putS rd (s.rdS ra &&& sx imm) := rfl
theorem exec_ori : exec (.ori rd ra imm) s = s.putS rd (s.rdS ra ||| sx imm) := rfl
theorem exec_xori : exec (.xori rd ra imm) s = s.putS rd (s.rdS ra ^^^ sx imm) := rfl
theorem exec_shli : exec (.shli rd ra n) s = s.putS rd (s.rdS ra <<< n.toNat) := rfl
theorem exec_shri : exec (.shri rd ra n) s = s.putS rd (s.rdS ra >>> n.toNat) := rfl
theorem exec_srai : exec (.srai rd ra n) s = s.putS rd ((s.rdS ra).sshiftRight n.toNat) := rfl
theorem exec_slti : exec (.slti rd ra imm) s = s.putS rd (if (s.rdS ra).slt (sx imm) then 1 else 0) := rfl
theorem exec_li : exec (.li rd imm) s = s.putS rd (sx imm) := rfl
theorem exec_lhi : exec (.lhi rd ra imm) s = s.putS rd (imm ++ (s.rdS ra).setWidth 32) := rfl

end

/-- Settles O3: each word by its equation, with the immediate's sign extension as its signed number. -/
theorem immediateGroupResults : Obligations.ImmediateGroupResults := by
  unfold Obligations.ImmediateGroupResults
  intro rd ra imm n s a
  exact ⟨writesScalar_of (exec_addi rd ra imm s) (add_sx a imm),
    writesScalar_of (exec_andi rd ra imm s) rfl,
    writesScalar_of (exec_ori rd ra imm s) rfl,
    writesScalar_of (exec_xori rd ra imm s) rfl,
    writesScalar_of (exec_shli rd ra n s) (shiftLeft_eq_ofNat a _),
    writesScalar_of (exec_shri rd ra n s) (ushiftRight_eq_ofNat a _),
    writesScalar_of (exec_srai rd ra n s) (sshiftRight_eq_ofInt a _),
    writesScalar_of (exec_slti rd ra imm s) (by rw [ite_slt, sx_toInt]),
    writesScalar_of (exec_li rd imm s) rfl,
    writesScalar_of (exec_lhi rd ra imm s) (append_setWidth_eq_ofNat imm a)⟩

/-! ### Transfers of control (R50, R218) -/

/-- The target of a taken branch counts words from its own address (R50). -/
theorem branchTo_eq (s : State) (off : BitVec 32) : s.branchTo off = BitVec.ofInt 64 (s.pc.toInt + 8 * off.toInt) := by
  rw [State.branchTo, BitVec.ofInt_add, BitVec.ofInt_toInt, Int.mul_comm, BitVec.ofInt_mul, sx_eq_ofInt]
  rfl

/-- A word that writes a scalar register and goes to an address. -/
theorem scalarJump_spec (s : State) (rd : Reg) (v a : Word) : ((s.wrS rd v).setPc a).rdS rd = (if rd = 0 then 0 else v) ∧
    ((s.wrS rd v).setPc a).pc = a ∧ ScalarFrame rd s ((s.wrS rd v).setPc a) := by
  rw [wrS_setPc]
  exact ⟨rdS_scalarAt s rd v a, pc_scalarAt s rd v a, scalarFrame_modTh s rd v a⟩

section
variable (rd ra rb : Reg) (off : BitVec 32) (s : State)

theorem exec_j : exec (.j off) s = .next (s.setPc (s.branchTo off)) := rfl
theorem exec_jal : exec (.jal off) s = .next ((s.wrS 31 (s.pc + 8)).setPc (s.branchTo off)) := rfl

theorem exec_bcc (c : Cond) : exec (.bcc c ra rb off) s =
    if c.holds (s.rdS ra) (s.rdS rb) then .next (s.setPc (s.branchTo off)) else .next s.advance := rfl

variable {ra s}

theorem exec_jr_aligned (h : (s.rdS ra).toNat % 8 = 0) : exec (.jr ra) s = .next (s.setPc (s.rdS ra)) := by
  show s.finish (if _ then _ else _) = _
  rw [if_pos h, finish_ok]

theorem exec_jr_misaligned (h : (s.rdS ra).toNat % 8 ≠ 0) : exec (.jr ra) s = .next (s.takeTrap .misaligned (s.rdS ra)) := by
  show s.finish (if _ then _ else _) = _
  rw [if_neg h, finish_trap]

theorem exec_jalr_aligned (h : (s.rdS ra).toNat % 8 = 0) :
    exec (.jalr rd ra) s = .next ((s.wrS rd (s.pc + 8)).setPc (s.rdS ra)) := by
  show s.finish (if _ then _ else _) = _
  rw [if_pos h, finish_ok]

theorem exec_jalr_misaligned (h : (s.rdS ra).toNat % 8 ≠ 0) : exec (.jalr rd ra) s = .next (s.takeTrap .misaligned (s.rdS ra)) := by
  show s.finish (if _ then _ else _) = _
  rw [if_neg h, finish_trap]

/-- `loop` counts down and goes on to the next word at 0 (R218). -/
theorem exec_loop : exec (.loop ra off) s = .next ((s.wrS ra (s.rdS ra - 1)).setPc
    (if s.rdS ra = 1 then s.pc + 8 else s.branchTo off)) := by
  show (if s.rdS ra - 1 ≠ 0 then _ else _) = _
  by_cases h : s.rdS ra = 1
  · rw [if_pos h, if_neg (by rw [h]; decide), wrS_advance, wrS_setPc]
  · rw [if_neg h, if_pos (fun e => h (by rw [BitVec.sub_eq_iff_eq_add] at e; simpa using e))]
    rfl

end

/-- Settles O5: each transfer by its equation and the common target of a branch. -/
theorem transfersSetThePc : Obligations.TransfersSetThePc := by
  unfold Obligations.TransfersSetThePc
  intro c rd ra rb off s there
  have hthere : s.branchTo off = there := branchTo_eq s off
  have hcond := condHolds_iff c (s.rdS ra) (s.rdS rb)
  refine ⟨onlyJumps_of (exec_j off s) hthere, ⟨_, exec_jal off s, ?jal⟩, fun h => onlyJumps_of (exec_jr_aligned h) rfl,
    fun h => ⟨_, exec_jalr_aligned rd h, scalarJump_spec s rd _ _⟩,
    fun h => ⟨exec_jr_misaligned h, exec_jalr_misaligned rd h⟩,
    fun h => onlyJumps_of ((exec_bcc ra rb off s c).trans (if_pos (hcond.mpr h))) hthere,
    fun h => onlyAdvances_of ((exec_bcc ra rb off s c).trans (if_neg (mt hcond.mp h))), ⟨_, exec_loop off, ?loop⟩⟩
  case jal => exact hthere ▸ scalarJump_spec s 31 (s.pc + 8) (s.branchTo off)
  case loop => exact hthere ▸ scalarJump_spec s ra (s.rdS ra - 1) _

/-! ### Reset and words from the tables -/

/-- Settles O55: after power-on reset no table lists an entry, so that each one reads as its default. -/
theorem resetState : Obligations.ResetState := by
  unfold Obligations.ResetState
  intro s
  exact ⟨rfl, fun _ => ⟨rfl, rfl⟩, rfl, fun _ => ⟨rfl, rfl, rfl, rfl⟩, fun _ => ⟨rfl, rfl⟩, fun _ => ⟨rfl, rfl, rfl, rfl, rfl, rfl⟩,
    fun _ => ⟨rfl, rfl, rfl, rfl, rfl, rfl, rfl, fun _ => rfl, fun _ => rfl⟩, rfl, rfl, rfl, rfl, rfl, rfl, rfl, rfl⟩

/-- Settles O59: each word evaluated by the decoder. -/
theorem wordsDecode : Obligations.WordsDecode := by
  unfold Obligations.WordsDecode
  exact ⟨rfl, rfl, rfl, rfl, rfl, rfl, rfl, rfl, rfl, rfl, rfl, rfl, rfl, rfl, rfl, rfl, rfl⟩

end Sys2Proof.Machine
end

section
/-! PROOFS. Loads, stores and atomics of control threads (R56, R288, R290, R410). -/

namespace Sys2Proof.Machine

open Sys2Proof

/-! ### What a store leaves in memory -/

theorem holdsAt_store (s : State) (a n v : Nat) : HoldsAt (s.store a (bytesOf n v)) a n v := by
  intro i hi
  rw [rdByte_store, if_pos (by rw [bytesOf_length]; omega), Nat.add_sub_cancel_left, bytesOf_getD n v i hi]

theorem keepsOutside_store (s : State) (a : Nat) (l : List Byte) : KeepsOutside s (s.store a l) a l.length := by
  intro b hb
  rw [rdByte_store, if_neg (by omega)]

theorem keepsMemory_reached (s : State) (t : Tgt) : KeepsMemory s (s.reached t) := rdByte_congr (reached_mem s t)

/-! ### How an access ends -/

/-- A word that goes on after it has found its place, with memory changed, has written one register of its thread. -/
theorem accessed_of (s : State) (t : Tgt) (m : Tab Byte) (p : Tab Bool) (rd : Reg) (v : Word) :
    Accessed s ((({ s.reached t with mem := m, poison := p } : State).wrS rd v).advance) rd v := by
  have hpc : ({ s.reached t with mem := m, poison := p } : State).pc = s.pc := congrArg Thread.pc (reached_th s t)
  rw [wrS_advance, hpc]
  obtain ⟨hrd, hpc, hth⟩ := threadScalar_of s t m p rd v
  exact ⟨hrd, hpc, hth, accessFrame_of s t m p _⟩

theorem accessed_reached (s : State) (t : Tgt) (rd : Reg) (v : Word) : Accessed s (((s.reached t).wrS rd v).advance) rd v :=
  accessed_of s t (s.reached t).mem (s.reached t).poison rd v

theorem accessed_store (s : State) (t : Tgt) (a : Nat) (l : List Byte) (rd : Reg) (v : Word) :
    Accessed s ((((s.reached t).store a l).wrS rd v).advance) rd v := by
  rw [store_eq]
  exact accessed_of s t _ _ rd v

/-- A word that only goes on after it has found its place, with memory changed. -/
theorem advanced_of (s : State) (t : Tgt) (m : Tab Byte) (p : Tab Bool) :
    let u := ({ s.reached t with mem := m, poison := p } : State).advance
    u.pc = s.pc + 8 ∧ ThreadPc s u ∧ AccessFrame s u := by
  have hth : ({ s.reached t with mem := m, poison := p } : State).th = s.th := reached_th s t
  refine ⟨?_, ?_, accessFrame_of s t m p _⟩
  · show Thread.pc (State.th _) = _
    rw [th_advance, hth]; rfl
  · show ({ State.th _ with pc := _, wait := _, word := _ } : Thread) = _
    rw [th_advance, hth]

/-! ### Plain loads (R288) -/

section
variable (sz : Size) (rd ra : Reg) (imm : BitVec 32) (s : State)

theorem exec_ld : exec (.ld sz rd ra imm) s = s.finish (s.load (s.rdS ra + imm.signExtend 64) (szBytes sz)
    fun u v => (u.wrS rd (BitVec.ofInt 64 (signedOf (8 * szBytes sz) v))).advance) := rfl

theorem exec_ldn : exec (.ldn sz rd ra imm) s = s.finish (s.load (s.rdS ra + imm.signExtend 64) (szBytes sz)
    fun u v => (u.wrS rd (BitVec.ofNat 64 v)).advance) := rfl

theorem exec_st : exec (.st sz rd ra imm) s = s.finish (s.storeTo (s.rdS ra + imm.signExtend 64)
    (bytesOf (szBytes sz) (s.rdS rd).toNat)) := rfl

end

/-- A load that reaches a place free of poison gives the number that its bytes hold. -/
theorem load_reaches {s : State} {ea : Word} {n : Nat} {t : Tgt} (h : Reaches s ea n .read t) (hp : s.tgtPoison t n = false)
    (k : State → Nat → State) : s.load ea n k = .ok (k (s.reached t) (natOf (s.rdTgt t n))) := by
  rw [State.load, place_reaches h _ rfl, reached_tgtPoison, hp, reached_rdTgt]
  rfl

theorem load_poison {s : State} {ea : Word} {n : Nat} {t : Tgt} (h : Reaches s ea n .read t) (hp : s.tgtPoison t n = true)
    (k : State → Nat → State) : s.load ea n k = .trap .poison ea := by
  rw [State.load, place_reaches h _ rfl, reached_tgtPoison, hp]
  rfl

theorem load_misaligned {s : State} {ea : Word} {n : Nat} (h : ea.toNat % n ≠ 0) (k : State → Nat → State) :
    s.load ea n k = .trap .misaligned ea := place_misaligned h ..

theorem load_fault {s : State} {ea : Word} {n : Nat} (h : ea.toNat % n = 0) (hx : s.xlate s.ctxId s.cur ea .read = .fault)
    (k : State → Nat → State) : s.load ea n k = .trap .xlateFault ea := place_fault h hx ..

theorem load_perm {s : State} {ea : Word} {n : Nat} (h : ea.toNat % n = 0) (hx : s.xlate s.ctxId s.cur ea .read = .perm)
    (k : State → Nat → State) : s.load ea n k = .trap .permission ea := place_perm h hx ..

/-- Settles O6: a load that reaches its place writes what stands there and changes its thread alone. -/
theorem plainLoadsReadThePlace : Obligations.PlainLoadsReadThePlace := by
  unfold Obligations.PlainLoadsReadThePlace
  intro sz rd ra imm s t n v hr hp
  have hld := (exec_ld sz rd ra imm s).trans (by rw [load_reaches hr hp, finish_ok, signedOf, Nat.cast_pow, Nat.cast_ofNat])
  have hldn := (exec_ldn sz rd ra imm s).trans (by rw [load_reaches hr hp, finish_ok])
  exact ⟨⟨_, hld, keepsMemory_reached s t, accessed_reached s t rd _⟩, ⟨_, hldn, keepsMemory_reached s t, accessed_reached s t rd _⟩⟩

/-! ### Plain stores (R282, R288) -/

/-- A plain store of a number's bytes that reaches its place is performed, or held on a read-duplicated page. -/
theorem storeTo_reaches {s : State} {ea : Word} {n : Nat} {t : Tgt} (h : Reaches s ea n .write t) (hb : s.storeBarred t n = false) (v : Nat) :
    s.storeTo ea (bytesOf n v) = .ok (((s.reached t).wrTgt (s.reached t).ctxId (s.reached t).cur t (bytesOf n v)).advance) := by
  simp only [State.storeTo, bytesOf_length]
  rw [place_reaches h _ hb]

theorem storeTo_barred {s : State} {ea : Word} {n : Nat} {t : Tgt} (h : ea.toNat % n = 0) (hx : s.xlate s.ctxId s.cur ea .write = .ok t)
    (hb : s.storeBarred t n = true) (v : Nat) : s.storeTo ea (bytesOf n v) = .trap .permission ea := by
  simp only [State.storeTo, bytesOf_length]
  rw [place_barred h hx _ hb]

theorem storeTo_misaligned {s : State} {ea : Word} {n : Nat} (h : ea.toNat % n ≠ 0) (v : Nat) :
    s.storeTo ea (bytesOf n v) = .trap .misaligned ea := by
  simp only [State.storeTo, bytesOf_length]
  rw [place_misaligned h]

theorem storeTo_fault {s : State} {ea : Word} {n : Nat} (h : ea.toNat % n = 0) (hx : s.xlate s.ctxId s.cur ea .write = .fault) (v : Nat) :
    s.storeTo ea (bytesOf n v) = .trap .xlateFault ea := by
  simp only [State.storeTo, bytesOf_length]
  rw [place_fault h hx]

theorem storeTo_perm {s : State} {ea : Word} {n : Nat} (h : ea.toNat % n = 0) (hx : s.xlate s.ctxId s.cur ea .write = .perm) (v : Nat) :
    s.storeTo ea (bytesOf n v) = .trap .permission ea := by
  simp only [State.storeTo, bytesOf_length]
  rw [place_perm h hx]

/-- Settles O7: a store that reaches its place is one store of its bytes there, or one entry more in the list of stores held. -/
theorem plainStoresWriteThePlace : Obligations.PlainStoresWriteThePlace := by
  unfold Obligations.PlainStoresWriteThePlace
  intro sz rv ra imm s t n hr hb
  have hexec := (exec_st sz rv ra imm s).trans (by rw [storeTo_reaches hr hb, finish_ok])
  refine ⟨fun hd => ⟨_, hexec, ?now⟩, fun hd => ⟨_, hexec, ?held⟩⟩
  case now =>
    rw [State.wrTgt, if_neg (by simp [hd])]
    have hholds := holdsAt_store (s.reached t) t.phys n (s.rdS rv).toNat
    have hout := keepsOutside_store (s.reached t) t.phys (bytesOf n (s.rdS rv).toNat)
    rw [bytesOf_length] at hout
    rw [store_eq] at hholds hout ⊢
    obtain ⟨hpc, hth, hframe⟩ := advanced_of s t ((s.reached t).store t.phys (bytesOf n (s.rdS rv).toNat)).mem
      ((s.reached t).store t.phys (bytesOf n (s.rdS rv).toNat)).poison
    exact ⟨hpc, hholds, fun b hb => (hout b hb).trans (keepsMemory_reached s t b), hth, hframe⟩
  case held =>
    rw [State.wrTgt, if_pos hd]
    obtain ⟨hpc, hth, hframe⟩ := advanced_of s t (s.reached t).mem (s.reached t).poison
    refine ⟨hpc, keepsMemory_reached s t, hth, ⟨_, congrArg (· ++ _) (reached_dups s t), reached_cur s t, rfl, natOf_bytesOf n _⟩, ?_⟩
    show AccessFrame s { (s.reached t).advance with dups := s.dups }
    rw [← reached_dups s t]
    exact hframe

/-! ### Atomics (R56, R290) -/

theorem signedOf_eq_toInt {w v : Nat} (hw : 0 < w) (hv : v < 2 ^ w) : signedOf w v = (BitVec.ofNat w v).toInt := by
  obtain ⟨k, rfl⟩ := Nat.exists_eq_add_of_lt hw
  rw [Nat.zero_add, BitVec.toInt_eq_toNat_cond, BitVec.toNat_ofNat, Nat.mod_eq_of_lt (by simpa using hv), signedOf, Nat.add_sub_cancel]
  have : 2 ^ (k + 1) = 2 * 2 ^ k := by rw [Nat.pow_succ, Nat.mul_comm]
  split <;> split <;> omega

/-- What the model writes is what the operation's code says (R56). -/
theorem atomicGives_val (op : AmoOp) {n old x : Nat} (hn : 0 < n) (ho : old < 2 ^ (8 * n)) (hx : x < 2 ^ (8 * n)) :
    AtomicGives op n old x (op.val (8 * n) old x) := by
  have hw : 0 < 8 * n := by omega
  cases op with
  | min => simp only [AtomicGives, AmoOp.val, signedOf_eq_toInt hw ho, signedOf_eq_toInt hw hx]
  | max => simp only [AtomicGives, AmoOp.val, signedOf_eq_toInt hw ho, signedOf_eq_toInt hw hx]
  | _ => rfl

section
variable (dbl : Bool) (rd ra rb rc : Reg) (s : State)

theorem exec_amo (op : AmoOp) : exec (.amo op dbl rd ra rb) s = s.finish (s.atomic (s.rdS ra) (if dbl then 8 else 4) rd
    fun old => some (op.val (8 * if dbl then 8 else 4) old ((s.rdS rb).toNat % 2 ^ (8 * if dbl then 8 else 4)))) := rfl

theorem exec_amoCas : exec (.amoCas dbl rd ra rb rc) s = s.finish (s.atomic (s.rdS ra) (if dbl then 8 else 4) rd fun old =>
    if old = (s.rdS rc).toNat % 2 ^ (8 * if dbl then 8 else 4) then some ((s.rdS rb).toNat % 2 ^ (8 * if dbl then 8 else 4)) else none) := rfl

end

section
variable {s : State} {ea : Word} {n : Nat} {t : Tgt} (rd : Reg) {g : Nat → Option Nat}

/-- An atomic that reaches its place and writes there. -/
theorem atomic_writes (h : Reaches s ea n .both t) (hb : s.storeBarred t n = false) (hp : s.tgtPoison t n = false) {v : Nat}
    (hg : g (natOf (s.rdTgt t n)) = some v) : s.atomic ea n rd g =
      .ok ((((s.reached t).store t.phys (bytesOf n v)).wrS rd (BitVec.ofNat 64 (natOf (s.rdTgt t n)))).advance) := by
  rw [State.atomic, place_reaches h _ hb, reached_tgtPoison, hp, reached_rdTgt]
  simp only [Bool.false_eq_true, if_false, hg]

/-- An atomic that reaches its place and writes nothing. -/
theorem atomic_keeps (h : Reaches s ea n .both t) (hb : s.storeBarred t n = false) (hp : s.tgtPoison t n = false)
    (hg : g (natOf (s.rdTgt t n)) = none) : s.atomic ea n rd g =
      .ok (((s.reached t).wrS rd (BitVec.ofNat 64 (natOf (s.rdTgt t n)))).advance) := by
  rw [State.atomic, place_reaches h _ hb, reached_tgtPoison, hp, reached_rdTgt]
  simp only [Bool.false_eq_true, if_false, hg]

theorem atomic_poison (h : Reaches s ea n .both t) (hb : s.storeBarred t n = false) (hp : s.tgtPoison t n = true) :
    s.atomic ea n rd g = .trap .poison ea := by
  rw [State.atomic, place_reaches h _ hb, reached_tgtPoison, hp]
  rfl

theorem atomic_barred (h : ea.toNat % n = 0) (hx : s.xlate s.ctxId s.cur ea .both = .ok t) (hb : s.storeBarred t n = true) :
    s.atomic ea n rd g = .trap .permission ea := place_barred h hx _ hb ..

theorem atomic_misaligned (h : ea.toNat % n ≠ 0) : s.atomic ea n rd g = .trap .misaligned ea := place_misaligned h ..

theorem atomic_fault (h : ea.toNat % n = 0) (hx : s.xlate s.ctxId s.cur ea .both = .fault) :
    s.atomic ea n rd g = .trap .xlateFault ea := place_fault h hx ..

theorem atomic_perm (h : ea.toNat % n = 0) (hx : s.xlate s.ctxId s.cur ea .both = .perm) :
    s.atomic ea n rd g = .trap .permission ea := place_perm h hx ..

end

/-- What an atomic leaves where it writes: its number at the place, nothing else of memory changed, and the old value in its register. -/
theorem atomicWrite_spec (s : State) (t : Tgt) (n v : Nat) (rd : Reg) (x : Word) :
    let u := (((s.reached t).store t.phys (bytesOf n v)).wrS rd x).advance
    HoldsAt u t.phys n v ∧ KeepsOutside s u t.phys n ∧ Accessed s u rd x := by
  have hout := keepsOutside_store (s.reached t) t.phys (bytesOf n v)
  rw [bytesOf_length] at hout
  exact ⟨holdsAt_store (s.reached t) t.phys n v, fun b hb => (hout b hb).trans (keepsMemory_reached s t b),
    accessed_store s t t.phys (bytesOf n v) rd x⟩

theorem natOf_rdTgt_lt (s : State) (t : Tgt) (n : Nat) : natOf (s.rdTgt t n) < 2 ^ (8 * n) := by
  have h := natOf_lt (s.rdTgt t n)
  rwa [State.rdTgt, List.length_map, List.length_range] at h

/-- Settles O8: an atomic is one store of its operation's value, and a compare-and-swap one store or none. -/
theorem atomicsUpdateThePlace : Obligations.AtomicsUpdateThePlace := by
  unfold Obligations.AtomicsUpdateThePlace
  intro op dbl rd ra rb rc s t n old x hr hb hp
  have hn : 0 < n := by cases dbl <;> decide
  refine ⟨?amo, fun he => ?swapped, fun hne => ?kept⟩
  case amo =>
    have hexec := (exec_amo dbl rd ra rb s op).trans (congrArg s.finish (atomic_writes rd hr hb hp rfl))
    exact ⟨_, _, hexec, atomicGives_val op hn (natOf_rdTgt_lt s t n) (Nat.mod_lt _ (by positivity)), atomicWrite_spec s t n _ rd _⟩
  case swapped =>
    have hexec := (exec_amoCas dbl rd ra rb rc s).trans (congrArg s.finish (atomic_writes rd hr hb hp (if_pos he)))
    exact ⟨_, hexec, atomicWrite_spec s t n _ rd _⟩
  case kept =>
    have hexec := (exec_amoCas dbl rd ra rb rc s).trans (congrArg s.finish (atomic_keeps rd hr hb hp (if_neg hne)))
    exact ⟨_, hexec, keepsMemory_reached s t, accessed_reached s t rd _⟩

/-! ### The traps of accesses (R361, R410) -/

/-- A word that ends in a trap takes it. -/
theorem traps_of {s : State} {i : Instr} {r : Res State} {c : Cause} {v : Word} (h : exec i s = s.finish r) (hr : r = .trap c v) :
    Traps s i c v := by
  rw [Traps, h, hr, finish_trap]

/-- Settles O9: the checks of an access in their order. -/
theorem accessTraps : Obligations.AccessTraps := by
  unfold Obligations.AccessTraps
  intro sz op dbl rd rv ra rb rc imm s ea n a m both
  have hboth : ∀ c, (∀ g, s.atomic a m rd g = .trap c a) → both c := fun c h =>
    ⟨traps_of (exec_amo dbl rd ra rb s op) (h _), traps_of (exec_amoCas dbl rd ra rb rc s) (h _)⟩
  have hloads : ∀ c, (∀ k, s.load ea n k = .trap c ea) → Traps s (.ld sz rd ra imm) c ea ∧ Traps s (.ldn sz rd ra imm) c ea := fun c h =>
    ⟨traps_of (exec_ld sz rd ra imm s) (h _), traps_of (exec_ldn sz rd ra imm s) (h _)⟩
  have hst : ∀ c, s.storeTo ea (bytesOf n (s.rdS rv).toNat) = .trap c ea → Traps s (.st sz rv ra imm) c ea := fun c h =>
    traps_of (exec_st sz rv ra imm s) h
  refine ⟨fun h => ?misaligned, fun h hx => hloads _ (load_fault h hx), fun h hx => hloads _ (load_perm h hx),
    fun h hx => hst _ (storeTo_fault h hx _), fun h hx => hst _ (storeTo_perm h hx _), fun t h hx hb => hst _ (storeTo_barred h hx hb _),
    fun t hr hp => hloads _ (load_poison hr hp), fun h => hboth _ fun g => atomic_misaligned rd h,
    fun h hx => hboth _ fun g => atomic_fault rd h hx, fun h hx => hboth _ fun g => atomic_perm rd h hx,
    fun t h hx hb => hboth _ fun g => atomic_barred rd h hx hb, fun t hr hb hp => hboth _ fun g => atomic_poison rd hr hb hp, fun t n => rfl⟩
  case misaligned =>
    obtain ⟨hld, hldn⟩ := hloads _ (load_misaligned h)
    exact ⟨hld, hldn, hst _ (storeTo_misaligned h _)⟩

end Sys2Proof.Machine
end

section
/-! PROOFS. Fences and hints, system registers, traps, halt (R221, R222, R294 to R296, R397 to R399, R411, R417, R418). -/

namespace Sys2Proof.Machine

open Sys2Proof

/-! ### Fences, hints and nop -/

theorem writesDone_iff (s : State) (sid : Nat) : s.writesDone sid = true ↔ ∀ d ∈ s.dups, d.sid ≠ sid := by
  simp [State.writesDone]

theorem writesDone_eq_false_iff (s : State) (sid : Nat) : s.writesDone sid = false ↔ ∃ d ∈ s.dups, d.sid = sid := by
  simp [State.writesDone]

theorem exec_fence (sc : Scope) (s : State) : exec (.fence sc) s = .next (if s.writesDone s.cur then s.advance else s) := rfl
theorem exec_fenceLayer (s : State) : exec .fenceLayer s = .next (if s.writesDone s.cur then s.advance else s) := rfl

/-- The four fields of format C.Y below the guard are the low 52 bits of the word. -/
theorem getY_low_eq_zero {w : Word} (h : (getY w).fn = 0 ∧ (getY w).sd = 0 ∧ (getY w).sa = 0 ∧ (getY w).imm = 0) : w.toNat % 2 ^ 52 = 0 := by
  obtain ⟨hfn, hsd, hsa, himm⟩ := h
  have e1 := congrArg BitVec.toNat hfn
  have e2 := congrArg BitVec.toNat hsd
  have e3 := congrArg BitVec.toNat hsa
  have e4 := congrArg BitVec.toNat himm
  simp only [getY, fld_toNat, BitVec.ofNat_eq_ofNat, BitVec.toNat_ofNat] at e1 e2 e3 e4
  omega

/-- A word of nop's opcode with a bit set below its guard is no instruction (R222). -/
theorem decodeCtl_nop_reserved {w : Word} (hop : w.toNat / 2 ^ 56 = 0x88) (hlow : w.toNat % 2 ^ 52 ≠ 0) : decodeCtl w = none := by
  have hfld : fld w 56 8 = 0x88 := BitVec.eq_of_toNat_eq (by rw [fld_toNat, hop]; rfl)
  have hbare : decBare (getY w) .nop = none := by
    unfold decBare need
    rw [if_neg fun h => hlow (getY_low_eq_zero (by simpa [and_assoc] using h))]
  have hnone : decOp w = none := by
    unfold decOp
    rw [hfld]
    exact hbare
  unfold decodeCtl
  simp only [hnone, Option.map_none, ite_self]

/-- Settles O11: the words that only go on, and the two fences by whether a store of the thread still waits. -/
theorem fencesHintsAndNop : Obligations.FencesHintsAndNop := by
  unfold Obligations.FencesHintsAndNop
  intro sc ra imm s
  refine ⟨onlyAdvances_of rfl, rfl, fun w => decodeCtl_nop_reserved, onlyAdvances_of rfl, fun h => ?done, fun h => ?waits⟩
  case done =>
    have hd := (writesDone_iff s s.cur).mpr h
    exact ⟨onlyAdvances_of (by rw [exec_fence, if_pos hd]), onlyAdvances_of (by rw [exec_fenceLayer, if_pos hd])⟩
  case waits =>
    have hd := (writesDone_eq_false_iff s s.cur).mpr h
    exact ⟨by rw [Waits, exec_fence, hd]; rfl, by rw [Waits, exec_fenceLayer, hd]; rfl⟩

/-! ### System registers (R397, R398) -/

theorem toNat_setWidth64 {n : Nat} (hn : n ≤ 64) (v : BitVec n) : (v.setWidth 64).toNat = v.toNat := by
  rw [BitVec.toNat_setWidth, Nat.mod_eq_of_lt (Nat.lt_of_lt_of_le v.isLt (Nat.pow_le_pow_right (by decide) hn))]

/-- The number of a word made from a number that fits. -/
theorem toNat_ofNat64 {n : Nat} (h : n < 2 ^ 64) : (BitVec.ofNat 64 n).toNat = n := by
  rw [BitVec.toNat_ofNat, Nat.mod_eq_of_lt h]

theorem sysRead_sectid (s : State) : (s.sysRead .sectid).toNat = s.cur % 256 :=
  toNat_ofNat64 (by omega)

theorem sysRead_ctxid (s : State) : (s.sysRead .ctxid).toNat = s.regs.domcfg.toNat % 64 * 256 + (s.sec s.cur).ctx.toNat := by
  have := (s.sec s.cur).ctx.isLt
  show (BitVec.ofNat 64 (s.regs.domcfg.toNat / 2 ^ 0 % 2 ^ 6 * 256 + (s.sec s.cur).ctx.toNat)).toNat = _
  rw [toNat_ofNat64 (by omega)]
  omega

theorem sysRead_trapcause (s : State) : (s.sysRead .trapcause).toNat = s.th.cause.toNat + (if s.th.ts then 256 else 0) := by
  have := s.th.cause.isLt
  show (BitVec.ofNat 64 ((if s.th.ts then 256 else 0) + s.th.cause.toNat)).toNat = _
  rw [toNat_ofNat64 (by split <;> omega), Nat.add_comm]

theorem sysRead_preemptcfg (s : State) : (s.sysRead .preemptcfg).toNat =
    (s.ctx (s.sec s.cur).ctx).grace.toNat * 256 + (if (s.ctx (s.sec s.cur).ctx).noticeOn then 1 else 0) := by
  have := (s.ctx (s.sec s.cur).ctx).grace.isLt
  exact toNat_ofNat64 (by unfold Ctx.preemptCfg; split <;> omega)

theorem sysRead_ltag {s : State} {k : Task} {l : Launch} (hk : s.task? (s.sec s.cur).task = some k) (hl : s.launch? k.launch = some l) :
    (s.sysRead .ltag).toNat = l.tag.toNat := by
  have := l.tag.isLt
  show (BitVec.ofNat 64 s.ltag).toNat = _
  rw [State.ltag, hk]
  simp only [hl, Option.map_some, Option.getD_some]
  exact toNat_ofNat64 (by omega)

/-- The bits of OPSTATE (R253). -/
theorem opState_toNat (s : State) (sid : Nat) : (s.opState sid).toNat =
    railOf sid % 16 * 2 ^ 12 + (s.rail (railOf sid)).res.toNat * 2 ^ 8 + (decide ((s.rail (railOf sid)).mv ≠ .steady)).toNat * 2 ^ 7 +
      (s.rail (railOf sid)).pend.isSome.toNat * 2 ^ 6 + (((s.rail (railOf sid)).pend.map Prod.fst).getD 0) % 4 * 16 +
      (if (s.rail (railOf sid)).mv = .steady then (s.rail (railOf sid)).cur else (s.rail (railOf sid)).tgt) % 4 * 4 +
      (s.rail (railOf sid)).cur % 4 := by
  have hres := (s.rail (railOf sid)).res.isLt
  have hbit : ∀ (x : Bool) (n : Nat), (if x then n else 0) = x.toNat * n := fun x n => by cases x <;> simp
  have hmv : ((s.rail (railOf sid)).mv != .steady) = decide ((s.rail (railOf sid)).mv ≠ .steady) := by
    rw [bne, beq_eq_decide, ← decide_not]
  have hite : (if decide ((s.rail (railOf sid)).mv ≠ .steady) = true then (s.rail (railOf sid)).tgt else (s.rail (railOf sid)).cur) =
      if (s.rail (railOf sid)).mv = .steady then (s.rail (railOf sid)).cur else (s.rail (railOf sid)).tgt := by
    simp only [decide_eq_true_eq, ite_not]
  have h6 := Bool.toNat_lt (s.rail (railOf sid)).pend.isSome
  have h7 := Bool.toNat_lt (decide ((s.rail (railOf sid)).mv ≠ .steady))
  simp only [State.opState, hbit, hmv, hite]
  rw [toNat_ofNat64 (by omega)]

theorem getLsbD_eq_of_div {v : Word} {k : Nat} {b : Bool} (h : v.toNat / 2 ^ k % 2 = b.toNat) : v.getLsbD k = b := by
  rw [BitVec.getLsbD, Nat.testBit_eq_decide_div_mod_eq, h]
  cases b <;> rfl

theorem sysRead_opstate (s : State) : let r := s.rail (railOf s.cur)
    let o := s.sysRead .opstate
    (r.cur < 4 → o.toNat % 4 = r.cur) ∧ (r.tgt < 4 → r.cur < 4 → o.toNat / 4 % 4 = (if r.mv = .steady then r.cur else r.tgt)) ∧
    o.toNat / 16 % 4 = (match r.pend with
      | some p => p.1 % 4
      | none => 0) ∧
    o.getLsbD 6 = r.pend.isSome ∧ o.getLsbD 7 = decide (r.mv ≠ .steady) ∧ o.toNat / 2 ^ 8 % 16 = r.res.toNat ∧
    o.toNat / 2 ^ 12 = railOf s.cur % 16 := by
  intro r o
  have ho : o.toNat = _ := opState_toNat s s.cur
  change o.toNat = _ * 2 ^ 12 + r.res.toNat * 2 ^ 8 + (decide (r.mv ≠ .steady)).toNat * 2 ^ 7 + r.pend.isSome.toNat * 2 ^ 6 +
    ((r.pend.map Prod.fst).getD 0) % 4 * 16 + (if r.mv = .steady then r.cur else r.tgt) % 4 * 4 + r.cur % 4 at ho
  have hpend : (match r.pend with | some p => p.1 % 4 | none => 0) = ((r.pend.map Prod.fst).getD 0) % 4 := by
    cases r.pend <;> rfl
  have hres := r.res.isLt
  have h6 := Bool.toNat_lt r.pend.isSome
  have h7 := Bool.toNat_lt (decide (r.mv ≠ .steady))
  refine ⟨fun h => by omega, fun ht hc => ?_, by rw [hpend]; omega, getLsbD_eq_of_div (by omega), getLsbD_eq_of_div (by omega), by omega, by omega⟩
  have hlt : (if r.mv = .steady then r.cur else r.tgt) < 4 := by split <;> assumption
  omega

theorem sysRead_stretchcnt {s : State} (he : (s.rail (railOf s.cur)).events < 2 ^ 24) (hg : (s.rail (railOf s.cur)).gwin < 256) :
    (s.sysRead .stretchcnt).toNat = (s.rail (railOf s.cur)).events * 2 ^ 40 + (s.rail (railOf s.cur)).gwin * 2 ^ 32 +
      (s.sec s.cur).count.toNat := by
  have := (s.sec s.cur).count.isLt
  exact toNat_ofNat64 (by omega)

/-- The sector of a thread that writes a system register: what each register's write leaves (R4, R397). -/
def Sector.sysWrite (x : Sector) (n : SysReg) (v : Word) : Sector :=
  match n with
  | .flags => { x with flags := x.flags &&& ~~~(v.setWidth 7) }
  | .phase => { x with phase := v.setWidth 5 }
  | .stretchcnt => { x with count := v.setWidth 32 }
  | .trappc => { x with th := { x.th with trapPc := v &&& ~~~(7 : Word) } }
  | .elogArray => if v.getLsbD 63 then { x with elogA := 0 } else x
  | .elogXfer => if v.getLsbD 63 then { x with elogX := 0 } else x
  | _ => x

section
variable (s : State) (n : SysReg) (v : Word)

theorem sysWrite_cur : (s.sysWrite n v).cur = s.cur := by
  unfold State.sysWrite
  split <;> try split
  all_goals rfl

theorem sysWrite_mem : (s.sysWrite n v).mem = s.mem := by
  unfold State.sysWrite
  split <;> try split
  all_goals rfl

/-- Outside sectors and contexts nothing changes. -/
theorem sysWrite_rest : ({ s.sysWrite n v with sectors := s.sectors, ctxs := s.ctxs } : State) = s := by
  unfold State.sysWrite
  split <;> try split
  all_goals rfl

theorem sysWrite_sec_ne {k : Nat} (hk : k ≠ s.cur) : (s.sysWrite n v).sec k = s.sec k := by
  unfold State.sysWrite
  cases n
  case flags | phase | stretchcnt | trappc => exact sec_modSec_ne s _ hk
  case elogArray | elogXfer =>
    show (if _ then _ else s : State).sec k = _
    split
    · exact sec_modSec_ne s _ hk
    · rfl
  all_goals rfl

theorem sysWrite_sec_self : (s.sysWrite n v).sec s.cur = (s.sec s.cur).sysWrite n v := by
  unfold State.sysWrite Sector.sysWrite
  cases n
  case flags | phase | stretchcnt | trappc => exact sec_modSec_self s _ _
  case elogArray | elogXfer =>
    show (if _ then _ else s : State).sec s.cur = if _ then _ else _
    split
    · exact sec_modSec_self s _ _
    · rfl
  all_goals rfl

variable {n} in
theorem sysWrite_ctxs (h : n ≠ .preemptcfg) : (s.sysWrite n v).ctxs = s.ctxs := by
  unfold State.sysWrite
  cases n
  case preemptcfg => exact absurd rfl h
  case elogArray | elogXfer =>
    show (if _ then _ else s : State).ctxs = _
    split <;> rfl
  all_goals rfl

end

theorem ctx_setCtx_self (s : State) (c : BitVec 8) (x : Ctx) : (s.setCtx c x).ctx c = x := tab_get_put_self _ _ _ _

theorem ctx_setCtx_ne (s : State) {c d : BitVec 8} (x : Ctx) (h : d ≠ c) : (s.setCtx c x).ctx d = s.ctx d :=
  tab_get_put_ne _ _ _ fun e => h (BitVec.eq_of_toNat_eq e)

/-- The low three bits of a word cleared (R397). -/
theorem and_not_seven_toNat (v : Word) : (v &&& ~~~(7 : Word)).toNat = v.toNat / 8 * 8 := by
  have h : v &&& ~~~(7 : Word) = (v >>> 3) <<< 3 := by
    refine BitVec.eq_of_getLsbD_eq fun i hi => ?_
    have h7 : (7 : Word).getLsbD i = decide (i < 3) := Nat.testBit_two_pow_sub_one 3 i
    rw [BitVec.getLsbD_and, BitVec.getLsbD_not, h7, BitVec.getLsbD_shiftLeft, BitVec.getLsbD_ushiftRight]
    by_cases hlt : i < 3
    · simp [hlt]
    · simp [hlt, hi, Nat.add_sub_cancel' (Nat.le_of_not_lt hlt)]
  have := v.isLt
  rw [h, BitVec.toNat_shiftLeft, BitVec.toNat_ushiftRight, Nat.shiftRight_eq_div_pow, Nat.shiftLeft_eq]
  omega

theorem exec_syswr (n : SysReg) (ra : Reg) (s : State) : exec (.syswr n ra) s = .next (s.sysWrite n (s.rdS ra)).advance := rfl

/-- What each register's write leaves of the acting sector, field by field (R4, R107, R397). -/
theorem sectorSysWrite_fields (x : Sector) (n : SysReg) (v : Word) : let y := x.sysWrite n v
    y.flags = (if n = .flags then x.flags &&& ~~~(v.setWidth 7) else x.flags) ∧
    y.phase = (if n = .phase then v.setWidth 5 else x.phase) ∧
    y.count = (if n = .stretchcnt then v.setWidth 32 else x.count) ∧
    y.th.trapPc.toNat = (if n = .trappc then v.toNat / 8 * 8 else x.th.trapPc.toNat) ∧
    ({ y.th with trapPc := x.th.trapPc } : Thread) = x.th ∧
    y.elogA = (if n = .elogArray ∧ v.getLsbD 63 = true then 0 else x.elogA) ∧
    y.elogX = (if n = .elogXfer ∧ v.getLsbD 63 = true then 0 else x.elogX) := by
  cases n
  case trappc => exact ⟨rfl, rfl, rfl, and_not_seven_toNat v, rfl, rfl, rfl⟩
  case elogArray | elogXfer =>
    unfold Sector.sysWrite
    generalize v.getLsbD 63 = b
    cases b
    all_goals exact ⟨rfl, rfl, rfl, rfl, rfl, rfl, rfl⟩
  all_goals exact ⟨rfl, rfl, rfl, rfl, rfl, rfl, rfl⟩

theorem sec_advance_self (s : State) : s.advance.sec s.cur = { s.sec s.cur with th := { s.th with pc := s.pc + 8, wait := .none, word := none } } :=
  sec_modSec_self s _ _

theorem sec_advance_ne (s : State) {k : Nat} (h : k ≠ s.cur) : s.advance.sec k = s.sec k := sec_modSec_ne s _ h

/-- R4, R397, R398: what `syswr` leaves. -/
theorem syswr_spec (ra : Reg) (n : SysReg) (s : State) :
    let v := s.rdS ra
    ∃ t, exec (.syswr n ra) s = .next t ∧ t.pc = s.pc + 8 ∧ KeepsMemory s t ∧ (∀ r, t.rdS r = s.rdS r) ∧
      (∀ k, k ≠ s.cur → t.sec k = s.sec k) ∧
      (t.sec s.cur).flags = (if n = .flags then (s.sec s.cur).flags &&& ~~~(v.setWidth 7) else (s.sec s.cur).flags) ∧
      (t.sec s.cur).phase = (if n = .phase then v.setWidth 5 else (s.sec s.cur).phase) ∧
      (t.sec s.cur).count = (if n = .stretchcnt then v.setWidth 32 else (s.sec s.cur).count) ∧
      t.th.trapPc.toNat = (if n = .trappc then v.toNat / 8 * 8 else s.th.trapPc.toNat) ∧
      t.th.cause = s.th.cause ∧ t.th.ts = s.th.ts ∧ t.th.trapVal = s.th.trapVal ∧
      (t.sec s.cur).elogA = (if n = .elogArray ∧ v.getLsbD 63 = true then 0 else (s.sec s.cur).elogA) ∧
      (t.sec s.cur).elogX = (if n = .elogXfer ∧ v.getLsbD 63 = true then 0 else (s.sec s.cur).elogX) ∧
      ({ t with sectors := s.sectors, ctxs := s.ctxs } : State) = s ∧ (n ≠ .preemptcfg → t.ctxs = s.ctxs) ∧
      (let c := (s.sec s.cur).ctx
       n = .preemptcfg → t.ctx c = { s.ctx c with grace := v.extractLsb' 8 8, noticeOn := v.getLsbD 0 } ∧ ∀ d, d ≠ c → t.ctx d = s.ctx d) := by
  intro v
  have hcur := sysWrite_cur s n v
  have hself := sysWrite_sec_self s n v
  obtain ⟨hflags, hphase, hcount, hpc, hth, helogA, helogX⟩ := sectorSysWrite_fields (s.sec s.cur) n v
  have hadv := sec_advance_self (s.sysWrite n v)
  have hthu : (s.sysWrite n v).th = ((s.sec s.cur).sysWrite n v).th := by rw [State.th, hcur, hself]
  rw [hcur, hself, hthu] at hadv
  have htht : (s.sysWrite n v).advance.th = { ((s.sec s.cur).sysWrite n v).th with
      pc := ((s.sec s.cur).sysWrite n v).th.pc + 8, wait := .none, word := none } := by rw [th_advance, hthu]
  have hthf : ∀ {α : Type} (f : Thread → α), (∀ t p, f { t with trapPc := p } = f t) → f ((s.sec s.cur).sysWrite n v).th = f s.th :=
    fun f hf => by rw [← hf _ (s.sec s.cur).th.trapPc, hth]; rfl
  refine ⟨_, exec_syswr n ra s, ?pc, rdByte_congr (sysWrite_mem s n v), ?regs, ?others, by rw [hadv]; exact hflags, by rw [hadv]; exact hphase,
    by rw [hadv]; exact hcount, by rw [htht]; exact hpc, by rw [htht]; exact hthf Thread.cause fun _ _ => rfl,
    by rw [htht]; exact hthf Thread.ts fun _ _ => rfl, by rw [htht]; exact hthf Thread.trapVal fun _ _ => rfl,
    by rw [hadv]; exact helogA, by rw [hadv]; exact helogX, sysWrite_rest s n v, fun h => sysWrite_ctxs s v h, ?preempt⟩
  case pc =>
    show Thread.pc (State.th _) = _
    rw [htht]
    exact congrArg (· + 8) (hthf Thread.pc fun _ _ => rfl)
  case regs =>
    intro r
    show Thread.rdS (State.th _) r = _
    rw [htht]
    exact hthf (fun t => t.rdS r) fun _ _ => rfl
  case others =>
    intro k hk
    rw [sec_advance_ne _ (by rwa [hcur]), sysWrite_sec_ne s n v hk]
  case preempt =>
    rintro c rfl
    have hgrace : BitVec.ofNat 8 (bitsAt v.toNat 8 8) = v.extractLsb' 8 8 :=
      BitVec.eq_of_toNat_eq (by
        rw [BitVec.toNat_ofNat, BitVec.extractLsb'_toNat, Nat.shiftRight_eq_div_pow, bitsAt, Nat.mod_mod])
    exact ⟨(ctx_setCtx_self s c _).trans (by rw [hgrace]), fun d hd => ctx_setCtx_ne s _ hd⟩

/-- Settles O12: each register's read by its bits, and its write by what it leaves of the acting sector. -/
theorem systemRegistersReadAndWritten : Obligations.SystemRegistersReadAndWritten := by
  unfold Obligations.SystemRegistersReadAndWritten
  refine ⟨fun rd n s => ?reads, fun ra n s => syswr_spec ra n s⟩
  case reads =>
    have hctx := sysRead_ctxid s
    have hlt := (s.sec s.cur).ctx.isLt
    obtain ⟨hcur, htgt, hpend, h6, h7, hres, hrail⟩ := sysRead_opstate s
    exact ⟨writesScalar_of rfl rfl, rfl, fun h => (sysRead_sectid s).trans (Nat.mod_eq_of_lt h), toNat_setWidth64 (by decide) _,
      toNat_setWidth64 (by decide) _, toNat_setWidth64 (by decide) _, by omega, by omega, sysRead_trapcause s, rfl, rfl, rfl, rfl,
      ⟨hcur, htgt, hpend, h6, h7, hres, hrail, sysRead_stretchcnt⟩, sysRead_preemptcfg s, fun k l => sysRead_ltag⟩

end Sys2Proof.Machine
end

section
/-! PROOFS. What an access that meets errors, and the posting of records, leave unchanged (R383, R395, R404, R405, R421 to R424). -/

namespace Sys2Proof.Machine

open Sys2Proof

/-! ### Errors met by an access -/

/-- Nothing differs but what errors note: the errors that wait, Umber's records, when staged flash pages were last used, the waits for modules, and each sector's logs and bus. -/
def ErrFrame (s t : State) : Prop :=
  ({ t with upsets := s.upsets, umber := s.umber, flash := s.flash, sectors := s.sectors, linkWaits := s.linkWaits } : State) = s ∧
  ({ t.flash with staged := s.flash.staged } : Flash) = s.flash ∧
  ∀ k, ({ t.sec k with elogA := (s.sec k).elogA, elogX := (s.sec k).elogX, busDead := (s.sec k).busDead } : Sector) = s.sec k

namespace ErrFrame

variable {s t u : State}

theorem refl (s : State) : ErrFrame s s := ⟨rfl, rfl, fun _ => rfl⟩

theorem trans (h : ErrFrame s t) (h' : ErrFrame t u) : ErrFrame s u := by
  obtain ⟨hs, hf, hk⟩ := h
  obtain ⟨hs', hf', hk'⟩ := h'
  refine ⟨Eq.trans ?_ hs, Eq.trans ?_ hf, fun k => Eq.trans ?_ (hk k)⟩
  · exact congrArg (fun x : State =>
      { x with upsets := s.upsets, umber := s.umber, flash := s.flash, sectors := s.sectors, linkWaits := s.linkWaits }) hs'
  · exact congrArg (fun x : Flash => { x with staged := s.flash.staged }) hf'
  · exact congrArg (fun x : Sector => { x with elogA := (s.sec k).elogA, elogX := (s.sec k).elogX, busDead := (s.sec k).busDead }) (hk' k)

/-- A field of the state that errors do not note is unchanged. -/
theorem field {α : Type} (h : ErrFrame s t) (f : State → α)
    (hf : ∀ (x : State) a b c d e, f { x with upsets := a, umber := b, flash := c, sectors := d, linkWaits := e } = f x) : f t = f s := by
  rw [← hf t s.upsets s.umber s.flash s.sectors s.linkWaits, h.1]

theorem mem (h : ErrFrame s t) : t.mem = s.mem := h.field State.mem fun _ _ _ _ _ _ => rfl
theorem poison (h : ErrFrame s t) : t.poison = s.poison := h.field State.poison fun _ _ _ _ _ _ => rfl
theorem cur (h : ErrFrame s t) : t.cur = s.cur := h.field State.cur fun _ _ _ _ _ _ => rfl
theorem tasks (h : ErrFrame s t) : t.tasks = s.tasks := h.field State.tasks fun _ _ _ _ _ _ => rfl
theorem ctxs (h : ErrFrame s t) : t.ctxs = s.ctxs := h.field State.ctxs fun _ _ _ _ _ _ => rfl
theorem recs (h : ErrFrame s t) : t.recs = s.recs := h.field State.recs fun _ _ _ _ _ _ => rfl

theorem th (h : ErrFrame s t) (k : Nat) : (t.sec k).th = (s.sec k).th := by rw [← h.2.2 k]

/-- What lies in none of the fields that errors note may change freely. -/
theorem of_eq (hsec : t.sectors = s.sectors) (hflash : t.flash = s.flash)
    (h : ({ t with upsets := s.upsets, umber := s.umber, flash := s.flash, sectors := s.sectors, linkWaits := s.linkWaits } : State) = s) :
    ErrFrame s t :=
  ⟨h, by rw [hflash], fun k => by rw [State.sec, hsec]; rfl⟩

/-- One sector's logs or bus written. -/
theorem modSec (s : State) (k : Nat) (f : Sector → Sector)
    (hf : ∀ x : Sector, ({ f x with elogA := x.elogA, elogX := x.elogX, busDead := x.busDead } : Sector) = x) : ErrFrame s (s.modSec k f) := by
  refine ⟨rfl, rfl, fun j => ?_⟩
  by_cases hj : j = k
  · subst hj
    rw [sec_modSec_self]
    exact hf _
  · rw [sec_modSec_ne s f hj]

end ErrFrame

section
variable (s : State)

theorem errFrame_countSite (key : Nat) : ErrFrame s (s.countSite key).2 := by
  unfold State.countSite
  simp only
  split <;> exact .of_eq rfl rfl rfl

theorem errFrame_clearSite (key : Nat) : ErrFrame s (s.clearSite key) := .of_eq rfl rfl rfl

theorem errFrame_logArray (who cls layer bank row unit bits act cnt bit die : Nat) :
    ErrFrame s (s.logArray who cls layer bank row unit bits act cnt bit die) := by
  unfold State.logArray
  simp only
  split
  · exact .modSec _ _ _ fun _ => rfl
  · exact .refl s

theorem errFrame_logXfer (who cls die sect lane spare tries act cnt used layer : Nat) :
    ErrFrame s (s.logXfer who cls die sect lane spare tries act cnt used layer) := by
  unfold State.logXfer
  simp only
  split
  · exact .modSec _ _ _ fun _ => rfl
  · exact .refl s

theorem errFrame_retireColumn (die sect : Nat) : ErrFrame s (s.retireColumn die sect) :=
  (ErrFrame.modSec s (die * 64 + sect) (fun x => { x with busDead := true }) fun _ => rfl).trans (.of_eq rfl rfl rfl)

theorem errFrame_repairLane (die sect lane : Nat) : ErrFrame s (s.repairLane die sect lane).2 := by
  unfold State.repairLane
  simp only
  split
  · exact .refl s
  · split
    · exact .of_eq rfl rfl rfl
    · exact (errFrame_clearSite s _).trans (errFrame_retireColumn _ _ _)

theorem errFrame_repairRow (die layer bank row : Nat) : ErrFrame s (s.repairRow die layer bank row).2 := by
  unfold State.repairRow
  simp only
  split <;> exact .of_eq rfl rfl rfl

theorem errFrame_touch (t : Tgt) : ErrFrame s (s.touch t) := by
  rw [touch_eq]
  exact ⟨rfl, rfl, fun _ => rfl⟩

theorem errFrame_forget (who : Nat) (t : Tgt) (n : Nat) : ErrFrame s (s.forget who t n) := .of_eq rfl rfl rfl

theorem errFrame_forgetAll (who : Nat) : ErrFrame s (s.forgetAll who) := .of_eq rfl rfl rfl

theorem errFrame_endLink (who : Nat) : ErrFrame s (s.endLink who) := .of_eq rfl rfl rfl

end

/-- The state that an access has come to, whatever it met. -/
def Strike.state : Strike → State
  | .go u => u
  | .wait u => u
  | .bad u => u

/-- An array error counted, and its row repaired where it is a lasting one. -/
theorem errFrame_countRow (s : State) (key d ly b row : Nat) :
    ErrFrame s (if 4 ≤ (s.countSite key).1 then (s.countSite key).2.repairRow d ly b row else (0, (s.countSite key).2)).2 := by
  have hc := errFrame_countSite s key
  split
  · exact hc.trans (errFrame_repairRow _ _ _ _ _)
  · exact hc

theorem errFrame_meet (s : State) (who : Nat) (t : Tgt) (n : Nat) : ErrFrame s (s.meet who t n).state := by
  unfold State.meet
  simp only
  split
  · split <;> exact .refl s
  · split
    · exact .refl s
    · split
      · exact errFrame_touch s t
      · next u l _ =>
        have h1 : ErrFrame s { s with upsets := s.upsets.erase u } := .of_eq rfl rfl rfl
        cases u with
        | parity d k lane => exact h1.trans (.of_eq rfl rfl rfl)
        | array d ly b row unit bits bit dirty =>
          have hrow := errFrame_countRow { s with upsets := s.upsets.erase (.array d ly b row unit bits bit dirty) } (rowKey d ly b row) d ly b row
          simp only
          split
          · exact (h1.trans hrow).trans ((errFrame_logArray _ _ _ _ _ _ _ _ _ _ _ _).trans (errFrame_touch _ t))
          · split
            · refine ((h1.trans hrow).trans ?_).trans (errFrame_logArray _ _ _ _ _ _ _ _ _ _ _ _)
              exact .of_eq rfl rfl rfl
            · exact (h1.trans hrow).trans ((errFrame_logArray _ _ _ _ _ _ _ _ _ _ _ _).trans (errFrame_touch _ t))
        | _ => exact h1

theorem errFrame_strike (s : State) (who : Nat) (t : Tgt) (n : Nat) : ErrFrame s (s.strike who t n).state := by
  have hm := errFrame_meet s who t n
  unfold State.strike
  split
  · next u hu =>
    rw [hu] at hm
    exact hm.trans (errFrame_forget _ _ _ _)
  · exact hm

theorem errFrame_extLink {s u : State} {who : Nat} {va : Word} (h : s.extLink who va = some u) : ErrFrame s u := by
  unfold State.extLink at h
  split at h
  · split at h
    · obtain rfl := Option.some.inj h
      exact .refl s
    · exact nomatch h
  · obtain rfl := Option.some.inj h
    exact .of_eq rfl rfl rfl

theorem errFrame_meetRuns (s : State) (who : Nat) (l : List (Tgt × Nat)) : ErrFrame s (s.meetRuns who l).1 := by
  induction l generalizing s with
  | nil => exact .refl s
  | cons p l ih =>
    have hm := errFrame_meet s who p.1 p.2
    unfold State.meetRuns
    split
    all_goals
      next u hu =>
      rw [hu] at hm
      exact hm.trans (ih u)

theorem errFrame_forgetRuns (s : State) (who : Nat) (l : List (Tgt × Nat)) : ErrFrame s (s.forgetRuns who l) := by
  unfold State.forgetRuns
  induction l generalizing s with
  | nil => exact .refl s
  | cons p l ih => exact (errFrame_forget s who p.1 p.2).trans (ih _)

theorem errFrame_meetPage (s : State) (who : Nat) (t : Tgt) (len : Nat) : ErrFrame s (s.meetPage who t len).1 := by
  unfold State.meetPage
  split
  · exact .refl s
  · exact errFrame_meetRuns s who _

/-! ### Records posted -/

/-- Nothing differs but what the posting of a record may change while its context stays: what errors note, memory with its poison, contexts, messages and the waiting records. -/
def PostFrame (s t : State) : Prop :=
  ({ t with
    upsets := s.upsets, umber := s.umber, flash := s.flash, sectors := s.sectors, linkWaits := s.linkWaits, mem := s.mem
    poison := s.poison, ctxs := s.ctxs, outbox := s.outbox, recs := s.recs } : State) = s ∧
  ∀ k, ({ t.sec k with elogA := (s.sec k).elogA, elogX := (s.sec k).elogX, busDead := (s.sec k).busDead } : Sector) = s.sec k

namespace PostFrame

variable {s t u : State}

theorem trans (h : PostFrame s t) (h' : PostFrame t u) : PostFrame s u := by
  obtain ⟨hs, hk⟩ := h
  obtain ⟨hs', hk'⟩ := h'
  refine ⟨Eq.trans ?_ hs, fun k => Eq.trans ?_ (hk k)⟩
  · exact congrArg (fun x : State => { x with
      upsets := s.upsets, umber := s.umber, flash := s.flash, sectors := s.sectors, linkWaits := s.linkWaits, mem := s.mem
      poison := s.poison, ctxs := s.ctxs, outbox := s.outbox, recs := s.recs }) hs'
  · exact congrArg (fun x : Sector => { x with elogA := (s.sec k).elogA, elogX := (s.sec k).elogX, busDead := (s.sec k).busDead }) (hk' k)

theorem of_errFrame (h : ErrFrame s t) : PostFrame s t := by
  obtain ⟨hs, -, hk⟩ := h
  refine ⟨Eq.trans ?_ hs, hk⟩
  have hmem := congrArg State.mem hs
  have hpoison := congrArg State.poison hs
  have hctxs := congrArg State.ctxs hs
  have houtbox := congrArg State.outbox hs
  have hrecs := congrArg State.recs hs
  dsimp only at hmem hpoison hctxs houtbox hrecs
  rw [hmem, hpoison, hctxs, houtbox, hrecs]

theorem refl (s : State) : PostFrame s s := of_errFrame (.refl s)

theorem of_eq (hsec : t.sectors = s.sectors) (h : ({ t with
    upsets := s.upsets, umber := s.umber, flash := s.flash, sectors := s.sectors, linkWaits := s.linkWaits, mem := s.mem
    poison := s.poison, ctxs := s.ctxs, outbox := s.outbox, recs := s.recs } : State) = s) : PostFrame s t :=
  ⟨h, fun k => by rw [State.sec, hsec]; rfl⟩

theorem field {α : Type} (h : PostFrame s t) (f : State → α) (hf : ∀ (x : State) a b c d e g i j k l, f { x with
    upsets := a, umber := b, flash := c, sectors := d, linkWaits := e, mem := g, poison := i, ctxs := j, outbox := k, recs := l } = f x) :
    f t = f s := by
  rw [← hf t s.upsets s.umber s.flash s.sectors s.linkWaits s.mem s.poison s.ctxs s.outbox s.recs, h.1]

theorem cur (h : PostFrame s t) : t.cur = s.cur := h.field State.cur fun _ _ _ _ _ _ _ _ _ _ _ => rfl
theorem tasks (h : PostFrame s t) : t.tasks = s.tasks := h.field State.tasks fun _ _ _ _ _ _ _ _ _ _ _ => rfl

theorem th (h : PostFrame s t) (k : Nat) : (t.sec k).th = (s.sec k).th := by rw [← h.2 k]

theorem store (s : State) (a : Nat) (l : List Byte) : PostFrame s (s.store a l) := by
  rw [store_eq]
  exact .of_eq rfl rfl

theorem poisonRun (s : State) (a n : Nat) : PostFrame s (s.poisonRun a n) := .of_eq rfl rfl

theorem ringOn (s : State) (r : Rec) : PostFrame s (s.ringOn r) := .of_eq rfl rfl

end PostFrame

/-- What a record's posting leaves as it was, and what the end of a context leaves, holds after the posting. -/
structure KeptByPosts (P : State → Prop) : Prop where
  frame : ∀ s t, PostFrame s t → P s → P t
  endCtx : ∀ s c, P s → P (s.endCtx c)

namespace KeptByPosts

variable {P : State → Prop} (hP : KeptByPosts P)
include hP

theorem postRec {s : State} (r : Rec) (h : P s) : P (s.postRec r).1 := by
  unfold State.postRec
  simp only
  split
  · exact h
  · split
    · exact h
    · next t _ =>
      split
      · exact hP.endCtx _ _ h
      · split
        · split
          · next u hu => exact hP.frame _ _ (.of_errFrame (errFrame_extLink hu)) h
          · exact hP.frame _ _ ((PostFrame.of_errFrame (errFrame_endLink s _)).trans (.ringOn _ r)) h
        · have hs := errFrame_strike s (whoRing r.ctx r.sig) t (recSize r.sig)
          generalize s.strike (whoRing r.ctx r.sig) t (recSize r.sig) = z at hs
          cases z with
          | wait u => exact hP.frame _ _ (.of_errFrame hs) h
          | bad u => exact hP.frame _ _ (((PostFrame.of_errFrame hs).trans (.poisonRun u _ _)).trans (.ringOn _ r)) h
          | go u => exact hP.frame _ _ ((PostFrame.of_errFrame (hs.trans (errFrame_endLink _ _))).trans (.trans (.store _ _ _) (.ringOn _ r))) h
    · exact hP.endCtx _ _ h

theorem flushFrom {s : State} (stuck : List (BitVec 8)) (l : List Rec) (h : P s) : P (s.flushFrom stuck l).1 := by
  induction l generalizing s stuck with
  | nil => exact h
  | cons r l ih =>
    unfold State.flushFrom
    simp only
    split
    · exact ih stuck h
    · split
      · exact ih stuck h
      · split
        · exact ih stuck (hP.postRec r h)
        · exact ih _ (hP.postRec r h)

theorem flushRecs {s : State} (h : P s) : P s.flushRecs :=
  hP.frame (s.flushFrom [] s.recs).1 _ (.of_eq rfl rfl) (hP.flushFrom [] s.recs h)

theorem addRec {s : State} (r : Rec) (h : P s) : P (s.addRec r) := hP.flushRecs (hP.frame s _ (.of_eq rfl rfl) h)

theorem addRecs {α : Type} {s : State} (f : α → Rec) (l : List α) (h : P s) : P (l.foldl (fun s p => s.addRec (f p)) s) := by
  induction l generalizing s with
  | nil => exact h
  | cons p l ih => exact ih (hP.addRec (f p) h)

theorem errorRec {s : State} (c : BitVec 8) (taskIdx sid : Nat) (va : Word) (n : Nat) (h : P s) : P (s.errorRec c taskIdx sid va n) :=
  hP.addRec _ h

end KeptByPosts

end Sys2Proof.Machine
end

section
/-! PROOFS. Traps, their words, and the end of a thread (R185, R221, R399, R411, R416 to R418, R420). -/

namespace Sys2Proof.Machine

open Sys2Proof

/-! ### A trap outside trap state (R411) -/

theorem takeTrap_outside {s : State} (h : s.th.ts = false) (c : Cause) (v : Word) :
    let t := s.takeTrap c v
    t.sysRead .trapcause = BitVec.ofNat 64 (256 + c.code.toNat) ∧ t.sysRead .trappc = s.pc ∧ t.sysRead .trapval = v ∧
      t.pc = s.pc ∧ t.th.wait = .record s.cyc ∧ (∀ r, t.rdS r = s.rdS r) ∧ (∀ p, t.rdP p = s.rdP p) ∧ (∀ d, t.rdD d = s.rdD d) ∧
      ThreadOnly s t := by
  intro t
  have ht : t = s.modTh fun t => t.enterTrap s.cyc c v := takeTrap_spec s c v h
  have hth : t.th = s.th.enterTrap s.cyc c v := by rw [ht, th_modTh]
  have hreads : ∀ {α : Type} (f : Thread → α), f t.th = f (s.th.enterTrap s.cyc c v) := fun f => congrArg f hth
  refine ⟨?_, hreads Thread.trapPc, hreads Thread.trapVal, hreads Thread.pc, hreads Thread.wait, fun r => hreads (·.rdS r),
    fun p => hreads (·.rdP p), fun d => hreads (·.rdD d), ht ▸ threadOnly_modTh _ _⟩
  exact hreads fun x => BitVec.ofNat 64 ((if x.ts then 256 else 0) + x.cause.toNat)

/-! ### A trap in trap state fails the task (R416, R420) -/

/-- A task found by its number has that number. -/
theorem id_of_task? {s : State} {n : Nat} {k : Task} (h : s.task? n = some k) : k.id = n := by
  have := List.find?_some h
  simpa using this

/-- A task written in the place of the one with its number is found there. -/
theorem task?_setTask_self {s : State} {k k' : Task} (h : s.task? k'.id = some k) : (s.setTask k').task? k'.id = some k' := by
  unfold State.task? State.setTask at *
  simp only
  generalize s.tasks = l at *
  induction l with
  | nil => exact nomatch h
  | cons x l ih =>
    by_cases hx : x.id = k'.id
    · simp [hx]
    · simp only [List.find?_cons, List.map_cons, if_neg hx, beq_eq_false_iff_ne.mpr hx] at h ⊢
      exact ih h

/-- Sectors of a list that are all changed alike: what the change establishes holds in each of them. -/
theorem modSecs_all {Q : Sector → Prop} {f : Sector → Sector} (hf : ∀ x, Q (f x)) (s : State) {ks : List Nat} {j : Nat} (hj : j ∈ ks) :
    Q ((s.modSecs ks f).sec j) := by
  unfold State.modSecs
  have hkeep : ∀ (l : List Nat) (u : State), Q (u.sec j) → Q ((l.foldl (fun u k => u.modSec k f) u).sec j) := by
    intro l
    induction l with
    | nil => exact fun _ h => h
    | cons k l ih =>
      intro u hu
      refine ih _ ?_
      rw [sec_modSec]
      split
      · exact hf _
      · exact hu
  induction ks generalizing s with
  | nil => exact nomatch hj
  | cons k ks ih =>
    by_cases hk : j ∈ ks
    · exact ih _ hk
    · obtain rfl : j = k := (List.mem_cons.mp hj).resolve_right hk
      exact hkeep ks _ (by rw [sec_modSec_self]; exact hf _)

/-- What a change of sectors keeps holds in each sector afterwards. -/
theorem modSecs_keeps {Q : Sector → Prop} {f : Sector → Sector} (hf : ∀ x, Q x → Q (f x)) (s : State) (ks : List Nat) {j : Nat}
    (h : Q (s.sec j)) : Q ((s.modSecs ks f).sec j) := by
  unfold State.modSecs
  induction ks generalizing s with
  | nil => exact h
  | cons k ks ih =>
    refine ih _ ?_
    rw [sec_modSec]
    split
    · exact hf _ h
    · exact h

theorem modSecs_eq (s : State) (ks : List Nat) (f : Sector → Sector) : s.modSecs ks f = { s with sectors := (s.modSecs ks f).sectors } := by
  unfold State.modSecs
  induction ks generalizing s with
  | nil => rfl
  | cons k ks ih => exact ih (s.modSec k f)

/-- The trap registers of a thread. -/
def Thread.trapRegs (t : Thread) : BitVec 8 × Word × Word × Bool := (t.cause, t.trapPc, t.trapVal, t.ts)

/-- A task has failed: its threads are stopped, its tokens gone, of its stores those of whole waves kept, and the trap registers of a thread stand. -/
def HasFailed (k : Task) (cur : Nat) (regs : BitVec 8 × Word × Word × Bool) (t : State) : Prop :=
  (∃ k', t.task? k.id = some k' ∧ k'.st = .failing ∧ k'.packets = [] ∧ ∀ p ∈ k'.stores, p ∈ k.stores ∧ k.whole p.b p.wave = true) ∧
  (∀ j ∈ k.sids, (t.sec j).th.stopped = true) ∧ t.cur = cur ∧ (t.sec cur).th.trapRegs = regs

/-- A table whose values are all changed alike reads as the change of what it read. -/
theorem tab_get_map {α β : Type} (f : α → β) (d : α) (t : Tab α) (k : Nat) :
    Tab.get (f d) (t.map fun p => (p.1, f p.2)) k = f (Tab.get d t k) := by
  induction t with
  | nil => rfl
  | cons p t ih =>
    obtain ⟨j, v⟩ := p
    by_cases h : j = k
    · simp [Tab.get, h]
    · simpa [Tab.get, h] using ih

/-- The thread of a sector stopped, in no wait and without a notice (R380, R420). -/
def Sector.stopTh (x : Sector) : Sector := { x with th := { x.th with stopped := true, wait := .none, notice := none } }

/-- A sector when a context ends: the thread of a sector that it holds stops (R380). -/
def Sector.ended (c : BitVec 8) (x : Sector) : Sector :=
  if x.v ∧ x.ctx = c then x.stopTh else x

theorem endCtx_sec (s : State) (c : BitVec 8) (j : Nat) : (s.endCtx c).sec j = (s.sec j).ended c := by
  have hmap : (s.endCtx c).sectors = s.sectors.map fun p => (p.1, p.2.ended c) := by
    show List.map _ _ = _
    refine List.map_congr_left fun p _ => ?_
    unfold Sector.ended
    split <;> rfl
  rw [State.sec, hmap]
  exact tab_get_map (Sector.ended c) {} s.sectors j

theorem endCtx_th (s : State) (c : BitVec 8) (j : Nat) : ((s.endCtx c).sec j).th = (s.sec j).th ∨
    ((s.endCtx c).sec j).th = { (s.sec j).th with stopped := true, wait := .none, notice := none } := by
  rw [endCtx_sec, Sector.ended]
  split
  · exact .inr rfl
  · exact .inl rfl

/-- A task when a context ends: one of the context that runs or fails has failed, without stores and tokens on their way (R380). -/
def Task.ended (c : BitVec 8) (t : Task) : Task :=
  if t.ctx = c ∧ (t.runs ∨ t.st = .failing) then { t with st := .failing, pre := .none, stores := [], wrecs := [], packets := [] } else t

theorem endCtx_task? (s : State) (c : BitVec 8) (n : Nat) : (s.endCtx c).task? n = (s.task? n).map (Task.ended c) := by
  have hid : ((fun x : Task => x.id == n) ∘ Task.ended c) = fun x => x.id == n := by
    funext x
    simp only [Function.comp, Task.ended]
    split <;> rfl
  show List.find? _ (List.map (Task.ended c) s.tasks) = _
  rw [List.find?_map, hid]
  rfl

theorem keptByPosts_hasFailed (k : Task) (cur : Nat) (regs : BitVec 8 × Word × Word × Bool) : KeptByPosts (HasFailed k cur regs) where
  frame s t h := by
    rintro ⟨⟨k', hk', hrest⟩, hstop, hcur, hregs⟩
    exact ⟨⟨k', by rw [State.task?, h.tasks]; exact hk', hrest⟩, fun j hj => by rw [h.th]; exact hstop j hj, h.cur.trans hcur, by rw [h.th]; exact hregs⟩
  endCtx s c := by
    rintro ⟨⟨k', hk', hst, hpackets, hstores⟩, hstop, hcur, hregs⟩
    refine ⟨⟨k'.ended c, by rw [endCtx_task?, hk']; rfl, ?_⟩, fun j hj => ?_, hcur, ?_⟩
    · unfold Task.ended
      split
      · exact ⟨rfl, rfl, fun p hp => nomatch hp⟩
      · exact ⟨hst, hpackets, hstores⟩
    · rcases endCtx_th s c j with h | h
      · rw [h]; exact hstop j hj
      · rw [h]
    · rcases endCtx_th s c cur with h | h
      · rw [h]; exact hregs
      · rw [h]; exact hregs

theorem hasFailed_taskFail {s : State} {n : Nat} {k : Task} (hk : s.task? n = some k) (hr : k.runs = true) (cause : BitVec 8) (sid : Nat) :
    HasFailed k s.cur s.th.trapRegs (s.taskFail n cause sid) := by
  have hkept := keptByPosts_hasFailed k s.cur s.th.trapRegs
  have hid := id_of_task? hk
  unfold State.taskFail
  rw [hk]
  simp only [hr, Bool.not_true, Bool.false_eq_true, if_false]
  refine hkept.addRecs (α := Nat × Word) _ _ (hkept.addRec _ (hkept.frame _ _ (.of_eq rfl rfl) ?_))
  rw [modSecs_eq]
  refine ⟨⟨k.halted, task?_setTask_self (by rw [show k.halted.id = n from hid]; exact hk), rfl, rfl, fun p hp => List.mem_filter.mp hp⟩,
    fun j hj => ?_, rfl, ?_⟩
  · exact modSecs_all (Q := fun x => x.th.stopped = true) (f := Sector.stopTh) (fun _ => rfl) (s.setTask k.halted) hj
  · exact modSecs_keeps (Q := fun x => x.th.trapRegs = s.th.trapRegs) (f := Sector.stopTh) (fun _ h => h) (s.setTask k.halted) k.sids rfl

theorem takeTrap_inside {s : State} {k : Task} (hts : s.th.ts = true) (hk : s.task? (s.sec s.cur).task = some k) (hr : k.runs = true)
    (c : Cause) (v : Word) : HasFailed k s.cur s.th.trapRegs (s.takeTrap c v) := by
  rw [State.takeTrap, if_pos hts]
  exact hasFailed_taskFail hk hr _ _

/-- Settles O13: the trap registers written, or the task failed, which the posting of its records keeps. -/
theorem takingATrap : Obligations.TakingATrap := by
  unfold Obligations.TakingATrap
  refine ⟨fun c v s h => takeTrap_outside h c v, fun c v s k hts hk hr hmem => ?_⟩
  obtain ⟨hfail, hstop, hcur, hregs⟩ := takeTrap_inside hts hk hr c v
  rw [← hcur] at hregs
  change (s.takeTrap c v).th.trapRegs = _ at hregs
  simp only [Thread.trapRegs, Prod.mk.injEq] at hregs
  obtain ⟨hcause, hpc, hval, htsEq⟩ := hregs
  exact ⟨hfail, hstop, hcause, hpc, hval, htsEq.trans hts⟩

/-! ### svc, trap and tret (R399, R417, R418) -/

theorem exec_svc (code : BitVec 16) (s : State) : exec (.svc code) s =
    if s.writesDone s.cur then .next (s.takeTrap .svc (code.setWidth 64)) else .next s := rfl

theorem exec_tret (s : State) : exec .tret s =
    if s.th.ts then .next (s.modTh fun t => t.leaveTrap s.cyc t.resumePc) else .next (s.takeTrap .illegal s.curWord) := rfl

/-- A thread without a notice leaves trap state for an address. -/
theorem leaveTrap_of_no_notice {t : Thread} (h : t.notice = none) (cyc : Nat) (pc : Word) : t.leaveTrap cyc pc =
    { t with ts := false, pc := pc, wait := .none, word := none, barHeld := t.barHeld.filter fun b => b.1 == pc } := by
  unfold Thread.leaveTrap Thread.takeNotice
  simp only [h]

/-- Settles O14: svc and trap take their traps, and tret leaves trap state at the resume point. -/
theorem trapWordsAndReturn : Obligations.TrapWordsAndReturn := by
  unfold Obligations.TrapWordsAndReturn
  intro code s
  refine ⟨fun h => (exec_svc code s).trans (if_pos h), fun h => (exec_svc code s).trans (if_neg (by simp [h])), rfl, fun hts hn => ?_,
    fun hts => (exec_tret s).trans (if_neg (by simp [hts]))⟩
  refine ⟨_, (exec_tret s).trans (if_pos hts), ?_⟩
  have hth : (s.modTh fun t => t.leaveTrap s.cyc t.resumePc).th = _ := (th_modTh s _).trans (leaveTrap_of_no_notice hn _ _)
  have hpc : (s.modTh fun t => t.leaveTrap s.cyc t.resumePc).pc = s.th.resumePc := by rw [State.pc, hth]
  rw [hth, hpc]
  exact ⟨rfl, rfl, rfl, rfl, threadOnly_modTh _ _⟩

/-! ### halt (R221) -/

/-- The acting thread stopped for good. -/
def State.haltThread (s : State) : State := s.modTh fun t => { t with halted := true, wait := .none, word := none }

theorem exec_halt (s : State) : exec .halt s = .next (s.haltThread.drainTask (s.sec s.cur).task) := rfl

theorem drainTask_eq (s : State) (n : Nat) : s.drainTask n = { s with tasks := (s.drainTask n).tasks } := by
  unfold State.drainTask
  split <;> try split
  all_goals rfl

/-- A resident task whose threads have all halted is DRAINING afterwards, and any other as before. -/
theorem drainTask_task? {s : State} {n : Nat} {k : Task} (hk : s.task? n = some k) (hst : k.st = .resident) :
    (s.drainTask n).task? k.id = some (if ∀ j ∈ k.sids, (s.sec j).th.halted = true then { k with st := .draining } else k) := by
  have hid := id_of_task? hk
  unfold State.drainTask
  rw [hk]
  simp only [hst, true_and, List.all_eq_true]
  split
  · exact task?_setTask_self (k' := { k with st := .draining }) (by rw [show ({ k with st := .draining } : Task).id = n from hid]; exact hk)
  · rw [hid]; exact hk

/-- Settles O15: the thread stopped, and its task DRAINING when it was the last. -/
theorem haltEndsTheThread : Obligations.HaltEndsTheThread := by
  unfold Obligations.HaltEndsTheThread
  intro s k hk hst hmem
  have hth : s.haltThread.th = { s.th with halted := true, wait := .none, word := none } := th_modTh s _
  have hne : ∀ j, j ≠ s.cur → s.haltThread.sec j = s.sec j := fun j hj => sec_modSec_ne s _ hj
  have htask := drainTask_task? (s := s.haltThread) (n := (s.sec s.cur).task) hk hst
  refine ⟨_, exec_halt s, ?th, ?memory, ?others, ?runs, fun h => ?last, fun h => ?earlier⟩
  case th => rw [drainTask_eq]; exact hth
  case memory => rw [drainTask_eq]; exact fun _ => rfl
  case others => rw [drainTask_eq]; exact hne
  case runs =>
    have : (s.haltThread.drainTask (s.sec s.cur).task).th.halted = true := by rw [drainTask_eq]; exact congrArg Thread.halted hth
    rw [Thread.runs, this, Bool.not_true, Bool.and_false, Bool.false_and, Bool.false_and]
  case last =>
    rw [htask, if_pos]
    intro j hj
    by_cases hc : j = s.cur
    · subst hc; exact congrArg Thread.halted hth
    · rw [hne j hc]; exact h j hj hc
  case earlier =>
    obtain ⟨j, hj, hc, hhalt⟩ := h
    rw [htask, if_neg]
    intro hall
    have := hall j hj
    rw [hne j hc, hhalt] at this
    exact nomatch this

end Sys2Proof.Machine
end

section
/-! PROOFS. Requests for an operating point, and the copies of translations removed (R255 to R258, R369, R400). -/

namespace Sys2Proof.Machine

open Sys2Proof

/-! ### Rails -/

theorem rail_setRail_self (s : State) (g : Nat) (r : Rail) : (s.setRail g r).rail g = r := tab_get_put_self _ _ _ _

theorem rail_setRail_ne (s : State) {g h : Nat} (r : Rail) (hne : h ≠ g) : (s.setRail g r).rail h = s.rail h := tab_get_put_ne _ _ _ hne

theorem rail_modRail_self (s : State) (g : Nat) (f : Rail → Rail) : (s.modRail g f).rail g = f (s.rail g) := rail_setRail_self _ _ _

theorem rail_modRail_ne (s : State) {g h : Nat} (f : Rail → Rail) (hne : h ≠ g) : (s.modRail g f).rail h = s.rail h :=
  rail_setRail_ne _ _ hne

/-- Nothing differs but one rail group. -/
def RailOnly (g : Nat) (s t : State) : Prop := ({ t with rails := s.rails } : State) = s ∧ ∀ h, h ≠ g → t.rail h = s.rail h

theorem railOnly_setRail (s : State) (g : Nat) (r : Rail) : RailOnly g s (s.setRail g r) := ⟨rfl, fun _ h => rail_setRail_ne s r h⟩

theorem railOnly_startMove (s : State) (g : Nat) : RailOnly g s (s.startMove g) := by
  unfold State.startMove
  simp only
  split
  · split
    · exact railOnly_setRail s g _
    · split
      · exact railOnly_setRail s g _
      · split
        · exact railOnly_setRail s g _
        · split <;> exact railOnly_setRail s g _
  · exact ⟨rfl, fun _ _ => rfl⟩

theorem RailOnly.trans {g : Nat} {s t u : State} (h : RailOnly g s t) (h' : RailOnly g t u) : RailOnly g s u :=
  ⟨(congrArg (fun x : State => { x with rails := s.rails }) h'.1).trans h.1, fun k hk => (h'.2 k hk).trans (h.2 k hk)⟩

theorem railOnly_request (s : State) (g t : Nat) (c : BitVec 8) : RailOnly g s (s.request g t c) := by
  unfold State.request
  split
  · exact railOnly_setRail s g _
  · exact (railOnly_setRail s g _).trans (railOnly_startMove _ g)

/-! ### What a request leaves of its group (R255 to R258) -/

section
variable {s : State} {g t : Nat} {c : BitVec 8}

theorem request_notOwned (h : s.whollyOwned g c = false) : (s.request g t c).rail g = { s.rail g with res := 3 } := by
  unfold State.request
  simp only [h, Bool.not_false, if_true]
  exact rail_modRail_self s g _

/-- A request of a group that is wholly owned is noted, and then taken if the group is steady. -/
theorem request_owned (h : s.whollyOwned g c = true) : s.request g t c =
    (s.modRail g fun r => { r with pend := some (t, c), res := if r.pend.isSome then 2 else r.res }).startMove g := by
  unfold State.request
  simp only [h, Bool.not_true, Bool.false_eq_true, if_false]

theorem request_moving (h : s.whollyOwned g c = true) (hmv : (s.rail g).mv ≠ .steady) : (s.request g t c).rail g =
    { s.rail g with pend := some (t, c), res := if (s.rail g).pend.isSome then 2 else (s.rail g).res } := by
  rw [request_owned h, State.startMove]
  simp only [rail_modRail_self]
  split
  · next hst _ => exact absurd hst hmv
  · exact rail_modRail_self s g _

/-- The checks of R258 for a steady group, in their order. -/
theorem request_steady (h : s.whollyOwned g c = true) (hmv : (s.rail g).mv = .steady) : (s.request g t c).rail g =
    if t = (s.rail g).cur then { s.rail g with res := 6, pend := none }
    else if s.sectionsOk g t = false then { s.rail g with res := 4, pend := none }
    else if s.regs.emerg = true ∧ t < (s.rail g).cur then { s.rail g with res := 5, pend := none }
    else { s.rail g with
      pend := none, res := if (s.rail g).pend.isSome then 2 else (s.rail g).res, tgt := t
      mv := if t < (s.rail g).cur then .raiseV (s.cyc + slewCyc t (s.rail g).cur) else .swap } := by
  rw [request_owned h, State.startMove]
  simp only [rail_modRail_self, hmv]
  have howned : (s.modRail g fun r => { r with pend := some (t, c), res := if r.pend.isSome then 2 else r.res }).whollyOwned g c = true := h
  have hsections : (s.modRail g fun r => { r with pend := some (t, c), res := if r.pend.isSome then 2 else r.res }).sectionsOk g t =
    s.sectionsOk g t := rfl
  have hemerg : (s.modRail g fun r => { r with pend := some (t, c), res := if r.pend.isSome then 2 else r.res }).regs.emerg =
    s.regs.emerg := rfl
  simp only [howned, hsections, hemerg, Bool.not_true, Bool.not_eq_true', Bool.false_eq_true, if_false]
  split
  · exact rail_setRail_self _ _ _
  · split
    · exact rail_setRail_self _ _ _
    · split <;> exact rail_setRail_self _ _ _

/-- A point with a lower number has no lower voltage (R19). -/
theorem railMv_antitone {a b : Nat} (h : a ≤ b) : railMv b ≤ railMv a := by
  have hsmall : ∀ b, b < 4 → ∀ a, a ≤ b → railMv b ≤ railMv a := by decide
  rcases Nat.lt_or_ge b 4 with hb | hb
  · exact hsmall b hb a h
  · rw [show railMv b = 0 from List.getD_eq_default _ _ hb]
    exact Nat.zero_le _

theorem slewCyc_up {t cur : Nat} (h : t < cur) : slewCyc t cur = (railMv t - railMv cur) * 47 := by
  have hle := railMv_antitone h.le
  rw [slewCyc, max_eq_left hle, min_eq_right hle]

end

/-! ### pwrq (R255) -/

/-- What `pwrq` does to the rails before its thread goes on. -/
def State.requestOf (s : State) (p : OpPoint) (ra : Reg) : State :=
  match s.requested ra with
  | none => s.modRail (railOf s.cur) fun r => { r with res := 3 }
  | some g => s.request g (opNum p) (s.sec s.cur).ctx

theorem exec_pwrq (p : OpPoint) (ra : Reg) (s : State) : exec (.pwrq p ra) s = .next (s.requestOf p ra).advance := rfl

/-- A value names a group: the own one, or one of the die by its number (R255). -/
theorem requested_named {s : State} {ra : Reg} (h : (s.rdS ra).toNat = 0 ∨ ((s.rdS ra).toNat / 16 % 2 = 1 ∧ (s.rdS ra).toNat < 32)) :
    s.requested ra = some (if (s.rdS ra).toNat = 0 then railOf s.cur else railOf s.cur / 16 * 16 + (s.rdS ra).toNat % 16) := by
  unfold State.requested
  simp only
  rw [if_neg]
  rintro ⟨hne, hbit⟩
  obtain ⟨h16, h32⟩ := h.resolve_left hne
  have hb : bitAt (s.rdS ra).toNat 4 = true := by simp [bitAt, h16]
  rcases hbit with hbit | hbit
  · rw [hb] at hbit
    exact nomatch hbit
  · omega

theorem requested_none {s : State} {ra : Reg} (h0 : (s.rdS ra).toNat ≠ 0)
    (h : (s.rdS ra).toNat / 16 % 2 = 0 ∨ 32 ≤ (s.rdS ra).toNat) : s.requested ra = none := by
  unfold State.requested
  simp only
  rw [if_pos]
  refine ⟨h0, h.imp (fun h16 => ?_) fun h32 => ?_⟩
  · simp [bitAt, h16]
  · omega

theorem railOnly_requestOf (p : OpPoint) (ra : Reg) (s : State) : ∃ g, RailOnly g s (s.requestOf p ra) := by
  unfold State.requestOf
  split
  · exact ⟨_, railOnly_setRail s _ _⟩
  · next g _ => exact ⟨g, railOnly_request s g _ _⟩

/-- Only the rails and the acting thread's program counter change. -/
theorem pwrq_frame (p : OpPoint) (ra : Reg) (s : State) : ∃ t, exec (.pwrq p ra) s = .next t ∧ t.pc = s.pc + 8 ∧
    ThreadOnly { s with rails := t.rails } t ∧ ∀ r, t.rdS r = s.rdS r := by
  obtain ⟨g, hrest, -⟩ := railOnly_requestOf p ra s
  have hu : s.requestOf p ra = { s with rails := (s.requestOf p ra).rails } := by
    exact (congrArg (fun x : State => { x with rails := (s.requestOf p ra).rails }) hrest : _)
  refine ⟨_, exec_pwrq p ra s, ?_⟩
  rw [hu]
  obtain ⟨hpc, honly, hth⟩ := advance_spec { s with rails := (s.requestOf p ra).rails }
  refine ⟨hpc, honly, fun r => ?_⟩
  exact congrArg (fun t : Thread => t.rdS r) (th_advance { s with rails := (s.requestOf p ra).rails }) |>.trans rfl

/-- A request that names a group changes that group alone, as the request says. -/
theorem pwrq_named {s : State} {ra : Reg} {g : Nat} (p : OpPoint) (h : s.requested ra = some g) :
    ∃ t, exec (.pwrq p ra) s = .next t ∧ t.rail g = (s.request g (opNum p) (s.sec s.cur).ctx).rail g ∧ ∀ k, k ≠ g → t.rail k = s.rail k := by
  refine ⟨_, exec_pwrq p ra s, ?_⟩
  have hu : s.requestOf p ra = s.request g (opNum p) (s.sec s.cur).ctx := by rw [State.requestOf, h]
  rw [hu]
  exact ⟨rfl, (railOnly_request s g _ _).2⟩

theorem pwrq_unnamed {s : State} {ra : Reg} (p : OpPoint) (h : s.requested ra = none) :
    ∃ t, exec (.pwrq p ra) s = .next t ∧ t.rail (railOf s.cur) = { s.rail (railOf s.cur) with res := 3 } ∧
      ∀ k, k ≠ railOf s.cur → t.rail k = s.rail k := by
  refine ⟨_, exec_pwrq p ra s, ?_⟩
  have hu : s.requestOf p ra = s.modRail (railOf s.cur) fun r => { r with res := 3 } := by rw [State.requestOf, h]
  rw [hu]
  exact ⟨rail_modRail_self s (railOf s.cur) fun r => { r with res := 3 }, (railOnly_setRail s _ _).2⟩

/-! ### tinv (R369, R400) -/

/-- Sectors of a list changed by a change that is the same twice as once. -/
theorem sec_modSecs {f : Sector → Sector} (hf : ∀ x, f (f x) = f x) (s : State) (ks : List Nat) (j : Nat) :
    (s.modSecs ks f).sec j = if j ∈ ks then f (s.sec j) else s.sec j := by
  unfold State.modSecs
  induction ks generalizing s with
  | nil => simp
  | cons k ks ih =>
    rw [List.foldl_cons, ih, sec_modSec]
    by_cases hk : j = k
    · subst hk; simp [hf]
    · simp [hk, List.mem_cons]

theorem modSecs_cur (s : State) (ks : List Nat) (f : Sector → Sector) : (s.modSecs ks f).cur = s.cur := by rw [modSecs_eq]

/-- A translation copy kept by an invalidation: one that it does not name. -/
theorem entry_filter (e : Option Nat) (named : Nat → Bool) :
    (match e with | some k => if named k then none else some k | none => none) = e.filter fun k => !named k := by
  cases e with
  | none => rfl
  | some k => cases h : named k <;> simp [Option.filter, h]

theorem forget_port (x : Sector) (named : Nat → Bool) (q : Nat) :
    (x.forget named).port q = { x.port q with entry := (x.port q).entry.filter fun k => !named k } := by
  have h := tab_get_map (fun p : PortSt => { p with entry := match p.entry with | some k => if named k then none else some k | none => none })
    {} x.ports q
  exact h.trans (by rw [entry_filter]; rfl)

theorem mem_forget_rcache (x : Sector) (named : Nat → Bool) (k : Nat) : k ∈ (x.forget named).rcache ↔ k ∈ x.rcache ∧ named k = false := by
  show k ∈ x.rcache.filter _ ↔ _
  rw [List.mem_filter, Bool.not_eq_true']

theorem forget_forget (x : Sector) (named : Nat → Bool) : (x.forget named).forget named = x.forget named := by
  unfold Sector.forget
  simp only [List.filter_filter, Bool.and_self, List.map_map, Sector.mk.injEq, true_and, and_true]
  refine List.map_congr_left fun p _ => ?_
  simp only [Function.comp]
  cases p.2.entry with
  | none => rfl
  | some k => cases h : named k <;> simp [h]

/-- The copies of a context's translations in one edge TLB, without those named. -/
theorem forgetTlb_get (s : State) (die d : Nat) (c : BitVec 8) (named : Nat → Bool) :
    Tab.get [] (s.forgetTlb die c named).edgeTlb d =
      if d = die then (Tab.get [] s.edgeTlb d).filter fun e => !(e.1 == c.toNat && named e.2) else Tab.get [] s.edgeTlb d := by
  unfold State.forgetTlb
  by_cases h : d = die
  · subst h; simp
  · simp [h, tab_get_put_ne]

theorem forgetTlbs_get (s : State) (ds : List Nat) (d : Nat) (c : BitVec 8) (named : Nat → Bool) :
    Tab.get [] (ds.foldl (fun (u : State) d => u.forgetTlb d c named) s).edgeTlb d =
      if d ∈ ds then (Tab.get [] s.edgeTlb d).filter fun e => !(e.1 == c.toNat && named e.2) else Tab.get [] s.edgeTlb d := by
  induction ds generalizing s with
  | nil => simp
  | cons k ds ih =>
    rw [List.foldl_cons, ih, forgetTlb_get]
    by_cases hk : d = k
    · subst hk; simp [List.filter_filter]
    · simp [hk]

theorem forgetTlbs_eq (s : State) (ds : List Nat) (c : BitVec 8) (named : Nat → Bool) : ∃ e,
    ds.foldl (fun (u : State) d => u.forgetTlb d c named) s = { s with edgeTlb := e } := by
  induction ds generalizing s with
  | nil => exact ⟨_, rfl⟩
  | cons k ds ih => exact ih (s.forgetTlb k c named)

theorem tinvNamed_iff (s : State) (ra : Reg) (k : Nat) : s.tinvNamed ra k = true ↔
    ra = 0 ∨ ((s.rdS ra).toNat < 2 ^ 55 ∧ ∃ e, findRt (s.ctx (s.sec s.cur).ctx).rt (s.rdS ra).toNat = some (k, e)) := by
  unfold State.tinvNamed
  by_cases h0 : ra = 0
  · simp [h0]
  · rw [if_neg h0]
    cases hf : findRt (s.ctx (s.sec s.cur).ctx).rt (s.rdS ra).toNat with
    | none => simp only [h0, false_or, Bool.false_eq_true, reduceCtorEq, exists_false, and_false]
    | some p =>
      simp only [h0, false_or, Bool.and_eq_true, isVirt, decide_eq_true_eq, beq_iff_eq, Option.some.injEq]
      exact and_congr_right fun _ => ⟨fun hk => ⟨p.2, by rw [hk]⟩, fun ⟨e, he⟩ => by rw [he]⟩

/-- The sectors after an invalidation, before its thread goes on. -/
def State.invalidated (s : State) (sc : Scope) (ra : Reg) : State :=
  (s.modSecs (s.tinvSids sc) fun x => x.forget (s.tinvNamed ra)).modSecs (s.tinvThreads sc) Sector.refetch

theorem exec_tinv (sc : Scope) (ra : Reg) (s : State) : exec (.tinv sc ra) s =
    .next ((s.tinvDies sc).foldl (fun (u : State) d => u.forgetTlb d (s.sec s.cur).ctx (s.tinvNamed ra)) (s.invalidated sc ra)).advance := rfl

theorem invalidated_sec (s : State) (sc : Scope) (ra : Reg) (j : Nat) : (s.invalidated sc ra).sec j =
    (if j ∈ s.tinvThreads sc then Sector.refetch else id) (if j ∈ s.tinvSids sc then (s.sec j).forget (s.tinvNamed ra) else s.sec j) := by
  unfold State.invalidated
  rw [sec_modSecs (f := Sector.refetch) (fun _ => rfl), sec_modSecs (fun x => forget_forget x _)]
  split <;> rfl

/-- The thread of a sector after an invalidation: its held block goes where the scope reaches it (R400). -/
theorem invalidated_th (s : State) (sc : Scope) (ra : Reg) (j : Nat) : ((s.invalidated sc ra).sec j).th =
    { (s.sec j).th with fblk := if j ∈ s.tinvThreads sc then none else (s.sec j).th.fblk } := by
  rw [invalidated_sec]
  split <;> split <;> rfl

theorem invalidated_copies (s : State) (sc : Scope) (ra : Reg) (j : Nat) :
    ((s.invalidated sc ra).sec j).rcache = (if j ∈ s.tinvSids sc then (s.sec j).forget (s.tinvNamed ra) else s.sec j).rcache ∧
    ((s.invalidated sc ra).sec j).ports = (if j ∈ s.tinvSids sc then (s.sec j).forget (s.tinvNamed ra) else s.sec j).ports := by
  rw [invalidated_sec]
  split <;> exact ⟨rfl, rfl⟩

/-- R369, R400: what `tinv` leaves, by the sectors, threads and dies that its scope reaches. -/
theorem tinv_spec (sc : Scope) (ra : Reg) (s : State) : ∃ t, exec (.tinv sc ra) s = .next t ∧ t.pc = s.pc + 8 ∧ KeepsMemory s t ∧
    (∀ r, t.rdS r = s.rdS r) ∧
    (∀ j ∈ s.tinvSids sc, (∀ k, k ∈ (t.sec j).rcache ↔ k ∈ (s.sec j).rcache ∧ s.tinvNamed ra k = false) ∧
      ∀ q, (t.sec j).port q = { (s.sec j).port q with entry := ((s.sec j).port q).entry.filter fun k => !s.tinvNamed ra k }) ∧
    (∀ j, j ∉ s.tinvSids sc → (t.sec j).rcache = (s.sec j).rcache ∧ (t.sec j).ports = (s.sec j).ports) ∧
    (∀ j ∈ s.tinvThreads sc, (t.sec j).th.fblk = none) ∧ (∀ j, j ∉ s.tinvThreads sc → j ≠ s.cur → (t.sec j).th = (s.sec j).th) ∧
    (∀ d ∈ s.tinvDies sc, ∀ e, e ∈ Tab.get [] t.edgeTlb d ↔
      e ∈ Tab.get [] s.edgeTlb d ∧ ¬(e.1 = (s.sec s.cur).ctx.toNat ∧ s.tinvNamed ra e.2 = true)) ∧
    (∀ d, d ∉ s.tinvDies sc → Tab.get [] t.edgeTlb d = Tab.get [] s.edgeTlb d) := by
  have hinv : s.invalidated sc ra = { s with sectors := (s.invalidated sc ra).sectors } := by
    unfold State.invalidated
    rw [modSecs_eq, modSecs_eq s]
  have hget := fun d => forgetTlbs_get (s.invalidated sc ra) (s.tinvDies sc) d (s.sec s.cur).ctx (s.tinvNamed ra)
  obtain ⟨e, he⟩ := forgetTlbs_eq (s.invalidated sc ra) (s.tinvDies sc) (s.sec s.cur).ctx (s.tinvNamed ra)
  have hexec := exec_tinv sc ra s
  rw [he] at hget hexec
  have hcur : (s.invalidated sc ra).cur = s.cur := by rw [hinv]
  have hedge : (s.invalidated sc ra).edgeTlb = s.edgeTlb := by rw [hinv]
  rw [hedge] at hget
  have hth := invalidated_th s sc ra
  -- the thread's going on changes its own sector's thread alone
  have hadv : ∀ j, ({ s.invalidated sc ra with edgeTlb := e } : State).advance.sec j =
      if j = s.cur then { (s.invalidated sc ra).sec j with
        th := { ((s.invalidated sc ra).sec j).th with pc := ((s.invalidated sc ra).sec j).th.pc + 8, wait := .none, word := none } }
      else (s.invalidated sc ra).sec j := fun j => by
    refine (sec_modSec _ _ _ _).trans ?_
    rw [show ({ s.invalidated sc ra with edgeTlb := e } : State).cur = s.cur from hcur]
    rfl
  have hcopies : ∀ j, (({ s.invalidated sc ra with edgeTlb := e } : State).advance.sec j).rcache = ((s.invalidated sc ra).sec j).rcache ∧
      (({ s.invalidated sc ra with edgeTlb := e } : State).advance.sec j).ports = ((s.invalidated sc ra).sec j).ports := fun j => by
    rw [hadv]
    split <;> exact ⟨rfl, rfl⟩
  have hthread : ({ s.invalidated sc ra with edgeTlb := e } : State).advance.th =
      { s.th with fblk := ((s.invalidated sc ra).sec s.cur).th.fblk, pc := s.pc + 8, wait := .none, word := none } := by
    show (State.sec _ (s.invalidated sc ra).cur).th = _
    rw [hcur, hadv, if_pos rfl, hth]
    rfl
  refine ⟨_, hexec, congrArg Thread.pc hthread, ?memory, fun r => (congrArg (fun t : Thread => t.rdS r) hthread).trans rfl, ?named, ?kept, ?blocks, ?threads, ?dies, ?edges⟩
  case memory => exact rdByte_congr (show (s.invalidated sc ra).mem = s.mem by rw [hinv])
  case named =>
    intro j hj
    obtain ⟨hr, hp⟩ := hcopies j
    obtain ⟨hr', hp'⟩ := invalidated_copies s sc ra j
    rw [if_pos hj] at hr' hp'
    exact ⟨fun k => by rw [hr, hr', mem_forget_rcache], fun q => by rw [Sector.port, hp, hp']; exact forget_port _ _ q⟩
  case kept =>
    intro j hj
    obtain ⟨hr', hp'⟩ := invalidated_copies s sc ra j
    rw [if_neg hj] at hr' hp'
    exact ⟨(hcopies j).1.trans hr', (hcopies j).2.trans hp'⟩
  case blocks =>
    intro j hj
    rw [hadv]
    split <;> simp only [hth, if_pos hj]
  case threads =>
    intro j hj hne
    rw [hadv, if_neg hne, hth, if_neg hj]
  case dies =>
    intro d hd x
    have hx := (hget d).trans (if_pos hd)
    show x ∈ Tab.get [] e d ↔ _
    rw [show Tab.get [] e d = _ from hx, List.mem_filter, Bool.not_eq_true', ← Bool.not_eq_true, Bool.and_eq_true, beq_iff_eq]
  case edges => exact fun d hd => (hget d).trans (if_neg hd)

/-- Settles O16: the request's checks in their order, and the copies removed by what each scope reaches. -/
theorem powerRequestsAndInvalidations : Obligations.PowerRequestsAndInvalidations := by
  unfold Obligations.PowerRequestsAndInvalidations
  refine ⟨fun p ra s => ?pwrq, fun sc ra s => ?tinv⟩
  case pwrq =>
    intro v own g c r names gives left
    have hgives : names → ∀ x, (s.request g (opNum p) c).rail g = x → gives x := fun hn x hx => by
      obtain ⟨t, ht, hg, hne⟩ := pwrq_named p (requested_named hn)
      exact ⟨t, ht, hg.trans hx, hne⟩
    refine ⟨pwrq_frame p ra s, fun hn ho => ⟨fun hmv => hgives hn _ (request_moving ho hmv), fun hmv hne => ?moves⟩,
      ⟨rfl, rfl, rfl, rfl⟩, fun h0 h => pwrq_unnamed p (requested_none h0 h), fun hn ho => hgives hn _ (request_notOwned ho),
      fun hn ho hmv he => hgives hn _ ((request_steady ho hmv).trans (if_pos he.symm))⟩
    case moves =>
      have hst := (request_steady (t := opNum p) ho hmv).trans (if_neg (Ne.symm hne))
      refine ⟨fun hok => hgives hn _ (hst.trans (if_pos hok)), fun hok hem hlt => hgives hn _ ?_, fun hok hem hlt => hgives hn _ ?_,
        fun hok hlt => hgives hn _ ?_⟩
      · rw [hst, if_neg (by simp [hok]), if_pos ⟨hem, hlt⟩]
      · rw [hst, if_neg (by simp [hok]), if_neg (by simp [hem]), if_pos hlt, slewCyc_up hlt]
      · rw [hst, if_neg (by simp [hok]), if_neg (fun h => Nat.lt_asymm h.2 hlt), if_neg (Nat.lt_asymm hlt)]
  case tinv =>
    have hspec := tinv_spec sc ra s
    cases sc
    all_goals exact ⟨hspec, tinvNamed_iff s ra⟩

end Sys2Proof.Machine
end

section
/-! PROOFS. Barriers and signals of control threads (R33, R219, R220, R383). -/

namespace Sys2Proof.Machine

open Sys2Proof

/-! ### Meetings (R33, R227) -/

theorem Thread.count_counted (t : Thread) (k : Meet) : (t.counted k).count k = t.count k + 1 := tab_get_put_self _ _ _ _

theorem sec_setWait_self (s : State) (w : Wait) : (s.setWait w).sec s.cur = { s.sec s.cur with th := { s.th with wait := w } } :=
  sec_modSec_self _ _ _

theorem sec_setWait_ne (s : State) (w : Wait) {k : Nat} (h : k ≠ s.cur) : (s.setWait w).sec k = s.sec k := sec_modSec_ne _ _ h

theorem gangSids_setWait (s : State) (w : Wait) : (s.setWait w).gangSids = s.gangSids := by
  show (match s.task? ((s.setWait w).sec s.cur).task with | some t => t.sids | none => [s.cur]) = _
  rw [sec_setWait_self]; rfl

theorem instSids_setWait (s : State) (w : Wait) : (s.setWait w).instSids = s.instSids := by
  show (match s.task? ((s.setWait w).sec s.cur).task with
    | some t => (t.insts.getD ((s.setWait w).sec s.cur).inst {}).sids | none => [s.cur]) = _
  rw [sec_setWait_self]; rfl

/-- Once the acting thread waits in a word, the threads listed have met there exactly when all the others have come. -/
theorem allMet_arrive (s : State) (k : Meet) (sids : List Nat) :
    (s.setWait (.met k.code (s.th.count k + 1))).allMet sids k (s.th.count k + 1) = true ↔
      ∀ j ∈ sids, j ≠ s.cur → (s.sec j).th.reached k (s.th.count k + 1) = true := by
  unfold State.allMet
  rw [List.all_eq_true]
  refine forall₂_congr fun j _ => ?_
  by_cases hj : j = s.cur
  · subst hj
    simp [sec_setWait_self, Thread.reached]
  · simp [hj, sec_setWait_ne]

theorem exec_gbar (s : State) (h : s.writesDone s.cur = true) : exec .gbar s = .next
    (let n := s.th.count .gbar + 1
     let u := s.setWait (.met 0 n)
     if u.allMet s.gangSids .gbar n then (u.modTh fun t => t.counted .gbar).advance else u) := by
  show execGbar s = _
  rw [execGbar, h, ← gangSids_setWait s (.met 0 (s.th.count .gbar + 1))]
  exact (apply_ite Host.Outcome.next _ _ _).symm

/-! ### Parts of a run of bytes -/

/-- Bytes within a run hold the bits of its number that stand there. -/
theorem HoldsAt.slice {t : State} {a n v : Nat} (h : HoldsAt t a n v) (k m x : Nat) (hk : k + m ≤ n)
    (hx : v / 2 ^ (8 * k) % 2 ^ (8 * m) = x % 2 ^ (8 * m)) : HoldsAt t (a + k) m x := by
  have byte : ∀ y i, i < m → y / 2 ^ (8 * i) % 256 = y % 2 ^ (8 * m) / 2 ^ (8 * i) % 256 := by
    intro y i hi
    have e : 2 ^ (8 * m) = 2 ^ (8 * i) * (256 * 2 ^ (8 * (m - i - 1))) := by
      rw [show (256 : Nat) = 2 ^ 8 from rfl, ← Nat.pow_add, ← Nat.pow_add]; congr 1; omega
    rw [e, Nat.mod_mul_right_div_self, Nat.mod_mul_right_mod]
  intro i hi
  rw [Nat.add_assoc, h (k + i) (by omega), Nat.mul_add, Nat.pow_add, ← Nat.div_div_eq_div_mul, byte _ i hi, hx, ← byte x i hi]

/-- A store of two runs, one behind the other. -/
theorem holdsAt_store_append (s : State) (a n v w m : Nat) :
    let u := s.store a (bytesOf n v ++ bytesOf m w)
    HoldsAt u a n v ∧ HoldsAt u (a + n) m w := by
  refine ⟨fun i hi => ?_, fun i hi => ?_⟩
  · rw [rdByte_store, if_pos (by simp; omega), Nat.add_sub_cancel_left, List.getD_append _ _ _ _ (by simpa using hi), bytesOf_getD n v i hi]
  · rw [rdByte_store, if_pos (by simp; omega), List.getD_append_right _ _ _ _ (by simp; omega), bytesOf_length,
      show a + n + i - a - n = i by omega, bytesOf_getD m w i hi]

/-! ### Signals (R220, R383) -/

theorem sigBytes_eq (s : State) (n : BitVec 8) : ((s.sigWords n).flatMap fun w => bytesOf 8 w.toNat) =
    bytesOf 8 (s.cyc % 2 ^ 64) ++ bytesOf 8 (((s.task? (s.sec s.cur).task).map Task.idx).getD 0 % 2 ^ 24 * 2 ^ 40 +
      n.toNat * 2 ^ 32 + s.cur % 256 * 2 ^ 24 + s.ctxId.toNat * 2 ^ 16) := by
  have hn := n.isLt
  have hc := s.ctxId.isLt
  simp only [State.sigWords, List.flatMap_cons, List.flatMap_nil, List.append_nil, State.cycW, recWord2, BitVec.toNat_ofNat]
  congr 2
  show (_ + s.ctxId.toNat * 2 ^ 16 + 0) % _ = _
  omega

/-- The record that a sig appends. -/
def State.sigRec (s : State) (n : BitVec 8) : Rec := { ctx := s.ctxId, sig := true, words := s.sigWords n, task := (s.sec s.cur).task }

theorem exec_sig (n : BitVec 8) (s : State) (hf : (s.ctx s.ctxId).sr.full = false) (hw : s.writesDone s.cur = true) :
    exec (.sig n) s = .next (let p := s.postRec (s.sigRec n); if p.2 then p.1.advance else p.1) := by
  show execSig n s = _
  rw [execSig, hf, hw]
  rfl

theorem exec_sig_waits (n : BitVec 8) (s : State) (h : ((s.ctx s.ctxId).sr.full || !s.writesDone s.cur) = true) :
    exec (.sig n) s = .next s := if_pos h

section
variable {s : State} {r : Rec} (hf : ((s.ctx r.ctx).ring r.sig).full = false)
include hf

/-- A record that reaches its place is stored there, and TAIL and the vector follow. -/
theorem postRec_stored {t : Tgt} (hva : ((s.ctx r.ctx).ring r.sig).next r.sig < 2 ^ 55)
    (hx : s.xlateV r.ctx (((s.ctx r.ctx).ring r.sig).next r.sig) .write = .ok t) (hb : s.storeBarred t (recSize r.sig) = false)
    (hu : s.unreachable t = false) (hq : Quiet s) :
    s.postRec r = ((((s.touch t).endLink (whoRing r.ctx r.sig)).store t.phys (r.words.flatMap fun w => bytesOf 8 w.toNat)).ringOn r, true) := by
  simp only [State.postRec, hf, hva, hx, hb, hu, strike_quiet hq, Bool.false_eq_true, if_false, if_true]

/-- A record whose append faults ends its context. -/
theorem postRec_faults {t : Tgt} (h : let va := ((s.ctx r.ctx).ring r.sig).next r.sig
    2 ^ 55 ≤ va ∨ s.xlateV r.ctx va .write = .fault ∨ s.xlateV r.ctx va .write = .perm ∨
      (s.xlateV r.ctx va .write = .ok t ∧ s.storeBarred t (recSize r.sig) = true)) :
    s.postRec r = (s.endCtx r.ctx, true) := by
  rcases Nat.lt_or_ge (((s.ctx r.ctx).ring r.sig).next r.sig) (2 ^ 55) with hlt | hge
  · obtain h | hx | hx | ⟨hx, hb⟩ := h
    · omega
    all_goals simp only [State.postRec, hf, hlt, hx, Bool.false_eq_true, if_false, if_true]
    rw [if_pos hb]
  · simp only [State.postRec, hf, if_neg (Nat.not_lt.mpr hge), Bool.false_eq_true, if_false]

end

theorem endLink_ctx (s : State) (who : Nat) (c : BitVec 8) : (s.endLink who).ctx c = s.ctx c := rfl
theorem endLink_mem (s : State) (who : Nat) : (s.endLink who).mem = s.mem := rfl
theorem endLink_sectors (s : State) (who : Nat) : (s.endLink who).sectors = s.sectors := rfl
theorem endLink_cur (s : State) (who : Nat) : (s.endLink who).cur = s.cur := rfl
theorem advance_ctx (s : State) (c : BitVec 8) : s.advance.ctx c = s.ctx c := rfl
theorem store_ctx (s : State) (a : Nat) (l : List Byte) (c : BitVec 8) : (s.store a l).ctx c = s.ctx c := by
  rw [State.ctx, store_ctxs]; rfl
theorem touch_ctx (s : State) (t : Tgt) (c : BitVec 8) : (s.touch t).ctx c = s.ctx c := by
  rw [touch_eq]; rfl
theorem touch_mem (s : State) (t : Tgt) : (s.touch t).mem = s.mem := by
  rw [touch_eq]
theorem ringOn_sectors (s : State) (r : Rec) : (s.ringOn r).sectors = s.sectors := rfl
theorem ringOn_cur (s : State) (r : Rec) : (s.ringOn r).cur = s.cur := rfl
theorem ringOn_mem (s : State) (r : Rec) : (s.ringOn r).mem = s.mem := rfl

theorem ringOn_sr (s : State) {r : Rec} (h : r.sig = true) :
    ((s.ringOn r).ctx r.ctx).sr = { (s.ctx r.ctx).sr with tail := (s.ctx r.ctx).sr.tail + 1 } := by
  show (((s.modCtx r.ctx _).emit _).ctx r.ctx).sr = _
  rw [h]
  exact congrArg Ctx.sr (ctx_setCtx_self s r.ctx _)

theorem th_of_sectors {s w : State} (hs : w.sectors = s.sectors) (hc : w.cur = s.cur) : w.th = s.th := by
  rw [State.th, State.sec, hs, hc]; rfl

theorem HoldsAt.of_mem {t u : State} {a n v : Nat} (h : HoldsAt t a n v) (hm : u.mem = t.mem) : HoldsAt u a n v := fun i hi =>
  (congrArg BitVec.toNat (rdByte_congr hm (a + i))).trans (h i hi)

/-- The bytes of a signal's record (R220). -/
def State.SigBytes (s u : State) (n : BitVec 8) (a : Nat) : Prop :=
  HoldsAt u a 8 (s.cyc % 2 ^ 64) ∧ HoldsAt u (a + 8) 2 0 ∧ HoldsAt u (a + 10) 1 s.ctxId.toNat ∧ HoldsAt u (a + 11) 1 (s.cur % 256) ∧
    HoldsAt u (a + 12) 1 n.toNat ∧ HoldsAt u (a + 13) 3 (((s.task? (s.sec s.cur).task).map Task.idx).getD 0 % 2 ^ 24) ∧ KeepsOutside s u a 16

theorem sigBytes_store {s v u : State} (n : BitVec 8) (a : Nat) (hv : v.mem = s.mem)
    (hu : u.mem = (v.store a ((s.sigWords n).flatMap fun w => bytesOf 8 w.toNat)).mem) : s.SigBytes u n a := by
  have hn := n.isLt
  have hc := s.ctxId.isLt
  have hlen : ((s.sigWords n).flatMap fun w => bytesOf 8 w.toNat).length = 16 := by simp [sigBytes_eq]
  have hout := keepsOutside_store v a ((s.sigWords n).flatMap fun w => bytesOf 8 w.toNat)
  rw [hlen, sigBytes_eq] at hout
  rw [sigBytes_eq] at hu
  unfold State.SigBytes
  generalize ((s.task? (s.sec s.cur).task).map Task.idx).getD 0 = task at *
  obtain ⟨h0, h8⟩ := holdsAt_store_append v a 8 (s.cyc % 2 ^ 64) (task % 2 ^ 24 * 2 ^ 40 + n.toNat * 2 ^ 32 + s.cur % 256 * 2 ^ 24 + s.ctxId.toNat * 2 ^ 16) 8
  replace h0 := h0.of_mem hu
  replace h8 := h8.of_mem hu
  generalize s.ctxId.toNat = c at *
  generalize n.toNat = m at *
  refine ⟨h0, h8.slice 0 2 0 (by omega) (by omega), h8.slice 2 1 _ (by omega) (by omega), h8.slice 3 1 _ (by omega) (by omega),
    h8.slice 4 1 _ (by omega) (by omega), h8.slice 5 3 _ (by omega) (by omega), fun b hb => ?_⟩
  rw [rdByte_congr hu, ← rdByte_congr hv]
  exact hout b hb

/-- The state after a signal's record has been stored. -/
def State.sigStored (s : State) (n : BitVec 8) (t : Tgt) : State :=
  (((s.touch t).endLink (whoRing s.ctxId true)).store t.phys ((s.sigWords n).flatMap fun w => bytesOf 8 w.toNat)).ringOn (s.sigRec n)

/-- What a signal's record leaves at its place, and what it leaves alone. -/
theorem sigStored_spec (s : State) (n : BitVec 8) (t : Tgt) :
    let u := (s.sigStored n t).advance
    u.pc = s.pc + 8 ∧ (u.ctx s.ctxId).sr = { (s.ctx s.ctxId).sr with tail := (s.ctx s.ctxId).sr.tail + 1 } ∧
      s.SigBytes u n t.phys ∧ (∀ r, u.rdS r = s.rdS r) ∧ (∀ j, j ≠ s.cur → u.sec j = s.sec j) := by
  intro u
  have hsec : (s.sigStored n t).sectors = s.sectors := by
    rw [State.sigStored, ringOn_sectors, store_sectors, endLink_sectors]; exact touch_sectors s t
  have hcur : (s.sigStored n t).cur = s.cur := by
    rw [State.sigStored, ringOn_cur, store_cur, endLink_cur]; exact touch_cur s t
  have hth : (s.sigStored n t).th = s.th := th_of_sectors hsec hcur
  obtain ⟨hpc, ⟨-, hne, -, -⟩, -⟩ := advance_spec (s.sigStored n t)
  refine ⟨hpc.trans (by rw [State.pc, hth]; rfl), ?tail, ?bytes, fun r => ?reg, fun j hj => (hne j (by rwa [hcur])).trans ?sec⟩
  case tail =>
    have h := ringOn_sr (((s.touch t).endLink (whoRing s.ctxId true)).store t.phys ((s.sigWords n).flatMap fun w => bytesOf 8 w.toNat))
      (r := s.sigRec n) rfl
    rw [show (s.sigRec n).ctx = s.ctxId from rfl, store_ctx, endLink_ctx, touch_ctx] at h
    rw [advance_ctx]
    exact h
  case bytes => exact sigBytes_store n t.phys ((endLink_mem _ _).trans (touch_mem s t)) (by rw [advance_mem, State.sigStored, ringOn_mem])
  case reg => rw [State.rdS, th_advance, hth]; rfl
  case sec => rw [State.sec, hsec]; rfl

/-- Settles O18: a gbar looks at the other threads of its gang, a sig is one append to the signal ring. -/
theorem barriersAndSignals : Obligations.BarriersAndSignals := by
  unfold Obligations.BarriersAndSignals
  refine ⟨fun n s h => ⟨?_, exec_sig_waits n s (by simp [h])⟩, fun s hw hcur => ?gbar, fun n s t => ?sig⟩
  · show execGbar s = _
    rw [execGbar, h]; rfl
  case gbar =>
    have hmet := allMet_arrive s .gbar s.gangSids
    refine ⟨fun h => ⟨_, (exec_gbar s hw).trans (congrArg _ (if_pos (hmet.2 h))), ?_⟩, fun ⟨k, hk, hne, hr⟩ =>
      waitsFor_of ((exec_gbar s hw).trans (congrArg _ (if_neg fun h => ?_)))⟩
    · rw [State.setWait, State.advance, modTh_modTh, modTh_modTh, State.pc, th_modTh]
      exact ⟨rfl, Thread.count_counted s.th .gbar, rfl, threadOnly_modTh s _⟩
    · rw [hmet.1 h k hk hne] at hr
      exact absurd hr (by decide)
  case sig =>
    refine ⟨fun h => exec_sig_waits n s (by simp [h]), fun hf hw hva hx hb hu hq => ?stored, fun hf hw h => ?faults⟩
    case stored =>
      have hexec : exec (.sig n) s = .next (s.sigStored n t).advance :=
        (exec_sig n s hf hw).trans (by rw [postRec_stored (r := s.sigRec n) hf hva hx hb hu hq]; rfl)
      obtain ⟨hpc, htail, ⟨b0, b8, b10, b11, b12, b13, hout⟩, hreg, hsec⟩ := sigStored_spec s n t
      exact ⟨_, hexec, hpc, htail, b0, b8, b10, b11, b12, b13, hout, hreg, hsec⟩
    case faults => exact (exec_sig n s hf hw).trans (by rw [postRec_faults (r := s.sigRec n) hf h]; rfl)

end Sys2Proof.Machine
end

section
/-! PROOFS. The ring words (R272, R318, R319). -/

namespace Sys2Proof.Machine

open Sys2Proof

/-! ### The ring header -/

section
variable {s : State} {d : Desc} (h : RingReady s d)
include h

theorem ringPtrs_ready : s.ringPtrs d = (ringFill s d, ringFree s d) := by
  obtain ⟨-, -, hr⟩ := h
  simp only [State.ringPtrs, hr, Bool.false_eq_true, if_false]
  rfl

theorem ringOk_ready (k : Res State) : s.ringOk d k = k := by
  obtain ⟨ht, hp, -⟩ := h
  simp only [State.ringOk, ht, ne_eq, not_true, hp, Bool.false_eq_true, if_false]

/-- A ring wait on a header that it may read. -/
theorem rwait_ready (rd : Reg) (n : Word) (fill : Bool) {used : Word} (hu : used = ringFill s d - ringFree s d) : s.rwait rd d n fill =
    (if d.ringN < n.toNat then .trap .handle n
     else if d.ringN < used.toNat then .trap .handle used
     else if (if fill then used.toNat else d.ringN - used.toNat) < n.toNat then .hold
     else .ok (s.wrS rd (if fill then ringFree s d else ringFill s d)).advance) := by
  rw [State.rwait, ringOk_ready h, ringPtrs_ready h, hu]

/-- A ring advance on a header that it may write, once the thread's own writes are performed. -/
theorem radv_ready (hw : s.writesDone s.cur = true) (rd : Reg) (n : Word) (fill : Bool) {used : Nat} (hu : used = (ringFill s d - ringFree s d).toNat) :
    s.radv rd d n fill =
    (let a := scratchAt s.cur d.ringHdr
     if d.ringN < used ∨ (if fill then d.ringN < used + n.toNat else used < n.toNat) then .trap .handle (Config.freeWord s.fresh)
     else if fill then .ok ((s.wrWord a (ringFill s d + n)).wrS rd (ringFill s d)).advance
     else .ok ((s.wrWord (a + 8) (ringFree s d + n)).wrS rd (ringFree s d)).advance) := by
  obtain ⟨-, -, hr⟩ := id h
  subst hu
  cases fill <;> simp [State.radv, ringOk_ready h, ringPtrs_ready h, hw, hr]

end

theorem exec_rwaitFill (rd ra : Reg) (dr : DReg) (s : State) :
    exec (.rwaitFill rd dr ra) s = s.finish (s.rwait rd (s.rdD dr) (s.rdS ra) true) := rfl
theorem exec_rwaitFree (rd ra : Reg) (dr : DReg) (s : State) :
    exec (.rwaitFree rd dr ra) s = s.finish (s.rwait rd (s.rdD dr) (s.rdS ra) false) := rfl

theorem exec_radvFill (rd ra : Reg) (dr : DReg) (s : State) :
    exec (.radvFill rd dr ra) s = s.drawn.finish (s.radv rd (s.rdD dr) (s.rdS ra) true) := rfl
theorem exec_radvFree (rd ra : Reg) (dr : DReg) (s : State) :
    exec (.radvFree rd dr ra) s = s.drawn.finish (s.radv rd (s.rdD dr) (s.rdS ra) false) := rfl

/-! ### What an advance leaves -/

/-- A state with the acting thread as it was, after one scalar register has been written. -/
theorem scalarAfter {s u : State} (h : u.th = s.th) (rd : Reg) (v : Word) :
    let t := (u.wrS rd v).advance
    t.rdS rd = (if rd = 0 then 0 else v) ∧ t.pc = s.pc + 8 ∧ ThreadScalar rd s t := by
  obtain ⟨-, hreg, hth⟩ := scalarFrame_modTh u rd v (s.pc + 8)
  intro t
  have ht : t = u.modTh fun t => t.scalarAt rd v (s.pc + 8) := (wrS_advance u rd v).trans (by rw [show u.pc = s.pc from congrArg Thread.pc h])
  rw [ht]
  refine ⟨rdS_scalarAt u rd v _, pc_scalarAt u rd v _, fun r hr => (hreg r hr).trans (congrArg (fun t => Thread.rdS t r) h), ?_⟩
  rw [← h]
  exact hth

/-- One word of memory written, and the scalar register after it. -/
theorem wordAdvanced (s : State) (a : Nat) (x : Word) (rd : Reg) (v : Word) :
    let t := ((s.wrWord a x).wrS rd v).advance
    t.rdS rd = (if rd = 0 then 0 else v) ∧ t.pc = s.pc + 8 ∧ t.mem = (s.wrWord a x).mem ∧ ThreadScalar rd s t := by
  obtain ⟨hrd, hpc, hth⟩ := scalarAfter (th_of_sectors (store_sectors s a _) (store_cur s a _)) rd v
  exact ⟨hrd, hpc, rfl, hth⟩

theorem keepsOutside_wrWord (s : State) (a : Nat) (x : Word) : KeepsOutside s (s.wrWord a x) a 8 := by
  have h := keepsOutside_store s a (bytesOf 8 x.toNat)
  rwa [bytesOf_length] at h

theorem KeepsOutside.of_mem {s t u : State} {a n : Nat} (h : KeepsOutside s t a n) (hm : u.mem = t.mem) : KeepsOutside s u a n := fun b hb =>
  (rdByte_congr hm b).trans (h b hb)

/-- A refused addition takes HANDLE and keeps memory. -/
theorem radvRefused {s : State} (h : s.th.ts = false) (v : Word) :
    let t := s.drawn.takeTrap .handle v
    t.th.cause = 0x09 ∧ t.th.ts = true ∧ KeepsMemory s t := by
  intro t
  have ht : t = s.drawn.modTh fun t => t.enterTrap s.cyc .handle v := takeTrap_spec s.drawn .handle v h
  have hth : t.th = s.th.enterTrap s.cyc .handle v := by rw [ht, th_modTh]; rfl
  rw [hth]
  exact ⟨rfl, rfl, fun b => rdByte_congr (by rw [ht]; rfl) b⟩

/-- Settles O19: rwait compares the header's two pointers with its count, radv writes one of them. -/
theorem ringsAreWaitedForAndAdvanced : Obligations.RingsAreWaitedForAndAdvanced := by
  unfold Obligations.RingsAreWaitedForAndAdvanced
  refine ⟨fun rd ra dr s => ?wait, fun rd ra dr s => ?advance⟩
  case wait =>
    intro d n used hr
    have hfill := (exec_rwaitFill rd ra dr s).trans (congrArg _ (rwait_ready hr rd n true (used := used) rfl))
    have hfree := (exec_rwaitFree rd ra dr s).trans (congrArg _ (rwait_ready hr rd n false (used := used) rfl))
    refine ⟨fun h => ⟨traps_of hfill (if_pos h), traps_of hfree (if_pos h)⟩, fun h hu => ?range, fun h hu => ?filled, fun h hu hd => ?empty,
      fun h => ?free, fun h hu hd => ?full⟩
    case range =>
      have : ∀ r : Res State, (if d.ringN < n.toNat then .trap .handle n else if d.ringN < used.toNat then .trap .handle used else r) =
          .trap .handle used := fun r => by rw [if_neg (by omega), if_pos hu]
      exact ⟨traps_of hfill (this _), traps_of hfree (this _)⟩
    case filled =>
      exact writesScalar_of (w := ringFree s d) (by
        rw [hfill, if_neg (by omega), if_neg (by omega), if_neg (by simp; omega)]; rfl) rfl
    case empty =>
      rw [Waits, hfill, if_neg (by omega), if_neg (by omega), if_pos (by simp; omega), finish_hold]
    case free =>
      exact writesScalar_of (w := ringFill s d) (by
        rw [hfree, if_neg (by omega), if_neg (by omega), if_neg (by simp; omega)]; rfl) rfl
    case full =>
      rw [Waits, hfree, if_neg (by omega), if_neg (by omega), if_pos (by simp; omega), finish_hold]
  case advance =>
    intro d n used h hr hw
    have hfill := (exec_radvFill rd ra dr s).trans (congrArg _ (radv_ready hr hw rd n true (used := used) rfl))
    have hfree := (exec_radvFree rd ra dr s).trans (congrArg _ (radv_ready hr hw rd n false (used := used) rfl))
    refine ⟨fun hu => ?fill, fun hn hu => ?free, fun hu ht => ⟨_, hfill.trans (congrArg _ (if_pos (Or.inr hu))), radvRefused ht _⟩,
      fun hu ht => ⟨_, hfree.trans (congrArg _ (if_pos hu.symm)), radvRefused ht _⟩⟩
    case fill =>
      obtain ⟨hrd, hpc, hmem, hth⟩ := wordAdvanced s h (ringFill s d + n) rd (ringFill s d)
      refine ⟨_, hfill.trans (congrArg _ ((if_neg ?_).trans (if_pos rfl))), hpc, hrd, ?_, ?_, (keepsOutside_wrWord s h _).of_mem hmem, hth⟩
      · simp only [if_true]; omega
      · rw [rdWord_congr hmem, rdWord_wrWord_self]
      · rw [rdWord_congr hmem, rdWord_wrWord_ne _ _ _ _ (by omega)]; rfl
    case free =>
      obtain ⟨hrd, hpc, hmem, hth⟩ := wordAdvanced s (h + 8) (ringFree s d + n) rd (ringFree s d)
      refine ⟨_, hfree.trans (congrArg _ ((if_neg ?_).trans (if_neg (by decide)))), hpc, hrd, ?_, ?_, (keepsOutside_wrWord s (h + 8) _).of_mem hmem, hth⟩
      · simp only [Bool.false_eq_true, if_false]; omega
      · rw [rdWord_congr hmem, rdWord_wrWord_self]
      · rw [rdWord_congr hmem, rdWord_wrWord_ne _ _ _ _ (by omega)]; rfl

end Sys2Proof.Machine
end

section
/-! PROOFS. The tmap words (R297 to R301). -/

namespace Sys2Proof.Machine

open Sys2Proof

/-! ### The frame of an access -/

theorem AccessFrame.cur {s u : State} (h : AccessFrame s u) : u.cur = s.cur := by
  obtain ⟨hrest, -⟩ := h
  exact (congrArg State.cur hrest :)

theorem accessFrame_reached (s : State) (t : Tgt) : AccessFrame s (s.reached t) := by
  obtain ⟨hrest, hflash⟩ := reached_rest s t
  refine ⟨?_, hflash, fun k hk => reached_sec_ne s t hk, ?_⟩
  · exact congrArg (fun u : State => { u with mem := s.mem, poison := s.poison }) hrest
  · exact congrArg (fun x : Sector => { x with th := (s.sec s.cur).th }) (reached_sec_self s t)

theorem accessFrame_refl (s : State) : AccessFrame s s := ⟨rfl, rfl, fun _ _ => rfl, rfl⟩

/-- The acting thread may change at the end of an access. -/
theorem AccessFrame.modTh {s u : State} (h : AccessFrame s u) (f : Thread → Thread) : AccessFrame s (u.modTh f) := by
  have hc := h.cur
  obtain ⟨hrest, hflash, hne, hself⟩ := h
  refine ⟨hrest, hflash, fun k hk => (sec_modSec_ne u _ (by rwa [hc])).trans (hne k hk), ?_⟩
  have hs : (u.modTh f).sec s.cur = { u.sec s.cur with th := f (u.sec s.cur).th } := by rw [← hc]; exact sec_modSec_self _ _ _
  rw [hs]
  exact hself

/-! ### A descriptor written -/

theorem wrD_advance (s : State) (d : DReg) (v : Desc) :
    (s.wrD d v).advance = s.modTh fun t => { t.wrD d v with pc := t.pc + 8, wait := .none, word := none } := modTh_modTh s _ _

/-- A word that writes a descriptor at the end of an access which kept memory and the thread. -/
theorem writesDesc_of {s u : State} {i : Instr} {d : DReg} {v : Desc} (h : exec i s = .next (u.wrD d v).advance) (hf : AccessFrame s u)
    (hth : u.th = s.th) (hm : u.mem = s.mem) : WritesDesc s i d v := by
  rw [wrD_advance] at h
  refine ⟨_, h, ?_, ?_, fun e he => ?_, ?_, fun b => rdByte_congr hm b, hf.modTh _⟩
  · rw [State.rdD, th_modTh]
    exact (rdD_wrD _ _ _ _).trans (if_pos rfl)
  · rw [State.pc, th_modTh, hth]; rfl
  · rw [State.rdD, th_modTh, hth]
    exact (rdD_wrD _ _ _ _).trans (if_neg he)
  · rw [th_modTh, hth]; rfl

/-! ### The image of a tmap (R297) -/

/-- The 64 bytes at an address, read as an image. -/
def State.imageAt (s : State) (ea : Word) (k : State → Pay → Res State) : Res State :=
  s.place ea 64 .read (fun _ => false)
    (fun u t => if u.tgtPoison t 64 then .trap .poison ea else k u (BitVec.ofNat 512 (natOf (u.rdTgt t 64)))) (poisonTrap ea)

theorem image_addr (s : State) (ra : Reg) (k : State → Pay → Res State) : s.image (.addr ra) k = s.imageAt (s.rdS ra) k := rfl

theorem image_const {s : State} {o : Obj} (ho : s.ownObj = some o) {off : BitVec 15} (h : off.toNat * 64 + 64 ≤ o.constSize)
    (k : State → Pay → Res State) : s.image (.const off) k = s.imageAt (o.va + BitVec.ofNat 64 (o.constOff + off.toNat * 64)) k := by
  simp only [State.image, ho, if_neg (Nat.not_lt.mpr h)]
  rfl

theorem image_const_outside {s : State} {off : BitVec 15} (h : ∀ o, s.ownObj = some o → o.constSize < off.toNat * 64 + 64)
    (k : State → Pay → Res State) : s.image (.const off) k = .trap .handle 0x1FF := by
  rw [State.image]
  cases ho : s.ownObj with
  | none => rfl
  | some o => exact if_pos (h o ho)

theorem imageAt_reaches {s : State} {ea : Word} {t : Tgt} (h : Reaches s ea 64 .read t) (hp : s.tgtPoison t 64 = false)
    (k : State → Pay → Res State) : s.imageAt ea k = k (s.reached t) (BitVec.ofNat 512 (natOf (s.rdTgt t 64))) := by
  rw [State.imageAt, place_reaches h _ rfl, reached_tgtPoison, hp, reached_rdTgt]
  rfl

theorem imageAt_poison {s : State} {ea : Word} {t : Tgt} (h : Reaches s ea 64 .read t) (hp : s.tgtPoison t 64 = true)
    (k : State → Pay → Res State) : s.imageAt ea k = .trap .poison ea := by
  rw [State.imageAt, place_reaches h _ rfl, reached_tgtPoison, hp]
  rfl

/-! ### The words that form descriptors -/

section
variable (dr dn : DReg) (src : TmapSrc) (ra : Reg) (s : State)

theorem exec_tmap : exec (.tmap dr src) s = s.form dr src 1 Desc.plainBad := rfl
theorem exec_tmapPat : exec (.tmapPat dr src) s = s.form dr src 2 Desc.patBad := rfl
theorem exec_tmapRing : exec (.tmapRing dr src) s = s.form dr src 4 Desc.ringBad := rfl
theorem exec_tmapWin : exec (.tmapWin dr src) s = s.form dr src 1 Desc.winBad := rfl
theorem exec_tmapCopy : exec (.tmapCopy dr dn ra) s = s.finish (if s.rdS ra = 0 then .ok (s.wrD dr (s.rdD dn)).advance
    else if (s.rdD dn).tag ≠ 1 then .trap .handle ((s.rdD dn).tag.setWidth 64)
    else .ok (s.wrD dr ((s.rdD dn).addBase (s.rdS ra))).advance) := rfl

end

/-- A tmap whose image has been read forms its descriptor or names the image's first failing word. -/
theorem form_of {s : State} {i : Instr} {dr : DReg} {src : TmapSrc} {tag : BitVec 4} {bad : Desc → Option Nat} {t : Tgt} {img : Pay}
    (h : exec i s = s.form dr src tag bad) (hi : ∀ k, s.image src k = k (s.reached t) img) :
    (bad ⟨tag, img⟩ = none → WritesDesc s i dr ⟨tag, img⟩) ∧
      ∀ k, bad ⟨tag, img⟩ = some k → Traps s i .handle (BitVec.ofNat 64 (0x100 + k)) := by
  rw [State.form, hi] at h
  refine ⟨fun hb => ?_, fun k hb => traps_of h (by simp only [hb])⟩
  simp only [hb] at h
  exact writesDesc_of h (accessFrame_reached s t) (reached_th s t) (reached_mem s t)

/-- A tmap whose image cannot be read takes the trap of the read. -/
theorem form_traps {s : State} {dr : DReg} {src : TmapSrc} {c : Cause} {v : Word} (hi : ∀ k, s.image src k = .trap c v) :
    ∀ i ∈ [Instr.tmap dr src, .tmapPat dr src, .tmapRing dr src, .tmapWin dr src], Traps s i c v := by
  have each : ∀ {i tag bad}, exec i s = s.form dr src tag bad → Traps s i c v := fun h => traps_of h (hi _)
  simp only [List.forall_mem_cons]
  exact ⟨each (exec_tmap dr src s), each (exec_tmapPat dr src s), each (exec_tmapRing dr src s), each (exec_tmapWin dr src s),
    List.forall_mem_nil _⟩

/-- The tail of an image kept and a number added to its base. -/
theorem addBase_eq {d : Desc} (ht : d.tag = 1) (v : Word) :
    d.addBase v = ⟨1, (d.img >>> 64 <<< 64) ||| (d.img.setWidth 64 + v).setWidth 512⟩ := by
  have hb : BitVec.ofNat 64 d.base = d.img.setWidth 64 := by
    apply BitVec.eq_of_toNat_eq
    rw [Desc.base, Desc.fld, bitsAt, BitVec.toNat_ofNat, BitVec.toNat_setWidth]
    simp
  have hhigh : (d.img >>> 64 <<< 64).toNat = 2 ^ 64 * (d.img.toNat / 2 ^ 64) := by
    rw [BitVec.toNat_shiftLeft, BitVec.toNat_ushiftRight, Nat.shiftLeft_eq, Nat.shiftRight_eq_div_pow, Nat.mul_comm,
      Nat.mod_eq_of_lt (Nat.lt_of_le_of_lt (Nat.mul_div_le _ _) d.img.isLt)]
  have hlow : ((d.img.setWidth 64 + v).setWidth 512).toNat = (d.img.setWidth 64 + v).toNat := by
    rw [BitVec.toNat_setWidth, Nat.mod_eq_of_lt (Nat.lt_of_lt_of_le (BitVec.isLt _) (Nat.pow_le_pow_right (by omega) (by omega)))]
  have hsum : d.img.toNat / 2 ^ 64 * 2 ^ 64 + (d.img.setWidth 64 + v).toNat =
      ((d.img >>> 64 <<< 64) ||| (d.img.setWidth 64 + v).setWidth 512).toNat := by
    rw [BitVec.toNat_or, hhigh, hlow, ← Nat.two_pow_add_eq_or_of_lt (BitVec.isLt _), Nat.mul_comm]
  rw [Desc.addBase, ht, hb, hsum, BitVec.ofNat_toNat, BitVec.setWidth_eq]

/-- Settles O20: each tmap word reads its image at one place and checks it. -/
theorem descriptorsAreFormed : Obligations.DescriptorsAreFormed := by
  unfold Obligations.DescriptorsAreFormed
  intro dr dn ra s t img made all trap
  have hall : ∀ src, (∀ k, s.image src k = k (s.reached t) img) → all src := fun src h =>
    ⟨form_of (exec_tmap dr src s) h, form_of (exec_tmapPat dr src s) h, form_of (exec_tmapRing dr src s) h, form_of (exec_tmapWin dr src s) h⟩
  have hcopy := exec_tmapCopy dr dn ra s
  refine ⟨fun h => ⟨fun hp => hall _ (imageAt_reaches h hp), fun hp => form_traps (imageAt_poison h hp)⟩, ?const,
    fun off h => form_traps (image_const_outside h), fun h0 => ?same, fun ht h0 => ?added, fun ht h0 => traps_of hcopy (by rw [if_neg h0, if_pos ht])⟩
  case const =>
    intro o off ho hoff a h
    have himg : ∀ k, s.image (.const off) k = s.imageAt a k := image_const ho hoff
    exact ⟨fun hp => hall _ fun k => (himg k).trans (imageAt_reaches h hp k), fun hp => form_traps fun k => (himg k).trans (imageAt_poison h hp k)⟩
  case same =>
    rw [if_pos h0] at hcopy
    exact writesDesc_of hcopy (accessFrame_refl s) rfl rfl
  case added =>
    rw [if_neg h0, if_neg (not_not.mpr ht), addBase_eq ht] at hcopy
    exact writesDesc_of hcopy (accessFrame_refl s) rfl rfl

end Sys2Proof.Machine
end

section
/-! PROOFS. The version words of control threads (R284, R291 to R293). -/

namespace Sys2Proof.Machine

open Sys2Proof

/-! ### Changes of memory alone -/

/-- Nothing differs but memory with its poison. -/
def MemOnly (s u : State) : Prop := ({ u with mem := s.mem, poison := s.poison } : State) = s

theorem MemOnly.trans {s t u : State} (h : MemOnly s t) (g : MemOnly t u) : MemOnly s u :=
  (congrArg (fun x : State => ({ x with mem := s.mem, poison := s.poison } : State)) g).trans h

theorem memOnly_store (s : State) (a : Nat) (l : List Byte) : MemOnly s (s.store a l) := by
  rw [store_eq]; rfl

theorem MemOnly.launches {s u : State} (h : MemOnly s u) : u.launches = s.launches := (congrArg State.launches h :)

theorem MemOnly.th {s u : State} (h : MemOnly s u) : u.th = s.th := (congrArg State.th h :)

theorem AccessFrame.mem {s u w : State} (h : AccessFrame s u) (g : MemOnly u w) : AccessFrame s w := by
  obtain ⟨hrest, hflash, hne, hself⟩ := h
  have hs : ∀ k, w.sec k = u.sec k := fun k => (congrArg (fun x : State => x.sec k) g :)
  refine ⟨?_, ?_, fun k hk => (hs k).trans (hne k hk), by rw [hs]; exact hself⟩
  · exact (congrArg (fun x : State =>
      ({ x with sectors := s.sectors, flash := s.flash, mem := s.mem, poison := s.poison } : State)) g).trans hrest
  · exact (congrArg (fun x : State => ({ x.flash with staged := s.flash.staged } : Flash)) g).trans hflash

/-- The end of a word whose access changed memory and left its thread alone. -/
theorem advancedAfter {s w : State} (hf : AccessFrame s w) (hth : w.th = s.th) :
    w.advance.pc = s.pc + 8 ∧ ThreadPc s w.advance ∧ AccessFrame s w.advance := by
  refine ⟨?_, ?_, hf.modTh _⟩
  · rw [State.pc, th_advance, hth]; rfl
  · rw [ThreadPc, th_advance, hth]

/-! ### A version's line -/

theorem memOnly_wrWord (s : State) (a : Nat) (v : Word) : MemOnly s (s.wrWord a v) := memOnly_store s a _

theorem memOnly_vCreate (s : State) (line : Nat) (v : Word) : MemOnly s (s.vCreate line v) := (memOnly_wrWord ..).trans (memOnly_wrWord ..)

theorem vNext_lt (s : State) (line : Nat) : s.vNext line < 2 ^ 64 := BitVec.isLt _
theorem vFloor_lt (s : State) (line : Nat) : s.vFloor line < 2 ^ 64 := BitVec.isLt _

theorem KeepsOutside.trans {s t u : State} {a n : Nat} (h : KeepsOutside s t a n) (g : KeepsOutside t u a n) : KeepsOutside s u a n :=
  fun b hb => (g b hb).trans (h b hb)

theorem KeepsOutside.mono {s t : State} {a n b m : Nat} (h : KeepsOutside s t a n) (hl : b ≤ a) (hr : a + n ≤ b + m) : KeepsOutside s t b m :=
  fun c hc => h c (by omega)

theorem keepsOutside_reached (s : State) (t : Tgt) {u : State} {a n : Nat} (h : KeepsOutside (s.reached t) u a n) : KeepsOutside s u a n :=
  fun b hb => (h b hb).trans (keepsMemory_reached s t b)

theorem vCreate_spec (s : State) (line : Nat) (v : Word) (h : s.vNext line + 1 < 2 ^ 64) :
    let u := s.vCreate line v
    u.vNext line = s.vNext line + 1 ∧ u.vVal line (s.vNext line) = v ∧ u.vFloor line = s.vFloor line ∧ KeepsOutside s u line 64 := by
  have hmod := Nat.mod_lt (s.vNext line) (by decide : 0 < 4)
  refine ⟨?_, ?_, ?_, ?_⟩
  · rw [State.vCreate, State.vNext, rdWord_wrWord_self, BitVec.toNat_ofNat, Nat.mod_eq_of_lt h]
  · rw [State.vCreate, State.vVal, rdWord_wrWord_ne _ _ _ _ (by omega), rdWord_wrWord_self]
  · rw [State.vCreate, State.vFloor, rdWord_wrWord_ne _ _ _ _ (by omega), rdWord_wrWord_ne _ _ _ _ (by omega)]; rfl
  · exact ((keepsOutside_wrWord s _ v).mono (by omega) (by omega)).trans ((keepsOutside_wrWord _ line _).mono (by omega) (by omega))

theorem vRetire_spec (s : State) (line v : Nat) :
    let u := s.vRetire line v
    u.vFloor line = max (s.vFloor line) (min v (s.vNext line)) ∧ u.vNext line = s.vNext line ∧ KeepsOutside s u (line + 8) 8 := by
  have hlt : max (s.vFloor line) (min v (s.vNext line)) < 2 ^ 64 :=
    Nat.max_lt.mpr ⟨vFloor_lt s line, Nat.lt_of_le_of_lt (Nat.min_le_right _ _) (vNext_lt s line)⟩
  refine ⟨?_, ?_, keepsOutside_wrWord s _ _⟩
  · rw [State.vRetire, State.vFloor, rdWord_wrWord_self, BitVec.toNat_ofNat, Nat.mod_eq_of_lt hlt]
  · rw [State.vRetire, State.vNext, rdWord_wrWord_ne _ _ _ _ (by omega)]; rfl

/-! ### What waits for versions (R183) -/

section
variable {s : State} (h : NoLaunchWaits s)
include h

theorem settleN_noWaits (n : Nat) (lines : List Nat) : State.settleN n lines s = s := by
  cases n with
  | zero => rfl
  | succ n =>
    have hmap : (s.launches.map fun (l : Launch) => if l.st = LaunchSt.depwait then s.depStep (s.depOn l.ctx lines) l else l) = s.launches := by
      rw [List.map_congr_left fun l hl => if_neg (h l hl).1, List.map_id']
    have hfold : ∀ l : List Launch, (∀ k ∈ l, k ∈ s.launches) →
        l.foldl (fun (s : State) (l : Launch) => if l.st = LaunchSt.closing then s.closeLaunch l else s) s = s := by
      intro l hl
      induction l with
      | nil => rfl
      | cons k l ih =>
        rw [List.foldl_cons, if_neg (h k (hl k List.mem_cons_self)).2]
        exact ih fun j hj => hl j (List.mem_cons_of_mem _ hj)
    simp only [State.settleN, hmap, hfold s.launches fun _ hk => hk, if_true]

theorem settleAt_noWaits (lines : List Nat) : s.settleAt lines = s := by
  simp only [State.settleAt, settleN_noWaits h, if_true]

end

theorem NoLaunchWaits.of_launches {s u : State} (h : NoLaunchWaits s) (e : u.launches = s.launches) : NoLaunchWaits u := fun l hl => h l (e ▸ hl)

/-- A line's words do not depend on the acting thread. -/
theorem advance_lineWords (s : State) (line : Nat) :
    s.advance.vNext line = s.vNext line ∧ s.advance.vFloor line = s.vFloor line ∧ ∀ v, s.advance.vVal line v = s.vVal line v :=
  ⟨rfl, rfl, fun _ => rfl⟩

/-! ### The access to an object -/

section
variable {s : State} {ea : Word} {acc : Acc} {t : Tgt} (k : State → Tgt → Res State)

theorem object_reaches (h : Reaches s ea 8 acc t) (hv : t.ver = true) (hp : s.poisonIn t.line 64 = false) : s.object ea acc k = k (s.reached t) t := by
  rw [State.object, place_reaches h _ (by simp [hv]), reached_poisonIn, hp]
  rfl

theorem object_poison (h : Reaches s ea 8 acc t) (hv : t.ver = true) (hp : s.poisonIn t.line 64 = true) : s.object ea acc k = .trap .poison ea := by
  rw [State.object, place_reaches h _ (by simp [hv]), reached_poisonIn, hp]
  rfl

theorem object_unversioned (h : Reaches s ea 8 acc t) (hv : t.ver = false) : s.object ea acc k = .trap .permission ea := by
  obtain ⟨halign, hx, -⟩ := h
  exact place_barred halign hx _ (by simp [hv]) ..

theorem object_misaligned (h : ea.toNat % 8 ≠ 0) : s.object ea acc k = .trap .misaligned ea := place_misaligned h ..

theorem object_fault (h : ea.toNat % 8 = 0) (hx : s.xlate s.ctxId s.cur ea acc = .fault) : s.object ea acc k = .trap .xlateFault ea :=
  place_fault h hx ..

theorem object_perm (h : ea.toNat % 8 = 0) (hx : s.xlate s.ctxId s.cur ea acc = .perm) : s.object ea acc k = .trap .permission ea :=
  place_perm h hx ..

end

section
variable (sc : Scope) (rd ra rb : Reg) (s : State)

theorem exec_ldv : exec (.ldv sc rd ra rb) s = s.finish (s.object (s.rdS ra) .read fun u t =>
    let v := (s.rdS rb).toNat
    if v < u.vFloor t.line then .trap .versionRetired (s.rdS rb)
    else if v < u.vNext t.line then .ok (u.wrS rd (u.vVal t.line v)).advance
    else .hold) := rfl

theorem exec_stv : exec (.stv sc ra rb) s = s.finish (s.object (s.rdS ra) .both fun u t =>
    if u.vFull t.line || !u.writesDone u.cur then .hold else .ok (u.makeVersion t (s.rdS rb)).advance) := rfl

theorem exec_vrcl : exec (.vrcl ra rb) s = s.finish (s.object (s.rdS ra) .both fun u t =>
    .ok ((u.vRetire t.line (s.rdS rb).toNat).settle).advance) := rfl

end

/-- Settles O10: the words read or write the pointers of one line, once they have reached it. -/
theorem versionsAreCreatedReadAndRetired : Obligations.VersionsAreCreatedReadAndRetired := by
  unfold Obligations.VersionsAreCreatedReadAndRetired
  intro sc rd ra rb s t v
  have hldv := exec_ldv sc rd ra rb s
  have hstv := exec_stv sc ra rb s
  have hvrcl := exec_vrcl ra rb s
  obtain ⟨hnext, hfloor, hval⟩ := reached_mem_words s t t.line
  have owns : ∀ {c : Cause}, (∀ k, s.object (s.rdS ra) .both k = .trap c (s.rdS ra)) →
      Traps s (.stv sc ra rb) c (s.rdS ra) ∧ Traps s (.vrcl ra rb) c (s.rdS ra) := fun h => ⟨traps_of hstv (h _), traps_of hvrcl (h _)⟩
  refine ⟨fun hr hv hp => ?read, fun hr hv hp => ⟨fun hf hw hlt hn => ?create, fun hf => ?full, fun hn => ?retire⟩,
    fun t hr hv => traps_of hldv (object_unversioned _ hr hv), fun t hr hv => owns fun k => object_unversioned k hr hv,
    fun h => ⟨traps_of hldv (object_misaligned _ h), owns fun k => object_misaligned k h⟩,
    fun h => ⟨fun hx => traps_of hldv (object_fault _ h hx), fun hx => traps_of hldv (object_perm _ h hx),
      fun hx => owns fun k => object_fault k h hx, fun hx => owns fun k => object_perm k h hx⟩,
    fun hr hv hp => traps_of hldv (object_poison _ hr hv hp), fun hr hv hp => owns fun k => object_poison k hr hv hp⟩
  case read =>
    rw [object_reaches _ hr hv hp] at hldv
    simp only [hfloor, hnext, hval] at hldv
    refine ⟨fun hlo hhi => ?_, fun hlt => traps_of hldv (if_pos hlt), fun hlo hhi => ?_⟩
    · rw [if_neg (Nat.not_lt.mpr hlo), if_pos hhi] at hldv
      exact ⟨_, hldv, keepsMemory_reached s t, accessed_reached s t rd _⟩
    · rw [Waits, hldv, if_neg (Nat.not_lt.mpr hlo), if_neg (Nat.not_lt.mpr hhi), finish_hold]
  case create =>
    have hgo : ((s.reached t).vFull t.line || !(s.reached t).writesDone (s.reached t).cur) = false := by
      rw [State.vFull, hnext, hfloor, State.writesDone, reached_dups, reached_cur, ← State.writesDone, hw]
      simpa using hf
    have hmem := memOnly_vCreate (s.reached t) t.line (s.rdS rb)
    have hmake : (s.reached t).makeVersion t (s.rdS rb) = (s.reached t).vCreate t.line (s.rdS rb) :=
      settleAt_noWaits (hn.of_launches (hmem.launches.trans (reached_launches s t))) _
    rw [object_reaches _ hr hv hp, hgo, hmake] at hstv
    obtain ⟨hpc, hth, hframe⟩ := advancedAfter ((accessFrame_reached s t).mem hmem) (hmem.th.trans (reached_th s t))
    obtain ⟨n1, n2, n3, n4⟩ := vCreate_spec (s.reached t) t.line (s.rdS rb) (by rw [hnext]; exact hlt)
    obtain ⟨a1, a2, a3⟩ := advance_lineWords ((s.reached t).vCreate t.line (s.rdS rb)) t.line
    rw [hnext] at n1 n2
    exact ⟨_, hstv, hpc, a1.trans n1, (a3 _).trans n2, (a2.trans n3).trans hfloor,
      (keepsOutside_reached s t n4).of_mem (advance_mem _), hth, hframe⟩
  case full =>
    rw [object_reaches _ hr hv hp] at hstv
    rw [Waits, hstv, if_pos, finish_hold]
    simp [State.vFull, hnext, hfloor, hf]
  case retire =>
    have hmem : MemOnly (s.reached t) ((s.reached t).vRetire t.line v) := memOnly_wrWord ..
    have hsettle : ((s.reached t).vRetire t.line v).settle = (s.reached t).vRetire t.line v :=
      settleAt_noWaits (hn.of_launches (hmem.launches.trans (reached_launches s t))) _
    rw [object_reaches _ hr hv hp, hsettle] at hvrcl
    obtain ⟨hpc, hth, hframe⟩ := advancedAfter ((accessFrame_reached s t).mem hmem) (hmem.th.trans (reached_th s t))
    obtain ⟨n1, n2, n3⟩ := vRetire_spec (s.reached t) t.line v
    obtain ⟨a1, a2, -⟩ := advance_lineWords ((s.reached t).vRetire t.line v) t.line
    rw [hnext, hfloor] at n1
    exact ⟨_, hvrcl, hpc, a2.trans n1, (a1.trans n2).trans hnext, (keepsOutside_reached s t n3).of_mem (advance_mem _), hth, hframe⟩

end Sys2Proof.Machine
end

section
/-! PROOFS. Shadow loads of control threads (R225, R226, R236). -/

namespace Sys2Proof.Machine

open Sys2Proof

/-- What a load leaves in its sector: the share COMPLETE, or an EMPTY shadow. -/
def Sector.withLoad (x : Sector) (h : Option Share) : Sector :=
  { x with shadow := h, shSt := if h = none then .empty else .complete, badShadow := [] }

/-- A load that meets no error writes the shadow of its sector, and gives the report. -/
theorem loadShadow_quiet {s : State} (h : s.upsets = []) (sid : Nat) (r : Word × Option Share) :
    s.loadShadow sid r = (r.1, s.modSec sid fun x => x.withLoad r.2) := by
  obtain ⟨v, o⟩ := r
  cases o with
  | none => rfl
  | some h' => simp only [State.loadShadow, h, List.find?_nil]; rfl

theorem exec_cfgld_tag {s : State} {rd ra : Reg} {dr : DReg} (h : (s.rdD dr).tag ≠ tagObject) :
    exec (.cfgld rd dr ra) s = s.finish (.trap .handle ((s.rdD dr).tag.setWidth 64)) := by
  show execCfgld rd dr ra s = _
  rw [execCfgld, if_pos h]
  rfl

section
variable {s : State} {rd ra : Reg} {dr : DReg} {k : Task} {o : Obj}

/-- cfgld of an object in a gang with a sealed object: its checks in their order (R225, R236). -/
theorem exec_cfgld (ht : (s.rdD dr).tag = tagObject) (hk : s.task? (s.sec s.cur).task = some k) (ho : s.ownObj = some o) :
    exec (.cfgld rd dr ra) s = s.finish (
      let m := o.images.getD (s.rdS ra).toNat {}
      if !k.images.contains (s.rdS ra).toNat then .trap .handle (s.rdS ra)
      else if s.ownInst.host.isSome then .trap .handle 0
      else if m.w ≠ s.ownInst.w ∨ m.h ≠ s.ownInst.h then .trap .handle (s.rdS ra)
      else if (s.sec s.cur).shSt = .armed ∨ (s.rail (railOf s.cur)).mv ≠ .steady then .hold
      else
        let r := s.loadShadow s.cur (s.checkShare k o s.cur (s.rdS ra).toNat (s.sec s.cur).phase)
        .ok (r.2.wrS rd r.1).advance) := by
  show execCfgld rd dr ra s = _
  simp only [execCfgld, hk, ho, ht, ne_eq, not_true, if_false]

end

/-- What a cfgld that loads leaves: the report in its register, the share in the shadow of its own sector. -/
theorem loaded_spec (s : State) (r : Word × Option Share) (rd : Reg) :
    let t := ((s.modSec s.cur fun x => x.withLoad r.2).wrS rd r.1).advance
    t.rdS rd = (if rd = 0 then 0 else r.1) ∧ t.pc = s.pc + 8 ∧ (t.sec s.cur).act = (s.sec s.cur).act ∧ (t.sec s.cur).shadow = r.2 ∧
      (t.sec s.cur).shSt = (if r.2 = none then .empty else .complete) ∧ KeepsMemory s t ∧ ThreadScalar rd s t ∧
      ∀ j, j ≠ s.cur → t.sec j = s.sec j := by
  have hself : (s.modSec s.cur fun x => x.withLoad r.2).sec s.cur = (s.sec s.cur).withLoad r.2 := sec_modSec_self ..
  obtain ⟨hrd, hpc, hth⟩ := scalarAfter ((congrArg Sector.th hself).trans rfl) rd r.1
  have hsec : ∃ th, (((s.modSec s.cur fun x => x.withLoad r.2).wrS rd r.1).advance).sec s.cur = { (s.sec s.cur).withLoad r.2 with th := th } := by
    rw [wrS_advance]
    exact ⟨_, (sec_modSec_self _ s.cur _).trans (by rw [hself])⟩
  obtain ⟨th, hsec⟩ := hsec
  refine ⟨hrd, hpc, by rw [hsec]; rfl, by rw [hsec]; rfl, by rw [hsec]; rfl, fun a => rdByte_congr rfl a, hth, fun j hj => ?_⟩
  rw [wrS_advance]
  exact (sec_modSec_ne _ _ hj).trans (sec_modSec_ne _ _ hj)

/-- Settles O21: the checks of cfgld in their order, and the one change of its sector. -/
theorem shadowLoads : Obligations.ShadowLoads := by
  unfold Obligations.ShadowLoads
  refine ⟨?loads, ?refuses⟩
  case loads =>
    intro rd dr ra s k o img x r ht hk ho hi hh hw hht ha hm hu
    obtain ⟨hrd, hpc, hact, hshadow, hst, hmem, hth, hother⟩ := loaded_spec s r rd
    have hgo : ¬(x.shSt = .armed ∨ (s.rail (railOf s.cur)).mv ≠ .steady) := by simp [ha, hm]
    refine ⟨_, (exec_cfgld ht hk ho).trans ?_, hrd, hpc, hact, hshadow, hst, hmem, hth, hother⟩
    rw [if_neg (by rw [hi]; decide), if_neg (by rw [hh]; decide), if_neg (fun h => h.elim (· hw) (· hht)), if_neg hgo, loadShadow_quiet hu]
    rfl
  case refuses =>
    intro rd dr ra s k o img x i
    refine ⟨fun h => traps_of (exec_cfgld_tag h) rfl, fun ht hk ho => ?_⟩
    have he : exec i s = _ := exec_cfgld ht hk ho
    refine ⟨fun hi => traps_of he (if_pos (by rw [hi]; rfl)), fun hi hh => ?host, fun hi hh hs => ?shape, fun hi hh hw hht hb => ?waits⟩
    all_goals rw [if_neg (by rw [hi]; decide)] at he
    case host => exact traps_of he (if_pos (Option.isSome_iff_ne_none.mpr hh))
    all_goals rw [if_neg (by rw [hh]; decide)] at he
    case shape => exact traps_of he (if_pos hs)
    case waits => rw [Waits, he, if_neg (fun h => h.elim (· hw) (· hht)), if_pos hb, finish_hold]

end Sys2Proof.Machine
end

section
/-! PROOFS. Why the statement on the meetings of an instance fails (R227, R232). -/

namespace Sys2Proof.Machine

open Sys2Proof

/-- A thread of sector 0 whose task has no image instance: the sector names instance 0, which is outside the task's list. -/
def State.withoutInst : State := { tasks := [{ id := 0, launch := 0, ctx := 0, idx := 0 }] }

theorem lastToMeet_withoutInst : LastToMeet State.withoutInst .sdrain := by
  refine ⟨by decide, by decide, fun v => by simp [State.withoutInst, State.th, State.sec, Tab.get], fun j hj hne => ?_⟩
  have h0 : State.withoutInst.instSids = [0] := by decide
  rw [h0, List.mem_singleton] at hj
  exact absurd hj hne

/-- Refutes O22: an instance that its task does not list cannot note a drain, so after the last thread's sdrain DRAIN of the acting instance is still 0. -/
theorem not_instanceMeetings : ¬ Obligations.InstanceMeetings := by
  unfold Obligations.InstanceMeetings
  rintro ⟨-, h⟩
  obtain ⟨-, -, h⟩ := h 0 State.withoutInst (by decide) (by decide)
  obtain ⟨⟨u, hu, -, -, ⟨-, hdrain, -⟩⟩, -⟩ := h lastToMeet_withoutInst
  have hd : (match exec (.sdrain 0) State.withoutInst with | .next u => u.ownInst.drain | _ => 0) = 0 := by decide
  rw [hu] at hd
  have h2 : u.ownInst.drain = 2 := hdrain _ (by rfl : State.withoutInst.task? 0 = some _)
  exact absurd (hd.symm.trans h2) (by decide)

end Sys2Proof.Machine
end

section
/-! PROOFS. Bindings of ports (R211, R212, R303, R367). -/

namespace Sys2Proof.Machine

open Sys2Proof

theorem sec_modTh_self (s : State) (f : Thread → Thread) : (s.modTh f).sec s.cur = { s.sec s.cur with th := f (s.sec s.cur).th } :=
  sec_modSec_self _ _ _

/-! ### Changes of one port -/

/-- A port of a sector stands as given, and nothing else differs but the counter of identities. -/
structure PortOnly (s : State) (sid q : Nat) (x : PortSt) (t : State) : Prop where
  rest : ({ t with sectors := s.sectors, nextId := s.nextId } : State) = s
  other : ∀ j, j ≠ sid → t.sec j = s.sec j
  self : ({ t.sec sid with ports := (s.sec sid).ports } : Sector) = s.sec sid
  port : t.port sid q = x
  ports : ∀ j, j ≠ q → t.port sid j = s.port sid j

theorem port_setPort_self (x : Sector) (q : Nat) (p : PortSt) : (x.setPort q p).port q = p := tab_get_put_self _ _ _ _

theorem port_setPort_ne (x : Sector) {q j : Nat} (p : PortSt) (h : j ≠ q) : (x.setPort q p).port j = x.port j := tab_get_put_ne _ _ _ h

theorem port_modPort_self (s : State) (sid q : Nat) (g : PortSt → PortSt) : (s.modPort sid q g).port sid q = g (s.port sid q) := by
  rw [State.port, State.modPort, sec_modSec_self, port_setPort_self]; rfl

theorem port_modPort_ne (s : State) (sid : Nat) {q j : Nat} (g : PortSt → PortSt) (h : j ≠ q) : (s.modPort sid q g).port sid j = s.port sid j := by
  rw [State.port, State.modPort, sec_modSec_self, port_setPort_ne _ _ h]; rfl

theorem modPort_congr (s : State) {sid q : Nat} {f g : PortSt → PortSt} (h : f (s.port sid q) = g (s.port sid q)) :
    s.modPort sid q f = s.modPort sid q g := by
  unfold State.modPort State.modSec
  exact congrArg (fun p => s.setSec sid ((s.sec sid).setPort q p)) h

namespace PortOnly
variable {s t : State} {sid q : Nat} {x : PortSt}

theorem start (s : State) (sid q n : Nat) : PortOnly s sid q (s.port sid q) { s with nextId := n } := ⟨rfl, fun _ _ => rfl, rfl, rfl, fun _ _ => rfl⟩

/-- One more change of the same port. -/
theorem modPort (h : PortOnly s sid q x t) (g : PortSt → PortSt) : PortOnly s sid q (g x) (t.modPort sid q g) where
  rest := h.rest
  other j hj := (sec_modSec_ne t _ hj).trans (h.other j hj)
  self := by
    rw [State.modPort, sec_modSec_self]
    exact h.self
  port := (port_modPort_self t sid q g).trans (congrArg g h.port)
  ports j hj := (port_modPort_ne t sid g hj).trans (h.ports j hj)

theorem mem (h : PortOnly s sid q x t) : t.mem = s.mem := (congrArg State.mem h.rest :)
theorem cur (h : PortOnly s sid q x t) : t.cur = s.cur := (congrArg State.cur h.rest :)
theorem thread (h : PortOnly s sid q x t) : (t.sec sid).th = (s.sec sid).th := (congrArg Sector.th h.self :)

theorem th (h : PortOnly s s.cur q x t) : t.th = s.th := by rw [State.th, h.cur]; exact h.thread

/-- Which bytes an entry queue reserves does not depend on the ports. -/
theorem reserved (h : PortOnly s sid q x t) (a n : Nat) : t.reserved a n = s.reserved a n := by
  have hfloor : ∀ k, t.queueFloor k = s.queueFloor k := by
    intro k
    have htask : ∀ n, t.task? n = s.task? n := fun n => (congrArg (fun u : State => u.task? n) h.rest :)
    by_cases hk : k = sid
    · subst hk
      rw [State.queueFloor, State.queueFloor, ← h.self]
      simp only [htask]
    · simp only [State.queueFloor, h.other k hk, htask]
  simp only [State.reserved, hfloor]

theorem plan (h : PortOnly s sid q x t) (k : Nat) (b : Bind) (pos : Nat) : t.plan k b pos = s.plan k b pos := by
  have hpush : ∀ die j, t.pushProg die j = s.pushProg die j := fun die j => (congrArg (fun u : State => u.pushProg die j) h.rest :)
  have hpoison : ∀ d, t.indexPoison k d pos = s.indexPoison k d pos := fun d => (congrArg (fun u : State => u.indexPoison k d pos) h.rest :)
  have hbytes : ∀ a n, t.rdBytes a n = s.rdBytes a n := fun a n => rdBytes_congr a n fun b _ _ => rdByte_congr h.mem b
  have hindex : ∀ d, t.indexAt k d = s.indexAt k d := fun d => funext fun i => by simp only [State.indexAt, h.reserved, hbytes]
  simp only [State.plan, hpush, hpoison, hindex]

theorem entryIdx (h : PortOnly s sid q x t) (va : Word) : t.entryIdx sid va = s.entryIdx sid va := by
  have hc : (t.sec sid).ctx = (s.sec sid).ctx := (congrArg Sector.ctx h.self :)
  have hx : t.ctx (s.sec sid).ctx = s.ctx (s.sec sid).ctx := (congrArg (fun u : State => u.ctx (s.sec sid).ctx) h.rest :)
  rw [State.entryIdx, hc, hx]; rfl

/-- The port of the acting sector changed, and the acting thread after it. -/
theorem after (h : PortOnly s s.cur q x t) (f : Thread → Thread) :
    (t.modTh f).port s.cur q = x ∧ (∀ j, j ≠ q → (t.modTh f).port s.cur j = s.port s.cur j) ∧ (∀ j, j ≠ s.cur → (t.modTh f).sec j = s.sec j) := by
  have hs : ∀ j, (t.modTh f).port s.cur j = t.port s.cur j := fun j => by
    rw [State.port, ← h.cur]
    exact (congrArg (fun x : Sector => x.port j) (sec_modTh_self t f)).trans rfl
  exact ⟨(hs q).trans h.port, fun j hj => (hs j).trans (h.ports j hj),
    fun j hj => (sec_modSec_ne t _ (by rwa [h.cur])).trans (h.other j hj)⟩

end PortOnly

/-! ### The port entry (R367) -/

/-- The entry of the range table that a binding's first element lies in. -/
def State.firstEntry (s : State) (sid : Nat) (b : Bind) : Option Nat :=
  if b.gather then none else ((s.plan sid b 0).pieces.findSome? Piece.addr?).bind fun va =>
    if va.toNat < 2 ^ 55 then s.entryIdx sid va else none

theorem filterMap_take_one (l : List Piece) :
    ((l.filter fun p => p.addr?.isSome).take 1).filterMap Piece.addr? = (l.findSome? Piece.addr?).toList := by
  induction l with
  | nil => rfl
  | cons p l ih =>
    cases h : p.addr? with
    | none => simpa [h] using ih
    | some va => simp [h]

theorem PortOnly.noteFirst {s t : State} {sid q : Nat} {x : PortSt} (h : PortOnly s sid q x t) (b : Bind) :
    PortOnly s sid q { x with entry := (s.firstEntry sid b).orElse fun _ => x.entry } (t.noteFirst sid q b) := by
  have same : PortOnly s sid q { x with entry := (none : Option Nat).orElse fun _ => x.entry } t := h
  rw [State.noteFirst, State.firstEntry]
  cases hg : b.gather with
  | true => exact same
  | false =>
    simp only [Bool.false_eq_true, if_false, State.noteEntry, filterMap_take_one, h.plan]
    cases (s.plan sid b 0).pieces.findSome? Piece.addr? with
    | none => exact same
    | some va =>
      simp only [Option.toList_some, List.foldl_cons, List.foldl_nil, Option.bind_some, State.noteAddr, isVirt, h.entryIdx, Bool.not_eq_true',
        decide_eq_false_iff_not]
      by_cases hv : va.toNat < 2 ^ 55
      · rw [if_neg (not_not.mpr hv), if_pos hv]
        cases s.entryIdx sid va with
        | none => exact same
        | some i => exact h.modPort fun p => { p with entry := some i }
      · rw [if_pos hv, if_neg hv]
        exact same

/-! ### sbind (R212, R303) -/

/-- A binding given to a port: active where it has none, else pending. -/
def PortSt.bound (p : PortSt) (b : Bind) : PortSt :=
  if p.act = none then { p with act := some b, eosd := p.eosd && !b.write } else { p with pend := some b }

section
variable {q : Port} {dr : DReg} {ra : Reg} {eos : Bool} {s : State}

theorem exec_sbindRd : exec (.sbindRd q dr ra eos) s = s.finish (s.sbind q (s.rdD dr) (s.rdS ra) false eos) := rfl
theorem exec_sbindWr : exec (.sbindWr q dr ra) s = s.finish (s.sbind q (s.rdD dr) (s.rdS ra) true false) := rfl

variable {d : Desc} {v : Word} {write : Bool}

/-- The binding that an sbind gives (R212). -/
def State.newBind (s : State) (d : Desc) (v : Word) (write eos : Bool) : Bind := { desc := d, base := v, write := write, eos := eos, id := s.nextId }

/-- The four checks of a binding, in their order (R303). -/
def State.bindOk (s : State) (q : Port) (d : Desc) (v : Word) (write : Bool) : Prop :=
  (d.tag = 1 ∨ d.tag = 2) ∧ d.bindAligned v = true ∧ s.bindPattern d q v write = true ∧ d.bindIndex write = true

theorem sbind_ok (h : s.bindOk q d v write) : s.sbind q d v write eos =
    if ((s.port s.cur q.toNat).act.isSome && (s.port s.cur q.toNat).pend.isSome) || !s.writesDone s.cur then .hold
    else
      let b := s.newBind d v write eos
      .ok ((({ s with nextId := s.nextId + 1 } : State).modPort s.cur q.toNat fun p => (p.bound b)).noteFirst s.cur q.toNat b).advance := by
  obtain ⟨ht, ha, hp, hi⟩ := h
  have ht' : ¬(d.tag ≠ tagTmap ∧ d.tag ≠ tagPattern) := fun ⟨h1, h2⟩ => ht.elim h1 h2
  simp only [State.sbind, if_neg ht', ha, hp, hi, Bool.not_true, Bool.false_eq_true, if_false]
  have hmod : (if (s.port s.cur q.toNat).act.isNone then
        ({ s with nextId := s.nextId + 1 } : State).modPort s.cur q.toNat fun p =>
          { p with act := some (s.newBind d v write eos), eosd := p.eosd && !write }
      else ({ s with nextId := s.nextId + 1 } : State).modPort s.cur q.toNat fun p => { p with pend := some (s.newBind d v write eos) }) =
      ({ s with nextId := s.nextId + 1 } : State).modPort s.cur q.toNat fun p => p.bound (s.newBind d v write eos) := by
    split
    next hn => exact modPort_congr _ (if_pos (Option.isNone_iff_eq_none.mp hn)).symm
    next hn => exact modPort_congr _ (if_neg fun h => hn (Option.isNone_iff_eq_none.mpr h)).symm
  rw [← hmod]
  rfl

/-- A port that has room for a binding takes it. -/
theorem sbind_gives (h : s.bindOk q d v write) (hw : s.writesDone s.cur = true)
    (hroom : (s.port s.cur q.toNat).act = none ∨ (s.port s.cur q.toNat).pend = none) {i : Instr} (hexec : exec i s = s.finish (s.sbind q d v write eos))
    {x : PortSt} (hx : (s.port s.cur q.toNat).bound (s.newBind d v write eos) = x) :
    ∃ t, exec i s = .next t ∧ t.pc = s.pc + 8 ∧ KeepsMemory s t ∧
      t.port s.cur q.toNat = { x with entry :=
        (s.firstEntry s.cur (s.newBind d v write eos)).orElse fun _ => x.entry } ∧
      (∀ j, j ≠ q.toNat → t.port s.cur j = s.port s.cur j) ∧ (∀ j, j ≠ s.cur → t.sec j = s.sec j) ∧ ∀ r, t.rdS r = s.rdS r := by
  have hgo : ((s.port s.cur q.toNat).act.isSome && (s.port s.cur q.toNat).pend.isSome || !s.writesDone s.cur) = false := by
    obtain hr | hr := hroom <;> simp [hr, hw]
  subst hx
  rw [sbind_ok h, hgo] at hexec
  have hport := ((PortOnly.start s s.cur q.toNat (s.nextId + 1)).modPort fun p => p.bound (s.newBind d v write eos)).noteFirst
    (s.newBind d v write eos)
  obtain ⟨hp, hps, hother⟩ := hport.after fun t => { t with pc := t.pc + 8, wait := .none, word := none }
  refine ⟨_, hexec, ?_, fun a => rdByte_congr hport.mem a, hp, hps, hother, fun r => ?_⟩
  · rw [State.pc, th_advance, hport.th]; rfl
  · rw [State.rdS, th_advance, hport.th]; rfl

end

/-- A descriptor that a read or a write may bind (R303). -/
theorem bindOk_read {s : State} {q : Port} {d : Desc} {v : Word}
    (h : (d.tag = 1 ∧ d.bindAligned v = true) ∨ (d.tag = 2 ∧ slicePort (dieOf s.cur) (d.fld 0 0 7) = (s.cur, q.toNat) ∧ v = 0)) :
    s.bindOk q d v false := by
  obtain ⟨ht, ha⟩ | ⟨ht, hs, hv⟩ := h
  · exact ⟨.inl ht, ha, by rw [State.bindPattern, ht]; rfl, by simp [Desc.bindIndex]⟩
  · exact ⟨.inr ht, by rw [Desc.bindAligned]; exact if_pos ht, by simp [State.bindPattern, hs, hv], by simp [Desc.bindIndex]⟩

theorem bindOk_write {s : State} {q : Port} {d : Desc} {v : Word} (ht : d.tag = 1) (ha : d.bindAligned v = true) (hi : d.win = true ∨ d.idx = false) :
    s.bindOk q d v true := by
  refine ⟨.inl ht, ha, by rw [State.bindPattern, ht]; rfl, ?_⟩
  obtain hi | hi := hi <;> simp [Desc.bindIndex, hi]

/-- Settles O23: a binding's four checks in their order, then the change of one port. -/
theorem bindingsAreGiven : Obligations.BindingsAreGiven := by
  unfold Obligations.BindingsAreGiven
  intro q dr ra eos s d v p rd wr rdB wrB feeds okRd okWr entry binds
  have hrd : exec rd s = s.finish (s.sbind q d v false eos) := exec_sbindRd
  have hwr : exec wr s = s.finish (s.sbind q d v true false) := exec_sbindWr
  have both : ∀ {c w}, (∀ write eos, s.sbind q d v write eos = .trap c w) → Traps s rd c w ∧ Traps s wr c w := fun h =>
    ⟨traps_of hrd (h _ _), traps_of hwr (h _ _)⟩
  refine ⟨fun h => both fun write eos => if_pos h, fun ht ha => both fun write eos => ?misaligned, fun ht => ⟨traps_of hwr ?written, fun h => traps_of hrd ?pattern⟩,
    fun ht ha hw hi => traps_of hwr ?list, fun hw ha => ⟨fun h => ?actRd, fun h => ?actWr⟩, fun hw ha hp => ⟨fun h => ?pendRd, fun h => ?pendWr⟩,
    fun h => ⟨fun hok => ?waitRd, fun hok => ?waitWr⟩, fun ht hw => ?dense, fun ht hw => ?window, fun die j => ?slice⟩
  case slice =>
    rw [slicePort]
    split
    · rename_i hj; rw [Nat.mod_eq_of_lt hj]
    · rfl
  case misaligned => rw [State.sbind, if_neg (fun h => h.1 ht), if_pos (by rw [ha]; rfl)]
  case written =>
    have ha : d.bindAligned v = true := by rw [Desc.bindAligned]; exact if_pos ht
    rw [State.sbind, if_neg (fun h => h.2 ht), if_neg (by rw [ha]; decide), if_pos (by simp [State.bindPattern, ht, tagPattern])]
  case pattern =>
    have ha : d.bindAligned v = true := by rw [Desc.bindAligned]; exact if_pos ht
    have hp : s.bindPattern d q v false = false := by
      obtain h | h := h
      · simp [State.bindPattern, ht, tagPattern, show ¬slicePort (dieOf s.cur) (d.fld 0 0 7) = (s.cur, q.toNat) from h]
      · rw [State.bindPattern, ht, beq_eq_false_iff_ne.mpr h, Bool.and_false]; rfl
    rw [State.sbind, if_neg (fun h => h.2 ht), if_neg (by rw [ha]; decide), if_pos (by rw [hp]; rfl)]
  case list =>
    have hp : s.bindPattern d q v true = true := by rw [State.bindPattern, ht]; rfl
    rw [State.sbind, if_neg (fun h => h.1 ht), if_neg (by rw [ha]; decide), if_neg (by rw [hp]; decide),
      if_pos (by simp [Desc.bindIndex, ht, tagPattern, hw, hi])]
  case dense => 
    have : tagPattern = 2 := rfl
    simp [Desc.bindAligned, ht, hw, this, and_assoc]
  case window =>
    have : tagPattern = 2 := rfl
    simp [Desc.bindAligned, ht, hw, this]
  case actRd =>
    have hb : p.bound rdB = { p with act := some rdB } := by rw [PortSt.bound, if_pos ha]; simp [rdB]
    exact sbind_gives (bindOk_read h) hw (.inl ha) hrd hb
  case actWr =>
    obtain ⟨ht, hal, hi⟩ := h
    have hb : p.bound wrB = { p with act := some wrB, eosd := false } := by rw [PortSt.bound, if_pos ha]; simp [wrB]
    exact sbind_gives (bindOk_write ht hal hi) hw (.inl ha) hwr hb
  case pendRd => exact sbind_gives (bindOk_read h) hw (.inr hp) hrd (if_neg ha)
  case pendWr =>
    obtain ⟨ht, hal, hi⟩ := h
    exact sbind_gives (bindOk_write ht hal hi) hw (.inr hp) hwr (if_neg ha)
  all_goals
    have hhold : ((s.port s.cur q.toNat).act.isSome && (s.port s.cur q.toNat).pend.isSome || !s.writesDone s.cur) = true := by
      obtain hw | ⟨ha, hp⟩ := h
      · simp [hw]
      · rw [Option.isSome_iff_ne_none.mpr ha, Option.isSome_iff_ne_none.mpr hp]; rfl
  case waitRd => rw [Waits, hrd, sbind_ok (bindOk_read hok), if_pos hhold, finish_hold]
  case waitWr =>
    obtain ⟨ht, hal, hi⟩ := hok
    rw [Waits, hwr, sbind_ok (bindOk_write ht hal hi), if_pos hhold, finish_hold]

end Sys2Proof.Machine
end

section
/-! PROOFS. The words that act on one port (R213 to R216). -/

namespace Sys2Proof.Machine

open Sys2Proof

/-! ### Elements of a payload -/

/-- The number of a list of elements of w bits, the first least significant. -/
def packed (w : Nat) (l : List Nat) : Nat := l.foldr (fun x acc => x % 2 ^ w + 2 ^ w * acc) 0

theorem packed_lt (w : Nat) (l : List Nat) : packed w l < 2 ^ (w * l.length) := by
  induction l with
  | nil => simp [packed]
  | cons x l ih =>
    have hx : x % 2 ^ w < 2 ^ w := Nat.mod_lt _ (by positivity)
    show x % 2 ^ w + 2 ^ w * packed w l < _
    rw [List.length_cons, Nat.mul_succ, Nat.add_comm (w * _), Nat.pow_add]
    calc x % 2 ^ w + 2 ^ w * packed w l < 2 ^ w * (packed w l + 1) := by rw [Nat.mul_succ]; omega
      _ ≤ 2 ^ w * 2 ^ (w * l.length) := Nat.mul_le_mul_left _ ih

theorem packed_div_mod (w : Nat) (l : List Nat) (i : Nat) : packed w l / 2 ^ (w * i) % 2 ^ w = l.getD i 0 % 2 ^ w := by
  have hpos : 0 < 2 ^ w := by positivity
  induction l generalizing i with
  | nil => simp [packed]
  | cons x l ih =>
    show (x % 2 ^ w + 2 ^ w * packed w l) / _ % _ = _
    cases i with
    | zero => simp
    | succ i =>
      rw [Nat.mul_succ, Nat.add_comm (w * i), Nat.pow_add, ← Nat.div_div_eq_div_mul, Nat.add_mul_div_left _ _ hpos,
        Nat.div_eq_of_lt (Nat.mod_lt _ hpos), Nat.zero_add, ih]
      rfl

/-- An element of a payload that has been put together from its elements. -/
theorem elem_payOf (w : Nat) (l : List Nat) (h : w * l.length ≤ 512) (i : Nat) : elem w (payOf w l) i = l.getD i 0 % 2 ^ w := by
  have hlt : packed w l < 2 ^ 512 := Nat.lt_of_lt_of_le (packed_lt w l) (Nat.pow_le_pow_right (by omega) h)
  have hpay : (payOf w l).toNat = packed w l := (BitVec.toNat_ofNat _ _).trans (Nat.mod_eq_of_lt hlt)
  rw [elem, bitsAt, hpay, packed_div_mod]

theorem elem_injPay (a b : Word) (bcast : Bool) (i : Nat) (hi : i < 16) : elem 32 (injPay a b bcast) i =
    if bcast then a.toNat % 2 ^ 32 else
      ([a.toNat % 2 ^ 32, a.toNat / 2 ^ 32, b.toNat % 2 ^ 32, b.toNat / 2 ^ 32] : List Nat).getD i 0 := by
  cases bcast with
  | true =>
    rw [injPay, if_pos rfl, elem_payOf _ _ (by simp), if_pos rfl, List.getD_replicate (h := hi), Nat.mod_mod]
  | false =>
    have ha := a.isLt
    have hb := b.isLt
    have hpay : injPay a b false = payOf 32 [a.toNat % 2 ^ 32, a.toNat / 2 ^ 32, b.toNat % 2 ^ 32, b.toNat / 2 ^ 32] := by
      rw [injPay, if_neg (by decide), payOf]
      congr 1
      simp only [List.foldr_cons, List.foldr_nil]
      omega
    rw [hpay, elem_payOf _ _ (by simp), if_neg (by decide)]
    have : ∀ x ∈ [a.toNat % 2 ^ 32, a.toNat / 2 ^ 32, b.toNat % 2 ^ 32, b.toNat / 2 ^ 32], x < 2 ^ 32 := by
      simp only [List.forall_mem_cons]; exact ⟨by omega, by omega, by omega, by omega, List.forall_mem_nil _⟩
    rw [Nat.mod_eq_of_lt]
    rw [List.getD_eq_getElem?_getD]
    cases h : ([a.toNat % 2 ^ 32, a.toNat / 2 ^ 32, b.toNat % 2 ^ 32, b.toNat / 2 ^ 32] : List Nat)[i]? with
    | none => decide
    | some x => exact this x (List.mem_of_getElem? h)

/-! ### The port status word (R215) -/

/-- The elements done that sstat shows (R372). -/
def PortSt.done (p : PortSt) : Nat :=
  match p.act with
  | none => p.lastPos
  | some b => b.pos - p.spill.length - (p.head.filter Token.replay).length

/-- The direction that sstat shows: none, read, write. -/
def PortSt.dir (p : PortSt) : Nat :=
  match p.act with
  | none => 0
  | some b => if b.write then 2 else 1

/-- An element of the port waits for an answer to its fault. -/
def PortSt.faulted (p : PortSt) : Bool := (p.held.toList ++ p.spill).any fun e => e.st == 0

theorem status_eq (p : PortSt) : p.status = BitVec.ofNat 64 (p.spill.length * 2 ^ 48 + p.faulted.toNat * 2 ^ 47 + p.dir * 2 ^ 45 +
    p.pend.isSome.toNat * 2 ^ 44 + p.act.isSome.toNat * 2 ^ 43 + p.eosd.toNat * 2 ^ 42 + p.done % 2 ^ 40) := by
  have bit : ∀ (b : Bool) (n : Nat), (if b then 2 ^ n else 0) = b.toNat * 2 ^ n := fun b n => by cases b <;> simp
  simp only [← bit]
  rfl

theorem dir_le (p : PortSt) : p.dir ≤ 2 := by
  unfold PortSt.dir
  split
  · omega
  · split <;> omega

/-- The fields of the port status word. -/
theorem status_fields (p : PortSt) :
    p.status.toNat % 2 ^ 40 = p.done % 2 ^ 40 ∧ p.status.toNat / 2 ^ 40 % 4 = 0 ∧ p.status.getLsbD 42 = p.eosd ∧ p.status.getLsbD 43 = p.act.isSome ∧
      p.status.getLsbD 44 = p.pend.isSome ∧ p.status.toNat / 2 ^ 45 % 4 = p.dir ∧ p.status.getLsbD 47 = p.faulted ∧
      (p.spill.length ≤ 64 → p.status.toNat / 2 ^ 48 = p.spill.length) := by
  have hn : p.status.toNat = _ := (congrArg BitVec.toNat (status_eq p)).trans (BitVec.toNat_ofNat _ _)
  have hd := dir_le p
  have he := Bool.toNat_lt p.eosd
  have ha := Bool.toNat_lt p.act.isSome
  have hp := Bool.toNat_lt p.pend.isSome
  have hf := Bool.toNat_lt p.faulted
  refine ⟨by omega, by omega, getLsbD_eq_of_div (by omega), getLsbD_eq_of_div (by omega), getLsbD_eq_of_div (by omega), by omega,
    getLsbD_eq_of_div (by omega), fun hl => by omega⟩

/-! ### seos (R214) -/

section
variable {s : State} {rd : Reg} {q : Port}

theorem exec_sstat : exec (.sstat rd q) s = s.putS rd (s.port s.cur q.toNat).status := rfl

theorem exec_seos_none (h : (s.port s.cur q.toNat).act = none) : exec (.seos rd q) s = s.putS rd 0 := by
  show execSeos rd q s = _
  simp only [execSeos, h]; rfl

theorem exec_seos_write {b : Bind} (h : (s.port s.cur q.toNat).act = some b) (hw : b.write = true) :
    exec (.seos rd q) s = .next ((s.modPort s.cur q.toNat PortSt.endWrite).wrS rd (BitVec.ofNat 64 b.pos)).advance := by
  show execSeos rd q s = _
  simp only [execSeos, h, hw, if_true]

theorem exec_seos_sent {b : Bind} (h : (s.port s.cur q.toNat).act = some b) (hw : b.write = false) (hs : (s.port s.cur q.toNat).sentAll = true) :
    exec (.seos rd q) s = .next ((s.modPort s.cur q.toNat fun p => p.stopRead b.pos).wrS rd (BitVec.ofNat 64 b.pos)).advance := by
  show execSeos rd q s = _
  simp only [execSeos, h, hw, hs, if_true, Bool.false_eq_true, if_false]

theorem exec_seos_sending {b : Bind} (h : (s.port s.cur q.toNat).act = some b) (hw : b.write = false) (hs : (s.port s.cur q.toNat).sentAll = false) :
    exec (.seos rd q) s = .next (s.modPort s.cur q.toNat fun p => { p with stopping := true }) := by
  show execSeos rd q s = _
  simp only [execSeos, h, hw, hs, Bool.false_eq_true, if_false]

end

/-- A change of one port alone. -/
theorem portOnly_modPort (s : State) (sid q : Nat) (g : PortSt → PortSt) : PortOnly s sid q (g (s.port sid q)) (s.modPort sid q g) :=
  (PortOnly.start s sid q s.nextId).modPort g

/-- The port of the acting sector changed, and a scalar register after it. -/
theorem portThenScalar (s : State) (q : Nat) (g : PortSt → PortSt) (rd : Reg) (v : Word) :
    let t := ((s.modPort s.cur q g).wrS rd v).advance
    t.rdS rd = (if rd = 0 then 0 else v) ∧ t.pc = s.pc + 8 ∧ t.port s.cur q = g (s.port s.cur q) ∧ KeepsMemory s t := by
  have hp := portOnly_modPort s s.cur q g
  obtain ⟨hrd, hpc, -⟩ := scalarAfter hp.th rd v
  refine ⟨hrd, hpc, ?_, fun a => rdByte_congr hp.mem a⟩
  rw [wrS_advance]
  exact (hp.after _).1

theorem sentAll_iff (p : PortSt) : p.sentAll = true ↔ p.spill = [] ∧ p.held = none ∧ ∀ t ∈ p.head, t.kind ≠ .data := by
  simp [PortSt.sentAll, and_assoc]

/-! ### sbar (R213) -/

theorem exec_sbar_waiting {s : State} {id : Nat} {ports : List Nat} (h : s.th.wait = .bar id ports) (sel : BarSel) :
    exec (.sbar sel) s = .next (if s.drained s.cur id ports then s.advance else s) := by
  show execSbar sel s = _
  simp only [execSbar, h]

/-- The ports that an sbar waits for: of those that it names the ones that hold a binding. -/
def State.barBound (s : State) (sel : BarSel) : List Nat :=
  (barPorts sel).filter fun j => (s.port s.cur j).act.isSome || (s.port s.cur j).pend.isSome

/-- The state in which an sbar that has just started waits. -/
def State.barStarted (s : State) (ports : List Nat) : State :=
  (({ s with nextId := s.nextId + 1 } : State).noteBar s.nextId ports).setWait (.bar s.nextId ports)

theorem bound_iff (p : PortSt) : (p.reads || p.writes) = (p.act.isSome || p.pend.isSome) := by
  unfold PortSt.reads PortSt.writes
  cases p.act with
  | none => cases p.pend with
    | none => rfl
    | some b => cases hb : b.write <;> simp [hb]
  | some a => cases ha : a.write <;> simp [ha]

theorem exec_sbar_starts {s : State} (h : ∀ id ports, s.th.wait ≠ .bar id ports) (sel : BarSel) : exec (.sbar sel) s =
    .next (let u := s.barStarted (s.barBound sel); if u.drained u.cur s.nextId (s.barBound sel) then u.advance else u) := by
  have hb : s.barBound sel = (barPorts sel).filter fun q => (s.port s.cur q).reads || (s.port s.cur q).writes := by
    simp only [State.barBound, bound_iff]
  rw [hb]
  show execSbar sel s = _
  unfold execSbar
  split
  · rename_i id ports hw; exact absurd hw (h id ports)
  · rfl

/-- A port that an sbar notes itself at: one that reads. -/
def PortSt.noted (p : PortSt) (id : Nat) : PortSt := if p.reads then { p with bars := p.bars ++ [id] } else p

/-- Nothing differs but the ports of the acting sector. -/
def PortsOnly (s t : State) : Prop :=
  ({ t with sectors := s.sectors } : State) = s ∧ (∀ j, j ≠ s.cur → t.sec j = s.sec j) ∧
    ({ t.sec s.cur with ports := (s.sec s.cur).ports } : Sector) = s.sec s.cur

theorem PortsOnly.trans {s t u : State} (h : PortsOnly s t) (g : PortsOnly t u) : PortsOnly s u := by
  obtain ⟨hrest, hother, hself⟩ := h
  obtain ⟨grest, gother, gself⟩ := g
  have hc : t.cur = s.cur := (congrArg State.cur hrest :)
  rw [hc] at gother gself
  refine ⟨(congrArg (fun x : State => ({ x with sectors := s.sectors } : State)) grest).trans hrest,
    fun j hj => (gother j hj).trans (hother j hj), ?_⟩
  exact (congrArg (fun x : Sector => ({ x with ports := (s.sec s.cur).ports } : Sector)) gself).trans hself

theorem portsOnly_modPort (s : State) (q : Nat) (g : PortSt → PortSt) : PortsOnly s (s.modPort s.cur q g) :=
  ⟨rfl, (portOnly_modPort s s.cur q g).other, (portOnly_modPort s s.cur q g).self⟩

/-- The ports after an sbar has noted itself at those of its ports that read. -/
theorem noteBar_spec (s : State) (id : Nat) {ports : List Nat} (hn : ports.Nodup) :
    PortsOnly s (s.noteBar id ports) ∧
      ∀ j, (s.noteBar id ports).port s.cur j = if j ∈ ports then (s.port s.cur j).noted id else s.port s.cur j := by
  induction ports generalizing s with
  | nil => exact ⟨⟨rfl, fun _ _ => rfl, rfl⟩, fun j => rfl⟩
  | cons q ports ih =>
    obtain ⟨hq, hn⟩ := List.nodup_cons.mp hn
    obtain ⟨u, hu, honly, hself, hne⟩ : ∃ u, (if (s.port s.cur q).reads then s.modPort s.cur q fun p => { p with bars := p.bars ++ [id] } else s) = u ∧
        PortsOnly s u ∧ u.port s.cur q = (s.port s.cur q).noted id ∧ ∀ j, j ≠ q → u.port s.cur j = s.port s.cur j := by
      refine ⟨_, rfl, ?_⟩
      unfold PortSt.noted
      split
      · exact ⟨portsOnly_modPort s q _, port_modPort_self s s.cur q _, fun j hj => port_modPort_ne s s.cur _ hj⟩
      · exact ⟨⟨rfl, fun _ _ => rfl, rfl⟩, rfl, fun _ _ => rfl⟩
    have hc : u.cur = s.cur := (congrArg State.cur honly.1 :)
    obtain ⟨gonly, gports⟩ := ih u hn
    have hfold : s.noteBar id (q :: ports) = u.noteBar id ports := by rw [← hu]; rfl
    rw [hc] at gports
    rw [hfold]
    refine ⟨honly.trans gonly, fun j => ?_⟩
    rw [gports j]
    by_cases hj : j = q
    · subst hj
      rw [if_neg hq, if_pos List.mem_cons_self, hself]
    · rw [hne j hj]
      simp [hj]

theorem barBound_nodup (s : State) (sel : BarSel) : (s.barBound sel).Nodup := by
  refine List.Nodup.filter _ ?_
  cases sel with
  | port q => exact List.nodup_singleton _
  | all => exact List.nodup_range

/-- An sbar that waits goes on once its ports have drained (R213). -/
theorem drained_iff (s : State) (sid id : Nat) (ports : List Nat) : s.drained sid id ports = true ↔
    (∀ j ∈ ports, (s.port sid j).act = none ∧ (s.port sid j).pend = none ∧
      ∀ k, s.task? (s.sec sid).task = some k → ∀ x ∈ k.stores, ¬(x.sid = sid ∧ x.port = some j)) ∧ s.draining sid id = false := by
  have hfree : ∀ p : PortSt, (!p.reads && !p.writes) = true ↔ p.act = none ∧ p.pend = none := fun p => by
    rw [← Bool.not_or, bound_iff]; simp
  have hunrel : ∀ j, s.unreleased sid j = false ↔ ∀ k, s.task? (s.sec sid).task = some k → ∀ x ∈ k.stores, ¬(x.sid = sid ∧ x.port = some j) := fun j => by
    rw [State.unreleased]
    cases s.task? (s.sec sid).task with
    | none => simp
    | some k => simp [List.any_eq_false]
  rw [State.drained, Bool.and_eq_true, List.all_eq_true, Bool.not_eq_true']
  refine and_congr_left fun _ => forall₂_congr fun j _ => ?_
  rw [Bool.and_eq_true, hfree, Bool.not_eq_true', hunrel, and_assoc]

theorem noted_act (p : PortSt) (id : Nat) : (p.noted id).act = p.act ∧ (p.noted id).pend = p.pend := by
  unfold PortSt.noted; split <;> exact ⟨rfl, rfl⟩

/-- What an sbar that starts leaves: its wait, and its note at the ports that read. -/
theorem barStarted_spec (s : State) {ports : List Nat} (hn : ports.Nodup) :
    let t := s.barStarted ports
    t.th = { s.th with wait := .bar s.nextId ports } ∧ t.cur = s.cur ∧ KeepsMemory s t ∧ (∀ j, j ≠ s.cur → t.sec j = s.sec j) ∧
      ∀ j, t.port s.cur j = if j ∈ ports then (s.port s.cur j).noted s.nextId else s.port s.cur j := by
  obtain ⟨⟨hrest, hother, hself⟩, hports⟩ := noteBar_spec ({ s with nextId := s.nextId + 1 } : State) s.nextId hn
  have hc : (({ s with nextId := s.nextId + 1 } : State).noteBar s.nextId ports).cur = s.cur := (congrArg State.cur hrest :)
  have hth : (({ s with nextId := s.nextId + 1 } : State).noteBar s.nextId ports).th = s.th := by
    rw [State.th, hc]; exact (congrArg Sector.th hself :)
  refine ⟨?_, hc, fun a => rdByte_congr (congrArg State.mem hrest :) a, fun j hj => ?_, fun j => ?_⟩
  · rw [State.barStarted, th_setWait, hth]
  · exact (sec_setWait_ne _ _ (by rwa [hc])).trans (hother j hj)
  · refine Eq.trans ?_ (hports j)
    have hs := sec_setWait_self (({ s with nextId := s.nextId + 1 } : State).noteBar s.nextId ports) (.bar s.nextId ports)
    rw [hc] at hs
    exact (congrArg (fun x : Sector => x.port j) hs).trans rfl

/-- An sbar that finds no binding goes on. -/
theorem barStarted_nil (s : State) (h : s.draining s.cur s.nextId = false) :
    (s.barStarted []).drained (s.barStarted []).cur s.nextId [] = true ∧
      (s.barStarted []).advance.pc = s.pc + 8 ∧ ThreadOnly { s with nextId := s.nextId + 1 } (s.barStarted []).advance := by
  have hb : s.barStarted [] = ({ s with nextId := s.nextId + 1 } : State).setWait (.bar s.nextId []) := rfl
  refine ⟨(drained_iff _ _ _ _).mpr ⟨List.forall_mem_nil _, ?_⟩, ?_, ?_⟩
  · rw [← h, hb]
    show State.draining _ s.cur s.nextId = _
    unfold State.draining
    rw [show (({ s with nextId := s.nextId + 1 } : State).setWait (.bar s.nextId [])).sec s.cur = _ from sec_setWait_self _ _]
    rfl
  · rw [hb, State.pc, th_advance, th_setWait]; rfl
  · rw [hb, State.setWait, State.advance, modTh_modTh]
    exact threadOnly_modTh _ _

/-- Settles O24: each word is one read or one change of its port; an sbar is one test of the ports that it waits for. -/
theorem portWords : Obligations.PortWords := by
  unfold Obligations.PortWords
  intro rd ra rb q tag bcast s p
  refine ⟨writesScalar_of exec_sstat rfl, ?status, fun h => writesScalar_of (exec_seos_none h) rfl, fun b h hw => ?write, fun b h hw hs => ?sent,
    fun b h hw hs => ?sending, sentAll_iff p, fun sel => ?sbar, fun ha hp hh hf => ?inject, fun h => ?injectWaits⟩
  case status =>
    obtain ⟨hpos, hzero, heosd, hact, hpend, hdir, hflt, hlen⟩ := status_fields p
    refine ⟨hpos, hzero, heosd, hact, hpend, hdir, ?_, hlen⟩
    rw [hflt, PortSt.faulted, List.any_eq_true]
    simp
  case write =>
    obtain ⟨hrd, hpc, hport, hmem⟩ := portThenScalar s q.toNat PortSt.endWrite rd (BitVec.ofNat 64 b.pos)
    have hend : p.endWrite = { p with act := p.pend, pend := none, lastPos := b.pos, eosd := p.eosd && p.pend.isNone, held := none } := by
      rw [PortSt.endWrite, h]
    rw [show PortSt.endWrite _ = _ from hend] at hport
    exact ⟨_, exec_seos_write h hw, hrd, hpc, by rw [hport], by rw [hport], by rw [hport], hmem⟩
  case sent =>
    obtain ⟨hrd, hpc, hport, hmem⟩ := portThenScalar s q.toNat (fun p => p.stopRead b.pos) rd (BitVec.ofNat 64 b.pos)
    exact ⟨_, exec_seos_sent h hw hs, hrd, hpc, by rw [hport]; rfl, by rw [hport]; rfl, by rw [hport]; rfl, hmem⟩
  case sending =>
    have hp := portOnly_modPort s s.cur q.toNat fun p => { p with stopping := true }
    exact ⟨_, exec_seos_sending h hw hs, hp.th, fun a => rdByte_congr hp.mem a, hp.port, hp.ports, hp.other⟩
  case sbar =>
    intro named bound
    have hbound : s.barBound sel = bound := by cases sel <;> rfl
    refine ⟨fun hstart => ⟨fun hb hd => ?none, fun hb => ?some⟩, fun id ports hwait => ⟨fun hgone => ?drained, fun hgone => ?waits⟩⟩
    case none =>
      have hexec := exec_sbar_starts hstart sel
      rw [hbound, hb] at hexec
      obtain ⟨hd, hpc, hth⟩ := barStarted_nil s hd
      exact ⟨_, hexec.trans (congrArg _ (if_pos hd)), hpc, hth⟩
    case some =>
      have hexec := exec_sbar_starts hstart sel
      obtain ⟨hth, hc, hmem, hother, hports⟩ := barStarted_spec s (hbound ▸ barBound_nodup s sel)
      rw [hbound] at hexec
      refine ⟨_, hexec.trans (congrArg _ (if_neg fun hd => ?_)), ?_, hth, hmem, hother, fun j => (hports j).trans ?_⟩
      · obtain ⟨j, hj⟩ := List.exists_mem_of_ne_nil _ hb
        have hbj := (List.mem_filter.mp hj).2
        obtain ⟨hja, hjp, -⟩ := ((drained_iff _ _ _ _).mp hd).1 j hj
        rw [hc, hports j, if_pos hj] at hja hjp
        rw [(noted_act _ _).1] at hja
        rw [(noted_act _ _).2] at hjp
        simp [hja, hjp] at hbj
      · rw [State.pc, hth]; rfl
      · rw [PortSt.noted]
        by_cases hj : j ∈ bound
        · simp [hj]
        · simp [hj]
    case drained => exact onlyAdvances_of ((exec_sbar_waiting hwait sel).trans (congrArg _ (if_pos ((drained_iff _ _ _ _).mpr hgone))))
    case waits => exact (exec_sbar_waiting hwait sel).trans (congrArg _ (if_neg fun hd => hgone ((drained_iff _ _ _ _).mp hd)))
  case inject =>
    have hfree : (p.reads || (s.pinFmt? s.cur q.toNat).isNone || !p.head.isEmpty) = false := by
      have hr : p.reads = false := by simp [PortSt.reads, ha, hp]
      have hn : (s.pinFmt? s.cur q.toNat).isNone = false := Option.isNone_eq_false_iff.mpr (Option.isSome_iff_ne_none.mpr hf)
      rw [hr, hn, hh]; rfl
    have hport := portOnly_modPort s s.cur q.toNat fun p => { p with head := [dataToken tag (injPay (s.rdS ra) (s.rdS rb) bcast) 0] }
    obtain ⟨hp1, hp2, -⟩ := hport.after fun t => { t with pc := t.pc + 8, wait := .none, word := none }
    have hexec : exec (.tinjData q ra rb tag bcast) s = .next (s.modPort s.cur q.toNat fun p =>
        { p with head := [dataToken tag (injPay (s.rdS ra) (s.rdS rb) bcast) 0] }).advance := if_neg (by rw [hfree]; decide)
    exact ⟨_, hexec, by rw [State.pc, th_advance, hport.th]; rfl, fun a => rdByte_congr hport.mem a,
      ⟨_, congrArg PortSt.head hp1, fun i hi => elem_injPay _ _ bcast i hi⟩, hp2⟩
  case injectWaits => exact if_pos (by rw [show (s.port s.cur q.toNat).reads = true from h]; rfl)

end Sys2Proof.Machine
end

section
/-! PROOFS. Thread tokens and marks of control threads (R216, R239, R240, R245). -/

namespace Sys2Proof.Machine

open Sys2Proof

/-! ### tinj.thread (R216) -/

theorem advance_task? (s : State) (n : Nat) : s.advance.task? n = s.task? n := rfl

theorem exec_tinjThread (ra rb : Reg) (s : State) : exec (.tinjThread ra rb) s = s.finish (
    if !s.queueImage (s.rdS rb) then .trap .handle (s.rdS rb)
    else match s.toGate (s.sec s.cur).task s.cur (s.sec s.cur).inst (s.rdS rb).toNat 2 (s.rdS ra) false with
      | none => .hold
      | some t => .ok t.advance) := rfl

/-- The packets of a task from a gate to a queue. -/
def Task.waiting (k : Task) (gate n img : Nat) : List Packet := k.packets.filter fun p => p.gate == gate && p.inst == n && p.img == img

/-- A packet more on its way. -/
def Task.withPacket (k : Task) (p : Packet) : Task := { k with packets := k.packets ++ [p] }

section
variable {s : State} {id gate own img n m : Nat} {k : Task} {pay : Word} {poison : Bool}
  (hk : s.task? id = some k) (hn : k.queueInst own img = some n)
include hk hn

theorem toGate_full (h : m ≤ (k.waiting gate n img).length) : s.toGate id gate own img m pay poison = none := by
  simp only [State.toGate, hk, hn]
  exact if_pos h

theorem toGate_room_eq (h : (k.waiting gate n img).length < m) : s.toGate id gate own img m pay poison =
    some (({ s with nextId := s.nextId + 1 } : State).modTask id fun t => t.withPacket
      { id := s.nextId, gate := gate, inst := n, img := img, pay := pay, poison := poison }) := by
  simp only [State.toGate, hk, hn]
  exact if_neg (Nat.not_le.mpr h)

theorem toGate_room (h : (k.waiting gate n img).length < m) : ∃ t, s.toGate id gate own img m pay poison = some t ∧ t.mem = s.mem ∧ t.th = s.th ∧
    t.task? k.id = some { k with packets := k.packets ++ [{ id := s.nextId, gate := gate, inst := n, img := img, pay := pay, poison := poison }] } := by
  refine ⟨_, toGate_room_eq hk hn h, rfl, rfl, ?_⟩
  obtain rfl := id_of_task? hk
  rw [task_modTask _ _ _ _ (by intro t; rfl), if_pos rfl]
  show Option.map _ (s.task? k.id) = _
  rw [hk]
  rfl

end

/-- Settles O25: the gate of the acting sector takes the token or is full. -/
theorem threadTokensInjected : Obligations.ThreadTokensInjected := by
  unfold Obligations.ThreadTokensInjected
  intro ra rb s k n img x
  have hexec := exec_tinjThread ra rb s
  refine ⟨fun hq => traps_of hexec (if_pos (by rw [hq]; rfl)), fun hq hk hn => ?_⟩
  rw [if_neg (by rw [hq]; decide)] at hexec
  refine ⟨fun hlt => ?room, fun hle => ?full⟩
  case room =>
    obtain ⟨t, ht, hmem, hth, htask⟩ := toGate_room (gate := s.cur) (pay := s.rdS ra) (poison := false) hk hn hlt
    rw [ht] at hexec
    exact ⟨_, hexec, by rw [State.pc, th_advance, hth]; rfl, fun a => rdByte_congr hmem a, htask⟩
  case full =>
    rw [Waits, hexec, toGate_full hk hn hle, finish_hold]

/-! ### mark (R245) -/

theorem markRequest_first {s : State} {id : Nat} {k : Task} (hk : s.task? id = some k) (hp : k.pre = .none) : s.markRequest id = s.startMarkers k := by
  simp only [State.markRequest, hk, hp]

/-- The state in which a mark asks for its gang's pre-emption. -/
def State.marked (s : State) (rd : Reg) : State := s.advance.modTh fun t => { t with markSd := some rd }

theorem exec_mark {s : State} {k : Task} (rd : Reg) (hk : s.task? (s.sec s.cur).task = some k) (hp : k.pre = .none) : exec (.mark rd) s =
    .next (if s.saveRoom k then (s.marked rd).startMarkers k else s) := by
  have hk' : (s.marked rd).task? k.id = some k := by rw [id_of_task? hk]; exact hk
  show execMark rd s = _
  simp only [execMark, hk, hp, true_and]
  rw [← markRequest_first hk' hp]
  cases s.saveRoom k <;> rfl

theorem stopHere_idem (t : Thread) : t.stopHere.stopHere = t.stopHere := by
  unfold Thread.stopHere
  cases h : t.wait <;> simp [h]

/-- A thread stops unless it waits for its trap's record. -/
theorem stopHere_of_early {t : Thread} {c : Nat} (h : t.wait = .record c) : t.stopHere = t := by
  unfold Thread.stopHere; rw [h]

theorem stopHere_of_ready {t : Thread} (h : ∀ c, t.wait ≠ .record c) : t.stopHere = { t with stopped := true, notice := none } := by
  unfold Thread.stopHere
  split
  · rename_i c hc; exact absurd hc (h c)
  · rfl

/-- The start of a gang's markers: its threads stop, and its task knows whether all have. -/
theorem startMarkers_spec {s : State} {k : Task} (hk : s.task? k.id = some k) :
    let t := s.startMarkers k
    t.mem = s.mem ∧ t.cur = s.cur ∧ (∀ j, t.sec j = if j ∈ k.sids then { s.sec j with th := (s.sec j).th.stopHere } else s.sec j) ∧
      t.task? k.id = some { k with pre := if k.sids.all fun j => (t.sec j).th.stopped then .markers else .threads } := by
  intro t
  have hidem : ∀ x : Sector, ({ ({ x with th := x.th.stopHere } : Sector) with th := ({ x with th := x.th.stopHere } : Sector).th.stopHere } : Sector) =
      { x with th := x.th.stopHere } := fun x => congrArg (fun h => ({ x with th := h } : Sector)) (stopHere_idem x.th)
  have hs := sec_modSecs (f := fun x => { x with th := x.th.stopHere }) hidem s k.sids
  have he := modSecs_eq s k.sids fun x => { x with th := x.th.stopHere }
  refine ⟨?_, ?_, hs, ?_⟩
  · exact (congrArg State.mem he :)
  · exact (congrArg State.cur he :)
  · have hk' : (s.modSecs k.sids fun x => { x with th := x.th.stopHere }).task? k.id = some k := by rw [he]; exact hk
    exact task?_setTask_self (k' := { k with pre := _ }) hk'

/-- Settles O26: mark stops the gang at the word after it and starts its markers. -/
theorem markStartsAPreemption : Obligations.MarkStartsAPreemption := by
  unfold Obligations.MarkStartsAPreemption
  intro rd s k hk hp hcur
  refine ⟨fun hr => (exec_mark rd hk hp).trans (by rw [hr]; rfl), fun hr => ?_⟩
  have hk' : (s.marked rd).task? k.id = some k := by rw [id_of_task? hk]; exact hk
  obtain ⟨hmem, hc, hsec, htask⟩ := startMarkers_spec hk'
  have hother : ∀ j, j ≠ s.cur → (s.marked rd).sec j = s.sec j := fun j hj => (sec_modSec_ne _ _ hj).trans (sec_modSec_ne _ _ hj)
  have hself : ((s.marked rd).sec s.cur).th = { s.th with pc := s.th.pc + 8, wait := .none, word := none, markSd := some rd } := by
    show (s.marked rd).th = _
    rw [State.marked, th_modTh, th_advance]
  have hth : ((s.marked rd).startMarkers k).th =
      { s.th with pc := s.th.pc + 8, wait := .none, word := none, markSd := some rd, stopped := true, notice := none } := by
    rw [State.th, hc]
    show (((s.marked rd).startMarkers k).sec s.cur).th = _
    rw [hsec, if_pos hcur, hself]
    rfl
  have hready : ∀ j ∈ k.sids, ¬(j ≠ s.cur ∧ ∃ c, (s.sec j).th.wait = .record c) → (((s.marked rd).startMarkers k).sec j).th.stopped = true := by
    intro j hj hne
    rw [hsec, if_pos hj]
    by_cases hjc : j = s.cur
    · subst hjc
      rw [hself]
      rfl
    · rw [hother j hjc, stopHere_of_ready fun c hw => hne ⟨hjc, c, hw⟩]
  have hearly : ∀ j ∈ k.sids, j ≠ s.cur → (∃ c, (s.sec j).th.wait = .record c) → (((s.marked rd).startMarkers k).sec j).th = (s.sec j).th := by
    rintro j hj hjc ⟨c, hw⟩
    rw [hsec, if_pos hj, hother j hjc, stopHere_of_early hw]
  refine ⟨_, (exec_mark rd hk hp).trans (congrArg _ (if_pos hr)), by rw [State.pc, hth]; rfl, by rw [hth], fun a => rdByte_congr hmem a,
    ⟨hready, fun j hj he => hearly j hj he.1 he.2, fun hall => ?all, fun hsome => ?some⟩, fun j hj => ?other⟩
  case all =>
    rw [htask, if_pos (List.all_eq_true.mpr fun j hj => hready j hj (hall j hj))]
  case some =>
    obtain ⟨j, hj, ⟨hjc, he⟩, hs⟩ := hsome
    rw [htask, if_neg fun hall => ?_]
    have := List.all_eq_true.mp hall j hj
    rw [hearly j hj hjc he, hs] at this
    exact absurd this (by decide)
  case other =>
    rw [hsec, if_neg hj]
    exact hother j fun e => hj (e ▸ hcur)

end Sys2Proof.Machine
end

section
/-! PROOFS. The issue of engine operations (R305 to R307, R309 to R312). -/

namespace Sys2Proof.Machine

open Sys2Proof

/-! ### Translations noted by an issue -/

/-- Nothing differs but the range cache of the acting sector. -/
def RcOnly (s u : State) : Prop :=
  ({ u with sectors := s.sectors } : State) = s ∧ (∀ k, k ≠ s.cur → u.sec k = s.sec k) ∧
    ({ u.sec s.cur with rcache := (s.sec s.cur).rcache } : Sector) = s.sec s.cur

theorem RcOnly.refl (s : State) : RcOnly s s := ⟨rfl, fun _ _ => rfl, rfl⟩

theorem rcOnly_noteRc (s : State) (t : Tgt) : RcOnly s (s.noteRc t) := by
  unfold State.noteRc
  split
  · exact .refl s
  · exact ⟨rfl, fun k hk => sec_modSec_ne _ _ hk, by rw [sec_modSec_self]⟩

theorem rcOnly_noteRcAt (s : State) (va : Word) : RcOnly s (s.noteRcAt va) := by
  unfold State.noteRcAt
  split
  · split
    · exact rcOnly_noteRc s _
    · exact .refl s
  · exact .refl s

/-! ### The chunks of a scratch destination (R307) -/

theorem bit_claimChunks (x : Sector) (off n id k : Nat) :
    (x.claimChunks off n id).bit k = if off / 512 ≤ k ∧ k < off / 512 + n then false else x.bit k := by
  unfold Sector.claimChunks
  induction n with
  | zero => rw [if_neg (by omega)]; rfl
  | succ n ih =>
    rw [List.range_succ, List.foldl_append, List.foldl_cons, List.foldl_nil]
    generalize (List.range n).foldl _ x = y at ih ⊢
    show Tab.get false (Tab.set false y.bitmap (off / 512 + n) false) k = _
    by_cases hk : k = off / 512 + n
    · rw [hk, tab_get_set_self, if_pos (by omega)]
    · rw [tab_get_set_ne _ _ _ hk]
      refine Eq.trans ih (if_congr ?_ rfl rfl)
      omega

theorem claimChunks_rest (x : Sector) (off n id : Nat) :
    ({ x.claimChunks off n id with bitmap := x.bitmap, chunkOp := x.chunkOp } : Sector) = x := by
  unfold Sector.claimChunks
  induction n with
  | zero => rfl
  | succ n ih =>
    rw [List.range_succ, List.foldl_append, List.foldl_cons, List.foldl_nil]
    exact ih

/-! ### What an issue leaves (R305) -/

/-- The state of an issued operation, as `Issues` states it: listed last, its handle and its promise written, its chunks' bits cleared. -/
def IssuedAs (s t : State) (h : DReg) (rd : Reg) (o : EngOp) (n : Nat) : Prop :=
  let p : Word := s.cycW + 32 + (Config.promiseExtra n).setWidth 64
  t.pc = s.pc + 8 ∧ KeepsMemory s t ∧ t.rdD h = engHandle s.nextId ∧ t.rdS rd = (if rd = 0 then 0 else p) ∧
    (∀ r, r ≠ rd → t.rdS r = s.rdS r) ∧ (∀ e, e ≠ h → t.rdD e = s.rdD e) ∧ t.nextId = s.nextId + 1 ∧ t.ops = s.ops ++ [issuedOp s o p.toNat] ∧
    IssueFrame s t ∧ (∀ off, o.kind ≠ .scat → o.tgt = .scratch off → ChunksCleared s t off o.len) ∧
    ((o.kind = .scat ∨ ∀ off, o.tgt ≠ .scratch off) → ∀ k, (t.sec s.cur).bit k = (s.sec s.cur).bit k)

theorem issues_of {s t : State} {i : Instr} {h : DReg} {rd : Reg} {o : EngOp} {n : Nat} (hexec : exec i s = .next t) (ht : IssuedAs s t h rd o n) :
    Issues s i h rd o := ⟨t, n, hexec, ht⟩

/-- The sector of an issuer with its chunks claimed: where the destination is scratch, and the operation no scatter. -/
def Sector.claimed (x : Sector) (o : EngOp) (id : Nat) : Sector :=
  match o.kind, o.tgt with
  | .scat, _ => x
  | _, .scratch off => x.claimChunks off o.pieces id
  | _, _ => x

theorem claimed_rest (x : Sector) (o : EngOp) (id : Nat) : ({ x.claimed o id with bitmap := x.bitmap, chunkOp := x.chunkOp } : Sector) = x := by
  unfold Sector.claimed
  split
  · rfl
  · exact claimChunks_rest _ _ _ _
  · rfl

theorem claimed_scratch {o : EngOp} {off : Nat} (hk : o.kind ≠ .scat) (ht : o.tgt = .scratch off) (x : Sector) (id : Nat) :
    x.claimed o id = x.claimChunks off o.pieces id := by
  unfold Sector.claimed
  split
  · rename_i hs; exact absurd hs hk
  · rename_i off' hs _
    rw [ht] at hs
    cases hs
    rfl
  · rename_i _ hn; exact absurd ht (hn off)

theorem bit_claimed {x : Sector} {o : EngOp} {off : Nat} (hk : o.kind ≠ .scat) (ht : o.tgt = .scratch off) (id k : Nat) :
    (x.claimed o id).bit k = if off / 512 ≤ k ∧ k < off / 512 + (o.len + 511) / 512 then false else x.bit k := by
  rw [claimed_scratch hk ht]
  exact bit_claimChunks _ _ _ _ _

theorem claimed_none {o : EngOp} (h : o.kind = .scat ∨ ∀ off, o.tgt ≠ .scratch off) (x : Sector) (id : Nat) : x.claimed o id = x := by
  unfold Sector.claimed
  split
  · rfl
  · rename_i off hs hk
    obtain h | h := h
    · exact absurd h hk
    · exact absurd hs (h off)
  · rfl

/-- The registers of the issuer at the end of an issue. -/
def Thread.issued (t : Thread) (h : DReg) (d : Desc) (rd : Reg) (v : Word) : Thread :=
  { (t.wrD h d).wrS rd v with pc := t.pc + 8, wait := .none, word := none }

/-- An operation listed and its chunks claimed, before the registers of its issuer are written. -/
def Listed (s t : State) (o : EngOp) : Prop :=
  ({ t with sectors := s.sectors } : State) = { s with nextId := s.nextId + 1, fresh := s.fresh + 1, ops := s.ops ++ [issuedOp s o s.promised.toNat] } ∧
    (∀ k, k ≠ s.cur → t.sec k = s.sec k) ∧ t.sec s.cur = (s.sec s.cur).claimed o s.nextId

theorem wrDS_advance (s : State) (h : DReg) (d : Desc) (rd : Reg) (v : Word) :
    ((s.wrD h d).wrS rd v).advance = s.modTh fun t => t.issued h d rd v := by
  refine (congrArg State.advance (modTh_modTh s _ _)).trans ((modTh_modTh s _ _).trans (modTh_congr s ?_))
  rw [Thread.issued, wrS_eq]
  rfl

theorem issueOp_eq (s : State) (h : DReg) (rd : Reg) (v : Word) (o : EngOp) :
    ∃ t, Listed s t o ∧ s.issueOp h rd v o = t.modTh fun t => t.issued h (engHandle s.nextId) rd v := by
  have hlisted : ∃ t, Listed s t o ∧ s.issueOp h rd v o = ((t.wrD h (engHandle s.nextId)).wrS rd v).advance := by
    refine ⟨_, ?_, rfl⟩
    dsimp only
    split
    · rename_i hk
      exact ⟨rfl, fun _ _ => rfl, (claimed_none (.inl hk) _ _).symm⟩
    · rename_i off ht hk
      exact ⟨rfl, fun k hk => sec_modSec_ne _ _ hk, (sec_modSec_self _ _ _).trans (claimed_scratch hk ht _ _).symm⟩
    · rename_i hk ht
      exact ⟨rfl, fun _ _ => rfl, (claimed_none (.inr fun off h => ht off h) _ _).symm⟩
  obtain ⟨t, ht, he⟩ := hlisted
  exact ⟨t, ht, he.trans (wrDS_advance t h _ rd v)⟩

section
variable {s u : State} (hu : RcOnly s u)
include hu

theorem RcOnly.cur : u.cur = s.cur := (congrArg State.cur hu.1 :)
theorem RcOnly.nextId : u.nextId = s.nextId := (congrArg State.nextId hu.1 :)
theorem RcOnly.ops : u.ops = s.ops := (congrArg State.ops hu.1 :)
theorem RcOnly.promised : u.promised = s.promised := (congrArg State.promised hu.1 :)
theorem RcOnly.mem : u.mem = s.mem := (congrArg State.mem hu.1 :)
theorem RcOnly.th : u.th = s.th := by rw [State.th, hu.cur]; exact (congrArg Sector.th hu.2.2 :)

theorem RcOnly.issuedOp (o : EngOp) (p : Nat) : issuedOp u o p = issuedOp s o p := by
  obtain ⟨hrest, -, hself⟩ := id hu
  have htask : ∀ n, u.task? n = s.task? n := fun n => (congrArg (fun x : State => x.task? n) hrest :)
  have hx : (u.sec s.cur).ctx = (s.sec s.cur).ctx ∧ (u.sec s.cur).task = (s.sec s.cur).task ∧ (u.sec s.cur).s4 = (s.sec s.cur).s4 :=
    ⟨(congrArg Sector.ctx hself :), (congrArg Sector.task hself :), (congrArg Sector.s4 hself :)⟩
  obtain ⟨h1, h2, h3⟩ := hx
  simp only [Machine.issuedOp, hu.cur, hu.nextId, htask, h1, h2, h3]

end

theorem rdS_issued (t : Thread) (h : DReg) (d : Desc) (rd r : Reg) (v : Word) :
    (t.issued h d rd v).rdS r = if r = 0 then 0 else if r = rd then v else t.rdS r := rdS_wrS (t.wrD h d) rd r v

theorem rdD_issued (t : Thread) (h e : DReg) (d : Desc) (rd : Reg) (v : Word) :
    (t.issued h d rd v).rdD e = if e = h then d else t.rdD e := by
  rw [Thread.issued, wrS_eq]
  exact rdD_wrD t h e d

/-- What an issue leaves, where its checks have noted at most a translation. -/
theorem issuedAs_issueOp {s u : State} (hu : RcOnly s u) (h : DReg) (rd : Reg) (o : EngOp) :
    IssuedAs s (u.issueOp h rd s.promised o) h rd o s.fresh := by
  obtain ⟨t, ⟨hrest, hother, hself⟩, he⟩ := issueOp_eq u h rd s.promised o
  rw [hu.nextId] at he hrest hself
  rw [hu.promised, hu.issuedOp, hu.ops] at hrest
  rw [hu.cur] at hother hself
  have hcur : t.cur = s.cur := (congrArg State.cur hrest).trans hu.cur
  have hth : t.th = s.th := by
    rw [State.th, hcur, hself]
    refine Eq.trans ?_ hu.th
    rw [State.th, hu.cur]
    exact (congrArg Sector.th (claimed_rest (u.sec s.cur) o s.nextId) :)
  have hself' : (t.modTh fun t => t.issued h (engHandle s.nextId) rd s.promised).sec s.cur =
      { (u.sec s.cur).claimed o s.nextId with th := s.th.issued h (engHandle s.nextId) rd s.promised } := by
    rw [← hcur, sec_modTh_self, show (t.sec t.cur).th = s.th from hth, hcur, hself]
  have hbits : ∀ k, ((t.modTh fun t => t.issued h (engHandle s.nextId) rd s.promised).sec s.cur).bit k = ((u.sec s.cur).claimed o s.nextId).bit k :=
    fun k => (congrArg (fun x : Sector => x.bit k) hself').trans rfl
  have hu' : ∀ k, (u.sec s.cur).bit k = (s.sec s.cur).bit k := fun k => (congrArg (fun x : Sector => x.bit k) hu.2.2 :)
  rw [he]
  refine ⟨?pc, ?mem, ?handle, ?promise, ?regs, ?descs, ?ids, ?ops, ⟨?rest, ?others, ?self, ?thread⟩, ?chunks, ?nochunks⟩
  case pc => rw [State.pc, th_modTh, hth]; rfl
  case mem => exact fun a => rdByte_congr ((congrArg State.mem hrest).trans hu.mem) a
  case handle => rw [State.rdD, th_modTh, rdD_issued, if_pos rfl]
  case promise => rw [State.rdS, th_modTh, rdS_issued, if_pos rfl]; rfl
  case regs =>
    intro r hr
    rw [State.rdS, th_modTh, rdS_issued, if_neg hr, hth]
    by_cases h0 : r = 0
    · rw [if_pos h0, h0]; rfl
    · rw [if_neg h0]; rfl
  case descs =>
    intro e he
    rw [State.rdD, th_modTh, rdD_issued, if_neg he, hth]; rfl
  case ids => exact (congrArg State.nextId hrest :)
  case ops => exact (congrArg State.ops hrest :)
  case rest =>
    exact (congrArg (fun x : State => ({ x with sectors := s.sectors, ops := s.ops, nextId := s.nextId, fresh := s.fresh } : State)) hrest).trans
      (by
        have hf := congrArg (fun x : State => ({ x with ops := s.ops, nextId := s.nextId, fresh := s.fresh } : State)) hu.1
        exact hf)
  case others => exact fun k hk => (sec_modSec_ne t _ (by rwa [hcur])).trans ((hother k hk).trans (hu.2.1 k hk))
  case self =>
    rw [hself']
    have hc := congrArg (fun x : Sector => ({ x with th := s.th, rcache := (s.sec s.cur).rcache, bitmap := (s.sec s.cur).bitmap, chunkOp := (s.sec s.cur).chunkOp } : Sector))
      (claimed_rest (u.sec s.cur) o s.nextId)
    have hr := congrArg (fun x : Sector => ({ x with th := s.th, bitmap := (s.sec s.cur).bitmap, chunkOp := (s.sec s.cur).chunkOp } : Sector)) hu.2.2
    exact hc.trans hr
  case thread => rw [th_modTh, hth, Thread.issued, wrS_eq]; rfl
  case chunks => exact fun off hk ht k => (hbits k).trans ((bit_claimed hk ht _ k).trans (by rw [hu']))
  case nochunks => exact fun hno k => (hbits k).trans ((congrArg (fun x : Sector => x.bit k) (claimed_none hno _ _)).trans (hu' k))

/-! ### An operation over a map (R305, R309 to R312) -/

section
variable {s : State} {h : DReg} {rd : Reg} {d : Desc} {base : Word} {len : Nat} {kind : EngKind} {f : EngOp → EngOp}

theorem engIssue_trap {c : Cause} {v : Word} : s.engIssue h rd d base len kind (.trap c v) f = .trap c v := rfl
theorem engIssue_hold : s.engIssue h rd d base len kind .hold f = .hold := rfl

theorem engIssue_full (hm : ¬MayIssue s) (tgt : EngTo) : s.engIssue h rd d base len kind (.ok tgt) f = .hold := by
  refine if_pos ?_
  rw [MayIssue, not_and_or, Bool.not_eq_true, Bool.not_eq_true] at hm
  obtain hm | hm := hm <;> simp [hm]

/-- An operation that may be issued is, over a good index list or, listed as failed, over a poisoned one. -/
theorem engIssue_issued (hm : MayIssue s) (tgt : EngTo) : ∃ u, RcOnly s u ∧ s.engIssue h rd d base len kind (.ok tgt) f =
    .ok (u.issueOp h rd s.promised (match s.badIndex d with
      | some g => { f (listedOp s d base len kind tgt) with st := .failed, status := 0x03, failAddr := sAddr (g * 64) }
      | none => f (listedOp s d base len kind tgt))) := by
  obtain ⟨hr, hw⟩ := hm
  have hgo : ¬(!s.engRoom || !s.writesDone s.cur) = true := by simp [hr, hw]
  cases tgt with
  | virt va => exact ⟨_, rcOnly_noteRcAt s va, if_neg hgo⟩
  | _ => exact ⟨_, .refl s, if_neg hgo⟩

theorem badIndex_none (hb : s.indexBad d = false) : s.badIndex d = none := Option.isSome_eq_false_iff.mp hb |> Option.isNone_iff_eq_none.mp

/-- A word that ends in an operation over a map with a good index list. -/
theorem issues_listed {u : State} {i : Instr} {tgt : Res EngTo} {to_ : EngTo} (hexec : exec i s = u.finish (s.engIssue h rd d base len kind tgt f))
    (ht : tgt = .ok to_) (hm : MayIssue s) (hb : s.badIndex d = none) : Issues s i h rd (f (listedOp s d base len kind to_)) := by
  obtain ⟨v, hv, he⟩ := engIssue_issued (h := h) (rd := rd) (d := d) (base := base) (len := len) (kind := kind) (f := f) hm to_
  rw [ht, he, hb] at hexec
  exact issues_of hexec (issuedAs_issueOp hv h rd _)

/-- A word that ends in an operation over a map with a poisoned index list. -/
theorem issues_failed {u : State} {i : Instr} {tgt : Res EngTo} {to_ : EngTo} (hexec : exec i s = u.finish (s.engIssue h rd d base len kind tgt f))
    (ht : tgt = .ok to_) (hm : MayIssue s) {g : Nat} (hb : s.badIndex d = some g) :
    Issues s i h rd { f (listedOp s d base len kind to_) with st := .failed, status := 0x03, failAddr := sAddr (g * 64) } := by
  obtain ⟨v, hv, he⟩ := engIssue_issued (h := h) (rd := rd) (d := d) (base := base) (len := len) (kind := kind) (f := f) hm to_
  rw [ht, he, hb] at hexec
  exact issues_of hexec (issuedAs_issueOp hv h rd _)

end

/-! ### Destinations (R306, R307, R309) -/

section
variable {s : State} {va : Word} {len : Nat}

theorem not_isS_of_lt (h : va.toNat < 2 ^ 55) : isS va = false := by
  rw [isS, decide_eq_false_iff_not]; omega

theorem engDest_scratch (hs : isS va = true) : s.engDest va len =
    if va.toNat % 512 ≠ 0 then .trap .misaligned va
    else if 2 ^ 22 < sOff va + (len + 511) / 512 * 512 then .trap .xlateFault 0 else .ok (.scratch (sOff va)) := if_pos hs

theorem engDest_mapped (hv : va.toNat < 2 ^ 55) {n : Nat} {e : RtEnt} (he : findRt (s.ctx s.ctxId).rt va.toNat = some (n, e)) : s.engDest va len =
    if s.rtHeld s.ctxId n then .hold
    else if pwValid e.pw e.frame && pwKind e.pw == 1 then .trap .permission va
    else if pwValid e.pw e.frame && pwKind e.pw == 2 && va.toNat % 512 != 0 then .trap .misaligned va
    else .ok (.virt va) := by
  have hi : isVirt va = true := decide_eq_true hv
  simp only [State.engDest, not_isS_of_lt hv, hi, he, Bool.false_eq_true, if_false, if_true]

/-- The addresses that a scatter writes are checked in their order. -/
theorem scatCheck_ok (h : ScatMay s va) : s.scatCheck va = .ok () := by
  unfold State.scatCheck
  by_cases hv : va.toNat < 2 ^ 55
  · rw [isVirt, decide_eq_true hv, if_pos rfl]
    cases he : findRt (s.ctx s.ctxId).rt va.toNat with
    | none => rfl
    | some p =>
      obtain ⟨i, e⟩ := p
      obtain ⟨h1, h2⟩ := h i e hv he
      simp only [h1, h2, Bool.false_eq_true, if_false]
  · rw [isVirt, decide_eq_false hv]
    rfl

theorem scatChecks_ok {l : List Word} (h : ∀ a ∈ l, ScatMay s a) : s.scatChecks l = .ok () := by
  induction l with
  | nil => rfl
  | cons a l ih =>
    rw [State.scatChecks, scatCheck_ok (h a List.mem_cons_self)]
    exact ih fun b hb => h b (List.mem_cons_of_mem _ hb)

theorem scatChecks_append {l : List Word} (h : ∀ a ∈ l, ScatMay s a) (a : Word) (r : List Word) :
    s.scatChecks (l ++ a :: r) = (s.scatCheck a).bind fun _ => s.scatChecks r := by
  induction l with
  | nil => rfl
  | cons b l ih =>
    rw [List.cons_append, State.scatChecks, scatCheck_ok (h b List.mem_cons_self)]
    exact ih fun c hc => h c (List.mem_cons_of_mem _ hc)

theorem scatCheck_mapped (hv : va.toNat < 2 ^ 55) {n : Nat} {e : RtEnt} (he : findRt (s.ctx s.ctxId).rt va.toNat = some (n, e)) : s.scatCheck va =
    if s.rtHeld s.ctxId n then .hold else if pwValid e.pw e.frame && pwKind e.pw == 1 then .trap .permission va else .ok () := by
  simp only [State.scatCheck, isVirt, decide_eq_true hv, he, if_true]

end

/-! ### cpy, gath and scat -/

/-- The destination that a copy or a gather names. -/
def State.copyDest (s : State) (dst : EngDst) (va : Word) (len : Nat) : Res EngTo :=
  match dst with
  | .mem => s.engDest va len
  | .edge prog slice => s.edgeDest prog slice va len

section
variable {s : State} {rd ra rb : Reg} {dh dm : DReg} {dst : EngDst} {kind : EngKind}

theorem exec_cpy : exec (.cpy rd dh dm ra rb dst) s = s.drawn.finish (s.copyOp rd dh dm ra rb dst .cpy false) := rfl
theorem exec_gath : exec (.gath rd dh dm ra rb dst) s = s.drawn.finish (s.copyOp rd dh dm ra rb dst .gath true) := rfl
theorem exec_scat : exec (.scat rd dh dm ra rb) s = s.drawn.finish (s.scatOp rd dh dm ra rb) := rfl

theorem copyOp_tag (ht : (s.rdD dm).tag ≠ tagTmap) (idx : Bool) : s.copyOp rd dh dm ra rb dst kind idx = .trap .handle ((s.rdD dm).tag.setWidth 64) :=
  if_pos ht

theorem copyOp_list (ht : (s.rdD dm).tag = tagTmap) {idx : Bool} (hi : (!(s.rdD dm).win && (s.rdD dm).idx) ≠ idx) :
    s.copyOp rd dh dm ra rb dst kind idx = .trap .handle (Config.freeWord s.fresh) :=
  (if_neg (not_not.mpr ht)).trans (if_pos (bne_iff_ne.mpr hi))

theorem copyOp_go (ht : (s.rdD dm).tag = tagTmap) {idx : Bool} (hi : (!(s.rdD dm).win && (s.rdD dm).idx) = idx) :
    s.copyOp rd dh dm ra rb dst kind idx =
      s.engIssue dh rd (s.rdD dm) (s.rdS rb) ((s.rdD dm).addBase (s.rdS rb)).bytes kind
        (s.copyDest dst (s.rdS ra) ((s.rdD dm).addBase (s.rdS rb)).bytes) id :=
  (if_neg (not_not.mpr ht)).trans (if_neg (by rw [hi]; simp))

theorem scatOp_tag (ht : (s.rdD dm).tag ≠ tagTmap) : s.scatOp rd dh dm ra rb = .trap .handle ((s.rdD dm).tag.setWidth 64) := if_pos ht

theorem scatBase_isVirt : isVirt (BitVec.ofNat 64 ((s.rdD dm).addBase (s.rdS rb)).base) = decide (((s.rdD dm).addBase (s.rdS rb)).base < 2 ^ 55) := by
  have hlt : ((s.rdD dm).addBase (s.rdS rb)).base < 2 ^ 64 := Nat.mod_lt _ (by decide)
  rw [isVirt, BitVec.toNat_ofNat, Nat.mod_eq_of_lt hlt]

theorem scatOp_base (ht : (s.rdD dm).tag = tagTmap) (hb : 2 ^ 55 ≤ ((s.rdD dm).addBase (s.rdS rb)).base) :
    s.scatOp rd dh dm ra rb = .trap .handle (Config.freeWord s.fresh) := by
  refine (if_neg (not_not.mpr ht)).trans (if_pos ?_)
  rw [scatBase_isVirt, decide_eq_false (Nat.not_lt.mpr hb)]
  rfl

theorem scatOp_go (ht : (s.rdD dm).tag = tagTmap) (hb : ((s.rdD dm).addBase (s.rdS rb)).base < 2 ^ 55) : s.scatOp rd dh dm ra rb =
    s.engIssue dh rd (s.rdD dm) (s.rdS rb) ((s.rdD dm).addBase (s.rdS rb)).bytes .scat
      ((s.scatChecks (s.scatBytes ((s.rdD dm).addBase (s.rdS rb)))).bind fun _ =>
        .ok (.virt (BitVec.ofNat 64 ((s.rdD dm).addBase (s.rdS rb)).base)))
      fun o => { o with src := s.rdS ra } := by
  refine (if_neg (not_not.mpr ht)).trans (if_neg ?_)
  rw [scatBase_isVirt, decide_eq_true hb]
  decide

end

/-- The map of a copy without an index list, or of a gather with one. -/
theorem noList_of {d : Desc} (h : d.win = true ∨ d.idx = false) : (!d.win && d.idx) = false := by
  obtain h | h := h <;> simp [h]

theorem list_of {d : Desc} (hw : d.win = false) (hi : d.idx = true) : (!d.win && d.idx) = true := by simp [hw, hi]

theorem edgeDest_ok {s : State} {prog : Bool} {slice : BitVec 7} {v : Word} {len : Nat} (ha : v.toNat % 64 = 0)
    (hl : v.toNat + len ≤ if prog then 256 else 2 ^ 20) :
    s.edgeDest prog slice v len = .ok (.edge prog (dieOf s.cur * 128 + slice.toNat) v.toNat) :=
  (if_neg (not_not.mpr ha)).trans (if_neg (Nat.not_lt.mpr hl))

/-- A word that ends in a trap at its checks, with a free value drawn. -/
theorem exec_drawn {s : State} {i : Instr} {r r' : Res State} (hexec : exec i s = s.drawn.finish r) (h : r = r') : exec i s = s.drawn.finish r' := h ▸ hexec

/-- Settles O27: the checks of the three words in their order, then one issue. -/
theorem copiesAreIssuedAndChecked : Obligations.CopiesAreIssuedAndChecked := by
  unfold Obligations.CopiesAreIssuedAndChecked
  refine ⟨?issued, ?checked⟩
  case issued =>
    intro rd ra rb dh dm s tgt d base len ht hm
    refine ⟨fun hb => ⟨fun hd hi => ?cpy, fun hd hw hi => ?gath, fun hv ha => ?scat, fun prog slice ha hl => ⟨fun hi => ?edgeCpy, fun hw hi => ?edgeGath⟩⟩,
      fun g hg hd => ?failed⟩
    case cpy => exact issues_listed (exec_drawn exec_cpy (copyOp_go ht (noList_of hi))) hd hm (badIndex_none hb)
    case gath => exact issues_listed (exec_drawn exec_gath (copyOp_go ht (list_of hw hi))) hd hm (badIndex_none hb)
    case scat =>
      exact issues_listed (exec_drawn exec_scat (scatOp_go ht hv)) (by rw [scatChecks_ok ha]; rfl) hm (badIndex_none hb)
    case edgeCpy => exact issues_listed (exec_drawn exec_cpy (copyOp_go ht (noList_of hi))) (edgeDest_ok ha hl) hm (badIndex_none hb)
    case edgeGath => exact issues_listed (exec_drawn exec_gath (copyOp_go ht (list_of hw hi))) (edgeDest_ok ha hl) hm (badIndex_none hb)
    case failed =>
      have hi : (!d.win && d.idx) = true := by
        have hc : ¬(!d.win && d.idx) = false := fun hc => by
          rw [State.badIndex, Bool.and_assoc, hc, Bool.and_false] at hg
          exact nomatch hg
        simpa using hc
      exact issues_failed (exec_drawn (exec_gath (s := s) (ra := ra) (rb := rb) (dst := .mem)) (copyOp_go ht hi)) hd hm hg
  case checked =>
    intro rd ra rb dh dm dst s d m to_ drawn cpy gath scat traps holds fits
    have htrap : ∀ {i : Instr} {r : Res State} {c v}, exec i s = s.drawn.finish r → r = .trap c v → traps i c v := fun he hr => he.trans (by rw [hr]; rfl)
    have hhold : ∀ {i : Instr} {r : Res State}, exec i s = s.drawn.finish r → r = .hold → holds i := fun he hr => he.trans (by rw [hr]; rfl)
    have hcpy : exec cpy s = s.drawn.finish (s.copyOp rd dh dm ra rb dst .cpy false) := exec_cpy
    have hgath : exec gath s = s.drawn.finish (s.copyOp rd dh dm ra rb dst .gath true) := exec_gath
    have hscat : exec scat s = s.drawn.finish (s.scatOp rd dh dm ra rb) := exec_scat
    refine ⟨fun ht => ?tag, fun ht => ⟨fun hw hi => ⟨_, htrap hcpy (copyOp_list ht (by rw [list_of hw hi]; decide))⟩,
      fun hi => ⟨_, htrap hgath (copyOp_list ht (by rw [noList_of hi]; decide))⟩, fun hb => ⟨_, htrap hscat (scatOp_base ht hb)⟩,
      fun hb l a r hl hbefore hv n e he => ?scatAddr, fun hb ha hm => ?scatFull, fun i hi => ?copies⟩⟩
    case tag =>
      simp only [List.forall_mem_cons]
      exact ⟨htrap hcpy (copyOp_tag ht _), htrap hgath (copyOp_tag ht _), htrap hscat (scatOp_tag ht), List.forall_mem_nil _⟩
    case scatAddr =>
      rw [scatOp_go ht hb, hl, scatChecks_append hbefore, scatCheck_mapped hv he] at hscat
      exact ⟨fun hh => hhold hscat (by rw [if_pos hh]; rfl),
        fun hh hp hk => htrap hscat (by rw [if_neg (by rw [hh]; decide), if_pos (by rw [hp, hk]; rfl)]; rfl)⟩
    case scatFull =>
      rw [scatOp_go ht hb, scatChecks_ok ha] at hscat
      exact hhold hscat (engIssue_full hm _)
    case copies =>
      obtain ⟨kind, hexec⟩ : ∃ kind, kind ≠ .scat ∧ exec i s = s.drawn.finish (s.engIssue dh rd d (s.rdS rb) m.bytes kind (s.copyDest dst to_ m.bytes) id) := by
        obtain ⟨rfl, hi⟩ | ⟨rfl, hw, hi⟩ := hi
        · exact ⟨.cpy, nofun, exec_drawn hcpy (copyOp_go ht (noList_of hi))⟩
        · exact ⟨.gath, nofun, exec_drawn hgath (copyOp_go ht (list_of hw hi))⟩
      obtain ⟨hkind, hexec⟩ := hexec
      have hdest : ∀ {r : Res EngTo}, s.copyDest dst to_ m.bytes = r → exec i s = s.drawn.finish (s.engIssue dh rd d (s.rdS rb) m.bytes kind r id) :=
        fun h => h ▸ hexec
      refine ⟨fun hd hs => ?scratch, fun hd hv n e he => ?mapped, fun prog slice hd => ?edge, fun tgt hd ht hm => ?full, fun hd hs ha hl hm => ?cleared⟩
      case scratch =>
        subst hd
        have hx := hdest (engDest_scratch hs)
        exact ⟨fun h => htrap hx (by rw [if_pos h, engIssue_trap]),
          fun h hl => htrap hx (by rw [if_neg (not_not.mpr h), if_pos hl, engIssue_trap])⟩
      case mapped =>
        subst hd
        have hx := hdest (engDest_mapped hv he)
        refine ⟨fun h => hhold hx (by rw [if_pos h, engIssue_hold]), fun h hp => ⟨fun hk => htrap hx ?_, fun hk ha => htrap hx ?_⟩⟩
        · rw [if_neg (by rw [h]; decide), if_pos (by rw [hp, hk]; rfl), engIssue_trap]
        · rw [if_neg (by rw [h]; decide), if_neg (by rw [hk]; simp), if_pos (by rw [hp, hk]; simpa using ha), engIssue_trap]
      case edge =>
        subst hd
        refine ⟨fun h => htrap (hdest (if_pos h)) engIssue_trap,
          fun h hl => htrap (hdest ((if_neg (not_not.mpr h)).trans (if_pos hl))) engIssue_trap,
          fun h hl hm => hhold (hdest (edgeDest_ok h hl)) (engIssue_full hm _)⟩
      case full =>
        subst hd
        exact hhold (hdest ht) (engIssue_full hm _)
      case cleared =>
        subst hd
        have hx := hdest ((engDest_scratch hs).trans ((if_neg (not_not.mpr ha)).trans (if_neg (Nat.not_lt.mpr hl))))
        obtain ⟨u, hu, he⟩ := engIssue_issued (h := dh) (rd := rd) (d := d) (base := s.rdS rb) (len := m.bytes) (kind := kind) (f := id) hm
          (.scratch (sOff to_))
        rw [he] at hx
        obtain ⟨-, hmem, -, -, -, -, -, -, ⟨-, hother, -, -⟩, hchunks, -⟩ := issuedAs_issueOp hu dh rd (match s.badIndex d with
          | some g => { listedOp s d (s.rdS rb) m.bytes kind (.scratch (sOff to_)) with st := .failed, status := 0x03, failAddr := sAddr (g * 64) }
          | none => listedOp s d (s.rdS rb) m.bytes kind (.scratch (sOff to_)))
        refine ⟨_, hx, ?_, hmem, hother⟩
        cases hb : s.badIndex d with
        | none => simp only [hb] at hchunks; exact hchunks _ hkind rfl
        | some g => simp only [hb] at hchunks; exact hchunks _ hkind rfl

end Sys2Proof.Machine
end

section
/-! PROOFS. Collective words (R312). -/

namespace Sys2Proof.Machine

open Sys2Proof

/-- The issuer of an operation may count it as a word of a kind that threads meet at. -/
theorem IssuedAs.counted {s t : State} {h : DReg} {rd : Reg} {o : EngOp} {n : Nat} (ht : IssuedAs s t h rd o n) (k : Meet) :
    IssuedAs s (t.modTh fun h => h.counted k) h rd o n := by
  obtain ⟨hpc, hmem, hh, hp, hregs, hdescs, hid, hops, ⟨hrest, hothers, hself, hthread⟩, hchunks, hno⟩ := ht
  have hcur : t.cur = s.cur := (congrArg State.cur hrest :)
  have hsec : (t.modTh fun h => h.counted k).sec s.cur = { t.sec s.cur with th := (t.sec s.cur).th.counted k } := by
    rw [← hcur]; exact sec_modTh_self t _
  have hbit : ∀ j, ((t.modTh fun h => h.counted k).sec s.cur).bit j = (t.sec s.cur).bit j := fun j =>
    (congrArg (fun x : Sector => x.bit j) hsec).trans rfl
  have hth : (t.modTh fun h => h.counted k).th = t.th.counted k := th_modTh _ _
  refine ⟨?_, hmem, ?_, ?_, fun r hr => ?_, fun e he => ?_, hid, hops, ⟨hrest, fun j hj => ?_, ?_, ?_⟩, fun off hk hs j => ?_, fun hn j => ?_⟩
  · rw [State.pc, hth]; exact hpc
  · rw [State.rdD, hth]; exact hh
  · rw [State.rdS, hth]; exact hp
  · rw [State.rdS, hth]; exact hregs r hr
  · rw [State.rdD, hth]; exact hdescs e he
  · exact (sec_modSec_ne t _ (by rwa [hcur])).trans (hothers j hj)
  · rw [hsec]; exact hself
  · rw [hth]; exact hthread
  · rw [hbit]; exact hchunks off hk hs j
  · rw [hbit]; exact hno hn j

/-- The result's size of a coll. -/
def State.collLen (s : State) (f : Nat) (sc : CollScope) (d : Desc) (rb : Reg) : Nat :=
  if f = 3 then d.bytes * s.gangSids.length * (match sc with | .gang => 1 | .domain => (s.rdS rb).toNat / 2 ^ 16 % 2 ^ 16) else d.bytes

/-- A coll whose destination has passed its checks is issued, the next of its thread. -/
theorem coll_issues {s : State} {i : Instr} {f : Nat} {fmt : BitVec 4} {sc : CollScope} {rd ra rb : Reg} {dh dm : DReg} {tgt : EngTo}
    (hexec : exec i s = s.finish (s.collOp f fmt sc rd dh dm ra rb)) (ht : (s.rdD dm).tag = tagTmap) (hm : MayIssue s)
    (hb : s.indexBad (s.rdD dm) = false) (hd : s.engDest (s.rdS ra) (s.collLen f sc (s.rdD dm) rb) = .ok tgt) :
    Issues s i dh rd { listedOp s (s.rdD dm) 0 (s.collLen f sc (s.rdD dm) rb) (.coll f fmt (sc == .domain)) tgt with
      seqn := s.th.count .coll + 1, key := s.rdS rb } := by
  obtain ⟨u, hu, he⟩ := engIssue_issued (h := dh) (rd := rd) (d := s.rdD dm) (base := 0) (len := s.collLen f sc (s.rdD dm) rb)
    (kind := .coll f fmt (sc == .domain)) (f := fun o => { o with seqn := s.th.count .coll + 1, key := s.rdS rb }) hm tgt
  rw [badIndex_none hb] at he
  have hop : s.collOp f fmt sc rd dh dm ra rb = (s.engIssue dh rd (s.rdD dm) 0 (s.collLen f sc (s.rdD dm) rb) (.coll f fmt (sc == .domain))
      (s.engDest (s.rdS ra) (s.collLen f sc (s.rdD dm) rb)) fun o => { o with seqn := s.th.count .coll + 1, key := s.rdS rb }).bind
      fun t => .ok (t.modTh fun h => h.counted .coll) := if_neg (not_not.mpr ht)
  rw [hop, hd, he] at hexec
  exact issues_of hexec ((issuedAs_issueOp hu dh rd _).counted .coll)

/-- Settles O28: each coll is one issue, counted by its thread. -/
theorem collectivesAreIssued : Obligations.CollectivesAreIssued := by
  unfold Obligations.CollectivesAreIssued
  intro fmt sc rd ra rb dh dm s tgt d dom all op ht hm hb
  refine ⟨fun hd => ⟨coll_issues (f := 0) rfl ht hm hb hd, coll_issues (f := 1) rfl ht hm hb hd, coll_issues (f := 2) rfl ht hm hb hd,
    coll_issues (f := 4) rfl ht hm hb hd⟩, fun hd => ?_⟩
  have hlen : s.collLen 3 sc d rb = all := by cases sc <;> rfl
  rw [← hlen] at hd ⊢
  exact coll_issues (f := 3) rfl ht hm hb hd

end Sys2Proof.Machine
end

section
/-! PROOFS. Publishes, installs, stages and re-stripes of control threads (R313, R314, R348, R352). -/

namespace Sys2Proof.Machine

open Sys2Proof

/-! ### Status words (R314, R348) -/

section
variable {s : State} {ea : Word} {t : Tgt} (k : State → Tgt → Res State)

theorem statusWord_at (h : StatusWordAt s ea t) : s.statusWord ea k = k (s.noteRc t) t := by
  obtain ⟨ha, hx, hv⟩ := h
  simp only [State.statusWord, ha, hx, hv, ne_eq, not_true, if_false, if_true]

theorem statusWord_misaligned (h : ea.toNat % 8 ≠ 0) : s.statusWord ea k = .trap .misaligned ea := if_pos h

theorem statusWord_fault (h : ea.toNat % 8 = 0) (hx : s.xlate s.ctxId s.cur ea .both = .fault) : s.statusWord ea k = .trap .xlateFault ea := by
  simp only [State.statusWord, h, hx, ne_eq, not_true, if_false]

theorem statusWord_perm (h : ea.toNat % 8 = 0) (hx : s.xlate s.ctxId s.cur ea .both = .perm) : s.statusWord ea k = .trap .permission ea := by
  simp only [State.statusWord, h, hx, ne_eq, not_true, if_false]

theorem statusWord_unversioned (h : ea.toNat % 8 = 0) (hx : s.xlate s.ctxId s.cur ea .both = .ok t) (hv : t.ver = false) :
    s.statusWord ea k = .trap .permission ea := by
  simp only [State.statusWord, h, hx, hv, ne_eq, not_true, if_false, Bool.false_eq_true]

/-- The traps of a word whose checks have come to its status word. -/
theorem statusTraps {i : Instr} (hexec : exec i s = s.finish (s.statusWord ea k)) :
    (ea.toNat % 8 ≠ 0 → Traps s i .misaligned ea) ∧
    (ea.toNat % 8 = 0 → (s.xlate s.ctxId s.cur ea .both = .fault → Traps s i .xlateFault ea) ∧
      (s.xlate s.ctxId s.cur ea .both = .perm → Traps s i .permission ea) ∧
      ∀ t, s.xlate s.ctxId s.cur ea .both = .ok t → t.ver = false → Traps s i .permission ea) :=
  ⟨fun h => traps_of hexec (statusWord_misaligned k h), fun h => ⟨fun hx => traps_of hexec (statusWord_fault k h hx),
    fun hx => traps_of hexec (statusWord_perm k h hx), fun _ hx hv => traps_of hexec (statusWord_unversioned k h hx hv)⟩⟩

end

/-! ### publ (R314) -/

section
variable {s : State} {d : Desc} {o : EngOp}

theorem publOp_tag (h : d.tag ≠ tagEngine) : s.publOp d = .trap .handle (d.tag.setWidth 64) := if_pos h

theorem publOp_none (ht : d.tag = tagEngine) (h : s.op? d.img.toNat = none) : s.publOp d = .trap .handle 0x5 := by
  simp only [State.publOp, ht, h, ne_eq, not_true, if_false]

theorem publOp_flash (ht : d.tag = tagEngine) (h : s.op? d.img.toNat = some o) (hk : o.kind = .inst ∨ o.kind = .stage) :
    s.publOp d = .trap .handle 0x6 := by
  have hk' : (o.kind == .inst || o.kind == .stage) = true := by simpa using hk
  simp only [State.publOp, ht, h, hk', ne_eq, not_true, if_false, if_true]

variable (ht : d.tag = tagEngine) (h : s.op? d.img.toNat = some o) (h1 : o.kind ≠ .inst) (h2 : o.kind ≠ .stage)
include ht h h1 h2

theorem publOp_used (hp : o.publ ≠ none ∨ o.live = false) : s.publOp d = .trap .handle 0x5 := by
  have hk : (o.kind == .inst || o.kind == .stage) = false := by simp [h1, h2]
  have hp' : (o.publ.isSome || !o.live) = true := by
    obtain hp | hp := hp
    · rw [Option.isSome_iff_ne_none.mpr hp]; rfl
    · simp [hp]
  simp only [State.publOp, ht, h, hk, hp', ne_eq, not_true, if_false, if_true, Bool.false_eq_true]

theorem publOp_ok (hp : o.publ = none) (hl : o.live = true) : s.publOp d = .ok o := by
  have hk : (o.kind == .inst || o.kind == .stage) = false := by simp [h1, h2]
  have hp' : (o.publ.isSome || !o.live) = false := by simp [hp, hl]
  simp only [State.publOp, ht, h, hk, hp', ne_eq, not_true, if_false, Bool.false_eq_true]

end

/-- The publish noted at an operation. -/
def State.publNoted (s : State) (o : EngOp) (a v : Word) (t : Tgt) : State :=
  ({ s with nextId := s.nextId + 1 } : State).setOp { o with publ := some (a, v), order := s.nextId, stAt := t.held }

theorem exec_publ (rd : Reg) (dr : DReg) (ra rb : Reg) (s : State) : exec (.publ rd dr ra rb) s = s.finish ((s.publOp (s.rdD dr)).bind fun o =>
    s.statusWord (s.rdS ra) fun u t =>
      .ok ((((u.publNoted o (s.rdS ra) (s.rdS rb) t).wrD dr {}).wrS rd (BitVec.ofNat 64 o.due)).advance)) := rfl

theorem exec_publ_of {rd ra rb : Reg} {dr : DReg} {s : State} {o : EngOp} (hp : s.publOp (s.rdD dr) = .ok o) :
    exec (.publ rd dr ra rb) s = s.finish (s.statusWord (s.rdS ra) fun u t =>
      .ok ((((u.publNoted o (s.rdS ra) (s.rdS rb) t).wrD dr {}).wrS rd (BitVec.ofNat 64 o.due)).advance)) := by
  rw [exec_publ, hp, Res.bind]

theorem id_of_op? {s : State} {n : Nat} {o : EngOp} (h : s.op? n = some o) : o.id = n := by
  have := List.find?_some h
  simpa using this

/-- An operation written in the place of the one with its identity is found there. -/
theorem op?_setOp_self {s : State} {o o' : EngOp} (h : s.op? o'.id = some o) : (s.setOp o').op? o'.id = some o' := by
  unfold State.op? State.setOp at *
  simp only
  generalize s.ops = l at *
  induction l with
  | nil => exact nomatch h
  | cons x l ih =>
    rw [List.map_cons, List.find?_cons]
    rw [List.find?_cons] at h
    by_cases hx : x.id = o'.id
    · simp [hx]
    · simp only [hx, if_false, beq_eq_false_iff_ne.mpr hx] at h ⊢
      exact ih h

/-! ### inst and stage (R348, R352) -/

section
variable {d : Desc} {k : Res State}

theorem instMap_tag (h : d.tag ≠ tagTmap) : instMap d k = .trap .handle (d.tag.setWidth 64) := if_pos h

variable (ht : d.tag = tagTmap)
include ht

theorem instMap_sparse (h : d.win = true ∨ d.idx = true ∨ d.dims ≠ 1 ∨ d.stride 0 ≠ d.esz) : instMap d k = .trap .handle 0x301 :=
  (if_neg (not_not.mpr ht)).trans (if_pos h)

variable (hw : d.win = false) (hi : d.idx = false) (hd : d.dims = 1) (hs : d.stride 0 = d.esz)
include hw hi hd hs

theorem instMap_dense : instMap d k = if d.bytes % 16384 ≠ 0 then .trap .handle 0x302
    else if d.base % 16384 ≠ 0 then .trap .misaligned (BitVec.ofNat 64 d.base) else k :=
  (if_neg (not_not.mpr ht)).trans (if_neg (by simp [hw, hi, hd, hs]))

end

section
variable {s : State} {rd ra rb : Reg} {dh dm : DReg} {key : Option (BitVec 4)} {kind : EngKind} {tgt : EngTo}

theorem exec_inst : exec (.inst rd dh dm ra rb key) s = s.finish (instMap (s.rdD dm)
    (if (s.rdS ra).toNat % 16384 ≠ 0 then .trap .misaligned (s.rdS ra)
     else s.flashIssue rd dh (s.rdD dm) rb .inst (.virt (s.rdS ra)) key)) := rfl

theorem exec_stage : exec (.stage rd dh dm rb key) s = s.finish (instMap (s.rdD dm)
    (s.flashIssue rd dh (s.rdD dm) rb .stage (.virt (BitVec.ofNat 64 (s.rdD dm).base)) key)) := rfl

/-- The operation of an install or a stage. -/
def State.flashOp (s : State) (d : Desc) (rb : Reg) (kind : EngKind) (tgt : EngTo) (key : Option (BitVec 4)) (x : Tgt) : EngOp :=
  { id := 0, kind := kind, sid := 0, ctx := 0, task := 0, desc := d, src := BitVec.ofNat 64 d.base, tgt := tgt, len := d.bytes,
    word := s.rdS rb, keySlot := key, order := s.nextId, stAt := x.held }

/-- An install or a stage whose status word is in order is issued. -/
theorem flash_issues {i : Instr} {d : Desc} (hexec : exec i s = s.finish (s.flashIssue rd dh d rb kind tgt key)) {x : Tgt}
    (hx : StatusWordAt s (s.rdS rb) x) (hm : MayIssue s) : Issues s i dh rd (s.flashOp d rb kind tgt key x) := by
  obtain ⟨hr, hw⟩ := hm
  rw [State.flashIssue, statusWord_at _ hx, hr, hw] at hexec
  exact issues_of hexec (issuedAs_issueOp (rcOnly_noteRc s x) dh rd _)

end

/-! ### rstr (R313) -/

section
variable {s : State} {va v : Word}

theorem rstrCheck_absent (h : 2 ^ 55 ≤ va.toNat ∨ findRt (s.ctx s.ctxId).rt va.toNat = none) : s.rstrCheck va v = .inl 0x01 := by
  have hn : (if isVirt va then findRt (s.ctx s.ctxId).rt va.toNat else none) = none := by
    obtain h | h := h
    · rw [isVirt, decide_eq_false (Nat.not_lt.mpr h)]; rfl
    · rw [h, ite_self]
  simp only [State.rstrCheck, hn]

theorem rstrCheck_entry (hv : va.toNat < 2 ^ 55) {n : Nat} {e : RtEnt} (he : findRt (s.ctx s.ctxId).rt va.toNat = some (n, e)) :
    s.rstrCheck va v =
      if !pwValid e.pw e.frame then .inl 0x01
      else if pwKind e.pw ≠ 0 ∨ pwKind (v.toNat % 2 ^ 32) ≠ 0 then .inl 0x02
      else if v.toNat / 2 ^ 32 ≠ 0 ∨ !pwValid (v.toNat % 2 ^ 32) 0 then .inl 0x03
      else if pwVer e.pw ≠ pwVer (v.toNat % 2 ^ 32) then .inl 0x04
      else if !({ s with ops := s.ops ++ [restripe s.ctxId n va (v.setWidth 32)] } : State).residentOk then .inl 0x05
      else .inr (n, e) := by
  have hi : isVirt va = true := decide_eq_true hv
  simp only [State.rstrCheck, hi, he, if_true]

variable {rd ra rb : Reg} {dh : DReg}

theorem exec_rstr_held (h : s.rstrHeld (s.rdS ra) = true) : exec (.rstr rd dh ra rb) s = .next s := if_pos h

theorem exec_rstr_refused (h : s.rstrHeld (s.rdS ra) = false) {k : BitVec 8} (hk : s.rstrCheck (s.rdS ra) (s.rdS rb) = .inl k) :
    exec (.rstr rd dh ra rb) s = .next ((((s.noteRcAt (s.rdS ra)).wrD dh {}).wrS rd (k.setWidth 64)).advance) := by
  show execRstr rd dh ra rb s = _
  simp only [execRstr, h, hk, Bool.false_eq_true, if_false]

/-- The state in which an accepted re-stripe is issued: MIG of its entry set, the channels of its word waking. -/
def State.rstrMarked (s : State) (va : Word) (n : Nat) (e : RtEnt) (pw : Nat) : State :=
  ((s.noteRcAt va).setRt s.ctxId n (e.setMig true)).startWake pw

theorem exec_rstr_accepted (h : s.rstrHeld (s.rdS ra) = false) {n : Nat} {e : RtEnt} (hk : s.rstrCheck (s.rdS ra) (s.rdS rb) = .inr (n, e))
    (hm : MayIssue s) : exec (.rstr rd dh ra rb) s = .next ((s.rstrMarked (s.rdS ra) n e ((s.rdS rb).toNat % 2 ^ 32)).issueOp dh rd 0
      (restripe s.ctxId n (s.rdS ra) ((s.rdS rb).setWidth 32))) := by
  obtain ⟨hr, hw⟩ := hm
  show execRstr rd dh ra rb s = _
  simp only [execRstr, h, hk, hr, hw, Bool.false_eq_true, if_false, Bool.not_true, Bool.or_self]
  rfl

end

theorem RcOnly.accessFrame {s u : State} (h : RcOnly s u) : AccessFrame s u := by
  obtain ⟨hrest, hother, hself⟩ := h
  refine ⟨?_, ?_, hother, ?_⟩
  · exact (congrArg (fun x : State => ({ x with flash := s.flash, mem := s.mem, poison := s.poison } : State)) hrest :)
  · exact (congrArg (fun x : State => ({ x.flash with staged := s.flash.staged } : Flash)) hrest :)
  · exact (congrArg (fun x : Sector => ({ x with th := (s.sec s.cur).th } : Sector)) hself :)

/-- The registers after a word that has written a descriptor and a scalar. -/
theorem issuedRegs {s u : State} (hth : u.th = s.th) (h : DReg) (d : Desc) (rd : Reg) (v : Word) :
    let t := u.modTh fun t => t.issued h d rd v
    t.pc = s.pc + 8 ∧ t.rdS rd = (if rd = 0 then 0 else v) ∧ t.rdD h = d := by
  refine ⟨?_, ?_, ?_⟩
  · rw [State.pc, th_modTh, hth]; rfl
  · rw [State.rdS, th_modTh, rdS_issued, if_pos rfl]
  · rw [State.rdD, th_modTh, rdD_issued, if_pos rfl]

/-- What an accepted re-stripe leaves. -/
theorem rstr_issued (s : State) (va : Word) (n : Nat) (e : RtEnt) (pw : Nat) (rd : Reg) (dh : DReg) (o : EngOp) (ho : ∀ off, o.tgt ≠ .scratch off) :
    let t := (s.rstrMarked va n e pw).issueOp dh rd 0 o
    t.pc = s.pc + 8 ∧ t.rdS rd = 0 ∧ t.rdD dh = engHandle s.nextId ∧ Tab.find (t.ctx s.ctxId).rt n = some (e.setMig true) ∧ KeepsMemory s t ∧
      ∃ p, t.ops = s.ops ++ [issuedOp s o p] := by
  have hu := rcOnly_noteRcAt s va
  obtain ⟨t, ⟨hrest, hother, hself⟩, he⟩ := issueOp_eq (s.rstrMarked va n e pw) dh rd 0 o
  have hid : (s.rstrMarked va n e pw).nextId = s.nextId := hu.nextId
  have hcu : (s.rstrMarked va n e pw).cur = s.cur := hu.cur
  have hop : ∀ p, issuedOp (s.rstrMarked va n e pw) o p = issuedOp s o p := fun p => hu.issuedOp o p
  have hctx : Tab.find ((s.rstrMarked va n e pw).ctx s.ctxId).rt n = some (e.setMig true) := by
    refine (congrArg (fun x : Ctx => Tab.find x.rt n) (ctx_setCtx_self (s.noteRcAt va) s.ctxId _)).trans ?_
    exact (tab_find_put _ _ _ _).trans (if_pos rfl)
  have hcur : t.cur = s.cur := (congrArg State.cur hrest).trans hcu
  have hth : t.th = s.th := by
    rw [State.th, hcur, ← hcu, hself, claimed_none (.inr ho)]
    exact hu.th
  obtain ⟨hpc, hrd, hh⟩ := issuedRegs hth dh (engHandle s.nextId) rd 0
  intro v
  have hv : v = t.modTh fun t => t.issued dh (engHandle s.nextId) rd 0 := he.trans (by rw [hid])
  rw [hv]
  refine ⟨hpc, hrd.trans (ite_self _), hh, ?_, fun a => rdByte_congr ((congrArg State.mem hrest).trans hu.mem) a,
    (s.rstrMarked va n e pw).promised.toNat, ?_⟩
  · exact (congrArg (fun x : State => Tab.find (x.ctx s.ctxId).rt n) hrest).trans hctx
  · exact (congrArg State.ops hrest).trans (congrArg₂ (fun (l : List EngOp) x => l ++ [x]) hu.ops (hop _))

/-- Settles O29: the checks of the four words in their order, and what each writes. -/
theorem publishFlashAndRestripeWords : Obligations.PublishFlashAndRestripeWords := by
  unfold Obligations.PublishFlashAndRestripeWords
  intro rd ra rb dh dm key s o d flashOp dense
  refine ⟨fun ht ho h1 h2 hp hl x hx => ?publ, fun x hd hx hm => ?flash, ⟨fun h => exec_rstr_held h, fun h => ⟨fun k hk => ?refused, fun n e hk hm => ?accepted⟩⟩,
    fun c n va pw => rfl, ?check, ?traps⟩
  case publ =>
    have hu := rcOnly_noteRc s x
    have hexec : exec (.publ rd dm ra rb) s = .next (((s.noteRc x).publNoted o (s.rdS ra) (s.rdS rb) x).modTh
        fun t => t.issued dm {} rd (BitVec.ofNat 64 o.due)) := by
      rw [exec_publ_of (publOp_ok ht ho h1 h2 hp hl), ← wrDS_advance, statusWord_at _ hx]
      rfl
    obtain ⟨hpc, hrd, hh⟩ := issuedRegs (u := (s.noteRc x).publNoted o (s.rdS ra) (s.rdS rb) x) hu.th dm {} rd (BitVec.ofNat 64 o.due)
    have hop : (s.noteRc x).op? o.id = some o := by
      rw [id_of_op? ho, State.op?, hu.ops]; exact ho
    have hset := op?_setOp_self (s := ({ s.noteRc x with nextId := (s.noteRc x).nextId + 1 } : State))
      (o' := { o with publ := some (s.rdS ra, s.rdS rb), order := (s.noteRc x).nextId, stAt := x.held }) hop
    rw [hu.nextId] at hset
    refine ⟨_, hexec, hpc, hrd, hh, ?_, fun a => rdByte_congr hu.mem a⟩
    rw [State.publNoted, hu.nextId]
    exact hset
  case flash =>
    obtain ⟨ht, hw, hi, hdims, hs, hb, ha⟩ := hd
    have hmap : ∀ k, instMap d k = k := fun k => by
      rw [instMap_dense ht hw hi hdims hs, if_neg (not_not.mpr hb), if_neg (not_not.mpr ha)]
    refine ⟨fun hra => flash_issues ?_ hx hm, flash_issues ?_ hx hm⟩
    · rw [exec_inst, hmap, if_neg (not_not.mpr hra)]
    · rw [exec_stage, hmap]
  case refused =>
    have hu := rcOnly_noteRcAt s (s.rdS ra)
    have hexec := exec_rstr_refused (rd := rd) (dh := dh) h hk
    rw [wrDS_advance] at hexec
    obtain ⟨hpc, hrd, hh⟩ := issuedRegs hu.th dh {} rd (k.setWidth 64)
    exact ⟨_, hexec, hpc, hrd, hh, fun a => rdByte_congr hu.mem a, hu.accessFrame.modTh _⟩
  case accepted =>
    obtain ⟨hpc, hrd, hh, hmig, hmem, p, hops⟩ := rstr_issued s (s.rdS ra) n e ((s.rdS rb).toNat % 2 ^ 32) rd dh
      (restripe s.ctxId n (s.rdS ra) ((s.rdS rb).setWidth 32)) nofun
    exact ⟨_, p, exec_rstr_accepted h hk hm, hpc, hrd, hh, hmig, hmem, hops⟩
  case check =>
    refine ⟨fun h => rstrCheck_absent h, fun n e hv he => ?_⟩
    have hc := rstrCheck_entry (v := s.rdS rb) hv he
    refine ⟨fun hp => by rw [hc, hp]; rfl, fun hp => ⟨fun hk => ?_, fun hk hk' hr => ?_, fun hk hk' hr hp' => ⟨fun hver => ?_, fun hver ⟨k, hin⟩ => ?_, fun hver hin => ?_⟩⟩⟩
    all_goals rw [if_neg (by rw [hp]; decide)] at hc
    · rw [hc, if_pos hk]
    all_goals rw [if_neg (not_or.mpr ⟨not_not.mpr hk, not_not.mpr hk'⟩)] at hc
    · rw [hc, if_pos (hr.imp_right fun h => by rw [h]; rfl)]
    all_goals rw [if_neg (not_or.mpr ⟨not_not.mpr hr, by rw [hp']; decide⟩)] at hc
    · rw [hc, if_pos hver]
    all_goals rw [if_neg (not_not.mpr hver)] at hc
    · rw [hc] at hin ⊢
      split
      · rfl
      · rename_i hn; rw [if_neg hn] at hin; exact nomatch hin
    · rw [hc]
      split
      · rename_i hy; exact absurd (hc.trans (if_pos hy)) (hin _)
      · rfl
  case traps =>
    have hpubl := exec_publ rd dm ra rb s
    have hinst := exec_inst (s := s) (rd := rd) (dh := dh) (dm := dm) (ra := ra) (rb := rb) (key := key)
    have hstage := exec_stage (s := s) (rd := rd) (dh := dh) (dm := dm) (rb := rb) (key := key)
    refine ⟨fun ht => ?_, fun ht => ⟨fun ho => ?_, fun ho hk => ?_, fun ho h1 h2 => ⟨fun hp => ?_, fun hp hl => ?_⟩⟩,
      fun ht => ⟨traps_of hinst (instMap_tag ht), traps_of hstage (instMap_tag ht)⟩,
      fun ht h => ⟨traps_of hinst (instMap_sparse ht h), traps_of hstage (instMap_sparse ht h)⟩, fun ht hw hi hd hs => ?_⟩
    · exact traps_of hpubl (by rw [publOp_tag ht]; rfl)
    · exact traps_of hpubl (by rw [publOp_none ht ho]; rfl)
    · exact traps_of hpubl (by rw [publOp_flash ht ho hk]; rfl)
    · exact traps_of hpubl (by rw [publOp_used ht ho h1 h2 hp]; rfl)
    · exact statusTraps _ (exec_publ_of (publOp_ok ht ho h1 h2 hp hl))
    · rw [instMap_dense ht hw hi hd hs] at hinst hstage
      refine ⟨fun hb => ⟨traps_of hinst (if_pos hb), traps_of hstage (if_pos hb)⟩, fun hb ha => ?_, fun hb ha => ⟨fun hra => ?_, fun hra => ?_, ?_⟩⟩
      all_goals rw [if_neg (not_not.mpr hb)] at hinst hstage
      · exact ⟨traps_of hinst (if_pos ha), traps_of hstage (if_pos ha)⟩
      all_goals rw [if_neg (not_not.mpr ha)] at hinst hstage
      · exact traps_of hinst (if_pos hra)
      · rw [if_neg (not_not.mpr hra)] at hinst
        exact statusTraps _ hinst
      · exact statusTraps _ hstage

end Sys2Proof.Machine
end

section
/-! PROOFS. When an element slot waits, passes EOS or faults (R64, R195, R410). -/

namespace Sys2Proof.Machine

open Sys2Proof

/-- The word of an element operation attempts one firing of its slot, under the tags that its operands need. -/
def FiresElements (i : FabW → Instr) (need : FabW → List (Nat × BitVec 4)) : Prop :=
  ∀ (w : FabW) (s : State), ∃ make : Fab → Pay → Pay → Pay → Nat → Made, exec (i w) s = s.fabric w fun f => s.fireElem f (need w) (make f)

theorem firesElements_of_mem : ∀ e ∈ elementOps, FiresElements e.1 e.2 := by
  intro e he
  fin_cases he
  all_goals exact fun w s => ⟨_, rfl⟩

theorem fabric_none {s : State} {w : FabW} (h : s.fab? w = none) (go : Fab → Fire) : s.fabric w go = .next s := by
  simp only [State.fabric, h]

/-! ### The tokens at the heads of a slot's inputs -/

/-- The tokens listed stand at positions asked for. -/
theorem pos_mem_of_heads {s : State} {f : Fab} {ps : List Nat} {l : List (Nat × Token)} (h : s.heads f ps = some l) : ∀ p ∈ l, p.1 ∈ ps := by
  induction ps generalizing l with
  | nil => cases h; exact fun _ hp => absurd hp List.not_mem_nil
  | cons q ps ih =>
    unfold State.heads at h
    split at h
    · split at h
      · rename_i h'
        cases h
        rintro p (_ | ⟨_, hp⟩)
        · exact List.mem_cons_self
        · exact List.mem_cons_of_mem _ (ih h' p hp)
      · cases h
    · exact fun p hp => List.mem_cons_of_mem _ (ih h p hp)

/-- Every fed position asked for has its token listed. -/
theorem exists_mem_of_heads {s : State} {f : Fab} {ps : List Nat} {l : List (Nat × Token)} (h : s.heads f ps = some l) :
    ∀ q ∈ ps, f.fed q = true → ∃ t, (q, t) ∈ l := by
  induction ps generalizing l with
  | nil => exact fun _ hp => absurd hp List.not_mem_nil
  | cons q ps ih =>
    unfold State.heads at h
    split at h
    · split at h
      · rename_i t l' _ h'
        cases h
        rintro p (_ | ⟨_, hp⟩) hf
        · exact ⟨t, List.mem_cons_self⟩
        · obtain ⟨t', ht'⟩ := ih h' p hp hf
          exact ⟨t', List.mem_cons_of_mem _ ht'⟩
      · cases h
    · rename_i hq
      rintro p (_ | ⟨_, hp⟩) hf
      · exact absurd hf hq
      · exact ih h p hp hf

/-- With an EOS taken at every fed input, the slot has sent its own (R234). -/
theorem eosSent_noteEos {s : State} {f : Fab} {l : List (Nat × Token)} (o : OpSt) (hl : s.heads f [0, 1, 2, 3] = some l) (hne : l ≠ [])
    (heos : ∀ p ∈ l, p.2.kind = .eos) : (f.noteEos o l).eosSent = true := by
  have hseen : (l.filter fun p => decide (p.1 < 4) && p.2.kind == .eos) = l := by
    refine List.filter_eq_self.mpr fun p hp => ?_
    have hpos := pos_mem_of_heads hl p hp
    have h4 : p.1 < 4 := by
      simp only [List.mem_cons, List.not_mem_nil, or_false] at hpos
      omega
    rw [decide_eq_true h4, heos p hp]
    rfl
  have hins : ∀ p ∈ f.endInputs, ((o.eosIn ++ l.map Prod.fst).eraseDups).contains p = true := by
    intro p hp
    obtain ⟨hq, hf⟩ := List.mem_filter.mp hp
    rw [Bool.and_eq_true, Bool.and_eq_true] at hf
    obtain ⟨t, ht⟩ := exists_mem_of_heads hl p hq hf.1.1
    rw [List.contains_iff_mem, List.mem_eraseDups]
    exact List.mem_append_right _ (List.mem_map_of_mem ht)
  unfold Fab.noteEos
  simp only [hseen]
  rw [if_neg (by simpa using hne)]
  exact Bool.or_eq_true_iff.mpr (.inr (List.all_eq_true.mpr hins))

/-! ### What the tokens at the operands say -/

/-- An EOS stands at an operand. -/
theorem any_eos {l : List (Nat × Token)} (h : ∃ p ∈ l, p.1 < 3 ∧ p.2.kind = .eos) :
    ((l.filter fun p => decide (p.1 < 3)).any fun p => p.2.kind == .eos) = true := by
  obtain ⟨p, hp, h3, he⟩ := h
  exact List.any_eq_true.mpr ⟨p, List.mem_filter.mpr ⟨hp, decide_eq_true h3⟩, beq_iff_eq.mpr he⟩

theorem eosOf_all {l : List (Nat × Token)} (h : ∃ p ∈ l, p.1 < 3 ∧ p.2.kind = .eos) (ha : ∀ p ∈ l, p.1 < 3 → p.2.kind = .eos) : eosOf l = some true := by
  rw [eosOf, if_pos (any_eos h)]
  refine congrArg some (List.all_eq_true.mpr fun p hp => ?_)
  obtain ⟨hp, h3⟩ := List.mem_filter.mp hp
  exact beq_iff_eq.mpr (ha p hp (of_decide_eq_true h3))

theorem eosOf_some {l : List (Nat × Token)} (h : ∃ p ∈ l, p.1 < 3 ∧ p.2.kind = .eos) (hn : ∃ p ∈ l, p.1 < 3 ∧ p.2.kind ≠ .eos) : eosOf l = some false := by
  rw [eosOf, if_pos (any_eos h)]
  refine congrArg some (Bool.eq_false_iff.mpr fun ha => ?_)
  obtain ⟨p, hp, h3, he⟩ := hn
  exact he (beq_iff_eq.mp (List.all_eq_true.mp ha p (List.mem_filter.mpr ⟨hp, decide_eq_true h3⟩)))

theorem any_poisoned {l : List (Nat × Token)} (h : ∃ p ∈ l, p.2.poison = true) : (l.any fun p => p.2.poison) = true :=
  List.any_eq_true.mpr h

/-! ### The checks of a firing, in their order -/

section
variable {s : State} {f : Fab} {need : List (Nat × BitVec 4)} {l : List (Nat × Token)}

theorem checked_none (go : List (Nat × Token) → Fire) (h : s.heads f [0, 1, 2, 3] = none) : s.checked f need go = .wait := by
  rw [State.checked, h]

theorem checked_some (go : List (Nat × Token) → Fire) (h : s.heads f [0, 1, 2, 3] = some l) (hne : l ≠ []) : s.checked f need go = match eosOf l with
    | some true => s.passEos f l
    | some false => .fault .format (waveOf l) 0
    | none => if l.any fun p => p.2.poison then .fault .poison (waveOf l) 0 else if !tagsOk need l then .fault .format (waveOf l) 0 else go l := by
  rw [State.checked, h]
  exact if_neg (by simpa using hne)

end

/-- Settles O30: the checks of a firing in their order, the end of stream first. -/
theorem elementSlotRules : Obligations.ElementSlotRules := by
  unfold Obligations.ElementSlotRules
  intro e he w s
  obtain ⟨make, hexec⟩ := firesElements_of_mem e he w s
  refine ⟨fun h => hexec.trans (fabric_none h _), fun f l ha => ?_⟩
  rw [fabric_acts ha] at hexec
  have hcheck : s.ditherLate f = false → s.fireElem f (e.2 w) (make f) = s.checked f (e.2 w) _ := fun hd => if_neg (by rw [hd]; decide)
  refine ⟨fun h => ?missing, fun hd => ?late, fun hd hl hne => ?checks⟩
  case missing =>
    have : s.fireElem f (e.2 w) (make f) = .wait := by
      by_cases hd : s.ditherLate f = true
      · exact if_pos hd
      · rw [hcheck (Bool.eq_false_iff.mpr hd), checked_none _ h]
    rw [this] at hexec
    exact hexec
  case late =>
    rw [show s.fireElem f (e.2 w) (make f) = .wait from if_pos hd] at hexec
    exact hexec
  case checks =>
    rw [hcheck hd, checked_some _ hl hne] at hexec
    refine ⟨fun h hn => ?mixed, fun h hall => ⟨fun hp => ?poisonedEos, fun hp u hu => ⟨?sent, fun ha => eosSent_noteEos _ hl hne ha⟩⟩,
      fun h hp => ?poisoned, fun h hp ht => ?format⟩
    case mixed => rw [hexec, eosOf_some h hn]
    case poisonedEos => rw [hexec, eosOf_all h hall]; simp only [State.passEos, any_poisoned hp, if_true]
    case sent =>
      rw [hexec, eosOf_all h hall]
      simp only [State.passEos, any_poison hp, Bool.false_eq_true, if_false, hu]
      rfl
    case poisoned => rw [hexec, eosOf_none h]; simp only [any_poisoned hp, if_true]
    case format => rw [hexec, eosOf_none h]; simp only [any_poison hp, ht, Bool.false_eq_true, if_false, Bool.not_false, if_true]

end Sys2Proof.Machine
end

section
/-! PROOFS. The integer element operations (R94, R111, R119 to R123, R135). -/

namespace Sys2Proof.Machine

open Sys2Proof

/-! ### Widths -/

theorem fmtWidth_cases (f : BitVec 4) : fmtWidth f = 4 ∨ fmtWidth f = 8 ∨ fmtWidth f = 16 ∨ fmtWidth f = 32 := by
  revert f; decide

theorem fmtWidth_pos (f : BitVec 4) : 0 < fmtWidth f := by
  rcases fmtWidth_cases f with h | h | h | h <;> omega

/-- The elements of a format fill a token. -/
theorem fmtWidth_mul (f : BitVec 4) : fmtWidth f * (512 / fmtWidth f) = 512 := by
  rcases fmtWidth_cases f with h | h | h | h <;> rw [h]

/-! ### Integers in a format (R94, R111, R120) -/

section
variable (f : BitVec 4)

theorem two_pow_fw : (2 ^ fw f : Nat) = 2 * 2 ^ (fw f - 1) := by
  rw [← Nat.pow_succ']
  exact congrArg (2 ^ ·) (Nat.sub_add_cancel (fmtWidth_pos f)).symm

theorem intMin_le_intVal (x : Nat) : intMin f ≤ intVal f x := by
  have hpow := two_pow_fw f
  unfold intMin intVal sintOf
  split
  · split <;> omega
  · exact Int.natCast_nonneg _

theorem intVal_le_intMax (x : Nat) : intVal f x ≤ intMax f := by
  have hpow := two_pow_fw f
  have hlt : x % 2 ^ fw f < 2 ^ fw f := Nat.mod_lt _ (by positivity)
  unfold intMax intVal sintOf
  split
  · split <;> omega
  · omega

theorem intCode_lt (v : Int) : intCode (fw f) v < 2 ^ fw f := by
  have hpos : (0 : Int) < (2 ^ fw f : Nat) := by exact_mod_cast Nat.two_pow_pos _
  have h := Int.emod_lt_of_pos v hpos
  unfold intCode
  omega

theorem intCode_cast (v : Int) : (intCode (fw f) v : Int) = v % (2 ^ fw f : Nat) :=
  Int.toNat_of_nonneg (Int.emod_nonneg _ (by exact_mod_cast (Nat.two_pow_pos _).ne'))

/-- A code reads as the number that it was made of, but for a multiple of 2^w. -/
theorem dvd_intVal_intCode (v : Int) : ((2 ^ fw f : Nat) : Int) ∣ intVal f (intCode (fw f) v) - v := by
  have hmod : ((2 ^ fw f : Nat) : Int) ∣ v % (2 ^ fw f : Nat) - v := by
    obtain ⟨q, hq⟩ : ((2 ^ fw f : Nat) : Int) ∣ v - v % (2 ^ fw f : Nat) := Int.dvd_self_sub_emod
    exact ⟨-q, by rw [mul_neg, ← hq]; ring⟩
  have hlt := Nat.mod_eq_of_lt (intCode_lt f v)
  unfold intVal sintOf
  rw [hlt, intCode_cast]
  split
  · split
    · exact hmod
    · rw [sub_right_comm]; exact Int.dvd_sub hmod (Int.dvd_refl _)
  · exact hmod

/-- A number in the format's range reads back. -/
theorem intVal_intCode {v : Int} (hmin : intMin f ≤ v) (hmax : v ≤ intMax f) : intVal f (intCode (fw f) v) = v := by
  have hlo := intMin_le_intVal f (intCode (fw f) v)
  have hhi := intVal_le_intMax f (intCode (fw f) v)
  have hspan : intMax f - intMin f < (2 ^ fw f : Nat) := by
    have hpow := two_pow_fw f
    unfold intMax intMin
    split <;> omega
  have hzero := Int.eq_zero_of_abs_lt_dvd (dvd_intVal_intCode f v) (abs_lt.mpr ⟨by omega, by omega⟩)
  omega

theorem intMin_le_intMax : intMin f ≤ intMax f := (intMin_le_intVal f 0).trans (intVal_le_intMax f 0)

theorem fitInt_wrap (v : Int) : fitInt f false v = (intCode (fw f) v, 0) := rfl

theorem fitInt_fits (sat : Bool) {v : Int} (hmin : intMin f ≤ v) (hmax : v ≤ intMax f) : fitInt f sat v = (intCode (fw f) v, 0) := by
  cases sat with
  | false => rfl
  | true => rw [fitInt, if_pos rfl, if_neg (not_lt.mpr hmax), if_neg (not_lt.mpr hmin)]; rfl

theorem fitInt_above {v : Int} (h : intMax f < v) : fitInt f true v = (intCode (fw f) (intMax f), fSV) := by
  rw [fitInt, if_pos rfl, if_pos h]

theorem fitInt_below {v : Int} (h : v < intMin f) : fitInt f true v = (intCode (fw f) (intMin f), fSV) := by
  rw [fitInt, if_pos rfl, if_neg (not_lt.mpr (h.le.trans (intMin_le_intMax f))), if_pos h]

theorem fitInt_lt (sat : Bool) (v : Int) : (fitInt f sat v).1 < 2 ^ fmtWidth f := by
  unfold fitInt
  repeat' split
  all_goals exact intCode_lt f _

/-- The only flag that fitting an integer can raise is SV. -/
theorem fitInt_flags (sat : Bool) (v : Int) : (fitInt f sat v).2 = 0 ∨ (fitInt f sat v).2 = fSV := by
  unfold fitInt
  repeat' split
  · exact .inr rfl
  · exact .inr rfl
  · exact .inl rfl
  · exact .inl rfl

end

/-! ### Results made of elements -/

theorem elem_lt (w : Nat) (p : Pay) (k : Nat) : elem w p k < 2 ^ w := Nat.mod_lt _ (by positivity)

theorem elem_madeElems (tag : BitVec 4) (g : Nat → Coded) {k : Nat} (hk : k < 512 / fmtWidth tag) :
    elem (fmtWidth tag) (madeElems tag g).pay k = (g k).1 % 2 ^ fmtWidth tag := by
  refine (elem_payOf _ _ ?_ k).trans ?_
  · simp only [List.length_map, List.length_range, fmtWidth_mul, le_refl]
  · rw [List.map_map, List.getD_eq_getElem _ _ (by simpa using hk)]
    simp

/-- The flags of elements that raise SV at most. -/
theorem flags_foldl {l : List Coded} (h : ∀ c ∈ l, c.2 = 0 ∨ c.2 = fSV) (fl : FlagSet) (hfl : fl = 0 ∨ fl = fSV) :
    l.foldl (fun fl c => fl ||| c.2) fl = if fl = fSV ∨ ∃ c ∈ l, c.2 = fSV then fSV else 0 := by
  induction l generalizing fl with
  | nil => rcases hfl with rfl | rfl <;> simp [fSV]
  | cons c l ih =>
    have hc := h c List.mem_cons_self
    have hor : fl ||| c.2 = if fl = fSV ∨ c.2 = fSV then fSV else 0 := by
      rcases hfl with rfl | rfl <;> rcases hc with hc | hc <;> rw [hc] <;> decide
    rw [List.foldl_cons, hor, ih (fun d hd => h d (List.mem_cons_of_mem _ hd)) _ ?_]
    · simp only [List.exists_mem_cons_iff, ← or_assoc]
      by_cases hsv : fl = fSV ∨ c.2 = fSV
      · simp only [hsv, if_true, true_or]
      · simp only [hsv, if_false, false_or, show ¬(0 : FlagSet) = fSV by decide]
    · split
      · exact .inr rfl
      · exact .inl rfl

theorem flags_madeElems {tag : BitVec 4} {g : Nat → Coded} (h : ∀ k, (g k).2 = 0 ∨ (g k).2 = fSV) :
    (madeElems tag g).fl = if ∃ k, k < 512 / fmtWidth tag ∧ (g k).2 = fSV then fSV else 0 := by
  refine (flags_foldl (fun c hc => ?_) 0 (.inl rfl)).trans ?_
  · obtain ⟨k, -, rfl⟩ := List.mem_map.mp hc
    exact h k
  · have : ((0 : FlagSet) = fSV ∨ ∃ c ∈ (List.range (512 / fmtWidth tag)).map g, c.2 = fSV) ↔ ∃ k, k < 512 / fmtWidth tag ∧ (g k).2 = fSV := by
      simp [fSV]
    simp only [this]

/-- Settles O32: what fitting an integer gives, element by element, with the flags of all of them together. -/
theorem integerElementsWrapOrSaturate : Obligations.IntegerElementsWrapOrSaturate := by
  unfold Obligations.IntegerElementsWrapOrSaturate
  intro fmt sat g a b k _ hk
  have hpow : ((2 ^ fmtWidth fmt : Nat) : Int) = 2 ^ fmtWidth fmt := by push_cast; rfl
  refine ⟨fun v => ⟨fitInt_lt fmt sat v, intMin_le_intVal _ _, intVal_le_intMax _ _, fun hmin hmax => ?fits, ?wraps, ?above, ?below⟩, ?_⟩
  case fits => rw [fitInt_fits fmt sat hmin hmax]; exact ⟨intVal_intCode fmt hmin hmax, rfl⟩
  case wraps => rintro rfl; rw [← hpow]; exact ⟨dvd_intVal_intCode fmt v, rfl⟩
  case above => rintro rfl h; rw [fitInt_above fmt h]; exact ⟨intVal_intCode fmt (intMin_le_intMax fmt) le_rfl, rfl⟩
  case below => rintro rfl h; rw [fitInt_below fmt h]; exact ⟨intVal_intCode fmt le_rfl (intMin_le_intMax fmt), rfl⟩
  intro m r v
  have hr : elem (fmtWidth fmt) m.pay k = (fitInt fmt sat v).1 :=
    (elem_madeElems fmt _ hk).trans (Nat.mod_eq_of_lt (fitInt_lt fmt sat v))
  have hfl : m.fl = if ∃ j, j < 512 / fmtWidth fmt ∧
      (fitInt fmt sat (g (intVal fmt (elem (fmtWidth fmt) a j)) (intVal fmt (elem (fmtWidth fmt) b j)))).2 = fSV then fSV else 0 :=
    flags_madeElems fun j => fitInt_flags fmt sat _
  have hval : r = intVal fmt (fitInt fmt sat v).1 := congrArg (intVal fmt) hr
  refine ⟨rfl, intMin_le_intVal _ _, intVal_le_intMax _ _, fun hmin hmax => ?fits, ?wraps, ?above, ?below, ?noFlag⟩
  case fits => rw [hval, fitInt_fits fmt sat hmin hmax]; exact intVal_intCode fmt hmin hmax
  case wraps =>
    rintro rfl
    rw [hval, ← hpow, hfl, if_neg (by simp [fitInt_wrap, fSV])]
    exact ⟨dvd_intVal_intCode fmt v, rfl⟩
  case above =>
    rintro rfl h
    rw [hval, fitInt_above fmt h, hfl, if_pos ⟨k, hk, congrArg Prod.snd (fitInt_above fmt h)⟩]
    exact ⟨intVal_intCode fmt (intMin_le_intMax fmt) le_rfl, rfl⟩
  case below =>
    rintro rfl h
    rw [hval, fitInt_below fmt h, hfl, if_pos ⟨k, hk, congrArg Prod.snd (fitInt_below fmt h)⟩]
    exact ⟨intVal_intCode fmt le_rfl (intMin_le_intMax fmt), rfl⟩
  case noFlag =>
    rintro rfl hall
    rw [hfl, if_neg]
    rintro ⟨j, hj, hsv⟩
    obtain ⟨hmin, hmax⟩ := hall j hj
    rw [fitInt_fits fmt true hmin hmax] at hsv
    exact absurd hsv (show (0 : FlagSet) ≠ fSV by decide)

/-! ### Sums, bits and trees -/

theorem foldl_add_eq {α : Type} (h : α → Int) (l : List α) (i : Int) : l.foldl (fun acc x => acc + h x) i = i + (l.map h).sum := by
  induction l generalizing i with
  | nil => simp
  | cons x l ih => rw [List.foldl_cons, ih, List.map_cons, List.sum_cons, Int.add_assoc]

theorem fmtWidth_wideTag (f : BitVec 4) : fmtWidth (wideTag f) = 32 := by
  unfold wideTag
  split <;> rfl

theorem elem_splat {w k : Nat} (x : Nat) (hw : w * (512 / w) = 512) (hk : k < 512 / w) : elem w (splat w x) k = x % 2 ^ w := by
  refine (elem_payOf _ _ ?_ k).trans ?_
  · rw [List.length_replicate, hw]
  · rw [List.getD_replicate (h := hk)]

/-- A list of bits as a number, the first least significant. -/
theorem packed_bits (l : List Bool) : l.foldr (fun b acc => (if b then 1 else 0) + 2 * acc) 0 = packed 1 (l.map Bool.toNat) := by
  induction l with
  | nil => rfl
  | cons b l ih =>
    rw [List.foldr_cons, ih]
    cases b <;> rfl

theorem testBit_packed_bits (l : List Bool) (j : Nat) : (packed 1 (l.map Bool.toNat)).testBit j = l.getD j false := by
  have h := packed_div_mod 1 (l.map Bool.toNat) j
  rw [Nat.one_mul, pow_one, show (0 : Nat) = Bool.toNat false from rfl, List.getD_map] at h
  rw [Nat.testBit_eq_decide_div_mod_eq, h]
  cases l.getD j false <;> rfl

/-- A predicate bit is a bit of the lane that its element lies in. -/
theorem predBit_eq_testBit {w : Nat} (p : Pay) {k : Nat} (hw : 0 < 32 / w) : predBit w p k = (elem 32 p (k / (32 / w))).testBit (k % (32 / w)) := by
  have hlt : k % (32 / w) < 32 := (Nat.mod_lt _ hw).trans_le (Nat.div_le_self _ _)
  rw [predBit, bitAt_eq_testBit, elem, bitsAt, Nat.testBit_mod_two_pow, decide_eq_true hlt, Bool.true_and, Nat.testBit_div_two_pow, Nat.add_comm]

theorem predBit_predPay {w : Nat} {l : List Bool} {k : Nat} (hw : 32 / w * 16 = 512 / w) (hk : k < 512 / w) : predBit w (predPay w l) k = l.getD k false := by
  have hpos : 0 < 32 / w := by
    by_contra hz
    rw [Nat.eq_zero_of_not_pos hz] at hw
    omega
  have hlane : k / (32 / w) < 16 := Nat.div_lt_of_lt_mul (by omega)
  have hbit : k % (32 / w) < 32 / w := Nat.mod_lt _ hpos
  rw [predBit_eq_testBit _ hpos, predPay, elem_payOf _ _ (by simp), List.getD_eq_getElem _ _ (by simpa using hlane), List.getElem_map,
    List.getElem_range, packed_bits, Nat.testBit_mod_two_pow, decide_eq_true (hbit.trans_le (Nat.div_le_self _ _)), Bool.true_and, testBit_packed_bits,
    List.getD_eq_getElem?_getD, List.getElem?_take_of_lt hbit, List.getElem?_drop, Nat.div_add_mod', ← List.getD_eq_getElem?_getD]

/-- The value of a pairwise tree over a sequence, i levels up at place k. -/
def treeAt {α : Type} (g : α → α → α) (h : Nat → α) : Nat → Nat → α
  | 0, k => h k
  | i + 1, k => g (treeAt g h i (2 * k)) (treeAt g h i (2 * k + 1))

theorem treeAt_succ {α : Type} (g : α → α → α) (h : Nat → α) (i k : Nat) :
    treeAt g (fun k => g (h (2 * k)) (h (2 * k + 1))) i k = treeAt g h (i + 1) k := by
  induction i generalizing k with
  | zero => rfl
  | succ i ih => rw [treeAt, ih, ih]; rfl

theorem pairUp_map_range {α : Type} (g : α → α → α) (m : Nat) (h : Nat → α) :
    pairUp g ((List.range (2 * m)).map h) = (List.range m).map fun k => g (h (2 * k)) (h (2 * k + 1)) := by
  induction m generalizing h with
  | zero => rfl
  | succ m ih =>
    rw [Nat.mul_succ, List.range_succ_eq_map, List.range_succ_eq_map, List.range_succ_eq_map]
    simp only [List.map_cons, List.map_map]
    exact congrArg₂ List.cons rfl (ih fun k => h (k + 2))

theorem pairTree_single {α : Type} (g : α → α → α) (j : Nat) (x : α) : pairTree g j [x] = [x] := by
  induction j with
  | zero => rfl
  | succ j ih => exact ih

/-- A pairwise tree over 2^n elements ends in the tree's value. -/
theorem pairTree_map_range {α : Type} (g : α → α → α) (j n : Nat) (h : Nat → α) : pairTree g (n + j) ((List.range (2 ^ n)).map h) = [treeAt g h n 0] := by
  induction n generalizing h with
  | zero => rw [Nat.zero_add]; exact pairTree_single g j (h 0)
  | succ n ih =>
    rw [Nat.succ_add, pairTree, Nat.pow_succ', pairUp_map_range, ih, treeAt_succ]

/-- The sums of a tree of additions do not rest on the flags. -/
theorem treeAt_addCoded (g : Nat → Nat → Coded) (x : Nat → Coded) (i k : Nat) :
    (treeAt (addCoded g) x i k).1 = treeAt (fun a b => (g a b).1) (fun k => (x k).1) i k := by
  induction i generalizing k with
  | zero => rfl
  | succ i ih => rw [treeAt, addCoded, ih, ih]; rfl

theorem levels_le {n w : Nat} (h : 2 ^ n = 512 / w) (hw : w = 4 ∨ w = 8 ∨ w = 16 ∨ w = 32) : n ≤ 7 := by
  refine (Nat.pow_le_pow_iff_right (by decide : 1 < 2)).mp ?_
  rw [h]
  rcases hw with rfl | rfl | rfl | rfl <;> decide

/-! ### The integer operations that combine elements -/

theorem vmadMake_elem {w : FabW} (h : w.x = 0) (a b c : Pay) {k : Nat} (hk : k < 512 / fmtWidth w.fmt) :
    elem (fmtWidth w.fmt) (vmadMake w a b c).pay k = (fitInt w.fmt w.sat (intVal w.fmt (elem (fmtWidth w.fmt) a k) * intVal w.fmt (elem (fmtWidth w.fmt) b k) +
      intVal w.fmt (elem (fmtWidth w.fmt) c k))).1 := by
  rw [vmadMake, if_pos h]
  exact (elem_madeElems w.fmt _ hk).trans (Nat.mod_eq_of_lt (fitInt_lt _ _ _))

theorem vmadMake_lane {w : FabW} (h : w.x ≠ 0) (a b c : Pay) {i : Nat} (hi : i < 16) :
    elem 32 (vmadMake w a b c).pay i = (fitInt (wideTag w.fmt) w.sat (intVal (wideTag w.fmt) (elem 32 c i) + ((List.range (32 / fmtWidth w.fmt)).map fun j =>
      intVal w.fmt (elem (fmtWidth w.fmt) a (i * (32 / fmtWidth w.fmt) + j)) * intVal w.fmt (elem (fmtWidth w.fmt) b (i * (32 / fmtWidth w.fmt) + j))).sum)).1 := by
  have hw := fmtWidth_wideTag w.fmt
  have hel := elem_madeElems (wideTag w.fmt) (k := i) (fun i => fitInt (wideTag w.fmt) w.sat
    (((laneElems (fmtWidth w.fmt) a i).zip (laneElems (fmtWidth w.fmt) b i)).foldl
      (fun acc p => acc + intVal w.fmt p.1 * intVal w.fmt p.2) (intVal (wideTag w.fmt) (elem 32 c i)))) (by rw [hw]; exact hi)
  rw [Nat.mod_eq_of_lt (fitInt_lt _ _ _), hw] at hel
  rw [vmadMake, if_neg h]
  refine hel.trans ?_
  rw [laneElems, laneElems, List.zip_map', List.foldl_map, foldl_add_eq]

theorem vcmpMake_bit (w : FabW) (a b : Pay) {k : Nat} (hk : k < 512 / fmtWidth w.fmt) : predBit (fmtWidth w.fmt) (vcmpMake w a b).pay k =
    condBit w.x.toNat (decide (intVal w.fmt (elem (fmtWidth w.fmt) a k) < intVal w.fmt (elem (fmtWidth w.fmt) b k)))
      (decide (intVal w.fmt (elem (fmtWidth w.fmt) a k) = intVal w.fmt (elem (fmtWidth w.fmt) b k))) := by
  refine (predBit_predPay ?_ hk).trans ?_
  · rcases fmtWidth_cases w.fmt with h | h | h | h <;> rw [h]
  · rw [List.getD_eq_getElem _ _ (by simpa using hk), List.getElem_map, List.getElem_range]

theorem condBit_not {α : Type} [LinearOrder α] [DecidableLT α] [DecidableEq α] (x y : α) :
    ((!decide (x = y)) = true ↔ x ≠ y) ∧ ((!decide (x < y)) = true ↔ y ≤ x) ∧
      ((decide (x < y) || decide (x = y)) = true ↔ x ≤ y) ∧ ((!(decide (x < y) || decide (x = y))) = true ↔ y < x) := by
  simp only [Bool.not_eq_true', Bool.or_eq_true, Bool.or_eq_false_iff, decide_eq_true_eq, decide_eq_false_iff_not]
  exact ⟨trivial, not_lt, le_iff_lt_or_eq.symm, by rw [← not_or, ← le_iff_lt_or_eq, not_le]⟩

theorem vselMake_elem (w : FabW) (a b p : Pay) {k : Nat} (hk : k < 512 / fmtWidth w.fmt) : elem (fmtWidth w.fmt) (vselMake w a b p).pay k =
    if predBit (fmtWidth w.fmt) p k then elem (fmtWidth w.fmt) a k else elem (fmtWidth w.fmt) b k := by
  refine (elem_madeElems w.fmt _ hk).trans (Nat.mod_eq_of_lt ?_)
  dsimp only
  split <;> exact elem_lt _ _ _

/-- The partial sums of a tree of additions that fit the format. -/
theorem treeAt_fitInt_lt (w : FabW) (a : Pay) (i k : Nat) :
    treeAt (fun x y => (fitInt w.fmt w.sat (intVal w.fmt x + intVal w.fmt y)).1) (elem (fmtWidth w.fmt) a) i k < 2 ^ fmtWidth w.fmt := by
  cases i with
  | zero => exact elem_lt _ _ _
  | succ i => exact fitInt_lt _ _ _

theorem vredMake_tree {w : FabW} (h : w.x = 0) (a : Pay) {n : Nat} (hn : 2 ^ n = 512 / fmtWidth w.fmt) : AllElems (fmtWidth w.fmt) (vredMake w a)
    (treeAt (fun x y => (fitInt w.fmt w.sat (intVal w.fmt x + intVal w.fmt y)).1) (elem (fmtWidth w.fmt) a) n 0) := by
  intro k hk
  obtain ⟨j, hj⟩ := Nat.exists_eq_add_of_le (levels_le hn (fmtWidth_cases w.fmt))
  have hlist : (elemsOf (fmtWidth w.fmt) a).map (fun x => ((x, 0) : Coded)) = (List.range (2 ^ n)).map fun k => (elem (fmtWidth w.fmt) a k, 0) := by
    rw [hn, elemsOf, List.map_map]; rfl
  rw [vredMake, if_pos h]
  simp only [hlist, hj, pairTree_map_range, List.headD_cons, treeAt_addCoded]
  exact (elem_splat _ (fmtWidth_mul w.fmt) hk).trans (Nat.mod_eq_of_lt (treeAt_fitInt_lt w a n 0))

theorem vredMake_sum {w : FabW} (h : w.x ≠ 0) (a : Pay) : AllElems 32 (vredMake w a)
    (fitInt (wideTag w.fmt) w.sat ((List.range (512 / fmtWidth w.fmt)).map fun k => intVal w.fmt (elem (fmtWidth w.fmt) a k)).sum).1 := by
  intro k hk
  have hlt := fitInt_lt (wideTag w.fmt) w.sat ((List.range (512 / fmtWidth w.fmt)).map fun k => intVal w.fmt (elem (fmtWidth w.fmt) a k)).sum
  rw [fmtWidth_wideTag] at hlt
  rw [vredMake, if_neg h, elemsOf, List.foldl_map, foldl_add_eq, Int.zero_add]
  exact (elem_splat _ (by decide) hk).trans (Nat.mod_eq_of_lt hlt)

/-- Settles O31: the results of the operations that combine elements, then the word of each operation. -/
theorem integerElementFirings : Obligations.IntegerElementFirings := by
  unfold Obligations.IntegerElementFirings
  refine ⟨?makes, ?words⟩
  case makes =>
    intro w a b c _
    refine ⟨fun h => ⟨?madTag, fun k hk => vmadMake_elem h a b c hk⟩, fun h => ⟨?sumTag, fun i hi => vmadMake_lane h a b c hi⟩, ⟨rfl, rfl, fun k hk => ?cmp⟩,
      ⟨rfl, ?selFlags, fun k hk => vselMake_elem w a b c hk⟩, fun h => ⟨?redTag, fun n hn => ⟨_, fun _ _ => rfl, fun _ _ _ => rfl, vredMake_tree h a hn⟩⟩,
      fun h => ⟨?redSumTag, vredMake_sum h a⟩, ?wide⟩
    case madTag => rw [vmadMake, if_pos h]; rfl
    case sumTag => rw [vmadMake, if_neg h]; rfl
    case cmp =>
      rw [vcmpMake_bit w a b hk]
      beta_reduce
      generalize intVal w.fmt (elem (fmtWidth w.fmt) a k) = x, intVal w.fmt (elem (fmtWidth w.fmt) b k) = y
      match w.x.toNat with
      | 0 => exact decide_eq_true_iff
      | 1 => exact (condBit_not x y).1
      | 2 => exact decide_eq_true_iff
      | 3 => exact (condBit_not x y).2.1
      | 4 => exact (condBit_not x y).2.2.1
      | n + 5 => exact (condBit_not x y).2.2.2
    case selFlags => exact (flags_madeElems fun _ => .inl rfl).trans (if_neg (by simp [fSV]))
    case redTag => rw [vredMake, if_pos h]
    case redSumTag => rw [vredMake, if_neg h]
    case wide =>
      unfold wideTag fmtSigned
      simp only [Bool.or_eq_true, beq_iff_eq, or_assoc]
  case words =>
    intro w s
    repeat' apply And.intro
    all_goals exact elementResult_of rfl

end Sys2Proof.Machine
end

section
/-! PROOFS. The floating element operations (R119, R124 to R129, R136). -/

namespace Sys2Proof.Machine

open Sys2Proof

/-! ### Exact numbers of readings -/

/-- A reading is finite and stands for an exact number. -/
def Val.Is (v : Val) (q : ℚ) : Prop := ∃ neg m e, v = .fin neg m e ∧ exactOf neg m e = q

/-- A sign applied to a number. -/
def signed (neg : Bool) (m : Nat) : Int := if neg then -(m : Int) else m

theorem pw2_cast {k : Int} (h : 0 ≤ k) : ((pw2 k : Nat) : ℚ) = 2 ^ k := by
  obtain ⟨n, rfl⟩ := Int.eq_ofNat_of_zero_le h
  simp [pw2]

theorem exactOf_eq (neg : Bool) (m : Nat) (e : Int) : exactOf neg m e = (signed neg m : ℚ) * 2 ^ e := by
  cases neg <;> simp [exactOf, signed]

/-- A reading written as a multiple of a lower power of two. -/
theorem exactOf_rescale (neg : Bool) (m : Nat) {e k : Int} (h : k ≤ e) : exactOf neg m e = (signed neg (m * pw2 (e - k)) : ℚ) * 2 ^ k := by
  have hpow : (2 : ℚ) ^ e = 2 ^ (e - k) * 2 ^ k := by rw [← zpow_add₀ two_ne_zero, Int.sub_add_cancel]
  have hpw := pw2_cast (sub_nonneg.mpr h)
  rw [exactOf, hpow, ← hpw]
  cases neg <;> simp [signed] <;> ring

theorem exactOf_zero (neg : Bool) (e : Int) : exactOf neg 0 e = 0 := by simp [exactOf]

theorem ofInt_is (z : Bool) (v : Int) (e : Int) : (Val.ofInt z v e).Is (v * 2 ^ e) := by
  unfold Val.ofInt
  split
  · rename_i h; exact ⟨z, 0, 0, rfl, by rw [exactOf_zero, h]; simp⟩
  · refine ⟨_, _, _, rfl, ?_⟩
    have : signed (decide (v < 0)) v.natAbs = v := by
      unfold signed
      split <;> simp only [decide_eq_true_eq] at * <;> omega
    rw [exactOf_eq, this]

theorem addFin_is (rdn a b : Bool) (m n : Nat) (e g : Int) : (addFin rdn a m e b n g).Is (exactOf a m e + exactOf b n g) := by
  unfold addFin
  split
  · rename_i hm
    rw [hm, exactOf_zero, zero_add]
    split
    · rename_i hn
      rw [hn, exactOf_zero]
      split <;> exact ⟨_, _, _, rfl, exactOf_zero _ _⟩
    · exact ⟨_, _, _, rfl, rfl⟩
  · split
    · rename_i hn
      rw [hn, exactOf_zero, add_zero]
      exact ⟨_, _, _, rfl, rfl⟩
    · have h := ofInt_is rdn (signed a (m * pw2 (e - min e g)) + signed b (n * pw2 (g - min e g))) (min e g)
      rw [exactOf_rescale a m (min_le_left e g), exactOf_rescale b n (min_le_right e g), ← add_mul]
      rw [Int.cast_add] at h
      exact h

theorem mul_is (a b : Bool) (m n : Nat) (e g : Int) : (Val.fin (a != b) (m * n) (e + g)).Is (exactOf a m e * exactOf b n g) := by
  refine ⟨_, _, _, rfl, ?_⟩
  rw [exactOf, exactOf, exactOf, zpow_add₀ two_ne_zero, Nat.cast_mul]
  cases a <;> cases b <;> simp <;> ring

/-- The order of two readings is that of their exact numbers. -/
theorem lt_iff_exactOf (a b : Bool) (m n : Nat) (e g : Int) : (Val.fin a m e).lt (.fin b n g) = true ↔ exactOf a m e < exactOf b n g := by
  rw [exactOf_rescale a m (min_le_left e g), exactOf_rescale b n (min_le_right e g), mul_lt_mul_iff_left₀ (zpow_pos two_pos _), Int.cast_lt]
  exact decide_eq_true_iff

/-! ### One rounding -/

theorem isSnan_false {f : BitVec 4} {x : Nat} (h : decodeVal f x ≠ .nan) : isSnan f x = false := by
  unfold isSnan
  unfold decodeVal at h
  split
  · rename_i P hP
    rw [hP] at h
    simp only [beq_eq_false_iff_ne.mpr h, Bool.and_false, Bool.false_and]
  · rfl

theorem snanFlag_none {f : BitVec 4} {l : List Nat} (h : ∀ x ∈ l, decodeVal f x ≠ .nan) : snanFlag f l = 0 := by
  rw [snanFlag, List.any_eq_false.mpr fun x hx => by rw [isSnan_false (h x hx)]; decide]
  rfl

theorem roundOp_quiet (f : BitVec 4) (rnd : BitVec 3) (sat : Bool) (idx : Nat) (v : Val) : roundOp f rnd sat idx 0 (v, false) = roundVal f rnd sat idx v := by
  show ((roundVal f rnd sat idx v).1, (roundVal f rnd sat idx v).2 ||| 0#7 ||| 0#7) = _
  rw [BitVec.or_zero, BitVec.or_zero]

theorem oneRounding_of {f : BitVec 4} {rnd : BitVec 3} {sat : Bool} {idx : Nat} {fl : FlagSet} {v : Val} {q : ℚ} (hfl : fl = 0) (hv : v.Is q) :
    OneRounding f rnd sat idx (roundOp f rnd sat idx fl (v, false)) q := by
  obtain ⟨neg, m, e, rfl, hq⟩ := hv
  exact ⟨neg, m, e, hq, by rw [hfl, roundOp_quiet]⟩

/-- 2 to an integer power (R128). -/
theorem exp2Val_is {neg : Bool} {m : Nat} {e n : Int} (h : exactOf neg m e = n) : (exp2Val neg m e).Is (2 ^ n) := by
  unfold exp2Val
  split
  · rename_i he
    refine ⟨_, _, _, rfl, ?_⟩
    have hn : (if neg then -1 else 1) * ((m * pw2 e : Nat) : Int) = n := by
      have : ((signed neg (m * pw2 (e - 0)) : Int) : ℚ) = n := by rw [← h, exactOf_rescale neg m he]; simp
      rw [← Int.cast_injective this, Int.sub_zero]
      cases neg <;> simp [signed]
    rw [hn]
    simp [exactOf]
  · rename_i he
    have hk : ((pw2 (-e) : Nat) : ℚ) = 2 ^ (-e) := pw2_cast (by omega)
    have hv : signed neg m = n * (pw2 (-e) : Nat) := by
      refine Int.cast_injective (α := ℚ) ?_
      rw [Int.cast_mul, Int.cast_natCast, hk, ← h, exactOf_eq, mul_assoc, ← zpow_add₀ two_ne_zero, Int.add_right_neg, zpow_zero, mul_one]
    have hpos : ((pw2 (-e) : Nat) : Int) ≠ 0 := by exact_mod_cast (Nat.two_pow_pos _).ne'
    have hdiv : signed neg m / ((pw2 (-e) : Nat) : Int) = n := by rw [hv, Int.mul_ediv_cancel _ hpos]
    have hmod : signed neg m % ((pw2 (-e) : Nat) : Int) = 0 := by rw [hv, Int.mul_emod_left]
    unfold signed at hdiv hmod
    simp only [hdiv, hmod, Int.toNat_zero, if_true]
    exact ⟨_, _, _, rfl, by simp [exactOf]⟩

/-! ### The operations on finite operands (R124 to R127, R129) -/

section
variable {f : BitVec 4} {x y z : Nat} {nx ny nz : Bool} {mx my mz : Nat} {ex ey ez : Int}
  (hx : decodeVal f x = .fin nx mx ex) (hy : decodeVal f y = .fin ny my ey) (hz : decodeVal f z = .fin nz mz ez)
include hx

theorem snanFlag_one : snanFlag f [x] = 0 := snanFlag_none (by simp [hx])

theorem fldxCode_rounds (rnd : BitVec 3) (sat : Bool) (idx : Nat) (n : Int) :
    OneRounding f rnd sat idx (fldxCode f rnd sat idx x n) (exactOf nx mx ex * 2 ^ n) := by
  refine oneRounding_of (snanFlag_one hx) ?_
  rw [hx]
  dsimp only
  split
  · rename_i hm
    exact ⟨_, _, _, rfl, by rw [hm, exactOf_zero, exactOf_zero, zero_mul]⟩
  · exact ⟨_, _, _, rfl, by rw [exactOf, exactOf, zpow_add₀ two_ne_zero, mul_assoc _ (2 ^ ex)]⟩

theorem exp2_rounds (rnd : BitVec 3) (sat : Bool) (idx : Nat) (n : Int) (h : exactOf nx mx ex = n) :
    OneRounding f rnd sat idx (funCode .exp2 f rnd sat idx x) (2 ^ n) := by
  have hfun : (fun1 .exp2 (decodeVal f x)).2 = 0 ∧ (fun1 .exp2 (decodeVal f x)).1.Is (2 ^ n) := by
    rw [hx, fun1]
    split
    · rename_i hm
      rw [hm, exactOf_zero] at h
      have hn : n = 0 := by exact_mod_cast h.symm
      exact ⟨rfl, _, _, _, rfl, by simp [exactOf, hn]⟩
    · exact ⟨rfl, exp2Val_is h⟩
  exact oneRounding_of (by rw [snanFlag_one hx, hfun.1]; rfl) hfun.2

theorem fexpoCode_finite : fexpoCode f x =
    if mx = 0 then (intCode (fmtWidth (expTag f)) (intMin (expTag f)), fDZ) else (intCode (fmtWidth (expTag f)) (ex + Nat.log2 mx), 0) := by
  rw [fexpoCode, hx]; rfl

include hy

theorem snanFlag_two : snanFlag f [x, y] = 0 := snanFlag_none (by simp [hx, hy])

theorem faddCode_rounds (rnd : BitVec 3) (sat : Bool) (idx : Nat) :
    OneRounding f rnd sat idx (faddCode f rnd sat idx x y) (exactOf nx mx ex + exactOf ny my ey) := by
  rw [faddCode, hx, hy]
  exact oneRounding_of (snanFlag_two hx hy) (addFin_is ..)

theorem fsubCode_rounds (rnd : BitVec 3) (sat : Bool) (idx : Nat) :
    OneRounding f rnd sat idx (fsubCode f rnd sat idx x y) (exactOf nx mx ex - exactOf ny my ey) := by
  have hneg : exactOf (!ny) my ey = -exactOf ny my ey := by cases ny <;> simp [exactOf]
  rw [fsubCode, hx, hy, sub_eq_add_neg, ← hneg]
  exact oneRounding_of (snanFlag_two hx hy) (addFin_is ..)

theorem fmulCode_rounds (rnd : BitVec 3) (sat : Bool) (idx : Nat) :
    OneRounding f rnd sat idx (fmulCode f rnd sat idx x y) (exactOf nx mx ex * exactOf ny my ey) := by
  rw [fmulCode, hx, hy]
  exact oneRounding_of (snanFlag_two hx hy) (mul_is ..)

theorem lt_iff_finite : (decodeVal f x).lt (decodeVal f y) = true ↔ exactOf nx mx ex < exactOf ny my ey := by
  rw [hx, hy]; exact lt_iff_exactOf ..

theorem fminCode_less (h : exactOf nx mx ex < exactOf ny my ey) : fminCode f false x y = (x, 0) ∧ fminCode f true x y = (y, 0) := by
  simp [fminCode, hx, hy, snanFlag_two hx hy, (lt_iff_exactOf nx ny mx my ex ey).mpr h]

theorem fminCode_greater (h : exactOf ny my ey < exactOf nx mx ex) : fminCode f false x y = (y, 0) ∧ fminCode f true x y = (x, 0) := by
  have hlt : (Val.fin nx mx ex).lt (.fin ny my ey) = false := Bool.eq_false_iff.mpr fun hc => absurd ((lt_iff_exactOf ..).mp hc) h.le.not_gt
  simp [fminCode, hx, hy, snanFlag_two hx hy, hlt, (lt_iff_exactOf ny nx my mx ey ex).mpr h]

/-- The comparison of two finite operands, by the order of their exact numbers. -/
theorem fcmpBit_finite (c : Nat) : fcmpBit f c x y = (!decide (c = 6) && condBit c (decide (exactOf nx mx ex < exactOf ny my ey)) (decide (exactOf nx mx ex = exactOf ny my ey))) := by
  have hlt : (Val.fin nx mx ex).lt (.fin ny my ey) = decide (exactOf nx mx ex < exactOf ny my ey) :=
    Bool.eq_iff_iff.mpr ((lt_iff_exactOf ..).trans decide_eq_true_iff.symm)
  have hgt : (Val.fin ny my ey).lt (.fin nx mx ex) = decide (exactOf ny my ey < exactOf nx mx ex) :=
    Bool.eq_iff_iff.mpr ((lt_iff_exactOf ..).trans decide_eq_true_iff.symm)
  have heq : (!decide (exactOf nx mx ex < exactOf ny my ey) && !decide (exactOf ny my ey < exactOf nx mx ex)) =
      decide (exactOf nx mx ex = exactOf ny my ey) := by
    refine Bool.eq_iff_iff.mpr ?_
    simp only [Bool.and_eq_true, Bool.not_eq_true', decide_eq_false_iff_not, decide_eq_true_eq, not_lt]
    exact ⟨fun h => le_antisymm h.2 h.1, fun h => ⟨h.ge, h.le⟩⟩
  by_cases hc : c = 6
  · simp [fcmpBit, hx, hy, hc]
  · simp [fcmpBit, hx, hy, hc, hlt, hgt, heq]

include hz

theorem ffmaCode_rounds (rnd : BitVec 3) (sat : Bool) (idx : Nat) :
    OneRounding f rnd sat idx (ffmaCode f rnd sat idx x y z) (exactOf nx mx ex * exactOf ny my ey + exactOf nz mz ez) := by
  obtain ⟨_, _, _, hp, hq⟩ := mul_is nx ny mx my ex ey
  rw [← hq, ffmaCode, hx, hy, hz, Val.mul, hp]
  exact oneRounding_of (snanFlag_none (by simp [hx, hy, hz])) (addFin_is ..)

end

/-! ### Special operands (R125 to R128) -/

theorem funCode_of {g : Fun1} {f : BitVec 4} {x : Nat} {v w : Val} {fl : FlagSet} (hx : decodeVal f x = v) (hn : v ≠ .nan) (hg : fun1 g v = (w, fl))
    (rnd : BitVec 3) (sat : Bool) (idx : Nat) :
    funCode g f rnd sat idx x = ((roundVal f rnd sat idx w).1, (roundVal f rnd sat idx w).2 ||| fl) := by
  rw [funCode, hx, hg, snanFlag_none (by simpa [hx] using hn)]
  show ((roundVal f rnd sat idx w).1, (roundVal f rnd sat idx w).2 ||| (0#7 ||| fl) ||| 0#7) = _
  rw [BitVec.or_zero, BitVec.zero_or]

theorem fcmpBit_nan {f : BitVec 4} {x : Nat} (h : decodeVal f x = .nan) (c y : Nat) : fcmpBit f c x y = decide (c = 1 ∨ c = 6) := by
  by_cases hc : c = 6
  · simp [fcmpBit, h, hc]
  · simp [fcmpBit, h, hc, beq_eq_decide]

theorem fminCode_nan {f : BitVec 4} {x : Nat} (h : decodeVal f x = .nan) (maxi : Bool) (y : Nat) :
    (fminCode f maxi x y).1 = if decodeVal f y = .nan then canonNan f else y := by
  simp only [fminCode, h, if_true]
  split <;> rfl

/-! ### The reduction (R136) -/

theorem fredMake_tree {w : FabW} (h : w.x = 0) (a : Pay) {n : Nat} (hn : 2 ^ n = 512 / fmtWidth w.fmt) : AllElems (fmtWidth w.fmt) (fredMake w a)
    (treeAt (fun x y => (faddCode w.fmt 0 false 0 x y).1) (elem (fmtWidth w.fmt) a) n 0 % 2 ^ fmtWidth w.fmt) := by
  intro k hk
  obtain ⟨j, hj⟩ := Nat.exists_eq_add_of_le (levels_le hn (fmtWidth_cases w.fmt))
  have hlist : (elemsOf (fmtWidth w.fmt) a).map (fun x => ((x, 0) : Coded)) = (List.range (2 ^ n)).map fun k => (elem (fmtWidth w.fmt) a k, 0) := by
    rw [hn, elemsOf, List.map_map]; rfl
  rw [fredMake, if_pos h]
  simp only [hlist, hj, pairTree_map_range, List.headD_cons, treeAt_addCoded]
  exact elem_splat _ (fmtWidth_mul w.fmt) hk

theorem fredMake_wide {w : FabW} (h : w.x ≠ 0) (a : Pay) {n : Nat} (hn : 2 ^ n = 512 / fmtWidth w.fmt) : AllElems 32 (fredMake w a)
    (treeAt (fun x y => (faddCode 7 0 false 0 x y).1) (fun k => (convert w.fmt 7 0 false 0 (elem (fmtWidth w.fmt) a k)).1) n 0 % 2 ^ 32) := by
  intro k hk
  obtain ⟨j, hj⟩ := Nat.exists_eq_add_of_le (levels_le hn (fmtWidth_cases w.fmt))
  have hlist : (elemsOf (fmtWidth w.fmt) a).map (fun x => convert w.fmt 7 0 false 0 x) =
      (List.range (2 ^ n)).map fun k => convert w.fmt 7 0 false 0 (elem (fmtWidth w.fmt) a k) := by
    rw [hn, elemsOf, List.map_map]; rfl
  rw [fredMake, if_neg h]
  simp only [hlist, hj, pairTree_map_range, List.headD_cons, treeAt_addCoded]
  exact elem_splat _ (by decide) hk

/-- Settles O33: the finite operands, the special ones, the reduction, then the word of each operation. -/
theorem floatElementFirings : Obligations.FloatElementFirings := by
  unfold Obligations.FloatElementFirings
  refine ⟨?finite, ?special, ?reduction, ?words⟩
  case finite =>
    intro f rnd sat idx x y z nx ny nz mx my mz ex ey ez hx hy hz
    refine ⟨faddCode_rounds hx hy rnd sat idx, fsubCode_rounds hx hy rnd sat idx, fmulCode_rounds hx hy rnd sat idx, ffmaCode_rounds hx hy hz rnd sat idx,
      fldxCode_rounds hx rnd sat idx, exp2_rounds hx rnd sat idx, fun c => ?_, fminCode_less hx hy, fminCode_greater hx hy, fexpoCode_finite hx⟩
    rw [fcmpBit_finite hx hy]
    generalize exactOf nx mx ex = X, exactOf ny my ey = Y
    match c with
    | 0 => exact decide_eq_true_iff
    | 1 => exact (condBit_not X Y).1
    | 2 => exact decide_eq_true_iff
    | 3 => exact (condBit_not X Y).2.1
    | 4 => exact (condBit_not X Y).2.2.1
    | 5 => exact (condBit_not X Y).2.2.2
    | 6 => exact Bool.false_eq_true.to_iff
    | n + 7 =>
      rw [decide_eq_false (by omega), Bool.not_false, Bool.true_and]
      exact (condBit_not X Y).2.2.2
  case special =>
    intro f rnd sat neg idx x y c e g
    cases g
    all_goals exact ⟨fun h => funCode_of h nofun rfl rnd sat idx, fun h => funCode_of h nofun rfl rnd sat idx,
      fun h => funCode_of h nofun rfl rnd sat idx, fun h => ⟨fcmpBit_nan h c y, fminCode_nan h false y, fminCode_nan h true y⟩⟩
  case reduction =>
    intro w a n hn t
    by_cases h : w.x = 0
    · have ht : t = w.fmt := if_pos h
      rw [ht]
      refine ⟨by rw [fredMake, if_pos h], treeAt (fun x y => (faddCode w.fmt 0 false 0 x y).1) _, fun k _ => (if_pos h).symm, fun _ _ _ => rfl, ?_⟩
      exact fredMake_tree h a hn
    · have ht : t = 7 := if_neg h
      rw [ht]
      refine ⟨by rw [fredMake, if_neg h], treeAt (fun x y => (faddCode 7 0 false 0 x y).1) _, fun k _ => (if_neg h).symm, fun _ _ _ => rfl, ?_⟩
      exact fredMake_wide h a hn
  case words =>
    intro w s
    repeat' apply And.intro
    all_goals exact elementResult_of rfl

end Sys2Proof.Machine
end

section
/-! PROOFS. Rounding leaves a format's own values as they are (R95, R97, R101, R102). -/

namespace Sys2Proof.Machine

open Sys2Proof

theorem clampLow_keeps {m : Nat} {e lim : Int} (h : lim ≤ e) : clampLow m e lim = (m, e) := by
  rw [clampLow, if_neg]
  have : (0 : Int) ≤ lg m := Int.natCast_nonneg _
  omega

theorem roundGrid_self (rnd : BitVec 3) (neg : Bool) (idx m : Nat) (e : Int) : roundGrid rnd neg idx m e e = (m, true) := by
  rw [roundGrid, if_pos le_rfl, Int.sub_self, pw2, Int.toNat_zero, Nat.pow_zero, Nat.mul_one]

/-- A value on the format's own grid, with its code. -/
theorem roundFloat_onGrid {f : BitVec 4} {P : FloatP} {m : Nat} {e : Int} {code : Nat} (rnd : BitVec 3) (sat : Bool) (idx : Nat) (neg : Bool)
    (hlow : P.emin - P.p ≤ e) (hq : max (e + lg m) P.emin - P.p = e)
    (hcode : (if m < 2 ^ P.p then m else ((e - (P.emin - P.p)).toNat + 1) * 2 ^ P.p + (m - 2 ^ P.p)) = code) (hmax : code ≤ P.maxCode) :
    roundFloat f P rnd sat idx neg m e = (signAt f neg + code, 0) := by
  simp only [roundFloat, clampLow_keeps hlow, hq, roundGrid_self, hcode, if_neg (not_lt.mpr hmax), if_true, gt_iff_lt]
  rfl

/-- A code of w bits is its sign bit and its magnitude. -/
theorem code_eq_signAt_add {f : BitVec 4} {x : Nat} (h : x < 2 ^ fw f) : signAt f (bitAt x (fw f - 1)) + x % 2 ^ (fw f - 1) = x := by
  have hdiv : x / 2 ^ (fw f - 1) < 2 := Nat.div_lt_of_lt_mul (by rw [Nat.mul_comm, ← two_pow_fw]; exact h)
  have hsplit := Nat.mod_add_div x (2 ^ (fw f - 1))
  unfold signAt bitAt
  rw [Nat.mod_eq_of_lt hdiv]
  rcases Nat.lt_succ_iff.mp hdiv |>.eq_or_lt with h1 | h0
  · rw [h1] at hsplit ⊢
    simp only [beq_self_eq_true, if_true]
    omega
  · rw [Nat.lt_one_iff.mp h0] at hsplit ⊢
    simpa using hsplit

/-- The magnitude below the least normal one. -/
theorem roundFloat_subnormal {f : BitVec 4} {P : FloatP} {m : Nat} (rnd : BitVec 3) (sat : Bool) (idx : Nat) (neg : Bool)
    (hm : m ≠ 0) (hlt : m < 2 ^ P.p) (hmax : m ≤ P.maxCode) :
    roundFloat f P rnd sat idx neg m (P.emin - P.p) = (signAt f neg + m, 0) := by
  have hlg : lg m < P.p := (Nat.log2_lt hm).mpr hlt
  exact roundFloat_onGrid rnd sat idx neg le_rfl (by omega) (if_pos hlt) hmax

/-- The magnitude of an exponent field and a fraction. -/
theorem roundFloat_normal {f : BitVec 4} {P : FloatP} {ef fr : Nat} (rnd : BitVec 3) (sat : Bool) (idx : Nat) (neg : Bool)
    (hef : ef ≠ 0) (hfr : fr < 2 ^ P.p) (hmax : ef * 2 ^ P.p + fr ≤ P.maxCode) :
    roundFloat f P rnd sat idx neg (2 ^ P.p + fr) (P.emin - P.p + (ef - 1)) = (signAt f neg + (ef * 2 ^ P.p + fr), 0) := by
  have hlg : lg (2 ^ P.p + fr) = P.p := (Nat.log2_eq_iff (by positivity)).mpr ⟨by omega, by rw [Nat.pow_succ]; omega⟩
  refine roundFloat_onGrid rnd sat idx neg (by omega) (by rw [hlg]; omega) ?_ hmax
  rw [if_neg (by omega), Nat.add_sub_cancel_left]
  congr 2
  omega

/-- Settles O34: a code's magnitude lies on the format's own grid, below the least normal magnitude or above it. -/
theorem formatValuesRoundToThemselves : Obligations.FormatValuesRoundToThemselves := by
  unfold Obligations.FormatValuesRoundToThemselves
  intro f P rnd sat idx x neg m e hP hx hdec hm
  have hround : roundVal f rnd sat idx (.fin neg m e) = roundFloat f P rnd sat idx neg m e := by
    simp only [roundVal, if_neg hm, hP]
  simp only [decodeVal, hP, decodeFloat] at hdec
  have hcode := code_eq_signAt_add hx
  have hmag := Nat.div_add_mod' (x % 2 ^ (fw f - 1)) (2 ^ P.p)
  rw [hround]
  split at hdec
  · repeat' split at hdec
    all_goals cases hdec
  · rename_i hmax
    split at hdec
    · rename_i hef
      cases hdec
      rw [hef, Nat.zero_mul, Nat.zero_add] at hmag
      rw [roundFloat_subnormal rnd sat idx _ hm (Nat.mod_lt _ (by positivity)) (by omega), hmag, hcode]
    · rename_i hef
      cases hdec
      rw [roundFloat_normal rnd sat idx _ hef (Nat.mod_lt _ (by positivity)) (by omega), hmag, hcode]

end Sys2Proof.Machine
end

section
/-! PROOFS. Conversions and lane operations (R109, R119, R130 to R134, R137). -/

namespace Sys2Proof.Machine

open Sys2Proof

/-! ### Where elements are placed -/

theorem lanes_mul (f : BitVec 4) : 16 * (32 / fmtWidth f) = 512 / fmtWidth f := by
  rcases fmtWidth_cases f with h | h | h | h <;> rw [h]

/-- Element k of lane i of a result made of elements. -/
theorem laneElem_madeElems (tag : BitVec 4) (g : Nat → Coded) {i k : Nat} (hi : i < 16) (hk : k < 32 / fmtWidth tag) :
    elem (fmtWidth tag) (madeElems tag g).pay (i * (32 / fmtWidth tag) + k) = (g (i * (32 / fmtWidth tag) + k)).1 % 2 ^ fmtWidth tag := by
  refine elem_madeElems tag g ?_
  rw [← lanes_mul]
  calc i * (32 / fmtWidth tag) + k < (i + 1) * (32 / fmtWidth tag) := by rw [Nat.succ_mul]; omega
    _ ≤ 16 * (32 / fmtWidth tag) := Nat.mul_le_mul_right _ hi

theorem lane_div {n i k : Nat} (hk : k < n) : (i * n + k) / n = i := by
  rw [Nat.mul_comm, Nat.mul_add_div (by omega), Nat.div_eq_of_lt hk, Nat.add_zero]

theorem lane_mod {n i k : Nat} (hk : k < n) : (i * n + k) % n = k := by
  rw [Nat.mul_comm, Nat.mul_add_mod, Nat.mod_eq_of_lt hk]

theorem placeDown_elem (ws : Nat) (tag : BitVec 4) (g : Nat → Nat → Coded) {i k : Nat} (hi : i < 16) (hk : k < 32 / fmtWidth tag) :
    elem (fmtWidth tag) (placeDown ws tag g).pay (i * (32 / fmtWidth tag) + k) =
      if k < 32 / ws then (g (i * (32 / fmtWidth tag) + k) (i * (32 / ws) + k)).1 % 2 ^ fmtWidth tag else 0 := by
  refine (laneElem_madeElems tag _ hi hk).trans ?_
  dsimp only
  rw [lane_div hk, lane_mod hk]
  split
  · rfl
  · exact Nat.zero_mod _

theorem placeUp_elem (ws part : Nat) (tag : BitVec 4) (g : Nat → Nat → Coded) {i k : Nat} (hi : i < 16) (hk : k < 32 / fmtWidth tag) :
    elem (fmtWidth tag) (placeUp ws part tag g).pay (i * (32 / fmtWidth tag) + k) =
      (g (i * (32 / fmtWidth tag) + k) (i * (32 / ws) + part * (32 / fmtWidth tag) + k)).1 % 2 ^ fmtWidth tag := by
  refine (laneElem_madeElems tag _ hi hk).trans ?_
  rw [lane_div hk, lane_mod hk]

theorem packMake_elem (w : FabW) (a b : Pay) (ph : Nat) {i k : Nat} (hi : i < 16) (hk : k < 32 / fmtWidth w.fmt) :
    elem (fmtWidth w.fmt) (packMake w a b ph).pay (i * (32 / fmtWidth w.fmt) + k) = if k / (32 / fmtWidth w.srcFmt) = w.part then
      (convert w.srcFmt w.fmt w.rnd w.sat ((i * (32 / fmtWidth w.fmt) + k + ph) % 32)
        (elem (fmtWidth w.srcFmt) a (i * (32 / fmtWidth w.srcFmt) + k % (32 / fmtWidth w.srcFmt)))).1 % 2 ^ fmtWidth w.fmt
      else elem (fmtWidth w.fmt) b (i * (32 / fmtWidth w.fmt) + k) := by
  refine (laneElem_madeElems w.fmt _ hi hk).trans ?_
  dsimp only
  rw [lane_div hk, lane_mod hk]
  split
  · rfl
  · exact Nat.mod_eq_of_lt (elem_lt _ _ _)

/-! ### Scaling in one rounding (R133) -/

theorem fIf_false (fl : FlagSet) : fIf false fl = 0 := rfl

theorem sclCode_of {w : FabW} {x sc : Nat} {v : Val} (hx : decodeVal w.srcFmt x ≠ .nan) (hv : ((decodeVal w.srcFmt x).mul (decodeVal 14 sc)).1 = v) (idx : Nat) :
    sclCode w idx x sc = roundVal w.fmt w.rnd w.sat idx v := by
  rw [sclCode, hv, isSnan_false hx, fIf_false]
  exact congrArg (Prod.mk _) (BitVec.or_zero ..)

theorem sclCode_rounds {w : FabW} {x sc : Nat} {n : Bool} {m : Nat} {e : Int} (hx : decodeVal w.srcFmt x = .fin n m e) (hs : sc % 256 ≠ 255) (idx : Nat) :
    OneRounding w.fmt w.rnd w.sat idx (sclCode w idx x sc) (exactOf n m e * 2 ^ ((sc % 256 : Nat) - 127 : Int)) := by
  have hsc : decodeVal 14 sc = .fin false 1 ((sc % 256 : Nat) - 127) := if_neg hs
  obtain ⟨neg, m', e', hp, hq⟩ := mul_is n false m 1 e ((sc % 256 : Nat) - 127)
  refine ⟨neg, m', e', hq.trans (by rw [exactOf, exactOf]; simp), sclCode_of (by rw [hx]; nofun) ?_ idx⟩
  rw [hx, hsc]
  exact hp

theorem sclCode_nan {w : FabW} {x sc : Nat} {n : Bool} {m : Nat} {e : Int} (hx : decodeVal w.srcFmt x = .fin n m e) (hs : sc % 256 = 255) (idx : Nat) :
    sclCode w idx x sc = roundVal w.fmt w.rnd w.sat idx .nan := by
  have hsc : decodeVal 14 sc = .nan := if_pos hs
  exact sclCode_of (by rw [hx]; nofun) (by rw [hx, hsc]; rfl) idx

/-! ### The largest magnitude (R134) -/

/-- The magnitude of an integer element, at most the format's largest value. -/
def intMag (f : BitVec 4) (x : Nat) : Int := min ((intVal f x).natAbs : Int) (intMax f)

theorem intMax_nonneg (f : BitVec 4) : 0 ≤ intMax f := by
  have h1 : (1 : Int) ≤ (2 ^ (fw f - 1) : Nat) := by exact_mod_cast Nat.one_le_two_pow
  have h2 : (1 : Int) ≤ (2 ^ fw f : Nat) := by exact_mod_cast Nat.one_le_two_pow
  unfold intMax
  split <;> omega

theorem intMin_nonpos (f : BitVec 4) : intMin f ≤ 0 := by
  unfold intMin
  split
  · exact neg_nonpos.mpr (Int.natCast_nonneg _)
  · exact le_rfl

/-- Fitting a magnitude under saturation: its code is the magnitude itself. -/
theorem fitInt_mag (f : BitVec 4) (x : Nat) : fitInt f true ((intVal f x).natAbs : Int) =
    ((intMag f x).toNat, if intMax f < (intVal f x).natAbs then fSV else 0) := by
  have hcode : ∀ {v : Int}, 0 ≤ v → v ≤ intMax f → intCode (fw f) v = v.toNat := fun {v} h0 hmax => by
    have hpow := two_pow_fw f
    rw [intCode, Int.emod_eq_of_lt h0 (by unfold intMax at hmax; split at hmax <;> omega)]
  have hmin := intMin_nonpos f
  have hmax := intMax_nonneg f
  by_cases h : intMax f < (intVal f x).natAbs
  · rw [fitInt_above f h, if_pos h, intMag, min_eq_right h.le, hcode hmax le_rfl]
  · rw [fitInt_fits f true (by omega) (not_lt.mp h), if_neg h, intMag, min_eq_left (not_lt.mp h), hcode (Int.natCast_nonneg _) (not_lt.mp h)]

theorem intMag_nonneg (f : BitVec 4) (x : Nat) : 0 ≤ intMag f x := le_min (Int.natCast_nonneg _) (intMax_nonneg f)

/-- The code of a magnitude reads as the magnitude. -/
theorem intVal_intMag (f : BitVec 4) (x : Nat) : intVal f (intMag f x).toNat = intMag f x := by
  have hmin := intMin_nonpos f
  have hmax := intMax_nonneg f
  have h : (fitInt f true ((intVal f x).natAbs : Int)).1 = (intMag f x).toNat := congrArg Prod.fst (fitInt_mag f x)
  rw [← h]
  by_cases hx : intMax f < (intVal f x).natAbs
  · rw [fitInt_above f hx, intVal_intCode f (intMin_le_intMax f) le_rfl, intMag, min_eq_right hx.le]
  · rw [fitInt_fits f true (by omega) (not_lt.mp hx), intVal_intCode f (by omega) (not_lt.mp hx), intMag, min_eq_left (not_lt.mp hx)]

/-- The largest of a list's numbers, from a number that none of them is below. -/
theorem foldl_max_mem {α : Type} (h : α → Nat) (l : List α) (hl : l ≠ []) : ∃ x ∈ l, l.foldl (fun acc x => max acc (h x)) 0 = h x ∧ ∀ y ∈ l, h y ≤ h x := by
  have key : ∀ (l : List α) (i : Nat), (l.foldl (fun acc x => max acc (h x)) i = i ∨ ∃ x ∈ l, l.foldl (fun acc x => max acc (h x)) i = h x) ∧
      i ≤ l.foldl (fun acc x => max acc (h x)) i ∧ ∀ y ∈ l, h y ≤ l.foldl (fun acc x => max acc (h x)) i := by
    intro l
    induction l with
    | nil => exact fun i => ⟨.inl rfl, le_rfl, fun _ hy => absurd hy List.not_mem_nil⟩
    | cons x l ih =>
      intro i
      obtain ⟨hm, hi, hall⟩ := ih (max i (h x))
      refine ⟨?_, (le_max_left _ _).trans hi, List.forall_mem_cons.mpr ⟨(le_max_right _ _).trans hi, hall⟩⟩
      rcases hm with hm | ⟨y, hy, hm⟩
      · rcases max_choice i (h x) with h' | h'
        · exact .inl (hm.trans h')
        · exact .inr ⟨x, List.mem_cons_self, hm.trans h'⟩
      · exact .inr ⟨y, List.mem_cons_of_mem _ hy, hm⟩
  obtain ⟨hm, -, hall⟩ := key l 0
  rcases hm with hm | ⟨x, hx, hm⟩
  · obtain ⟨x, hx⟩ := List.exists_mem_of_ne_nil l hl
    have hz : ∀ y ∈ l, h y = 0 := fun y hy => Nat.le_zero.mp (hm ▸ hall y hy)
    exact ⟨x, hx, hm.trans (hz x hx).symm, fun y hy => by rw [hz y hy, hz x hx]⟩
  · exact ⟨x, hx, hm, hm ▸ hall⟩

/-- The elements whose largest magnitude amax takes: those of a, and the first of b. -/
def amaxOf (f : BitVec 4) (a b : Pay) : List Nat := (List.range (512 / fmtWidth f)).map (elem (fmtWidth f) a) ++ [elem (fmtWidth f) b 0]

theorem amaxOf_ne_nil (f : BitVec 4) (a b : Pay) : amaxOf f a b ≠ [] := List.append_ne_nil_of_right_ne_nil _ (List.cons_ne_nil _ _)

theorem amaxMake_int {w : FabW} (h : fmtInt w.fmt = true) (a b : Pay) :
    (∃ c, AllElems (fmtWidth w.fmt) (amaxMake w a b) c ∧ (∃ x ∈ amaxOf w.fmt a b, intVal w.fmt c = intMag w.fmt x) ∧
      ∀ x ∈ amaxOf w.fmt a b, intMag w.fmt x ≤ intVal w.fmt c) ∧
    (amaxMake w a b).fl = if (amaxOf w.fmt a b).any fun x => decide (intMax w.fmt < (intVal w.fmt x).natAbs) then fSV else 0 := by
  have hmake : amaxMake w a b = ⟨splat (fmtWidth w.fmt) ((amaxOf w.fmt a b).foldl (fun acc x => max acc (intMag w.fmt x).toNat) 0), w.fmt,
      ((amaxOf w.fmt a b).map fun x => fitInt w.fmt true ((intVal w.fmt x).natAbs : Int)).foldl (fun fl c => fl ||| c.2) 0⟩ := by
    rw [amaxMake, if_pos h]
    simp only [List.foldl_map, fitInt_mag]
    rfl
  rw [hmake]
  refine ⟨?_, ?_⟩
  · obtain ⟨x, hx, hm, hall⟩ := foldl_max_mem (fun x => (intMag w.fmt x).toNat) _ (amaxOf_ne_nil w.fmt a b)
    have hlt : (intMag w.fmt x).toNat < 2 ^ fmtWidth w.fmt := by
      have := fitInt_lt w.fmt true ((intVal w.fmt x).natAbs : Int)
      rwa [fitInt_mag] at this
    refine ⟨(intMag w.fmt x).toNat, fun k hk => ?_, ⟨x, hx, intVal_intMag _ _⟩, fun y hy => ?_⟩
    · rw [hm]
      exact (elem_splat _ (fmtWidth_mul w.fmt) hk).trans (Nat.mod_eq_of_lt hlt)
    · have := hall y hy
      have := intMag_nonneg w.fmt y
      have := intMag_nonneg w.fmt x
      rw [intVal_intMag]
      omega
  · refine (flags_foldl (fun c hc => ?_) 0 (.inl rfl)).trans ?_
    · obtain ⟨x, -, rfl⟩ := List.mem_map.mp hc
      exact fitInt_flags _ _ _
    · refine if_congr ?_ rfl rfl
      simp only [List.any_eq_true, decide_eq_true_eq, List.mem_map, exists_exists_and_eq_and, fitInt_mag, ite_eq_left_iff,
        show ¬(0 : FlagSet) = fSV by decide, false_or, imp_false, not_not]

/-- Where a magnitude stands in the order of magnitudes. -/
def Val.rank : Val → WithTop ℚ
  | .fin _ m e => ((exactOf false m e : ℚ) : WithTop ℚ)
  | _ => ⊤

theorem abs_lt_iff {v u : Val} (hv : v ≠ .nan) (hu : u ≠ .nan) : v.abs.lt u.abs = true ↔ v.abs.rank < u.abs.rank := by
  match v, u with
  | .inf _, .inf _ => simp [Val.abs, Val.lt, Val.rank]
  | .inf _, .fin _ m e => simp [Val.abs, Val.lt, Val.rank]
  | .fin _ m e, .inf _ => simp [Val.abs, Val.lt, Val.rank]
  | .fin _ m e, .fin _ n g => exact (lt_iff_exactOf ..).trans WithTop.coe_lt_coe.symm

/-- The code of a value of no magnitude does not rest on its exponent. -/
theorem roundVal_abs_zero {v : Val} (h : v.abs.rank ≤ (Val.fin false 0 0).rank) (f : BitVec 4) :
    roundVal f 0 false 0 v.abs = roundVal f 0 false 0 (.fin false 0 0) := by
  match v with
  | .nan => exact absurd h (by simp [Val.abs, Val.rank])
  | .inf _ => exact absurd h (by simp [Val.abs, Val.rank])
  | .fin _ m e =>
    have hq : exactOf false m e ≤ 0 := (WithTop.coe_le_coe.mp h).trans (exactOf_zero ..).le
    have hm : m = 0 := by
      by_contra hm
      have hpos : (0 : ℚ) < exactOf false m e := by
        have hm' : (0 : ℚ) < m := by exact_mod_cast Nat.pos_of_ne_zero hm
        simp only [exactOf, Bool.false_eq_true, if_false, one_mul]
        positivity
      exact absurd hq hpos.not_ge
    rw [hm]
    rfl

/-- The value with the larger magnitude of two, the first where they are equal. -/
def Val.larger (acc v : Val) : Val := if acc.lt v.abs then v.abs else acc

theorem larger_spec {u v : Val} (hu : u ≠ .nan) (hv : v ≠ .nan) : u.abs.rank ≤ (u.abs.larger v).rank ∧ v.abs.rank ≤ (u.abs.larger v).rank ∧
    (u.abs.larger v = u.abs ∨ u.abs.larger v = v.abs) := by
  unfold Val.larger
  split
  · rename_i h; exact ⟨((abs_lt_iff hu hv).mp h).le, le_rfl, .inr rfl⟩
  · rename_i h; exact ⟨le_rfl, not_lt.mp fun hc => h ((abs_lt_iff hu hv).mpr hc), .inl rfl⟩

theorem foldl_larger {α : Type} (d : α → Val) (l : List α) (hl : ∀ x ∈ l, d x ≠ .nan) (u : Val) (hu : u ≠ .nan) :
    let top := l.foldl (fun acc x => acc.larger (d x)) u.abs
    (top = u.abs ∨ ∃ x ∈ l, top = (d x).abs) ∧ u.abs.rank ≤ top.rank ∧ ∀ x ∈ l, (d x).abs.rank ≤ top.rank := by
  induction l generalizing u with
  | nil => exact ⟨.inl rfl, le_rfl, fun _ h => absurd h List.not_mem_nil⟩
  | cons x l ih =>
    obtain ⟨hx, hl⟩ := List.forall_mem_cons.mp hl
    obtain ⟨hu', hx', hor⟩ := larger_spec hu hx
    simp only [List.foldl_cons]
    rcases hor with h | h
    · rw [h] at hu' hx' ⊢
      obtain ⟨hm, hacc, hall⟩ := ih hl u hu
      refine ⟨hm.imp_right fun ⟨y, hy, e⟩ => ⟨y, List.mem_cons_of_mem _ hy, e⟩, hacc, List.forall_mem_cons.mpr ⟨hx'.trans hacc, hall⟩⟩
    · rw [h] at hu' hx' ⊢
      obtain ⟨hm, hacc, hall⟩ := ih hl (d x) hx
      refine ⟨.inr ?_, hu'.trans hacc, List.forall_mem_cons.mpr ⟨hacc, hall⟩⟩
      rcases hm with e | ⟨y, hy, e⟩
      · exact ⟨x, List.mem_cons_self, e⟩
      · exact ⟨y, List.mem_cons_of_mem _ hy, e⟩

theorem amaxMake_nan {w : FabW} (h : fmtInt w.fmt = false) {a b : Pay} (hn : ∃ x ∈ amaxOf w.fmt a b, decodeVal w.fmt x = .nan) :
    amaxMake w a b = { pay := splat (fmtWidth w.fmt) (canonNan w.fmt), tag := w.fmt, fl := snanFlag w.fmt (amaxOf w.fmt a b) } := by
  obtain ⟨x, hx, hxn⟩ := hn
  rw [amaxMake, if_neg (by rw [h]; decide)]
  exact if_pos (List.any_eq_true.mpr ⟨x, hx, by rw [hxn]; rfl⟩)

theorem amaxMake_float {w : FabW} (h : fmtInt w.fmt = false) {a b : Pay} (hn : ∀ x ∈ amaxOf w.fmt a b, decodeVal w.fmt x ≠ .nan) :
    (amaxMake w a b).fl = 0 ∧ ∃ x ∈ amaxOf w.fmt a b,
      AllElems (fmtWidth w.fmt) (amaxMake w a b) ((roundVal w.fmt 0 false 0 (decodeVal w.fmt x).abs).1 % 2 ^ fmtWidth w.fmt) ∧
      ∀ y ∈ amaxOf w.fmt a b, (decodeVal w.fmt x).abs.lt (decodeVal w.fmt y).abs = false := by
  obtain ⟨hm, hzero, hall⟩ := foldl_larger (decodeVal w.fmt) _ hn (.fin false 0 0) nofun
  have hmake : amaxMake w a b = ⟨splat (fmtWidth w.fmt)
      (roundVal w.fmt 0 false 0 ((amaxOf w.fmt a b).foldl (fun acc x => acc.larger (decodeVal w.fmt x)) (Val.fin false 0 0).abs)).1, w.fmt, 0⟩ := by
    rw [amaxMake, if_neg (by rw [h]; decide)]
    have hany : ((amaxOf w.fmt a b).any fun x => decodeVal w.fmt x == .nan) = false :=
      List.any_eq_false.mpr fun x hx => by rw [beq_eq_false_iff_ne.mpr (hn x hx)]; decide
    exact if_neg (by rw [show ((elemsOf (fmtWidth w.fmt) a ++ [elem (fmtWidth w.fmt) b 0]).any fun x => decodeVal w.fmt x == .nan) = false from hany]; decide)
  generalize (amaxOf w.fmt a b).foldl (fun acc x => acc.larger (decodeVal w.fmt x)) (Val.fin false 0 0).abs = top at *
  have hlt : ∀ x ∈ amaxOf w.fmt a b, top.rank ≤ (decodeVal w.fmt x).abs.rank → ∀ y ∈ amaxOf w.fmt a b,
      (decodeVal w.fmt x).abs.lt (decodeVal w.fmt y).abs = false := fun x hx hr y hy =>
    Bool.eq_false_iff.mpr fun hc => absurd ((hall y hy).trans hr) ((abs_lt_iff (hn x hx) (hn y hy)).mp hc).not_ge
  rw [hmake]
  refine ⟨rfl, ?_⟩
  have hel : ∀ k, k < 512 / fmtWidth w.fmt → elem (fmtWidth w.fmt) (splat (fmtWidth w.fmt) (roundVal w.fmt 0 false 0 top).1) k =
      (roundVal w.fmt 0 false 0 top).1 % 2 ^ fmtWidth w.fmt := fun k hk => elem_splat _ (fmtWidth_mul w.fmt) hk
  rcases hm with e | ⟨x, hx, e⟩
  · obtain ⟨x, hx⟩ := List.exists_mem_of_ne_nil _ (amaxOf_ne_nil w.fmt a b)
    have hr : (decodeVal w.fmt x).abs.rank ≤ (Val.fin false 0 0).rank := (hall x hx).trans (by rw [e]; exact le_rfl)
    refine ⟨x, hx, fun k hk => ?_, hlt x hx ?_⟩
    · rw [roundVal_abs_zero hr]
      exact e ▸ hel k hk
    · rw [e]
      cases hd : decodeVal w.fmt x with
      | nan => exact le_top
      | inf n => exact le_top
      | fin n m e =>
        refine WithTop.coe_le_coe.mpr ?_
        rw [exactOf_zero]
        simp only [exactOf, Bool.false_eq_true, if_false, one_mul]
        positivity
  · exact ⟨x, hx, e ▸ hel, hlt x hx (e ▸ le_rfl)⟩

/-- Settles O35: where the elements go, the one rounding of scl, the largest magnitude, the lanes, then the word of each operation. -/
theorem conversionAndLaneFirings : Obligations.ConversionAndLaneFirings := by
  unfold Obligations.ConversionAndLaneFirings
  refine ⟨?makes, ?words⟩
  case makes =>
    intro w a b ph
    refine ⟨fun h => ?raw, ⟨?cvtTag, rfl, rfl, ?sclTag⟩, fun i k hi hk => ⟨fun h h' => ?cvt, packMake_elem w a b ph hi hk, placeUp_elem _ _ _ _ hi hk, ?scl⟩,
      fun idx x sc n m e hx => ⟨fun hs => sclCode_rounds hx hs idx, fun hs => sclCode_nan hx hs idx⟩,
      ⟨?amaxTag, fun h => ?amaxInt, fun h hn => ?amaxNan, fun h hn => amaxMake_float h hn⟩, fun g i hi => ⟨rfl, ?lane⟩⟩
    case raw => exact if_pos h
    case cvtTag => unfold cvtMake; split <;> rfl
    case sclTag => unfold sclMake; dsimp only; split <;> rfl
    case cvt =>
      rw [cvtMake, if_neg (not_or.mpr ⟨h, h'⟩)]
      exact placeDown_elem _ _ _ hi hk
    case scl =>
      unfold sclMake
      dsimp only
      split
      · exact placeDown_elem _ _ _ hi hk
      · exact placeUp_elem _ _ _ _ hi hk
    case amaxTag => unfold amaxMake; dsimp only; repeat' split
                    all_goals rfl
    case amaxInt =>
      obtain ⟨⟨c, hall, hx, hmax⟩, hfl⟩ := amaxMake_int h a b
      exact ⟨c, hall, hx, hmax, hfl⟩
    case amaxNan =>
      rw [amaxMake_nan h hn]
      exact ⟨fun k hk => elem_splat _ (fmtWidth_mul w.fmt) hk, rfl⟩
    case lane =>
      refine (elem_payOf 32 _ (by simp) i).trans ?_
      rw [List.getD_eq_getElem _ _ (by simpa using hi), List.getElem_map, List.getElem_range]
  case words =>
    intro w s
    repeat' apply And.intro
    all_goals exact elementResult_of rfl

end Sys2Proof.Machine
end

section
/-! PROOFS. The router operators, eosq, pass, dly and const (R196, R201 to R203, R207 to R210). -/

namespace Sys2Proof.Machine

open Sys2Proof

/-! ### Payloads -/

theorem elem_lanes (g : Nat → Nat) {i : Nat} (hi : i < 16) : elem 32 (payOf 32 ((List.range 16).map g)) i = g i % 2 ^ 32 := by
  refine (elem_payOf 32 _ (by simp) i).trans ?_
  rw [List.getD_eq_getElem _ _ (by simpa using hi), List.getElem_map, List.getElem_range]

theorem iterValue_lane (w : FabW) (a : Pay) (k : Nat) {i : Nat} (hi : i < 16) :
    elem 32 (iterValue w a k) i = (elem 32 a 0 + (if w.x.getLsbD 0 then 16 * k + i else k) * elem 32 a 2) % 2 ^ 32 := by
  refine (elem_lanes _ hi).trans (congrArg (· % 2 ^ 32) ?_)
  split <;> rfl

theorem constPay_lane {w : FabW} (h : w.x.getLsbD 4 = true) {i : Nat} (hi : i < 16) :
    elem 32 (constPay w) i = if i = w.x.toNat % 16 then elem 32 (immPay w.fmt w.imm) 0 else 0 := by
  rw [constPay, if_pos h]
  refine (elem_lanes _ hi).trans ?_
  split
  · exact Nat.mod_eq_of_lt (elem_lt 32 _ 0)
  · rfl

theorem constPay_elem {w : FabW} (h : w.x.getLsbD 4 = false) {k : Nat} (hk : k < 512 / fmtWidth w.fmt) :
    elem (fmtWidth w.fmt) (constPay w) k = immElem w.fmt w.imm % 2 ^ fmtWidth w.fmt := by
  rw [constPay, if_neg (by rw [h]; decide)]
  exact elem_splat _ (fmtWidth_mul w.fmt) hk

/-! ### Predicates -/

theorem badPred_false {p : Token} (hk : p.kind ≠ .eos) (hf : p.fmt = 15) : p.badPred = false := by
  rw [Token.badPred, beq_eq_false_iff_ne.mpr hk, hf]
  rfl

/-! ### The states of carry and inv (R202) -/

section
variable {s : State} {f : Fab} {l : List (Nat × Token)} {h : Token} (c : Bool)

theorem loopOp_init (hst : (s.opSt f).st = stInit) (hl : TokensAt s f [0, 3] l) (hk : (tokAt l 0).kind ≠ .eos) :
    s.loopOp f c = s.pass f l [] { s.opSt f with st := 1, hold := some { tokAt l 0 with wave := waveOf l } } := by
  unfold State.loopOp
  dsimp only
  rw [if_pos hst, fireAt_go (poss := [0]) hl]
  exact if_neg hk

theorem loopOp_loop (hst : (s.opSt f).st = stLoop) (hh : (s.opSt f).hold = some h) (hl : TokensAt s f [2, 3] l) (hk : (tokAt l 2).kind ≠ .eos)
    (hf : (tokAt l 2).fmt = 15) : s.loopOp f c = if bitAt (tokAt l 2).pay.toNat 0 then s.pass f l [(f.t0, h)] { s.opSt f with st := if c then 2 else 1 }
      else s.pass f l [(f.t1, h)] { s.opSt f with st := 0, hold := none } := by
  unfold State.loopOp
  dsimp only
  rw [if_neg (by rw [hst]; decide), if_pos hst, fireAt_go (poss := [2]) hl, if_neg (by rw [badPred_false hk hf]; decide), hh]
  rfl

theorem loopOp_waitB (hst : (s.opSt f).st = 2) (hh : (s.opSt f).hold = some h) (hl : TokensAt s f [1, 3] l) (hk : (tokAt l 1).kind ≠ .eos) :
    s.loopOp f c = s.pass f l [] { s.opSt f with st := 1, hold := some { tokAt l 1 with wave := h.wave } } := by
  unfold State.loopOp
  dsimp only
  rw [if_neg (by rw [hst]; decide), if_neg (by rw [hst]; decide), fireAt_go (poss := [1]) hl, if_neg hk, hh]
  rfl

/-! ### The firings of iter (R203) -/

theorem iterOp_start (hh : (s.opSt f).hold = none) (hl : TokensAt s f [0, 3] l) (hk : (tokAt l 0).kind ≠ .eos) (hf : (tokAt l 0).fmt = 5) :
    s.iterOp f = s.pass f l [] { s.opSt f with hold := some { tokAt l 0 with wave := waveOf l }, k := 0 } := by
  unfold State.iterOp
  simp only [hh]
  rw [fireAt_go (poss := [0]) hl]
  exact (if_neg hk).trans (if_neg (not_not.mpr hf))

theorem iterOp_value (hh : (s.opSt f).hold = some h) (hlt : (s.opSt f).k < bitsAt h.pay.toNat 32 32) :
    s.iterOp f = s.pass f [] [(f.t0, dataToken 5 (iterValue f.w h.pay (s.opSt f).k) h.wave), (f.t1, predToken true h.wave)]
      { s.opSt f with k := (s.opSt f).k + 1 } := by
  unfold State.iterOp
  simp only [hh, if_pos hlt]

theorem iterOp_end (hh : (s.opSt f).hold = some h) (hle : bitsAt h.pay.toNat 32 32 ≤ (s.opSt f).k) :
    s.iterOp f = s.pass f [] [(f.t1, predToken false h.wave)] { s.opSt f with hold := none, k := 0 } := by
  unfold State.iterOp
  simp only [hh, if_neg (not_lt.mpr hle)]

end

/-- Settles O36: the payloads of iter and const, then what each operator passes on. -/
theorem routerFirings : Obligations.RouterFirings := by
  unfold Obligations.RouterFirings
  refine ⟨fun w a k i hi => iterValue_lane w a k hi, fun w i hi => ⟨fun h => constPay_lane h hi, fun h k hk => constPay_elem h hk⟩, ?_⟩
  intro w s f l ha o wv a p pOk
  refine ⟨fun hl hp => ?steer, fun pos hh hpo hp hpos hl => ?merge, fun hl => ?join, fun hl => ⟨?fan, ?sink, ?pass, ?dly⟩, fun hl hst hk => ⟨?carryA, ?invA⟩,
    fun h hl hst hh hp hb => ⟨?carryT, ?invT⟩, fun h hl hst hh hp hb => ⟨?carryF, ?invF⟩, fun h hl hst hh hk => ?carryB, fun hl hh hk hf => ?iterA,
    fun h hh hlt => ?iterV, fun h hh hle => ?iterE, fun t hh hpo => ?const, fun hl hk => ?eosqData, fun hl hk => ?eosqEnd⟩
  case steer =>
    refine passes_of ha rfl ((fireAt_go (poss := [0, 2]) hl _).trans ?_)
    exact if_neg (by rw [badPred_false hp.1 hp.2]; decide)
  case merge =>
    refine passes_of ha rfl ?_
    dsimp only
    simp only [hh, hpo, badPred_false hp.1 hp.2, Bool.false_eq_true, if_false]
    rw [show (if p.predBit = true then 0 else 1) = pos from hpos.symm, fireAt_go (poss := [2, pos]) hl]
    rfl
  case join => exact passes_of ha rfl (fireAt_go (poss := [0, 1]) hl _)
  case fan => exact passes_of ha rfl (fireAt_go (poss := [0]) hl _)
  case sink => exact passes_of ha rfl (fireAt_go (poss := [0]) hl _)
  case pass => exact passes_of ha rfl (fireAt_go (poss := [0]) hl _)
  case dly => exact passes_of ha rfl (fireAt_go (poss := [0]) hl _)
  case carryA => exact passes_of ha rfl (loopOp_init true hst hl hk)
  case invA => exact passes_of ha rfl (loopOp_init false hst hl hk)
  case carryT => exact passes_of ha rfl ((loopOp_loop true hst hh hl hp.1 hp.2).trans (if_pos hb))
  case invT => exact passes_of ha rfl ((loopOp_loop false hst hh hl hp.1 hp.2).trans (if_pos hb))
  case carryF => exact passes_of ha rfl ((loopOp_loop true hst hh hl hp.1 hp.2).trans (if_neg (by rw [hb]; decide)))
  case invF => exact passes_of ha rfl ((loopOp_loop false hst hh hl hp.1 hp.2).trans (if_neg (by rw [hb]; decide)))
  case carryB => exact passes_of ha rfl (loopOp_waitB true hst hh hl hk)
  case iterA => exact passes_of ha rfl (iterOp_start hh hl hk hf)
  case iterV => exact passes_of ha rfl (iterOp_value hh hlt)
  case iterE => exact passes_of ha rfl (iterOp_end hh hle)
  case const =>
    refine passes_of ha rfl ?_
    dsimp only
    simp only [hh, hpo, Bool.false_eq_true, if_false]
    rfl
  case eosqData => exact passes_of ha rfl ((fireAt_go (poss := [0]) hl _).trans (if_neg hk))
  case eosqEnd => exact passes_of ha rfl ((fireAt_go (poss := [0]) hl _).trans (if_pos hk))

end Sys2Proof.Machine
end

section
/-! PROOFS. The steps of an mma (R143 to R145, R150). -/

namespace Sys2Proof.Machine

open Sys2Proof

/-! ### How a slot's attempt ends -/

section
variable {s t : State} {i : Instr} {w : FabW} {f : Fab} {go : Fab → Fire} (ha : SlotActs s w f) (hi : exec i s = s.fabric w go)
include ha hi

theorem exec_of_done (h : go f = .done t) : exec i s = .next t := by rw [hi, fabric_acts ha, h]

theorem exec_of_wait (h : go f = .wait) : Waits s i := by rw [Waits, hi, fabric_acts ha, h]

theorem exec_of_fault {c : Cause} {wave elem : Nat} (h : go f = .fault c wave elem) : exec i s = .next (s.regionFault f c wave elem) := by
  rw [hi, fabric_acts ha, h]

end

/-- The acting slot holds the word that acts. -/
theorem w_of_slotActs {s : State} {w : FabW} {f : Fab} (h : SlotActs s w f) : f.w = w := by
  obtain ⟨hf, -⟩ := h
  unfold State.fab? at hf
  repeat' split at hf
  all_goals dsimp only at hf
  all_goals repeat' split at hf
  all_goals cases hf
  rfl

theorem pass_nil (s : State) (f : Fab) (l : List (Nat × Token)) (o : OpSt) : s.pass f l [] o = .done (passedState s f l o) := rfl

theorem pass_sent {s u : State} {f : Fab} {out : List (BitVec 10 × Token)} (h : s.sendAll f out = some u) (l : List (Nat × Token)) (o : OpSt) :
    s.pass f l out o = .done (passedState u f l o) := by
  rw [State.pass, h]; rfl

/-! ### Control words of tiles (R143) -/

theorem tcw_congr {s u : State} (h : u.sectors = s.sectors) (t : TileRef) : u.tcw t = s.tcw t := by
  unfold State.tcw State.sec
  rw [h]

theorem rcOf_congr {s u : State} (h : u.sectors = s.sectors) (t : TileRef) : u.rcOf t = s.rcOf t := by
  unfold State.rcOf State.sec
  rw [h]

theorem TasksOnly.sectors {s u : State} (h : TasksOnly s u) : u.sectors = s.sectors := (congrArg State.sectors h :)

theorem passedState_sectors (s : State) (f : Fab) (l : List (Nat × Token)) (o : OpSt) : (passedState s f l o).sectors = s.sectors :=
  ((tasksOnly_takeAll s f l).trans (tasksOnly_setOpSt _ f _)).sectors

theorem cell_modCell (s : State) (sid c d : Nat) (g : CellSt → CellSt) :
    ((s.modCell sid c g).sec sid).cell d = if d = c then g ((s.sec sid).cell c) else (s.sec sid).cell d := by
  rw [State.modCell, sec_modSec_self]
  unfold Sector.setCell Sector.cell
  dsimp only
  split
  · rename_i h; rw [h, tab_get_put_self]
  · rename_i h; rw [tab_get_put_ne _ _ _ h]

theorem tcw_setTcw (s : State) (t : TileRef) (w : BitVec 16) : (s.setTcw t w).tcw t = w := by
  rw [State.tcw, State.setTcw, cell_modCell, if_pos rfl, tab_get_set_self]

theorem tcwState_tcwSet (w : BitVec 16) (st : TileSt) : tcwState (tcwSet w st) = st := by
  have hlt : w.toNat % 2 ^ 14 < 2 ^ 14 := Nat.mod_lt _ (by decide)
  have hdiv : ∀ n, n < 4 → (BitVec.ofNat 16 (n * 2 ^ 14 + w.toNat % 2 ^ 14)).toNat / 2 ^ 14 = n := fun n hn => by
    rw [BitVec.toNat_ofNat]; omega
  unfold tcwState tcwSet
  cases st
  all_goals simp only [hdiv 0 (by decide), hdiv 1 (by decide), hdiv 2 (by decide)]

/-! ### What decides the heads of a slot's inputs -/

/-- The inputs of a slot hold the same tokens in two states. -/
def SameHeads (f : Fab) (s u : State) : Prop :=
  (u.sec f.sid).ends f.b = (s.sec f.sid).ends f.b ∧ (u.opSt f).eosIn = (s.opSt f).eosIn ∧ (u.instOf f.b).chans = (s.instOf f.b).chans

theorem SameHeads.trans {f : Fab} {s t u : State} (h : SameHeads f s t) (g : SameHeads f t u) : SameHeads f s u :=
  ⟨g.1.trans h.1, g.2.1.trans h.2.1, g.2.2.trans h.2.2⟩

theorem SameHeads.head {f : Fab} {s u : State} (h : SameHeads f s u) (p : Nat) : u.head f p = s.head f p := by
  obtain ⟨hends, heos, hchans⟩ := h
  unfold State.head Inst.chan
  rw [hends, heos, hchans]

theorem instOf_modInst (s : State) (b : BlkRef) (g : Inst → Inst) (hg : g {} = {}) : (s.modInst b g).instOf b = g (s.instOf b) := by
  unfold State.instOf
  rw [inst_modInst]
  cases s.inst? b with
  | none => exact hg.symm
  | some i => rfl

/-- A slot's state set back, as `begin` does for every slot on a tile (R143). -/
def Inst.restart (k : Nat) (i : Inst) : Inst := { i with ops := Tab.set {} i.ops k { Tab.get {} i.ops k with st := 0 } }

theorem restart_empty (k : Nat) : Inst.restart k {} = {} := by
  simp [Inst.restart, Tab.set, Tab.del, Tab.get, Tab.find]

theorem sameHeads_restart (s : State) (f : Fab) (k : Nat) : SameHeads f s (s.modInst f.b (Inst.restart k)) := by
  refine ⟨rfl, ?_, ?_⟩
  · rw [State.opSt, State.opSt, instOf_modInst s f.b _ (restart_empty k)]
    unfold Inst.restart
    dsimp only
    by_cases hk : opKey f.b f.slot = k
    · rw [hk, tab_get_set_self]
    · rw [tab_get_set_ne _ _ _ hk]
  · rw [instOf_modInst s f.b _ (restart_empty k)]
    rfl

theorem sameHeads_begin (s : State) (f : Fab) (t : TileRef) : SameHeads f s (s.begin f t) := by
  have hfold : ∀ (l : List (Nat × Nat × FabW)) (s : State),
      SameHeads f s (l.foldl (fun (s : State) p => s.modInst f.b (Inst.restart (opKey { f.b with blk := p.1 } p.2.1))) s) := by
    intro l
    induction l with
    | nil => exact fun s => ⟨rfl, rfl, rfl⟩
    | cons p l ih => exact fun s => (sameHeads_restart s f _).trans (ih _)
  have hset : ∀ (s : State) (v : BitVec 16), SameHeads f s (s.setTcw t v) := by
    intro s v
    refine ⟨?_, rfl, rfl⟩
    rw [State.setTcw, State.modCell, sec_modSec]
    split
    · rfl
    · rfl
  unfold State.begin
  dsimp only
  split
  · exact (hfold _ s).trans (hset _ _)
  · exact hset _ _

/-! ### The steps of an mma -/

theorem badOperand_none {t : Token} {fmt : BitVec 4} (hp : t.poison = false) (hk : t.kind ≠ .eos) (hf : t.fmt = fmt) : badOperand t fmt = none := by
  rw [badOperand, if_neg (by rw [hp]; decide), if_neg (not_or.mpr ⟨hk, not_not.mpr hf⟩)]

section
variable {s : State} {f : Fab} {a b p : Token} {sc : Option Token} (hb1 : s.head f 1 = some b) (hb : badOperand b f.w.fmt = none)
include hb1 hb

/-- The first B token of a run (R143). -/
theorem mmaOp_first (hk : b.kind ≠ .eos) (hs : (s.opSt f).step = 0) (hp : (s.opSt f).panel = []) :
    s.mmaOp f = if s.mayBegin f f.mmaTile = false then .wait else
      if f.fed 3 then (s.begin f f.mmaTile).fireAt f [1] fun l => .done (passedState (s.begin f f.mmaTile) f l { s.opSt f with panel := [b], k := b.wave, st := 1 })
      else .done (passedState (s.begin f f.mmaTile) f [(1, b)] { s.opSt f with panel := [b], k := b.wave, st := 1 }) := by
  have hn : 0 < 16 * f.mmaTile.n := Nat.mul_pos (by decide) (Nat.succ_pos _)
  unfold State.mmaOp
  simp only [hp, hs, hb1, hb, hk, List.length_nil, hn, List.isEmpty_nil, beq_self_eq_true, Bool.and_self, and_false, if_true, if_false, true_and,
    Bool.not_eq_true', List.nil_append, pass_nil]

/-- A further B token of the panel. -/
theorem mmaOp_panel (h : (s.opSt f).step ≠ 0 ∨ (s.opSt f).panel ≠ []) (hlt : (s.opSt f).panel.length < 16 * f.mmaTile.n) :
    s.mmaOp f = .done (passedState s f [(1, b)] { s.opSt f with panel := (s.opSt f).panel ++ [b], k := max (s.opSt f).k b.wave, st := 1 }) := by
  have hstart : ((s.opSt f).step == 0 && (s.opSt f).panel.isEmpty) = false := by
    rcases h with h | h
    · rw [beq_eq_false_iff_ne.mpr h, Bool.false_and]
    · rw [List.isEmpty_eq_false_iff.mpr h, Bool.and_false]
  unfold State.mmaOp
  simp only [hlt, hb1, hb, hstart, Bool.false_eq_true, if_true, if_false, false_and, pass_nil]

omit hb1 hb in
/-- A column scale. -/
theorem mmaOp_scale (hp2 : s.head f 2 = some p) (hp : badOperand p 14 = none) (hx : f.w.x.getLsbD 9 = true)
    (hle : 16 * f.mmaTile.n ≤ (s.opSt f).panel.length) (hlt : (s.opSt f).scales.length < 16 * f.mmaTile.n) :
    s.mmaOp f = .done (passedState s f [(2, p)] { s.opSt f with scales := (s.opSt f).scales ++ [p], k := max (s.opSt f).k p.wave }) := by
  unfold State.mmaOp
  simp only [not_lt.mpr hle, hlt, hx, hp2, hp, if_true, if_false, and_self, pass_nil]

/-- The tokens that a row takes: its own, and its scale. -/
def rowTaken (a : Token) (sc : Option Token) : List (Nat × Token) := (0, a) :: (sc.map fun p => (2, p)).toList

/-- The addend of a row's next group, noted by the waves it comes from (R150, R159). -/
def State.rowAdded (s : State) (f : Fab) (a : Token) (sc : Option Token) : State :=
  let o := s.opSt f
  (s.mmaGroup f.mmaTile f.w.fmt o.pos o.grp a.pay (sc.map Token.pay) o.panel o.scales).noteTile f f.mmaTile
    ((rowTaken a sc).map (fun x => x.2.wave) ++ o.panel.map Token.wave ++ o.scales.map Token.wave)

/-- The next group of a row, and with the last one the end of the row, of the step or of the run (R145). -/
def State.rowStep (s : State) (f : Fab) (a : Token) (sc : Option Token) : Fire :=
  let o := s.opSt f
  let k := max o.k (waveOf (rowTaken a sc))
  let v := s.rowAdded f a sc
  if o.grp + 1 < groupsOf f.w.fmt then .done (v.setOpSt f { o with grp := o.grp + 1 })
  else if o.pos + 1 < f.mmaTile.m then .done (passedState v f (rowTaken a sc) { o with grp := 0, pos := o.pos + 1, k := k })
  else if o.step < f.w.imm.toNat / 4 % 4096 then
    .done (passedState v f (rowTaken a sc) { o with grp := 0, pos := 0, k := k, step := o.step + 1, panel := [], scales := [] })
  else (v.doneMma f f.mmaTile).pass f (rowTaken a sc) (f.both (zeroToken k))
    { o with grp := 0, pos := 0, k := 0, step := 0, panel := [], scales := [], st := 2 }

omit hb1 hb in
theorem mmaOp_row (ha0 : s.head f 0 = some a) (hga : (s.opSt f).grp = 0 → badOperand a f.w.fmt = none) (hle : 16 * f.mmaTile.n ≤ (s.opSt f).panel.length)
    (hx : f.w.x.getLsbD 9 = true → 16 * f.mmaTile.n ≤ (s.opSt f).scales.length ∧ s.head f 2 = sc ∧
      ∃ p, sc = some p ∧ ((s.opSt f).grp = 0 → badOperand p 14 = none))
    (hn : f.w.x.getLsbD 9 = false → sc = none) : s.mmaOp f = s.rowStep f a sc := by
  have hgrp : (if (s.opSt f).grp = 0 then badOperand a f.w.fmt else none) = none := by
    split
    · exact hga ‹_›
    · rfl
  cases hsc : f.w.x.getLsbD 9 with
  | false =>
    obtain rfl := hn hsc
    unfold State.mmaOp
    simp only [not_lt.mpr hle, hsc, ha0, hgrp, Bool.false_eq_true, if_false, false_and, pass_nil]
    rfl
  | true =>
    obtain ⟨hle2, h2, p, rfl, hp⟩ := hx hsc
    have hgrp' : (if True ∧ (s.opSt f).grp = 0 then badOperand p 14 else none) = none := by
      split
      · exact hp (‹True ∧ _›).2
      · rfl
    unfold State.mmaOp
    simp only [not_lt.mpr hle, not_lt.mpr hle2, hsc, ha0, h2, hgrp, hgrp', if_true, if_false, and_false, pass_nil]
    rfl

end

/-- Settles O37: the first B token, the panel, the scales, then the groups of a row. -/
theorem mmaFirings : Obligations.MmaFirings := by
  unfold Obligations.MmaFirings
  intro w s f ha o t n scaled
  obtain rfl := w_of_slotActs ha
  refine ⟨fun b h1 hp hk hf hs hnil => ?first, fun b h1 hp hk hf h hlt => ?panel, fun p h2 hp hk hf hx hle hlt => ?scale, fun a sc h0 hg hle hx hn => ?row⟩
  case first =>
    have hop := mmaOp_first h1 (badOperand_none hp hk hf) hk hs hnil
    refine ⟨fun hm => exec_of_wait ha rfl (hop.trans (if_pos hm)), fun hm h3 => ⟨?_, ?_⟩, fun hm hf1 hf3 => ?_⟩
    · rw [if_neg (by rw [hm]; decide), if_neg (by rw [h3]; decide)] at hop
      exact exec_of_done ha rfl hop
    · rw [tcw_congr (passedState_sectors ..), State.begin, tcw_setTcw, tcwState_tcwSet]
    · rw [if_neg (by rw [hm]; decide), if_pos hf3] at hop
      have hheads : ∀ p, (s.begin f f.mmaTile).head f p = s.head f p := (sameHeads_begin s f f.mmaTile).head
      refine ⟨fun h3 => exec_of_wait ha rfl (hop.trans ?_), fun g h3 hgp => exec_of_done ha rfl (hop.trans ?_)⟩
      · simp [State.fireAt, State.heads, hf1, hf3, hheads, h3]
      · refine (fireAt_go (poss := [1]) (l := [(1, b), (3, g)]) ⟨?_, List.cons_ne_nil _ _, ?_⟩ _).trans rfl
        · simp [State.heads, hf1, hf3, hheads, h1, h3]
        · simp [hp, hgp]
  case panel => exact exec_of_done ha rfl (mmaOp_panel h1 (badOperand_none hp hk hf) h hlt)
  case scale => exact exec_of_done ha rfl (mmaOp_scale h2 (badOperand_none hp hk hf) hx hle hlt)
  case row =>
    have hop := mmaOp_row h0 hg hle hx hn
    refine ⟨fun hl => ?_, fun hl hm => ?_, fun hl hm hs => ?_, fun u hl hm hs hu => ?_⟩
    · exact exec_of_done ha rfl (hop.trans (if_pos (not_le.mp hl)))
    · exact exec_of_done ha rfl (hop.trans ((if_neg (not_lt.mpr hl)).trans (if_pos hm)))
    · exact exec_of_done ha rfl (hop.trans ((if_neg (not_lt.mpr hl)).trans ((if_neg (not_lt.mpr hm)).trans (if_pos hs))))
    · refine exec_of_done ha rfl (hop.trans ((if_neg (not_lt.mpr hl)).trans ((if_neg (not_lt.mpr hm)).trans ((if_neg (not_lt.mpr hs)).trans ?_))))
      exact pass_sent hu _ _

end Sys2Proof.Machine
end

section
/-! PROOFS. The operations on whole tiles (R143, R150, R152 to R156, R159). -/

namespace Sys2Proof.Machine

open Sys2Proof

/-! ### Cleared rows (R143) -/

/-- A row of a cell is as at reset. -/
def CellSt.Cleared (c : CellSt) (r : Nat) : Prop :=
  (∀ k, k < 16 → Tab.get 0 c.mant (r * 16 + k) = 0) ∧ Tab.get 0 c.exp r = 0 ∧ Tab.get hCleared c.head r = hCleared

theorem CellSt.Cleared.row {c : CellSt} {r : Nat} (h : c.Cleared r) (int : Bool) : c.row int r = clearRow := by
  obtain ⟨hm, he, hh⟩ := h
  have hel : ∀ k ∈ List.range 16, elOf int (Tab.get 0 c.mant (r * 16 + k)) = .num 0 := fun k hk => by
    rw [hm k (List.mem_range.mp hk)]
    cases int <;> decide
  rw [CellSt.row, List.map_congr_left hel, he, hh]
  rfl

theorem mant_fold_zero (r : Nat) (l : List (El × Nat)) (hz : ∀ p ∈ l, p.1.code = 0) (m : Tab (BitVec 48)) (j : Nat) :
    Tab.get 0 (l.foldl (fun m p => Tab.set 0 m (r * 16 + p.2) p.1.code) m) j = if ∃ p ∈ l, r * 16 + p.2 = j then 0 else Tab.get 0 m j := by
  induction l generalizing m with
  | nil => simp
  | cons p l ih =>
    obtain ⟨hp, hl⟩ := List.forall_mem_cons.mp hz
    rw [List.foldl_cons, ih hl, hp]
    by_cases hj : j = r * 16 + p.2
    · rw [hj, tab_get_set_self, ite_self, if_pos ⟨p, List.mem_cons_self, rfl⟩]
    · rw [tab_get_set_ne _ _ _ hj]
      refine if_congr ?_ rfl rfl
      rw [List.exists_mem_cons_iff, or_iff_right (Ne.symm hj)]

theorem mem_clearRow_zipIdx {p : El × Nat} (h : p ∈ clearRow.a.zipIdx) : p.1.code = 0 := by
  have := List.eq_of_mem_replicate (List.fst_mem_of_mem_zipIdx h)
  rw [this]
  rfl

theorem exists_clearRow_zipIdx {k : Nat} (h : k < 16) : ∃ p ∈ clearRow.a.zipIdx, p.2 = k := by
  refine ⟨(.num 0, k), List.mem_zipIdx_iff_getElem?.mpr ?_, rfl⟩
  rw [clearRow, List.getElem?_replicate, if_pos h]

theorem setRow_mant (c : CellSt) (q : Nat) (x : Row) :
    (c.setRow q x).mant = x.a.zipIdx.foldl (fun m p => Tab.set 0 m (q * 16 + p.2) p.1.code) c.mant := rfl
theorem setRow_exp (c : CellSt) (q : Nat) : (c.setRow q clearRow).exp = Tab.set 0 c.exp q 0 :=
  congrArg (Tab.set 0 c.exp q) (by decide : BitVec.ofInt 10 0 = 0)
theorem setRow_head (c : CellSt) (q : Nat) : (c.setRow q clearRow).head = Tab.set hCleared c.head q hCleared :=
  congrArg (Tab.set hCleared c.head q) (by decide : BitVec.ofNat 6 63 = hCleared)

/-- An entry after one of its table was set to the value there at reset. -/
theorem get_set_default {α : Type} [DecidableEq α] {d : α} {t : Tab α} {r q : Nat} (h : r = q ∨ Tab.get d t r = d) : Tab.get d (Tab.set d t q d) r = d := by
  by_cases hq : r = q
  · rw [hq, tab_get_set_self]
  · rw [tab_get_set_ne _ _ _ hq]; exact h.resolve_left hq

/-- Clearing a row leaves it as at reset, and every row that was so already. -/
theorem cleared_setRow {c : CellSt} {r q : Nat} (h : r = q ∨ c.Cleared r) : (c.setRow q clearRow).Cleared r := by
  refine ⟨fun k hk => ?_, ?_, ?_⟩
  · rw [setRow_mant, mant_fold_zero q _ fun _ => mem_clearRow_zipIdx]
    rcases h with rfl | h
    · obtain ⟨p, hp, hpk⟩ := exists_clearRow_zipIdx hk
      exact if_pos ⟨p, hp, by rw [hpk]⟩
    · rw [h.1 k hk, ite_self]
  · rw [setRow_exp]; exact get_set_default (h.imp_right fun h => h.2.1)
  · rw [setRow_head]; exact get_set_default (h.imp_right fun h => h.2.2)

theorem cleared_rows {r : Nat} (l : List Nat) (c : CellSt) (h : r ∈ l ∨ c.Cleared r) : (l.foldl (fun c r => c.setRow r clearRow) c).Cleared r := by
  induction l generalizing c with
  | nil => exact h.resolve_left List.not_mem_nil
  | cons q l ih =>
    refine ih _ ?_
    rcases h with h | h
    · rcases List.mem_cons.mp h with h | h
      · exact .inr (cleared_setRow (.inl h))
      · exact .inl h
    · exact .inr (cleared_setRow (.inr h))

/-- The cells of a tile cleared one by one. -/
theorem cleared_cells {t : TileRef} {r k : Nat} (hr : r ∈ t.rows) (l : List Nat) (s : State) (h : k ∈ l ∨ ((s.sec t.sid).cell (t.c0 + k)).Cleared r) :
    (((l.foldl (fun (s : State) k => s.modCell t.sid (t.c0 + k) fun c => t.rows.foldl (fun c r => c.setRow r clearRow) c) s).sec t.sid).cell (t.c0 + k)).Cleared r := by
  induction l generalizing s with
  | nil => exact h.resolve_left List.not_mem_nil
  | cons j l ih =>
    refine ih _ ?_
    by_cases hj : k = j
    · right
      rw [cell_modCell, hj, if_pos rfl]
      exact cleared_rows _ _ (.inl hr)
    · refine (h.imp (fun h => (List.mem_cons.mp h).resolve_left hj) fun h => ?_)
      rw [cell_modCell, if_neg (by omega)]
      exact h

theorem tcw_setRc (s : State) (t : TileRef) (n : Nat) : (s.setRc t n).tcw t = s.tcw t := by
  rw [State.tcw, State.setRc, cell_modCell, if_pos rfl]; rfl

theorem rcOf_setRc_zero (s : State) (t : TileRef) : (s.setRc t 0).rcOf t = 0 := by
  rw [State.rcOf, State.setRc, cell_modCell, if_pos rfl, tab_get_set_self]; rfl

/-- A tile that was cleared (R143, R152). -/
theorem clearTile_spec (s : State) (t : TileRef) : (s.clearTile t).tcw t = 0 ∧ (s.clearTile t).rcOf t = 0 ∧
    ∀ k r, k < t.n → r ∈ t.rows → (((s.clearTile t).sec t.sid).cell (t.c0 + k)).Cleared r := by
  unfold State.clearTile
  dsimp only
  refine ⟨tcw_setTcw .., ?_, fun k r hk hr => ?_⟩
  · rw [State.rcOf, State.setTcw, cell_modCell, if_pos rfl]
    exact rcOf_setRc_zero ..
  · have h := cleared_cells hr (List.range t.n) s (.inl (List.mem_range.mpr hk))
    rw [State.setTcw, cell_modCell]
    split
    · rename_i he
      rw [he] at h
      rw [State.setRc, cell_modCell, if_pos rfl]
      exact h
    · rename_i he
      rw [State.setRc, cell_modCell, if_neg he]
      exact h

/-! ### The steps of mnrm, mrd and mdrn -/

theorem tagsOk_nil (l : List (Nat × Token)) : tagsOk [] l = true := List.all_eq_true.mpr fun _ _ => rfl

/-- The tokens that a tile operation begins with stand at its inputs. -/
def TileReady (s : State) (f : Fab) (l : List (Nat × Token)) : Prop := TokensAt s f [0, 1, 2, 3] l ∧ NoEos l

theorem TileReady.checked {s : State} {f : Fab} {l : List (Nat × Token)} {need : List (Nat × BitVec 4)} (h : TileReady s f l) (ht : tagsOk need l = true)
    (go : List (Nat × Token) → Fire) : s.checked f need go = go l := by
  obtain ⟨⟨hl, hne, hp⟩, hk⟩ := h
  exact checked_go hl hne hp hk ht go

section
variable {s : State} {f : Fab} {l : List (Nat × Token)} {h : Token}

theorem mnrmOp_start (hh : (s.opSt f).hold = none) (hr : TileReady s f l) : s.mnrmOp f = if f.tileInt f.tile
    then (s.setRc f.tile 0).pass f l (f.both (dataToken 6 (s.mnrmStatus f.tile) (waveOf l))) (s.opSt f)
    else .done (passedState (s.setRc f.tile 0) f l { s.opSt f with hold := some (dataToken 6 (s.mnrmStatus f.tile) (waveOf l)), k := 0 }) := by
  unfold State.mnrmOp
  simp only [hh]
  exact hr.checked (tagsOk_nil l) _

theorem mnrmOp_held (hh : (s.opSt f).hold = some h) : s.mnrmOp f = if (s.opSt f).k < f.tile.m
    then .done ((s.normRowOf f.tile (s.opSt f).k).setOpSt f { s.opSt f with k := (s.opSt f).k + 1 })
    else s.pass f [] (f.both h) { s.opSt f with hold := none, k := 0 } := by
  unfold State.mnrmOp
  simp only [hh]

theorem mrdOp_start (hh : (s.opSt f).hold = none) (hr : TileReady s f l) : s.mrdOp f = if tcwState (s.tcw f.tile) ≠ .full then .wait
    else match taintFault (s.tcw f.tile) with
      | some c => .fault c (waveOf l) 0
      | none => .done (passedState (s.raise f (waveOf l) (tileFlags (s.tcw f.tile))) f l { s.opSt f with hold := some (zeroToken (waveOf l)), k := 0 }) := by
  unfold State.mrdOp
  simp only [hh]
  rw [hr.checked (tagsOk_nil l)]
  rfl

theorem mdrnOp_start (hh : (s.opSt f).hold = none) (hr : TileReady s f l) (ht : f.w.x.getLsbD 6 = true → tagsOk [(0, 6)] l = true) :
    s.mdrnOp f = if tcwState (s.tcw f.tile) ≠ .full then .wait
    else match taintFault (s.tcw f.tile) with
      | some c => .fault c (waveOf l) 0
      | none => if f.w.x.getLsbD 6 = true ∧ f.w.x.toNat / 128 < (tokAt l 0).pay.toNat % 8 then .fault .regionFault (waveOf l) 0
        else .done (passedState s f (l.filter fun p => p.1 == 0 || p.1 == 3)
          { s.opSt f with hold := some { tokAt l 0 with wave := waveOf l }, panel := [], scales := [], st := 0 }) := by
  have htags : tagsOk (if f.w.x.getLsbD 6 = true then [(0, 6)] else []) l = true := by
    split
    · exact ht ‹_›
    · exact tagsOk_nil l
  unfold State.mdrnOp
  simp only [hh]
  rw [hr.checked htags]
  rfl

/-- The payload and the flags of an mrd's next token (R154). -/
def State.mrdRow (s : State) (f : Fab) : Pay × FlagSet :=
  let o := s.opSt f
  rowToken f.w.fmt (16 * f.tile.n) (o.k / f.tile.m) fun j c =>
    roundVal f.w.fmt f.w.rnd false ((j + s.phaseOf f) % 32) (s.tileVal f.tile (f.tileInt f.tile) (o.k % f.tile.m) c)

theorem mrdOp_held (hh : (s.opSt f).hold = some h) (ht : taintFault (s.tcw f.tile) = none) {u : State}
    (hu : s.sendAll f (f.both (dataToken f.w.fmt (s.mrdRow f).1 h.wave)) = some u) :
    let o := s.opSt f
    let v := passedState u f [] (if rowTokens f.w.fmt (16 * f.tile.n) * f.tile.m ≤ o.k + 1 then { o with hold := none, k := 0 } else { o with k := o.k + 1 })
    s.mrdOp f = .done ((if f.w.rnd = 5 then v.stepPhase f else v).raise f h.wave (s.mrdRow f).2) := by
  unfold State.mrdRow at *
  unfold State.mrdOp
  simp only [hh, ht, pass_sent hu, decide_eq_true_eq]

theorem mrdOp_tainted (hh : (s.opSt f).hold = some h) {c : Cause} (ht : taintFault (s.tcw f.tile) = some c) : s.mrdOp f = .fault c h.wave 0 := by
  unfold State.mrdOp
  simp only [hh, ht]

theorem mdrnOp_tainted (hh : (s.opSt f).hold = some h) {c : Cause} (ht : taintFault (s.tcw f.tile) = some c) : s.mdrnOp f = .fault c h.wave 0 := by
  unfold State.mdrnOp
  simp only [hh, ht]

variable (hh : (s.opSt f).hold = some h) (ht : taintFault (s.tcw f.tile) = none)
include hh ht

/-- A row scale taken before the drain (R155). -/
theorem mdrnOp_rowScale (hst : (s.opSt f).st ≠ 1) (hr : f.w.x.getLsbD 4 = true ∧ (s.opSt f).panel.length < f.tile.m / 16) {b : Token}
    (hb : s.head f 1 = some b) (hbad : badOperand b 7 = none) :
    s.mdrnOp f = .done (passedState s f [(1, b)] { s.opSt f with panel := (s.opSt f).panel ++ [b] }) := by
  unfold State.mdrnOp
  simp only [hh, ht, if_neg hst, if_pos hr, hb, hbad, pass_nil]

/-- A column scale taken before the drain (R155). -/
theorem mdrnOp_colScale (hst : (s.opSt f).st ≠ 1) (hr : ¬(f.w.x.getLsbD 4 = true ∧ (s.opSt f).panel.length < f.tile.m / 16))
    (hc : f.w.x.getLsbD 5 = true ∧ (s.opSt f).scales.length < f.tile.n) {p : Token} (hp : s.head f 2 = some p) (hbad : badOperand p 7 = none) :
    s.mdrnOp f = .done (passedState s f [(2, p)] { s.opSt f with scales := (s.opSt f).scales ++ [p] }) := by
  unfold State.mdrnOp
  simp only [hh, ht, if_neg hst, if_neg hr, if_pos hc, hp, hbad, pass_nil]

/-- The drain, once its scales have come (R155). -/
theorem mdrnOp_drain (hst : (s.opSt f).st ≠ 1) (hr : ¬(f.w.x.getLsbD 4 = true ∧ (s.opSt f).panel.length < f.tile.m / 16))
    (hc : ¬(f.w.x.getLsbD 5 = true ∧ (s.opSt f).scales.length < f.tile.n)) :
    s.mdrnOp f = .done ((s.raise f h.wave ((s.drainTokens f (s.opSt f)).2 ||| tileFlags (s.tcw f.tile))).setOpSt f
      { s.opSt f with st := 1, k := 0, outq := (s.drainTokens f (s.opSt f)).1.map fun p => (0, dataToken f.w.fmt p h.wave) }) := by
  unfold State.mdrnOp
  simp only [hh, ht, if_neg hst, if_neg hr, if_neg hc]

/-- A drained token sent, and with the last one the tile EMPTY (R155, R156). -/
theorem mdrnOp_send (hst : (s.opSt f).st = 1) {k : Nat} {x : Token} {rest : List (Nat × Token)} {u : State} (hq : (s.opSt f).outq = (k, x) :: rest)
    (hu : s.sendAll f ((f.drainTo h).map fun g => (g, x)) = some u) :
    let v := (passedState u f [] { s.opSt f with hold := none, outq := [], panel := [], scales := [], st := 0, k := 0 }).clearTile f.tile
    s.mdrnOp f = if rest.isEmpty then .done (if f.w.rnd = 5 then v.stepPhase f else v)
      else .done (passedState u f [] { s.opSt f with outq := rest, k := (s.opSt f).k + 1 }) := by
  unfold State.mdrnOp
  simp only [hh, ht, hst, if_true, hq, pass_sent hu]

end

/-- Settles O38: a tile's four operations, each with its start and its steps. -/
theorem tileFirings : Obligations.TileFirings := by
  unfold Obligations.TileFirings
  intro w s f l ha o wv t ready status steers taint
  obtain rfl := w_of_slotActs ha
  refine ⟨fun hr hst => ?clrWait, fun u hr hst hu => ?clear, fun hr hh => ⟨fun hi => ?normStart, fun u hi hu => ?normInt⟩, fun h u hh => ⟨fun hk => ?normRow, fun hk hu => ?normEnd⟩,
    fun hr hh => ?readStart, fun hr hh hs => ?drainStart, fun h c hh ht => ⟨exec_of_fault ha rfl (mrdOp_tainted hh ht), exec_of_fault ha rfl (mdrnOp_tainted hh ht)⟩,
    fun h u hh ht => fun hu => exec_of_done ha rfl (mrdOp_held hh ht hu), fun h hh ht hst => ⟨fun b hr hb hbad => ?rowScale, fun p hr hc hp hbad => ?colScale, fun hr hc => ?drain⟩,
    fun h k x rest u hh ht hst hq hu => ⟨fun hne => ?more, fun he => ⟨?last, ?empty⟩⟩⟩
  case clrWait =>
    refine exec_of_wait ha rfl ((TileReady.checked hr (tagsOk_nil l) _).trans ?_)
    exact if_pos hst
  case clear =>
    obtain ⟨htcw, hrc, hrows⟩ := clearTile_spec s f.tile
    have hsec : (passedState u f l o).sectors = (s.clearTile f.tile).sectors := (passedState_sectors ..).trans (tasksOnly_sendAll hu).sectors
    refine ⟨exec_of_done ha rfl ((TileReady.checked hr (tagsOk_nil l) _).trans ((if_neg hst).trans (pass_sent hu _ _))), (tcw_congr hsec _).trans htcw,
      (rcOf_congr hsec _).trans hrc, fun k r int hk hr => ?_⟩
    rw [State.sec, hsec]
    exact (hrows k r hk hr).row int
  case normStart =>
    refine ⟨exec_of_done ha rfl ((mnrmOp_start hh hr).trans (if_neg (by rw [hi]; decide))), ?_, ?_⟩
    · exact (rcOf_congr (passedState_sectors ..) _).trans (rcOf_setRc_zero ..)
    · exact (tcw_congr (passedState_sectors ..) _).trans (tcw_setRc ..)
  case normInt =>
    have hsec : (passedState u f l o).sectors = (s.setRc f.tile 0).sectors := (passedState_sectors ..).trans (tasksOnly_sendAll hu).sectors
    refine ⟨exec_of_done ha rfl ((mnrmOp_start hh hr).trans ((if_pos hi).trans (pass_sent hu _ _))), ?_, ?_⟩
    · exact (rcOf_congr hsec _).trans (rcOf_setRc_zero ..)
    · exact (tcw_congr hsec _).trans (tcw_setRc ..)
  case normRow => exact exec_of_done ha rfl ((mnrmOp_held hh).trans (if_pos hk))
  case normEnd => exact exec_of_done ha rfl ((mnrmOp_held hh).trans ((if_neg (not_lt.mpr hk)).trans (pass_sent hu _ _)))
  case readStart =>
    have hop := mrdOp_start hh hr
    refine ⟨fun hf => exec_of_wait ha rfl (hop.trans (if_pos hf)), fun hf => ?_⟩
    rw [if_neg (not_not.mpr hf)] at hop
    refine ⟨fun (ht : taintFault (s.tcw f.tile) = none) => exec_of_done ha rfl (hop.trans ?_),
      fun c (ht : taintFault (s.tcw f.tile) = some c) => exec_of_fault ha rfl (hop.trans ?_)⟩
    · rw [ht]
    · rw [ht]
  case drainStart =>
    have hop := mdrnOp_start hh hr hs
    refine ⟨fun hf => exec_of_wait ha rfl (hop.trans (if_pos hf)), fun hf => ?_⟩
    rw [if_neg (not_not.mpr hf)] at hop
    refine ⟨fun (ht : taintFault (s.tcw f.tile) = none) hb => exec_of_done ha rfl (hop.trans ?_),
      fun (ht : taintFault (s.tcw f.tile) = none) hb => exec_of_fault ha rfl (hop.trans ?_),
      fun c (ht : taintFault (s.tcw f.tile) = some c) => exec_of_fault ha rfl (hop.trans (by rw [ht]))⟩
    · rw [ht]; exact if_neg hb
    · rw [ht]; exact if_pos hb
  case rowScale => exact exec_of_done ha rfl (mdrnOp_rowScale hh ht hst hr hb hbad)
  case colScale => exact exec_of_done ha rfl (mdrnOp_colScale hh ht hst hr hc hp hbad)
  case drain => exact exec_of_done ha rfl (mdrnOp_drain hh ht hst hr hc)
  case more => exact exec_of_done ha rfl ((mdrnOp_send hh ht hst hq hu).trans (if_neg (by simpa using hne)))
  case last => exact exec_of_done ha rfl ((mdrnOp_send hh ht hst hq hu).trans (if_pos (by rw [he]; rfl)))
  case empty => exact congrArg tcwState (clearTile_spec _ f.tile).1

end Sys2Proof.Machine
end

section
/-! PROOFS. The memory nodes (R320 to R326). -/

namespace Sys2Proof.Machine

open Sys2Proof

/-! ### Atomics and stores -/

theorem amoOf_of_code {code : Nat} {op : AmoOp} (h : ([AmoOp.add, .and, .or, .xor, .min, .max, .minn, .maxn, .swap] : List AmoOp)[code]? = some op) :
    code ≠ 9 ∧ amoOf code = some op := by
  match code with
  | 0 | 1 | 2 | 3 | 4 | 5 | 6 | 7 | 8 => exact ⟨by decide, h⟩
  | n + 9 => exact nomatch h

theorem amoNew_op {code old x : Nat} {op : AmoOp} (h : ([AmoOp.add, .and, .or, .xor, .min, .max, .minn, .maxn, .swap] : List AmoOp)[code]? = some op)
    (w e : Nat) : amoNew code w old x e = some (op.val w old x) := by
  obtain ⟨h9, hop⟩ := amoOf_of_code h
  rw [amoNew, if_neg h9, hop]
  rfl

theorem mstData_length (b : Pay) (p : Option Pay) : (mstData b p).length = 64 := by
  rw [mstData, List.length_map, List.length_zipIdx, bytesOf_length]

theorem bytesOf_getElem {n i : Nat} (v : Nat) (h : i < (bytesOf n v).length) : (bytesOf n v)[i] = BitVec.ofNat 8 (v / 2 ^ (8 * i)) := by
  refine BitVec.eq_of_toNat_eq ?_
  rw [← List.getD_eq_getElem _ 0 h, bytesOf_getD n v i (by simpa using h), BitVec.toNat_ofNat]

theorem mstData_getD (b : Pay) (p : Option Pay) {i : Nat} (hi : i < 64) : (mstData b p).getD i none =
    if p.all fun q => q.getLsbD (i / 4 * 32) then some (BitVec.ofNat 8 (b.toNat / 2 ^ (8 * i))) else none := by
  rw [List.getD_eq_getElem _ _ (by rw [mstData_length]; exact hi)]
  simp only [mstData, List.getElem_map, List.getElem_zipIdx, bytesOf_getElem, Nat.zero_add]
  cases p with
  | none => rfl
  | some q =>
    dsimp only
    rw [bitAt_eq_testBit]
    rfl

/-! ### Where a node's access goes (R320) -/

theorem nodeAddr_at {s : State} {f : Fab} {va : Word} {align n : Nat} {acc : Acc} {t : Tgt} (h : NodeReaches s f va align n acc t) {barred : Tgt → Bool}
    (hb : barred t = false) : s.nodeAddr f va align n acc barred = .at (if acc = .write then s else s.touch t) t false := by
  obtain ⟨hw, hst, hal, hx, hu, hf, hres, hq⟩ := h
  have hmay : ¬(acc ≠ .read ∧ t.isScratch = true ∧ s.reserved t.phys n = true) := fun ⟨ha, hsc, hr⟩ => by
    rw [hres ha hsc] at hr
    exact nomatch hr
  unfold State.nodeAddr
  simp only [hw, hst, hal, hx, hb, hu, hf, hmay, strike_quiet hq, Option.isSome_none, Bool.false_eq_true, if_false, ne_eq, not_true]
  split <;> rfl

section
variable (s : State) (t : Tgt)

theorem touch_opSt (f : Fab) : (s.touch t).opSt f = s.opSt f := by rw [touch_eq]; rfl
theorem touch_poisonIn (a n : Nat) : (s.touch t).poisonIn a n = s.poisonIn a n := by rw [touch_eq]; rfl
theorem touch_vFloor (line : Nat) : (s.touch t).vFloor line = s.vFloor line := by rw [State.vFloor, rdWord_congr (touch_mem s t)]; rfl
theorem touch_vNext (line : Nat) : (s.touch t).vNext line = s.vNext line := by rw [State.vNext, rdWord_congr (touch_mem s t)]; rfl
theorem touch_vVal (line v : Nat) : (s.touch t).vVal line v = s.vVal line v := rdWord_congr (touch_mem s t) _

/-- A page whose check has not failed is still none whose check has failed. -/
theorem touch_notFailed (h : t.sf = true → ∀ g, s.staged? (flashPage t.phys) = some g → g.failed = false) :
    ¬(t.sf && (match (s.touch t).staged? (flashPage t.phys) with
      | some g => g.failed
      | none => false)) = true := by
  cases hsf : t.sf with
  | false => exact Bool.false_ne_true
  | true =>
    have hst := touch_failed s t (flashPage t.phys)
    rw [Bool.true_and]
    cases hg : (s.touch t).staged? (flashPage t.phys) with
    | none => exact Bool.false_ne_true
    | some g =>
      rw [hg] at hst
      obtain ⟨g', hg', he⟩ := Option.map_eq_some_iff.mp hst.symm
      exact Bool.eq_false_iff.mp ((congrArg Prod.fst he).symm.trans (h hsf g' hg'))

end

/-! ### How a node's firing ends -/

/-- The state that a memory node is left in, its fault state cleared. -/
def OpSt.served (o : OpSt) : OpSt := { o with wait := none, st := 0, pos := 0 }

theorem nodeDone_sent {s u : State} {f : Fab} {t : Token} (h : s.sendAll f (f.both t) = some u) (l : List (Nat × Token)) :
    s.nodeDone f l t = .done (passedState u f l (s.opSt f).served) := pass_sent h l _

theorem FiresOn.checked {s : State} {w : FabW} {f : Fab} {need : List (Nat × BitVec 4)} {l : List (Nat × Token)} (h : FiresOn s w f need l)
    (go : List (Nat × Token) → Fire) : s.checked f need go = go l := by
  obtain ⟨-, ⟨hl, hne, hp⟩, hk, ht⟩ := h
  exact checked_go hl hne hp hk ht go

theorem passedState_mem (s : State) (f : Fab) (l : List (Nat × Token)) (o : OpSt) : (passedState s f l o).mem = s.mem :=
  (congrArg State.mem ((tasksOnly_takeAll s f l).trans (tasksOnly_setOpSt _ f (f.noteEos o l))) :)

theorem sendAll_mem {s u : State} {f : Fab} {out : List (BitVec 10 × Token)} (h : s.sendAll f out = some u) : u.mem = s.mem :=
  (congrArg State.mem (tasksOnly_sendAll h) :)

section
variable {s u : State} {w : FabW} {f : Fab} {l : List (Nat × Token)} {t : Tgt}

/-- What a load gives of its place (R321). -/
def State.loaded (s : State) (f : Fab) (fmt : BitVec 4) (t : Tgt) (wave : Nat) : Token :=
  { dataToken fmt (BitVec.ofNat 512 (natOf (s.mldBytes f t wave))) wave with poison := s.tgtPoison t 64 }

theorem mld_global (h : FiresOn s w f [(0, 0)] l) (hx : w.x.getLsbD 0 = false) (hr : NodeReaches s f (addrOf (f.operand l 0)) 64 64 .read t)
    (hs : t.sf = true → ∀ g, s.staged? (flashPage t.phys) = some g → g.failed = false)
    (hu : (s.touch t).sendAll f (f.both ((s.touch t).loaded f w.fmt t (waveOf l))) = some u) : exec (.mld w) s = .next (passedState u f l (s.opSt f).served) := by
  refine exec_of_done h.1 rfl ((h.checked _).trans ?_)
  dsimp only
  rw [if_neg (by rw [hx]; decide), nodeAddr_at hr rfl, if_neg (by decide), ← touch_opSt s t f]
  refine (if_neg (touch_notFailed s t hs)).trans ?_
  exact nodeDone_sent hu l

theorem mld_local (h : FiresOn s w f [(0, 0)] l) (hx : w.x.getLsbD 0 = true)
    (hu : s.sendAll f (f.both (s.loaded f w.fmt (localTgt f (f.operand l 0)) (waveOf l))) = some u) :
    exec (.mld w) s = .next (passedState u f l (s.opSt f).served) := by
  refine exec_of_done h.1 rfl ((h.checked _).trans ?_)
  dsimp only
  rw [if_pos hx]
  exact (if_neg Bool.false_ne_true).trans (nodeDone_sent hu l)

theorem mldBytes_noStores (h : ∀ k, s.task? f.b.task = some k → k.stores = []) (wave : Nat) : s.mldBytes f t wave = s.rdTgt t 64 := by
  unfold State.mldBytes
  dsimp only
  split
  · split
    · rename_i k hk
      simp only [Task.seenStores, h k hk, List.filter_nil, List.mergeSort_nil, List.append_nil, List.foldl_nil]
    · rfl
  · rfl

/-- The store that an mst holds for the commit of its wave (R322). -/
def State.mstHeld (s : State) (f : Fab) (l : List (Nat × Token)) (t : Tgt) : State :=
  s.holdStore f (waveOf l) (s.storeOwner f t) (t.storeKind (mstData (f.operand l 1) ((l.find? fun p => p.1 == 2).map fun p => p.2.pay))) none

theorem exec_mst (h : FiresOn s w f (if w.fmt = 0 then [(0, 0), (2, 15)] else [(0, 0), (1, w.fmt), (2, 15)]) l)
    (ht : (w.x.getLsbD 0 = true ∧ t = localTgt f (f.operand l 0) ∧ s.reserved t.phys 64 = false) ∨
      (w.x.getLsbD 0 = false ∧ NodeReaches s f (addrOf (f.operand l 0)) 64 64 .write t ∧ t.sf = false ∧ t.ver = false))
    (hroom : s.bufFull f (waveOf l) (s.storeOwner f t)
      (t.storeKind (mstData (f.operand l 1) ((l.find? fun p => p.1 == 2).map fun p => p.2.pay))).granule = false) :
    exec (.mst w) s = .next (passedState (s.mstHeld f l t) f l (s.opSt f).served) := by
  refine exec_of_done h.1 rfl ((h.checked _).trans ?_)
  dsimp only
  rcases ht with ⟨hx, rfl, hres⟩ | ⟨hx, hr, hsf, hver⟩
  · rw [if_pos hx, if_neg (by rw [hres]; decide), if_neg (by rw [hroom]; decide)]
    rfl
  · rw [if_neg (by rw [hx]; decide), nodeAddr_at hr (by rw [hsf, hver]; rfl), if_pos rfl]
    exact (if_neg (by rw [hroom]; decide)).trans rfl

/-- The number that a matm leaves, from the old value at its place (R324). -/
def matmNew (w : FabW) (f : Fab) (l : List (Nat × Token)) (n old : Nat) : Option Nat :=
  amoNew (w.x.toNat % 16) (8 * n) old ((f.operand l 1).toNat % 2 ^ (8 * n)) ((((l.find? fun p => p.1 == 2).map fun p => p.2.pay).elim 0 BitVec.toNat) % 2 ^ (8 * n))

/-- The state after a matm has left its number, or none, at its place. -/
def State.amoLeft (s : State) (t : Tgt) (n : Nat) (new : Option Nat) : State :=
  match new with
  | some x => s.store t.phys (bytesOf n x)
  | none => s

theorem matm_step (h : FiresOn s w f [(0, 0), (1, w.fmt), (2, 0)] l) {n : Nat} (hn : (if w.x.getLsbD 4 then 8 else 4) = n)
    (hr : NodeReaches s f (addrOf (f.operand l 0)) n n .both t) (hsf : t.sf = false) (hver : t.ver = false) (hp : (s.touch t).tgtPoison t n = false) {v : State}
    (hv : (s.touch t).amoLeft t n (matmNew w f l n (natOf ((s.touch t).rdTgt t n))) = v)
    (hu : v.sendAll f (f.both (dataToken 0 (BitVec.ofNat 512 (natOf ((s.touch t).rdTgt t n))) (waveOf l))) = some u) :
    exec (.matm w) s = .next (passedState u f l (v.opSt f).served) := by
  have hexp : ((l.find? fun q => q.1 == 2).map fun q => q.2.pay.toNat).getD 0 = ((l.find? fun p => p.1 == 2).map fun p => p.2.pay).elim 0 BitVec.toNat := by
    cases l.find? fun q => q.1 == 2 <;> rfl
  refine exec_of_done h.1 rfl ((h.checked _).trans ?_)
  simp only [hn]
  rw [nodeAddr_at hr (by rw [hsf, hver]; rfl), if_neg (by decide), NodeTo.run, if_neg (by rw [hp]; decide)]
  rw [hexp]
  subst hv
  exact nodeDone_sent hu l

theorem matm_writes (h : FiresOn s w f [(0, 0), (1, w.fmt), (2, 0)] l) {n : Nat} (hn : (if w.x.getLsbD 4 then 8 else 4) = n)
    (hr : NodeReaches s f (addrOf (f.operand l 0)) n n .both t) (hsf : t.sf = false) (hver : t.ver = false) (hp : (s.touch t).tgtPoison t n = false) {x : Nat}
    (hx : matmNew w f l n (natOf ((s.touch t).rdTgt t n)) = some x)
    (hu : ((s.touch t).store t.phys (bytesOf n x)).sendAll f (f.both (dataToken 0 (BitVec.ofNat 512 (natOf ((s.touch t).rdTgt t n))) (waveOf l))) = some u) :
    exec (.matm w) s = .next (passedState u f l (s.opSt f).served) ∧ HoldsAt (passedState u f l (s.opSt f).served) t.phys n x ∧
      KeepsOutside s (passedState u f l (s.opSt f).served) t.phys n := by
  have hmem : (passedState u f l (s.opSt f).served).mem = ((s.touch t).store t.phys (bytesOf n x)).mem := (passedState_mem ..).trans (sendAll_mem hu)
  have hop : ((s.touch t).store t.phys (bytesOf n x)).opSt f = s.opSt f := by
    rw [← touch_opSt s t f, store_eq]; rfl
  refine ⟨?_, (holdsAt_store (s.touch t) t.phys n x).of_mem hmem, ?_⟩
  · have hexec := matm_step h hn hr hsf hver hp (by rw [hx]; rfl) hu
    rw [hop] at hexec
    exact hexec
  · have hkeep := keepsOutside_store (s.touch t) t.phys (bytesOf n x)
    rw [bytesOf_length] at hkeep
    intro b hb
    rw [rdByte_congr hmem, hkeep b hb, rdByte_congr (touch_mem s t)]

theorem matm_keeps (h : FiresOn s w f [(0, 0), (1, w.fmt), (2, 0)] l) {n : Nat} (hn : (if w.x.getLsbD 4 then 8 else 4) = n)
    (hr : NodeReaches s f (addrOf (f.operand l 0)) n n .both t) (hsf : t.sf = false) (hver : t.ver = false) (hp : (s.touch t).tgtPoison t n = false)
    (hx : matmNew w f l n (natOf ((s.touch t).rdTgt t n)) = none)
    (hu : (s.touch t).sendAll f (f.both (dataToken 0 (BitVec.ofNat 512 (natOf ((s.touch t).rdTgt t n))) (waveOf l))) = some u) :
    exec (.matm w) s = .next (passedState u f l (s.opSt f).served) ∧ KeepsMemory s (passedState u f l (s.opSt f).served) := by
  have hexec := matm_step h hn hr hsf hver hp (by rw [hx]; rfl) hu
  rw [touch_opSt] at hexec
  exact ⟨hexec, rdByte_congr (((passedState_mem ..).trans (sendAll_mem hu)).trans (touch_mem s t))⟩

/-- What an mldv does at its place (R325). -/
def State.mldvFire (s : State) (f : Fab) (l : List (Nat × Token)) (t : Tgt) : Fire :=
  let v := (addrOf (f.operand l 1)).toNat
  if s.poisonIn t.line 64 then (s.touch t).nodeDone f l { dataToken 0 0 (waveOf l) with poison := true }
  else if v < s.vFloor t.line then .fault .versionRetired (waveOf l) 0
  else if v < s.vNext t.line then (s.touch t).nodeDone f l (dataToken 0 (BitVec.ofNat 512 (s.vVal t.line v).toNat) (waveOf l))
  else .wait

theorem exec_mldv (h : FiresOn s w f [(0, 0), (1, w.fmt)] l) (hr : NodeReaches s f (addrOf (f.operand l 0)) 8 8 .read t) (hver : t.ver = true) :
    exec (.mldv w) s = s.fabric w fun _ => s.mldvFire f l t := by
  show s.fabric w _ = _
  rw [fabric_acts h.1, fabric_acts h.1]
  dsimp only
  rw [h.checked, nodeAddr_at hr (by rw [hver]; rfl), if_neg (by decide), NodeTo.run, Bool.false_or, touch_poisonIn, touch_vFloor, touch_vNext, touch_vVal]
  rfl

theorem mldv_sent {tok : Token} (h : FiresOn s w f [(0, 0), (1, w.fmt)] l) (hr : NodeReaches s f (addrOf (f.operand l 0)) 8 8 .read t) (hver : t.ver = true)
    (hf : s.mldvFire f l t = (s.touch t).nodeDone f l tok) (hu : (s.touch t).sendAll f (f.both tok) = some u) :
    exec (.mldv w) s = .next (passedState u f l (s.opSt f).served) := by
  refine exec_of_done h.1 (exec_mldv h hr hver) (hf.trans ?_)
  rw [← touch_opSt s t f]
  exact nodeDone_sent hu l

/-- What an mstv does at its place (R325). -/
def State.mstvFire (s : State) (f : Fab) (l : List (Nat × Token)) (t : Tgt) : Fire :=
  if s.poisonIn t.line 64 then .fault .poison (waveOf l) 0
  else .done (passedState ((s.touch t).holdStore f (waveOf l) noOwner (.version (t.idx.getD 0) t.pw t.frame t.off (addrOf (f.operand l 1))) none) f l
    (s.opSt f).served)

theorem exec_mstv (h : FiresOn s w f [(0, 0), (1, w.fmt)] l) (hr : NodeReaches s f (addrOf (f.operand l 0)) 8 8 .both t) (hver : t.ver = true) :
    exec (.mstv w) s = s.fabric w fun _ => s.mstvFire f l t := by
  show s.fabric w _ = _
  rw [fabric_acts h.1, fabric_acts h.1]
  dsimp only
  rw [h.checked, nodeAddr_at hr (by rw [hver]; rfl), if_neg (by decide), NodeTo.run, Bool.false_or, touch_poisonIn, touch_opSt]
  rfl

end

/-- Settles O39: atomics and store data, then each node at its place. -/
theorem memoryNodeFirings : Obligations.MemoryNodeFirings := by
  unfold Obligations.MemoryNodeFirings
  refine ⟨fun op code n old x e hn ho hx => ⟨rfl, fun hc => ⟨_, amoNew_op hc _ e, ?amo⟩⟩, fun b p => ⟨mstData_length b p, fun i hi => mstData_getD b p hi⟩, ?nodes⟩
  case amo => exact atomicGives_val op (by omega) ho hx
  case nodes =>
    intro w s f l t o wv va rest p sent
    refine ⟨fun u h hx hr hs => mld_global h hx hr hs, fun u h hx => mld_local h hx, fun h => mldBytes_noStores h wv, fun t h ht hroom => ⟨exec_mst h ht hroom, ?mst⟩,
      fun h => ?matm, fun h hr hver hp u hu => mldv_sent h hr hver (if_pos hp) hu, fun h hr hver hp => ⟨fun hv => ?retired, fun u hv hv' hu => ?version, fun hv hv' => ?waits⟩,
      fun h hr hver hp => ?mstvPoison, fun h hr hver hp => ?mstv, fun ha hnil hl => ?otok, fun x u more ha hp => ⟨fun hd => ?otokWait, fun hd hu => ?otokSend⟩⟩
    case mst => exact rdByte_congr (passedState_mem ..)
    case matm =>
      intro n old new hr hsf hver hp
      exact ⟨fun v u hnew hu => matm_writes h rfl hr hsf hver hp hnew hu, fun u hnew hu => matm_keeps h rfl hr hsf hver hp hnew hu⟩
    case retired => exact exec_of_fault h.1 (exec_mldv h hr hver) ((if_neg (by rw [hp]; decide)).trans (if_pos hv))
    case version =>
      exact mldv_sent h hr hver ((if_neg (by rw [hp]; decide)).trans ((if_neg (not_lt.mpr hv)).trans (if_pos hv'))) hu
    case waits =>
      exact exec_of_wait h.1 (exec_mldv h hr hver) ((if_neg (by rw [hp]; decide)).trans ((if_neg (not_lt.mpr hv)).trans (if_neg (not_lt.mpr hv'))))
    case mstvPoison => exact exec_of_fault h.1 (exec_mstv h hr hver) (if_pos hp)
    case mstv => exact exec_of_done h.1 (exec_mstv h hr hver) (if_neg (by rw [hp]; decide))
    case otok =>
      refine exec_of_done ha rfl ?_
      dsimp only
      rw [show (s.opSt f).panel = [] from hnil]
      exact (fireAt_go (poss := [0]) hl _).trans (pass_nil ..)
    case otokWait =>
      refine exec_of_wait ha rfl ?_
      dsimp only
      rw [show (s.opSt f).panel = x :: more from hp]
      exact if_neg (by rw [hd]; decide)
    case otokSend =>
      refine exec_of_done ha rfl ?_
      dsimp only
      rw [show (s.opSt f).panel = x :: more from hp]
      exact (if_pos hd).trans (pass_sent hu _ _)

end Sys2Proof.Machine
end

section
/-! PROOFS. Elements between ports and tokens (R78, R205, R206, R211). -/

namespace Sys2Proof.Machine

open Sys2Proof

/-! ### pin (R205) -/

section
variable {s u x : State} {w : FabW} {f : Fab} {t : Token} {wv : Nat} {b : Bind}

/-- A token of a pin with what it needs at o goes to every target (R205). -/
theorem pinSend_sent (hn : (f.fed 3 && t.kind != .eos) = true → ∃ g, s.head f 3 = some g ∧ g.poison = false)
    (hu : s.sendAll f (f.both { t with wave := wv }) = some u) (k : PortSt → PortSt) :
    s.pinSend f wv t k = .done (sentPin (if f.fed 3 && t.kind != .eos then u.take f 3 else u) f (t.kind == .eos) k) := by
  have hsent : s.sendAll f (f.both (t.at wv)) = some u := hu
  unfold State.pinSend
  cases hneed : f.fed 3 && t.kind != .eos with
  | false =>
    dsimp only
    split
    · rename_i h; exact nomatch h
    · rw [Bool.false_and, if_neg Bool.false_ne_true, hsent]
      rfl
  | true =>
    obtain ⟨g, hg, hp⟩ := hn hneed
    rw [hg]
    dsimp only
    rw [Option.any_some, hp, hsent]
    rfl

theorem pinSend_poisoned (hf : f.fed 3 = true) (hk : t.kind ≠ .eos) {g : Token} (hg : s.head f 3 = some g) (hp : g.poison = true) (k : PortSt → PortSt) :
    s.pinSend f wv t k = .fault .poison wv 0 := by
  have hneed : (f.fed 3 && t.kind != .eos) = true := by rw [hf, bne_iff_ne.mpr hk]; rfl
  unfold State.pinSend
  rw [hneed, hg]
  dsimp only
  rw [Option.any_some, hp]
  rfl

/-- A pin with a token at its port's head sends it. -/
theorem pin_head_sent (ha : SlotActs s w f) {rest : List Token} (hh : (s.port f.sid f.cell).head = t :: rest) (ho : (s.opSt f).owe = some wv)
    (hk : t.kind ≠ .drain) {v : State} (hv : s.pinSend f wv t (fun p => { p with head := rest, eosd := p.eosd || t.kind == .eos }) = .done v) :
    exec (.pin w) s = .next (v.closeRead f.sid f.cell) := by
  refine exec_of_done ha rfl ?_
  dsimp only
  rw [hh, ho]
  dsimp only
  rw [if_neg hk, hv]

theorem pin_head_fault (ha : SlotActs s w f) {rest : List Token} (hh : (s.port f.sid f.cell).head = t :: rest) (ho : (s.opSt f).owe = some wv)
    (hk : t.kind ≠ .drain) {c : Cause} (hv : s.pinSend f wv t (fun p => { p with head := rest, eosd := p.eosd || t.kind == .eos }) = .fault c wv 0) :
    exec (.pin w) s = .next (s.regionFault f c wv 0) := by
  refine exec_of_fault ha rfl ?_
  dsimp only
  rw [hh, ho]
  dsimp only
  rw [if_neg hk, hv]

theorem pin_unbound (ha : SlotActs s w f) (hh : (s.port f.sid f.cell).head = []) (hact : (s.port f.sid f.cell).act = none) : Waits s (.pin w) := by
  refine exec_of_wait ha rfl ?_
  dsimp only
  rw [hh, hact]

/-- A pin sends the next element of its read binding (R205). -/
theorem pin_elem_sent (ha : SlotActs s w f) {pieces : List Piece} {d : List Byte} {k : Bool} (hh : (s.port f.sid f.cell).head = [])
    (ho : (s.opSt f).owe = some wv) (hact : (s.port f.sid f.cell).act = some b) (hb : b.write = false) (hheld : (s.port f.sid f.cell).held = none)
    (hfull : (s.port f.sid f.cell).full = false) (hplan : s.plan f.sid b b.pos = .elem pieces) (hread : s.readPieces f.sid pieces = .bytes x d k) {v : State}
    (hv : (x.noteEntry f.sid f.cell b.gather pieces).pinSend f wv { dataToken f.w.fmt (BitVec.ofNat 512 (natOf d)) 0 with poison := k }
      (fun p => { p.step with held := none }) = .done v) : exec (.pin w) s = .next (v.closeRead f.sid f.cell) := by
  refine exec_of_done ha rfl ?_
  dsimp only
  rw [hh, hact]
  dsimp only
  rw [if_neg (by rw [hb]; decide), if_neg (by rw [ho]; simp), ho]
  unfold State.pinElem
  simp only [hfull, hheld, Bool.false_eq_true, if_false, Option.map_none, hplan, hread, hv]

end

/-- The port of a pin that has sent a token. -/
theorem port_sentPin (u : State) (f : Fab) (eos : Bool) (k : PortSt → PortSt) : (sentPin u f eos k).port f.sid f.cell = k (u.port f.sid f.cell) :=
  port_modPort_self u f.sid f.cell k

/-! ### pout (R206) -/

/-- The stores of an element held for the commit of a wave, and the binding one element on (R206). -/
def State.putElem (s : State) (f : Fab) (wave : Nat) (ks : List (Nat × StoreKind)) (pieces : List Piece) : State :=
  ((ks.foldl (fun (u : State) k => u.holdStore f wave k.1 k.2 (some f.cell)) s).noteEntry f.sid f.cell false pieces).modPort f.sid f.cell
    fun p => { p.step with held := none }

/-- The active binding of the acting slot's port has ended (R211). -/
def State.putEnds (s : State) (f : Fab) : Bool :=
  match (s.port f.sid f.cell).act with
  | some c => s.plan f.sid c c.pos == .ended
  | none => false

theorem putEnds_true {s : State} {f : Fab} (h : ∃ c, (s.port f.sid f.cell).act = some c ∧ s.plan f.sid c c.pos = .ended) : s.putEnds f = true := by
  obtain ⟨c, hc, he⟩ := h
  rw [State.putEnds, hc]
  exact beq_iff_eq.mpr he

theorem putEnds_false {s : State} {f : Fab} (h : ∀ c, (s.port f.sid f.cell).act = some c → s.plan f.sid c c.pos ≠ .ended) : s.putEnds f = false := by
  unfold State.putEnds
  split
  · rename_i c hc; exact beq_eq_false_iff_ne.mpr (h c hc)
  · rfl

section
variable {s : State} {w : FabW} {f : Fab} {a : Token} {src : BlkRef} {wave : Nat} (consume : State → Fire)

theorem poutTake_eos (hk : a.kind = .eos) : s.poutTake f src wave a consume = consume (s.modPort f.sid f.cell fun p => { p with eosd := true }) := by
  rw [State.poutTake, hk]

theorem poutTake_thread (hk : a.kind = .thread) : s.poutTake f src wave a consume = .fault .format wave 0 := by
  rw [State.poutTake, hk]

theorem poutTake_unbound (hk : a.kind = .data) (hact : (s.port f.sid f.cell).act = none) : s.poutTake f src wave a consume = .wait := by
  rw [State.poutTake, hk, hact]

theorem poutTake_data {b : Bind} {ks : List (Nat × StoreKind)} (hk : a.kind = .data) (hact : (s.port f.sid f.cell).act = some b) (hb : b.write = true)
    (hheld : (s.port f.sid f.cell).held = none) (hput : s.putPieces f (s.plan f.sid b b.pos).pieces (bytesOf 64 a.pay.toNat) = .stores ks)
    (hroom : ∀ k ∈ ks, s.bufFull { f with b := src } wave k.1 k.2.granule = false) {u : State}
    (hu : s.putElem { f with b := src } wave ks (s.plan f.sid b b.pos).pieces = u) :
    s.poutTake f src wave a consume = consume (if u.putEnds f then u.modPort f.sid f.cell PortSt.endWrite else u) := by
  subst hu
  have hany : (ks.any fun k => s.bufFull { f with b := src } wave k.1 k.2.granule) = false :=
    List.any_eq_false.mpr fun k hm => by rw [hroom k hm]; decide
  unfold State.poutTake State.poutElem
  simp only [hk, hact, hb, hheld, hput, hany, if_true, Option.map_none, Bool.false_eq_true, if_false]
  rfl

/-- A pout that takes its token at a. -/
theorem exec_pout_of {r : Fire} {l : List (Nat × Token)} (ha : SlotActs s w f) (hl : TokensAt s f [0, 3] l) (hr : r ≠ .wait)
    (hv : s.poutTake f f.b (waveOf l) (tokAt l 0) (fun u => u.pass f l [] (u.opSt f)) = r) : exec (.pout w) s = s.fabric w fun _ => r := by
  show s.fabric w _ = _
  rw [fabric_acts ha, fabric_acts ha]
  rw [fireAt_go (poss := [0]) hl, hv]
  cases r with
  | wait => exact absurd rfl hr
  | fault c k e => rfl
  | done t => rfl

theorem exec_pout_done {t : State} {l : List (Nat × Token)} (ha : SlotActs s w f) (hl : TokensAt s f [0, 3] l)
    (hv : s.poutTake f f.b (waveOf l) (tokAt l 0) (fun u => u.pass f l [] (u.opSt f)) = .done t) : exec (.pout w) s = .next t :=
  exec_of_done ha (exec_pout_of (r := .done t) ha hl nofun hv) rfl

/-- The token at the head of a route to a port taken (R78). -/
def State.routeTaken (b : BlkRef) (x : Nat) (s : State) : State := s.modInst b fun i => i.setChan (chanKey b x 7) ((i.chan (chanKey b x 7)).drop 1)

/-- A pout that takes the token of a route (R78). -/
theorem exec_pout_routed {b : BlkRef} {x : Nat} {t : Token} {r : Fire} {u : State} (ha : SlotActs s w f) (hn : s.heads f [0, 3] = none)
    (hroute : s.routedToPort f = some (b, x, t))
    (hr : (if t.poison then Fire.fault .poison t.wave 0 else s.poutTake f b t.wave t fun u => .done (State.routeTaken b x u)) = r)
    (hu : r = .done u ∨ ∃ c, r = .fault c t.wave 0 ∧ u = s.regionFault { f with b := b } c t.wave 0) : exec (.pout w) s = .next u := by
  refine exec_of_done ha rfl ?_
  have hwait : ∀ go, s.fireAt f [0] go = .wait := fun go => by
    rw [State.fireAt, show ([0] ++ [3] : List Nat) = [0, 3] from rfl, hn]
  rw [hwait, State.poutRouted, hroute]
  dsimp only
  unfold State.routeTaken at hr
  rw [hr]
  rcases hu with rfl | ⟨c, rfl, rfl⟩
  · rfl
  · rfl

end

/-- Settles O40: a pin with a token at its head or an element to read, then a pout with a token at a or on a route. -/
theorem portFirings : Obligations.PortFirings := by
  unfold Obligations.PortFirings
  intro w s f l ha o p
  obtain rfl := w_of_slotActs ha
  refine ⟨fun t rest wv u hh ho hk => fun hn hu => pin_head_sent ha hh ho hk (pinSend_sent hn hu _),
    fun t rest wv g hh ho hk hk' hf hg hp => pin_head_fault ha hh ho hk (pinSend_poisoned hf hk' hg hp _), fun hh hact => pin_unbound ha hh hact,
    fun b pieces x d k wv u hh ho hact hb hheld hfull hplan hread hu => fun hn => ?elem, fun hl hk => ?eos,
    fun b ks hl hk hact hb hheld hput hroom => ⟨fun he => ?ends, fun he => ?goes⟩, fun hl hk hact hroute => ?waits,
    fun b x t hn hroute hp => ⟨fun hk => ?routedEos, fun d ks hk hact hb hheld hput hroom => ⟨fun he => ?routedEnds, fun he => ?routedGoes⟩⟩,
    fun b x t hn hroute hbad => ?routedBad, fun hl hk => ?thread⟩
  case elem =>
    have hneed : (f.fed 3 && ({ dataToken f.w.fmt (BitVec.ofNat 512 (natOf d)) 0 with poison := k } : Token).kind != .eos) = f.fed 3 := Bool.and_true _
    have hsend := pinSend_sent (t := { dataToken f.w.fmt (BitVec.ofNat 512 (natOf d)) 0 with poison := k }) (fun h => hn (hneed ▸ h)) hu
      (fun p => { p.step with held := none })
    rw [hneed] at hsend
    refine ⟨pin_elem_sent ha hh ho hact hb hheld hfull hplan hread hsend, ?_⟩
    rw [port_sentPin]
    have hport : (if f.fed 3 then u.take f 3 else u).port f.sid f.cell = u.port f.sid f.cell := by split <;> rfl
    rw [hport, PortSt.pos?, PortSt.step, PortSt.pos?, Option.map_map, Option.map_map]
    rfl
  case eos => exact exec_pout_done ha hl (poutTake_eos _ hk)
  case ends =>
    refine exec_pout_done ha hl ((poutTake_data _ hk hact hb hheld hput hroom rfl).trans ?_)
    exact congrArg (fun u : State => u.pass f l [] (u.opSt f)) (if_pos (putEnds_true he))
  case goes =>
    refine exec_pout_done ha hl ((poutTake_data _ hk hact hb hheld hput hroom rfl).trans ?_)
    exact congrArg (fun u : State => u.pass f l [] (u.opSt f)) (if_neg (Bool.eq_false_iff.mp (putEnds_false he)))
  case waits =>
    refine exec_of_wait ha rfl ?_
    rw [fireAt_go (poss := [0]) hl, poutTake_unbound _ hk hact, State.poutRouted, hroute]
  case routedEos =>
    refine exec_pout_routed ha hn hroute ((if_neg (by rw [hp]; decide)).trans (poutTake_eos _ hk)) (.inl rfl)
  case routedEnds =>
    refine exec_pout_routed ha hn hroute ((if_neg (by rw [hp]; decide)).trans (poutTake_data _ hk hact hb hheld hput hroom rfl)) (.inl (congrArg Fire.done ?_))
    exact congrArg (State.routeTaken b x) (if_pos (putEnds_true he))
  case routedGoes =>
    refine exec_pout_routed ha hn hroute ((if_neg (by rw [hp]; decide)).trans (poutTake_data _ hk hact hb hheld hput hroom rfl)) (.inl (congrArg Fire.done ?_))
    exact congrArg (State.routeTaken b x) (if_neg (Bool.eq_false_iff.mp (putEnds_false he)))
  case routedBad =>
    cases hp : t.poison with
    | true => exact exec_pout_routed ha hn hroute (if_pos hp) (.inr ⟨_, rfl, rfl⟩)
    | false =>
      have hk : t.kind = .thread := hbad.resolve_left (by rw [hp]; decide)
      exact exec_pout_routed ha hn hroute ((if_neg (by rw [hp]; decide)).trans (poutTake_thread _ hk)) (.inr ⟨_, rfl, rfl⟩)
  case thread => exact exec_of_fault ha (exec_pout_of (r := .fault .format (waveOf l) 0) ha hl nofun (poutTake_thread _ hk)) rfl

end Sys2Proof.Machine
end

section
/-! PROOFS. Waves fire, commit and release their stores (R29, R79, R108, R197, R372, R373). -/

namespace Sys2Proof.Machine

open Sys2Proof

/-- A relation between states that holds of every step of a fold holds of the whole fold. -/
theorem foldl_rel {α β : Type} {R : β → β → Prop} (hrefl : ∀ s, R s s) (htrans : ∀ {s t u}, R s t → R t u → R s u) {f : β → α → β}
    (hf : ∀ s a, R s (f s a)) (l : List α) (s : β) : R s (l.foldl f s) := by
  induction l generalizing s with
  | nil => exact hrefl s
  | cons a l ih => exact htrans (hf s a) (ih _)

/-! ### What only moves tokens -/

/-- Nothing differs but tasks and the ports of sectors. -/
def TokensMoved (s u : State) : Prop :=
  ({ u with tasks := s.tasks, sectors := s.sectors } : State) = s ∧ ∀ j, ({ u.sec j with ports := (s.sec j).ports } : Sector) = s.sec j

namespace TokensMoved

theorem refl (s : State) : TokensMoved s s := ⟨rfl, fun _ => rfl⟩

theorem trans {s t u : State} (h : TokensMoved s t) (g : TokensMoved t u) : TokensMoved s u := by
  obtain ⟨hrest, hsec⟩ := h
  obtain ⟨grest, gsec⟩ := g
  refine ⟨?_, fun j => ?_⟩
  · exact (congrArg (fun x : State => ({ x with tasks := s.tasks, sectors := s.sectors } : State)) grest).trans hrest
  · exact (congrArg (fun x : Sector => ({ x with ports := (s.sec j).ports } : Sector)) (gsec j)).trans (hsec j)

theorem modTask (s : State) (id : Nat) (f : Task → Task) : TokensMoved s (s.modTask id f) := ⟨rfl, fun _ => rfl⟩
theorem modInst (s : State) (b : BlkRef) (f : Inst → Inst) : TokensMoved s (s.modInst b f) := modTask s _ _

theorem modPort (s : State) (sid q : Nat) (g : PortSt → PortSt) : TokensMoved s (s.modPort sid q g) := by
  refine ⟨rfl, fun j => ?_⟩
  rw [State.modPort, sec_modSec]
  split
  · rename_i h; subst h; rfl
  · rfl

theorem mem {s u : State} (h : TokensMoved s u) : u.mem = s.mem := (congrArg State.mem h.1 :)
theorem th {s u : State} (h : TokensMoved s u) (j : Nat) : (u.sec j).th = (s.sec j).th := (congrArg Sector.th (h.2 j) :)
theorem keepsMemory {s u : State} (h : TokensMoved s u) : KeepsMemory s u := rdByte_congr h.mem

theorem forwardDrain (s : State) (k : Bk) (slot id : Nat) : TokensMoved s (s.forwardDrain k slot id) := by
  refine foldl_rel refl trans (fun s x => ?_) _ s
  dsimp only
  split
  · exact refl s
  · exact modInst s _ _

theorem passDrains (s : State) (b : BlkRef) : TokensMoved s (s.passDrains b) := by
  unfold State.passDrains
  split
  · exact refl s
  · dsimp only
    split
    · exact refl s
    · refine (foldl_rel refl trans (fun s e => ?_) _ s).trans (foldl_rel refl trans (fun s p => ?_) _ _)
      · split
        · exact (modInst s _ _).trans (forwardDrain _ _ _ _)
        · exact refl s
      · split
        · exact refl s
        · split
          · exact (modPort s _ _ _).trans (forwardDrain _ _ _ _)
          · exact refl s

end TokensMoved

/-! ### Firing (R29, R197) -/

/-- Nothing of the tasks differs but their instances. -/
def InstsOnly (s u : State) : Prop := ∀ id, ∃ g : Task → List Inst, u.task? id = (s.task? id).map fun t => { t with insts := g t }

theorem InstsOnly.refl (s : State) : InstsOnly s s := fun id => ⟨Task.insts, by cases s.task? id <;> rfl⟩

theorem InstsOnly.trans {s t u : State} (h : InstsOnly s t) (g : InstsOnly t u) : InstsOnly s u := fun id => by
  obtain ⟨a, ha⟩ := h id
  obtain ⟨b, hb⟩ := g id
  refine ⟨fun t => b { t with insts := a t }, ?_⟩
  rw [hb, ha]
  cases s.task? id <;> rfl

theorem InstsOnly.modInst (s : State) (b : BlkRef) (f : Inst → Inst) : InstsOnly s (s.modInst b f) := fun id => by
  unfold State.modInst
  rw [task_modTask _ _ _ _ (by intro t; rfl)]
  split
  · exact ⟨_, rfl⟩
  · exact InstsOnly.refl s id

theorem fireWave_eq (s : State) (k : Bk) : ∃ v, s.fireWave k = v.modTask k.b.task (fun t =>
      { t with wrecs := t.wrecs ++ [{ b := k.b, w := Tab.get 0 k.i.waves (waveKey k.b), awc := k.blk.awc }] }) ∧ TokensMoved s v ∧ InstsOnly s v := by
  refine ⟨_, rfl, ?_, ?_⟩
  · refine (foldl_rel TokensMoved.refl TokensMoved.trans (fun s e => ?_) _ s).trans (TokensMoved.modInst _ _ _)
    split
    · exact TokensMoved.refl s
    · exact TokensMoved.modInst s _ _
  · refine (foldl_rel InstsOnly.refl InstsOnly.trans (fun s e => ?_) _ s).trans (InstsOnly.modInst _ _ _)
    split
    · exact InstsOnly.refl s
    · exact InstsOnly.modInst s _ _

theorem fireWave_spec {s : State} {k : Bk} {t : Task} (ht : s.task? k.b.task = some t) : TokensMoved s (s.fireWave k) ∧
    ∃ t', (s.fireWave k).task? k.b.task = some t' ∧ t'.wrecs = t.wrecs ++ [{ b := k.b, w := Tab.get 0 k.i.waves (waveKey k.b), awc := k.blk.awc }] := by
  obtain ⟨v, hv, hmoved, hinst⟩ := fireWave_eq s k
  obtain ⟨g, hg⟩ := hinst k.b.task
  rw [hv]
  refine ⟨hmoved.trans (TokensMoved.modTask _ _ _), { t with insts := g t, wrecs := _ }, ?_, rfl⟩
  rw [task_modTask _ _ _ _ (by intro t; rfl), if_pos rfl, hg, ht]
  rfl

theorem bk?_spec {s : State} {b : BlkRef} {k : Bk} (h : s.bk? b = some k) : k.b = b ∧ s.task? b.task = some k.t := by
  unfold State.bk? at h
  repeat' split at h
  all_goals cases h
  exact ⟨rfl, ‹_›⟩

theorem exec_waveFire {b : BlkRef} {s : State} {k : Bk} (hk : (s.passDrains b).bk? b = some k) (hf : k.t.fires = true) (hs : k.hasSource = true)
    (hr : (s.passDrains b).sourcesReady k = true) : exec (.waveFire b) s = .next ((s.passDrains b).fireWave k) := by
  show execWaveFire b s = _
  simp only [execWaveFire, hk, hf, hs, hr, Bool.and_self, if_true]

/-! ### Commit and release (R29, R108) -/

theorem commitFlags_tasks (s : State) (t : Tab FlagSet) : (s.commitFlags t).tasks = s.tasks := by
  unfold State.commitFlags
  refine foldl_rel (R := fun s u : State => u.tasks = s.tasks) (fun _ => rfl) (fun h g => g.trans h) (fun s p => ?_) t s
  rfl

theorem commitFlags_mem (s : State) (t : Tab FlagSet) : (s.commitFlags t).mem = s.mem := by
  unfold State.commitFlags
  refine foldl_rel (R := fun s u : State => u.mem = s.mem) (fun _ => rfl) (fun h g => g.trans h) (fun s p => ?_) t s
  rfl

section
variable {s u : State} {b : BlkRef} {w : Nat} {t : Task} {i : Inst} {r : WaveRec}

theorem wave?_task (h : s.wave? b w = some (t, i, r)) : s.task? b.task = some t := by
  unfold State.wave? at h
  split at h
  · rename_i t' i' ht hi
    cases hr : t'.wave? b w with
    | none => rw [hr] at h; cases h
    | some x => rw [hr] at h; cases h; exact ht
  · cases h

variable (hw : s.wave? b w = some (t, i, r)) (hr : t.releases = true) (hd : i.waveDone b w = true)
include hw hr hd

theorem exec_waveCommit (hf : t.isFirst b w = true) : exec (.waveCommit b w) s = if t.storesOf b w = [] then .next (s.commit b r)
    else if (!r.awc || (t.storesOf b w).any fun p => s.storeHeld (t.storesOf b w) p || s.handHeld p) = true then .next s
    else match s.meetStores (t.storesOf b w) with
      | (false, u) => .next u
      | (true, u) => .next ((u.releaseAll b.task (u.wanted b.task (t.storesOf b w))).commit b r) := by
  show execWaveCommit b w s = _
  simp only [execWaveCommit, hw, hr, hf, hd, Bool.not_true, Bool.or_self, Bool.false_eq_true, if_false] <;> rfl

theorem exec_shareRelease (ha : r.awc = false) {owner : Nat} (he : ∀ p ∈ t.stores, p.b = b → p.owner = owner → w ≤ p.wave) :
    exec (.ownerShareRelease b w owner) s = if owner = noOwner then
      match shareOf t b w owner with
      | p :: _ =>
        if s.storeHeld [p] p then .next s
        else match s.meetStores [p] with
          | (false, u) => .next u
          | (true, u) => .next (u.releaseShare b w (u.wanted b.task [p]))
      | [] => .next s
    else if (shareOf t b w owner).isEmpty || (shareOf t b w owner).any fun p => s.handHeld p then .next s
    else .next (s.releaseShare b w (shareOf t b w owner)) := by
  have hearly : (t.stores.any fun p => p.b == b && p.owner == owner && decide (p.wave < w)) = false := by
    refine List.any_eq_false.mpr fun p hp => ?_
    simp only [Bool.and_eq_true, beq_iff_eq, decide_eq_true_eq]
    exact fun ⟨⟨hb, ho⟩, hlt⟩ => absurd hlt (not_lt.mpr (he p hp hb ho))
  show execOwnerShareRelease b w owner s = _
  simp only [execOwnerShareRelease, hw, hr, ha, hd, hearly, Bool.not_true, Bool.or_self, Bool.false_eq_true, if_false] <;> rfl

end

/-- What the commit of a wave without stores leaves. -/
theorem commit_spec {s : State} {b : BlkRef} {t : Task} (ht : s.task? b.task = some t) (r : WaveRec) : ∃ v : State, s.commit b r = v.passDrains b ∧
    KeepsMemory s (s.commit b r) ∧ v.task? b.task = some { t with wrecs := t.wrecs.erase r } ∧ ∀ i, (v.sec i).flags = ((s.commitFlags r.flags).sec i).flags := by
  refine ⟨_, rfl, ?_, ?_, fun i => rfl⟩
  · exact rdByte_congr ((TokensMoved.passDrains _ b).mem.trans (commitFlags_mem s r.flags))
  · rw [task_modTask _ _ _ _ (by intro t; rfl), if_pos rfl, State.task?, commitFlags_tasks]
    exact congrArg (Option.map _) ht

/-! ### What a store meets on its way -/

theorem holdsMapped_iff (s : State) (c : BitVec 8) (t : Tgt) :
    s.holdsMapped c t = true ↔ (pwKind t.pw = 2 → (s.sec (bitsAt t.frame 56 8)).v = true ∧ (s.sec (bitsAt t.frame 56 8)).ctx = c) := by
  unfold State.holdsMapped
  rw [Bool.or_eq_true, bne_iff_ne, Bool.and_eq_true, beq_iff_eq]
  exact (imp_iff_not_or).symm

theorem touch_notFlash {s : State} {t : Tgt} (h : t.sf = false) : s.touch t = s := by
  rw [State.touch, h]

theorem meetStore_go {s : State} {p : PStore} (hq : Quiet s) (h : ∀ t, p.k.tgt? = some t → s.unreachable t = false ∧ t.sf = false ∧
    ∀ k, s.task? p.b.task = some k → k.runs = true → s.holdsMapped k.ctx t = true) : s.meetStore p = .go s := by
  unfold State.meetStore
  cases ht : p.k.tgt? with
  | none => rfl
  | some t =>
    obtain ⟨hu, hsf, hm⟩ := h t ht
    have hstray : s.strayStore p t = none := by
      refine Option.filter_eq_none_iff.mpr fun k hk => ?_
      by_cases hr : k.runs = true
      · rw [hm k hk hr]; simp
      · simp [hr]
    simp only [hstray, hu, Bool.false_eq_true, if_false, strike_quiet hq, touch_notFlash hsf]

theorem meetStores_quiet {s : State} (hq : Quiet s) {l : List PStore} (h : ∀ p ∈ l, ∀ t, p.k.tgt? = some t → s.unreachable t = false ∧ t.sf = false ∧
    ∀ k, s.task? p.b.task = some k → k.runs = true → s.holdsMapped k.ctx t = true) : s.meetStores l = (true, s) := by
  induction l with
  | nil => rfl
  | cons p l ih =>
    obtain ⟨hp, hl⟩ := List.forall_mem_cons.mp h
    rw [State.meetStores, meetStore_go hq hp]
    dsimp only
    rw [ih hl, ite_self]

theorem meetStores_stray {s : State} {p : PStore} {t : Tgt} {k : Task} (l : List PStore) (hbad : p.bad = false) (ht : p.k.tgt? = some t)
    (hk : s.task? p.b.task = some k) (hr : k.runs = true) (hm : s.holdsMapped k.ctx t = false) :
    s.meetStores (p :: l) = (false, if p.ask.isSome then s else s.askStore k p t) := by
  have hstray : s.strayStore p t = some k := by
    rw [State.strayStore, hk]
    exact Option.filter_some_pos (by rw [hr, hm]; rfl)
  rw [State.meetStores, if_neg (by rw [hbad]; decide), State.meetStore, ht]
  simp only [hstray]

/-! ### Thread tokens delivered (R30, R79) -/

section
variable {s : State} {task pkt : Nat} {t : Task} {p : Packet} (ht : s.task? task = some t) (hr : t.runs = true)
  (hp : t.packets.find? (fun p => p.id == pkt) = some p)
  (hfirst : t.packets.find? (fun x => x.gate == p.gate && x.inst == p.inst && x.img == p.img) = some p)
include ht hr hp hfirst

/-- The state with a thread token written into its slot of the queue. -/
def State.delivered (s : State) (task : Nat) (p : Packet) (a fill : Nat) : State :=
  (if p.poison then (s.wrWord a p.pay).setPoison a true else s.wrWord a p.pay).modTask task fun t =>
    { t with packets := t.packets.erase p, insts := t.insts.modify p.inst fun i => { i with fill := Tab.set 0 i.fill p.img (fill + 1) } }

theorem exec_delivery : exec (.threadTokenDelivery task pkt) s =
    if decide (Tab.get 0 (t.insts.getD p.inst {}).qlen p.img ≤ Tab.get 0 (t.insts.getD p.inst {}).fill p.img - Tab.get 0 (t.insts.getD p.inst {}).free p.img) ||
      !s.linked t.ctx p.gate (t.insts.getD p.inst {}).queueSid then .next s
    else .next (s.delivered task p ((t.insts.getD p.inst {}).queueSlot p.img (Tab.get 0 (t.insts.getD p.inst {}).fill p.img))
      (Tab.get 0 (t.insts.getD p.inst {}).fill p.img)) := by
  show execThreadTokenDelivery task pkt s = _
  simp only [execThreadTokenDelivery, ht, hp, hr, hfirst, beq_self_eq_true, Bool.not_true, Bool.or_self, Bool.false_or]
  rfl

end

section
variable (s : State) (id : Nat) (f : Task → Task) (a : Nat)
theorem modTask_mem : (s.modTask id f).mem = s.mem := rfl
theorem modTask_poison : (s.modTask id f).poison = s.poison := rfl
theorem isPoison_setPoison : (s.setPoison a true).isPoison a = true := tab_get_set_self false s.poison (a / 64) true
theorem wrWord_tasks (v : Word) : (s.wrWord a v).tasks = s.tasks := store_tasks ..
end

theorem delivered_spec {s : State} {task : Nat} {t : Task} (ht : s.task? task = some t) (p : Packet) (a fill : Nat) :
    (s.delivered task p a fill).rdWord a = p.pay ∧ KeepsOutside s (s.delivered task p a fill) a 8 ∧
    (p.poison = true → (s.delivered task p a fill).isPoison a = true) ∧
    (s.delivered task p a fill).task? task =
      some { t with packets := t.packets.erase p, insts := t.insts.modify p.inst fun i => { i with fill := Tab.set 0 i.fill p.img (fill + 1) } } := by
  have hmem : (s.delivered task p a fill).mem = (s.wrWord a p.pay).mem := by
    refine (modTask_mem ..).trans ?_
    split
    · exact setPoison_mem ..
    · rfl
  have htask : (if p.poison then (s.wrWord a p.pay).setPoison a true else s.wrWord a p.pay).task? task = some t := by
    rw [← ht, State.task?, State.task?]
    split
    · rw [setPoison_tasks, wrWord_tasks]
    · rw [wrWord_tasks]
  refine ⟨(rdWord_congr hmem a).trans (rdWord_wrWord_self s a p.pay), (keepsOutside_wrWord s a p.pay).of_mem hmem, fun hp => ?_, ?_⟩
  · rw [State.delivered, if_pos hp, State.isPoison, modTask_poison]
    exact isPoison_setPoison _ a
  · rw [State.delivered, task_modTask _ _ _ _ (by intro t; rfl), if_pos rfl, htask]
    rfl

/-! ### Spilled elements replayed (R372, R373) -/

section
variable {s : State} {n j : Nat} {e : Spill} {y : Bind} (ha : (s.port n j).act = some y) (he : (s.port n j).nextReplay = some e)
include ha he

/-- A replayed element at the head of its port. -/
def State.replayed (u : State) (n j : Nat) (e : Spill) (t : Token) : State :=
  (u.modPort n j fun p => { p.leaveSpill e with head := p.head ++ [{ t with replay := true }] }).closeRead n j

theorem replay_failed (hst : e.st = 2) : s.replay n j = s.replayed n j e { dataToken (s.pinFmt n j) 0 0 with poison := true } := by
  unfold State.replay
  simp only [ha, he, hst, if_true]
  rfl

theorem replay_got (hst : e.st ≠ 2) {k : Bool} (hg : e.got = some k) :
    s.replay n j = s.replayed n j e { dataToken (s.pinFmt n j) e.data 0 with poison := k } := by
  unfold State.replay
  simp only [ha, he, hst, if_false, hg]
  rfl

theorem replay_read (hst : e.st ≠ 2) (hg : e.got = none) {u : State} {d : List Byte} {k : Bool}
    (hread : s.readPieces n (s.plan n y e.pos).pieces = .bytes u d k) :
    s.replay n j = (u.noteEntry n j y.gather (s.plan n y e.pos).pieces).replayed n j e
      { dataToken (s.pinFmt n j) (BitVec.ofNat 512 (natOf d)) 0 with poison := k } := by
  unfold State.replay
  simp only [ha, he, hst, if_false, hg, hread]
  rfl

end

theorem leaveSpill_full {p : PortSt} {h : Spill} (hh : p.held = some h) (hf : p.full = true) (e : Spill) :
    p.leaveSpill e = { p.step with spill := p.spill.erase e ++ [h], held := none, full := false } := by
  simp only [PortSt.leaveSpill, hh, hf, if_true]

theorem leaveSpill_room {p : PortSt} (h : p.held = none ∨ p.full = false) (e : Spill) : p.leaveSpill e = { p with spill := p.spill.erase e } := by
  unfold PortSt.leaveSpill
  cases hh : p.held with
  | none => rfl
  | some x =>
    rw [hh] at h
    simp only [h.resolve_left nofun, Bool.false_eq_true, if_false]

/-- Settles O41: a wave's firing, its commit, what its stores meet, the delivery of a thread token and the replay of a spilled element. -/
theorem wavesFireAndCommit : Obligations.WavesFireAndCommit := by
  unfold Obligations.WavesFireAndCommit
  intro b w owner task pkt sid q s x n j
  refine ⟨fun k hk hf hs hr => ?fire, fun t i r hw hr hd => ⟨fun hf hl => ?commit, fun u hf hl ha hh => ?atomic, fun ha ho hl hh he => ?share, fun p rest u ha hl hh he => ?single⟩,
    fun l hq hl => meetStores_quiet hq hl, fun p l t k hbad ht hk hr hm => meetStores_stray l hbad ht hk hr hm, fun t x => holdsMapped_iff s x t,
    fun t p ht hr hp hfirst => ⟨fun hl => ?unlinked, fun hl hroom => ?delivered⟩, fun e y ha he => ⟨fun k hst hg => congrArg _ (replay_got ha he hst hg),
      fun u d k hst hg hread => congrArg _ (replay_read ha he hst hg hread), fun hst => congrArg _ (replay_failed ha he hst),
      fun h hh hf => leaveSpill_full hh hf e, fun h => leaveSpill_room h e⟩⟩
  case fire =>
    obtain ⟨hb, ht⟩ := bk?_spec hk
    obtain ⟨hmoved, t', ht', hrecs⟩ := fireWave_spec (k := k) (hb ▸ ht)
    have hall := (TokensMoved.passDrains s b).trans hmoved
    rw [hb] at ht' hrecs
    exact ⟨_, exec_waveFire hk hf hs hr, hall.keepsMemory, hall.th, t', ht', hrecs⟩
  case commit =>
    obtain ⟨v, hv, hmem, htask, hflags⟩ := commit_spec (wave?_task hw) r
    exact ⟨_, v, (exec_waveCommit hw hr hd hf).trans (if_pos hl), hv, hmem, htask, hflags⟩
  case atomic =>
    have hany : ((t.storesOf b w).any fun p => s.storeHeld (t.storesOf b w) p || s.handHeld p) = false := by
      refine List.any_eq_false.mpr fun p hp => ?_
      obtain ⟨h1, h2⟩ := hh p hp
      rw [h1, h2]
      decide
    have hexec := exec_waveCommit hw hr hd hf
    rw [if_neg hl, ha, hany, if_neg (by decide)] at hexec
    exact ⟨fun hm => by rw [hexec, hm], fun hm => by rw [hexec, hm]⟩
  case share =>
    have hany : ((shareOf t b w owner).any fun p => s.handHeld p) = false := List.any_eq_false.mpr fun p hp => by rw [hh p hp]; decide
    rw [exec_shareRelease hw hr hd ha he, if_neg ho, hany, List.isEmpty_eq_false_iff.mpr hl]
    rfl
  case single =>
    have hexec := exec_shareRelease hw hr hd ha he
    rw [if_pos rfl, hl] at hexec
    dsimp only at hexec
    rw [if_neg (by rw [hh]; decide)] at hexec
    exact ⟨fun hm => by rw [hexec, hm], fun hm => by rw [hexec, hm]⟩
  case unlinked =>
    refine (exec_delivery ht hr hp hfirst).trans (if_pos ?_)
    rw [hl]
    exact Bool.or_true _
  case delivered =>
    refine ⟨_, (exec_delivery ht hr hp hfirst).trans (if_neg ?_), delivered_spec ht p _ _⟩
    rw [hl, decide_eq_false (not_le.mpr hroom)]
    decide

end Sys2Proof.Machine
end


section
/-! PROOFS. Work queues: the writes of their registers, and the fetch of an entry (O42). -/

namespace Sys2Proof.Machine

open Sys2Proof

/-! ### The registers of a queue -/

/-- The state with one queue replaced differs in that queue alone. -/
def WqAlone (s u : State) (k : Nat) (x : Wq) : Prop :=
  u.wq k = x ∧ KeepsMemory s u ∧ (∀ j, j ≠ k → u.wq j = s.wq j) ∧ ({ u with wqs := s.wqs } : State) = s

theorem wq_setWq_self (s : State) (k : Nat) (x : Wq) : (s.setWq k x).wq k = x := tab_get_put_self _ _ _ _

theorem wqAlone_setWq (s : State) (k : Nat) (x : Wq) : WqAlone s (s.setWq k x) k x :=
  ⟨wq_setWq_self s k x, fun _ => rfl, fun _ hj => tab_get_put_ne _ _ _ hj, rfl⟩

/-- A queue that does not run, or whose valid entries fit its ring, is left as it is. -/
theorem checkOverrun_fits {s : State} {k : Nat} {x : Wq} (hx : x.en = false ∨ x.flt = true ∨ x.count ≤ 2 ^ x.qlog) :
    (s.setWq k x).checkOverrun k = s.setWq k x := by
  unfold State.checkOverrun
  refine if_neg ?_
  rw [wq_setWq_self]
  rintro ⟨hen, hflt, hcount⟩
  obtain h | h | h := hx
  · simp [h] at hen
  · simp [h] at hflt
  · omega

/-- A queue that runs with more valid entries than its ring holds faults. -/
theorem checkOverrun_faults {s : State} {k : Nat} {x : Wq} (hen : x.en = true) (hflt : x.flt = false) (hx : 2 ^ x.qlog < x.count) :
    (s.setWq k x).checkOverrun k = (s.setWq k x).queueFault k 1 0 0 0 := by
  unfold State.checkOverrun
  exact if_pos (by rw [wq_setWq_self]; exact ⟨hen, by simp [hflt], hx⟩)

section
variable {m : Master} {q : BitVec 11} {v : Word} {s : State}

theorem queueWrites_unowned (h : s.mayWrite m = false) :
    Waits s (.wqEnable m q v) ∧ Waits s (.wqDisable m q v) ∧ Waits s (.doorbell m q v) ∧ Waits s (.wqFaultClear m q v) := by
  refine ⟨?_, ?_, ?_, ?_⟩
  · show execWqEnable m q v s = _; simp [execWqEnable, h]
  · show execWqDisable m q v s = _; simp [execWqDisable, h]
  · show execDoorbell m q v s = _; simp [execDoorbell, h]
  · show execWqFaultClear m q v s = _; simp [execWqFaultClear, h]

theorem wqEnable_enabled (hen : (s.wq q.toNat).en = true) : Waits s (.wqEnable m q v) := by
  show execWqEnable m q v s = _; simp [execWqEnable, hen]

variable (h : s.mayWrite m = true)
include h

theorem wqEnable_fits (hen : (s.wq q.toNat).en = false) (hb : s.regs.bootCode = 0) (x : Wq)
    (hx : x = { (s.wq q.toNat).config v with en := true, flt := false, fcause := 0 }) (hc : x.count ≤ 2 ^ x.qlog) :
    goesOn (exec (.wqEnable m q v) s) fun u => WqAlone s u q.toNat x := by
  subst hx
  refine ⟨_, ?_, wqAlone_setWq s _ _⟩
  show execWqEnable m q v s = _
  simp only [execWqEnable, h, hen, hb, Bool.not_true, bne_self_eq_false, Bool.or_self, Bool.false_eq_true, if_false]
  rw [checkOverrun_fits (.inr (.inr hc))]

theorem wqDisable_sets (x : Wq) (hx : x = if (s.wq q.toNat).en then { s.wq q.toNat with en := false } else (s.wq q.toNat).config v) :
    goesOn (exec (.wqDisable m q v) s) fun u => WqAlone s u q.toNat x := by
  subst hx
  refine ⟨_, ?_, wqAlone_setWq s _ _⟩
  show execWqDisable m q v s = _
  simp only [execWqDisable, h, Bool.not_true, Bool.false_eq_true, if_false]

theorem doorbell_moves (ht : (s.wq q.toNat).tail ≠ v.setWidth 16) :
    exec (.doorbell m q v) s = .next ((s.setWq q.toNat { s.wq q.toNat with tail := v.setWidth 16 }).checkOverrun q.toNat) := by
  show execDoorbell m q v s = _
  simp [execDoorbell, h, ht]

theorem wqFaultClear_clears (hv : v.getLsbD 16 = true) (hf : (s.wq q.toNat).flt = true) :
    exec (.wqFaultClear m q v) s = .next ((s.setWq q.toNat { s.wq q.toNat with flt := false, fcause := 0 }).checkOverrun q.toNat) := by
  show execWqFaultClear m q v s = _
  simp only [execWqFaultClear, h, hv, hf, Bool.not_true, Bool.or_self, Bool.false_eq_true, if_false]

end

/-! ### The read of an entry -/

theorem meet_quiet {s : State} (h : Quiet s) (who : Nat) (t : Tgt) (n : Nat) : s.meet who t n = .go (s.touch t) := by
  obtain ⟨h1, h2⟩ := h
  simp [State.meet, State.retriesOf, State.busSwapping, State.nextHit, h1, h2]

theorem touch_tgtPoison (s : State) (t u : Tgt) (n : Nat) : (s.touch t).tgtPoison u n = s.tgtPoison u n :=
  calc (s.touch t).tgtPoison u n = (s.reached t).tgtPoison u n := by unfold State.reached State.noteRc; split <;> rfl
    _ = s.tgtPoison u n := reached_tgtPoison s t u n

/-- The state in which a party's read that nothing keeps is over. -/
def State.readOver (s : State) (t : Tgt) (who : Nat) : State := ((s.touch t).forgetAll who).endLink who

/-- Without transfers under retry, the end of a read changes the record of staged pages and the waits for modules alone. -/
theorem readOver_eq {s : State} (h : Quiet s) (t : Tgt) (who : Nat) :
    s.readOver t who = { s with flash := { s.flash with staged := (s.touch t).flash.staged }, linkWaits := (s.readOver t who).linkWaits } := by
  have hu : ({ s.umber with retries := s.umber.retries.filter fun r => !(r.failed && r.sid == who) } : Umber) = s.umber := by
    rw [h.2, List.filter_nil, ← h.2]
  have hover : ∀ F, ((({ s with flash := F } : State).forgetAll who).endLink who) =
      { s with flash := F, linkWaits := (({ s with flash := F } : State).endLink who).linkWaits } := by
    intro F
    exact (congrArg (fun U : Umber => (({ s with flash := F, umber := U } : State).endLink who)) hu :)
  unfold State.readOver
  rw [touch_eq]
  exact hover _

section
variable {s : State} (h : Quiet s) (t : Tgt) (who : Nat)
include h

theorem readOver_rdTgt (u : Tgt) (n : Nat) : (s.readOver t who).rdTgt u n = s.rdTgt u n := by rw [readOver_eq h]; rfl
theorem readOver_cwCheck (c : BitVec 8) (cw : Word) : (s.readOver t who).cwCheck c cw = s.cwCheck c cw := by rw [readOver_eq h]; rfl
theorem readOver_entryFits (l : Launch) : (s.readOver t who).entryFits l = s.entryFits l := by rw [readOver_eq h]; rfl
theorem readOver_wq (k : Nat) : (s.readOver t who).wq k = s.wq k := by rw [readOver_eq h]; rfl
theorem readOver_mem : (s.readOver t who).mem = s.mem := by rw [readOver_eq h]
theorem readOver_launches : (s.readOver t who).launches = s.launches := by rw [readOver_eq h]
theorem readOver_nextId : (s.readOver t who).nextId = s.nextId := by rw [readOver_eq h]
theorem readOver_cyc : (s.readOver t who).cyc = s.cyc := by rw [readOver_eq h]

end

/-! ### A fetch -/

/-- The eight words of the entry at a place. -/
def State.entryWords (s : State) (t : Tgt) : List Word :=
  (List.range 8).map fun i => BitVec.ofNat 64 (natOf (((s.rdTgt t 64).drop (8 * i)).take 8))

section
variable {q : BitVec 11} {s : State} (hen : (s.wq q.toNat).en = true) (hflt : (s.wq q.toNat).flt = false)
  (hne : (s.wq q.toNat).head ≠ (s.wq q.toNat).tail) (hroom : s.fetchRoom q.toNat = true)
include hen hflt hne hroom

theorem fetch_inactive (hc : (s.ctx (s.wq q.toNat).ctx).st ≠ .active) :
    exec (.fetch q) s = .next (s.setWq q.toNat ((s.wq q.toNat).faulted 4)) := by
  show execFetch q s = _
  have hq : s.queueFault q.toNat 4 0 0 0 = s.setWq q.toNat ((s.wq q.toNat).faulted 4) := if_neg hc
  simp only [execFetch, hen, hflt, hroom, beq_eq_false_iff_ne.mpr hne, Bool.not_true, Bool.or_self, Bool.false_eq_true, if_false, if_pos hc, hq]

theorem fetch_adds (t : Tgt) (hc : (s.ctx (s.wq q.toNat).ctx).st = .active)
    (hv : isVirt ((s.wq q.toNat).base + BitVec.ofNat 64 (64 * ((s.wq q.toNat).head.toNat % 2 ^ (s.wq q.toNat).qlog))) = true)
    (hx : s.xlateV (s.wq q.toNat).ctx
      ((s.wq q.toNat).base + BitVec.ofNat 64 (64 * ((s.wq q.toNat).head.toNat % 2 ^ (s.wq q.toNat).qlog))).toNat .read = .ok t)
    (hf : s.flashHeld t = false) (hp : s.tgtPoison t 64 = false) (hu : s.unreachable t = false) (hq : Quiet s)
    (hcw : s.cwCheck (s.wq q.toNat).ctx ((s.entryWords t).getD 2 0) = some none) :
    exec (.fetch q) s = .next ((s.readOver t (whoQueue q.toNat)).addLaunch q.toNat (s.entryWords t)) := by
  have hcw' : (s.readOver t (whoQueue q.toNat)).cwCheck (s.wq q.toNat).ctx ((s.entryWords t).getD 2 0) = some none := by
    rw [readOver_cwCheck hq, hcw]
  have hl := readOver_rdTgt hq t (whoQueue q.toNat) t 64
  show execFetch q s = _
  simp only [execFetch, hen, hflt, hroom, beq_eq_false_iff_ne.mpr hne, Bool.not_true, Bool.or_self, Bool.false_eq_true, if_false, ne_eq, hc,
    not_true, hv, hx, hf, hu, if_true, meet_quiet hq, touch_tgtPoison, hp]
  unfold State.readOver at hcw' hl ⊢
  rw [hl]
  unfold State.entryWords at hcw' ⊢
  rw [hcw']

end

/-- An entry that passes its checks and names no dependence is listed READY, and where no launch waits nothing else follows. -/
theorem addLaunch_ready {s : State} {k : Nat} {ws : List Word} (hn : NoLaunchWaits s) (hform : entryForm ws = true)
    (hfits : s.entryFits (entryLaunch k (s.wq k).ctx s.nextId ws) = true) (hd : (entryLaunch k (s.wq k).ctx s.nextId ws).deps = []) :
    s.addLaunch k ws = ({ (({ s with nextId := s.nextId + 1 } : State).setWq k { s.wq k with head := (s.wq k).head + 1 }) with
      launches := s.launches ++ [{ entryLaunch k (s.wq k).ctx s.nextId ws with st := .ready, readyAt := s.cyc }], placeDue := true } : State) := by
  simp only [State.addLaunch, hform, hfits, hd, Bool.not_true, Bool.or_self, Bool.false_eq_true, if_false, List.isEmpty_nil, if_true,
    beq_self_eq_true, Bool.or_true]
  refine settleAt_noWaits (fun l hl => ?_) []
  obtain h | h := List.mem_append.mp hl
  · exact hn l h
  · rw [List.mem_singleton.mp h]; exact ⟨nofun, nofun⟩

/-- Settles O42: each register write replaces one queue, and an overrun is decided by the count of valid entries; a fetch reads its entry and lists its launch. -/
theorem queuesAreWrittenAndFetched : Obligations.QueuesAreWrittenAndFetched := by
  unfold Obligations.QueuesAreWrittenAndFetched
  intro m q v s k w alone on run moved
  refine ⟨queueWrites_unowned, fun h => ⟨fun hen hb hc => wqEnable_fits h hen hb on rfl hc,
    fun hen => ⟨wqEnable_enabled hen, wqDisable_sets h _ (if_pos hen).symm⟩, fun hen => wqDisable_sets h _ (if_neg (by simp [w, k] at hen; simp [hen])).symm,
    fun ht hc => ?bell, fun ht hen hflt hc => ?full, fun hv hflt hc => ?clear⟩, fun hen hflt hne hroom => ⟨fetch_inactive hen hflt hne hroom, ?fetch⟩⟩
  case bell => exact ⟨_, (doorbell_moves h ht).trans (congrArg _ (checkOverrun_fits hc)), wqAlone_setWq s k moved⟩
  case full => exact (doorbell_moves h ht).trans (congrArg _ (checkOverrun_faults hen hflt hc))
  case clear =>
    have hc' : run.en = false ∨ run.flt = true ∨ run.count ≤ 2 ^ run.qlog := hc.imp id .inr
    exact ⟨_, (wqFaultClear_clears h hv hflt).trans (congrArg _ (checkOverrun_fits hc')), wqAlone_setWq s k run⟩
  case fetch =>
    intro t va ws l hc hv hx hf hp hu hq hcw
    have hexec := fetch_adds hen hflt hne hroom t hc hv hx hf hp hu hq hcw
    refine ⟨hexec, fun hn hform hfits hdeps => ?_⟩
    have hl : entryLaunch k ((s.readOver t (whoQueue k)).wq k).ctx (s.readOver t (whoQueue k)).nextId ws = l := by
      rw [readOver_wq hq, readOver_nextId hq]
    have hadd := addLaunch_ready (ws := ws) (hn.of_launches (readOver_launches hq t (whoQueue k))) hform
      (by rw [readOver_entryFits hq, hl]; exact hfits) (by rw [hl]; exact hdeps)
    refine ⟨_, hexec.trans (congrArg _ hadd), ?_, ?_, rfl, fun b => ?_⟩
    · exact (wq_setWq_self _ k _).trans (by rw [readOver_wq hq])
    · show (s.readOver t _).launches ++ _ = _
      rw [hl, readOver_launches hq, readOver_cyc hq]
    · exact rdByte_congr (readOver_mem hq t (whoQueue k)) b

end Sys2Proof.Machine
end


section
/-! PROOFS. The end of a scrub and of a task, the freeing of its sectors, a reservation's start, and the steps of a pre-emption (O43). -/

namespace Sys2Proof

/-- A table of which entries have been dropped by their keys. -/
theorem tab_get_filterKey {α : Type} (d : α) (f : Nat → Bool) (t : Tab α) (k : Nat) :
    Tab.get d (t.filter fun p => f p.1) k = if f k then Tab.get d t k else d := by
  induction t with
  | nil => simp
  | cons p t ih =>
    obtain ⟨i, v⟩ := p
    by_cases hi : i = k
    · subst hi
      cases hf : f i <;> simp [hf, Tab.get] at ih ⊢
      exact ih
    · cases hf : f i <;> simp [hf, Tab.get, hi, ih]

end Sys2Proof

namespace Sys2Proof.Machine

open Sys2Proof

/-! ### The end of a scrub (R381) -/

theorem rdByte_clearRange (s : State) (a n b : Nat) : (s.clearRange a n).rdByte b = if a ≤ b ∧ b < a + n then 0 else s.rdByte b := by
  refine (tab_get_filterKey blank (fun k => !(decide (a ≤ k) && decide (k < a + n))) s.mem b).trans ?_
  by_cases h : a ≤ b ∧ b < a + n
  · simp [h, blank]
  · rw [if_neg h, if_pos (by simp; omega)]; rfl

/-- A scrub that is over clears its sector's scratch, and leaves the sector without an owner. -/
theorem scrubDone_clears {sid : BitVec 8} {s : State} {t : Nat} (ht : (s.sec sid.toNat).scrub = some t) (hc : t ≤ s.cyc)
    (hv : (s.sec sid.toNat).v = false) :
    goesOn (exec (.scrubDone sid) s) fun u => (∀ i, i < 2 ^ 22 → u.rdByte (scratchAt sid.toNat i) = 0) ∧
      KeepsOutside s u (scratchAt sid.toNat 0) (2 ^ 22) ∧ u.sec sid.toNat = { (s.sec sid.toNat).cleared with lastCtx := none, scrub := none } ∧
      (∀ k, k ≠ sid.toNat → u.sec k = s.sec k) ∧ u.placeDue = true := by
  refine ⟨{ (s.clearRange (scratchAt sid.toNat 0) (2 ^ 22)).setSec sid.toNat { (s.sec sid.toNat).cleared with lastCtx := none, scrub := none } with
      placeDue := true }, ?_, fun i hi => ?_, fun b hb => ?_, tab_get_put_self _ _ _ _, fun k hk => tab_get_put_ne _ _ _ hk, rfl⟩
  · show execScrubDone sid s = _
    simp only [execScrubDone, ht]
    exact if_neg (by simp [hv]; omega)
  · refine (rdByte_clearRange s _ _ _).trans (if_pos ?_)
    unfold scratchAt; omega
  · exact (rdByte_clearRange s _ _ _).trans (if_neg (by omega))

/-! ### The start of a reservation (R188) -/

theorem exec_reservationStart {launch : Nat} {s : State} {l : Launch} (hl : s.launch? launch = some l) (hr : s.reserving = none)
    (hm : s.mayReserve l = true)
    (hfirst : ∀ k ∈ s.launches, k.id ≠ l.id → s.mayReserve k = true → s.sevenAt l ≤ s.sevenAt k ∧ (s.sevenAt k = s.sevenAt l → l.q ≤ k.q)) :
    exec (.reservationStart launch) s = .next ({ s with reserving := some l.id } : State).pressReserve := by
  have hearlier : (s.launches.any fun k => k.id != l.id && s.mayReserve k &&
      (decide (s.sevenAt k < s.sevenAt l) || (s.sevenAt k == s.sevenAt l && decide (k.q < l.q)))) = false := by
    rw [List.any_eq_false]
    intro k hk
    by_cases hid : k.id = l.id
    · simp [hid]
    · cases hmk : s.mayReserve k with
      | false => simp
      | true =>
        obtain ⟨h1, h2⟩ := hfirst k hk hid hmk
        simp only [Bool.and_eq_true, Bool.or_eq_true, decide_eq_true_eq, beq_iff_eq, not_and, not_or, Nat.not_lt]
        exact fun _ => ⟨h1, h2⟩
  show execReservationStart launch s = _
  simp only [execReservationStart, hl, hr, hm, hearlier, Option.isSome_none, Bool.not_true, Bool.or_self, Bool.false_eq_true, if_false]

/-! ### The end of a task (R27) -/

theorem id_of_launch? {s : State} {n : Nat} {l : Launch} (h : s.launch? n = some l) : l.id = n := by
  simpa using List.find?_some h

/-- A launch written in the place of the one with its number is found there. -/
theorem launch?_setLaunch_self {s : State} {l l' : Launch} (h : s.launch? l'.id = some l) : (s.setLaunch l').launch? l'.id = some l' := by
  unfold State.launch? State.setLaunch at *
  simp only
  generalize s.launches = ls at *
  induction ls with
  | nil => exact nomatch h
  | cons x ls ih =>
    by_cases hx : x.id = l'.id
    · simp [hx]
    · simp only [List.find?_cons, List.map_cons, if_neg hx, beq_eq_false_iff_ne.mpr hx] at h ⊢
      exact ih h

theorem exec_taskEnd {task : Nat} {s : State} {t : Task} (ht : s.task? task = some t) (hr : t.runs = true) (hp : t.pre ≠ .snapped)
    (hk : ∀ k ∈ t.sids, (s.sec k).th.halted = true ∧ s.writesDone k = true) (ho : ∀ o ∈ s.ops, o.task = task → o.isOver = true)
    (he : s.empty t = true) : exec (.taskEnd task) s = .next ((s.setTask { t with st := .ended, pre := .none }).countTask t.launch none) := by
  have hall : (t.sids.all fun k => (s.sec k).th.halted && s.writesDone k) = true := by
    simpa [List.all_eq_true, Bool.and_eq_true] using hk
  have hops : ((s.ops.filter fun o => o.task == task).all EngOp.isOver) = true := by
    rw [List.all_eq_true]
    intro o h
    obtain ⟨hmem, hid⟩ := List.mem_filter.mp h
    exact ho o hmem (by simpa using hid)
  show execTaskEnd task s = _
  simp only [execTaskEnd, ht, hr, hall, hops, he]
  rfl

/-- One more ended task of a launch that has others to come. -/
theorem countTask_more {s : State} {n : Nat} {l : Launch} (hl : s.launch? n = some l) (hst : l.st = .ready ∨ l.st = .running)
    (hn : l.isOver + 1 ≠ l.tcount) : s.countTask n none = s.setLaunch { l with isOver := l.isOver + 1, ok := l.ok + 1 } := by
  have hopen : (l.st == .closing || l.st == .complete) = false := by obtain h | h := hst <;> rw [h] <;> rfl
  simp [State.countTask, hl, hopen, hn]

/-! ### The freeing of sectors (R38) -/

/-- A sector once it is freed from a context. -/
def Sector.freed (c : BitVec 8) (x : Sector) : Sector :=
  { x with
    v := false, lastCtx := some c, task := 0, inst := 0, s4 := 0, s6 := 0, ownq := [], th := {}, rcache := []
    ports := [], act := none, shadow := none, shSt := .empty, switched := [], stopped := false }

theorem sec_freeSectors (s : State) (t : Task) (k : Nat) :
    (s.freeSectors t).sec k = if k ∈ t.sids then (s.sec k).freed t.ctx else s.sec k :=
  sec_modSecs (f := Sector.freed t.ctx) (fun _ => rfl) s t.sids k

/-- Freeing sectors changes sectors, the retries of their transfers and the note of a placement alone. -/
theorem freeSectors_eq (s : State) (t : Task) :
    s.freeSectors t = { s with sectors := (s.freeSectors t).sectors, umber := (s.freeSectors t).umber, placeDue := true } :=
  (congrArg (fun u : State => ({ u with umber := (s.freeSectors t).umber, placeDue := true } : State)) (modSecs_eq s t.sids (Sector.freed t.ctx)) :)

theorem sectorFree_ended {task : Nat} {s : State} {t : Task} (ht : s.task? task = some t) (hst : t.st = .ended) :
    goesOn (exec (.sectorFree task) s) fun u => u.task? task = none ∧ u.placeDue = true ∧ KeepsMemory s u ∧
      (∀ k ∈ t.sids, (u.sec k).v = false ∧ (u.sec k).act = none ∧ (u.sec k).shadow = none ∧ (u.sec k).ports = []) ∧
      ∀ k, k ∉ t.sids → u.sec k = s.sec k := by
  have hexec : exec (.sectorFree task) s = .next { (s.freeSectors t).dropOps task with
      tasks := ((s.freeSectors t).dropOps task).tasks.filter fun u => u.id != task } := by
    show execSectorFree task s = _
    simp only [execSectorFree, ht, hst, if_true]
  refine ⟨_, hexec, ?_, rfl, rdByte_congr ?_, fun k hk => ?_, fun k hk => (sec_freeSectors s t k).trans (if_neg hk)⟩
  · exact List.find?_eq_none.mpr fun x hx => by simpa using (List.mem_filter.mp hx).2
  · exact (congrArg State.mem (freeSectors_eq s t) :)
  · have := (sec_freeSectors s t k).trans (if_pos hk)
    have hs : ({ (s.freeSectors t).dropOps task with
      tasks := ((s.freeSectors t).dropOps task).tasks.filter fun u => u.id != task } : State).sec k = (s.sec k).freed t.ctx := this
    rw [hs]
    exact ⟨rfl, rfl, rfl, rfl⟩

/-! ### The steps of a pre-emption (R242 to R247) -/

/-- The deadline of a notice stops the gang's threads. -/
theorem graceDeadline_stops {task : Nat} {s : State} {t : Task} {d : Nat} (ht : s.task? task = some t) (hp : t.pre = .notice d) (hd : d ≤ s.cyc)
    (hr : t.runs = true) : exec (.graceDeadline task) s = .next (s.startMarkers t) := by
  show execGraceDeadline task s = _
  simp only [execGraceDeadline, ht, hp]
  exact if_neg (by simp [hr]; omega)

/-- A thread has stopped where its trap has its record, and else stands as it stood. -/
theorem startMarkers_stops {s : State} {t : Task} (ht : s.task? t.id = some t) :
    let u := s.startMarkers t
    let early := fun (j : Nat) => ∃ c, (s.sec j).th.wait = .record c
    ((∀ j ∈ t.sids, ¬early j → (u.sec j).th.stopped = true) ∧ (∀ j ∈ t.sids, early j → (u.sec j).th = (s.sec j).th) ∧
     ((∀ j ∈ t.sids, ¬early j) → u.task? t.id = some { t with pre := .markers }) ∧
     ((∃ j ∈ t.sids, early j ∧ (s.sec j).th.stopped = false) → u.task? t.id = some { t with pre := .threads })) ∧ KeepsMemory s u := by
  intro u early
  obtain ⟨hmem, -, hsec, htask⟩ := startMarkers_spec ht
  have hready : ∀ j ∈ t.sids, ¬early j → (u.sec j).th.stopped = true := fun j hj he => by
    rw [hsec, if_pos hj]
    exact (congrArg Thread.stopped (stopHere_of_ready fun c hc => he ⟨c, hc⟩) :)
  have hearly : ∀ j ∈ t.sids, early j → (u.sec j).th = (s.sec j).th := fun j hj ⟨c, hc⟩ => by
    rw [hsec, if_pos hj]; exact stopHere_of_early hc
  refine ⟨⟨hready, hearly, fun hall => ?_, fun ⟨j, hj, he, hs⟩ => ?_⟩, rdByte_congr hmem⟩
  · exact htask.trans (by rw [if_pos (List.all_eq_true.mpr fun j hj => hready j hj (hall j hj))])
  · refine htask.trans (by rw [if_neg]; rw [List.all_eq_true]; intro hall; have := hall j hj; rw [hearly j hj he, hs] at this; exact nomatch this)

/-- The operators of a slot list their markers as taken. -/
def Inst.markAll (b : BlkRef) (op : List Nat) (i : Inst) : Inst :=
  op.foldl (fun (i : Inst) p => { i with ops := Tab.put i.ops (opKey b p) { Tab.get {} i.ops (opKey b p) with marked := true } }) i

theorem markAll_keeps (b : BlkRef) (op : List Nat) (i : Inst) (k : Nat) (h : (Tab.get {} i.ops k).marked = true) :
    (Tab.get {} (i.markAll b op).ops k).marked = true := by
  unfold Inst.markAll
  induction op generalizing i with
  | nil => exact h
  | cons p op ih =>
    refine ih _ ?_
    by_cases hk : k = opKey b p
    · subst hk; rw [tab_get_put_self]
    · rw [tab_get_put_ne _ _ _ hk]; exact h

theorem markAll_marks (b : BlkRef) {op : List Nat} {p : Nat} (hp : p ∈ op) (i : Inst) :
    (Tab.get {} (i.markAll b op).ops (opKey b p)).marked = true := by
  induction op generalizing i with
  | nil => exact absurd hp List.not_mem_nil
  | cons q op ih =>
    obtain rfl | h := List.mem_cons.mp hp
    · exact markAll_keeps b op _ _ (by rw [tab_get_put_self])
    · exact ih h _

theorem inst?_of_bk? {s : State} {b : BlkRef} {k : Bk} (h : s.bk? b = some k) : s.inst? b = some k.i := by
  unfold State.bk? at h
  repeat' split at h
  all_goals cases h
  assumption

theorem takeMarker_marks {r : SlotRef} {s : State} {k : Bk} (hk : s.bk? r.b = some k) (hp : k.t.pre = .markers) (hr : k.t.runs = true)
    (hn : r.slot < k.blk.n) (hm : s.canMark k r.slot = true) :
    goesOn (exec (.takeMarker r) s) fun u =>
      (∀ p ∈ k.operator r.slot, p < 128 → (Tab.get {} (u.instOf r.b).ops (opKey r.b p)).marked = true) ∧ FabricFrame s u := by
  refine ⟨s.modInst r.b (Inst.markAll r.b (k.operator r.slot)), ?_, fun p hmem _ => ?_, rfl, fun _ => rfl, fun _ => rfl⟩
  · show execTakeMarker r s = _
    simp only [execTakeMarker, hk]
    exact if_pos ⟨hp, hr, hn, hm⟩
  · rw [State.instOf, inst_modInst, inst?_of_bk? hk]
    exact markAll_marks r.b hmem _

theorem saveSnapshot_lists {task : Nat} {s : State} {t : Task} (ht : s.task? task = some t) (hp : t.pre = .markers) (hr : t.runs = true)
    (hq : s.checkpointQuiet t = true) :
    goesOn (exec (.saveSnapshot task) s) fun u => u.saves = s.saves ++ s.snapshots t ∧
      (∃ k, u.task? task = some k ∧ k.pre = .snapped ∧ k.st = t.st) ∧ KeepsMemory s u ∧ ∀ k, u.sec k = s.sec k := by
  obtain rfl := id_of_task? ht
  let t' : Task := { t with pre := .snapped, insts := t.insts.map fun i => { i with drain := 0 } }
  have hset : ∀ u : State, u.tasks = s.tasks → (u.setTask t').task? t.id = some t' := fun u hu =>
    task?_setTask_self (k' := t') (k := t) (by unfold State.task? at ht ⊢; rw [hu]; exact ht)
  refine ⟨({ s with saves := s.saves ++ s.snapshots t } : State).setTask t', ?_, rfl, ⟨t', hset _ rfl, rfl, rfl⟩, fun _ => rfl, fun _ => rfl⟩
  show execSaveSnapshot t.id s = _
  simp only [execSaveSnapshot, ht]
  exact if_neg (by simp [hp, hr, hq])

/-! ### The save of a gang -/

theorem MemOnly.refl (s : State) : MemOnly s s := rfl

/-- A byte that lies in no record of a place reads as before. -/
def KeepsOffPlace (x : Ctx) (place : Nat) (s u : State) : Prop :=
  MemOnly s u ∧ ∀ a, x.saveOff? place a = none → (∀ o, x.saveAt place o ≠ a) → u.rdByte a = s.rdByte a

namespace KeepsOffPlace

variable {x : Ctx} {place : Nat}

theorem refl (s : State) : KeepsOffPlace x place s s := ⟨MemOnly.refl s, fun _ _ _ => rfl⟩

theorem trans {s t u : State} (h : KeepsOffPlace x place s t) (g : KeepsOffPlace x place t u) : KeepsOffPlace x place s u :=
  ⟨h.1.trans g.1, fun a ha ho => (g.2 a ha ho).trans (h.2 a ha ho)⟩

theorem wrByte (s : State) (off : Nat) (b : Byte) : KeepsOffPlace x place s (s.wrByte (x.saveAt place off) b) :=
  ⟨rfl, fun a _ ho => by rw [rdByte_wrByte, if_neg (fun e => ho off e.symm)]⟩

theorem setPoison (s : State) (a : Nat) (b : Bool) : KeepsOffPlace x place s (s.setPoison a b) := ⟨rfl, fun _ _ _ => rfl⟩

theorem dropped (s : State) (p : Tab Bool) :
    KeepsOffPlace x place s { s with mem := s.mem.filter fun q => !(x.saveOff? place q.1).isSome, poison := p } :=
  ⟨rfl, fun a ha _ => (tab_get_filterKey blank (fun k => !(x.saveOff? place k).isSome) s.mem a).trans (if_pos (by simp [ha]))⟩

end KeepsOffPlace

/-- A save record is written in its own place alone. -/
theorem keepsOffPlace_writeSave (s : State) (t : Task) (r : SaveRec) (sid : Nat) : KeepsOffPlace (s.ctx t.ctx) r.place s (s.writeSave t r sid) := by
  have hbytes : ∀ (u : State) (p : Part1), KeepsOffPlace (s.ctx t.ctx) r.place u
      (p.2.zipIdx.foldl (fun (u : State) q => u.wrByte ((s.ctx t.ctx).saveAt r.place (p.1 + q.2)) q.1) u) := fun u p =>
    foldl_rel KeepsOffPlace.refl KeepsOffPlace.trans (fun u q => KeepsOffPlace.wrByte u _ _) _ u
  have hparts := foldl_rel KeepsOffPlace.refl KeepsOffPlace.trans hbytes (s.saveParts t r sid)
  have hpoison := foldl_rel KeepsOffPlace.refl KeepsOffPlace.trans
    (fun u g => KeepsOffPlace.setPoison (x := s.ctx t.ctx) (place := r.place) u ((s.ctx t.ctx).saveAt r.place (0x110000 + g * 64)) true) r.poison
  exact ((KeepsOffPlace.dropped s _).trans (hparts _)).trans (hpoison _)

theorem MemOnly.ctx {s u : State} (h : MemOnly s u) (c : BitVec 8) : u.ctx c = s.ctx c := by
  have : u.ctxs = s.ctxs := (congrArg State.ctxs h :)
  unfold State.ctx; rw [this]

/-- The records of a gang are written in their places alone. -/
theorem writeSaves_spec (s : State) (t : Task) : MemOnly s.useAll (s.writeSaves t) ∧
    ∀ a, (∀ r ∈ s.saves, r.task = t.id → (s.ctx t.ctx).saveOff? r.place a = none ∧ ∀ o, (s.ctx t.ctx).saveAt r.place o ≠ a) →
      (s.writeSaves t).rdByte a = s.rdByte a := by
  have hfold : ∀ (l : List SaveRec) (u : State), MemOnly s.useAll u →
      let v := l.foldl (fun (u : State) r => u.writeSave t r (t.sids.getD r.s4 0)) u
      MemOnly s.useAll v ∧ ∀ a, (∀ r ∈ l, (s.ctx t.ctx).saveOff? r.place a = none ∧ ∀ o, (s.ctx t.ctx).saveAt r.place o ≠ a) →
        v.rdByte a = u.rdByte a := by
    intro l
    induction l with
    | nil => exact fun u hu => ⟨hu, fun _ _ => rfl⟩
    | cons r l ih =>
      intro u hu
      obtain ⟨hmem, hkeep⟩ := keepsOffPlace_writeSave u t r (t.sids.getD r.s4 0)
      obtain ⟨ih1, ih2⟩ := ih _ (hu.trans hmem)
      refine ⟨ih1, fun a ha => (ih2 a fun q hq => ha q (List.mem_cons_of_mem _ hq)).trans ?_⟩
      have hr := ha r List.mem_cons_self
      have hctx : u.ctx t.ctx = s.ctx t.ctx := hu.ctx t.ctx
      exact hkeep a (by rw [hctx]; exact hr.1) (by rw [hctx]; exact hr.2)
  obtain ⟨h1, h2⟩ := hfold (s.saves.filter fun r => r.task == t.id) s.useAll rfl
  exact ⟨h1, fun a ha => h2 a fun r hr => ha r (List.mem_filter.mp hr).1 (by simpa using (List.mem_filter.mp hr).2)⟩

/-- A state but for its launches. -/
def SameButLaunches (s u : State) : Prop := ({ u with launches := s.launches } : State) = s

theorem saveDone_saves {task : Nat} {s : State} {t : Task} (ht : s.task? task = some t) (hp : t.pre = .snapped) (hr : t.runs = true) :
    goesOn (exec (.saveDone task) s) fun u =>
      u.task? task = some { t with st := .saved, pre := .none, savedAt := s.cyc } ∧ (∀ k ∈ t.sids, (u.sec k).v = false) ∧ u.placeDue = true ∧
      u.saves = s.saves ∧ ∀ a, (∀ r ∈ s.saves, r.task = task → (s.ctx t.ctx).saveOff? r.place a = none ∧ ∀ o, (s.ctx t.ctx).saveAt r.place o ≠ a) →
        u.rdByte a = s.rdByte a := by
  obtain rfl := id_of_task? ht
  let t' : Task := { t with st := .saved, pre := .none, savedAt := s.cyc }
  let w := ((s.writeSaves t).setTask t').freeSectors t
  obtain ⟨hmem, hkeep⟩ := writeSaves_spec s t
  have hw := freeSectors_eq ((s.writeSaves t).setTask t') t
  have htask : (s.writeSaves t).task? t.id = some t := by
    have : (s.writeSaves t).tasks = s.tasks := (congrArg State.tasks hmem :)
    unfold State.task?; rw [this]; exact ht
  have hspec : ∀ u, SameButLaunches w u → u.task? t.id = some t' ∧ (∀ k ∈ t.sids, (u.sec k).v = false) ∧ u.placeDue = true ∧ u.saves = s.saves ∧
      u.mem = (s.writeSaves t).mem := by
    intro u hu
    have h1 : u.tasks = ((s.writeSaves t).setTask t').tasks := (congrArg State.tasks hu :).trans (congrArg State.tasks hw :)
    have h2 : u.sectors = w.sectors := (congrArg State.sectors hu :)
    refine ⟨?_, fun k hk => ?_, (congrArg State.placeDue hu :), ?_, (congrArg State.mem hu :).trans (congrArg State.mem hw :)⟩
    · exact (congrArg (fun l : List Task => l.find? fun x => x.id == t.id) h1 :).trans (task?_setTask_self (k' := t') htask)
    · have : u.sec k = w.sec k := by unfold State.sec; rw [h2]
      rw [this, sec_freeSectors, if_pos hk]; rfl
    · exact (congrArg State.saves hu :).trans ((congrArg State.saves hw :).trans (congrArg State.saves hmem :))
  have hlaunch : SameButLaunches w (match w.launch? t.launch with
      | some l => w.setLaunch (l.taskSaved s.cyc)
      | none => w) := by split <;> rfl
  obtain ⟨h1, h2, h3, h4, h5⟩ := hspec _ hlaunch
  refine ⟨_, ?_, h1, h2, h3, h4, fun a ha => (rdByte_congr h5 a).trans (hkeep a ha)⟩
  show execSaveDone t.id s = _
  simp only [execSaveDone, ht]
  exact if_neg (by simp [hp, hr])

/-- Settles O43: what each of these steps leaves, with the memory that a scrub clears and the places in which save records are written. -/
theorem tasksEndAndAreSaved : Obligations.TasksEndAndAreSaved := by
  unfold Obligations.TasksEndAndAreSaved
  intro sid launch task r s n
  refine ⟨fun t ht hc hv => scrubDone_clears ht hc hv, fun l hl hr hm hfirst => exec_reservationStart hl hr hm hfirst,
    fun t ht hr hp hk ho he => ⟨exec_taskEnd ht hr hp hk ho he, fun l hl hst hn => ?counted⟩, fun t ht hst => sectorFree_ended ht hst,
    fun t d ht hp hd hr => ?grace, fun k hk hp hr hn hm => takeMarker_marks hk hp hr hn hm,
    fun t ht hp hr hq => saveSnapshot_lists ht hp hr hq, fun t ht hp hr => saveDone_saves ht hp hr⟩
  case counted =>
    obtain rfl := id_of_task? ht
    have hid := id_of_launch? hl
    let l' : Launch := { l with isOver := l.isOver + 1, ok := l.ok + 1 }
    have hcount := countTask_more (s := s.setTask { t with st := .ended, pre := .none }) hl hst hn
    refine ⟨_, (exec_taskEnd ht hr hp hk ho he).trans (congrArg _ hcount), ?_, ?_, fun _ => rfl⟩
    · exact task?_setTask_self (k' := { t with st := .ended, pre := .none }) ht
    · rw [← hid] at hl ⊢
      exact launch?_setLaunch_self (l' := l') hl
  case grace =>
    obtain rfl := id_of_task? ht
    exact ⟨_, graceDeadline_stops ht hp hd hr, startMarkers_stops ht⟩

end Sys2Proof.Machine
end


section
/-! PROOFS. Swaps of configurations, the block scheduler's decision, and the end of timed waits (O44). -/

namespace Sys2Proof.Machine

open Sys2Proof

/-! ### What the activation of sites leaves (R231) -/

/-- Memory and every other sector stand, and of one sector all but its cells, the owners of its scratch cells and its notes of bad sites. -/
def SiteFrame (n : Nat) (s u : State) : Prop :=
  u.mem = s.mem ∧ (∀ j, j ≠ n → u.sec j = s.sec j) ∧
    ({ u.sec n with cells := (s.sec n).cells, ownq := (s.sec n).ownq, badSites := (s.sec n).badSites, badShadow := (s.sec n).badShadow } : Sector) = s.sec n

namespace SiteFrame

variable {n : Nat}

theorem refl (s : State) : SiteFrame n s s := ⟨rfl, fun _ _ => rfl, rfl⟩

theorem trans {s t u : State} (h : SiteFrame n s t) (g : SiteFrame n t u) : SiteFrame n s u := by
  obtain ⟨hmem, hother, hself⟩ := h
  obtain ⟨gmem, gother, gself⟩ := g
  refine ⟨gmem.trans hmem, fun j hj => (gother j hj).trans (hother j hj), ?_⟩
  rw [← hself, ← gself]

/-- A change of the sector's cells, owners and bad sites. -/
theorem modSec (s : State) {f : Sector → Sector}
    (hf : ∀ x, ({ f x with cells := x.cells, ownq := x.ownq, badSites := x.badSites, badShadow := x.badShadow } : Sector) = x) :
    SiteFrame n s (s.modSec n f) :=
  ⟨rfl, fun _ hj => sec_modSec_ne _ _ hj, by rw [sec_modSec_self]; exact hf _⟩

theorem activate (s : State) (h : Share) (site : Nat) (p : Part) : SiteFrame n s (s.activate n h site p) := by
  refine modSec s fun x => ?_
  cases p with
  | tiles => by_cases h : site / 16 % 2 = 0 <;> simp only [if_pos, if_neg, h, not_false_eq_true] <;> rfl
  | phase => by_cases h : site / 16 % 2 = 0 <;> simp only [if_pos, if_neg, h, not_false_eq_true] <;> rfl
  | whole => rfl

theorem reown (s : State) : SiteFrame n s (s.reown n) :=
  (modSec { s with nextId := s.nextId + 1 } (f := fun x => { x with ownq := _ }) fun _ => rfl)

/-- Activations of parts of the sector's sites, where a test says so. -/
theorem activateParts (s : State) (h : Share) (c : Nat → Part → Bool) :
    SiteFrame n s ((List.range 256).foldl (fun (s : State) k => Part.all.foldl (fun (s : State) p => if c k p then s else s.activate n h k p) s) s) := by
  refine foldl_rel refl trans (fun t k => foldl_rel refl trans (fun t p => ?_) _ t) _ s
  cases c k p with
  | true => exact refl t
  | false => exact activate t h k p

theorem takeParts (s : State) (x0 : Sector) (h : Share) : SiteFrame n s (s.takeParts n x0 h) := by
  refine foldl_rel refl trans (fun t k => foldl_rel refl trans (fun t p => ?_) _ t) _ s
  cases (s.sec n).partOn k p && !x0.partOn k p with
  | true => exact activate t h k p
  | false => exact refl t

theorem carryOver (s : State) (x0 : Sector) (ks : List Nat) (h : Share) : SiteFrame n s (s.carryOver n x0 ks h) := refl s

section
variable {s u : State} (h : SiteFrame n s u)
include h

/-- What a site's activation leaves of its sector: a field of a sector that it does not touch. -/
theorem field {α : Type} (g : Sector → α)
    (hg : ∀ (x : Sector) a b c d, g { x with cells := a, ownq := b, badSites := c, badShadow := d } = g x) : g (u.sec n) = g (s.sec n) :=
  (hg (u.sec n) _ _ _ _).symm.trans (congrArg g h.2.2)

end

end SiteFrame

/-! ### Whole sectors -/

/-- The shadow of a sector comes into force. -/
def Sector.promoted (h : Share) (x : Sector) : Sector := { x with act := some h, shadow := none, shSt := .empty, switched := [], stopped := false }

theorem swapSector_spec (s : State) (n : Nat) :
    (s.swapSector n).mem = s.mem ∧ (∀ j, j ≠ n → (s.swapSector n).sec j = s.sec j) ∧
      ∀ h, (s.sec n).shadow = some h →
        ((s.swapSector n).sec n).act = some h ∧ ((s.swapSector n).sec n).shadow = none ∧ ((s.swapSector n).sec n).shSt = .empty ∧
        ((s.swapSector n).sec n).stopped = false := by
  unfold State.swapSector
  cases hs : (s.sec n).shadow with
  | none =>
    simp only [hs]
    exact ⟨rfl, fun j hj => sec_modSec_ne _ _ hj, fun h hh => nomatch hh⟩
  | some h =>
    simp only [hs]
    obtain ⟨amem, aother, -⟩ := SiteFrame.activateParts (n := n) s h fun k p => (s.sec n).partOn k p
    generalize (List.range 256).foldl _ s = t at amem aother
    have hr := SiteFrame.reown (n := n) (t.modSec n (Sector.promoted h))
    have hself := sec_modSec_self (s := t) n (Sector.promoted h)
    refine ⟨hr.1.trans amem, fun j hj => (hr.2.1 j hj).trans ((sec_modSec_ne _ _ hj).trans (aother j hj)), fun k hk => ?_⟩
    obtain rfl := Option.some.inj hk
    refine ⟨?_, ?_, ?_, ?_⟩
    · exact (hr.field Sector.act fun _ _ _ _ _ => rfl).trans (by rw [hself]; rfl)
    · exact (hr.field Sector.shadow fun _ _ _ _ _ => rfl).trans (by rw [hself]; rfl)
    · exact (hr.field Sector.shSt fun _ _ _ _ _ => rfl).trans (by rw [hself]; rfl)
    · exact (hr.field Sector.stopped fun _ _ _ _ _ => rfl).trans (by rw [hself]; rfl)

theorem swapSectors_spec (l : List Nat) (s : State) :
    let u := l.foldl (fun (s : State) n => s.swapSector n) s
    u.mem = s.mem ∧ (∀ j, j ∉ l → u.sec j = s.sec j) ∧ (l.Nodup → ∀ j ∈ l, ∀ h, (s.sec j).shadow = some h →
      (u.sec j).act = some h ∧ (u.sec j).shadow = none ∧ (u.sec j).shSt = .empty ∧ (u.sec j).stopped = false) := by
  induction l generalizing s with
  | nil => exact ⟨rfl, fun _ _ => rfl, fun _ j hj => absurd hj List.not_mem_nil⟩
  | cons n l ih =>
    obtain ⟨hmem, hother, hself⟩ := swapSector_spec s n
    obtain ⟨imem, iother, iself⟩ := ih (s.swapSector n)
    refine ⟨imem.trans hmem, fun j hj => ?_, fun hnd j hj h hh => ?_⟩
    · obtain ⟨hjn, hjl⟩ := not_or.mp (mt List.mem_cons.mpr hj)
      exact (iother j hjl).trans (hother j hjn)
    · obtain ⟨hn, hl⟩ := List.nodup_cons.mp hnd
      by_cases hjn : j = n
      · subst hjn
        simp only [List.foldl_cons]
        rw [iother j hn]
        exact hself h hh
      · exact iself hl j ((List.mem_cons.mp hj).resolve_left hjn) h (by rw [hother j hjn]; exact hh)

/-- The threads of some sectors have an answer; nothing else of a sector differs. -/
theorem sec_answerAll (s : State) (l : List Nat) (k : Meet) (v : Word) (j : Nat) :
    (s.answerAll l k v).sec j = if j ∈ l then { s.sec j with th := { (s.sec j).th with answer := some (k.code, v) } } else s.sec j :=
  sec_modSecs (f := fun x => { x with th := { x.th with answer := some (k.code, v) } }) (fun _ => rfl) s l j

theorem answerAll_mem (s : State) (l : List Nat) (k : Meet) (v : Word) : (s.answerAll l k v).mem = s.mem :=
  (congrArg State.mem (modSecs_eq s l fun x => { x with th := { x.th with answer := some (k.code, v) } }) :)

theorem drainSwap_swaps {task k : Nat} {s : State} {t : Task} {i : Inst} (hq : s.quietInst task k 1 = some (t, i)) :
    goesOn (exec (.drainSwap task k) s) fun u =>
      (∀ j ∈ i.sids, (u.sec j).th.answer = some (Meet.cfgsw.code, 0)) ∧ KeepsMemory s u ∧ (∀ j, j ∉ i.sids → (u.sec j).act = (s.sec j).act) ∧
      (i.sids.Nodup → ∀ j ∈ i.sids, ∀ h, (s.sec j).shadow = some h →
        (u.sec j).act = some h ∧ (u.sec j).shadow = none ∧ (u.sec j).shSt = .empty ∧ (u.sec j).stopped = false) := by
  obtain ⟨hmem, hother, hself⟩ := swapSectors_spec i.sids s
  let w := (i.sids.foldl (fun (s : State) n => s.swapSector n) s).modTask task fun t =>
    { t with insts := t.insts.modify k fun i => { i with drain := 0 } }
  have hsec := sec_answerAll w i.sids .cfgsw 0
  refine ⟨w.answerAll i.sids .cfgsw 0, ?_, fun j hj => ?_, rdByte_congr ((answerAll_mem ..).trans hmem), fun j hj => ?_, fun hnd j hj h hh => ?_⟩
  · show execDrainSwap task k s = _
    simp only [execDrainSwap, hq]
    rfl
  · rw [hsec, if_pos hj]
  · rw [hsec, if_neg hj]; exact congrArg Sector.act (hother j hj)
  · rw [hsec, if_pos hj]; exact hself hnd j hj h hh

theorem sdrainQuiescent_answers {task k : Nat} {s : State} {t : Task} {i : Inst} (hq : s.quietInst task k 2 = some (t, i)) :
    goesOn (exec (.sdrainQuiescent task k) s) fun u =>
      (∀ j ∈ i.sids, (u.sec j).th.answer = some (Meet.sdrain.code, s.cycW)) ∧ (∀ j, j ∉ i.sids → u.sec j = s.sec j) ∧ KeepsMemory s u := by
  let w := s.modTask task fun t => { t with insts := t.insts.modify k fun i => { i with drain := 0 } }
  have hsec := sec_answerAll w i.sids .sdrain s.cycW
  refine ⟨w.answerAll i.sids .sdrain s.cycW, ?_, fun j hj => ?_, fun j hj => ?_, rdByte_congr (answerAll_mem ..)⟩
  · show execSdrainQuiescent task k s = _
    simp only [execSdrainQuiescent, hq]
    rfl
  · rw [hsec, if_pos hj]
  · exact (hsec j).trans (if_neg hj)

/-! ### The block scheduler (R190, R191) -/

theorem blockSchedulerDecision_decides {task k : Nat} {s : State} {t : Task} {i : Inst} {h : HostSt} {c : Nat} (ht : s.task? task = some t)
    (hk : t.insts.findIdx? (fun i => i.host.isSome) = some k) (hi : t.insts[k]? = some i) (hh : i.host = some h) (hf : t.fires = true)
    (hd : i.drain = 0) (hdue : i.decisionDue h = true) (hc : i.choose h = some c) :
    goesOn (exec (.blockSchedulerDecision task) s) fun u => KeepsMemory s u ∧
      (h.resident = some c → ∀ j ∈ i.sids, (u.sec j).stopped = false) ∧ (∀ j, j ∉ i.sids → u.sec j = s.sec j) ∧
      (h.resident ≠ some c → ∀ j ∈ i.sids, (u.sec j).stopped = true) ∧
      ∃ t' i', u.task? task = some t' ∧ t'.insts[k]? = some i' ∧ i'.drain = (if h.resident = some c then 0 else 3) ∧
        i'.host = some { h with
          ages := i.aged h c, fired := if h.resident = some c then 0 else h.fired, chosen := if h.resident = some c then none else some c } := by
  have hget : t.insts.getD k {} = i := by rw [List.getD_eq_getElem?_getD, hi]; rfl
  let stay : Bool := h.resident == some c
  let h1 : HostSt := { h with ages := i.aged h c, fired := if stay then 0 else h.fired, chosen := if stay then none else some c }
  let g : Inst → Inst := fun i => { i with host := some h1, drain := if stay then 0 else 3 }
  let w := s.modTask task fun t => { t with insts := t.insts.modify k g }
  have hsec := sec_modSecs (f := fun x => { x with stopped := !stay }) (fun _ => rfl) w i.sids
  have heq := modSecs_eq w i.sids fun x => { x with stopped := !stay }
  have hstay : stay = decide (h.resident = some c) := by simp [stay, beq_eq_decide]
  have hstopped : ∀ j ∈ i.sids, ((w.stopSources i.sids (!stay)).sec j).stopped = !stay := fun j hj =>
    (congrArg Sector.stopped ((hsec j).trans (if_pos hj)) :)
  refine ⟨w.stopSources i.sids (!stay), ?_, rdByte_congr (congrArg State.mem heq :), fun hr j hj => ?_,
    fun j hj => (hsec j).trans (if_neg hj), fun hr j hj => ?_, { t with insts := t.insts.modify k g }, g i, ?_, ?_, ?_, ?_⟩
  · show execBlockSchedulerDecision task s = _
    simp only [execBlockSchedulerDecision, ht, hk, hget, hh, hf, hd, hdue, hc, bne_self_eq_false, Bool.not_true, Bool.or_self, Bool.false_eq_true,
      if_false]
    rfl
  · rw [hstopped j hj, hstay]; simp [hr]
  · rw [hstopped j hj, hstay]; simp [hr]
  · have htask : (w.stopSources i.sids (!stay)).task? task = w.task? task :=
      congrArg (fun l : List Task => l.find? fun x : Task => x.id == task) (congrArg State.tasks heq :)
    rw [htask, task_modTask s task task (fun t => { t with insts := t.insts.modify k g }) fun _ => rfl, if_pos rfl, ht]
    rfl
  · simp [hi]
  · show (if stay then 0 else 3) = _
    rw [hstay]; simp
  · show some h1 = _
    simp only [h1, hstay, decide_eq_true_eq]

/-- The drain swap of a host, once the gang is quiescent. -/
theorem exec_hostDrainSwap {task k c : Nat} {s : State} {t : Task} {i : Inst} {h : HostSt} {l : Launch}
    (hs : s.task? task = some t) (hk : t.insts.findIdx? (fun i => i.host.isSome) = some k) (hq : s.quietInst task k 3 = some (t, i))
    (hh : (t.insts.getD k {}).host = some h) (hl : s.launch? t.launch = some l) (hc : h.chosen = some c) :
    exec (.hostDrainSwap task) s =
      if !s.steadyAt i.sids then .next s
      else if !s.tilesEmpty i.sids then .next (s.endDecision task k i.sids h)
      else match ({ s with nextId := s.nextId + 1 } : State).loadHost t (Tab.get {} (s.ctx t.ctx).handles l.hslot).obj c s.nextId i.sids with
        | some u => .next ((i.sids.foldl (fun (u : State) j => u.swapSector j) u).endDecision task k i.sids { h with resident := some c })
        | none => .next ((s.unload i.sids).endDecision task k i.sids h) := by
  show execHostDrainSwap task s = _
  simp only [execHostDrainSwap, hs, hk, hq, hh, hl, hc] <;> rfl

/-! ### Switch groups (R234) -/

/-- After a switch, sites of the sector are activated and its owners named again, between which its sources may restart. -/
theorem afterSwitch_reowned (s : State) (n : Nat) (x0 : Sector) (ks : List Nat) (h : Share) :
    ∃ s1, SiteFrame n s s1 ∧ ∃ v, s.afterSwitch n x0 ks h = v.promote n ∧
      (SiteFrame n s1 v ∨ SiteFrame n (s1.modSec n fun x => { x with stopped := false }) v) := by
  have hcases : ∃ b : Bool, s.afterSwitch n x0 ks h =
      ((if b then (s.carryOver n x0 ks h).takeParts n x0 h
        else ((s.carryOver n x0 ks h).takeParts n x0 h).modSec n fun x => { x with stopped := false }).reown n).promote n := ⟨_, rfl⟩
  obtain ⟨b, hb⟩ := hcases
  refine ⟨_, (SiteFrame.carryOver s x0 ks h).trans (SiteFrame.takeParts _ x0 h), _, hb, ?_⟩
  cases b with
  | true => exact .inl (SiteFrame.reown _)
  | false => exact .inr (SiteFrame.reown _)

/-- A sector in which some slots more have switched; whether its sources run is left open. -/
theorem afterSwitch_spec {s : State} {n : Nat} {x0 : Sector} {ks : List Nat} {h a : Share} (hact : (s.sec n).act = some a)
    (harm : (s.sec n).shSt = .armed) :
    let u := s.afterSwitch n x0 ks h
    let all := ∀ m ∈ (s.sec n).ownSlots a, m ∈ (s.sec n).switched
    u.mem = s.mem ∧ (∀ j, j ≠ n → u.sec j = s.sec j) ∧ (u.sec n).th = (s.sec n).th ∧ (u.sec n).ports = (s.sec n).ports ∧
      (all → (u.sec n).act = (s.sec n).shadow ∧ (u.sec n).shadow = none ∧ (u.sec n).shSt = .empty ∧ (u.sec n).switched = []) ∧
      (¬all → (u.sec n).act = some a ∧ (u.sec n).shadow = (s.sec n).shadow ∧ (u.sec n).shSt = .armed ∧ (u.sec n).switched = (s.sec n).switched) := by
  intro u all
  obtain ⟨s1, h1, v, hv, hvb⟩ := afterSwitch_reowned s n x0 ks h
  have hfield : ∀ {α : Type} (g : Sector → α), (∀ (x : Sector) a b c d, g { x with cells := a, ownq := b, badSites := c, badShadow := d } = g x) →
      (∀ (x : Sector) b, g { x with stopped := b } = g x) → g (v.sec n) = g (s.sec n) := fun g hg hs => by
    obtain h2 | h2 := hvb
    · exact (h2.field g hg).trans (h1.field g hg)
    · exact (h2.field g hg).trans (by rw [sec_modSec_self, hs]; exact h1.field g hg)
  have hth := hfield Sector.th (fun _ _ _ _ _ => rfl) fun _ _ => rfl
  have hports := hfield Sector.ports (fun _ _ _ _ _ => rfl) fun _ _ => rfl
  have hvact := (hfield Sector.act (fun _ _ _ _ _ => rfl) fun _ _ => rfl).trans hact
  have hvsh := hfield Sector.shadow (fun _ _ _ _ _ => rfl) fun _ _ => rfl
  have hvst := (hfield Sector.shSt (fun _ _ _ _ _ => rfl) fun _ _ => rfl).trans harm
  have hvsw := hfield Sector.switched (fun _ _ _ _ _ => rfl) fun _ _ => rfl
  have hvown := hfield (fun x => x.ownSlots a) (fun _ _ _ _ _ => rfl) fun _ _ => rfl
  have hvmem : v.mem = s.mem := hvb.elim (fun h2 => h2.1.trans h1.1) fun h2 => h2.1.trans h1.1
  have hvother : ∀ j, j ≠ n → v.sec j = s.sec j := fun j hj =>
    hvb.elim (fun h2 => (h2.2.1 j hj).trans (h1.2.1 j hj)) fun h2 => (h2.2.1 j hj).trans ((sec_modSec_ne _ _ hj).trans (h1.2.1 j hj))
  have hall : ((v.sec n).shSt = .armed ∧ ((v.sec n).act.toList.flatMap fun a => (v.sec n).ownSlots a).all
      (fun k => (v.sec n).switched.contains k) = true) ↔ all := by
    simp [hvst, hvact, hvsw, hvown, List.all_eq_true, all]
  change s.afterSwitch n x0 ks h = v.promote n at hv
  simp only [u, hv]
  unfold State.promote
  by_cases ha : all
  · simp only [if_pos (hall.mpr ha)]
    refine ⟨hvmem, fun j hj => (sec_modSec_ne _ _ hj).trans (hvother j hj), ?_⟩
    rw [sec_modSec_self]
    exact ⟨hth, hports, fun _ => ⟨hvsh, rfl, rfl, rfl⟩, fun h => absurd ha h⟩
  · simp only [if_neg (mt hall.mp ha)]
    exact ⟨hvmem, hvother, hth, hports, fun h => absurd h ha, fun _ => ⟨hvact, hvsh, hvst, hvsw⟩⟩

/-- Slots of a switch group switch. -/
theorem switchSlots_spec {s : State} {n : Nat} {ks : List Nat} {h a : Share} (hact : (s.sec n).act = some a) (hsh : (s.sec n).shadow = some h)
    (harm : (s.sec n).shSt = .armed) :
    let u := s.switchSlots n h ks
    let all := ∀ m ∈ (s.sec n).ownSlots a, m ∈ (s.sec n).switched ++ ks
    KeepsMemory s u ∧ (∀ j, j ≠ n → u.sec j = s.sec j) ∧ (u.sec n).th = (s.sec n).th ∧ (u.sec n).ports = (s.sec n).ports ∧
      (all → (u.sec n).act = some h ∧ (u.sec n).shadow = none ∧ (u.sec n).shSt = .empty ∧ (u.sec n).switched = []) ∧
      (¬all → (u.sec n).act = some a ∧ (u.sec n).shadow = some h ∧ (u.sec n).shSt = .armed ∧ (u.sec n).switched = (s.sec n).switched ++ ks) := by
  let t := s.setSec n { s.sec n with switched := (s.sec n).switched ++ ks }
  have ht : t.sec n = { s.sec n with switched := (s.sec n).switched ++ ks } := sec_setSec_self _ _ _
  have hspec := afterSwitch_spec (s := t) (n := n) (x0 := s.sec n) (ks := ks) (h := h) (a := a) (by rw [ht]; exact hact) (by rw [ht]; exact harm)
  rw [ht] at hspec
  obtain ⟨hmem, hother, hth, hports, hall, hnot⟩ := hspec
  exact ⟨rdByte_congr hmem, fun j hj => (hother j hj).trans (sec_setSec_ne _ _ hj), hth, hports,
    fun ha => by rw [← hsh]; exact hall ha, fun ha => by rw [← hsh]; exact hnot ha⟩

theorem exec_groupSwitch {sid : BitVec 8} {grp : Nat} {s : State} {a h : Share} (ha : (s.sec sid.toNat).act = some a)
    (hs : (s.sec sid.toNat).shadow = some h) (harm : (s.sec sid.toNat).shSt = .armed)
    (hr : s.groupReady sid.toNat a (a.group (grp / 128) (grp % 128)) = true) :
    exec (.groupSwitch sid grp) s = .next (s.switchSlots sid.toNat h (a.group (grp / 128) (grp % 128))) := by
  show execGroupSwitch sid grp s = _
  simp only [execGroupSwitch, ha, hs]
  exact if_pos ⟨harm, hr⟩

/-! ### The end of waits -/

theorem exec_sbarComplete {sid : BitVec 8} {s u : State} {sel : BarSel} {id : Nat} {ports : List Nat}
    (ht : (s.passAll (s.sec sid.toNat).task).ctlTurn sid.toNat = .exec (.sbar sel) u) (hw : u.th.wait = .bar id ports)
    (hd : u.drained u.cur id ports = true) : exec (.sbarComplete sid) s = .next u.advance := by
  show execSbarComplete sid s = _
  simp only [execSbarComplete, ht, hw, execSbar, hd, if_true]

theorem timeCome_until {t : Thread} {d cyc : Nat} (hw : t.wait = .until d) (hd : d ≤ cyc) : t.timeCome cyc = true := by
  simp [Thread.timeCome, hw, hd]

theorem exec_twaitDeadline {sid : BitVec 8} {s u : State} {ra : Reg} {d : Nat}
    (ht : s.ctlTurn sid.toNat = .exec (.twait ra) u ∨ s.ctlTurn sid.toNat = .exec (.twaitRel ra) u) (hw : u.th.wait = .until d) (hd : d ≤ u.cyc) :
    exec (.twaitDeadline sid) s = .next u.advance := by
  show execTwaitDeadline sid s = _
  obtain ht | ht := ht <;> simp only [execTwaitDeadline, ht, timeCome_until hw hd, if_true]

theorem exec_bmwaitDeadline {sid : BitVec 8} {s u : State} {ra rb rc : Reg} {d : Nat} (ht : s.ctlTurn sid.toNat = .exec (.bmwait ra rb rc) u)
    (hw : u.th.wait = .until d) (hd : d ≤ u.cyc) : exec (.bmwaitDeadline sid) s = exec (.bmwait ra rb rc) u := by
  show execBmwaitDeadline sid s = _
  simp only [execBmwaitDeadline, ht, timeCome_until hw hd, if_true, exec_bmwait]

/-- Settles O44: swaps change what the activation of sites may change, and the timed waits end as their words do. -/
theorem swapsAndWaitsEnd : Obligations.SwapsAndWaitsEnd := by
  unfold Obligations.SwapsAndWaitsEnd
  intro task k grp sid s n
  refine ⟨fun t i h c ht hk hi hh hf hd hdue hc => blockSchedulerDecision_decides ht hk hi hh hf hd hdue hc, ?host,
    fun t i hq => drainSwap_swaps hq, fun t i hq => sdrainQuiescent_answers hq, fun a h ha hs harm hr => ?group,
    fun sel id ports u ht hw hd => exec_sbarComplete ht hw hd, fun ra u d ht hw hd => exec_twaitDeadline ht hw hd, ?mask⟩
  case host =>
    intro t i h c l ht hk hq _ hh hl hc o loaded
    have hexec := exec_hostDrainSwap ht hk hq hh hl hc
    refine ⟨fun hst => hexec.trans (if_pos (by simp [hst])), fun hst he => ?_, fun hst he => ⟨fun u hu => ?_, fun hn => ?_⟩⟩
    · exact hexec.trans ((if_neg (by simp [hst])).trans (if_pos (by simp [he])))
    · refine hexec.trans ((if_neg (by simp [hst])).trans ((if_neg (by simp [he])).trans ?_))
      simp only [loaded] at hu
      rw [hu]
    · refine hexec.trans ((if_neg (by simp [hst])).trans ((if_neg (by simp [he])).trans ?_))
      simp only [loaded] at hn
      rw [hn]
  case group =>
    have hexec := exec_groupSwitch ha hs harm hr
    exact ⟨hexec, _, hexec, switchSlots_spec ha hs harm⟩
  case mask =>
    intro ra rb rc u d ht hw hd
    have hexec := exec_bmwaitDeadline ht hw hd
    refine ⟨hexec, fun t hrc hdl hle => ⟨fun hm => ?_, fun hm => ⟨_, ?_, fun i hi => missing_getLsbD u (u.rdS ra) (u.rdS rb) hi⟩⟩⟩
    · rw [hexec, exec_bmwait_due ra rb hrc hdl hle, if_pos ((missing_eq_zero_iff u _ _).mpr hm), finish_ok]
    · rw [hexec, exec_bmwait_due ra rb hrc hdl hle, if_neg (mt (missing_eq_zero_iff u _ _).mp hm), finish_trap]

end Sys2Proof.Machine
end


section
/-! PROOFS. Power: moves of rail groups, stretches, throttles, ballast, the cap and self-refresh (O45). -/

namespace Sys2Proof.Machine

open Sys2Proof

/-! ### One group changed -/

/-- One rail group has a new value, every other keeps its own, and so does memory. -/
def RailAlone (k : Nat) (s u : State) (r : Rail) : Prop := u.rail k = r ∧ (∀ j, j ≠ k → u.rail j = s.rail j) ∧ KeepsMemory s u

theorem railAlone_modRail (k : Nat) (s : State) (f : Rail → Rail) : RailAlone k s (s.modRail k f) (f (s.rail k)) :=
  ⟨rail_modRail_self s k f, fun _ hj => rail_modRail_ne s f hj, fun _ => rfl⟩

theorem RailAlone.trans {k : Nat} {s t u : State} {r q : Rail} (h : RailAlone k s t r) (g : RailAlone k t u q) : RailAlone k s u q :=
  ⟨g.1, fun j hj => (g.2.1 j hj).trans (h.2.1 j hj), fun b => (g.2.2 b).trans (h.2.2 b)⟩

/-- A group without a pending request that has reached its target is STEADY. -/
theorem endMove_unpended {k : Nat} {s : State} (hp : (s.rail k).pend = none) :
    RailAlone k s (s.endMove k) { s.rail k with mv := .steady, res := 1 } ∧ (s.endMove k).placeDue = true := by
  let t := ({ s with placeDue := true } : State).modRail k fun r => { r with mv := .steady, res := 1 }
  have ht := railAlone_modRail k { s with placeDue := true } fun r => { r with mv := .steady, res := 1 }
  have hstart : t.startMove k = t := by
    have hpend : (t.rail k).pend = none := (congrArg Rail.pend ht.1).trans hp
    simp only [State.startMove]
    split
    · rename_i hq; exact nomatch hpend.symm.trans hq
    · rfl
  have he : s.endMove k = t := hstart
  rw [he]
  exact ⟨ht, rfl⟩

section
variable {g : BitVec 6} {s : State} {t : Nat}

theorem railReached_raised (ht : t ≤ s.cyc) (hm : (s.rail g.toNat).mv = .raiseV t) :
    exec (.railReached g) s = .next (s.modRail g.toNat fun r => { r with mv := .swap }) := by
  show execRailReached g s = _
  simp only [execRailReached, hm]
  exact if_neg (Nat.not_lt.mpr ht)

theorem railReached_lowered (ht : t ≤ s.cyc) (hm : (s.rail g.toNat).mv = .lowerV t) : exec (.railReached g) s = .next (s.endMove g.toNat) := by
  show execRailReached g s = _
  simp only [execRailReached, hm]
  exact if_neg (Nat.not_lt.mpr ht)

/-- The new sections and clock of a group whose hold is over. -/
def State.clocked (s : State) (k : Nat) : State :=
  let r := s.rail k
  (s.swapSections k r.tgt).setRail k { r with cur := r.tgt, mv := .lowerV (s.cyc + slewCyc r.cur r.tgt) }

theorem swapSections_rail (s : State) (k o j : Nat) : (s.swapSections k o).rail j = s.rail j :=
  (congrArg (fun u : State => u.rail j) (modSecs_eq s (groupSids k) fun x =>
    { x with act := x.act.map fun h => (s.sectionFor h o).getD h, shadow := x.shadow.map fun h => (s.sectionFor h o).getD h }) :)

theorem swapSections_mem (s : State) (k o : Nat) : (s.swapSections k o).mem = s.mem :=
  (congrArg State.mem (modSecs_eq s (groupSids k) fun x =>
    { x with act := x.act.map fun h => (s.sectionFor h o).getD h, shadow := x.shadow.map fun h => (s.sectionFor h o).getD h }) :)

theorem railAlone_clocked (s : State) (k : Nat) : RailAlone k s (s.clocked k)
    { s.rail k with cur := (s.rail k).tgt, mv := .lowerV (s.cyc + slewCyc (s.rail k).cur (s.rail k).tgt) } :=
  let t := s.swapSections k (s.rail k).tgt
  ⟨rail_setRail_self t k _, fun j hj => (rail_setRail_ne t _ hj).trans (swapSections_rail s k _ j),
    fun b => rdByte_congr (swapSections_mem s k (s.rail k).tgt) b⟩

theorem exec_clockHoldEnd (ht : t ≤ s.cyc) (hm : (s.rail g.toNat).mv = .hold t) :
    exec (.clockHoldEnd g) s = .next (if (s.rail g.toNat).tgt < (s.rail g.toNat).cur then (s.clocked g.toNat).endMove g.toNat
      else { s.clocked g.toNat with placeDue := true }) := by
  show execClockHoldEnd g s = _
  simp only [execClockHoldEnd, hm]
  rw [if_neg (Nat.not_lt.mpr ht)]
  rfl

theorem exec_opSwap (hm : (s.rail g.toNat).mv = .swap) (hi : s.regionsIdle (groupSids g.toNat) = true) :
    exec (.opSwap g) s = .next (s.modRail g.toNat fun r => { r with mv := .hold (s.cyc + 64) }) := by
  show execOpSwap g s = _
  exact if_pos ⟨hm, hi⟩

theorem exec_throttleExpire (hm : (s.rail g.toNat).thrEnd = some t) (ht : t ≤ s.cyc) :
    exec (.throttleExpire g) s = .next (s.setRail g.toNat ({ s.rail g.toNat with thrEnd := none } : Rail).lapsed) := by
  show execThrottleExpire g s = _
  simp only [execThrottleExpire, hm]
  exact if_neg (Nat.not_lt.mpr ht)

end

/-! ### What a group shows (R260) -/

theorem shows_emergency {q : Rail} (h : q.why = 3) (w : BitVec 2) : q.shows w = q := if_pos h
theorem shows_other {q : Rail} (h : q.why ≠ 3) (w : BitVec 2) : q.shows w = { q with delay := q.most, why := w } := if_neg h
theorem shows_gwin (q : Rail) (w : BitVec 2) : (q.shows w).gwin = q.gwin := by unfold Rail.shows; split <;> rfl

theorem most_toNat (q : Rail) :
    q.most.toNat = max (max (q.heat.getD 0).toNat (q.excess.getD 0).toNat) (if q.thrEnd = none then 0 else 16) := by
  have h1 := (q.heat.getD 0).isLt
  have h2 := (q.excess.getD 0).isLt
  unfold Rail.most
  rw [BitVec.toNat_ofNat]
  cases q.thrEnd with
  | none => simp only [Option.isSome_none, Bool.false_eq_true, if_false, if_true]; omega
  | some t => simp only [Option.isSome_some, if_true, reduceCtorEq, if_false]; omega

/-- Without a cause, a group shows none. -/
theorem lapsed_uncaused {q : Rail} (hw : q.why ≠ 3) (hh : q.heat = none) (he : q.excess = none) (ht : q.thrEnd = none) :
    q.lapsed = { q with delay := 0, why := 0 } := by
  have hmost : q.most = 0 := by simp [Rail.most, hh, he, ht]
  have hleft : q.whyLeft = 0 := by simp [Rail.whyLeft, hh, he, ht]
  rw [Rail.lapsed, shows_other hw, hmost, hleft]

theorem stretched_gwin (q : Rail) (c : Nat) : (q.stretched c).gwin = min (q.gwin + 1) 255 := by
  simp only [Rail.stretched]
  split
  · rfl
  · exact shows_gwin _ _

theorem toNat_countUp (c : BitVec 32) : (if c = 0xFFFFFFFF then c else c + 1).toNat = min (c.toNat + 1) (2 ^ 32 - 1) := by
  by_cases h : c = 0xFFFFFFFF
  · subst h; decide
  · have hlt : c.toNat ≠ 2 ^ 32 - 1 := fun e => h (BitVec.eq_of_toNat_eq e)
    have := c.isLt
    rw [if_neg h, BitVec.toNat_add]
    show (c.toNat + 1) % 2 ^ 32 = _
    omega

/-- A stretch counts in its sector and in its group's window. -/
theorem regionStretch_counts {sid : BitVec 8} {s : State} (h : (s.sec sid.toNat).act ≠ none ∨ (s.sec sid.toNat).shSt = .armed) :
    goesOn (exec (.regionStretch sid) s) fun u =>
      (u.sec sid.toNat).count.toNat = min ((s.sec sid.toNat).count.toNat + 1) (2 ^ 32 - 1) ∧
      ({ u.sec sid.toNat with count := (s.sec sid.toNat).count } : Sector) = s.sec sid.toNat ∧
      (∀ j, j ≠ sid.toNat → u.sec j = s.sec j) ∧
      (u.rail (railOf sid.toNat)).gwin = min ((s.rail (railOf sid.toNat)).gwin + 1) 255 ∧ KeepsMemory s u := by
  let x := s.sec sid.toNat
  let t := s.setSec sid.toNat { x with count := if x.count = 0xFFFFFFFF then x.count else x.count + 1 }
  have hsec : (t.modRail (railOf sid.toNat) fun r => r.stretched s.cyc).sec sid.toNat =
      { x with count := if x.count = 0xFFFFFFFF then x.count else x.count + 1 } := sec_setSec_self s sid.toNat _
  refine ⟨t.modRail (railOf sid.toNat) fun r => r.stretched s.cyc, ?_, ?_, ?_, fun j hj => sec_setSec_ne s _ hj, ?_, fun _ => rfl⟩
  · show execRegionStretch sid s = _
    refine if_neg ?_
    rw [Option.isNone_iff_eq_none]
    exact fun ⟨ha, hs⟩ => h.elim (absurd ha) (absurd · hs)
  · rw [hsec]; exact toNat_countUp _
  · rw [hsec]
  · rw [rail_modRail_self, stretched_gwin]; rfl

/-! ### Windows -/

theorem exec_sentinelWindow {s : State} (hc : s.cyc % 4096 = 0) (hn : s.now.any Mark.isStretch = false) :
    exec .sentinelWindow s = .next { s with rails := s.rails.map fun p => (p.1, { p.2 with gwin := 0, winEvent := false }) } :=
  if_neg (by simp [hc, hn])

theorem sentinelWindow_waits {s : State} (hn : s.now.any Mark.isStretch = true) : Waits s .sentinelWindow := if_pos (.inr hn)

/-! ### Groups changed together -/

/-- Changing the groups of a list changes nothing but rails. -/
theorem modRails_eq (s : State) (l : List Nat) (f : Nat → Rail → Rail) : s.modRails l f = { s with rails := (s.modRails l f).rails } := by
  unfold State.modRails
  induction l generalizing s with
  | nil => rfl
  | cons g l ih => exact ih (s.modRail g (f g))

theorem rail_modRails (s : State) {l : List Nat} (hl : l.Nodup) (f : Nat → Rail → Rail) (j : Nat) :
    (s.modRails l f).rail j = if j ∈ l then f j (s.rail j) else s.rail j := by
  unfold State.modRails
  induction l generalizing s with
  | nil => rfl
  | cons g l ih =>
    obtain ⟨hg, hl⟩ := List.nodup_cons.mp hl
    rw [List.foldl_cons, ih _ hl]
    by_cases hj : j = g
    · subst hj; rw [if_neg hg, if_pos List.mem_cons_self, rail_modRail_self]
    · simp only [rail_modRail_ne _ _ hj, List.mem_cons, hj, false_or]

/-- Every rail group has a new value, and memory stands. -/
def RailsAll (s u : State) (f : Rail → Rail) : Prop :=
  (∀ j, j < 64 → u.rail j = f (s.rail j)) ∧ (∀ j, 64 ≤ j → u.rail j = s.rail j) ∧ KeepsMemory s u

/-- All groups changed, beside the registers. -/
theorem railsAll_allGroups (s : State) (r : Regs) (f : Rail → Rail) :
    RailsAll s (({ s with regs := r } : State).modRails allGroups fun _ q => f q) f := by
  have h := rail_modRails { s with regs := r } (l := allGroups) List.nodup_range fun _ q => f q
  refine ⟨fun j hj => (h j).trans (if_pos (List.mem_range.mpr hj)), fun j hj => (h j).trans (if_neg fun hm => ?_),
    rdByte_congr (congrArg State.mem (modRails_eq { s with regs := r } allGroups fun _ q => f q) :)⟩
  exact absurd (List.mem_range.mp hm) (Nat.not_lt.mpr hj)

theorem modRails_regs (s : State) (l : List Nat) (f : Nat → Rail → Rail) : (s.modRails l f).regs = s.regs :=
  (congrArg State.regs (modRails_eq s l f) :)

theorem RailsAll.congr {s u : State} {f g : Rail → Rail} (h : RailsAll s u f) (he : ∀ r, f r = g r) : RailsAll s u g :=
  ⟨fun j hj => (h.1 j hj).trans (he _), h.2⟩

/-! ### Heat (R261) -/

theorem mem_dieGroups {d j : Nat} : j ∈ dieGroups d ↔ j / 16 = d := by
  simp only [dieGroups, List.mem_map, List.mem_range]
  constructor
  · rintro ⟨k, hk, rfl⟩; omega
  · intro h; exact ⟨j % 16, Nat.mod_lt _ (by decide), by omega⟩

theorem nodup_dieGroups (d : Nat) : (dieGroups d).Nodup :=
  List.nodup_range.map fun a b h => by simpa using h

theorem thermalThrottle_reads (die : BitVec 2) (reading : BitVec 16) (delay : BitVec 8) (s : State) :
    goesOn (exec (.thermalThrottle die reading delay) s) fun u => Tab.get 0 u.regs.temp die.toNat = reading ∧ KeepsMemory s u ∧
      (∀ j, j / 16 ≠ die.toNat → u.rail j = s.rail j) ∧
      ∀ j, j / 16 = die.toNat → u.rail j =
        if 1520 < reading.toInt then ({ s.rail j with heat := some delay } : Rail).shows 1
        else if (s.rail j).heat = none then s.rail j else ({ s.rail j with heat := none } : Rail).lapsed := by
  let t : State := { s with regs := { s.regs with temp := Tab.set 0 s.regs.temp die.toNat reading } }
  let f : Nat → Rail → Rail := fun _ r =>
    if t.hot die.toNat then ({ r with heat := some delay } : Rail).shows 1 else if r.heat.isSome then ({ r with heat := none } : Rail).lapsed else r
  have hread : Tab.get 0 t.regs.temp die.toNat = reading := tab_get_set_self _ _ _ _
  have hhot : t.hot die.toNat = decide (1520 < reading.toInt) := by unfold State.hot; rw [hread]
  have hrail := rail_modRails t (nodup_dieGroups die.toNat) f
  refine ⟨t.modRails (dieGroups die.toNat) f, rfl, by rw [modRails_regs]; exact hread,
    rdByte_congr (congrArg State.mem (modRails_eq t (dieGroups die.toNat) f) :),
    fun j hj => (hrail j).trans (if_neg (mt mem_dieGroups.mp hj)), fun j hj => ((hrail j).trans (if_pos (mem_dieGroups.mpr hj))).trans ?_⟩
  show f j (s.rail j) = _
  simp only [f, hhot, decide_eq_true_eq]
  cases (s.rail j).heat <;> simp

/-! ### Ballast and the emergency (R263, R264) -/

/-- The emergency throttle stands, and the interval that ended with it is counted. -/
def InEmergency (s u : State) : Prop :=
  u.regs.emerg = true ∧ u.regs.isOver = true ∧ u.regs.ballast = none ∧
    (∀ t, s.regs.ballast = some t → u.regs.ballastUs.toNat = min (s.regs.ballastUs.toNat + (s.cyc - t) / 940) (2 ^ 32 - 1)) ∧
    (∀ j, j < 64 → (u.rail j).delay = 255 ∧ (u.rail j).why = 3) ∧ KeepsMemory s u

theorem endBallast_ballast (r : Regs) (cyc : Nat) : (r.endBallast cyc).ballast = none := by
  unfold Regs.endBallast
  split
  · rfl
  · assumption

theorem endBallast_us {r : Regs} {t : Nat} (h : r.ballast = some t) (cyc : Nat) :
    (r.endBallast cyc).ballastUs.toNat = min (r.ballastUs.toNat + (cyc - t) / 940) (2 ^ 32 - 1) := by
  simp only [Regs.endBallast, h, usOf, BitVec.toNat_ofNat]
  exact Nat.mod_eq_of_lt (by omega)

/-- The end of an interval above the cap, in a state with the registers of another but for the note that the integrator is above CAPW. -/
theorem inEmergency_ballastOver {s v : State} (hb : v.regs.ballast = s.regs.ballast) (hu : v.regs.ballastUs = s.regs.ballastUs) (hc : v.cyc = s.cyc)
    (hm : v.mem = s.mem) : InEmergency s (v.ballastOver true) := by
  let w : State := { v with regs := { v.regs.endBallast v.cyc with emerg := true, isOver := true } }
  obtain ⟨hin, -, hmem⟩ := railsAll_allGroups v { v.regs.endBallast v.cyc with emerg := true, isOver := true } fun r => { r with delay := 255, why := 3 }
  have hregs := modRails_regs w allGroups fun _ r => { r with delay := 255, why := 3 }
  show InEmergency s (w.modRails allGroups fun _ r => { r with delay := 255, why := 3 })
  refine ⟨by rw [hregs], by rw [hregs], by rw [hregs]; exact endBallast_ballast _ _, fun t ht => ?_, fun j hj => ?_, fun b => (hmem b).trans ?_⟩
  · rw [hregs]; exact (endBallast_us (hb.trans ht) v.cyc).trans (by rw [hu, hc])
  · rw [hin j hj]; exact ⟨rfl, rfl⟩
  · exact rdByte_congr hm b

section
variable {s : State}

theorem exec_ballastStart {amps : BitVec 16} (h : s.regs.slope < amps) : exec (.ballastStart amps) s =
    match s.regs.ballast with
    | some _ => .next { s with regs := { s.regs with ballastEnd := max s.regs.ballastEnd s.cyc + s.regs.fallCyc amps } }
    | none => .next { s with regs := { s.regs with ballast := some s.cyc, ballastEnd := s.cyc + s.regs.fallCyc amps, ballastFirst := true } } :=
  if_neg (BitVec.not_le.mpr h)

theorem ballastLimit_below {t : Nat} (hb : s.regs.ballast = some t) (ht : t + 23500 ≤ s.cyc) (ho : s.regs.isOver = false) :
    exec .ballastLimit s = .next { s with regs := { s.regs with ballastFirst := false } } := by
  show execBallastLimit s = _
  simp only [execBallastLimit, hb, ho, Bool.false_eq_true, if_false]
  exact if_neg (Nat.not_lt.mpr ht)

theorem ballastLimit_above {t : Nat} (hb : s.regs.ballast = some t) (ht : t + 23500 ≤ s.cyc) (ho : s.regs.isOver = true) :
    goesOn (exec .ballastLimit s) (InEmergency s) := by
  refine ⟨s.ballastOver true, ?_, inEmergency_ballastOver rfl rfl rfl rfl⟩
  show execBallastLimit s = _
  simp only [execBallastLimit, hb, ho, if_true]
  exact if_neg (Nat.not_lt.mpr ht)

/-- The state once the cap has raised the DELAY of every group. -/
def State.capped (s : State) (delay : BitVec 8) : State :=
  ({ s with regs := { s.regs with isOver := true } } : State).modRails allGroups fun _ r => ({ r with excess := delayUp r.excess delay } : Rail).shows 2

theorem exec_capThrottle {power : BitVec 16} (hp : s.regs.capw < power) (he : s.regs.emerg = false) (delay : BitVec 8) :
    exec (.capThrottle power delay) s =
      .next (if s.regs.ballast.isSome ∧ !s.regs.ballastFirst then (s.capped delay).ballastOver true else s.capped delay) :=
  if_neg (by simp only [not_or, BitVec.not_le, he]; exact ⟨hp, by decide⟩)

theorem capped_eq (delay : BitVec 8) : s.capped delay = { s with regs := { s.regs with isOver := true }, rails := (s.capped delay).rails } :=
  modRails_eq { s with regs := { s.regs with isOver := true } } allGroups fun _ r => ({ r with excess := delayUp r.excess delay } : Rail).shows 2

theorem capped_regs (delay : BitVec 8) : (s.capped delay).regs = { s.regs with isOver := true } := congrArg State.regs (capped_eq delay)

theorem capThrottle_early {power : BitVec 16} (hp : s.regs.capw < power) (he : s.regs.emerg = false) (delay : BitVec 8)
    (hb : s.regs.ballast = none ∨ s.regs.ballastFirst = true) :
    goesOn (exec (.capThrottle power delay) s) fun u => u.regs.isOver = true ∧
      RailsAll s u fun r => ({ r with excess := some (if delay < r.excess.getD 0 then r.excess.getD 0 else delay) } : Rail).shows 2 := by
  refine ⟨s.capped delay, (exec_capThrottle hp he delay).trans (congrArg _ (if_neg ?_)), by rw [capped_regs], railsAll_allGroups s _ _⟩
  rintro ⟨h1, h2⟩
  obtain h | h := hb
  · rw [h] at h1; exact nomatch h1
  · rw [h] at h2; exact nomatch h2

theorem capThrottle_late {power : BitVec 16} (hp : s.regs.capw < power) (he : s.regs.emerg = false) (delay : BitVec 8)
    (hb : s.regs.ballast ≠ none) (hf : s.regs.ballastFirst = false) : goesOn (exec (.capThrottle power delay) s) (InEmergency s) := by
  refine ⟨(s.capped delay).ballastOver true, (exec_capThrottle hp he delay).trans (congrArg _ (if_pos ⟨Option.isSome_iff_ne_none.mpr hb, by simp [hf]⟩)),
    inEmergency_ballastOver ?_ ?_ ?_ ?_⟩
  · rw [capped_regs]
  · rw [capped_regs]
  · exact (congrArg State.cyc (capped_eq delay) :)
  · exact (congrArg State.mem (capped_eq delay) :)

theorem emergencyThrottle_throttles {power : BitVec 16} (hb : s.regs.ballast ≠ none) (hp : s.regs.capw < power) :
    goesOn (exec (.emergencyThrottle power) s) (InEmergency s) :=
  ⟨s.ballastOver true, if_neg (by simp only [not_or, BitVec.not_le, Option.isNone_iff_eq_none]; exact ⟨hb, hp⟩), inEmergency_ballastOver rfl rfl rfl rfl⟩

theorem energyRepaid_lowers (delay : BitVec 8) (ho : s.regs.isOver = true) (he : s.regs.emerg = false) :
    goesOn (exec (.energyRepaid delay) s) fun u => (u.regs.isOver = true ↔ delay ≠ 0) ∧
      RailsAll s u fun r => ({ r with excess := if delay = 0 then none else r.excess.map fun d => if delay < d then delay else d } : Rail).lapsed := by
  let w : State := { s with regs := { s.regs with isOver := delay != 0 } }
  let f : Rail → Rail := fun r =>
    ({ r with excess := r.excess.bind fun d => if delay = 0 then none else some (if delay < d then delay else d) } : Rail).lapsed
  refine ⟨w.modRails allGroups fun _ r => f r, if_neg (by simp [ho, he]), ?_, (railsAll_allGroups s _ f).congr fun r => ?_⟩
  · rw [modRails_regs]
    exact bne_iff_ne
  · have hbind : (r.excess.bind fun d => if delay = 0 then none else some (if delay < d then delay else d)) =
        if delay = 0 then none else r.excess.map fun d => if delay < d then delay else d := by
      by_cases hd : delay = 0 <;> cases r.excess <;> simp [hd]
    simp only [f, hbind]

theorem emergencyEnd_ends {power : BitVec 16} (he : s.regs.emerg = true) (hp : 100 * power.toNat ≤ 95 * s.regs.capw.toNat) :
    goesOn (exec (.emergencyEnd power) s) fun u => u.regs.emerg = false ∧ u.regs.isOver = false ∧
      RailsAll s u fun r => ({ r with excess := none, why := 0 } : Rail).lapsed := by
  let w : State := { s with regs := { s.regs with emerg := false, isOver := false } }
  have hregs := modRails_regs w allGroups fun _ r => ({ r with excess := none, why := 0 } : Rail).lapsed
  refine ⟨w.modRails allGroups fun _ r => ({ r with excess := none, why := 0 } : Rail).lapsed, if_neg ?_, by rw [hregs], by rw [hregs],
    railsAll_allGroups s _ _⟩
  simp only [he, Bool.not_true, Bool.false_or, decide_eq_true_eq]
  omega

/-! ### Self-refresh (R265) -/

theorem selfRefreshEnter_sleeps {ch : BitVec 8} (hc : s.covered ch.toNat = false) (ht : Tab.get 0 s.lastUse ch.toNat + 940000 ≤ s.cyc) :
    goesOn (exec (.selfRefreshEnter ch) s) fun u => Tab.get false u.asleep ch.toNat = true ∧ Tab.find u.waking ch.toNat = none ∧
      { u with asleep := s.asleep, waking := s.waking } = s :=
  ⟨{ s with asleep := Tab.set false s.asleep ch.toNat true, waking := Tab.del s.waking ch.toNat },
    if_neg (by simp only [hc, Bool.false_eq_true, false_or]; omega), tab_get_set_self false s.asleep ch.toNat true, (tab_find_del s.waking _ _).trans (if_pos rfl), rfl⟩

end

/-- Settles O45: each event of power changes one group, the groups of a die or all of them, and the registers that it names. -/
theorem powerEvents : Obligations.PowerEvents := by
  unfold Obligations.PowerEvents
  intro g sid die amps power reading delay ch s k r x alone all
  refine ⟨fun t ht hp => ⟨fun hm => ⟨_, railReached_raised ht hm, railAlone_modRail k s _⟩, fun hm => ⟨_, railReached_lowered ht hm, endMove_unpended hp⟩,
      fun hm hle => ?raised, fun hm hlt => ?lowered⟩,
    fun hm hi => ⟨_, exec_opSwap hm hi, railAlone_modRail k s _⟩, fun h => regionStretch_counts h,
    fun hc hn => ⟨_, exec_sentinelWindow hc hn, fun j => ?window, fun _ => rfl⟩, fun hn => sentinelWindow_waits hn,
    fun q => ⟨fun h => ⟨shows_emergency h _, shows_emergency h _, shows_emergency h _⟩, lapsed_uncaused, fun w h => shows_other h w, most_toNat q⟩,
    fun t hm ht => ⟨_, exec_throttleExpire hm ht, rail_setRail_self _ _ _, fun j hj => rail_setRail_ne _ _ hj, fun _ => rfl⟩,
    thermalThrottle_reads die reading delay s, fun h => ⟨fun hb => ?first, fun hb => ?more⟩,
    ⟨fun t hb ht => ⟨ballastLimit_below hb ht, ballastLimit_above hb ht⟩,
      fun hp he => ⟨capThrottle_early hp he delay, capThrottle_late hp he delay⟩, emergencyThrottle_throttles⟩,
    energyRepaid_lowers delay, emergencyEnd_ends, selfRefreshEnter_sleeps⟩
  case raised =>
    refine ⟨_, (exec_clockHoldEnd ht hm).trans (congrArg _ (if_neg (Nat.not_lt.mpr hle))), ?_, rfl⟩
    exact railAlone_clocked s k
  case lowered =>
    have hc := railAlone_clocked s k
    obtain ⟨he, hd⟩ := endMove_unpended (s := s.clocked k) (k := k) (by rw [hc.1]; exact hp)
    rw [hc.1] at he
    exact ⟨_, (exec_clockHoldEnd ht hm).trans (congrArg _ (if_pos hlt)), hc.trans he, hd⟩
  case window => exact tab_get_map (fun q : Rail => { q with gwin := 0, winEvent := false }) {} s.rails j
  case first => rw [exec_ballastStart h, hb]; rfl
  case more =>
    obtain ⟨b, hb⟩ := Option.ne_none_iff_exists'.mp hb
    rw [exec_ballastStart h, hb]; rfl

end Sys2Proof.Machine
end


section
/-! PROOFS. The events of engine operations: chunks, completion, publishes, held writes and cut-overs (O46). -/

namespace Sys2Proof.Machine

open Sys2Proof

/-! ### Chunks (R307, R312) -/

section
variable {id k : Nat} {s : State} {o : EngOp} (ho : s.op? id = some o) (hst : o.st = .running) (hm : o.madder = true) (hk : k < o.pieces)
  (hd : k ∉ o.done) (hseq : o.kind = .scat → k = o.done.length)
include ho hst hm hk hd hseq

/-- A piece that is next to do goes to the forming of a collective's result or is moved. -/
theorem exec_chunkCommit : exec (.chunkCommit id k) s =
    if o.isColl && !o.started then (match s.collMeet o with
      | some l => .next (s.collForm l)
      | none => .next s)
    else .next (s.movePiece o k) := by
  show execChunkCommit id k s = _
  have hgo : ¬(o.st ≠ .running ∨ !o.madder ∨ o.pieces ≤ k ∨ o.done.contains k ∨ (o.kind = .scat ∧ k ≠ o.done.length)) := by
    rintro (h | h | h | h | ⟨h1, h2⟩)
    · exact h hst
    · simp [hm] at h
    · omega
    · exact hd (by simpa using h)
    · exact h2 (hseq h1)
  simp only [execChunkCommit, ho, if_neg hgo] <;> rfl

theorem chunkCommit_moves (hc : o.isColl = false ∨ o.started = true) {u v : State} {l d : List Byte} (hp : s.engPiece o k = .bytes u l)
    (hput : u.engPut o k l = .bytes v d) : exec (.chunkCommit id k) s = .next (v.pieceDone id k) := by
  have hform : (o.isColl && !o.started) = false := by obtain h | h := hc <;> simp [h]
  rw [exec_chunkCommit ho hst hm hk hd hseq, hform, if_neg Bool.false_ne_true]
  simp only [State.movePiece, hp, hput, id_of_op? ho]

end

/-- A chunk of a scratch destination is written whole, and its bit is set. -/
theorem engPut_scratch {u : State} {o : EngOp} {k off : Nat} {l : List Byte} (hkind : o.kind ≠ .scat) (htgt : o.tgt = .scratch off)
    (hsv : u.savedOf o = none) (hown : u.ownsSector o = true) (hres : u.reserved (scratchAt o.sid ((off / 512 + k) * 512)) 512 = false) :
    u.engPut o k l = .bytes ((u.store (scratchAt o.sid ((off / 512 + k) * 512)) (chunkBytes l)).modSec o.sid fun x =>
      { x with bitmap := Tab.set false x.bitmap (off / 512 + k) true }) [] := by
  have hput : u.engPut o k l = u.engChunk o k off l := by
    simp only [State.engPut, htgt]
  rw [hput]
  simp only [State.engChunk, hsv, hown, hres, Bool.not_true, Bool.false_eq_true, if_false]

theorem chunkBytes_length {l : List Byte} (h : l.length ≤ 512) : (chunkBytes l).length = 512 := by
  rw [chunkBytes, List.length_append, List.length_replicate]; omega

theorem chunkBytes_getD (l : List Byte) {i : Nat} (hi : i < 512) : (chunkBytes l).getD i 0 = l.getD i 0 := by
  unfold chunkBytes
  by_cases h : i < l.length
  · rw [List.getD_append _ _ _ _ h]
  · rw [List.getD_append_right _ _ _ _ (Nat.not_lt.mp h), List.getD_replicate _ (by omega), List.getD_eq_default _ _ (Nat.not_lt.mp h)]

/-- Noting a piece as done changes operations alone. -/
theorem pieceDone_eq (s : State) (id k : Nat) : s.pieceDone id k = { s with ops := (s.pieceDone id k).ops } := by
  unfold State.pieceDone; split <;> rfl

theorem chunkWritten_spec (u : State) (o : EngOp) (id k c : Nat) {l : List Byte} (hl : l.length ≤ 512) :
    let a := scratchAt o.sid (c * 512)
    let t := ((u.store a (chunkBytes l)).modSec o.sid fun x => { x with bitmap := Tab.set false x.bitmap c true }).pieceDone id k
    (∀ i, i < 512 → t.rdByte (a + i) = l.getD i 0) ∧ KeepsOutside u t a 512 ∧ (t.sec o.sid).bit c = true := by
  intro a t
  have ht := pieceDone_eq ((u.store a (chunkBytes l)).modSec o.sid fun x => { x with bitmap := Tab.set false x.bitmap c true }) id k
  have hmem : t.mem = (u.store a (chunkBytes l)).mem := (congrArg State.mem ht :)
  refine ⟨fun i hi => ?_, fun b hb => ?_, ?_⟩
  · rw [rdByte_congr hmem, rdByte_store, chunkBytes_length hl, if_pos (by omega), Nat.add_sub_cancel_left, chunkBytes_getD l hi]
  · rw [rdByte_congr hmem, rdByte_store, chunkBytes_length hl, if_neg (by omega)]
  · let w := (u.store a (chunkBytes l)).modSec o.sid fun x => { x with bitmap := Tab.set false x.bitmap c true }
    have hsectors : t.sectors = w.sectors := (congrArg State.sectors ht :)
    have hsec : t.sec o.sid = w.sec o.sid := by unfold State.sec; rw [hsectors]
    rw [hsec, sec_modSec_self]
    exact tab_get_set_self false ((u.store a (chunkBytes l)).sec o.sid).bitmap c true

/-! ### The end of an operation (R249, R305) -/

/-- What the note of an operation's end in a save record may change. -/
def EndNoted (s u : State) : Prop := ({ u with mem := s.mem, asleep := s.asleep, waking := s.waking, lastUse := s.lastUse } : State) = s

theorem endNoted_wrSave (s : State) (r : SaveRec) (off : Nat) (l : List Byte) : EndNoted s (s.wrSave r off l) := by
  unfold EndNoted State.wrSave
  rw [wrBytes_eq]

theorem endNoted_noteEnded (s : State) (id : Nat) : EndNoted s (s.noteEnded id) := by
  unfold State.noteEnded
  split
  · rfl
  · split
    · rfl
    · split
      · exact endNoted_wrSave ..
      · rfl

/-- An operation with no record in a save area is noted nowhere. -/
theorem noteEnded_unwritten {s : State} {o : EngOp} (ho : s.op? o.id = some o) (hw : s.writtenOf o = none) : s.noteEnded o.id = s := by
  simp only [State.noteEnded, ho, hw]

theorem EndNoted.op? {s u : State} (h : EndNoted s u) (id : Nat) : u.op? id = s.op? id := by
  have : u.ops = s.ops := (congrArg State.ops h :)
  unfold State.op?; rw [this]

/-- An operation that has ended, with its note. -/
theorem setOp_noteEnded {s : State} {o p : EngOp} (ho : s.op? p.id = some o) (htask : p.task = o.task) (hs4 : p.s4 = o.s4) :
    ((s.setOp p).noteEnded p.id).op? p.id = some p ∧ EndNoted (s.setOp p) ((s.setOp p).noteEnded p.id) ∧
      (s.writtenOf o = none → KeepsMemory s ((s.setOp p).noteEnded p.id)) := by
  have hset := op?_setOp_self ho
  have hn := endNoted_noteEnded (s.setOp p) p.id
  refine ⟨(hn.op? p.id).trans hset, hn, fun hw => ?_⟩
  have hw' : (s.setOp p).writtenOf p = none := by
    unfold State.writtenOf State.savedOf at hw ⊢
    rw [htask, hs4]
    exact hw
  rw [noteEnded_unwritten hset hw']
  exact fun _ => rfl

section
variable {id : Nat} {s : State} {o : EngOp} (ho : s.op? id = some o) (hst : o.st = .running) (hm : o.madder = true)
  (hd : o.pieces ≤ o.done.length) (hc : o.isColl = true → o.started = true)
include ho hst hm hd hc

theorem engineComplete_goes : ¬(o.st ≠ .running ∨ !o.madder ∨ o.done.length < o.pieces ∨ (o.isColl ∧ !o.started)) := by
  rintro (h | h | h | ⟨h1, h2⟩)
  · exact h hst
  · simp [hm] at h
  · omega
  · simp [hc h1] at h2

theorem engineComplete_other (ht : ∀ p j a, o.tgt ≠ .edge p j a) :
    exec (.engineComplete id) s = .next ((s.setOp { o with st := .complete }).noteEnded id) := by
  have hput : s.putSlice o = s := by
    unfold State.putSlice
    split
    · rename_i p j a h; exact absurd h (ht p j a)
    · rfl
  show execEngineComplete id s = _
  simp only [execEngineComplete, ho, if_neg (engineComplete_goes ho hst hm hd hc), hput]
  cases htgt : o.tgt with
  | edge p j a => exact absurd htgt (ht p j a)
  | scratch off => rfl
  | virt va => rfl

theorem engineComplete_edge {p : Bool} {j a : Nat} (ht : o.tgt = .edge p j a) :
    exec (.engineComplete id) s = .next (((s.putSlice o).setOp { o with st := .complete, shadow := [] }).noteEnded id) := by
  show execEngineComplete id s = _
  simp only [execEngineComplete, ho, if_neg (engineComplete_goes ho hst hm hd hc), ht, if_true]

end

/-! ### Publishes (R314, R315) -/

/-- The granules of an operation that a publish swaps in. -/
def EngOp.swapped (o : EngOp) : List (Word × List (Option Byte)) := if o.st = .complete then o.granules else []

section
variable {id : Nat} {s : State} {o : EngOp} {ea v : Word} {t : Tgt} (ho : s.op? id = some o) (hp : o.publ = some (ea, v))
  (hst : o.st = .complete ∨ o.st = .failed) (hl : o.live = true) (hw : o.pubWait = none) (hb : s.pubBefore o = false)
  (hwd : s.writesDone o.sid = true) (ht : s.statusTgt o = some t) (hlay : s.layerHeld t.pw t.off = false) (hfull : s.vFull t.line = false)
include ho hp hst hl hw hb hwd ht hlay hfull

theorem publishStep_unmet {u : State} (hm : s.meetShadow o o.swapped = (false, u)) : exec (.publishStep id) s = .next u := by
  have hover : (o.st == .complete || o.st == .failed) = true := by obtain h | h := hst <;> rw [h] <;> rfl
  show execPublishStep id s = _
  unfold EngOp.swapped at hm
  simp only [execPublishStep, ho, hp, hover, hl, hw, hb, hwd, ht, hlay, hfull, hm, Option.isSome_none, Bool.not_true, Bool.or_self,
    Bool.false_eq_true, if_false]

variable {u z : State} (hm : s.meetShadow o o.swapped = (true, u))
include hm

theorem publishStep_waits (hmeet : u.meet (engWho o.id o.sid) t 8 = .wait z) : exec (.publishStep id) s = .next z := by
  have hover : (o.st == .complete || o.st == .failed) = true := by obtain h | h := hst <;> rw [h] <;> rfl
  show execPublishStep id s = _
  unfold EngOp.swapped at hm
  simp only [execPublishStep, ho, hp, hover, hl, hw, hb, hwd, ht, hlay, hfull, hm, hmeet, Option.isSome_none, Bool.not_true, Bool.or_self,
    Bool.false_eq_true, if_false]

/-- The state after a publish whose shadow is swapped in. -/
def State.published (y : State) (o : EngOp) (t : Tgt) (v : Word) (bad : Bool) : State :=
  (y.setOp { o with live := false, shadow := [] }).statusMade o t bad (BitVec.ofNat 64 (v.toNat / 256 * 256 + o.status.toNat))

variable {x : EngOp} {y : State} {l : List Byte} (hx : z.op? id = some x) (hsw : z.swapIn x o.swapped = .bytes y l)
include hx hsw

theorem publishStep_goes (hmeet : u.meet (engWho o.id o.sid) t 8 = .go z) : exec (.publishStep id) s = .next (y.published o t v false) := by
  have hover : (o.st == .complete || o.st == .failed) = true := by obtain h | h := hst <;> rw [h] <;> rfl
  show execPublishStep id s = _
  unfold EngOp.swapped at hm hsw
  simp only [execPublishStep, ho, hp, hover, hl, hw, hb, hwd, ht, hlay, hfull, hm, hmeet, hx, hsw, Option.getD_some, Option.isSome_none, Bool.not_true,
    Bool.or_self, Bool.false_eq_true, if_false, State.published]

theorem publishStep_contained (hmeet : u.meet (engWho o.id o.sid) t 8 = .bad z) : exec (.publishStep id) s = .next (y.published o t v true) := by
  have hover : (o.st == .complete || o.st == .failed) = true := by obtain h | h := hst <;> rw [h] <;> rfl
  show execPublishStep id s = _
  unfold EngOp.swapped at hm hsw
  simp only [execPublishStep, ho, hp, hover, hl, hw, hb, hwd, ht, hlay, hfull, hm, hmeet, hx, hsw, Option.getD_some, Option.isSome_none, Bool.not_true,
    Bool.or_self, Bool.false_eq_true, if_false, State.published]

end

theorem forget_quiet {s : State} (h : s.umber.retries = []) (who : Nat) (t : Tgt) (n : Nat) : s.forget who t n = s := by
  have hr : ∀ f : Retry → Bool, ({ s.umber with retries := s.umber.retries.filter f } : Umber) = s.umber := fun f => by
    rw [h, List.filter_nil, ← h]
  exact (congrArg (fun U : Umber => ({ s with umber := U } : State)) (hr _) :)

/-- A publish on a machine where no transfer is retried and no launch waits: the version is created, and nothing follows from it. -/
theorem published_eq {y : State} {o : EngOp} {t : Tgt} {v : Word} (hr : y.umber.retries = []) (hn : NoLaunchWaits y) :
    y.published o t v false = (y.setOp { o with live := false, shadow := [] }).vCreate t.line (BitVec.ofNat 64 (v.toNat / 256 * 256 + o.status.toNat)) := by
  unfold State.published State.statusMade State.makeVersion
  have hp : NoLaunchWaits (y.setOp { o with live := false, shadow := [] }) := hn.of_launches rfl
  have hmade := (memOnly_vCreate (y.setOp { o with live := false, shadow := [] }) t.line (BitVec.ofNat 64 (v.toNat / 256 * 256 + o.status.toNat))).launches
  rw [if_neg Bool.false_ne_true, forget_quiet (s := y.setOp { o with live := false, shadow := [] }) hr]
  exact settleAt_noWaits (hp.of_launches hmade) [t.line]

theorem MemOnly.op? {s u : State} (h : MemOnly s u) (id : Nat) : u.op? id = s.op? id := by
  have : u.ops = s.ops := (congrArg State.ops h :)
  unfold State.op?; rw [this]

/-- A version created while an operation is set. -/
theorem vCreate_setOp {y : State} {p q : EngOp} (ho : y.op? p.id = some q) (line : Nat) (w : Word) (hv : y.vNext line + 1 < 2 ^ 64) :
    let u := (y.setOp p).vCreate line w
    u.vNext line = y.vNext line + 1 ∧ u.vVal line (y.vNext line) = w ∧ KeepsOutside y u line 64 ∧ u.op? p.id = some p := by
  have hnext : (y.setOp p).vNext line = y.vNext line := congrArg BitVec.toNat (rdWord_congr rfl _)
  have hspec := vCreate_spec (y.setOp p) line w (by rw [hnext]; exact hv)
  rw [hnext] at hspec
  obtain ⟨h1, h2, -, h4⟩ := hspec
  exact ⟨h1, h2, fun b hb => (h4 b hb).trans (rdByte_congr rfl b), ((memOnly_vCreate (y.setOp p) line w).op? p.id).trans (op?_setOp_self ho)⟩

/-! ### Held writes to read-duplicated lines (R282) -/

theorem dupWritePerformed_waits {k : Nat} {s : State} {d : DupWrite} (hd : s.dups[k]? = some d)
    (h : ∃ e ∈ s.dups.take k, e.sid = d.sid ∧ e.phys / 128 = d.phys / 128) : Waits s (.dupWritePerformed k) := by
  obtain ⟨e, he, h1, h2⟩ := h
  have hearly : ((s.dups.take k).any fun e => e.sid == d.sid && e.phys / 128 == d.phys / 128) = true :=
    List.any_eq_true.mpr ⟨e, he, by simp [h1, h2]⟩
  show execDupWritePerformed k s = _
  simp only [execDupWritePerformed, hd, hearly, if_true]

theorem dupWritePerformed_stores {k : Nat} {s : State} {d : DupWrite} (hd : s.dups[k]? = some d) (hq : Quiet s)
    (h : ∀ e ∈ s.dups.take k, e.sid = d.sid → e.phys / 128 ≠ d.phys / 128) :
    goesOn (exec (.dupWritePerformed k) s) fun u => u.dups = s.dups.eraseIdx k ∧
      (∀ i, i < d.data.length → u.rdByte (d.phys + i) = d.data.getD i 0) ∧ KeepsOutside s u d.phys d.data.length := by
  have hearly : ((s.dups.take k).any fun e => e.sid == d.sid && e.phys / 128 == d.phys / 128) = false :=
    List.any_eq_false.mpr fun e he => by simpa using h e he
  let t : Tgt := ⟨some d.idx, (Tab.get {} (s.ctx d.ctx).rt d.idx).pw, (Tab.get {} (s.ctx d.ctx).rt d.idx).frame, d.va.toNat, d.phys⟩
  have hread : ∀ b, ((s.touch t).store d.phys d.data).rdByte b =
      if d.phys ≤ b ∧ b < d.phys + d.data.length then d.data.getD (b - d.phys) 0 else s.rdByte b := fun b => by
    rw [rdByte_store, rdByte_congr (touch_mem s t)]
  refine ⟨{ (s.touch t).store d.phys d.data with dups := (s.touch t).dups.eraseIdx k }, ?_, ?_, fun i hi => ?_, fun b hb => ?_⟩
  · show execDupWritePerformed k s = _
    simp only [execDupWritePerformed, hd, hearly, Bool.false_eq_true, if_false]
    rw [strike_quiet hq]
  · exact congrArg (fun l : List DupWrite => l.eraseIdx k) (congrArg State.dups (touch_eq s t) :)
  · exact (hread (d.phys + i)).trans (by rw [if_pos (by omega), Nat.add_sub_cancel_left])
  · exact (hread b).trans (if_neg (by omega))

/-! ### Cut-overs (R286, R313) -/

theorem setMig_pw (e : RtEnt) (b : Bool) : (e.setMig b).pw = e.pw := by
  have hlow : ∀ x : Word, bitsAt x.toNat 0 32 = (x.setWidth 32).toNat := fun x => by simp [bitsAt]
  unfold RtEnt.pw
  rw [hlow, hlow]
  cases b with
  | true => exact congrArg BitVec.toNat (show ((e.w3 ||| 0x800000000).setWidth 32 : BitVec 32) = e.w3.setWidth 32 by
      rw [BitVec.setWidth_or, show ((0x800000000 : Word).setWidth 32 : BitVec 32) = 0 from rfl]; exact BitVec.or_zero)
  | false => exact congrArg BitVec.toNat (show ((e.w3 &&& ~~~0x800000000).setWidth 32 : BitVec 32) = e.w3.setWidth 32 by
      rw [BitVec.setWidth_and, show ((~~~0x800000000 : Word).setWidth 32 : BitVec 32) = BitVec.allOnes 32 from rfl]; exact BitVec.and_allOnes)

theorem setPw_pw (e : RtEnt) (pw : BitVec 32) : (e.setPw pw.toNat).pw = pw.toNat := by
  have h1 := e.w3.isLt
  have h2 := pw.isLt
  unfold RtEnt.pw RtEnt.setPw bitsAt
  rw [BitVec.toNat_ofNat]
  omega

theorem pw_withFrame (e : RtEnt) (f : Word) : ({ e with w2 := f } : RtEnt).pw = e.pw := rfl

theorem flushRecs_empty {s : State} (h : s.recs = []) : s.flushRecs = s := by
  have hf : s.flushFrom [] s.recs = (s, []) := by rw [h]; rfl
  unfold State.flushRecs
  rw [hf]
  exact (congrArg (fun l : List Rec => ({ s with recs := l } : State)) h.symm :)

/-- On a quiet machine the transfers of a page's copy are over at once. -/
theorem meetMove_quiet {s : State} (hq : Quiet s) (o : EngOp) (e : RtEnt) (pw frame : Nat) : s.meetMove o e pw frame = (s, true) := by
  have hpage : ∀ who t len, s.meetPage who t len = (s, some []) := fun who t len => by
    unfold State.meetPage; rw [hq.1, hq.2]; rfl
  have hall : ∀ who, s.forgetAll who = s := fun who => by
    have hr : ({ s.umber with retries := s.umber.retries.filter fun r => !(r.failed && r.sid == who) } : Umber) = s.umber := by
      rw [hq.2, List.filter_nil, ← hq.2]
    exact (congrArg (fun U : Umber => ({ s with umber := U } : State)) hr :)
  simp only [State.meetMove, hpage, hall, List.append_nil, List.foldl_nil]

theorem op?_of_ops {s u : State} (h : u.ops = s.ops) (id : Nat) : u.op? id = s.op? id := by unfold State.op?; rw [h]

/-- Where no record and no launch waits, the end of an operation sets off nothing more than its note. -/
theorem endedOp_quiet {s : State} {o p : EngOp} {id : Nat} (hid : p.id = id) (hr : s.recs = []) (hn : NoLaunchWaits s)
    (ho : s.op? id = some o) (htask : p.task = o.task) (hs4 : p.s4 = o.s4) :
    let u := (s.setOp p).noteEnded id
    u.flushRecs.settle = u ∧ u.op? id = some p ∧ (∀ c, u.ctx c = s.ctx c) ∧ (s.writtenOf o = none → KeepsMemory s u) := by
  subst hid
  intro u
  obtain ⟨h1, h2, h3⟩ := setOp_noteEnded ho htask hs4
  have hrecs : u.recs = [] := (congrArg State.recs h2 :).trans hr
  have hlaunch : u.launches = s.launches := (congrArg State.launches h2 :)
  have hctxs : u.ctxs = s.ctxs := (congrArg State.ctxs h2 :)
  refine ⟨?_, h1, fun c => by unfold State.ctx; rw [hctxs], h3⟩
  rw [flushRecs_empty hrecs]
  exact settleAt_noWaits (hn.of_launches hlaunch) []

theorem engFail_quiet {s : State} {o : EngOp} (code : BitVec 8) (va : Word) (hr : s.recs = []) (hn : NoLaunchWaits s) (ho : s.op? o.id = some o) :
    (s.engFail o code va).flushRecs.settle = s.engFail o code va ∧
      (s.engFail o code va).op? o.id = some { o with st := .failed, status := code, failAddr := va, shadow := [] } ∧
      (s.writtenOf o = none → KeepsMemory s (s.engFail o code va)) := by
  obtain ⟨h1, h2, -, h4⟩ := endedOp_quiet (p := { o with st := .failed, status := code, failAddr := va, shadow := [] }) (id := o.id) rfl hr hn ho rfl rfl
  exact ⟨h1, h2, h4⟩

section
variable {id : Nat} {s : State} {o : EngOp} (ho : s.op? id = some o) (hk : o.kind = .rstr) (hst : o.st = .running)

/-- The state in which a page has moved to its new place, its entry holds the new word, and its writes and copies follow. -/
def State.moved (s : State) (o : EngOp) (f : Word) (e e2 : RtEnt) : State :=
  let pw := o.pw.toNat
  let s1 := ((({ s with fresh := s.fresh + 1 } : State).movePage e.pw e.frame pw f.toNat e.len).setRt o.ctx o.entry e2).moveWrites o.ctx o.entry pw f.toNat
  ((s1.dropCopies o.ctx o.entry).moveSealed o.ctx e.pw e.frame pw f.toNat).wake e.pw pw

theorem moved_rt (s : State) (o : EngOp) (f : Word) (e e2 : RtEnt) : Tab.get {} ((s.moved o f e e2).ctx o.ctx).rt o.entry = e2 := by
  let s0 := ({ s with fresh := s.fresh + 1 } : State).movePage e.pw e.frame o.pw.toNat f.toNat e.len
  let s2 := (((s0.setRt o.ctx o.entry e2).moveWrites o.ctx o.entry o.pw.toNat f.toNat).dropCopies o.ctx o.entry)
  have h0 : (s.moved o f e e2).ctx o.ctx = (s2.moveSealed o.ctx e.pw e.frame o.pw.toNat f.toNat).ctx o.ctx := rfl
  have h1 : ((s.moved o f e e2).ctx o.ctx).rt = (s2.ctx o.ctx).rt := by
    rw [h0, State.moveSealed, State.modCtx, ctx_setCtx_self]
  have h2 : s2.ctx o.ctx = { s0.ctx o.ctx with rt := Tab.put (s0.ctx o.ctx).rt o.entry e2 } := ctx_setCtx_self s0 o.ctx _
  rw [h1, h2]
  exact tab_get_put_self _ _ _ _

/-- The move of a page leaves the lists of operations, records and launches. -/
theorem moved_lists (s : State) (o : EngOp) (f : Word) (e e2 : RtEnt) :
    (s.moved o f e e2).ops = s.ops ∧ (s.moved o f e e2).recs = s.recs ∧ (s.moved o f e e2).launches = s.launches := ⟨rfl, rfl, rfl⟩

variable (hfirst : ∀ p ∈ s.ops, p.restripes o.ctx o.entry = true → id ≤ p.id)
include ho

theorem cutOver_asleep (ha : s.allAwake o.pw.toNat = false) : Waits s (.cutOver id) := by
  show execCutOver id s = _
  simp only [execCutOver, ho, ha]
  exact if_pos (.inr (.inr (.inl rfl)))

include hk hst hfirst

theorem cutOver_goes (ha : s.allAwake o.pw.toNat = true) :
    ¬(o.kind ≠ .rstr ∨ o.st ≠ .running ∨ !s.allAwake o.pw.toNat ∨ (s.ops.any fun p => p.restripes o.ctx o.entry && decide (p.id < o.id)) = true) := by
  rintro (h | h | h | h)
  · exact h hk
  · exact h hst
  · simp [ha] at h
  · obtain ⟨p, hp, hr⟩ := List.any_eq_true.mp h
    obtain ⟨h1, h2⟩ := Bool.and_eq_true_iff.mp hr
    have := hfirst p hp h1
    rw [id_of_op? ho] at h2
    exact absurd (of_decide_eq_true h2) (Nat.not_lt.mpr this)

theorem cutOver_drains (ha : s.allAwake o.pw.toNat = true) (hheld : ∃ d ∈ s.dups, d.ctx = o.ctx ∧ d.idx = o.entry) :
    exec (.cutOver id) s = .next (s.setOp { o with draining := true }) := by
  obtain ⟨d, hd, h1, h2⟩ := hheld
  have hany : (s.dups.any fun d => d.ctx == o.ctx && d.idx == o.entry) = true := List.any_eq_true.mpr ⟨d, hd, by simp [h1, h2]⟩
  show execCutOver id s = _
  simp only [execCutOver, ho, hany, if_true]
  exact if_neg (cutOver_goes ho hk hst hfirst ha)

variable (ha : s.allAwake o.pw.toNat = true) (hheld : ¬∃ d ∈ s.dups, d.ctx = o.ctx ∧ d.idx = o.entry)
include ha hheld

theorem cutOver_moves (hq : Quiet s) {f : Word} (hf : Config.rstrFrame s.fresh = some f)
    (hfree : s.frameFree o.ctx o.pw.toNat f.toNat (Tab.get {} (s.ctx o.ctx).rt o.entry).len = true) :
    ∃ e e2 : RtEnt, e2.pw = o.pw.toNat ∧
      exec (.cutOver id) s = .next (((s.moved o f e e2).setOp { o with st := .complete, frame := f }).noteEnded id).flushRecs.settle := by
  have hany : (s.dups.any fun d => d.ctx == o.ctx && d.idx == o.entry) = false :=
    List.any_eq_false.mpr fun d hd h => hheld ⟨d, hd, by simpa using h⟩
  refine ⟨Tab.get {} (s.ctx o.ctx).rt o.entry,
    ({ (Tab.get {} (s.ctx o.ctx).rt o.entry).setPw o.pw.toNat with w2 := f } : RtEnt).setMig (s.ops.any fun p => p.restripes o.ctx o.entry && p.id != o.id),
    (setMig_pw _ _).trans ((pw_withFrame _ f).trans (setPw_pw _ o.pw)), ?_⟩
  show execCutOver id s = _
  simp only [execCutOver, ho, hany, meetMove_quiet hq, hf, hfree, Bool.false_eq_true, if_false, if_true]
  rw [if_neg (cutOver_goes ho hk hst hfirst ha)]
  simp only [State.moved]

theorem cutOver_fails (hf : ∀ f, Config.rstrFrame s.fresh = some f →
      s.frameFree o.ctx o.pw.toNat f.toNat (Tab.get {} (s.ctx o.ctx).rt o.entry).len = false) :
    ∃ e, exec (.cutOver id) s = .next ((({ s with fresh := s.fresh + 1 } : State).setRt o.ctx o.entry e).engFail o 0x07 o.failAddr).flushRecs.settle := by
  have hany : (s.dups.any fun d => d.ctx == o.ctx && d.idx == o.entry) = false :=
    List.any_eq_false.mpr fun d hd h => hheld ⟨d, hd, by simpa using h⟩
  refine ⟨(Tab.get {} (s.ctx o.ctx).rt o.entry).setMig (s.ops.any fun p => p.restripes o.ctx o.entry && p.id != o.id), ?_⟩
  show execCutOver id s = _
  simp only [execCutOver, ho, hany, Bool.false_eq_true, if_false]
  rw [if_neg (cutOver_goes ho hk hst hfirst ha)]
  cases hc : Config.rstrFrame s.fresh with
  | none => rfl
  | some f => simp only [hf f hc, Bool.false_eq_true, if_false]

theorem cutOver_ends (hq : Quiet s) (hrecs : s.recs = []) (hn : NoLaunchWaits s) : goesOn (exec (.cutOver id) s) fun u => ∃ p, u.op? id = some p ∧
    ((p.st = .complete ∧ (Tab.get {} (u.ctx o.ctx).rt o.entry).pw = o.pw.toNat) ∨
      (p.st = .failed ∧ p.status = 0x07 ∧ (s.writtenOf o = none → KeepsMemory s u))) := by
  have hid := id_of_op? ho
  subst hid
  by_cases hfree : ∃ f, Config.rstrFrame s.fresh = some f ∧ s.frameFree o.ctx o.pw.toNat f.toNat (Tab.get {} (s.ctx o.ctx).rt o.entry).len = true
  · obtain ⟨f, hf, hfree⟩ := hfree
    obtain ⟨e, e2, hpw, hexec⟩ := cutOver_moves ho hk hst hfirst ha hheld hq hf hfree
    obtain ⟨hops, hr, hl⟩ := moved_lists s o f e e2
    obtain ⟨h1, h2, h3, -⟩ := endedOp_quiet (p := { o with st := .complete, frame := f }) (id := o.id) rfl (hr.trans hrecs) (hn.of_launches hl)
      ((op?_of_ops hops o.id).trans ho) rfl rfl
    refine ⟨_, hexec.trans (congrArg _ h1), _, h2, .inl ⟨rfl, ?_⟩⟩
    rw [h3, moved_rt, hpw]
  · obtain ⟨e, hexec⟩ := cutOver_fails ho hk hst hfirst ha hheld fun f hf => Bool.eq_false_iff.mpr fun hc => hfree ⟨f, hf, hc⟩
    obtain ⟨h1, h2, h3⟩ := engFail_quiet (s := ({ s with fresh := s.fresh + 1 } : State).setRt o.ctx o.entry e) 0x07 o.failAddr hrecs
      (hn.of_launches rfl) ho
    exact ⟨_, hexec.trans (congrArg _ h1), _, h2, .inr ⟨rfl, rfl, h3⟩⟩

end

/-- Settles O46: a piece is moved by its source and destination, an end is noted, a publish is a version created, and a cut-over is a page moved. -/
theorem engineEvents : Obligations.EngineEvents := by
  unfold Obligations.EngineEvents
  intro id k s
  refine ⟨fun o u l v d ho hst hm hc hk hd hseq hp => ⟨fun hput => chunkCommit_moves ho hst hm hk hd hseq hc hp hput, ?chunk⟩, ?form, ?complete, ?publish,
    fun d hd => ⟨fun h => dupWritePerformed_waits hd h, fun hq h => dupWritePerformed_stores hd hq h⟩,
    fun o ho hk hst hfirst => ⟨fun ha => cutOver_asleep ho ha, fun ha hh => cutOver_drains ho hk hst hfirst ha hh,
      fun ha hh hq hrecs hn => cutOver_ends ho hk hst hfirst ha hh hq hrecs hn⟩⟩
  case chunk =>
    intro off a hkind htgt hsv hown hres hl
    exact ⟨_, chunkCommit_moves ho hst hm hk hd hseq hc hp (engPut_scratch hkind htgt hsv hown hres), chunkWritten_spec u o id k (off / 512 + k) hl⟩
  case form =>
    intro o ho hst hcoll hs hk hd
    have hm : o.madder = true := by
      unfold EngOp.isColl at hcoll; unfold EngOp.madder
      cases hkind : o.kind <;> simp_all
    have hseq : o.kind = .scat → k = o.done.length := fun h => by unfold EngOp.isColl at hcoll; rw [h] at hcoll; exact nomatch hcoll
    have hexec := exec_chunkCommit ho hst hm hk hd hseq
    rw [hcoll, hs] at hexec
    refine ⟨fun l hl => ?_, fun hn => ?_⟩
    · rw [hl] at hexec; exact hexec
    · rw [hn] at hexec; exact hexec
  case complete =>
    intro o ho hst hm hd hc
    have hid := id_of_op? ho
    subst hid
    refine ⟨fun ht => ⟨engineComplete_other ho hst hm hd hc ht, fun hw => ?_⟩, fun p j a ht => engineComplete_edge ho hst hm hd hc ht⟩
    obtain ⟨h1, -, h3⟩ := setOp_noteEnded (s := s) (p := { o with st := .complete }) (o := o) ho rfl rfl
    exact ⟨_, engineComplete_other ho hst hm hd hc ht, h1, h3 hw⟩
  case publish =>
    intro o ea v t ho hp hst hl hw hb hwd ht hlay hfull w gs made
    have hid := id_of_op? ho
    subst hid
    refine ⟨fun u z x y l hm hx hsw => ⟨publishStep_goes ho hp hst hl hw hb hwd ht hlay hfull hm hx hsw,
        publishStep_contained ho hp hst hl hw hb hwd ht hlay hfull hm hx hsw⟩,
      fun u z hm hmeet => publishStep_waits ho hp hst hl hw hb hwd ht hlay hfull hm hmeet,
      fun u hm => publishStep_unmet ho hp hst hl hw hb hwd ht hlay hfull hm, fun hempty hq hn hv => ?_⟩
    have hgs : o.swapped = [] := by
      unfold EngOp.swapped EngOp.granules
      obtain h | h := hempty
      · rw [h]; rfl
      · rw [h]; split <;> rfl
    have htouch : (s.touch t).op? o.id = some o :=
      (congrArg (fun l : List EngOp => l.find? fun x : EngOp => x.id == o.id) (congrArg State.ops (touch_eq s t) :)).trans ho
    have hmet : s.meetShadow o o.swapped = (true, s) := by rw [hgs]; rfl
    have hswap : (s.touch t).swapIn o o.swapped = .bytes (s.touch t) [] := by rw [hgs]; rfl
    have hexec := publishStep_goes ho hp hst hl hw hb hwd ht hlay hfull hmet htouch hswap (meet_quiet hq _ t 8)
    rw [published_eq ((congrArg (fun u : State => u.umber.retries) (touch_eq s t)).trans hq.2)
      (hn.of_launches (congrArg State.launches (touch_eq s t) :))] at hexec
    have hnext : (s.touch t).vNext t.line = s.vNext t.line := congrArg BitVec.toNat (rdWord_congr (touch_mem s t) _)
    have hspec := vCreate_setOp (p := { o with live := false, shadow := [] }) htouch t.line w (by rw [hnext]; exact hv)
    rw [hnext] at hspec
    obtain ⟨h1, h2, h3, h4⟩ := hspec
    exact ⟨_, hexec, h1, h2, fun b hb => (h3 b hb).trans (rdByte_congr (touch_mem s t) b), h4⟩

end Sys2Proof.Machine
end


section
/-! PROOFS. Flash: staging, installs, stages, the allowance and the scrub (O47). -/

namespace Sys2Proof.Machine

open Sys2Proof

/-! ### Staging (R345, R354) -/

section
variable {st : BitVec 2} {pg : BitVec 26} {s : State}

theorem stagingFill_staged (h : s.staged? (st.toNat * 2 ^ 26 + pg.toNat) ≠ none) : Waits s (.stagingFill st pg) :=
  if_pos (Option.isSome_iff_ne_none.mpr h)

theorem exec_stagingFill (h : s.staged? (st.toNat * 2 ^ 26 + pg.toNat) = none) :
    exec (.stagingFill st pg) s = .next ((s.stagePage (st.toNat * 2 ^ 26 + pg.toNat) {}).getD s) :=
  if_neg (by rw [h]; exact Bool.false_ne_true)

/-- A page staged anew while the carve-out has room. -/
theorem stagePage_room {page : Nat} (p : Staged) (hn : s.flash.staged.length < s.regs.carvePages) :
    s.stagePage page p = some (s.setStaged (Tab.put s.flash.staged page { p with at_ := s.cyc })) := if_pos (.inr hn)

/-- A page staged in the place of the one that goes first. -/
theorem stagePage_full {page w : Nat} (p : Staged) (h : s.staged? page = none) (h0 : 0 < s.regs.carvePages)
    (hn : s.regs.carvePages ≤ s.flash.staged.length) (hw : s.victim = some w) :
    s.stagePage page p = some (s.setStaged (Tab.put (Tab.del s.flash.staged w) page { p with at_ := s.cyc })) := by
  have hfull : ¬((s.staged? page).isSome ∨ s.flash.staged.length < s.regs.carvePages) := by
    rw [h]; simp; omega
  unfold State.stagePage
  simp only [if_neg hfull, hw, if_neg (Nat.pos_iff_ne_zero.mp h0)]

theorem staged?_setStaged (t : Tab Staged) (p : Nat) : (s.setStaged t).staged? p = Tab.find t p := rfl

end

/-! ### Ranges -/

theorem rangeSt_fit_iff (s : State) (o : EngOp) (kind : Nat) (acc : Acc) (l : List Word) :
    s.rangeSt o kind acc l = .fit ↔ ∀ va ∈ l, isVirt va = true ∧ ∃ t, s.xlateV o.ctx va.toNat acc = .ok t ∧ pwKind t.pw = kind := by
  induction l with
  | nil => exact ⟨fun _ va h => absurd h List.not_mem_nil, fun _ => rfl⟩
  | cons va l ih =>
    rw [List.forall_mem_cons, ← ih]
    cases hv : isVirt va with
    | false => simp [State.rangeSt, hv]
    | true =>
      cases hx : s.xlateV o.ctx va.toNat acc with
      | hold => simp [State.rangeSt, hv, hx]
      | fault => simp [State.rangeSt, hv, hx]
      | perm =>
        by_cases ha : acc = .write
        · subst ha; simp [State.rangeSt, hv, hx]
        · simp [State.rangeSt, hv, hx, ha]
      | ok t => by_cases hk : pwKind t.pw = kind <;> simp [State.rangeSt, hv, hx, hk]

/-! ### The start of an install (R349) -/

section
variable {id : Nat} {s : State} {o : EngOp} (ho : s.op? id = some o) (hk : o.kind = .inst) (hst : o.st = .running) (bad bad2 : Bool)
include ho hk hst

theorem exec_installStart (hs : o.started = false) : exec (.installPageProgram id bad bad2) s = .next (s.installStart o) := by
  show execInstallPageProgram id bad bad2 s = _
  simp [execInstallPageProgram, ho, hk, hst, hs]

theorem exec_installPage (hs : o.started = true) (hd : o.done.length < o.len / 16384) :
    exec (.installPageProgram id bad bad2) s = .next (s.installPage o bad bad2) := by
  show execInstallPageProgram id bad bad2 s = _
  simp only [execInstallPageProgram, ho, hk, hst, hs, ne_eq, not_true, or_self, if_false, Bool.not_true, Bool.false_eq_true]
  exact if_neg (Nat.not_le.mpr hd)

end

/-- The image of an install passes its check, or is not checked. -/
def ImagePasses (s : State) (o : EngOp) (l : List Byte) : Prop :=
  ∀ k, o.keySlot = some k → ∃ key, (s.ctx o.ctx).key? k = some key ∧ imageCheck key l = true

theorem installStart_ranges (s : State) (o : EngOp) :
    let src := s.rangeSt o 0 .read (pagesOf o.src o.len)
    let dst := s.rangeSt o 1 .write (pagesOf o.dest o.len)
    ((src = .unfit ∨ (src = .fit ∧ dst = .unfit)) → s.installStart o = s.engFail o 0x06 0) ∧
    ((src = .wait ∨ (src = .fit ∧ dst = .wait)) → s.installStart o = s) ∧
    (∀ va f, src = .fault va f → s.installStart o = s.engFault o va f 0) ∧
    (∀ va f, src = .fit → dst = .fault va f → s.installStart o = s.engFault o va f 1) := by
  intro src dst
  refine ⟨?_, ?_, fun va f h => ?_, fun va f h1 h2 => ?_⟩
  · rintro (h | ⟨h1, h2⟩)
    · simp only [src] at h; simp only [State.installStart, h, State.rangeGo]
    · simp only [src, dst] at h1 h2; simp only [State.installStart, h1, h2, State.rangeGo]
  · rintro (h | ⟨h1, h2⟩)
    · simp only [src] at h; simp only [State.installStart, h, State.rangeGo]
    · simp only [src, dst] at h1 h2; simp only [State.installStart, h1, h2, State.rangeGo]
  · simp only [src] at h; simp only [State.installStart, h, State.rangeGo]
  · simp only [src, dst] at h1 h2; simp only [State.installStart, h1, h2, State.rangeGo]

/-- An install whose ranges fit and whose image has been read: the check of the image, the charge, the fresh pages. -/
theorem installStart_read {id : Nat} {s u : State} {o p : EngOp} {l : List Byte} (hsrc : s.rangeSt o 0 .read (pagesOf o.src o.len) = .fit)
    (hdst : s.rangeSt o 1 .write (pagesOf o.dest o.len) = .fit) (hread : s.engReadAll o (lineRuns (o.len / 64 + 2) o.src o.len) = .bytes u l)
    (hp : u.op? id = some p) (hid : o.id = id) {x : Ctx} (hx : (s.ctx o.ctx).refill s.cyc = x) :
    (¬ImagePasses s o l → s.installStart o = u.engFail o 0x05 0) ∧
    (ImagePasses s o l → s.installStart o = if x.left < o.len then (u.setCtx o.ctx x).engFail o 0x02 0
      else if !u.freshPages o then (u.setCtx o.ctx x).engFail o 0x03 0
      else (u.setCtx o.ctx { x with left := x.left - o.len }).setOp { p with started := true, result := l, charged := o.len }) := by
  subst hid
  have hpass : ∃ b : Bool, (b = true ↔ ImagePasses s o l) ∧ s.installStart o =
      if !b then u.engFail o 0x05 0
      else if x.left < o.len then (u.setCtx o.ctx x).engFail o 0x02 0
      else if !u.freshPages o then (u.setCtx o.ctx x).engFail o 0x03 0
      else (u.setCtx o.ctx { x with left := x.left - o.len }).setOp { p with started := true, result := l, charged := o.len } := by
    simp only [State.installStart, hsrc, hdst, hread, hp, hx, State.rangeGo, Option.getD_some]
    refine ⟨_, ?_, rfl⟩
    unfold ImagePasses
    cases hs : o.keySlot with
    | none => simp
    | some k =>
      simp only [Option.some.injEq, forall_eq']
      cases hkey : (s.ctx o.ctx).key? k with
      | none => simp
      | some key => simp
  obtain ⟨b, hb, heq⟩ := hpass
  refine ⟨fun h => ?_, fun h => ?_⟩
  · rw [heq, Bool.eq_false_iff.mpr (mt hb.mp h)]; exact if_pos (by decide)
  · rw [heq, hb.mpr h]; exact if_neg (by decide)

theorem freshPages_iff (u : State) (o : EngOp) : u.freshPages o = true ↔ ∀ j, j < 4 → u.pagesDue o j = 0 ∨
    u.pagesDue o j + u.reservedPages j + Tab.get 0 u.flash.wear j % 1024 ≤ 1024 * u.flash.cyclesLeft j := by
  simp only [State.freshPages, List.all_eq_true, List.mem_range, Bool.or_eq_true, beq_iff_eq, decide_eq_true_eq]

/-! ### The pages of an install -/

theorem cycled_wear (f : Flash) (st b : Nat) : (f.cycled st b).wear = f.wear := by
  unfold Flash.cycled
  simp only
  split <;> rfl

theorem program_wear (f : Flash) (st : Nat) : Tab.get 0 (f.program st).wear st = Tab.get 0 f.wear st + 1 := by
  unfold Flash.program
  simp only
  split
  · rw [cycled_wear]; exact tab_get_set_self 0 f.wear st (Tab.get 0 f.wear st + 1)
  · exact tab_get_set_self 0 f.wear st (Tab.get 0 f.wear st + 1)

/-- A page that reads back as it was written. -/
theorem installPage_good (s : State) (o : EngOp) (bad2 : Bool) :
    let st := ((s.pageAt o.ctx (o.dest + BitVec.ofNat 64 (16384 * o.done.length))).map fun t => stackOf t.phys).getD 0
    s.installPage o false bad2 = ({ s with flash := s.flash.program st } : State).setOp { o with done := o.done ++ [o.done.length] } := by
  simp only [State.installPage, Bool.not_false, if_true]

/-- A page of a stack that reads back differently: it goes to a spare, where one is left. -/
theorem installPage_bad {s : State} {o : EngOp} {st : Nat} (bad2 : Bool)
    (hst : ((s.pageAt o.ctx (o.dest + BitVec.ofNat 64 (16384 * o.done.length))).map fun t => stackOf t.phys).getD 0 = st) :
    let o1 := { o with done := o.done ++ [o.done.length] }
    let s1 : State := { s with flash := s.flash.program st }
    let s2 : State := { s1 with flash := (s1.flash.retire st (s.flash.openBlock st)).program st }
    s.installPage o true bad2 = if s1.flash.sparesLeft st = 0 then s1.engFail o1 0x03 0
      else if bad2 then s2.engFail o1 0x04 0 else s2.setOp { o1 with nremap := o.nremap + 1 } := by
  subst hst
  rfl

/-! ### Pages swapped in -/

/-- Memory, its poison and the staged pages play no part in where a page stands. -/
theorem pageAt_congr (u : State) (m : Tab Byte) (p : Tab Bool) (f : Flash) (c : BitVec 8) (va : Word) :
    ({ u with mem := m, poison := p, flash := f } : State).pageAt c va = u.pageAt c va := rfl

theorem store_parts (u : State) (a : Nat) (l : List Byte) : u.store a l = { u with mem := (u.store a l).mem, poison := (u.store a l).poison } :=
  (congrArg (fun v : State => { v with mem := (u.store a l).mem, poison := (u.store a l).poison }) (memOnly_store u a l) :)

/-- The state after one page of an install has been stored. -/
def State.pageStored (u : State) (t : Tgt) (d : List Byte) : State :=
  (u.store t.phys (d.take 16384)).setStaged (Tab.del (u.store t.phys (d.take 16384)).flash.staged (flashPage t.phys))

theorem pageStored_pageAt (u : State) (t : Tgt) (d : List Byte) (c : BitVec 8) (va : Word) : (u.pageStored t d).pageAt c va = u.pageAt c va := by
  unfold State.pageStored
  rw [store_parts]
  exact pageAt_congr u _ _ _ c va

theorem pageStored_staged (u : State) (t : Tgt) (d : List Byte) (p : Nat) :
    (u.pageStored t d).staged? p = if p = flashPage t.phys then none else u.staged? p := by
  unfold State.pageStored
  rw [store_parts]
  exact tab_find_del u.flash.staged _ _

theorem pageStored_rdByte (u : State) (t : Tgt) (d : List Byte) (b : Nat) :
    (u.pageStored t d).rdByte b = if t.phys ≤ b ∧ b < t.phys + (d.take 16384).length then (d.take 16384).getD (b - t.phys) 0 else u.rdByte b :=
  rdByte_store u t.phys b (d.take 16384)

theorem swapPages_cons_some {u : State} {c : BitVec 8} {va : Word} {t : Tgt} (h : u.pageAt c va = some t) (l : List Word) (d : List Byte) :
    u.swapPages c (va :: l) d = (u.pageStored t d).swapPages c l (d.drop 16384) := by
  rw [State.swapPages, h]; rfl

theorem swapPages_cons_none {u : State} {c : BitVec 8} {va : Word} (h : u.pageAt c va = none) (l : List Word) (d : List Byte) :
    u.swapPages c (va :: l) d = u.swapPages c l (d.drop 16384) := by
  rw [State.swapPages, h]

/-- Outside the pages of a list, bytes read as before, and a page that is not staged stays so. -/
theorem swapPages_keeps (c : BitVec 8) (l : List Word) (u : State) (d : List Byte) :
    (∀ b, (∀ a ∈ l, ∀ t, u.pageAt c a = some t → b < t.phys ∨ t.phys + 16384 ≤ b) → (u.swapPages c l d).rdByte b = u.rdByte b) ∧
      ∀ p, u.staged? p = none → (u.swapPages c l d).staged? p = none := by
  induction l generalizing u d with
  | nil => exact ⟨fun _ _ => rfl, fun _ h => h⟩
  | cons va l ih =>
    cases hva : u.pageAt c va with
    | none =>
      rw [swapPages_cons_none hva]
      exact ⟨fun b hb => (ih u _).1 b fun a ha => hb a (List.mem_cons_of_mem _ ha), (ih u _).2⟩
    | some t =>
      rw [swapPages_cons_some hva]
      obtain ⟨h1, h2⟩ := ih (u.pageStored t d) (d.drop 16384)
      refine ⟨fun b hb => (h1 b fun a ha t' ht' => ?_).trans ?_, fun p hp => h2 p ?_⟩
      · rw [pageStored_pageAt] at ht'
        exact hb a (List.mem_cons_of_mem _ ha) t' ht'
      · have hout := hb va List.mem_cons_self t hva
        have hlen : (d.take 16384).length ≤ 16384 := by rw [List.length_take]; exact Nat.min_le_left _ _
        rw [pageStored_rdByte, if_neg (by omega)]
      · rw [pageStored_staged]; split
        · rfl
        · exact hp

/-- Every page of a list of pages apart from one another holds its part of the bytes, and has no staged copy. -/
theorem swapPages_stores (c : BitVec 8) (l : List Word) (u : State) (d : List Byte) (hl : l.Nodup)
    (hapart : ∀ a ∈ l, ∀ b ∈ l, ∀ ta tb, u.pageAt c a = some ta → u.pageAt c b = some tb → a ≠ b → ta.phys + 16384 ≤ tb.phys ∨ tb.phys + 16384 ≤ ta.phys)
    (k : Nat) (a : Word) (t : Tgt) (hk : l[k]? = some a) (ht : u.pageAt c a = some t) :
    (u.swapPages c l d).staged? (flashPage t.phys) = none ∧
      ∀ i, i < 16384 → 16384 * k + i < d.length → (u.swapPages c l d).rdByte (t.phys + i) = d.getD (16384 * k + i) 0 := by
  induction l generalizing u d k with
  | nil => simp at hk
  | cons va l ih =>
    obtain ⟨hva, hl'⟩ := List.nodup_cons.mp hl
    cases k with
    | zero =>
      obtain rfl : va = a := by simpa using hk
      rw [swapPages_cons_some ht]
      obtain ⟨h1, h2⟩ := swapPages_keeps c l (u.pageStored t d) (d.drop 16384)
      refine ⟨h2 _ (by rw [pageStored_staged, if_pos rfl]), fun i hi hlen => (h1 _ fun b hb tb htb => ?_).trans ?_⟩
      · rw [pageStored_pageAt] at htb
        have := hapart va List.mem_cons_self b (List.mem_cons_of_mem _ hb) t tb ht htb fun e => hva (e ▸ hb)
        omega
      · have hlt : i < d.length := by omega
        rw [pageStored_rdByte, if_pos (by rw [List.length_take]; omega), Nat.add_sub_cancel_left, Nat.mul_zero, Nat.zero_add,
          List.getD_eq_getElem?_getD, List.getElem?_take, if_pos hi, List.getD_eq_getElem?_getD]
    | succ k =>
      have hk' : l[k]? = some a := by simpa using hk
      have hlen : 16384 * (k + 1) = 16384 + 16384 * k := by omega
      have hget : ∀ i, (d.drop 16384).getD (16384 * k + i) 0 = d.getD (16384 * (k + 1) + i) 0 := fun i => by
        rw [List.getD_eq_getElem?_getD, List.getElem?_drop, List.getD_eq_getElem?_getD, hlen, Nat.add_assoc]
      have hdrop : ∀ i, 16384 * (k + 1) + i < d.length → 16384 * k + i < (d.drop 16384).length := fun i h => by
        rw [List.length_drop]; omega
      cases hv : u.pageAt c va with
      | none =>
        rw [swapPages_cons_none hv]
        obtain ⟨h1, h2⟩ := ih u (d.drop 16384) hl' (fun x hx y hy => hapart x (List.mem_cons_of_mem _ hx) y (List.mem_cons_of_mem _ hy)) k hk' ht
        exact ⟨h1, fun i hi h => (h2 i hi (hdrop i h)).trans (hget i)⟩
      | some t0 =>
        rw [swapPages_cons_some hv]
        obtain ⟨h1, h2⟩ := ih (u.pageStored t0 d) (d.drop 16384) hl' (fun x hx y hy tx ty hx' hy' => by
            rw [pageStored_pageAt] at hx' hy'
            exact hapart x (List.mem_cons_of_mem _ hx) y (List.mem_cons_of_mem _ hy) tx ty hx' hy') k hk' (by rw [pageStored_pageAt]; exact ht)
        exact ⟨h1, fun i hi h => (h2 i hi (hdrop i h)).trans (hget i)⟩

/-! ### Status versions (R350) -/

/-- The state in which an install or a stage ends with its version. -/
def State.flashEnded (y : State) (o p : EngOp) (t : Tgt) (bad : Bool) (entry n code : Nat) : State :=
  ((y.setOp { p with live := false, result := [], entry := entry }).noteEnded o.id).statusMade o t bad (statusValue n code)

section
variable {id : Nat} {s z : State} {o : EngOp} {t : Tgt} {lost : Bool} (ho : s.op? id = some o) (hlive : o.live = true) (hw : o.pubWait = none)
  (ht : s.statusTgt o = some t) (hlay : s.layerHeld t.pw t.off = false) (hfull : s.vFull t.line = false)
  (hmeet : s.meet (engWho o.id o.sid) t 8 = (if lost then .bad z else .go z))
include ht hlay hfull hmeet

/-- A status version with an effect, for an operation given as it ends. -/
theorem statusVersion_made (st : EngSt) (status : BitVec 8) (n code : Nat) (f : State → State) :
    s.statusVersion { o with st := st, status := status } (statusValue n code) f =
      (f z).flashEnded o { o with st := st, status := status } t lost (z.vNext t.line) n code := by
  have ht' : s.statusTgt { o with st := st, status := status } = some t := ht
  cases lost with
  | false =>
    rw [if_neg Bool.false_ne_true] at hmeet
    simp only [State.statusVersion, ht', hlay, hfull, hmeet, Bool.or_self, Bool.false_eq_true, if_false] <;> rfl
  | true =>
    rw [if_pos rfl] at hmeet
    simp only [State.statusVersion, ht', hlay, hfull, hmeet, Bool.or_self, Bool.false_eq_true, if_false] <;> rfl

include ho hlive hw

theorem installFinish_whole (hk : o.kind = .inst) (hb : s.pubBefore o = false) (hwd : s.writesDone o.sid = true) (hst : o.st = .running)
    (hs : o.started = true) (hd : o.len / 16384 ≤ o.done.length) (hr : s.rangeSt o 1 .write (pagesOf o.dest o.len) = .fit) :
    let code := if o.nremap = 0 then 0 else 1
    exec (.installFinish id) s = .next ((z.swapPages o.ctx (pagesOf o.dest o.len) o.result).flashEnded o
      { o with st := .complete, status := BitVec.ofNat 8 code } t lost (z.vNext t.line) o.nremap code) := by
  intro code
  have hwhole : (o.st == .running && o.started && decide (o.len / 16384 ≤ o.done.length)) = true := by
    rw [hst, hs, decide_eq_true hd]; rfl
  have hgo : ¬(o.kind ≠ .inst ∨ !o.live ∨ o.pubWait.isSome ∨ !(true || o.st == .failed) ∨ s.pubBefore o ∨ !s.writesDone o.sid) := by
    simp [hk, hlive, hw, hb, hwd]
  show execInstallFinish id s = _
  simp only [execInstallFinish, ho, hwhole, if_neg hgo, if_true]
  refine (if_neg fun h => h.2 hr).trans ?_
  exact congrArg Host.Outcome.next (statusVersion_made ht hlay hfull hmeet .complete (BitVec.ofNat 8 code) o.nremap code fun u =>
    u.swapPages o.ctx (pagesOf o.dest o.len) o.result)

theorem installFinish_failed (hk : o.kind = .inst) (hb : s.pubBefore o = false) (hwd : s.writesDone o.sid = true) (hst : o.st = .failed) :
    exec (.installFinish id) s = .next ((z.refund o).flashEnded o
      { o with st := .failed, status := BitVec.ofNat 8 o.status.toNat } t lost (z.vNext t.line) o.nremap o.status.toNat) := by
  have hwhole : (o.st == .running && o.started && decide (o.len / 16384 ≤ o.done.length)) = false := by rw [hst]; rfl
  have hgo : ¬(o.kind ≠ .inst ∨ !o.live ∨ o.pubWait.isSome ∨ !(false || o.st == .failed) ∨ s.pubBefore o ∨ !s.writesDone o.sid) := by
    simp [hk, hlive, hw, hb, hwd, hst]
  show execInstallFinish id s = _
  simp only [execInstallFinish, ho, hwhole, if_neg hgo, Bool.false_eq_true, if_false]
  refine (if_neg fun h => h.1).trans ?_
  exact congrArg Host.Outcome.next (statusVersion_made ht hlay hfull hmeet .failed (BitVec.ofNat 8 o.status.toNat) o.nremap o.status.toNat fun u => u.refund o)

theorem stageFinish_ends (hk : o.kind = .stage) (hst : o.st = .complete ∨ o.st = .failed) :
    exec (.stageFinish id) s = .next (z.flashEnded o o t lost (z.vNext t.line) 0 o.status.toNat) := by
  have hgo : ¬(o.kind ≠ .stage ∨ !o.live ∨ o.pubWait.isSome ∨ !(o.st == .complete || o.st == .failed)) := by
    obtain h | h := hst <;> simp [hk, hlive, hw, h]
  show execStageFinish id s = _
  simp only [execStageFinish, ho, if_neg hgo]
  exact congrArg Host.Outcome.next (statusVersion_made ht hlay hfull hmeet o.st o.status 0 o.status.toNat fun u => u)

end

theorem statusMade_quiet {y : State} (h : Quiet y) (o : EngOp) (t : Tgt) (v : Word) : y.statusMade o t false v = y.makeVersion t v := by
  unfold State.statusMade
  rw [if_neg Bool.false_ne_true, forget_quiet h.2]

/-! ### Stages (R353) -/

theorem exec_stageBlock {id : Nat} {s u : State} {o : EngOp} (ho : s.op? id = some o) (hk : o.kind = .stage) (hst : o.st = .running)
    (hd : o.done.length < (o.len + 65535) / 65536) (hr : s.rangeSt o 1 .read (pagesOf o.src o.len) = .fit)
    (hroom : o.keySlot = none ∨ o.started = true ∨ s.holdRoom o = true)
    (hu : s.stageAll o (s.blockMark o o.done.length) (o.blockPages o.done.length) = some u) :
    let last := o.done.length + 1 = (o.len + 65535) / 65536
    let v := u.setOp { o with
      started := true, done := o.done ++ [o.done.length], status := if s.blockMark o o.done.length = some false then 0x05 else o.status
      st := if last then .complete else .running }
    exec (.stageBlock id) s = .next (if last then v.noteEnded id else v) := by
  have hgo : ¬(o.kind ≠ .stage ∨ o.st ≠ .running ∨ (o.len + 65535) / 65536 ≤ o.done.length) := by
    simp only [hk, hst, ne_eq, not_true, false_or]; omega
  have hhold : ¬(o.keySlot.isSome ∧ !o.started ∧ !s.holdRoom o) := by
    rintro ⟨h1, h2, h3⟩
    obtain h | h | h := hroom
    · rw [h] at h1; exact nomatch h1
    · rw [h] at h2; exact nomatch h2
    · rw [h] at h3; exact nomatch h3
  show execStageBlock id s = _
  simp only [execStageBlock, ho, if_neg hgo, hr, State.rangeGo, if_neg hhold, hu]

/-! ### The allowance (R347) and the scrub of flash (R428) -/

theorem refill_left (x : Ctx) (cyc : Nat) :
    (x.refill cyc).left = min x.leftMax (x.left + (x.acc + (cyc - x.accAt) * x.leftMax) / dayCyc) := by
  simp only [Ctx.refill]
  generalize (x.acc + (cyc - x.accAt) * x.leftMax) / dayCyc = q
  by_cases h : x.leftMax ≤ x.left + q
  · rw [if_pos h]; exact (min_eq_left h).symm
  · rw [if_neg h]; exact (min_eq_right (Nat.le_of_not_le h)).symm

theorem leftRefill_adds {c : BitVec 8} {s : State} (hf : (s.ctx c).st ≠ .free) (hl : ((s.ctx c).refill s.cyc).left ≠ (s.ctx c).left) :
    goesOn (exec (.leftRefill c) s) fun u =>
      (u.ctx c).left = min (s.ctx c).leftMax ((s.ctx c).left + ((s.ctx c).acc + (s.cyc - (s.ctx c).accAt) * (s.ctx c).leftMax) / dayCyc) ∧
      (∀ d, d ≠ c → u.ctx d = s.ctx d) ∧ KeepsMemory s u :=
  ⟨s.setCtx c ((s.ctx c).refill s.cyc), if_neg (not_or.mpr ⟨hf, hl⟩), by rw [ctx_setCtx_self]; exact refill_left _ _,
    fun _ hd => ctx_setCtx_ne s _ hd, fun _ => rfl⟩

theorem flscrub_clears {m : Master} {v : Word} {s : State} (hw : s.rstWrite m = true)
    (hp : s.scrubsPool (bitsAt v.toNat 0 16) (bitsAt v.toNat 20 16 + 1) = false) : goesOn (exec (.flscrub m v) s) fun u =>
      let gone := inRun (bitsAt v.toNat 0 16 * 2 ^ 24) ((bitsAt v.toNat 20 16 + 1) * 2 ^ 24)
      (∀ p ∈ u.mem, gone p.1 = false) ∧ (∀ a, gone a = false → u.rdByte a = s.rdByte a) ∧
      u.regs.flscrub = some (bitsAt v.toNat 0 16, bitsAt v.toNat 20 16 + 1) := by
  let gone := inRun (bitsAt v.toNat 0 16 * 2 ^ 24) ((bitsAt v.toNat 20 16 + 1) * 2 ^ 24)
  let s1 := s.clearFlash (bitsAt v.toNat 0 16 * 2 ^ 24) ((bitsAt v.toNat 20 16 + 1) * 2 ^ 24)
  refine ⟨{ s1 with regs := { s1.regs with flscrub := some (bitsAt v.toNat 0 16, bitsAt v.toNat 20 16 + 1) } }, if_neg (by simp [hw, hp]),
    fun p hm => ?_, fun a ha => ?_, rfl⟩
  · simpa using (List.mem_filter.mp hm).2
  · exact (tab_get_filterKey blank (fun k => !gone k) s.mem a).trans (if_pos (by rw [show gone a = false from ha]; rfl))

theorem flscrub_refused {m : Master} {v : Word} {s : State} (hw : s.rstWrite m = false) : Waits s (.flscrub m v) :=
  if_pos (by simp [hw])

theorem exec_flscrubDone {s : State} (h : s.regs.flscrub ≠ none) :
    exec .flscrubDone s = .next { s with regs := { s.regs with flscrub := none } } :=
  if_neg (by simpa using h)

/-- Settles O47: staging and its victim, the checks of an install in their order, its pages and their swap, stages, the allowance and the scrub. -/
theorem flashEvents : Obligations.FlashEvents := by
  unfold Obligations.FlashEvents
  intro id st pg bad bad2 c m v s page isFailed runs program
  refine ⟨stagingFill_staged, fun hp hn => ?room, fun w hp h0 hn hw hne => ?full, fun o kind acc l => rangeSt_fit_iff s o kind acc l,
    fun o ⟨ho, hk, hst⟩ hs => ?start, fun o tg ⟨ho, hk, hst'⟩ hs hd ht => ?page, fun o ⟨ho, hk, hst⟩ hs hd => ⟨exec_installPage ho hk hst _ _ hs hd, ?good⟩,
    fun u x l d hl hapart => ⟨fun k a t hk ht => swapPages_stores x l u d hl hapart k a t hk ht, (swapPages_keeps x l u d).1⟩,
    fun o t z lost ho hlive hw ht hlay hfull hmeet => ⟨fun hk hb hwd => ⟨?whole, ?failed⟩, ?staged⟩,
    fun o t v y hq => statusMade_quiet hq o t v, fun o u ho hk hst hd hr hroom hu => exec_stageBlock ho hk hst hd hr hroom hu,
    leftRefill_adds, flscrub_clears, flscrub_refused, exec_flscrubDone⟩
  case room =>
    refine ⟨_, (exec_stagingFill hp).trans (congrArg _ (congrArg (fun r : Option State => r.getD s) (stagePage_room {} hn))), ?_, fun p hne => ?_, rfl⟩
    · exact (tab_find_put s.flash.staged _ _ _).trans (if_pos rfl)
    · exact (tab_find_put s.flash.staged _ _ _).trans (if_neg hne)
  case full =>
    refine ⟨_, (exec_stagingFill hp).trans (congrArg _ (congrArg (fun r : Option State => r.getD s) (stagePage_full {} hp h0 hn hw))), ?_, ?_, fun p hpp hpw => ?_⟩
    · exact (tab_find_put (Tab.del s.flash.staged w) _ _ _).trans (if_pos rfl)
    · exact (tab_find_put (Tab.del s.flash.staged w) _ _ _).trans ((if_neg hne).trans ((tab_find_del s.flash.staged w w).trans (if_pos rfl)))
    · exact (tab_find_put (Tab.del s.flash.staged w) _ _ _).trans ((if_neg hpp).trans ((tab_find_del s.flash.staged w p).trans (if_neg hpw)))
  case start =>
    intro src dst read
    have hexec := exec_installStart ho hk hst bad bad2 hs
    obtain ⟨h1, h2, h3, h4⟩ := installStart_ranges s o
    refine ⟨hexec, fun h => hexec.trans (congrArg _ (h1 h)), fun h => hexec.trans (congrArg _ (h2 h)), fun va f h => hexec.trans (congrArg _ (h3 va f h)),
      fun va f hsrc hdst => hexec.trans (congrArg _ (h4 va f hsrc hdst)), fun hsrc hdst u p l hread hp => ?_⟩
    obtain ⟨g1, g2⟩ := installStart_read hsrc hdst hread hp (id_of_op? ho) rfl
    refine ⟨fun h => hexec.trans (congrArg _ (g1 h)), fun h hlt => hexec.trans (congrArg _ ((g2 h).trans (if_pos hlt))),
      fun h hle hfp => hexec.trans (congrArg _ ((g2 h).trans ((if_neg (Nat.not_lt.mpr hle)).trans (if_pos (by simp [hfp]))))),
      fun h hle hfp => hexec.trans (congrArg _ ((g2 h).trans ((if_neg (Nat.not_lt.mpr hle)).trans (if_neg (by simp [hfp]))))), freshPages_iff u o⟩
  case page =>
    intro j o1 s1 s2
    have hst : ((s.pageAt o.ctx (o.dest + BitVec.ofNat 64 (16384 * o.done.length))).map fun t => stackOf t.phys).getD 0 = j := by
      rw [ht, Option.map_some, Option.getD_some]
    have hgood := installPage_good s o bad2
    rw [hst] at hgood
    refine ⟨program_wear s.flash j, (exec_installPage ho hk hst' _ _ hs hd).trans (congrArg _ hgood),
      fun h => (exec_installPage ho hk hst' _ _ hs hd).trans (congrArg _ ((installPage_bad bad2 hst).trans (if_pos h))),
      fun h => ⟨(exec_installPage ho hk hst' _ _ hs hd).trans (congrArg _ ((installPage_bad true hst).trans ((if_neg h).trans (if_pos rfl)))),
        (exec_installPage ho hk hst' _ _ hs hd).trans (congrArg _ ((installPage_bad false hst).trans ((if_neg h).trans (if_neg Bool.false_ne_true))))⟩⟩
  case good =>
    obtain rfl := id_of_op? ho
    refine ⟨_, (exec_installPage ho hk hst false bad2 hs hd).trans (congrArg _ (installPage_good s o bad2)), ?_, fun _ => rfl⟩
    exact op?_setOp_self (o' := { o with done := o.done ++ [o.done.length] }) ho
  case whole =>
    exact fun hst hs hd hr => installFinish_whole ho hlive hw ht hlay hfull hmeet hk hb hwd hst hs hd hr
  case failed => exact fun hst => installFinish_failed ho hlive hw ht hlay hfull hmeet hk hb hwd hst
  case staged => exact fun hk hst => stageFinish_ends ho hlive hw ht hlay hfull hmeet hk hst

end Sys2Proof.Machine
end


section
/-! PROOFS. The records of trapped threads and the answers of handlers (O48). -/

namespace Sys2Proof.Machine

open Sys2Proof

/-! ### The record of a trap -/

theorem exec_trapRecord {sid : BitVec 8} {s : State} {t : Nat} (hw : (s.sec sid.toNat).th.wait = .record t) (hl : (s.sec sid.toNat).th.live = true)
    (hd : s.writesDone sid.toNat = true) :
    exec (.trapRecord sid) s = .next (((s.newToken.2.modThOf sid.toNat fun h => { h with wait := .answer s.newToken.1 }).addRec
      { ctx := (s.sec sid.toNat).ctx, token := s.newToken.1, trap := true, sid := sid.toNat, cause := (s.sec sid.toNat).th.cause
        task := (s.sec sid.toNat).task
        words := [(s.sec sid.toNat).th.trapVal, (s.sec sid.toNat).th.trapPc,
          recWord2 (((s.task? (s.sec sid.toNat).task).map Task.idx).getD 0) (s.sec sid.toNat).th.cause sid.toNat (s.sec sid.toNat).ctx (2 ^ 7),
          BitVec.ofNat 64 (s.newToken.1.toNat * 2 ^ 32 + t % 2 ^ 32)] }).stopRest (s.sec sid.toNat).task) := by
  show execTrapRecord sid s = _
  simp only [execTrapRecord, hw, hl, hd, Bool.not_true, Bool.or_self, Bool.false_eq_true, if_false]

theorem stopRest_other {u : State} {task : Nat} (h : ∀ t, u.task? task = some t → t.pre ≠ .threads) : u.stopRest task = u := by
  unfold State.stopRest
  split
  · rename_i t ht; exact if_neg (h t ht)
  · rfl

/-! ### Answers that no record waits for -/

section
variable {m : Master} {token : BitVec 32} {s : State}

theorem fltresp_unanswered (h : s.answered m token false = none) : Waits s (.faultRetry m token) ∧ Waits s (.faultFail m token) := by
  refine ⟨?_, ?_⟩
  · show execFaultRetry m token s = _; simp only [execFaultRetry, h]
  · show execFaultFail m token s = _; simp only [execFaultFail, h]

theorem trapresp_unanswered (toff : BitVec 29) (h : s.answered m token true = none) : Waits s (.traprespResume m token) ∧
    Waits s (.traprespSkip m token) ∧ Waits s (.traprespHandle m token toff) ∧ Waits s (.traprespFail m token) := by
  refine ⟨?_, ?_, ?_, ?_⟩
  · show execTraprespResume m token s = _; simp only [execTraprespResume, State.answerTrap, h]
  · show execTraprespSkip m token s = _; simp only [execTraprespSkip, State.answerTrap, h]
  · show execTraprespHandle m token toff s = _; simp only [execTraprespHandle, h]
  · show execTraprespFail m token s = _; simp only [execTraprespFail, h]

/-! ### FLTRESP (R371) -/

variable {r : Rec}

theorem exec_faultRetry (h : s.answered m token false = some r) : exec (.faultRetry m token) s = .next ((s.drop r).resolve r true) := by
  show execFaultRetry m token s = _; simp only [execFaultRetry, h]

theorem exec_faultFail (h : s.answered m token false = some r) : exec (.faultFail m token) s = .next ((s.drop r).resolve r false) := by
  show execFaultFail m token s = _; simp only [execFaultFail, h]

variable {o : EngOp} (hw : r.who = 2) (hf : s.ops.find? (fun o => o.st == .waiting r.token) = some o)
include hw hf

/-- A record of an engine's operation: RETRY lets the operation run on, FAIL fails it with the code of its fault. -/
theorem resolve_engine (retry : Bool) : (s.drop r).resolve r retry =
    if retry then (s.drop r).setOp { o with st := .running }
    else (s.drop r).engFail o (if o.kind = .inst ∨ o.kind = .stage then 0x06 else engCode r.cause) o.failAddr := by
  have hf' : (s.drop r).ops.find? (fun o => o.st == .waiting r.token) = some o := hf
  simp only [State.resolve, hw, hf']

variable (ho : s.op? o.id = some o)
include ho

theorem resolve_retry : let u := (s.drop r).resolve r true
    u.op? o.id = some { o with st := .running } ∧ u.recs = s.recs.erase r ∧ KeepsMemory s u := by
  intro u
  simp only [u, resolve_engine hw hf true, if_true]
  exact ⟨op?_setOp_self (s := s.drop r) (o' := { o with st := .running }) ho, rfl, fun _ => rfl⟩

theorem resolve_fail : let u := (s.drop r).resolve r false
    (∃ p, u.op? o.id = some p ∧ p.st = .failed ∧ p.shadow = []) ∧ u.recs = s.recs.erase r ∧ (s.writtenOf o = none → KeepsMemory s u) := by
  intro u
  simp only [u, resolve_engine hw hf false, Bool.false_eq_true, if_false]
  generalize (if o.kind = .inst ∨ o.kind = .stage then 0x06 else engCode r.cause) = code
  obtain ⟨h1, h2, h3⟩ := setOp_noteEnded (s := s.drop r) (p := { o with st := .failed, status := code, failAddr := o.failAddr, shadow := [] })
    (o := o) ho rfl rfl
  exact ⟨⟨_, h1, rfl, rfl⟩, (congrArg State.recs h2 :), h3⟩

end

/-! ### TRAPRESP (R415) -/

/-- What an answer makes of a sector of the task. -/
def Sector.heldBy (task : Nat) (p : Sector → Bool) (f : Sector → Sector) (x : Sector) : Sector := if x.v ∧ x.task = task ∧ p x then f x else x

/-- Without saved gangs, the answer goes to the sectors of the task that meet the test. -/
theorem modHolder_eq {s : State} (hs : s.saves = []) (task : Nat) (p : Sector → Bool) (f : Sector → Sector) :
    s.modHolder task p f = { s with sectors := s.sectors.map fun q => (q.1, q.2.heldBy task p f) } := by
  unfold State.modHolder
  rw [hs, List.any_nil, if_neg Bool.false_ne_true]
  have : ∀ q : Nat × Sector, (if q.2.v ∧ q.2.task = task ∧ p q.2 then (q.1, f q.2) else q) = (q.1, q.2.heldBy task p f) := fun q => by
    unfold Sector.heldBy; split <;> rfl
  simp only [this]

theorem sec_modHolder {s : State} (hs : s.saves = []) (task : Nat) (p : Sector → Bool) (f : Sector → Sector) (k : Nat) :
    (s.modHolder task p f).sec k = (s.sec k).heldBy task p f := by
  have hdef : Sector.heldBy task p f {} = {} := if_neg (by rintro ⟨h, -⟩; exact nomatch h)
  rw [modHolder_eq hs]
  exact (congrArg (fun d => Tab.get d (s.sectors.map fun q => (q.1, q.2.heldBy task p f)) k) hdef.symm).trans
    (tab_get_map (fun x => x.heldBy task p f) {} s.sectors k)

/-- The answer to a trapped thread: its record goes, and the thread alone changes. -/
theorem answerTrap_answers {m : Master} {token : BitVec 32} {s : State} {r : Rec} {k : Nat} (h : s.answered m token true = some r) (hs : s.saves = [])
    (hv : (s.sec k).v = true) (ht : (s.sec k).task = r.task) (hw : (s.sec k).th.wait = .answer token) (f : Thread → Thread) :
    ∃ u, s.answerTrap m token f = .next u ∧ (u.sec k).th = f (s.sec k).th ∧ u.recs = s.recs.erase r ∧ KeepsMemory s u := by
  let u := (s.drop r).modHolder r.task (fun x => x.awaits token) fun x => { x with th := f x.th }
  have hsec : u.sec k = { s.sec k with th := f (s.sec k).th } :=
    (sec_modHolder (s := s.drop r) hs r.task (fun x => x.awaits token) (fun x => { x with th := f x.th }) k).trans
      (if_pos ⟨hv, ht, by simp only [Sector.awaits, beq_iff_eq]; exact hw⟩)
  have hu := modHolder_eq (s := s.drop r) hs r.task (fun x => x.awaits token) fun x => { x with th := f x.th }
  refine ⟨u, by simp only [State.answerTrap, h, u], congrArg Sector.th hsec, (congrArg State.recs hu :), rdByte_congr (congrArg State.mem hu :)⟩

/-- Settles O48: the record of a trap, and the answers by the kind of record that they name. -/
theorem handlersAnswer : Obligations.HandlersAnswer := by
  unfold Obligations.HandlersAnswer
  intro sid m token toff s k x
  refine ⟨fun t hw hl hd => exec_trapRecord hw hl hd, fun u h => stopRest_other h, fltresp_unanswered, trapresp_unanswered toff,
    fun r h => ⟨exec_faultRetry h, exec_faultFail h, fun o hw hf ho => ⟨⟨_, exec_faultRetry h, resolve_retry hw hf ho⟩, ⟨_, exec_faultFail h, resolve_fail hw hf ho⟩⟩⟩,
    fun r h hs hv ht hw => ⟨?resume, ?skip, ?handle, ?fail⟩⟩
  case resume => exact answerTrap_answers h hs hv ht hw fun t => t.leaveTrap s.cyc t.resumePc
  case skip => exact answerTrap_answers h hs hv ht hw fun t => t.leaveTrap s.cyc (t.trapPc + 8)
  case handle =>
    obtain ⟨u, hu, hth, hrecs, hmem⟩ := answerTrap_answers h hs hv ht hw fun t =>
      { t with pc := BitVec.ofNat 64 (s.textBase r.task + toff.toNat * 8), wait := .none, word := none }
    refine ⟨u, ?_, (congrArg Thread.ts hth :), (congrArg Thread.wait hth :), (congrArg Thread.pc hth :), hrecs, hmem⟩
    show execTraprespHandle m token toff s = _
    simp only [execTraprespHandle, h]
    exact hu
  case fail =>
    show execTraprespFail m token s = _
    simp only [execTraprespFail, h, hs, List.any_nil, Bool.false_eq_true, if_false]

end Sys2Proof.Machine
end

section
/-! PROOFS. The commands of the range table. -/

namespace Sys2Proof.Machine

open Sys2Proof

/-! ### RTCMD -/

section
variable {m : Master} {c : BitVec 8} {i : BitVec 16} {s : State}

theorem rtCommand_waits (h : s.mayWrite m = false ∨ s.regs.rtCmd ≠ none) : Waits s (.rtWrite m c i) ∧ Waits s (.rtClear m c i) ∧ Waits s (.rtRead m c i) := by
  have hc : (!s.mayWrite m || s.regs.rtCmd.isSome) = true := by
    rcases h with h | h
    · rw [h]; rfl
    · rw [Option.isSome_iff_ne_none.mpr h, Bool.or_true]
  exact ⟨if_pos hc, if_pos hc, if_pos hc⟩

/-- A command with its code: what it notes, and that nothing else changes. -/
theorem rtStart_coded (n : Nat) (e : RtEnt) (k : BitVec 8) : let u := s.rtStart c n e k
    u.regs.rtCode = k ∧ u.regs.rtCmd = (if k = 0 then some ⟨c.toNat, n, e⟩ else none) ∧ (k ≠ 0 → u.waking = s.waking) ∧
      { u with regs := { u.regs with rtCode := s.regs.rtCode, rtCmd := s.regs.rtCmd }, waking := s.waking } = s := by
  by_cases hk : k = 0
  · simp only [State.rtStart, if_pos hk]
    exact ⟨rfl, rfl, fun h => absurd hk h, rfl⟩
  · intro u
    have hu : u = { s with regs := { s.regs with rtCode := k, rtCmd := if k = 0 then some ⟨c.toNat, n, e⟩ else none } } := if_neg hk
    rw [hu]
    exact ⟨rfl, rfl, fun _ => rfl, rfl⟩

variable (hm : s.mayWrite m = true) (hr : s.regs.rtCmd = none)
include hm hr

theorem rtCommand_taken : ¬((!s.mayWrite m || s.regs.rtCmd.isSome) = true) := by rw [hm, hr]; decide

theorem exec_rtWrite_entry (hv : (s.regs.rte.setMig false).v = true) :
    exec (.rtWrite m c i) s = .next (s.rtStart c i.toNat (s.regs.rte.setMig false) (s.rtWriteCode c i.toNat (s.regs.rte.setMig false))) :=
  (if_neg (rtCommand_taken hm hr)).trans (if_pos hv)

theorem exec_rtWrite_clear (hv : (s.regs.rte.setMig false).v = false) :
    exec (.rtWrite m c i) s = .next (s.rtStart c i.toNat {} (s.rtClearCode c i.toNat)) :=
  (if_neg (rtCommand_taken hm hr)).trans (if_neg (by rw [hv]; decide))

theorem exec_rtClear : exec (.rtClear m c i) s = .next (s.rtStart c i.toNat {} (s.rtClearCode c i.toNat)) := if_neg (rtCommand_taken hm hr)

theorem exec_rtRead_free (h : (s.ctx c).st = .free) : exec (.rtRead m c i) s = .next { s with regs := { s.regs with rtCode := 1 } } :=
  (if_neg (rtCommand_taken hm hr)).trans (if_pos h)

theorem exec_rtRead (h : (s.ctx c).st ≠ .free) :
    exec (.rtRead m c i) s = .next { s with regs := { s.regs with rtCode := 0, rte := Tab.get {} (s.ctx c).rt i.toNat } } :=
  (if_neg (rtCommand_taken hm hr)).trans (if_neg h)

end

/-! ### The swap (R364) -/

section
variable {s : State} {k : RtCmd} (hk : s.regs.rtCmd = some k)
include hk

theorem exec_rtSwap_waits (h : s.drainedRt (BitVec.ofNat 8 k.ctx) k.idx = false ∨ s.allAwake k.ent.pwOn = false) : Waits s .rtSwap := by
  show execRtSwap s = _
  simp only [execRtSwap, hk]
  exact if_pos (by rcases h with h | h <;> simp [h])

theorem exec_rtSwap (hd : s.drainedRt (BitVec.ofNat 8 k.ctx) k.idx = true) (ha : s.allAwake k.ent.pwOn = true) :
    let u := s.replaceRt (BitVec.ofNat 8 k.ctx) k.idx k.ent
    exec .rtSwap s = .next ({ u with regs := { u.regs with rtCmd := none } } : State).flushRecs.settle := by
  show execRtSwap s = _
  simp only [execRtSwap, hk]
  exact if_neg (by rw [hd, ha]; decide)

end

/-- A sector without its copies of an entry of a context. -/
def Sector.dropEntry (x : Sector) (c : BitVec 8) (idx : Nat) : Sector :=
  if x.ctx = c then
    { x with
      rcache := x.rcache.filter fun k => k != idx
      ports := x.ports.map fun (q : Nat × PortSt) => if q.2.entry = some idx then (q.1, { q.2 with entry := none }) else q }
  else x

theorem sec_dropCopies (s : State) (c : BitVec 8) (idx j : Nat) : (s.dropCopies c idx).sec j = (s.sec j).dropEntry c idx := by
  have hmap : (s.dropCopies c idx).sectors = s.sectors.map fun p => (p.1, p.2.dropEntry c idx) :=
    List.map_congr_left fun p _ => by unfold Sector.dropEntry; split <;> rfl
  have hdef : Sector.dropEntry {} c idx = {} := by unfold Sector.dropEntry; split <;> rfl
  unfold State.sec
  rw [hmap]
  exact (congrArg (fun d => Tab.get d (s.sectors.map fun p => (p.1, p.2.dropEntry c idx)) j) hdef.symm).trans
    (tab_get_map (fun x => x.dropEntry c idx) {} s.sectors j)

theorem dropEntry_ctx (x : Sector) (c : BitVec 8) (idx : Nat) : (x.dropEntry c idx).ctx = x.ctx := by
  unfold Sector.dropEntry; split <;> rfl

theorem dropEntry_rcache {x : Sector} {c : BitVec 8} (idx : Nat) (h : x.ctx = c) : idx ∉ (x.dropEntry c idx).rcache := by
  simp [Sector.dropEntry, h]

theorem ctx_replaceRt (s : State) (c : BitVec 8) (idx : Nat) (e : RtEnt) :
    ((s.replaceRt c idx e).ctx c).rt = if e.v then Tab.put (s.ctx c).rt idx e else Tab.del (s.ctx c).rt idx :=
  congrArg Ctx.rt (ctx_setCtx_self s c { s.ctx c with rt := if e.v then Tab.put (s.ctx c).rt idx e else Tab.del (s.ctx c).rt idx })

/-- The entry's new value, and the other entries as they were. -/
theorem find_replaceRt (s : State) (c : BitVec 8) (idx : Nat) (e : RtEnt) :
    Tab.find ((s.replaceRt c idx e).ctx c).rt idx = (if e.v then some e else none) ∧
      ∀ j, j ≠ idx → Tab.find ((s.replaceRt c idx e).ctx c).rt j = Tab.find (s.ctx c).rt j := by
  rw [ctx_replaceRt]
  cases e.v
  · exact ⟨(tab_find_del _ _ _).trans (if_pos rfl), fun j hj => (tab_find_del _ _ _).trans (if_neg hj)⟩
  · exact ⟨(tab_find_put _ _ _ _).trans (if_pos rfl), fun j hj => (tab_find_put _ _ _ _).trans (if_neg hj)⟩

/-- Where no record and no launch waits, the swap is the replacement alone. -/
theorem rtSwap_quiet {s : State} {k : RtCmd} (hk : s.regs.rtCmd = some k) (hd : s.drainedRt (BitVec.ofNat 8 k.ctx) k.idx = true)
    (ha : s.allAwake k.ent.pwOn = true) (hr : s.recs = []) (hl : NoLaunchWaits s) :
    let u := s.replaceRt (BitVec.ofNat 8 k.ctx) k.idx k.ent
    exec .rtSwap s = .next { u with regs := { u.regs with rtCmd := none } } := by
  intro u
  have hrecs : ({ u with regs := { u.regs with rtCmd := none } } : State).recs = [] := hr
  rw [exec_rtSwap hk hd ha, flushRecs_empty hrecs]
  exact congrArg _ (settleAt_noWaits (s := { u with regs := { u.regs with rtCmd := none } }) (NoLaunchWaits.of_launches hl rfl) [])

/-- Settles O49: each command gives its code, and the swap puts the entry in force. -/
theorem rangeTableCommands : Obligations.RangeTableCommands := by
  unfold Obligations.RangeTableCommands
  intro m c i s e x n coded clear
  refine ⟨rtCommand_waits, fun hm hr => ⟨fun hv => ⟨_, exec_rtWrite_entry hm hr hv, rtStart_coded _ _ _⟩,
    fun hv => ⟨_, exec_rtWrite_clear hm hr hv, rtStart_coded _ _ _⟩, ⟨_, exec_rtClear hm hr, rtStart_coded _ _ _⟩,
    exec_rtRead_free hm hr, exec_rtRead hm hr⟩, fun k hk => ⟨exec_rtSwap_waits hk, exec_rtSwap hk, fun hd ha hr hl => ?_⟩⟩
  obtain ⟨hself, hne⟩ := find_replaceRt s (BitVec.ofNat 8 k.ctx) k.idx k.ent
  refine ⟨_, rtSwap_quiet hk hd ha hr hl, rfl, fun _ => rfl, hself, hne, fun j hj => ?_⟩
  let t := s.modCtx (BitVec.ofNat 8 k.ctx) fun x => { x with rt := if k.ent.v then Tab.put x.rt k.idx k.ent else Tab.del x.rt k.idx }
  have hsec := sec_dropCopies t (BitVec.ofNat 8 k.ctx) k.idx j
  have hctx : (t.sec j).ctx = BitVec.ofNat 8 k.ctx := (dropEntry_ctx _ _ _).symm.trans ((congrArg Sector.ctx hsec).symm.trans hj)
  exact fun hmem => dropEntry_rcache k.idx hctx (hsec ▸ hmem)

end Sys2Proof.Machine
end

section
/-! PROOFS. Contexts, handle slots and keys. -/

namespace Sys2Proof.Machine

open Sys2Proof

section
variable {m : Master} {c slot : BitVec 8} {kslot : BitVec 4} {v : Word} {s : State}

/-! ### Contexts (R378, R380) -/

theorem objectCommand_waits (h : s.mayWrite m = false) : Waits s (.ctxEnd m c v) ∧ Waits s (.handleLoad m c slot) ∧
    Waits s (.handleUnload m c slot) ∧ Waits s (.keyLoad m c kslot) ∧ Waits s (.keyClear m c kslot) := by
  have h1 : (!s.mayWrite m) = true := by rw [h]; rfl
  have h2 : (!s.mayWrite m || s.regs.hcmd.isSome) = true := by rw [h1, Bool.true_or]
  exact ⟨if_pos h1, if_pos h2, if_pos h2, if_pos h1, if_pos h1⟩

theorem exec_ctxCreate_waits (h : m.toNat > 4 ∨ s.own.owner ≠ m.toNat) : Waits s (.ctxCreate m c v) := if_pos h

theorem exec_ctxCreate (hm : m.toNat ≤ 4) (ho : s.own.owner = m.toNat) :
    let x := (s.ctx c).control v
    let s1 := s.modCtx c fun x => x.control v
    let k : BitVec 8 := if x.st ≠ .free then 1 else if s1.poolsMeet c then 2 else if s1.badConfig c then 3 else 0
    goesOn (exec (.ctxCreate m c v) s) fun u => KeepsMemory s u ∧ (∀ d, d ≠ c → u.ctx d = s.ctx d) ∧
      (k = 0 → u.ctx c = { x with st := .active, res := 0, left := x.leftMax, acc := 0, accAt := s.cyc }) ∧ (k ≠ 0 → u.ctx c = { x with res := k }) := by
  intro x s1 k
  have hx : s1.ctx c = x := ctx_setCtx_self s c x
  have hk : s1.createCode c = k := by simp only [State.createCode, hx, k]
  let f : Ctx → Ctx := fun x => if k = 0 then { x with st := .active, res := 0, left := x.leftMax, acc := 0, accAt := s.cyc } else { x with res := k }
  have hself : (s1.modCtx c f).ctx c = f x := (ctx_setCtx_self s1 c _).trans (congrArg f hx)
  refine ⟨s1.modCtx c f, ?_, fun _ => rfl, fun d hd => (ctx_setCtx_ne s1 _ hd).trans (ctx_setCtx_ne s _ hd),
    fun h => hself.trans (if_pos h), fun h => hself.trans (if_neg h)⟩
  show execCtxCreate m c v s = _
  rw [execCtxCreate, if_neg (by rintro (h | h); exacts [absurd hm (Nat.not_le.mpr h), h ho])]
  simp only [s1] at hk
  simp only [hk] <;> rfl

variable (hm : s.mayWrite m = true)
include hm

theorem ownerWrite_taken : ¬((!s.mayWrite m) = true) := by rw [hm]; decide

theorem exec_ctxEnd_active (h : ((s.ctx c).control v).st = .active) :
    exec (.ctxEnd m c v) s = .next ((s.modCtx c fun x => x.control v).endCtx c).settle := by
  have hx : (s.modCtx c fun x => x.control v).ctx c = (s.ctx c).control v := ctx_setCtx_self s c _
  exact (if_neg (ownerWrite_taken hm)).trans (if_pos (by rw [hx]; exact h))

theorem exec_ctxEnd_refused (h : ((s.ctx c).control v).st ≠ .active) :
    exec (.ctxEnd m c v) s = .next ((s.modCtx c fun x => x.control v).modCtx c fun x => { x with res := 1 }) := by
  have hx : (s.modCtx c fun x => x.control v).ctx c = (s.ctx c).control v := ctx_setCtx_self s c _
  exact (if_neg (ownerWrite_taken hm)).trans (if_neg (by rw [hx]; exact h))

theorem exec_keyLoad : exec (.keyLoad m c kslot) s =
    .next { (s.modCtx c fun x => { x with keys := Tab.put x.keys kslot.toNat s.regs.key }) with regs := { s.regs with key := 0 } } :=
  if_neg (ownerWrite_taken hm)

theorem exec_keyClear : exec (.keyClear m c kslot) s = .next (s.modCtx c fun x => { x with keys := Tab.del x.keys kslot.toNat }) :=
  if_neg (ownerWrite_taken hm)

/-! ### Handle commands (R384) -/

variable (hr : s.regs.hcmd = none)
include hr

theorem handleCommand_taken : ¬((!s.mayWrite m || s.regs.hcmd.isSome) = true) := by rw [hm, hr]; decide

theorem handleCommand_inactive (h : (s.ctx c).st ≠ .active) :
    exec (.handleLoad m c slot) s = .next (s.handleCode 0x23) ∧ exec (.handleUnload m c slot) s = .next (s.handleCode 0x23) :=
  ⟨(if_neg (handleCommand_taken hm hr)).trans (if_pos h), (if_neg (handleCommand_taken hm hr)).trans (if_pos h)⟩

variable (ha : (s.ctx c).st = .active)
include ha

theorem exec_handleLoad_taken (h : (Tab.get {} (s.ctx c).handles slot.toNat).st ≠ .empty) : exec (.handleLoad m c slot) s = .next (s.handleCode 0x20) :=
  (if_neg (handleCommand_taken hm hr)).trans ((if_neg (not_not_intro ha)).trans (if_pos h))

theorem exec_handleUnload_unsealed (h : (Tab.get {} (s.ctx c).handles slot.toNat).st ≠ .sealed) : exec (.handleUnload m c slot) s = .next (s.handleCode 0) :=
  (if_neg (handleCommand_taken hm hr)).trans ((if_neg (not_not_intro ha)).trans (if_pos h))

end

theorem handle_setHandle (s : State) (c slot : BitVec 8) (h : Handle) : Tab.get {} ((s.setHandle c slot h).ctx c).handles slot.toNat = h := by
  have hx : (s.setHandle c slot h).ctx c = { s.ctx c with handles := Tab.set {} (s.ctx c).handles slot.toNat h } := ctx_setCtx_self s c _
  rw [hx]
  exact tab_get_set_self _ _ _ _

section
variable {m : Master} {c slot : BitVec 8} {s : State} (hm : s.mayWrite m = true) (hr : s.regs.hcmd = none) (ha : (s.ctx c).st = .active)
include hm hr ha

theorem exec_handleLoad (h : (Tab.get {} (s.ctx c).handles slot.toNat).st = .empty) :
    goesOn (exec (.handleLoad m c slot) s) fun u => u.regs.hcmd = some (c.toNat, slot.toNat) ∧
      (∃ d, s.cyc < d ∧ u.regs.hload = some ⟨d, s.regs.hsrc, s.regs.hva, s.regs.hdata⟩) ∧
      Tab.get {} (u.ctx c).handles slot.toNat = { st := .loading } ∧ (∀ k, k ≠ c → u.ctx k = s.ctx k) ∧ KeepsMemory s u :=
  ⟨_, (if_neg (handleCommand_taken hm hr)).trans ((if_neg (not_not_intro ha)).trans (if_neg (not_not_intro h))), rfl, ⟨_, by omega, rfl⟩,
    handle_setHandle s c slot _, fun _ hk => ctx_setCtx_ne s _ hk, fun _ => rfl⟩

theorem exec_handleUnload (h : (Tab.get {} (s.ctx c).handles slot.toNat).st = .sealed) :
    goesOn (exec (.handleUnload m c slot) s) fun u => u.regs.hcmd = some (c.toNat, slot.toNat) ∧
      Tab.get {} (u.ctx c).handles slot.toNat = { Tab.get {} (s.ctx c).handles slot.toNat with st := .unloading } ∧ KeepsMemory s u :=
  ⟨_, (if_neg (handleCommand_taken hm hr)).trans ((if_neg (not_not_intro ha)).trans (if_neg (not_not_intro h))), rfl, handle_setHandle s c slot _, fun _ => rfl⟩

end

/-! ### The steps of a LOAD -/

/-- The state that a read of a context's memory has come to. -/
def VaGot.state : VaGot → State
  | .bytes u _ => u
  | .wait u => u
  | .fault u => u

/-- The device's reads change only what errors note. -/
theorem errFrame_readVa (s : State) (c : BitVec 8) (l : List Piece) : ErrFrame s (s.readVa c l).state := by
  induction l generalizing s with
  | nil => exact .refl s
  | cons p l ih =>
    cases p with
    | mem va n =>
      unfold State.readVa
      split
      · exact .refl s
      · next t _ =>
        split
        · split
          · next u hu => exact errFrame_extLink hu
          · exact .refl s
        · split
          · exact .refl s
          · have hmeet := errFrame_meet s whoLoad t n
            split
            · next u hu => rw [hu] at hmeet; exact hmeet
            · next u hu => rw [hu] at hmeet; exact hmeet
            · next u hu =>
              rw [hu] at hmeet
              split
              · exact hmeet
              · have hrest := ih u
                split
                · next v k hv => rw [hv] at hrest; exact hmeet.trans hrest
                · exact hmeet.trans hrest
      · exact .refl s
    | _ => exact ih s

theorem readRun_keepsMemory {s : State} {c : BitVec 8} {va : Word} {n : Nat} {r : VaGot} (h : s.readRun c va n = r) : KeepsMemory s r.state :=
  rdByte_congr (h ▸ (errFrame_readVa s c _).mem)

theorem runDue_loadStep {s u : State} (h : s.loadStep = u) : runDue .loadStep s = .next u := h ▸ rfl

/-- A LOAD that is over: its command and the slot as it leaves them. -/
theorem loadOver_ends (s : State) (c slot : BitVec 8) (h : Handle) (k : BitVec 8) : let u := s.loadOver c slot h k
    u.regs.hcmd = none ∧ u.regs.hload = none ∧ u.regs.hcode = k ∧ u.regs.hrep = s.regs.hrep ∧ Tab.get {} (u.ctx c).handles slot.toNat = h ∧ KeepsMemory s u :=
  ⟨rfl, rfl, rfl, rfl, handle_setHandle { s with regs := { s.regs with hcode := k, hcmd := none, hload := none } } c slot h, fun _ => rfl⟩

section
variable {c slot : BitVec 8} {s : State} {r : LoadCmd} (hc : s.regs.hcmd = some (c.toNat, slot.toNat)) (hl : s.regs.hload = some r)
include hc hl

theorem loadStep_inactive (h : (s.ctx c).st ≠ .active) : s.loadStep = s.loadOver c slot {} 0x23 := by
  simp only [State.loadStep, hc, hl, BitVec.ofNat_toNat, BitVec.setWidth_eq, if_pos h]

variable (ha : (s.ctx c).st = .active)
include ha

theorem loadStep_wait {u : State} (h : s.readRun c r.src 64 = .wait u) : s.loadStep = u.loadLater r := by
  simp only [State.loadStep, hc, hl, BitVec.ofNat_toNat, BitVec.setWidth_eq, ha, ne_eq, not_true_eq_false, if_false, h]

theorem loadStep_fault {u : State} (h : s.readRun c r.src 64 = .fault u) : s.loadStep = u.loadOver c slot {} 0x22 := by
  simp only [State.loadStep, hc, hl, BitVec.ofNat_toNat, BitVec.setWidth_eq, ha, ne_eq, not_true_eq_false, if_false, h]

variable {b t : List Byte} {s1 s2 : State} (hb : s.readRun c r.src 64 = .bytes s1 b) (ht : s1.readRun c r.src (64 + 32 * leAt b 8 2) = .bytes s2 t)
  (hd : ((secTable t).any fun e => e.kind == 0x02) = false)
include hb ht hd

theorem loadStep_held (h : s2.codeComing c r.va.toNat (leAt b 16 8) = true ∨ s2.rangeHeld c r.va.toNat (leAt b 16 8) = true) :
    s.loadStep = s2.loadLater r := by
  have hh : (s2.codeComing c r.va.toNat (leAt b 16 8) || s2.rangeHeld c r.va.toNat (leAt b 16 8)) = true := by
    rcases h with h | h <;> simp [h]
  simp only [State.loadStep, hc, hl, BitVec.ofNat_toNat, BitVec.setWidth_eq, ha, ne_eq, not_true_eq_false, if_false, hb, ht, hd, hh,
    Bool.true_or, if_true]

variable (h1 : s2.codeComing c r.va.toNat (leAt b 16 8) = false) (h2 : s2.rangeHeld c r.va.toNat (leAt b 16 8) = false)
include h1 h2

theorem loadStep_badCode (h : s2.codeOk c r.va (leAt b 16 8) = false) : s.loadStep = s2.loadOver c slot {} 0x21 := by
  simp only [State.loadStep, hc, hl, BitVec.ofNat_toNat, BitVec.setWidth_eq, ha, ne_eq, not_true_eq_false, if_false, hb, ht, hd, h1, h2,
    Bool.false_and, Bool.or_self, Bool.false_eq_true, h, Bool.not_false, Bool.true_or, if_true]

theorem loadStep_bytes (h : s2.codeOk c r.va (leAt b 16 8) = true) {l : List Byte} {s3 : State} (hs : s2.readRun c r.src (leAt b 16 8) = .bytes s3 l) :
    s.loadStep = s3.loadBytes r c slot l (secOf t 0x02) false := by
  simp only [State.loadStep, hc, hl, BitVec.ofNat_toNat, BitVec.setWidth_eq, ha, ne_eq, not_true_eq_false, if_false, hb, ht, hd, h1, h2,
    Bool.false_and, Bool.or_self, Bool.false_eq_true, h, Bool.not_true, hs]

end

section
variable {s : State} {c slot : BitVec 8} {r : LoadCmd} {l : List Byte} (data : SecEnt)

theorem loadBytes_waits (h : (s.putRun c (s.vaTgts c r.va l.length) l).2 = false) :
    s.loadBytes r c slot l data false = (s.putRun c (s.vaTgts c r.va l.length) l).1.loadLater r := by
  simp only [State.loadBytes, h, Bool.not_false, if_true]

variable {o : Obj} (h : (s.putRun c (s.vaTgts c r.va l.length) l).2 = true)
include h

theorem loadBytes_refused {w : Word} (hl : loadObj r.va l = (o, some w)) : let p := (s.putRun c (s.vaTgts c r.va l.length) l).1
    s.loadBytes r c slot l data false = ({ p with regs := { p.regs with hrep := w } } : State).loadOver c slot {} 0x01 := by
  simp only [State.loadBytes, h, hl, Bool.not_true, Bool.false_eq_true, if_false]

theorem loadBytes_sealed (hl : loadObj r.va l = (o, none)) : let p := (s.putRun c (s.vaTgts c r.va l.length) l).1
    s.loadBytes r c slot l data false = ({ p with regs := { p.regs with hrep := loadReport 0 none none } } : State).loadOver c slot
      ⟨.sealed, o, s.segsOf c r.va.toNat ((l.length + 65535) / 65536 * 65536)⟩ 0x00 := by
  simp only [State.loadBytes, h, hl, Bool.not_true, Bool.false_eq_true, if_false]

end

/-! ### UNLOAD and the freeing of a context -/

section
variable {c slot : BitVec 8} {s : State} (hc : s.regs.hcmd = some (c.toNat, slot.toNat))
include hc

theorem exec_unloadDone_waits (h : s.handleHeld c slot.toNat = true) : Waits s .unloadDone := by
  show execUnloadDone s = _
  simp only [execUnloadDone, hc, BitVec.ofNat_toNat, BitVec.setWidth_eq, h, Bool.true_or, if_true]

theorem exec_unloadDone (h : s.handleHeld c slot.toNat = false) (hu : (Tab.get {} (s.ctx c).handles slot.toNat).st = .unloading) :
    exec .unloadDone s = .next { s.setHandle c slot {} with regs := { s.regs with hcmd := none, hcode := 0 } } := by
  show execUnloadDone s = _
  simp only [execUnloadDone, hc, BitVec.ofNat_toNat, BitVec.setWidth_eq]
  exact if_neg (by rw [h, hu]; decide)

end

/-- What a removal of copies and a waking of channels leave: nothing else of the machine changes. -/
def CopiesOnly (s u : State) : Prop :=
  ({ u with sectors := s.sectors, edgeTlb := s.edgeTlb, asleep := s.asleep, waking := s.waking, lastUse := s.lastUse } : State) = s

theorem CopiesOnly.trans {s t u : State} (h : CopiesOnly s t) (g : CopiesOnly t u) : CopiesOnly s u :=
  (congrArg (fun x : State => { x with
    sectors := s.sectors, edgeTlb := s.edgeTlb, asleep := s.asleep, waking := s.waking, lastUse := s.lastUse }) g :).trans h

/-- A context's entries no longer copied, and their channels no longer covered. -/
def State.uncovered (s : State) (c : BitVec 8) : State := (s.ctx c).rt.foldl (fun (s : State) p => s.wake p.2.pwOn (3 * 2 ^ 28)) (s.dropAllCopies c)

theorem copiesOnly_uncovered (s : State) (c : BitVec 8) : CopiesOnly s (s.uncovered c) :=
  have hdrop : CopiesOnly s (s.dropAllCopies c) :=
    foldl_rel (R := CopiesOnly) (f := fun (s : State) (p : Nat × RtEnt) => s.dropCopies c p.1) (fun _ => rfl) .trans (fun _ _ => rfl) _ _
  hdrop.trans (foldl_rel (R := CopiesOnly) (f := fun (s : State) (p : Nat × RtEnt) => s.wake p.2.pwOn (3 * 2 ^ 28)) (fun _ => rfl) .trans (fun _ _ => rfl) _ _)

theorem clearTables_lists (s : State) (c : BitVec 8) :
    (s.clearTables c).tasks = (s.uncovered c).tasks ∧ (s.clearTables c).ops = (s.uncovered c).ops ∧ (s.clearTables c).saves = (s.uncovered c).saves :=
  ⟨rfl, rfl, rfl⟩

theorem ctx_clearTables (s : State) (c : BitVec 8) : (s.clearTables c).ctx c = { (s.uncovered c).ctx c with handles := [], keys := [], rt := [] } :=
  ctx_setCtx_self (s.uncovered c) c _

theorem clearPools_lists (s : State) (c : BitVec 8) :
    (s.clearPools c).tasks = s.tasks ∧ (s.clearPools c).ops = s.ops ∧ (s.clearPools c).saves = s.saves ∧ (s.clearPools c).ctxs = s.ctxs :=
  ⟨rfl, rfl, rfl, rfl⟩

/-- A context freed: nothing of its tables is left, and no list of work changes. -/
theorem freed_nothingLeft (s : State) (c : BitVec 8) : let u := ((s.clearTables c).clearPools c).modCtx c fun x => { x with st := .free }
    (u.ctx c).st = .free ∧ (u.ctx c).handles = [] ∧ (u.ctx c).keys = [] ∧ (u.ctx c).rt = [] ∧
      u.tasks = s.tasks ∧ u.ops = s.ops ∧ u.saves = s.saves := by
  intro u
  have hcopies := copiesOnly_uncovered s c
  obtain ⟨ht, ho, hs⟩ := clearTables_lists s c
  obtain ⟨pt, po, ps, pc⟩ := clearPools_lists (s.clearTables c) c
  have hpools : ((s.clearTables c).clearPools c).ctx c = (s.clearTables c).ctx c := by unfold State.ctx; rw [pc]
  have hu : u.ctx c = { (s.uncovered c).ctx c with handles := [], keys := [], rt := [], st := .free } := by
    refine (ctx_setCtx_self _ c _).trans ?_
    rw [hpools, ctx_clearTables]
  refine ⟨congrArg Ctx.st hu, congrArg Ctx.handles hu, congrArg Ctx.keys hu, congrArg Ctx.rt hu,
    (pt.trans ht).trans (congrArg State.tasks hcopies :), (po.trans ho).trans (congrArg State.ops hcopies :), (ps.trans hs).trans (congrArg State.saves hcopies :)⟩

theorem exec_ctxFreed {s : State} {c : BitVec 8} (h : (s.ctx c).st = .ending) (hq : s.ctxQuiet c = true) :
    goesOn (exec (.ctxFreed c) s) fun u => (u.ctx c).st = .free ∧ (u.ctx c).handles = [] ∧ (u.ctx c).keys = [] ∧ (u.ctx c).rt = [] ∧
      (∀ t ∈ u.tasks, t.ctx ≠ c) ∧ (∀ o ∈ u.ops, o.ctx ≠ c) ∧ ∀ r ∈ u.saves, r.ctx ≠ c := by
  obtain ⟨hst, hh, hk, hrt, htasks, hops, hsaves⟩ := freed_nothingLeft (s.settle.freeTasks c) c
  refine ⟨_, if_neg (by rw [hq]; simp [h]), hst, hh, hk, hrt, fun t ht => ?_, fun o ho => ?_, fun r hr => ?_⟩
  · rw [htasks] at ht
    exact bne_iff_ne.mp (List.mem_filter.mp ht).2
  · rw [hops] at ho
    exact bne_iff_ne.mp (List.mem_filter.mp ho).2
  · rw [hsaves] at hr
    exact bne_iff_ne.mp (List.mem_filter.mp hr).2

/-- Settles O50: each command by its checks, the steps of a LOAD, and what a freed context leaves. -/
theorem contextsHandlesAndKeys : Obligations.ContextsHandlesAndKeys := by
  unfold Obligations.ContextsHandlesAndKeys
  intro m c slot kslot v s x s1 h coded
  refine ⟨objectCommand_waits, exec_ctxCreate_waits, exec_ctxCreate, fun hm => ⟨exec_ctxEnd_active hm, exec_ctxEnd_refused hm, exec_keyLoad hm, exec_keyClear hm,
    fun hr => ⟨handleCommand_inactive hm hr, exec_handleLoad_taken hm hr, exec_handleLoad hm hr, exec_handleUnload_unsealed hm hr, exec_handleUnload hm hr⟩⟩,
    fun r hc hl => ⟨?inactive, ?wait, ?fault, ?bytes⟩, exec_unloadDone_waits, ?unload, exec_ctxFreed⟩
  case inactive =>
    intro ha
    obtain ⟨g1, g2, g3, -, g5, g6⟩ := loadOver_ends s c slot {} 0x23
    exact ⟨_, runDue_loadStep (loadStep_inactive hc hl ha), g1, g2, g3, g5, g6⟩
  case wait => exact fun u ha hu => runDue_loadStep (loadStep_wait hc hl ha hu)
  case fault =>
    intro u ha hu
    obtain ⟨g1, g2, g3, -, g5, g6⟩ := loadOver_ends u c slot {} 0x22
    exact ⟨_, runDue_loadStep (loadStep_fault hc hl ha hu), g1, g2, g3, g5, fun a => (g6 a).trans (readRun_keepsMemory hu a)⟩
  case bytes =>
    intro b t l o rep s1 s2 s3 ha hb ht hd size stored
    refine ⟨fun hh => runDue_loadStep (loadStep_held hc hl ha hb ht hd hh), fun h1 h2 => ⟨fun hbad => ?_, fun hok hs hobj => ?_⟩⟩
    · obtain ⟨g1, g2, g3, -, g5, g6⟩ := loadOver_ends s2 c slot {} 0x21
      exact ⟨_, runDue_loadStep (loadStep_badCode hc hl ha hb ht hd h1 h2 hbad), g1, g2, g3, g5,
        fun a => (g6 a).trans ((readRun_keepsMemory ht a).trans (readRun_keepsMemory hb a))⟩
    · have hstep : runDue .loadStep s = .next (s3.loadBytes r c slot l (secOf t 0x02) false) :=
        runDue_loadStep (loadStep_bytes hc hl ha hb ht hd h1 h2 hok hs)
      rw [hstep]
      refine ⟨fun h => congrArg _ (loadBytes_waits _ h), fun h hrep => ?_, fun w h hrep => ?_⟩
      · obtain ⟨g1, g2, g3, -, g5, -⟩ := loadOver_ends ({ stored.1 with regs := { stored.1.regs with hrep := loadReport 0 none none } } : State) c slot
          ⟨.sealed, o, s3.segsOf c r.va.toNat ((l.length + 65535) / 65536 * 65536)⟩ 0x00
        exact ⟨_, congrArg _ (loadBytes_sealed _ h (hobj.trans (by rw [hrep]))), g1, g2, g3, _, g5⟩
      · obtain ⟨g1, g2, g3, g4, g5, -⟩ := loadOver_ends ({ stored.1 with regs := { stored.1.regs with hrep := w } } : State) c slot {} 0x01
        exact ⟨_, congrArg _ (loadBytes_refused _ h (hobj.trans (by rw [hrep]))), g1, g2, g3, g4, g5⟩
  case unload =>
    exact fun hc hh hu => ⟨_, exec_unloadDone hc hh hu, rfl, rfl, handle_setHandle s c slot {}, fun _ => rfl⟩

end Sys2Proof.Machine
end

section
/-! PROOFS. Ownership and attestation. -/

namespace Sys2Proof.Machine

open Sys2Proof

section
variable {m target : Master} {lease : BitVec 16} {force incl : Bool} {c : BitVec 8} {s : State}

/-! ### Ownership (R391) -/

theorem ownership_waits (h : s.ownWrite m lease = false) : Waits s (.claim m lease force) ∧ Waits s (.release m lease) ∧ Waits s (.offer m lease target) := by
  refine ⟨if_pos (by rw [h]; rfl), if_neg ?_, if_neg ?_⟩ <;> simp [h]

theorem release_offer_waits (h : s.own.owner ≠ m.toNat) : Waits s (.release m lease) ∧ Waits s (.offer m lease target) := by
  refine ⟨if_neg ?_, if_neg ?_⟩ <;> simp [h]

/-- What a granted claim leaves. -/
def Claimed (s : State) (m : Master) (lease : BitVec 16) (u : State) : Prop :=
  u.own.owner = m.toNat ∧ u.own.leaseEnd = s.cyc + lease.toNat * 940000 ∧ { u with own := s.own } = s

theorem owned_claimed (s : State) (m : Master) (lease : BitVec 16) (offer : Option (Nat × Nat)) : Claimed s m lease (s.owned m lease offer) :=
  ⟨rfl, rfl, rfl⟩

variable (hw : s.ownWrite m lease = true)
include hw

theorem exec_claim_granted (h : (force = true ∧ m = 4) ∨ s.own.owner = m.toNat ∨ s.own.owner = 7 ∨ s.own.offerTo = some m.toNat) :
    goesOn (exec (.claim m lease force) s) (Claimed s m lease) := by
  show goesOn (execClaim m lease force s) _
  rw [execClaim, hw, if_neg (by decide)]
  by_cases hf : force = true ∧ m = 4
  · rw [if_pos hf]
    exact ⟨_, rfl, owned_claimed _ _ _ _⟩
  · rw [if_neg hf]
    by_cases ho : s.own.owner = m.toNat
    · rw [if_pos ho]
      exact ⟨_, rfl, owned_claimed _ _ _ _⟩
    · rw [if_neg ho, if_pos ((h.resolve_left hf).resolve_left ho)]
      exact ⟨_, rfl, owned_claimed _ _ _ _⟩

theorem exec_claim_refused (hf : ¬(force = true ∧ m = 4)) (ho : s.own.owner ≠ m.toNat) (h7 : s.own.owner ≠ 7) (ht : s.own.offerTo ≠ some m.toNat) :
    Waits s (.claim m lease force) := by
  show execClaim m lease force s = _
  rw [execClaim, hw, if_neg (by decide), if_neg hf, if_neg ho, if_neg (not_or.mpr ⟨h7, ht⟩)]

variable (ho : s.own.owner = m.toNat)
include ho

theorem exec_release : exec (.release m lease) s = .next { s with own := {} } := if_pos (by simp [hw, ho])

theorem exec_offer (ht : target ≠ m) :
    exec (.offer m lease target) s = .next { s with own := { s.own with offer := some (target.toNat, s.cyc + 940000) } } :=
  if_pos (by simp [hw, ho, ht])

end

section
variable {m : Master} {c : BitVec 8} {incl : Bool} {s : State} {o : Nat × Nat}

theorem exec_offerLapse (ho : s.own.offer = some o) (h : o.2 ≤ s.cyc) : exec .offerLapse s = .next { s with own := { s.own with offer := none } } := by
  show execOfferLapse s = _
  simp only [execOfferLapse, ho, if_neg (Nat.not_lt.mpr h)]

theorem exec_offerLapse_waits (ho : s.own.offer = some o) (h : s.cyc < o.2) : Waits s .offerLapse := by
  show execOfferLapse s = _
  simp only [execOfferLapse, ho, if_pos h]

theorem exec_leaseExpire (h : s.own.owner ≠ 7) (ht : s.own.leaseEnd ≤ s.cyc) : exec .leaseExpire s = .next { s with own := {} } :=
  if_neg (by rintro (e | e); exacts [h e, absurd ht (Nat.not_le.mpr e)])

/-! ### Attestation (R396) -/

theorem exec_attestRequest (ha : s.answers m = true) (hn : s.regs.attCmd = none) :
    exec (.attestRequest m c incl) s = .next { s with regs := { s.regs with attCmd := some (c, incl, s.regs.attNonce) } } :=
  if_neg (by rw [ha, hn]; decide)

theorem exec_attestRequest_waits (hn : s.regs.attCmd ≠ none) : Waits s (.attestRequest m c incl) :=
  if_pos (by rw [Option.isSome_iff_ne_none.mpr hn, Bool.or_true])

end

theorem padTo_length (n : Nat) (l : List Byte) : (padTo n l).length = n := by
  simp [padTo]

/-- A report begins with the four bytes of its name. -/
theorem reportBody_starts (s : State) (c : BitVec 8) (incl : Bool) (nonce : BitVec 256) :
    ∃ rest, s.reportBody c incl nonce = [0x41, 0x54, 0x54, 0x31] ++ rest := by
  have h16 : padTo 16 [0x41, 0x54, 0x54, 0x31, 1] = [0x41, 0x54, 0x54, 0x31] ++ 1 :: List.replicate 11 0 := rfl
  simp only [State.reportBody, h16, List.append_assoc]
  exact ⟨_, rfl⟩

theorem padTo_starts {n : Nat} {l rest : List Byte} (more : List Byte) (hn : 4 ≤ n) (h : l = [0x41, 0x54, 0x54, 0x31] ++ rest) :
    (padTo n (l ++ more)).take 4 = [0x41, 0x54, 0x54, 0x31] := by
  rw [padTo, List.take_take, Nat.min_eq_left hn, h]
  rfl

theorem exec_attestReady {s : State} {c : BitVec 8} {incl : Bool} {nonce : BitVec 256} (h : s.regs.attCmd = some (c, incl, nonce)) :
    goesOn (exec .attestReady s) fun u => u.regs.attCmd = none ∧ u.regs.attBuf.length = 8192 ∧ u.regs.attBuf.take 4 = [0x41, 0x54, 0x54, 0x31] ∧
      { u with regs := { u.regs with attCmd := s.regs.attCmd, attBuf := s.regs.attBuf } } = s := by
  obtain ⟨rest, hrest⟩ := reportBody_starts s c incl nonce
  let buf := padTo 8192 (s.reportBody c incl nonce ++ padTo 4627 (Config.mlDsaSign s.regs.svn (s.reportBody c incl nonce)))
  refine ⟨{ s with regs := { s.regs with attCmd := none, attBuf := buf } }, ?_, rfl, padTo_length _ _, padTo_starts _ (by decide) hrest, rfl⟩
  show execAttestReady s = _
  simp only [execAttestReady, h, buf]

/-- Settles O51: each write of OWNCTL by who makes it, the ends of offer and lease, and the report. -/
theorem ownershipAndAttestation : Obligations.OwnershipAndAttestation := by
  unfold Obligations.OwnershipAndAttestation
  intro m target lease force incl c s mine
  exact ⟨ownership_waits, fun hw => ⟨exec_claim_granted hw, exec_claim_refused hw, fun ho => ⟨_, exec_release hw ho, rfl, rfl, rfl⟩,
      release_offer_waits, exec_offer hw⟩,
    fun o ho => ⟨exec_offerLapse ho, exec_offerLapse_waits ho⟩, fun h ht => ⟨_, exec_leaseExpire h ht, rfl, rfl, rfl⟩, exec_attestRequest,
    exec_attestRequest_waits, fun nonce h => exec_attestReady h⟩

end Sys2Proof.Machine
end

section
/-! PROOFS. Accesses from outside: windows, peers, and management messages. -/

namespace Sys2Proof.Machine

open Sys2Proof

/-! ### Windows (R388) -/

section
variable {m : Master} {w : BitVec 3} {off : BitVec 36} {a : ExtAcc} {s : State}

/-- What an access through a window of the module comes to. -/
def windowGot (m : Master) (w : BitVec 3) (off : BitVec 36) (a : ExtAcc) (s : State) : ExtGot :=
  s.extAccess ((Tab.get 0 s.regs.wcfg w.toNat).setWidth 8) (256 + m.toNat) (Tab.get 0 s.regs.wbase w.toNat + off.setWidth 64) a

theorem hostWindow_waits (h : s.answers m = false) : Waits s (.hostWindowAccess m w off a) := if_pos (by rw [h]; rfl)

variable (hm : s.answers m = true)
include hm

theorem hostWindow_unsupported (h : (Tab.get 0 s.regs.wcfg w.toNat).getLsbD 8 = false ∨
      windowLen (Tab.get 0 s.regs.wcfg w.toNat) < off.toNat + extSize a) :
    exec (.hostWindowAccess m w off a) s = .next (s.emit (.unsupported m)) := by
  refine (if_neg (by rw [hm]; decide)).trans (if_pos ?_)
  rcases h with h | h
  · rw [h]; rfl
  · rw [decide_eq_true h, Bool.or_true]

variable (he : (Tab.get 0 s.regs.wcfg w.toNat).getLsbD 8 = true) (hlen : off.toNat + extSize a ≤ windowLen (Tab.get 0 s.regs.wcfg w.toNat))
include he hlen

/-- An access through an enabled window, inside it, is an access of its context. -/
theorem hostWindow_access : exec (.hostWindowAccess m w off a) s =
    match windowGot m w off a s with
    | .wait u => .next u
    | .poison u => .next (u.emit (.poisonTlp m))
    | .fault u _ => .next (u.emit (.unsupported m))
    | .done t d => .next (t.emit (.hostData m (match a with
      | .write _ _ => none
      | _ => some d))) := by
  have hin : ¬((!(Tab.get 0 s.regs.wcfg w.toNat).getLsbD 8 || decide (windowLen (Tab.get 0 s.regs.wcfg w.toNat) < off.toNat + extSize a)) = true) := by
    rw [he, decide_eq_false (Nat.not_lt.mpr hlen)]; decide
  refine (if_neg (by rw [hm]; decide)).trans ((if_neg hin).trans ?_)
  unfold windowGot
  cases s.extAccess _ _ _ a <;> cases a <;> rfl

end

/-! ### Peers (R394) -/

section
variable {modn : BitVec 6} {c : BitVec 8} {pa : BitVec 57} {a : ExtAcc} {s : State}

theorem peer_waits (h : s.regs.bootCode ≠ 0) : Waits s (.peerAccess modn c pa a) := if_pos h

variable (hb : s.regs.bootCode = 0)
include hb

theorem peer_unmapped (h : s.peerEntry modn c = none) : exec (.peerAccess modn c pa a) s = .next (s.peerFault modn .xlateFault) := by
  refine (if_neg (not_not_intro hb)).trans ?_
  rw [h]

variable {e : Word} (he : s.peerEntry modn c = some e)
include he

theorem peer_outside (h : 2 ^ 55 ≤ pa.toNat) : exec (.peerAccess modn c pa a) s = .next (s.peerFault modn .xlateFault) := by
  refine (if_neg (not_not_intro hb)).trans ?_
  simp only [he, if_pos h]

variable (hpa : pa.toNat < 2 ^ 55)
include hpa

theorem peer_readOnly (hr : e.getLsbD 62 = true) (hw : extWrites a = true) :
    exec (.peerAccess modn c pa a) s = .next (s.peerFault modn .permission) := by
  refine (if_neg (not_not_intro hb)).trans ?_
  simp only [he, if_neg (Nat.not_le.mpr hpa), hr, hw, Bool.and_self, if_true]

/-- An access that the entry grants is an access of its context. -/
theorem peer_access (h : e.getLsbD 62 = false ∨ extWrites a = false) : exec (.peerAccess modn c pa a) s =
    match s.extAccess (BitVec.ofNat 8 (bitsAt e.toNat 40 8)) (512 + modn.toNat) (pa.setWidth 64) a with
    | .wait u => .next u
    | .poison u => .next (u.peerFault modn .poison)
    | .fault u k => .next (u.peerFault modn k)
    | .done t d => .next (t.emit (.peerReply modn (some d) 0)) := by
  have hgrant : (e.getLsbD 62 && extWrites a) = false := by
    rcases h with h | h
    · rw [h, Bool.false_and]
    · rw [h, Bool.and_false]
  refine (if_neg (not_not_intro hb)).trans ?_
  simp only [he, if_neg (Nat.not_le.mpr hpa), hgrant, Bool.false_eq_true, if_false] <;>
    cases s.extAccess _ _ _ a <;> rfl

end

/-- The end of a link's wait. -/
theorem exec_linkTimeout {sid : BitVec 8} {s : State} {t : Nat} (h : (s.sec sid.toNat).th.wait = .link t) (h0 : t ≠ 0) (hc : t ≤ s.cyc) :
    exec (.linkTimeout sid) s = .next (s.modThOf sid.toNat fun h => { h with wait := .link 0 }) := by
  show execLinkTimeout sid s = _
  simp only [execLinkTimeout, h, if_neg (not_or.mpr ⟨h0, Nat.not_lt.mpr hc⟩)]

/-! ### Register writes (R4, R431) -/

/-- An outcome that is a next state. -/
def GoesOn (r : Host.Outcome State Fault Refusal) : Prop := ∃ u, r = .next u

theorem GoesOn.ite {p : Prop} [Decidable p] {r q : Host.Outcome State Fault Refusal} (hr : GoesOn r) (hq : GoesOn q) : GoesOn (if p then r else q) := by
  split
  · exact hr
  · exact hq

theorem GoesOn.next (s : State) : GoesOn (.next s) := ⟨s, rfl⟩

section
variable (m : Master) (token : BitVec 32) (s : State)

theorem goesOn_queue (q : BitVec 11) (v : Word) : GoesOn (execWqEnable m q v s) ∧ GoesOn (execWqDisable m q v s) ∧ GoesOn (execDoorbell m q v s) ∧
    GoesOn (execWqFaultClear m q v s) :=
  ⟨.ite (.next _) (.next _), .ite (.next _) (.next _), .ite (.next _) (.next _), .ite (.next _) (.next _)⟩

theorem goesOn_context (c : BitVec 8) (v : Word) (k : BitVec 4) : GoesOn (execCtxCreate m c v s) ∧ GoesOn (execCtxEnd m c v s) ∧
    GoesOn (execKeyLoad m c k s) ∧ GoesOn (execKeyClear m c k s) :=
  ⟨.ite (.next _) (.next _), .ite (.next _) (.ite (.next _) (.next _)), .ite (.next _) (.next _), .ite (.next _) (.next _)⟩

theorem goesOn_ranges (c : BitVec 8) (i : BitVec 16) : GoesOn (execRtWrite m c i s) ∧ GoesOn (execRtClear m c i s) ∧ GoesOn (execRtRead m c i s) :=
  ⟨.ite (.next _) (.ite (.next _) (.next _)), .ite (.next _) (.next _), .ite (.next _) (.ite (.next _) (.next _))⟩

theorem goesOn_handles (c slot : BitVec 8) : GoesOn (execHandleLoad m c slot s) ∧ GoesOn (execHandleUnload m c slot s) :=
  ⟨.ite (.next _) (.ite (.next _) (.ite (.next _) (.next _))), .ite (.next _) (.ite (.next _) (.ite (.next _) (.next _)))⟩

theorem goesOn_answerTrap (f : Thread → Thread) : GoesOn (s.answerTrap m token f) := by
  unfold State.answerTrap
  split <;> exact .next _

theorem goesOn_fltresp : GoesOn (execFaultRetry m token s) ∧ GoesOn (execFaultFail m token s) := by
  refine ⟨?_, ?_⟩
  · unfold execFaultRetry
    split <;> exact .next _
  · unfold execFaultFail
    split <;> exact .next _

theorem goesOn_trapresp (toff : BitVec 29) : GoesOn (execTraprespResume m token s) ∧ GoesOn (execTraprespSkip m token s) ∧
    GoesOn (execTraprespHandle m token toff s) ∧ GoesOn (execTraprespFail m token s) := by
  refine ⟨goesOn_answerTrap _ _ _ _, goesOn_answerTrap _ _ _ _, ?_, ?_⟩
  · unfold execTraprespHandle
    split
    · exact goesOn_answerTrap _ _ _ _
    · exact .next _
  · unfold execTraprespFail
    split
    · exact .ite (goesOn_answerTrap _ _ _ _) (.next _)
    · exact .next _

theorem goesOn_ownership (lease : BitVec 16) (force : Bool) (target : Master) : GoesOn (execClaim m lease force s) ∧ GoesOn (execRelease m lease s) ∧
    GoesOn (execOffer m lease target s) :=
  ⟨.ite (.next _) (.ite (.next _) (.ite (.next _) (.ite (.next _) (.next _)))), .ite (.next _) (.next _), .ite (.next _) (.next _)⟩

/-- Every register write goes on. -/
theorem goesOn_busWrite (off v : Word) : GoesOn (s.busWrite m off v) := by
  unfold State.busWrite
  split
  · exact .ite (goesOn_queue m s _ v).1 (goesOn_queue m s _ v).2.1
  · exact (goesOn_queue m s _ v).2.2.1
  · exact (goesOn_queue m s _ v).2.2.2
  · exact .ite (goesOn_context m s _ v 0).1 (.ite (goesOn_context m s _ v 0).2.1 (.next _))
  · exact .ite (goesOn_ranges m s _ _).1 (.ite (goesOn_ranges m s _ _).2.1 (.ite (goesOn_ranges m s _ _).2.2 (.next _)))
  · exact .ite (goesOn_fltresp m _ s).1 (.ite (goesOn_fltresp m _ s).2 (.next _))
  · exact .ite (goesOn_trapresp m _ s 0).1 (.ite (goesOn_trapresp m _ s 0).2.1 (.ite (goesOn_trapresp m _ s _).2.2.1 (goesOn_trapresp m _ s 0).2.2.2))
  · exact .ite (goesOn_handles m s _ _).1 (.ite (goesOn_handles m s _ _).2 (.next _))
  · exact .ite (goesOn_context m s _ v _).2.2.1 (.ite (goesOn_context m s _ v _).2.2.2 (.next _))
  · exact .ite (goesOn_ownership m s _ _ m).1 (.ite (goesOn_ownership m s _ false m).2.1 (.ite (goesOn_ownership m s _ false _).2.2 (.next _)))
  · exact .ite (.ite (.next _) (.next _)) (.next _)
  · exact .ite (.next _) (.next _)
  · exact .next _

theorem exec_mctpWrite {tag : BitVec 8} {reg data : Word} {u : State} (h : s.busWrite 4 reg data = .next u) :
    exec (.mctpWrite tag reg data) s = .next (u.emit (.regAck 2 tag (if s.discards reg data then 1 else 0) 0)) := by
  show execMctpWrite tag reg data s = _
  rw [execMctpWrite, h]
  rfl

variable {m s}

/-- A master that may not write changes no register but ATTNONCE. -/
theorem plainWrite_ungranted {reg data : Word} (hn : ∀ k, blockOf reg.toNat 0x604000 8 4 ≠ some (k, 0)) (hm : s.mayWrite m = false) :
    s.plainWrite m reg data = s := by
  unfold State.plainWrite
  simp only [hm, Bool.false_and, Bool.false_eq_true, if_false]
  split
  · next hk => exact absurd hk (hn _)
  all_goals rfl

end

/-- Settles O52: each access from outside by what it meets, and the management messages. -/
theorem accessesFromOutside : Obligations.AccessesFromOutside := by
  unfold Obligations.AccessesFromOutside
  intro m w off a modn c pa sid tag reg data s cfg got refused
  refine ⟨fun hm => ⟨hostWindow_unsupported hm, fun he hlen => ?window⟩, hostWindow_waits, peer_waits, peer_unmapped,
    fun e hb he => ⟨peer_outside hb he, peer_readOnly hb he, fun hpa h => ?peer⟩, ?link, ⟨_, rfl, rfl, rfl⟩, fun u h => exec_mctpWrite s h,
    goesOn_busWrite 4 s reg data, rfl, rfl, plainWrite_ungranted⟩
  case window =>
    rw [hostWindow_access hm he hlen]
    refine ⟨fun u d h => ?_, fun u f h => ?_, fun u h => ?_, fun u h => ?_⟩
    · rw [show windowGot m w off a s = .done u d from h]
      cases a <;> rfl
    all_goals rw [show windowGot m w off a s = _ from h]
  case peer =>
    rw [peer_access hb he hpa h]
    refine ⟨fun u d h => ?_, fun u h => ?_, fun u f h => ?_, fun u h => ?_⟩ <;> rw [h] <;> rfl
  case link =>
    exact fun t h h0 hc => ⟨_, exec_linkTimeout h h0 hc, congrArg Sector.th (sec_modSec_self s sid.toNat _), fun k hk => sec_modSec_ne s _ hk, fun _ => rfl⟩

end Sys2Proof.Machine
end

section
/-! PROOFS. Errors recovered: retries, lane swaps, row copies and lost layers. -/

namespace Sys2Proof.Machine

open Sys2Proof

/-! ### Transfers (R405) -/

section
variable {i : Nat} {bad : Option (BitVec 5)} {fails : Bool} {s : State} {r : Retry} (hr : s.umber.retries[i]? = some r) (hf : r.failed = false)
include hr hf

theorem exec_busRetry_waits (h : r.swapping = true ∨ s.busSwapping r.die r.sect = true) : Waits s (.busRetry i bad) := by
  show execBusRetry i bad s = _
  simp only [execBusRetry, hr]
  refine if_pos ?_
  rcases h with h | h <;> simp [h]

theorem exec_laneSwapDone_none (hd : r.due ≤ s.cyc) (hs : r.swapping = true) (hx : (s.sec (r.die * 64 + r.sect)).swapLane (worstLane r.lanes) = none) :
    exec (.laneSwapDone i fails) s = .next (s.containRetry i r) := by
  show execLaneSwapDone i fails s = _
  simp only [execLaneSwapDone, hr, hx]
  exact if_neg (by simp [hf, hs, hd])

/-- A swap that takes a spare: its own end where it repairs a lasting lane, else the transfer's retry. -/
theorem exec_laneSwapDone (hd : r.due ≤ s.cyc) (hs : r.swapping = true) {x : Sector}
    (hx : (s.sec (r.die * 64 + r.sect)).swapLane (worstLane r.lanes) = some x) : let u := s.setSec (r.die * 64 + r.sect) x
    exec (.laneSwapDone i fails) s =
      if r.repair then .next ({ u with umber := { s.umber with retries := s.umber.retries.eraseIdx i } } : State).flushRecs.settle
      else .next (if fails then u.containRetry i { r with tries := r.tries + 1 } else u.doneRetry i { r with tries := r.tries + 1 }) := by
  intro u
  have hgo : ¬((r.failed || !r.swapping || decide (s.cyc < r.due)) = true) := by simp [hf, hs, hd]
  have hwake : ∀ y : State, y.wakeParty r = y.flushRecs.settle := fun y => if_neg (by simp [hs])
  show execLaneSwapDone i fails s = _
  simp only [execLaneSwapDone, hr, hx, if_neg hgo, hwake, u]
  split
  · rfl
  · cases fails <;> rfl

variable (hd : r.due ≤ s.cyc) (hs : r.swapping = false) (hb : s.busSwapping r.die r.sect = false)
include hd hs hb

theorem busRetry_goes : ¬((r.failed || r.swapping || decide (s.cyc < r.due) || s.busSwapping r.die r.sect) = true) := by
  simp [hf, hs, hd, hb]

theorem exec_busRetry_good : exec (.busRetry i none) s = .next (s.doneRetry i { r with tries := r.tries + 1 }) := by
  show execBusRetry i none s = _
  simp only [execBusRetry, hr, if_neg (busRetry_goes hr hf hd hs hb)]

variable (lane : BitVec 5)

theorem exec_busRetry_again (ht : r.tries + 1 < 4) :
    exec (.busRetry i (some lane)) s = .next (s.setRetry i { r with tries := r.tries + 1, lanes := r.lanes ++ [lane.toNat], due := s.cyc + 16 }) := by
  show execBusRetry i (some lane) s = _
  simp only [execBusRetry, hr, if_neg (busRetry_goes hr hf hd hs hb), if_pos ht]

variable (ht : 4 ≤ r.tries + 1)
include ht

theorem exec_busRetry_swap (hl : (s.sec (r.die * 64 + r.sect)).lanesUsed + (s.lanesSwapping r.die r.sect).length < 2) :
    exec (.busRetry i (some lane)) s =
      .next (s.setRetry i { r with tries := r.tries + 1, lanes := r.lanes ++ [lane.toNat], swapping := true, due := s.cyc + 216 }) := by
  show execBusRetry i (some lane) s = _
  simp only [execBusRetry, hr, if_neg (busRetry_goes hr hf hd hs hb), if_neg (Nat.not_lt.mpr ht), if_pos hl]

theorem exec_busRetry_contained (hl : 2 ≤ (s.sec (r.die * 64 + r.sect)).lanesUsed + (s.lanesSwapping r.die r.sect).length) :
    exec (.busRetry i (some lane)) s = .next (s.containRetry i { r with tries := r.tries + 1, lanes := r.lanes ++ [lane.toNat] }) := by
  show execBusRetry i (some lane) s = _
  simp only [execBusRetry, hr, if_neg (busRetry_goes hr hf hd hs hb), if_neg (Nat.not_lt.mpr ht), if_neg (Nat.not_lt.mpr hl)]

end

theorem exec_rowSpareDone {i : Nat} {s : State} (h : i < s.umber.copies.length) :
    exec (.rowSpareDone i) s = .next { s with umber := { s.umber with copies := s.umber.copies.eraseIdx i } } :=
  if_neg (Nat.not_le.mpr h)

/-! ### Losing a layer (R409) -/

/-- The two granules of a line poisoned. -/
def markLine (p : Tab Bool) (l : Nat) : Tab Bool := Tab.set false (Tab.set false p (2 * l) true) (2 * l + 1) true

theorem tab_get_set_true {p : Tab Bool} (k : Nat) {j : Nat} (h : j = k ∨ Tab.get false p j = true) : Tab.get false (Tab.set false p k true) j = true := by
  by_cases hj : j = k
  · subst hj
    exact tab_get_set_self _ _ _ _
  · rw [tab_get_set_ne _ _ _ hj]
    exact h.resolve_left hj

theorem markLine_marks {p : Tab Bool} {l j : Nat} (h : (j = 2 * l ∨ j = 2 * l + 1) ∨ Tab.get false p j = true) : Tab.get false (markLine p l) j = true := by
  rcases h with (h | h) | h
  · exact tab_get_set_true _ (.inr (tab_get_set_true _ (.inl h)))
  · exact tab_get_set_true _ (.inl h)
  · exact tab_get_set_true _ (.inr (tab_get_set_true _ (.inr h)))

theorem markLines_marks (ls : List Nat) {p : Tab Bool} {j : Nat} (h : (∃ l ∈ ls, j = 2 * l ∨ j = 2 * l + 1) ∨ Tab.get false p j = true) :
    Tab.get false (ls.foldl markLine p) j = true := by
  induction ls generalizing p with
  | nil => exact h.resolve_left (by rintro ⟨l, hl, -⟩; exact absurd hl List.not_mem_nil)
  | cons k ls ih =>
    refine ih ?_
    rcases h with ⟨l, hl, hj⟩ | h
    · rcases List.mem_cons.mp hl with rfl | hl
      · exact .inr (markLine_marks (.inl hj))
      · exact .inl ⟨l, hl, hj⟩
    · exact .inr (markLine_marks (.inr h))

theorem poisonLines_isPoison (s : State) {ls : List Nat} {l : Nat} (hl : l ∈ ls) :
    (s.poisonLines ls).isPoison (l * 128) = true ∧ (s.poisonLines ls).isPoison (l * 128 + 64) = true :=
  ⟨markLines_marks ls (.inl ⟨l, hl, .inl (by omega)⟩), markLines_marks ls (.inl ⟨l, hl, .inr (by omega)⟩)⟩

/-- A layer's write-back meets no error where no context maps a line. -/
theorem writeBack_unmapped {s : State} (h : s.ctxs = []) (die layer : Nat) : s.writeBack die layer = ([], s) := by
  unfold State.writeBack
  induction s.upsets with
  | nil => rfl
  | cons u us ih =>
    rw [List.foldl_cons]
    refine Eq.trans (congrArg (fun a => List.foldl _ a us) ?_) ih
    cases u with
    | array d ly b row _ bits _ dirty =>
      simp only [State.rowLine, h, List.findSome?_nil, ite_self]
    | _ => rfl

/-- The bit of a layer: a position past the register's twelve bits is none of them. -/
theorem layer_bit (v : BitVec 12) (k : Nat) : (v ||| BitVec.ofNat 12 (2 ^ k)).getLsbD k = (v.getLsbD k || decide (k < 12)) := by
  rw [BitVec.getLsbD_or, BitVec.getLsbD_ofNat, Nat.testBit_two_pow_self, Bool.and_true]

theorem layer_bit_own (v : BitVec 12) (k : Nat) : (v ||| BitVec.ofNat 12 (2 ^ k)).getLsbD k = decide (k < 12) := by
  rw [layer_bit]
  by_cases hk : k < 12
  · rw [decide_eq_true hk, Bool.or_true]
  · rw [BitVec.getLsbD_of_ge _ _ (Nat.not_lt.mp hk), Bool.false_or]

section
variable {die layer : BitVec 2} {s : State}

/-- The lines noted as lost with a layer. -/
def State.lostLines (s : State) (die layer : BitVec 2) : List Nat :=
  (s.umber.lost.filter fun x => x.1 == die.toNat && x.2.1 == layer.toNat).map fun (x : Nat × Nat × Nat) => x.2.2

theorem exec_layerDisable_waits (h : s.lostLines die layer = []) : Waits s (.layerDisable die layer) :=
  if_pos (List.isEmpty_iff.mpr h)

theorem exec_layerDisable (h : s.lostLines die layer ≠ []) (hc : s.ctxs = []) (hr : s.recs = []) (hl : NoLaunchWaits s) :
    let s1 := s.poisonLines (s.lostLines die layer).eraseDups
    exec (.layerDisable die layer) s = .next { s1 with
      umber := { s1.umber with lost := s1.umber.lost.filter fun x => !(x.1 == die.toNat && x.2.1 == layer.toNat) }
      regs := { s1.regs with layerstat := s1.regs.layerstat ||| BitVec.ofNat 12 (2 ^ (3 * die.toNat + layer.toNat)) } } := by
  intro s1
  let s2 : State := { s1 with
    umber := { s1.umber with lost := s1.umber.lost.filter fun x => !(x.1 == die.toNat && x.2.1 == layer.toNat) }
    regs := { s1.regs with layerstat := s1.regs.layerstat ||| BitVec.ofNat 12 (2 ^ (3 * die.toNat + layer.toNat)) } }
  have hreport : ∀ ls, s2.reportLost ls = s2 := fun ls => by
    have h2 : s2.ctxs = [] := hc
    rw [State.reportLost, h2]
    rfl
  have hquiet : s2.flushRecs.settle = s2 := by
    rw [flushRecs_empty (s := s2) hr]
    exact settleAt_noWaits (s := s2) (NoLaunchWaits.of_launches hl rfl) []
  refine (if_neg fun e => h (List.isEmpty_iff.mp e)).trans ?_
  simp only [writeBack_unmapped hc, List.append_nil]
  show Host.Outcome.next (s2.reportLost _).flushRecs.settle = .next s2
  rw [hreport, hquiet]

end

/-- Settles O53: each retry by its tries and the bus's spares, and what the loss of a layer leaves. -/
theorem errorsAreRecovered : Obligations.ErrorsAreRecovered := by
  unfold Obligations.ErrorsAreRecovered
  intro i bad fails die layer s r
  refine ⟨fun hi hf hd => ?retry, fun hi => ⟨_, exec_rowSpareDone hi, rfl, fun _ => rfl⟩, exec_layerDisable_waits, fun h hc hr hl => ?layer⟩
  case retry =>
    have hr : s.umber.retries[i]? = some r := by
      rw [List.getElem?_eq_getElem hi]
      exact congrArg some (List.getD_eq_getElem _ _ hi).symm
    refine ⟨exec_busRetry_waits hr hf, fun hs hb hbad => hbad ▸ exec_busRetry_good hr hf hd hs hb, fun lane hs hb hbad => ?_,
      fun x hs hx => ⟨fun hrep => (exec_laneSwapDone hr hf hd hs hx).trans (if_pos hrep),
        fun hrep => (exec_laneSwapDone hr hf hd hs hx).trans (if_neg (by rw [hrep]; decide))⟩, exec_laneSwapDone_none hr hf hd⟩
    subst hbad
    exact ⟨fun ht => ⟨_, exec_busRetry_again hr hf hd hs hb lane ht, rfl, fun _ => rfl⟩,
      fun ht hl => ⟨_, exec_busRetry_swap hr hf hd hs hb lane ht hl, rfl, fun _ => rfl⟩, exec_busRetry_contained hr hf hd hs hb lane⟩
  case layer =>
    refine ⟨_, exec_layerDisable h hc hr hl, layer_bit_own _ _, fun _ => rfl, fun l hm => ?_⟩
    exact poisonLines_isPoison s (List.mem_eraseDups.mpr hm)

end Sys2Proof.Machine
end

section
/-! PROOFS. What each reset leaves, and what boot starts. -/

namespace Sys2Proof.Machine

open Sys2Proof

/-! ### The choice of firmware (R429, R430) -/

section
variable {b : Boot} {f : Firmware}

theorem resolve_newer (hn : b.newer = some f) (hk : f.check b.minSvn = 0) :
    b.resolve = { b with current := some f, newer := none, chosen := some f, result := 0 } := by
  simp only [Boot.resolve, hn, if_pos hk]

theorem resolve_refused (hn : b.newer = some f) (hk : f.check b.minSvn ≠ 0) : b.resolve = b.stay (f.check b.minSvn) := by
  simp only [Boot.resolve, hn, if_neg hk]

theorem resolve_none (hn : b.newer = none) : b.resolve = b.stay 1 := by
  simp only [Boot.resolve, hn]

/-- Without a newer image that passes, the choice is that of the image in force. -/
theorem resolve_stays (h : ¬∃ f, b.newer = some f ∧ f.check b.minSvn = 0) : ∃ k, b.resolve = b.stay k := by
  cases hn : b.newer with
  | none => exact ⟨_, resolve_none hn⟩
  | some g => exact ⟨_, resolve_refused hn fun hk => h ⟨g, hn, hk⟩⟩

theorem stay_current (hc : b.current = some f) (code : BitVec 8) :
    b.stay code = { b with chosen := if f.check b.minSvn = 0 then some f else none, result := f.check b.minSvn } := by
  simp only [Boot.stay, hc]

theorem stay_none (hc : b.current = none) (code : BitVec 8) : b.stay code = { b with chosen := none, result := code } := by
  simp only [Boot.stay, hc]

theorem stay_chooses (hc : b.current = some f) (code : BitVec 8) : let r := b.stay code
    r.current = some f ∧ r.newer = b.newer ∧ (f.check b.minSvn = 0 → r.chosen = some f ∧ r.revision = f.tableRev) ∧
      (f.check b.minSvn ≠ 0 → r.chosen = none ∧ r.result = f.check b.minSvn ∧ r.revision = 3) := by
  intro r
  have hr : r = _ := stay_current hc code
  rw [hr]
  refine ⟨hc, rfl, fun hk => ?_, fun hk => ?_⟩
  · rw [if_pos hk]
    exact ⟨rfl, rfl⟩
  · rw [if_neg hk]
    exact ⟨rfl, rfl, rfl⟩

theorem resolve_due (b : Boot) : b.resolve.due = b.due := by
  by_cases h : ∃ f, b.newer = some f ∧ f.check b.minSvn = 0
  · obtain ⟨f, hn, hk⟩ := h
    rw [resolve_newer hn hk]
  · obtain ⟨k, hk⟩ := resolve_stays h
    rw [hk]
    unfold Boot.stay
    split <;> rfl

end

/-! ### What a reset keeps (R425) -/

/-- What every reset leaves. -/
def Wiped (s u : State) (cause : BitVec 4) : Prop :=
  u.regs.rstCause = cause ∧ (∀ a, outlives a = true → u.rdByte a = s.rdByte a) ∧
    (∀ p ∈ u.mem, outlives p.1 = true) ∧ u.tasks = [] ∧ u.launches = [] ∧ u.ctxs = [] ∧ u.wqs = [] ∧ u.ops = [] ∧ u.recs = [] ∧
    u.flash.wear = s.flash.wear ∧ u.flash.spares = s.flash.spares ∧ u.flash.worn = s.flash.worn ∧ u.flash.staged = [] ∧ u.boot.due = true ∧
    u.boot = ({ current := s.boot.current, newer := s.boot.newer, minSvn := s.boot.minSvn } : Boot).resolve ∧ u.regs.decrev = u.boot.revision

theorem rdByte_outliving {s u : State} (h : u.mem = s.mem.filter fun p => outlives p.1) {a : Nat} (ha : outlives a = true) : u.rdByte a = s.rdByte a := by
  unfold State.rdByte
  rw [h, tab_get_filterKey, if_pos ha]

theorem coldReset_wiped (s : State) (carve : Nat) (cause : BitVec 4) : Wiped s (s.coldReset carve cause) cause :=
  ⟨rfl, fun _ ha => rdByte_outliving rfl ha, fun _ hp => (List.mem_filter.mp hp).2, rfl, rfl, rfl, rfl, rfl, rfl, rfl, rfl, rfl, rfl,
    resolve_due _, rfl, rfl⟩

theorem warmReset_wiped (s : State) (cause : BitVec 4) (lost : Bool) : Wiped s (s.warmReset cause lost) cause :=
  ⟨rfl, fun _ ha => rdByte_outliving rfl ha, fun _ hp => (List.mem_filter.mp hp).2, rfl, rfl, rfl, rfl, rfl, rfl, rfl, rfl, rfl, rfl,
    resolve_due _, rfl, rfl⟩

/-- A cold reset: besides, the time starts anew and nobody owns the module. -/
theorem coldReset_cold (s : State) (carve : Nat) (cause : BitVec 4) : let u := s.coldReset carve cause
    Wiped s u cause ∧ u.cyc = 0 ∧ u.own.owner = 7 ∧ u.sectors = [] ∧ u.rails = [] :=
  ⟨coldReset_wiped s carve cause, rfl, rfl, rfl, rfl⟩

/-- An entry read from a list whose entries, like the default, have a property. -/
theorem tab_get_of_forall {α : Type} {P : α → Prop} {d : α} {t : Tab α} (hd : P d) (h : ∀ p ∈ t, P p.2) (k : Nat) : P (Tab.get d t k) := by
  induction t with
  | nil => exact hd
  | cons p t ih =>
    by_cases hk : p.1 = k
    · simpa only [Tab.get, if_pos hk] using h p List.mem_cons_self
    · simpa only [Tab.get, if_neg hk] using ih fun q hq => h q (List.mem_cons_of_mem _ hq)

theorem tab_get_absent {α : Type} (d : α) {t : Tab α} {k : Nat} (h : k ∉ t.map Prod.fst) : Tab.get d t k = d := by
  induction t with
  | nil => rfl
  | cons p t ih =>
    rw [List.map_cons, List.mem_cons, not_or] at h
    obtain ⟨hp, ht⟩ := h
    simpa only [Tab.get, if_neg fun e => hp (Eq.symm e)] using ih ht

/-- Entries equal to the default dropped from a list of distinct keys: every read stays. -/
theorem tab_get_dropDefault {α : Type} [DecidableEq α] (d : α) {t : Tab α} (h : (t.map Prod.fst).Nodup) (k : Nat) :
    Tab.get d (t.filter fun p => p.2 != d) k = Tab.get d t k := by
  induction t with
  | nil => rfl
  | cons p t ih =>
    obtain ⟨hp, ht⟩ := List.nodup_cons.mp (List.map_cons ▸ h)
    obtain ⟨i, v⟩ := p
    by_cases hv : v = d
    · have hfil : ((i, v) :: t).filter (fun p => p.2 != d) = t.filter fun p => p.2 != d := by simp [hv]
      rw [hfil, ih ht]
      by_cases hk : i = k
      · subst hk
        rw [tab_get_absent d hp]
        simp [Tab.get, hv]
      · simp only [Tab.get, if_neg hk]
    · have hfil : ((i, v) :: t).filter (fun p => p.2 != d) = (i, v) :: t.filter fun p => p.2 != d := by simp [hv]
      rw [hfil]
      simp only [Tab.get, ih ht]

theorem rail_warmReset {s : State} (h : (s.rails.map Prod.fst).Nodup) (cause : BitVec 4) (lost : Bool) (g : Nat) :
    (s.warmReset cause lost).rail g = { events := (s.rail g).events } := by
  have hkeys : ((s.rails.map fun p => (p.1, p.2.warm)).map Prod.fst).Nodup := by
    rw [List.map_map]
    exact h
  refine (tab_get_dropDefault ({} : Rail) hkeys g).trans ?_
  exact tab_get_map Rail.warm {} s.rails g

theorem sec_warmReset (s : State) (cause : BitVec 4) (lost : Bool) (k : Nat) :
    ((s.warmReset cause lost).sec k).act = none ∧ ((s.warmReset cause lost).sec k).th = {} := by
  refine tab_get_of_forall (P := fun x : Sector => x.act = none ∧ x.th = {}) ⟨rfl, rfl⟩ (fun p hp => ?_) k
  obtain ⟨q, -, rfl⟩ := List.mem_map.mp (List.mem_filter.mp hp).1
  exact ⟨rfl, rfl⟩

/-- The count of warm resets stops at its last value. -/
theorem warmCnt_toNat (n : BitVec 32) : (if n = 0xFFFFFFFF then n else n + 1).toNat = min (n.toNat + 1) (2 ^ 32 - 1) := by
  split
  · next h => subst h; rfl
  · next h =>
    have hn : n.toNat ≠ 4294967295 := fun e => h (BitVec.eq_of_toNat_eq e)
    have hlt := n.isLt
    have h1 : (1 : BitVec 32).toNat = 1 := rfl
    rw [BitVec.toNat_add, h1]
    omega

/-- What a warm reset leaves besides. -/
theorem warmReset_warm (s : State) (cause : BitVec 4) (lost : Bool) : let u := s.warmReset cause lost
    Wiped s u cause ∧ u.cyc = s.cyc ∧ u.own = s.own ∧ u.regs.lost = lost ∧
      u.regs.layerstat = s.regs.layerstat ∧ u.regs.warmCnt.toNat = min (s.regs.warmCnt.toNat + 1) (2 ^ 32 - 1) ∧
      (∀ k, (u.sec k).act = none ∧ (u.sec k).th = {}) ∧ ((s.rails.map Prod.fst).Nodup → ∀ g, u.rail g = { events := (s.rail g).events }) :=
  ⟨warmReset_wiped s cause lost, rfl, rfl, rfl, rfl, warmCnt_toNat _, sec_warmReset s cause lost, fun h g => rail_warmReset h cause lost g⟩

/-! ### Commanded resets (R428) -/

section
variable {m : Master} {v : Word} {s : State}

/-- RSTCTL with its CARVE noted. -/
def State.carved (s : State) (v : Word) : State := { s with regs := { s.regs with carve := carveOf v } }

theorem reset_waits (h : s.rstWrite m = false) : Waits s (.coldReset m v) ∧ Waits s (.warmReset m v) :=
  ⟨if_pos (by rw [h]; rfl), if_pos (by rw [h]; rfl)⟩

theorem opOf_eq (v : Word) : opOf v = v.toNat % 4 := by simp [opOf, bitsAt]

variable (hm : s.rstWrite m = true)
include hm

theorem exec_coldReset (h : v.toNat % 4 = 2) : exec (.coldReset m v) s = .next ((s.carved v).coldReset (carveOf v) 2) := by
  have hop : opOf v = 2 := (opOf_eq v).trans h
  refine (if_neg (by rw [hm, hop]; decide)).trans ?_
  simp only [State.rstCtl, hop]
  rfl

theorem exec_warmReset (h : v.toNat % 4 = 1) : exec (.warmReset m v) s = .next ((s.carved v).warmReset 3 false) := by
  have hop : opOf v = 1 := (opOf_eq v).trans h
  refine (if_neg (by rw [hm, hop]; decide)).trans ?_
  simp only [State.rstCtl, hop]
  rfl

end

/-! ### Boot (R429) -/

section
variable {s : State}

theorem boot_waits (h : s.boot.due = false) : Waits s .boot := if_pos (by rw [h]; rfl)

theorem exec_boot {f : Firmware} (hd : s.boot.due = true) (hc : s.boot.chosen = some f) : exec .boot s = .next (s.start f) := by
  refine (if_neg (by rw [hd]; decide)).trans ?_
  rw [hc]

theorem exec_boot_none (hd : s.boot.due = true) (hc : s.boot.chosen = none) : exec .boot s = .next (s.noBoot s.boot.result) := by
  refine (if_neg (by rw [hd]; decide)).trans ?_
  rw [hc]

theorem start_minSvn (f : Firmware) : (s.start f).boot.minSvn.toNat = max s.boot.minSvn.toNat f.svn.toNat := by
  show (if s.boot.minSvn.toNat < f.svn.toNat then f.svn else s.boot.minSvn).toNat = _
  split <;> omega

end

/-- Settles O54: each reset by what it wipes and keeps, the choice of an image, and its start. -/
theorem resetsAndBoot : Obligations.ResetsAndBoot := by
  unfold Obligations.ResetsAndBoot
  intro m v up s wiped cold warm
  refine ⟨⟨_, rfl, coldReset_cold s 64 0, rfl⟩, ⟨_, rfl, coldReset_cold s 64 1, rfl⟩,
    fun hm h => ⟨_, exec_coldReset hm h, coldReset_cold (s.carved v) (carveOf v) 2, rfl⟩,
    fun hm h => ⟨_, exec_warmReset hm h, warmReset_warm (s.carved v) 3 false⟩, reset_waits, ⟨_, rfl, warmReset_warm s 4 (!up)⟩, boot_waits, fun b => ?choice,
    fun f hd hc => ⟨_, exec_boot hd hc, rfl, rfl, rfl, rfl, start_minSvn f, fun _ => rfl⟩, fun hd hc => ⟨_, exec_boot_none hd hc, rfl, rfl, rfl, fun _ => rfl⟩⟩
  case choice =>
    refine ⟨fun f hn hk => ?_, fun f hfresh hc => ?_, fun hc => ⟨fun hn => ?_, fun f hn hk => ?_⟩⟩
    · rw [resolve_newer hn hk]
      exact ⟨rfl, rfl⟩
    · obtain ⟨k, hk⟩ := resolve_stays hfresh
      rw [hk]
      exact stay_chooses hc k
    · rw [resolve_none hn, stay_none hc]
      exact ⟨rfl, rfl⟩
    · rw [resolve_refused hn hk, stay_none hc]
      exact ⟨rfl, rfl⟩

end Sys2Proof.Machine
end

section
/-! PROOFS. A step runs the instruction whose word stands at the program counter. -/

namespace Sys2Proof.Machine

open Sys2Proof

/-! ### The timed events do not depend on whose turn comes -/

/-- A launch's next task fits nowhere, or it has none. -/
def State.noPlace (s : State) (l : Launch) : Bool :=
  let shapes := l.shapes (s.objOf l)
  if (s.ctx l.ctx).sectmax < s.heldBy l.ctx + shapes.foldl (fun n x => n + x.w * x.h) 0 then true
  else match s.findRects [] shapes with
    | none => true
    | some rects => (((l.insts (s.objOf l) rects).flatMap Inst.sids).all fun k => (s.sec k).clean l.ctx) && s.nextTask l == .none

/-- An attempt to place a launch's next task fails just where nothing takes it. -/
theorem tryPlace_no (s : State) (l : Launch) : (s.tryPlace [] l == .no) = s.noPlace l := by
  unfold State.tryPlace State.noPlace
  dsimp only
  by_cases hn : (s.ctx l.ctx).sectmax < s.heldBy l.ctx + (l.shapes (s.objOf l)).foldl (fun n x => n + x.w * x.h) 0
  · rw [if_pos hn, if_pos hn]
    rfl
  · rw [if_neg hn, if_neg hn]
    cases s.findRects [] (l.shapes (s.objOf l)) with
    | none => rfl
    | some rects =>
      dsimp only
      cases ((l.insts (s.objOf l) rects).flatMap Inst.sids).all fun k => (s.sec k).clean l.ctx with
      | false => rfl
      | true => cases s.nextTask l <;> rfl

/-- The machine with other turns to come. -/
def State.withTurns (s : State) (agenda : List Turn) (turn : Nat) : State := { s with agenda := agenda, turn := turn }

section
variable (s : State) (a : List Turn) (n : Nat)

theorem findRects_withTurns (taken : List Nat) (l : List Shape) : (s.withTurns a n).findRects taken l = s.findRects taken l := by
  induction l generalizing taken with
  | nil => rfl
  | cons x l ih => simp only [State.findRects, ih] <;> rfl

theorem noPlace_withTurns (l : Launch) : (s.withTurns a n).noPlace l = s.noPlace l := by
  simp only [State.noPlace, findRects_withTurns] <;> rfl

theorem reserver_withTurns : (s.withTurns a n).reserver = s.reserver := by
  simp only [State.reserver, tryPlace_no, noPlace_withTurns] <;> rfl

theorem refreshDues_withTurns : (s.withTurns a n).refreshDues = s.refreshDues := rfl

theorem dues_withTurns : (s.withTurns a n).dues = s.dues := by
  simp only [State.dues, reserver_withTurns, refreshDues_withTurns] <;> rfl

end

/-! ### Turns -/

theorem earliest_mem {l : List (Nat × Due)} {p : Nat × Due} (h : earliest l = some p) : p ∈ l := by
  have key : ∀ (l : List (Nat × Due)) (m : Option (Nat × Due)) (p : Nat × Due),
      l.foldl (fun m p => match m with
        | some q => if p.1 < q.1 then some p else some q
        | none => some p) m = some p → m = some p ∨ p ∈ l := by
    intro l
    induction l with
    | nil => exact fun m p h => .inl h
    | cons q l ih =>
      intro m p h
      rcases ih _ p h with hq | hp
      · cases m with
        | none => exact .inr (List.mem_cons.mpr (.inl (Option.some.inj hq).symm))
        | some r =>
          dsimp only at hq
          split at hq
          · exact .inr (List.mem_cons.mpr (.inl (Option.some.inj hq).symm))
          · exact .inl hq
      · exact .inr (List.mem_cons_of_mem _ hp)
  exact (key l none p h).resolve_left (by simp)

/-- A turn with no timed event before it is taken at its time. -/
theorem takeTurn_act {u : State} {t : Turn} (h : ∀ d ∈ u.dues, u.cyc + t.dt < d.1) : u.takeTurn t = (u.atCyc (u.cyc + t.dt)).act t.who := by
  unfold State.takeTurn
  split
  · next d i he => exact if_neg (Nat.not_le.mpr (h _ (earliest_mem he)))
  · rfl

theorem step_placement {s : State} (h : s.placeDue = true) : step s = .next s.placement := if_pos h

/-- The turn that is next is taken in the state that is left. -/
theorem step_turn {s u : State} {t : Turn} (h : TurnIsNext s t u) : step s = (u.atCyc (s.cyc + t.dt)).act t.who := by
  obtain ⟨hp, hd, hu⟩ := h
  have hstep : step s = u.takeTurn t := by
    refine (if_neg (by rw [hp]; decide)).trans ?_
    rcases hu with ⟨rest, ha, rfl⟩ | ⟨ha, ht, rfl⟩
    · simp only [State.nextTurn, ha]
    · simp only [State.nextTurn, ha, ht]
  have hcyc : u.cyc = s.cyc ∧ u.dues = s.dues := by
    rcases hu with ⟨rest, -, rfl⟩ | ⟨-, -, rfl⟩
    · exact ⟨rfl, dues_withTurns s rest s.turn⟩
    · exact ⟨rfl, dues_withTurns s s.agenda (s.turn + 1)⟩
  rw [hstep, takeTurn_act (by rw [hcyc.1, hcyc.2]; exact hd), hcyc.1]

/-! ### An instruction on a turn -/

section
variable {s : State} {who : Agent} {i : Instr}

theorem perform_barred (h : s.barred i = true) : s.perform who i = .next { s with agenda := ⟨1, who⟩ :: s.agenda } := if_pos h

theorem perform_outdone (h : s.barred i = false) (ho : s.outdone i = true) : s.perform who i = .next s :=
  (if_neg (by rw [h]; decide)).trans (if_pos ho)

theorem perform_exec (h : s.barred i = false) (ho : s.outdone i = false) : s.perform who i = s.noted i (exec i s) :=
  (if_neg (by rw [h]; decide)).trans (if_neg (by rw [ho]; decide))

end

/-! ### A control thread's turn -/

/-- What a step from s comes to where a thread has come to a word in the state x. -/
def RunsWord (s x : State) (sid : BitVec 8) (w : Word) : Prop :=
  (∀ g i, decodeCtl w = some (g, i) →
    (x.rdP g.g ≠ g.neg → x.barred i = false → x.outdone i = false → step s = x.noted i (exec i x)) ∧
    (x.rdP g.g ≠ g.neg → x.barred i = true → step s = .next { x with agenda := ⟨1, .thread sid⟩ :: x.agenda }) ∧
    (x.rdP g.g = g.neg → step s = .next x.advance)) ∧
  (decodeCtl w = none → step s = .next (x.takeTrap .illegal w))

/-- The state in which a thread's turn begins. -/
def State.turnOf (s u : State) (dt : Nat) (sid : BitVec 8) : State := { u.atCyc (s.cyc + dt) with cur := sid.toNat }

theorem taken_of_ne {x : State} {g : Guard} (h : x.rdP g.g ≠ g.neg) : x.taken g = true := bne_iff_ne.mpr h

theorem not_taken_of_eq {x : State} {g : Guard} (h : x.rdP g.g = g.neg) : x.taken g = false := by
  unfold State.taken
  rw [h, bne_self_eq_false]

theorem thread_runs {v : State} {sid : Nat} (hr : v.th.runs = true) (hn : v.replaying sid = false) : ¬((!v.th.runs || v.replaying sid) = true) := by
  rw [hr, hn]; decide

theorem thread_unnoticed {v : State} (h : v.th.notice = none ∨ v.th.ts = true) : ¬(v.th.notice.isSome = true ∧ (!v.th.ts) = true) := by
  rintro ⟨a, b⟩
  rcases h with e | e
  · rw [e] at a; exact absurd a (by decide)
  · rw [e] at b; exact absurd b (by decide)

section
variable {s u : State} {dt : Nat} {sid : BitVec 8} (hr : (s.turnOf u dt sid).th.runs = true) (hn : (s.turnOf u dt sid).replaying sid.toNat = false)
  (ht : (s.turnOf u dt sid).th.notice = none ∨ (s.turnOf u dt sid).th.ts = true)
include hr hn ht

/-- A thread that runs fetches its word: what its turn comes to with a trap of the fetch, with a word that decodes to nothing, and with an instruction. -/
theorem ctlTurn_trap {x : State} {c : Cause} {v : Word} (hf : (s.turnOf u dt sid).fetch = .trap x c v) :
    (u.atCyc (s.cyc + dt)).ctlTurn sid.toNat = .done (x.takeTrap c v) := by
  refine ((if_neg (thread_runs hr hn)).trans (if_neg (thread_unnoticed ht))).trans ?_
  rw [show ({ u.atCyc (s.cyc + dt) with cur := sid.toNat } : State).fetch = _ from hf]

variable {x : State} {w : Word} (hf : (s.turnOf u dt sid).fetch = .word x w)
include hf

theorem ctlTurn_illegal (hd : decodeCtl w = none) : (u.atCyc (s.cyc + dt)).ctlTurn sid.toNat = .done (x.takeTrap .illegal w) := by
  refine ((if_neg (thread_runs hr hn)).trans (if_neg (thread_unnoticed ht))).trans ?_
  rw [show ({ u.atCyc (s.cyc + dt) with cur := sid.toNat } : State).fetch = _ from hf]
  simp only [hd]

theorem ctlTurn_decoded {g : Guard} {i : Instr} (hd : decodeCtl w = some (g, i)) :
    (u.atCyc (s.cyc + dt)).ctlTurn sid.toNat = if x.taken g then .exec i x else .done x.advance := by
  refine ((if_neg (thread_runs hr hn)).trans (if_neg (thread_unnoticed ht))).trans ?_
  rw [show ({ u.atCyc (s.cyc + dt) with cur := sid.toNat } : State).fetch = _ from hf]
  simp only [hd]

end

section
variable {s u : State} {dt : Nat} {sid : BitVec 8} (h : TurnIsNext s ⟨dt, .thread sid⟩ u)
  (hr : (s.turnOf u dt sid).th.runs = true) (hn : (s.turnOf u dt sid).replaying sid.toNat = false)
  (ht : (s.turnOf u dt sid).th.notice = none ∨ (s.turnOf u dt sid).th.ts = true)
include h hr hn ht

theorem step_fetchedTrap {x : State} {c : Cause} {v : Word} (hf : (s.turnOf u dt sid).fetch = .trap x c v) : step s = .next (x.takeTrap c v) := by
  rw [step_turn h]
  show State.threadTurn _ sid = _
  rw [State.threadTurn, ctlTurn_trap hr hn ht hf]

theorem step_fetchedWord {x : State} {w : Word} (hf : (s.turnOf u dt sid).fetch = .word x w) : RunsWord s x sid w := by
  have hstep : step s = (u.atCyc (s.cyc + dt)).threadTurn sid := step_turn h
  refine ⟨fun g i hd => ?_, fun hd => ?_⟩
  · have hturn := ctlTurn_decoded hr hn ht hf hd
    refine ⟨fun hg hb ho => ?_, fun hg hb => ?_, fun hg => ?_⟩
    · rw [hstep, State.threadTurn, hturn, if_pos (taken_of_ne hg)]
      exact perform_exec hb ho
    · rw [hstep, State.threadTurn, hturn, if_pos (taken_of_ne hg)]
      exact perform_barred hb
    · rw [hstep, State.threadTurn, hturn, if_neg (by rw [not_taken_of_eq hg]; decide)]
  · rw [hstep, State.threadTurn, ctlTurn_illegal hr hn ht hf hd]

end

/-! ### The fetch of a word (R369) -/

theorem fetch_word {v : State} {w : Word} (h : v.th.word = some w) : v.fetch = .word v w := by
  simp only [State.fetch, h]

section
variable {v x : State} {b : FetchBlk} {w : Word} (h : v.th.word = none) (hf : v.fetchAt = .inr (x, b, w))
include h hf

theorem fetch_fetched (hb : b.poisoned v.pc.toNat = false) :
    v.fetch = .word (x.modTh fun t => { t with fblk := some b, word := some w, wait := t.waitHere, barHeld := none }) w := by
  simp only [State.fetch, h, hf, hb, Bool.false_eq_true, if_false]

theorem fetch_poisoned (hb : b.poisoned v.pc.toNat = true) : v.fetch = .trap (x.modTh fun t => { t with fblk := none }) .poison v.pc := by
  simp only [State.fetch, h, hf, hb, if_true]

end

/-- What only notes that staged pages were used, and Umber's waits: no byte differs. -/
def UseNoted (s u : State) : Prop := ∃ staged umber, u = { s with flash := { s.flash with staged := staged }, umber := umber }

theorem UseNoted.trans {s t u : State} (h : UseNoted s t) (g : UseNoted t u) : UseNoted s u := by
  obtain ⟨a, b, rfl⟩ := h
  obtain ⟨c, d, rfl⟩ := g
  exact ⟨c, d, rfl⟩

theorem UseNoted.refl (s : State) : UseNoted s s := ⟨_, _, rfl⟩

theorem UseNoted.rdTgtByte {s u : State} (h : UseNoted s u) (t : Tgt) (i : Nat) : u.rdTgtByte t i = s.rdTgtByte t i := by
  obtain ⟨a, b, rfl⟩ := h
  rfl

theorem useNoted_touch (s : State) (t : Tgt) : UseNoted s (s.touch t) := ⟨_, _, touch_eq s t⟩

theorem touch_quiet {s : State} (h : Quiet s) (t : Tgt) : Quiet (s.touch t) := by
  rw [touch_eq]
  exact h

/-- Where no error waits, runs that are met all go. -/
theorem meetRuns_quiet {s : State} (h : Quiet s) (who : Nat) (l : List (Tgt × Nat)) :
    ∃ u bads, s.meetRuns who l = (u, some bads) ∧ UseNoted s u := by
  induction l generalizing s with
  | nil => exact ⟨s, [], rfl, .refl s⟩
  | cons p l ih =>
    obtain ⟨u, bads, hu, hn⟩ := ih (touch_quiet h p.1)
    refine ⟨u, false :: bads, ?_, (useNoted_touch s p.1).trans hn⟩
    simp only [State.meetRuns, meet_quiet h, hu, Option.map_some]

theorem useNoted_forgetRuns (s : State) (who : Nat) (l : List (Tgt × Nat)) : UseNoted s (s.forgetRuns who l) :=
  foldl_rel (R := UseNoted) (f := fun (s : State) (p : Tgt × Nat) => s.forget who p.1 p.2) .refl .trans (fun _ _ => ⟨_, _, rfl⟩) l s

/-- The bytes of a block that no error meets. -/
theorem fetchBlock_reads {v : State} {lo n pc : Nat} {t : Tgt} (hspan : v.textSpan (v.sec v.cur) = some (lo, n)) (hlo : lo ≤ pc) (hhi : pc + 8 ≤ lo + n)
    (hpc : pc < 2 ^ 55) (hx : v.xlateV (v.sec v.cur).ctx (max lo (pc / 512 * 512)) .fetch = .ok t) (hun : v.unreachable t = false)
    (hheld : v.readHeld v.cur t = false) (hq : Quiet v) :
    ∃ x b u, v.fetchBlock pc = .inr (x, b) ∧ UseNoted v u ∧ b.base = max lo (pc / 512 * 512) ∧
      b.bytes = u.rdTgt t (min (lo + n) (pc / 512 * 512 + 512) - max lo (pc / 512 * 512)) := by
  obtain ⟨u, bads, hu, hn⟩ := meetRuns_quiet hq v.cur (t.lineRuns 5 (min (lo + n) (pc / 512 * 512 + 512) - max lo (pc / 512 * 512)))
  have hin : ¬(pc < lo ∨ lo + n < pc + 8) := by omega
  let y := u.forgetRuns v.cur (t.lineRuns 5 (min (lo + n) (pc / 512 * 512 + 512) - max lo (pc / 512 * 512)))
  have hblk : ∃ bad, v.fetchBlock pc = .inr (y.noteRc t, { base := max lo (pc / 512 * 512), bytes := y.rdTgt t (min (lo + n) (pc / 512 * 512 + 512) - max lo (pc / 512 * 512)), bad := bad }) := by
    refine ⟨?bad, ?eq⟩
    case eq => simp only [State.fetchBlock, hspan, if_neg hin, if_pos hpc, hx, hun, hheld, Bool.false_eq_true, if_false, hu, y] <;> rfl
  obtain ⟨bad, hblk⟩ := hblk
  exact ⟨_, _, y, hblk, hn.trans (useNoted_forgetRuns _ _ _), rfl, rfl⟩

/-- The word of a block at a place inside it. -/
theorem blockWord_reads {b : FetchBlk} {u : State} {t : Tgt} {base len pc : Nat} (hbase : b.base = base) (hbytes : b.bytes = u.rdTgt t len)
    (h1 : base ≤ pc) (h2 : pc + 8 ≤ base + len) :
    ∃ w, b.word pc = some w ∧ w.toNat = natOf ((List.range 8).map fun i => u.rdTgtByte t (pc - base + i)) := by
  have hlen : b.bytes.length = len := by rw [hbytes, State.rdTgt, List.length_map, List.length_range]
  have htake : (b.bytes.drop (pc - b.base)).take 8 = (List.range 8).map fun i => u.rdTgtByte t (pc - base + i) := by
    rw [hbase, hbytes, State.rdTgt]
    refine List.ext_getElem (by simp; omega) fun i h3 h4 => ?_
    simp
  refine ⟨_, if_pos ⟨by omega, by omega⟩, ?_⟩
  rw [htake]
  have hlt := natOf_lt ((List.range 8).map fun i => u.rdTgtByte t (pc - base + i))
  rw [List.length_map, List.length_range] at hlt
  exact Nat.mod_eq_of_lt hlt

theorem fetchAt_reads {v : State} {lo n : Nat} {t : Tgt} (hb : v.th.fblk = none) (hspan : v.textSpan (v.sec v.cur) = some (lo, n))
    (hal : v.pc.toNat % 8 = 0) (hlo : lo ≤ v.pc.toNat) (hhi : v.pc.toNat + 8 ≤ lo + n) (hpc : v.pc.toNat < 2 ^ 55)
    (hx : v.xlateV (v.sec v.cur).ctx (max lo (v.pc.toNat / 512 * 512)) .fetch = .ok t) (hun : v.unreachable t = false)
    (hheld : v.readHeld v.cur t = false) (hq : Quiet v) :
    ∃ x b w, v.fetchAt = .inr (x, b, w) ∧
      w.toNat = natOf ((List.range 8).map fun i => v.rdTgtByte t (v.pc.toNat - max lo (v.pc.toNat / 512 * 512) + i)) := by
  obtain ⟨x, b, u, hblk, hn, hbase, hbytes⟩ := fetchBlock_reads hspan hlo hhi hpc hx hun hheld hq
  obtain ⟨w, hw, hval⟩ := blockWord_reads hbase hbytes (pc := v.pc.toNat) (by omega) (by omega)
  refine ⟨x, b, w, ?_, ?_⟩
  · simp only [State.fetchAt, hb, Option.bind_none, hblk, hw]
  · simpa only [hn.rdTgtByte] using hval

/-! ### Slots and events -/

section
variable {s u : State} {dt : Nat}

theorem step_slot {r : SlotRef} (h : TurnIsNext s ⟨dt, .slot r⟩ u) : step s = (u.atCyc (s.cyc + dt)).slotTurn r := step_turn h

theorem slotTurn_word {v : State} {r : SlotRef} {w : Word} {i : Instr} (hw : v.slotWord r = some w) (hd : decodeFab w = some i) :
    v.slotTurn r = exec i { v with slot := r } := by
  simp only [State.slotTurn, hw, hd]

theorem slotTurn_none {v : State} {r : SlotRef} (hw : v.slotWord r = none) : v.slotTurn r = .fault .noSuchSlot := by
  simp only [State.slotTurn, hw]

theorem step_event {i : Instr} (h : TurnIsNext s ⟨dt, .event i⟩ u) (he : encode i = none) :
    step s = (u.atCyc (s.cyc + dt)).perform (.event i) i :=
  (step_turn h).trans (if_pos (by rw [he]; rfl))

end

/-! ### The order within one cycle -/

theorem unmarked_free {s : State} (i : Instr) (h : s.now = []) : s.barred i = false ∧ s.outdone i = false := by
  refine ⟨by rw [State.barred, h]; rfl, ?_⟩
  unfold State.outdone
  rw [h]
  split <;> rfl

theorem outdone_of_reset {s : State} {i : Instr} {c k : Nat} (hr : s.resetOf i = some c) (hm : Mark.reset k ∈ s.now) (hk : k ≤ c) : s.outdone i = true := by
  simp only [State.outdone, hr]
  exact List.any_eq_true.mpr ⟨k, List.mem_filterMap.mpr ⟨_, hm, rfl⟩, decide_eq_true hk⟩

theorem oneReset_eq {s t : State} {i : Instr} (h : s.resetOf i ≠ some 3) : s.oneReset t i = t.regs := if_neg fun e => h e.1

theorem marks_none {s t : State} {i : Instr} (h1 : ∀ o n, i ≠ .pwrq o n) (h2 : ownWriter i = none) (h3 : s.resetOf i = none)
    (h4 : ∀ b w, i ≠ .waveCommit b w) (h5 : ∀ b w k, i ≠ .ownerShareRelease b w k) (h6 : ∀ k, i ≠ .regionStretch k) : s.marks t i = [] := by
  simp only [State.marks, h2, h3, List.nil_append]

/-- Settles O60: the turn that is next is taken, the word that it fetches is performed, and what it leaves to be ordered is noted. -/
theorem stepRunsTheDecodedInstruction : Obligations.StepRunsTheDecodedInstruction := by
  unfold Obligations.StepRunsTheDecodedInstruction
  refine ⟨fun s u dt sid h => ?thread, fun v lo n t hb hspan => ?block, fun s u dt r h => ?slot, fun s u dt i h he => ?event,
    fun s i h => unmarked_free i h, fun s i c k => outdone_of_reset, fun s t i h => ?marks, fun s => step_placement⟩
  case thread =>
    intro v hr hn ht runs
    refine ⟨fun w hw => step_fetchedWord h hr hn ht (fetch_word hw), fun x b w hw hf => ⟨fun hb => ?_, fun hb => ?_⟩⟩
    · exact step_fetchedWord h hr hn ht (fetch_fetched hw hf hb)
    · exact step_fetchedTrap h hr hn ht (fetch_poisoned hw hf hb)
  case block => exact fun hal hlo hhi hpc hx hun hheld hq => fetchAt_reads hb hspan hal hlo hhi hpc hx hun hheld hq
  case slot => exact ⟨fun w i hw hd => (step_slot h).trans (slotTurn_word hw hd), fun hw => (step_slot h).trans (slotTurn_none hw)⟩
  case event =>
    exact ⟨fun hb ho => (step_event h he).trans (perform_exec hb ho), fun hb ho => (step_event h he).trans (perform_outdone hb ho),
      fun hb => (step_event h he).trans (perform_barred hb)⟩
  case marks =>
    rw [h]
    exact ⟨_, _, rfl, oneReset_eq, marks_none⟩

end Sys2Proof.Machine
end

section
/-! PROOFS. Every operation keeps memory in its canonical form: the notion, the memory's own operations, errors, and the operations on the state. -/

namespace Sys2Proof.Machine

open Sys2Proof

/-! ### What it is for an outcome to keep the canonical form

A lemma `memWf_f` says that the model's function `f` keeps the form. Its proof goes along the branches of `f`: each branch is a state built by functions that keep it. -/

/-- The next state, if there is one, has its memory in canonical form. -/
def OutWf : Host.Outcome State Fault Refusal → Prop
  | .next t => t.memWf = true
  | _ => True

/-- The state of a word that is done has its memory in canonical form. -/
def ResWf : Res State → Prop
  | .ok t => t.memWf = true
  | _ => True

/-- The state of a slot that has acted has its memory in canonical form. -/
def FireWf : Fire → Prop
  | .done t => t.memWf = true
  | _ => True

/-- The state that an access has come to has its memory in canonical form. -/
def StrikeWf (r : Strike) : Prop := r.state.memWf = true

/-- So has the state that an engine's access has come to. -/
def EngWf : EngGot → Prop
  | .bytes t _ => t.memWf = true
  | .wait t => t.memWf = true
  | .bad t _ _ => t.memWf = true
  | .fault t _ _ _ => t.memWf = true

/-- So has the state that a port's access has come to. -/
def GotWf : Got → Prop
  | .bytes t _ _ => t.memWf = true
  | .wait t => t.memWf = true
  | _ => True

/-- So has the state that a memory node's access has come to. -/
def NodeWf : NodeTo → Prop
  | .at t _ _ => t.memWf = true
  | .wait t => t.memWf = true
  | .bad _ => True

/-- So has the state that a read of a context's memory has come to. -/
def VaWf (r : VaGot) : Prop := r.state.memWf = true

/-- So has the state that an access from outside has come to. -/
def ExtWf : ExtGot → Prop
  | .done t _ => t.memWf = true
  | .poison t => t.memWf = true
  | .wait t => t.memWf = true
  | .fault t _ => t.memWf = true

/-- So has the state that an attempt to place a task has come to. -/
def PlacedWf : Placed → Prop
  | .no => True
  | .scrubbing t _ => t.memWf = true
  | .yes t => t.memWf = true

/-- So has the state that a fetch has come to. -/
def FetchedWf : Fetched → Prop
  | .word t _ => t.memWf = true
  | .trap t _ _ => t.memWf = true
  | .hold t => t.memWf = true

/-- So has the state of a fetch that has failed, or that comes with what it has fetched. -/
def SumWf {α : Type} : Fetched ⊕ (State × α) → Prop
  | .inl f => FetchedWf f
  | .inr p => p.1.memWf = true

/-- So has the state that a thread's turn has come to. -/
def TurnWf : CtlTurn → Prop
  | .exec _ t => t.memWf = true
  | .done t => t.memWf = true

/-- A state, if there is one, has its memory in canonical form. -/
def OptWf : Option State → Prop
  | some t => t.memWf = true
  | none => True

/-! ### The memory's own operations -/

/-- The canonical form is a matter of the bytes alone. -/
theorem memWf_congr {s u : State} (e : u.mem = s.mem) (h : s.memWf = true) : u.memWf = true := by
  rw [State.memWf, e]
  exact h

theorem memWf_foldl {α : Type} {f : State → α → State} {l : List α} {s : State} (h : s.memWf = true)
    (hf : ∀ u a, u.memWf = true → (f u a).memWf = true) : (l.foldl f s).memWf = true := by
  induction l generalizing s with
  | nil => exact h
  | cons a l ih => exact ih (hf s a h)

/-- What errors note leaves the memory as it is. -/
theorem memWf_of_errFrame {s u : State} (e : ErrFrame s u) (h : s.memWf = true) : u.memWf = true := by
  rw [State.memWf, e.mem]
  exact h

/-- An access that meets errors changes no byte. -/
theorem memWf_meet {s : State} {who n : Nat} {t : Tgt} (h : s.memWf = true) :
    StrikeWf (s.meet who t n) :=
  memWf_of_errFrame (errFrame_meet s who t n) h

theorem memWf_strike {s : State} {who n : Nat} {t : Tgt} (h : s.memWf = true) : StrikeWf (s.strike who t n) :=
  memWf_of_errFrame (errFrame_strike s who t n) h

theorem memWf_readVa {s : State} {c : BitVec 8} {l : List Piece} (h : s.memWf = true) :
    VaWf (s.readVa c l) :=
  memWf_of_errFrame (errFrame_readVa s c l) h

theorem memWf_readRun {s : State} {c : BitVec 8} {va : Word} {n : Nat} (h : s.memWf = true) : VaWf (s.readRun c va n) := memWf_readVa h

theorem memWf_meetRuns {s : State} {who : Nat} {l : List (Tgt × Nat)} (h : s.memWf = true) : (s.meetRuns who l).1.memWf = true :=
  memWf_of_errFrame (errFrame_meetRuns s who l) h

theorem memWf_meetPage {s : State} {who : Nat} {t : Tgt} {n : Nat} (h : s.memWf = true) : (s.meetPage who t n).1.memWf = true :=
  memWf_of_errFrame (errFrame_meetPage s who t n) h

theorem memWf_forgetRuns {s : State} {who : Nat} {l : List (Tgt × Nat)} (h : s.memWf = true) : (s.forgetRuns who l).memWf = true :=
  memWf_of_errFrame (errFrame_forgetRuns s who l) h

theorem memWf_extLink {s : State} {who : Nat} {va : Word} (h : s.memWf = true) : OptWf (s.extLink who va) := by
  cases e : s.extLink who va with
  | none => trivial
  | some u => exact memWf_of_errFrame (errFrame_extLink e) h

theorem memWf_repairLane {s : State} {die sect lane : Nat} (h : s.memWf = true) : (s.repairLane die sect lane).2.memWf = true :=
  memWf_of_errFrame (errFrame_repairLane s die sect lane) h

theorem memWf_logXfer {s : State} {who cls die sect lane spare tries act cnt used layer : Nat} (h : s.memWf = true) :
    (s.logXfer who cls die sect lane spare tries act cnt used layer).memWf = true :=
  memWf_of_errFrame (errFrame_logXfer s who cls die sect lane spare tries act cnt used layer) h

theorem tab_wf_foldl {α : Type} {f : Tab Byte → α → Tab Byte} {l : List α} {m : Tab Byte} (h : Tab.wf blank m = true)
    (hf : ∀ m a, Tab.wf blank m = true → Tab.wf blank (f m a) = true) : Tab.wf blank (l.foldl f m) = true := by
  induction l generalizing m with
  | nil => exact h
  | cons a l ih => exact ih (hf m a h)

/-- Bytes written one by one to a list of bytes in canonical form. -/
theorem tab_wf_foldl_set {α : Type} {g : α → Nat} {v : α → Byte} {l : List α} {m : Tab Byte} (h : Tab.wf blank m = true) :
    Tab.wf blank (l.foldl (fun m p => Tab.set blank m (g p) (v p)) m) = true :=
  tab_wf_foldl h fun _ _ hm => tab_wf_set _ _ hm

theorem optWf_getD {o : Option State} {s : State} (ho : OptWf o) (h : s.memWf = true) : (o.getD s).memWf = true := by
  cases o with
  | none => exact h
  | some u => exact ho

/-! Fields other than the memory. (Stated of a variable state: the check that a long update leaves the memory alone is then immediate.) -/

theorem memWf_placeDue {s : State} {b : Bool} (h : s.memWf = true) : ({ s with placeDue := b } : State).memWf = true := h

theorem memWf_tasks {s : State} {l : List Task} (h : s.memWf = true) : ({ s with tasks := l } : State).memWf = true := h

theorem memWf_dups {s : State} {l : List DupWrite} (h : s.memWf = true) : ({ s with dups := l } : State).memWf = true := h

theorem memWf_fresh {s : State} {n : Nat} (h : s.memWf = true) : ({ s with fresh := n } : State).memWf = true := h

theorem memWf_regs {s : State} {r : Regs} (h : s.memWf = true) : ({ s with regs := r } : State).memWf = true := h

/-- What a warm reset keeps is no byte. -/
theorem memWf_kept {s : State} {n : Nat} {o : Own} {x : Tab Sector} {r : Tab Rail} {l : Tab Nat} {g : Regs} {b : Umber} (h : s.memWf = true) :
    ({ s with cyc := n, own := o, sectors := x, rails := r, lastUse := l, regs := g, umber := b } : State).memWf = true := h

theorem memWf_upsets {s : State} {l : List Upset} (h : s.memWf = true) : ({ s with upsets := l } : State).memWf = true := h

section
variable {s : State}

/-! ### State, threads and records -/

theorem memWf_setPoison {a : Nat} {b : Bool} (h : s.memWf = true) : (s.setPoison a b).memWf = true := h

theorem memWf_setSec {k : Nat} {v : Sector} (h : s.memWf = true) : (s.setSec k v).memWf = true := h

theorem memWf_modSec {k : Nat} {f : Sector → Sector} (h : s.memWf = true) : (s.modSec k f).memWf = true := h

theorem memWf_setCtx {c : BitVec 8} {v : Ctx} (h : s.memWf = true) : (s.setCtx c v).memWf = true := h

theorem memWf_modCtx {c : BitVec 8} {f : Ctx → Ctx} (h : s.memWf = true) : (s.modCtx c f).memWf = true := h

theorem memWf_setRail {g : Nat} {v : Rail} (h : s.memWf = true) : (s.setRail g v).memWf = true := h

theorem memWf_setTask {t : Task} (h : s.memWf = true) : (s.setTask t).memWf = true := h

theorem memWf_setLaunch {l : Launch} (h : s.memWf = true) : (s.setLaunch l).memWf = true := h

theorem memWf_setOp {o : EngOp} (h : s.memWf = true) : (s.setOp o).memWf = true := h

theorem memWf_modOp {id : Nat} {f : EngOp → EngOp} (h : s.memWf = true) : (s.modOp id f).memWf = true := h

theorem memWf_emit {o : Out} (h : s.memWf = true) : (s.emit o).memWf = true := h

theorem memWf_modThOf {k : Nat} {f : Thread → Thread} (h : s.memWf = true) : (s.modThOf k f).memWf = true := h

theorem memWf_modTh {f : Thread → Thread} (h : s.memWf = true) : (s.modTh f).memWf = true := h

theorem memWf_wrS {r : Reg} {v : Word} (h : s.memWf = true) : (s.wrS r v).memWf = true := h

theorem memWf_wrD {d : DReg} {v : Desc} (h : s.memWf = true) : (s.wrD d v).memWf = true := h

theorem memWf_advance (h : s.memWf = true) : s.advance.memWf = true := h

theorem memWf_setWait {w : Wait} (h : s.memWf = true) : (s.setWait w).memWf = true := h

/-! ### Flags -/

theorem memWf_commitFlags {t : Tab FlagSet} (h : s.memWf = true) : (s.commitFlags t).memWf = true := memWf_congr rfl (memWf_foldl h fun _ _ hu => hu)

/-! ### Versions and writes to a place -/

theorem memWf_setRt {c : BitVec 8} {idx : Nat} {e : RtEnt} (h : s.memWf = true) : (s.setRt c idx e).memWf = true := h

theorem memWf_vCreate {line : Nat} {v : Word} (h : s.memWf = true) :
    (s.vCreate line v).memWf = true :=
  memWf_congr rfl (memWf_wrWord _ _ (memWf_wrWord _ _ h))

theorem memWf_vRetire {line v : Nat} (h : s.memWf = true) : (s.vRetire line v).memWf = true := memWf_congr rfl (memWf_wrWord _ _ h)

theorem memWf_wrTgt {c : BitVec 8} {sid : Nat} {t : Tgt} {l : List Byte} (h : s.memWf = true) : (s.wrTgt c sid t l).memWf = true := by
  unfold State.wrTgt
  split
  · exact h
  · exact memWf_store _ _ h

theorem memWf_wrSome {a : Nat} {l : List (Option Byte)} (h : s.memWf = true) : (s.wrSome a l).memWf = true := by
  unfold State.wrSome
  split
  · exact memWf_store _ _ h
  · refine memWf_foldl h fun u a hu => ?_
    split
    · exact memWf_wrByte _ _ hu
    · exact hu

/-! ### Errors met by accesses -/

theorem memWf_countSite {key : Nat} (h : s.memWf = true) : (s.countSite key).2.memWf = true := by
  unfold State.countSite
  dsimp only
  split <;> exact h

theorem memWf_endTransfer {r : Retry} (h : s.memWf = true) : (s.endTransfer r).memWf = true := by
  unfold State.endTransfer
  extract_lets lane step e x act
  have he : e.2.2.memWf = true := by
    refine List.foldlRecOn (motive := fun acc : Nat × Nat × State => acc.2.2.memWf = true) _ _ h fun acc hacc k _ => ?_
    show State.memWf (Prod.snd (ite _ _ _)) = true
    split
    · exact memWf_repairLane (memWf_countSite hacc)
    · exact memWf_countSite hacc
  exact memWf_logXfer he

theorem memWf_poisonRun {a n : Nat} (h : s.memWf = true) : (s.poisonRun a n).memWf = true := h

theorem memWf_forgetAll {who : Nat} (h : s.memWf = true) : (s.forgetAll who).memWf = true := h

theorem memWf_endLink {who : Nat} (h : s.memWf = true) : (s.endLink who).memWf = true := h

/-! ### Records, faults and dependences -/

theorem memWf_modSecs {ks : List Nat} {f : Sector → Sector} (h : s.memWf = true) :
    (s.modSecs ks f).memWf = true :=
  memWf_congr rfl (memWf_foldl h fun _ _ hu => hu)

theorem memWf_newToken (h : s.memWf = true) : s.newToken.2.memWf = true := by
  unfold State.newToken
  exact h

theorem memWf_ringOn {r : Rec} (h : s.memWf = true) : (s.ringOn r).memWf = true := h

theorem memWf_postRec {r : Rec} (h : s.memWf = true) : (s.postRec r).1.memWf = true := by
  unfold State.postRec
  dsimp only
  split
  · exact h
  · split
    · exact h
    · split
      · exact h
      · split
        · split
          · next e4 => exact (e4 ▸ memWf_extLink h :)
          · exact h
        · split
          · next e4 => exact (e4 ▸ memWf_strike h :)
          · next e4 => exact memWf_ringOn (memWf_poisonRun (e4 ▸ memWf_strike h :))
          · next e4 => exact memWf_ringOn (memWf_store _ _ (memWf_endLink (e4 ▸ memWf_strike h :)))
    · exact h

theorem memWf_flushFrom {stuck : List (BitVec 8)} {l : List Rec} (h : s.memWf = true) : (s.flushFrom stuck l).1.memWf = true := by
  induction l generalizing s stuck with
  | nil => exact h
  | cons r l ih =>
    unfold State.flushFrom
    split
    · exact ih h
    · split
      · exact ih h
      · dsimp only
        split <;> exact ih (memWf_postRec h)

theorem memWf_flushRecs (h : s.memWf = true) : s.flushRecs.memWf = true := memWf_congr rfl (memWf_congr rfl (memWf_flushFrom h))

theorem memWf_addRec {r : Rec} (h : s.memWf = true) : (s.addRec r).memWf = true := memWf_congr rfl (memWf_flushRecs h)

theorem memWf_faultRec {c : BitVec 8} {taskId taskIdx sid : Nat} {va : Word} {cause : Cause} {src acc unit : Nat} {aux : BitVec 32} {who : Nat}
    {slot : Option SlotRef} (h : s.memWf = true) :
    (s.faultRec c taskId taskIdx sid va cause src acc unit aux who slot).2.memWf = true := by
  unfold State.faultRec
  exact memWf_addRec (memWf_newToken h)

theorem memWf_errorRec {c : BitVec 8} {taskIdx sid : Nat} {va : Word} {n : Nat} (h : s.memWf = true) :
    (s.errorRec c taskIdx sid va n).memWf = true :=
  memWf_congr rfl (memWf_addRec h)

theorem memWf_taskFail {id : Nat} {cause : BitVec 8} {sid : Nat} (h : s.memWf = true) : (s.taskFail id cause sid).memWf = true := by
  unfold State.taskFail
  dsimp only
  split
  · exact h
  · split
    · exact h
    · exact memWf_foldl (memWf_addRec (memWf_congr rfl (memWf_modSecs h))) fun _ _ hu => memWf_addRec hu

theorem memWf_takeTrap {c : Cause} {v : Word} (h : s.memWf = true) : (s.takeTrap c v).memWf = true := by
  unfold State.takeTrap
  split
  · exact memWf_taskFail h
  · exact h

theorem memWf_finish {r : Res State} (h : s.memWf = true) (hr : ResWf r) : OutWf (s.finish r) := by
  unfold State.finish
  split
  · exact hr
  · exact memWf_takeTrap h
  · exact h

theorem memWf_neverMet {l : Launch} {line n : Nat} (h : s.memWf = true) : (s.neverMet l line n).memWf = true := h

theorem memWf_cwFault {l : Launch} {c : Cause} (h : s.memWf = true) : (s.cwFault l c).memWf = true := memWf_congr rfl (memWf_faultRec h)

theorem memWf_closeLaunch {l : Launch} (h : s.memWf = true) : (s.closeLaunch l).memWf = true := by
  unfold State.closeLaunch
  split
  · exact h
  · split
    · exact h
    · split
      · exact memWf_cwFault h
      · split
        · exact memWf_cwFault h
        · split
          · exact h
          · split
            · next e5 => exact (e5 ▸ memWf_strike h :)
            · next e5 => exact memWf_cwFault (memWf_poisonRun (e5 ▸ memWf_strike h :))
            · next e5 => exact memWf_setLaunch (memWf_vCreate (memWf_neverMet (e5 ▸ memWf_strike h :)))
    · exact memWf_cwFault h
    · exact memWf_cwFault h

theorem memWf_settleN {n : Nat} {lines : List Nat} (h : s.memWf = true) : (State.settleN n lines s).memWf = true := by
  induction n generalizing s lines with
  | zero => exact h
  | succ n ih =>
    unfold State.settleN
    extract_lets s1 s2
    have h1 : s1.memWf = true := h
    have h2 : s2.memWf = true := by
      refine memWf_foldl h1 fun u l hu => ?_
      split
      · exact memWf_closeLaunch hu
      · exact hu
    split
    · exact h2
    · exact ih h2

theorem memWf_settleAt {lines : List Nat} (h : s.memWf = true) : (s.settleAt lines).memWf = true := by
  unfold State.settleAt
  extract_lets t
  have ht : t.memWf = true := memWf_settleN h
  clear_value t
  split
  · exact ht
  · exact memWf_placeDue ht

theorem memWf_settle (h : s.memWf = true) : s.settle.memWf = true := by
  unfold State.settle
  exact memWf_settleAt h

theorem memWf_makeVersion {t : Tgt} {v : Word} (h : s.memWf = true) : (s.makeVersion t v).memWf = true := by
  unfold State.makeVersion
  exact memWf_settleAt (memWf_vCreate h)

end

end Sys2Proof.Machine
end

section
/-! PROOFS. The words of control threads keep memory in its canonical form. -/

namespace Sys2Proof.Machine

open Sys2Proof

section
variable {s : State}

/-! ### Arithmetic words -/

theorem memWf_putS {rd : Reg} {v : Word} (h : s.memWf = true) : OutWf (s.putS rd v) := by
  unfold State.putS
  exact h

theorem memWf_putP {pd : PReg} {b : Bool} (h : s.memWf = true) : OutWf (s.putP pd b) := by
  unfold State.putP
  exact h

/-! ### Fetch -/

theorem memWf_noteRc {t : Tgt} (h : s.memWf = true) : (s.noteRc t).memWf = true := by
  unfold State.noteRc
  split <;> exact h

theorem memWf_noteRcAt {va : Word} (h : s.memWf = true) : (s.noteRcAt va).memWf = true := by
  unfold State.noteRcAt
  split
  · split
    · exact memWf_noteRc h
    · exact h
  · exact h

theorem memWf_fetchBlock {pc : Nat} (h : s.memWf = true) : SumWf (s.fetchBlock pc) := by
  unfold State.fetchBlock
  dsimp only
  split
  · exact h
  · split
    · exact h
    · split
      · exact h
      · split
        · split
          · split
            · exact memWf_noteRc h
            · exact h
          · exact h
        · split
          · exact h
          · split
            · next e => exact (e ▸ memWf_meetRuns h :)
            · next e => exact memWf_noteRc (memWf_forgetRuns (e ▸ memWf_meetRuns h :))
      · exact h

theorem memWf_fetchAt (h : s.memWf = true) : SumWf s.fetchAt := by
  unfold State.fetchAt
  dsimp only
  split
  · next e =>
    obtain ⟨b, -, he⟩ := Option.bind_eq_some_iff.mp e
    obtain ⟨w, -, rfl⟩ := Option.map_eq_some_iff.mp he
    exact h
  · split
    · next e => exact (e ▸ memWf_fetchBlock h :)
    · next e =>
      split
      · exact (e ▸ memWf_fetchBlock h :)
      · exact h

theorem memWf_fetch (h : s.memWf = true) : FetchedWf s.fetch := by
  unfold State.fetch
  split
  · exact h
  · split
    · next e => exact (e ▸ memWf_fetchAt h :)
    · next e => split <;> exact (e ▸ memWf_fetchAt h :)

theorem memWf_ctlTurn {s0 : State} {sid : Nat} (h : s0.memWf = true) : TurnWf (s0.ctlTurn sid) := by
  have hs : ({ s0 with cur := sid } : State).memWf = true := h
  unfold State.ctlTurn
  generalize ({ s0 with cur := sid } : State) = s at hs ⊢
  dsimp only
  split
  · exact hs
  · split
    · exact memWf_modTh hs
    · split
      · next e => exact (e ▸ memWf_fetch hs :)
      · next e => exact memWf_takeTrap (e ▸ memWf_fetch hs :)
      · next e =>
        have hf := (e ▸ memWf_fetch hs :)
        split
        · exact memWf_takeTrap hf
        · split
          · exact hf
          · exact memWf_advance hf

/-! ### Memory words -/

theorem memWf_linkHold {lost : Res State} (h : s.memWf = true) (hlost : ResWf lost) : ResWf (s.linkHold lost) := by
  unfold State.linkHold
  split
  · split
    · exact hlost
    · exact trivial
  · exact h

theorem memWf_place {ea : Word} {n : Nat} {acc : Acc} {barred : Tgt → Bool} {k bad : State → Tgt → Res State} (h : s.memWf = true)
    (hk : ∀ u a1, u.memWf = true → ResWf (k u a1)) (hbad : ∀ u a1, u.memWf = true → ResWf (bad u a1)) :
    ResWf (s.place ea n acc barred k bad) := by
  unfold State.place
  split
  · exact trivial
  · split
    · exact trivial
    · exact trivial
    · exact trivial
    · split
      · exact trivial
      · split
        · exact memWf_linkHold h (hbad _ _ h)
        · split
          · exact trivial
          · split
            · next e5 => exact (e5 ▸ memWf_strike h :)
            · next e5 => exact hbad _ _ (e5 ▸ memWf_strike h :)
            · next e5 => exact hk _ _ (memWf_noteRc (e5 ▸ memWf_strike h :))

theorem memWf_poisonTrap {ea : Word} {u : State} {t : Tgt} : ResWf (poisonTrap ea u t) := by
  unfold poisonTrap
  exact trivial

theorem memWf_load {ea : Word} {n : Nat} {k : State → Nat → State} (h : s.memWf = true) (hk : ∀ u a1, u.memWf = true → (k u a1).memWf = true) :
    ResWf (s.load ea n k) := by
  unfold State.load
  refine memWf_place h (fun u a1 hu => ?_) fun _ _ hu => memWf_poisonTrap
  split
  · exact trivial
  · exact hk _ _ hu

theorem memWf_storeTo {ea : Word} {l : List Byte} (h : s.memWf = true) : ResWf (s.storeTo ea l) := by
  unfold State.storeTo
  refine memWf_place h (fun _ _ hu => memWf_advance (memWf_wrTgt hu)) fun u a1 hu => ?_
  split
  · exact memWf_advance (memWf_errorRec hu)
  · exact hu

theorem memWf_execSt {sz : Size} {rv ra : Reg} {imm : BitVec 32} (h : s.memWf = true) : OutWf (execSt sz rv ra imm s) := by
  unfold execSt
  exact memWf_finish h (memWf_storeTo h)

theorem memWf_atomic {ea : Word} {n : Nat} {rd : Reg} {g : Nat → Option Nat} (h : s.memWf = true) : ResWf (s.atomic ea n rd g) := by
  unfold State.atomic
  refine memWf_place h (fun u a1 hu => ?_) fun _ _ hu => memWf_poisonTrap
  dsimp only
  split
  · exact trivial
  · refine memWf_advance (memWf_wrS ?_)
    split
    · exact memWf_store _ _ hu
    · exact hu

theorem memWf_object {ea : Word} {acc : Acc} {k : State → Tgt → Res State} (h : s.memWf = true) (hk : ∀ u a1, u.memWf = true → ResWf (k u a1)) :
    ResWf (s.object ea acc k) := by
  unfold State.object
  refine memWf_place h (fun u a1 hu => ?_) fun _ _ hu => memWf_poisonTrap
  split
  · exact trivial
  · exact hk _ _ hu

theorem memWf_execLdv {sc : Scope} {rd ra rb : Reg} (h : s.memWf = true) : OutWf (execLdv sc rd ra rb s) := by
  unfold execLdv
  refine memWf_finish h (memWf_object h fun u t hu => ?_)
  dsimp only
  generalize u.vFloor t.line = m, u.vNext t.line = n
  split
  · exact trivial
  · split
    · exact memWf_advance (memWf_wrS hu)
    · exact trivial

theorem memWf_execStv {sc : Scope} {ra rb : Reg} (h : s.memWf = true) : OutWf (execStv sc ra rb s) := by
  unfold execStv
  refine memWf_finish h (memWf_object h fun u t hu => ?_)
  generalize (u.vFull t.line || !u.writesDone u.cur) = c
  split
  · exact trivial
  · exact memWf_advance (memWf_makeVersion hu)

theorem memWf_execVrcl {ra rb : Reg} (h : s.memWf = true) : OutWf (execVrcl ra rb s) := by
  unfold execVrcl
  exact memWf_finish h (memWf_object h fun _ _ hu => memWf_advance (memWf_settle (memWf_vRetire hu)))

theorem memWf_execFenceLayer (h : s.memWf = true) : OutWf (execFenceLayer s) := by
  unfold execFenceLayer
  show State.memWf _ = true
  split <;> exact h

/-! ### Flow words -/

theorem memWf_jump {v : Word} (h : s.memWf = true) : OutWf (s.jump v) := by
  unfold State.jump
  exact h

theorem memWf_execJr {ra : Reg} (h : s.memWf = true) : OutWf (execJr ra s) := by
  unfold execJr
  refine memWf_finish h ?_
  split
  · exact h
  · exact trivial

theorem memWf_execJalr {rd ra : Reg} (h : s.memWf = true) : OutWf (execJalr rd ra s) := by
  unfold execJalr
  refine memWf_finish h ?_
  split
  · exact h
  · exact trivial

theorem memWf_execBcc {c : Cond} {ra rb : Reg} {off : BitVec 32} (h : s.memWf = true) : OutWf (execBcc c ra rb off s) := by
  unfold execBcc
  split
  · exact memWf_jump h
  · exact h

theorem memWf_execLoop {ra : Reg} {off : BitVec 32} (h : s.memWf = true) : OutWf (execLoop ra off s) := by
  unfold execLoop
  dsimp only
  split
  · exact memWf_jump h
  · exact h

theorem memWf_arrive {k : Meet} (h : s.memWf = true) : (s.arrive k).1.memWf = true := by
  unfold State.arrive
  exact h

theorem memWf_execGbar (h : s.memWf = true) : OutWf (execGbar s) := by
  unfold execGbar
  dsimp only
  split
  · exact h
  · split
    · exact memWf_advance (memWf_modTh (memWf_arrive h))
    · exact memWf_arrive h

theorem memWf_execSig {n : BitVec 8} (h : s.memWf = true) : OutWf (execSig n s) := by
  unfold execSig
  dsimp only
  split
  · exact h
  · show State.memWf _ = true
    split
    · exact memWf_advance (memWf_postRec h)
    · exact memWf_postRec h

theorem memWf_drainTask {id : Nat} (h : s.memWf = true) : (s.drainTask id).memWf = true := by
  unfold State.drainTask
  split
  · split <;> exact h
  · exact h

theorem memWf_execHalt (h : s.memWf = true) : OutWf (execHalt s) := by
  unfold execHalt
  exact memWf_drainTask h

/-! ### Descriptor words -/

theorem memWf_image {src : TmapSrc} {k : State → Pay → Res State} (h : s.memWf = true) (hk : ∀ u a1, u.memWf = true → ResWf (k u a1)) :
    ResWf (s.image src k) := by
  unfold State.image
  dsimp only
  split
  · refine memWf_place h (fun u a1 hu => ?_) fun _ _ hu => memWf_poisonTrap
    split
    · exact trivial
    · exact hk _ _ hu
  · split
    · exact trivial
    · split
      · exact trivial
      · refine memWf_place h (fun u a1 hu => ?_) fun _ _ hu => memWf_poisonTrap
        split
        · exact trivial
        · exact hk _ _ hu

theorem memWf_form {dr : DReg} {src : TmapSrc} {tag : BitVec 4} {bad : Desc → Option Nat} (h : s.memWf = true) : OutWf (s.form dr src tag bad) := by
  unfold State.form
  refine memWf_finish h (memWf_image h fun u a1 hu => ?_)
  dsimp only
  split
  · exact trivial
  · exact hu

theorem memWf_execTmapCopy {dm dn : DReg} {ra : Reg} (h : s.memWf = true) : OutWf (execTmapCopy dm dn ra s) := by
  unfold execTmapCopy
  refine memWf_finish h ?_
  split
  · exact h
  · split
    · unfold tagTrap
      exact trivial
    · exact h

theorem memWf_ringOk {d : Desc} {k : Res State} (hk : ResWf k) : ResWf (s.ringOk d k) := by
  unfold State.ringOk
  split
  · unfold tagTrap
    exact trivial
  · split
    · exact trivial
    · exact hk

theorem memWf_rwait {rd : Reg} {d : Desc} {n : Word} {fill : Bool} (h : s.memWf = true) : ResWf (s.rwait rd d n fill) := by
  unfold State.rwait
  refine memWf_ringOk ?_
  dsimp only
  split
  · exact trivial
  · split
    · exact trivial
    · split
      · split
        · exact trivial
        · exact h
      · split
        · exact trivial
        · exact h

theorem memWf_radv {rd : Reg} {d : Desc} {n : Word} {fill : Bool} (h : s.memWf = true) : ResWf (s.radv rd d n fill) := by
  unfold State.radv
  refine memWf_ringOk ?_
  dsimp only
  split
  · exact trivial
  · split
    · split
      · exact trivial
      · split
        · exact trivial
        · exact memWf_advance (memWf_wrS (memWf_wrWord _ _ h))
    · split
      · exact trivial
      · split
        · exact trivial
        · exact memWf_advance (memWf_wrS (memWf_wrWord _ _ h))

end

end Sys2Proof.Machine
end

section
/-! PROOFS. Blocks, slots and engine operations keep memory in its canonical form. -/

namespace Sys2Proof.Machine

open Sys2Proof

section
variable {s : State}

/-! ### Slots -/

theorem memWf_modTask {id : Nat} {f : Task → Task} (h : s.memWf = true) : (s.modTask id f).memWf = true := h

theorem memWf_modInst {b : BlkRef} {f : Inst → Inst} (h : s.memWf = true) : (s.modInst b f).memWf = true := h

theorem memWf_setOpSt {f : Fab} {o : OpSt} (h : s.memWf = true) : (s.setOpSt f o).memWf = true := h

theorem memWf_countTurn {f : Fab} (h : s.memWf = true) : (s.countTurn f).memWf = true := by
  unfold State.countTurn
  split <;> exact h

theorem memWf_noteO {f : Fab} {l : List (Nat × Token)} (h : s.memWf = true) : (s.noteO f l).memWf = true := by
  unfold State.noteO
  dsimp only
  split <;> exact h

theorem memWf_takeAll {f : Fab} {l : List (Nat × Token)} (h : s.memWf = true) : (s.takeAll f l).memWf = true := by
  unfold State.takeAll
  dsimp only
  split
  · exact memWf_noteO (memWf_foldl h fun _ _ hu => hu)
  · exact memWf_countTurn (memWf_noteO (memWf_foldl h fun _ _ hu => hu))

theorem memWf_toGate {task gate own img n : Nat} {pay : Word} {poison : Bool} (h : s.memWf = true) :
    OptWf (s.toGate task gate own img n pay poison) := by
  unfold State.toGate
  split
  · exact trivial
  · split
    · exact trivial
    · split
      · exact trivial
      · exact h

theorem memWf_push {b : BlkRef} {key cap : Nat} {t : Token} (h : s.memWf = true) : OptWf (s.push b key cap t) := by
  unfold State.push
  split
  · exact trivial
  · exact h

theorem memWf_sendTo {f : Fab} {tgt : BitVec 10} {t : Token} (h : s.memWf = true) : OptWf (s.sendTo f tgt t) := by
  unfold State.sendTo
  split
  · exact h
  · exact memWf_push h
  · split
    · exact h
    · exact memWf_toGate h

theorem memWf_sendAll {f : Fab} {l : List (BitVec 10 × Token)} (h : s.memWf = true) : OptWf (s.sendAll f l) := by
  induction l generalizing s with
  | nil => exact h
  | cons p l ih =>
    unfold State.sendAll
    split
    · exact trivial
    · next e => exact ih (e ▸ memWf_sendTo h :)

theorem memWf_modWave {b : BlkRef} {w : Nat} {g : WaveRec → WaveRec} (h : s.memWf = true) : (s.modWave b w g).memWf = true := h

theorem memWf_raise {f : Fab} {wave : Nat} {fl : FlagSet} (h : s.memWf = true) : (s.raise f wave fl).memWf = true := by
  unfold State.raise
  split <;> exact h

theorem memWf_holdStore {f : Fab} {wave owner : Nat} {k : StoreKind} {port : Option Nat} (h : s.memWf = true) :
    (s.holdStore f wave owner k port).memWf = true :=
  h

theorem memWf_taint {l : List (Nat × Nat × Nat)} (h : s.memWf = true) : (s.taint l).memWf = true := memWf_congr rfl (memWf_foldl h fun _ _ hu => hu)

theorem memWf_faultAt {b : BlkRef} {slot sid cell : Nat} {id : BitVec 32} {c : Cause} {wave elem : Nat} (h : s.memWf = true) :
    (s.faultAt b slot sid cell id c wave elem).memWf = true := by
  unfold State.faultAt
  dsimp only
  split
  · exact h
  · exact memWf_taskFail (memWf_addRec (memWf_modTask (memWf_taint h)))

theorem memWf_regionFault {f : Fab} {c : Cause} {wave elem : Nat} (h : s.memWf = true) :
    (s.regionFault f c wave elem).memWf = true :=
  memWf_congr rfl (memWf_faultAt h)

theorem memWf_sent {o : Option State} {k : State → State} (ho : OptWf o) (hk : ∀ u, u.memWf = true → (k u).memWf = true) :
    FireWf (Fire.sent o k) := by
  unfold Fire.sent
  split
  · exact hk _ ho
  · exact trivial

theorem memWf_fabric {w : FabW} {go : Fab → Fire} (h : s.memWf = true) (hgo : ∀ a0, FireWf (go a0)) : OutWf (s.fabric w go) := by
  unfold State.fabric
  split
  · exact h
  · split
    · exact memWf_regionFault h
    · split
      · exact h
      · exact memWf_regionFault h
      · next e2 => exact (e2 ▸ hgo _ :)

theorem memWf_passEos {f : Fab} {l : List (Nat × Token)} (h : s.memWf = true) : FireWf (s.passEos f l) := by
  unfold State.passEos
  split
  · exact trivial
  · exact memWf_sent (memWf_sendAll h) fun _ hu => memWf_setOpSt (memWf_takeAll hu)

theorem memWf_checked {f : Fab} {need : List (Nat × BitVec 4)} {go : List (Nat × Token) → Fire} (h : s.memWf = true) (hgo : ∀ a0, FireWf (go a0)) :
    FireWf (s.checked f need go) := by
  unfold State.checked
  split
  · exact trivial
  · split
    · exact trivial
    · split
      · exact memWf_passEos h
      · exact trivial
      · split
        · exact trivial
        · split
          · exact trivial
          · exact hgo _

theorem memWf_stepPhase {f : Fab} (h : s.memWf = true) : (s.stepPhase f).memWf = true := h

theorem memWf_fireElem {f : Fab} {need : List (Nat × BitVec 4)} {go : Pay → Pay → Pay → Nat → Made} (h : s.memWf = true) :
    FireWf (s.fireElem f need go) := by
  unfold State.fireElem
  dsimp only
  split
  · exact trivial
  · refine memWf_checked h fun a0 => memWf_sent (memWf_sendAll h) fun u hu => ?_
    split
    · exact memWf_stepPhase (memWf_raise (memWf_takeAll hu))
    · exact memWf_raise (memWf_takeAll hu)

/-! ### Engine operations -/

theorem memWf_engLink {o : EngOp} (h : s.memWf = true) : OptWf (s.engLink o) := by
  unfold State.engLink
  split
  · exact h
  · split
    · exact h
    · exact trivial

theorem memWf_engReached {o : EngOp} {t : Tgt} (h : s.memWf = true) : (s.engReached o t).memWf = true := by
  unfold State.engReached
  split <;> exact h

theorem memWf_engRead {o : EngOp} {x2 : Piece} (h : s.memWf = true) : EngWf (s.engRead o x2) := by
  unfold State.engRead
  dsimp only
  split
  · exact h
  · split <;> exact h
  · exact h
  · split
    · split <;> exact h
    · exact h
    · split
      · exact h
      · exact h
      · exact h
      · split
        · split
          · next e4 => exact (e4 ▸ memWf_engLink h :)
          · exact h
        · split
          · exact h
          · split
            · next e5 => exact (e5 ▸ memWf_strike (memWf_engReached h) :)
            · next e5 => exact (e5 ▸ memWf_strike (memWf_engReached h) :)
            · next e5 =>
                split
                · exact (e5 ▸ memWf_strike (memWf_engReached h) :)
                · split <;> exact (e5 ▸ memWf_strike (memWf_engReached h) :)

theorem memWf_engReadAll {o : EngOp} {l : List Piece} (h : s.memWf = true) : EngWf (s.engReadAll o l) := by
  induction l generalizing s with
  | nil => exact h
  | cons p l ih =>
    unfold State.engReadAll
    split
    · next u b e =>
      have hu : u.memWf = true := (e ▸ memWf_engRead h :)
      split
      · next v c e => exact (e ▸ ih hu :)
      · exact ih hu
    · exact memWf_engRead h

theorem memWf_engPiece {o : EngOp} {k : Nat} (h : s.memWf = true) : EngWf (s.engPiece o k) := by
  unfold State.engPiece
  split
  · exact memWf_engReadAll h
  · exact h
  · exact memWf_engReadAll h

theorem memWf_engWrite {o : EngOp} {va : Word} {l : List Byte} (h : s.memWf = true) : EngWf (s.engWrite o va l) := by
  unfold State.engWrite
  dsimp only
  split
  · exact h
  · exact h
  · exact h
  · split
    · exact h
    · split
      · exact h
      · split
        · exact h
        · split
          · exact h
          · exact memWf_store _ _ h
        · split
          · split
            · next e6 => exact (e6 ▸ memWf_engLink h :)
            · exact memWf_errorRec h
          · exact memWf_store _ _ (memWf_engReached h)

theorem memWf_engWriteAll {id : Nat} {l : List Piece} {d : List Byte} (h : s.memWf = true) : EngWf (s.engWriteAll id l d) := by
  induction l generalizing s d with
  | nil => exact h
  | cons p l ih =>
    unfold State.engWriteAll
    split
    · split
      · exact h
      · split
        · next e => exact ih (e ▸ memWf_engWrite h :)
        · exact memWf_engWrite h
    · exact ih h

theorem memWf_wrSave {r : SaveRec} {off : Nat} {l : List Byte} (h : s.memWf = true) :
    (s.wrSave r off l).memWf = true :=
  memWf_congr rfl (memWf_congr rfl (memWf_wrBytes _ _ h))

theorem memWf_noteRefused {o : EngOp} {p : Nat × Nat × Word} (h : s.memWf = true) : (s.noteRefused o p).memWf = true := by
  unfold State.noteRefused
  dsimp only
  split
  · exact h
  · exact memWf_wrSave (memWf_wrSave h)

theorem memWf_noteEnded {id : Nat} (h : s.memWf = true) : (s.noteEnded id).memWf = true := by
  unfold State.noteEnded
  split
  · exact h
  · split
    · exact h
    · split
      · exact memWf_wrSave h
      · exact h

theorem memWf_engChunk {o : EngOp} {k off : Nat} {l : List Byte} (h : s.memWf = true) : EngWf (s.engChunk o k off l) := by
  unfold State.engChunk
  dsimp only
  split
  · exact memWf_noteRefused h
  · split
    · exact h
    · split
      · exact h
      · exact memWf_modSec (memWf_store _ _ h)

theorem memWf_engPut {o : EngOp} {k : Nat} {l : List Byte} (h : s.memWf = true) : EngWf (s.engPut o k l) := by
  unfold State.engPut
  dsimp only
  split
  · exact memWf_engWriteAll h
  · exact memWf_engChunk h
  · exact h
  · exact memWf_engWriteAll h

theorem memWf_engFail {o : EngOp} {code : BitVec 8} {va : Word} (h : s.memWf = true) :
    (s.engFail o code va).memWf = true :=
  memWf_congr rfl (memWf_noteEnded h)

theorem memWf_engFault {o : EngOp} {va : Word} {c : Cause} {acc : Nat} (h : s.memWf = true) :
    (s.engFault o va c acc).memWf = true :=
  memWf_congr rfl (memWf_setOp (memWf_faultRec h))

theorem memWf_stop {o : EngOp} {x1 : EngGot} (hx1 : EngWf x1) : (EngGot.stop o x1).memWf = true := by
  unfold EngGot.stop
  split
  · exact hx1
  · exact hx1
  · exact memWf_engFail hx1
  · exact memWf_engFault hx1

/-- The state that the reads of a coll have come to has its memory in canonical form. -/
def CollWf : (State × List (List Byte)) ⊕ (EngOp × EngGot) → Prop
  | .inl p => p.1.memWf = true
  | .inr p => EngWf p.2

/-- What a structural recursion on a list gives has a property that every step of the recursion keeps. -/
theorem brecOn_property {α β : Type} {F : (l : List α) → List.below (motive := fun _ => β) l → β} {P : β → Prop} (nil : ∀ b, P (F [] b))
    (cons : ∀ a l b, P b.1 → P (F (a :: l) b)) (l : List α) : P (List.brecOn (motive := fun _ => β) l F) := by
  induction l with
  | nil => exact nil _
  | cons a l ih => exact cons _ _ _ ih

/-- The first of two arguments taken for an unknown. -/
theorem of_forall_eq {δ ε γ : Type} {P : γ → Prop} {g : δ → ε → γ} {B : δ} {c : ε} (h : ∀ B', B' = B → P (g B' c)) : P (g B c) := h B rfl

/-- The reads of the operations after the first keep the canonical form. -/
def CollRest : (l : List EngOp) → List.below (motive := fun _ => State → (State × List (List Byte)) ⊕ (EngOp × EngGot)) l → Prop
  | [], _ => True
  | _ :: _, b => ∀ u : State, u.memWf = true → CollWf (b.1 u)

/-- One step of the recursion. (The recursion's own equation is not used: to check it the kernel would lay out the runs of an unknown map.) -/
theorem memWf_collRead_step {l : List EngOp} {b : List.below (motive := fun _ => State → (State × List (List Byte)) ⊕ (EngOp × EngGot)) l}
    {s : State} (hb : CollRest l b) (h : s.memWf = true) : CollWf (State.collRead._f l b s) := by
  delta State.collRead._f
  cases l with
  | nil => exact h
  | cons o l =>
    refine of_forall_eq (P := CollWf) fun B hB => ?_
    dsimp only
    subst hB
    beta_reduce
    have hr := memWf_engReadAll (o := o) (l := o.map.runs o.indexOf o.map.bytes 0 o.map.bytes) h
    generalize s.engReadAll o (o.map.runs o.indexOf o.map.bytes 0 o.map.bytes) = r at hr
    split
    · have hu : ∀ r, b.1 _ = r → CollWf r := fun _ e => e ▸ hb _ hr
      split
      · next e => exact (hu _ e :)
      · exact hu _ rfl
    · exact hr

theorem memWf_collRead {l : List EngOp} (h : s.memWf = true) : CollWf (s.collRead l) := by
  have hl := brecOn_property (F := State.collRead._f) (P := fun f => ∀ s : State, s.memWf = true → CollWf (f s))
    (fun _ _ h => memWf_collRead_step (l := []) trivial h) (fun a l _ hb _ h => memWf_collRead_step (l := a :: l) hb h) l
  delta State.collRead
  exact hl s h

theorem memWf_collFail {l : List EngOp} {code : BitVec 8} {va : Word} (h : s.memWf = true) :
    (s.collFail l code va).memWf = true :=
  memWf_congr rfl (memWf_foldl h fun _ _ hu => memWf_engFail hu)

theorem memWf_collForm {l : List EngOp} (h : s.memWf = true) : (s.collForm l).memWf = true := by
  unfold State.collForm
  split
  · exact h
  · split
    · exact memWf_collFail h
    · split
      · split
        · exact memWf_collFail h
        · exact h
      · split
        · exact h
        · split
          · next e => exact memWf_collFail (e ▸ memWf_collRead h :)
          · next e => exact memWf_stop (e ▸ memWf_collRead h :)
          · next u bs e =>
            have hu : u.memWf = true := (e ▸ memWf_collRead h :)
            split
            · exact memWf_foldl hu fun _ _ hu => memWf_setOp hu
            · exact hu

theorem memWf_issueOp {hd : DReg} {rd : Reg} {v : Word} {o : EngOp} (h : s.memWf = true) : (s.issueOp hd rd v o).memWf = true := by
  unfold State.issueOp
  refine memWf_advance (memWf_wrS (memWf_wrD ?_))
  dsimp only
  split <;> exact h

theorem memWf_engIssue {hd : DReg} {rd : Reg} {d : Desc} {base : Word} {len : Nat} {kind : EngKind} {tgt : Res EngTo} {f : EngOp → EngOp}
    (h : s.memWf = true) :
    ResWf (s.engIssue hd rd d base len kind tgt f) := by
  unfold State.engIssue
  unfold Res.bind
  dsimp only
  split
  · split
    · exact trivial
    · refine memWf_issueOp ?_
      split
      · exact memWf_noteRcAt h
      · exact h
  · exact trivial
  · exact trivial

/-! ### Router operators -/

theorem memWf_fireAt {f : Fab} {poss : List Nat} {go : List (Nat × Token) → Fire} (hgo : ∀ a0, FireWf (go a0)) :
    FireWf (s.fireAt f poss go) := by
  unfold State.fireAt
  split
  · exact trivial
  · split
    · exact trivial
    · split
      · exact trivial
      · exact hgo _

theorem memWf_pass {f : Fab} {l : List (Nat × Token)} {out : List (BitVec 10 × Token)} {o : OpSt} (h : s.memWf = true) :
    FireWf (s.pass f l out o) := by
  unfold State.pass
  exact memWf_sent (memWf_sendAll h) fun _ hu => memWf_setOpSt (memWf_takeAll hu)

theorem memWf_loopOp {f : Fab} {isCarry : Bool} (h : s.memWf = true) : FireWf (s.loopOp f isCarry) := by
  unfold State.loopOp
  dsimp only
  split
  · refine memWf_fireAt fun a0 => ?_
    split <;> exact memWf_pass h
  · split
    · refine memWf_fireAt fun a0 => ?_
      split
      · exact trivial
      · split <;> exact memWf_pass h
    · refine memWf_fireAt fun a0 => ?_
      split
      · exact trivial
      · exact memWf_pass h

theorem memWf_iterOp {f : Fab} (h : s.memWf = true) : FireWf (s.iterOp f) := by
  unfold State.iterOp
  dsimp only
  split
  · refine memWf_fireAt fun a0 => ?_
    split
    · exact memWf_pass h
    · split
      · exact trivial
      · exact memWf_pass h
  · split <;> exact memWf_pass h

theorem memWf_execSteer {w : FabW} (h : s.memWf = true) : OutWf (execSteer w s) := by
  unfold execSteer
  refine memWf_fabric h fun a0 => memWf_fireAt fun a0 => ?_
  dsimp only
  split
  · exact trivial
  · exact memWf_pass h

theorem memWf_execMerge {w : FabW} (h : s.memWf = true) : OutWf (execMerge w s) := by
  unfold execMerge
  refine memWf_fabric h fun a0 => ?_
  dsimp only
  split
  · exact trivial
  · split
    · exact trivial
    · split
      · exact trivial
      · exact memWf_fireAt fun _ => memWf_pass h

theorem memWf_execIter {w : FabW} (h : s.memWf = true) : OutWf (execIter w s) := by
  unfold execIter
  exact memWf_fabric h fun _ => memWf_iterOp h

theorem memWf_execConst {w : FabW} (h : s.memWf = true) : OutWf (execConst w s) := by
  unfold execConst
  refine memWf_fabric h fun a0 => ?_
  dsimp only
  split
  · exact trivial
  · split
    · exact trivial
    · exact memWf_pass h

theorem memWf_execEosq {w : FabW} (h : s.memWf = true) : OutWf (execEosq w s) := by
  unfold execEosq
  refine memWf_fabric h fun a0 => memWf_fireAt fun a0 => ?_
  dsimp only
  split <;> exact memWf_pass h

/-! ### Tiles -/

theorem memWf_setTcw {t : TileRef} {w : BitVec 16} (h : s.memWf = true) : (s.setTcw t w).memWf = true := h

theorem memWf_setRc {t : TileRef} {n : Nat} (h : s.memWf = true) : (s.setRc t n).memWf = true := h

theorem memWf_clearTile {t : TileRef} (h : s.memWf = true) :
    (s.clearTile t).memWf = true :=
  memWf_congr rfl (memWf_setTcw (memWf_setRc (memWf_foldl h fun _ _ hu => hu)))

theorem memWf_addRow {t : TileRef} {k m : Nat} {int : Bool} {g : List Group} (h : s.memWf = true) : (s.addRow t k m int g).memWf = true := by
  unfold State.addRow
  refine memWf_setTcw ?_
  split
  · split <;> exact h
  · split <;> exact h

theorem memWf_normRowOf {t : TileRef} {m : Nat} (h : s.memWf = true) :
    (s.normRowOf t m).memWf = true :=
  memWf_congr rfl (memWf_foldl h fun _ _ hu => hu)

/-! ### Memory nodes -/

theorem memWf_nodeFault {f : Fab} {va : Word} {c : Cause} {acc : Acc} (h : s.memWf = true) : NodeWf (s.nodeFault f va c acc) := by
  unfold State.nodeFault
  exact memWf_setOpSt (memWf_faultRec h)

theorem memWf_nodeAddr {f : Fab} {va : Word} {align n : Nat} {acc : Acc} {barred : Tgt → Bool} (h : s.memWf = true) :
    NodeWf (s.nodeAddr f va align n acc barred) := by
  unfold State.nodeAddr
  dsimp only
  split
  · exact h
  · split
    · exact trivial
    · split
      · exact trivial
      · split
        · exact h
        · exact memWf_nodeFault h
        · exact memWf_nodeFault h
        · split
          · exact memWf_nodeFault h
          · split
            · exact trivial
            · split
              · split
                · exact h
                · split
                  · exact h
                  · exact trivial
              · split
                · exact h
                · split
                  · exact h
                  · split
                    · next e9 => exact (e9 ▸ memWf_strike h :)
                    · next e9 => exact (e9 ▸ memWf_strike h :)
                    · next e9 => exact (e9 ▸ memWf_strike h :)

theorem memWf_run {r : NodeTo} {wave : Nat} {go : State → Tgt → Bool → Fire} (hr : NodeWf r) (hgo : ∀ u a1 a2, u.memWf = true → FireWf (go u a1 a2)) :
    FireWf (NodeTo.run r wave go) := by
  unfold NodeTo.run
  split
  · exact hgo _ _ _ hr
  · exact hr
  · exact trivial

theorem memWf_nodeDone {f : Fab} {l : List (Nat × Token)} {t : Token} (h : s.memWf = true) : FireWf (s.nodeDone f l t) := by
  unfold State.nodeDone
  exact memWf_pass h

theorem memWf_execMld {w : FabW} (h : s.memWf = true) : OutWf (execMld w s) := by
  unfold execMld
  refine memWf_fabric h fun a0 => memWf_checked h fun a0 => ?_
  dsimp only
  split
  · split
    · split
      · exact trivial
      · exact memWf_nodeDone h
    · split
      · exact trivial
      · exact memWf_nodeDone h
  · refine memWf_run (memWf_nodeAddr h) fun u a1 a2 hu => ?_
    split
    · split
      · exact trivial
      · exact memWf_nodeDone hu
    · split
      · exact trivial
      · exact memWf_nodeDone hu

theorem memWf_execMst {w : FabW} (h : s.memWf = true) : OutWf (execMst w s) := by
  unfold execMst
  refine memWf_fabric h fun a0 => memWf_checked h fun a0 => ?_
  dsimp only
  split
  · split
    · exact trivial
    · split
      · exact trivial
      · exact memWf_pass h
  · refine memWf_run (memWf_nodeAddr h) fun u a1 a2 hu => ?_
    split
    · exact trivial
    · exact memWf_pass hu

theorem memWf_execMatm {w : FabW} (h : s.memWf = true) : OutWf (execMatm w s) := by
  unfold execMatm
  refine memWf_fabric h fun a0 => memWf_checked h fun a0 => memWf_run (memWf_nodeAddr h) fun u a1 a2 hu => ?_
  dsimp only
  split
  · split
    · exact trivial
    · refine memWf_nodeDone ?_
      split
      · exact memWf_store _ _ hu
      · exact hu
  · split
    · exact trivial
    · refine memWf_nodeDone ?_
      split
      · exact memWf_store _ _ hu
      · exact hu

theorem memWf_execMldv {w : FabW} (h : s.memWf = true) : OutWf (execMldv w s) := by
  unfold execMldv
  refine memWf_fabric h fun f => memWf_checked h fun l => memWf_run (memWf_nodeAddr h) fun u t p hu => ?_
  dsimp only
  generalize u.vFloor t.line = m, u.vNext t.line = n
  split
  · exact memWf_nodeDone hu
  · split
    · exact trivial
    · split
      · exact memWf_nodeDone hu
      · exact trivial

theorem memWf_execMstv {w : FabW} (h : s.memWf = true) : OutWf (execMstv w s) := by
  unfold execMstv
  refine memWf_fabric h fun a0 => memWf_checked h fun a0 => memWf_run (memWf_nodeAddr h) fun u a1 a2 hu => ?_
  dsimp only
  split
  · exact trivial
  · exact memWf_pass hu

theorem memWf_execOtok {w : FabW} (h : s.memWf = true) : OutWf (execOtok w s) := by
  unfold execOtok
  refine memWf_fabric h fun a0 => ?_
  dsimp only
  split
  · exact memWf_fireAt fun _ => memWf_pass h
  · split
    · exact memWf_pass h
    · exact trivial

/-! ### Ports -/

theorem memWf_modPort {sid q : Nat} {g : PortSt → PortSt} (h : s.memWf = true) : (s.modPort sid q g).memWf = true := h

theorem memWf_closeRead {sid q : Nat} (h : s.memWf = true) : (s.closeRead sid q).memWf = true := by
  unfold State.closeRead
  dsimp only
  split
  · split <;> exact h
  · exact h

theorem memWf_readPiece {sid : Nat} {x2 : Piece} (h : s.memWf = true) : GotWf (s.readPiece sid x2) := by
  unfold State.readPiece
  split
  · exact h
  · exact h
  · exact h
  · split
    · exact h
    · exact trivial
    · exact trivial
    · split
      · exact trivial
      · split
        · exact h
        · split
          · next e3 => exact (e3 ▸ memWf_strike h :)
          · next e3 => exact (e3 ▸ memWf_strike h :)
          · next e3 => exact (e3 ▸ memWf_strike h :)

theorem memWf_readPieces {sid : Nat} {l : List Piece} (h : s.memWf = true) : GotWf (s.readPieces sid l) := by
  induction l generalizing s with
  | nil => exact h
  | cons p l ih =>
    unfold State.readPieces
    split
    · next u b k e =>
      have hu : u.memWf = true := (e ▸ memWf_readPiece h :)
      split
      · next v c m e => exact (e ▸ ih hu :)
      · exact ih hu
    · exact memWf_readPiece h

theorem memWf_noteAddr {sid q : Nat} {gather : Bool} {va : Word} (h : s.memWf = true) : (s.noteAddr sid q gather va).memWf = true := by
  unfold State.noteAddr
  dsimp only
  split
  · exact h
  · split
    · exact h
    · split <;> exact h

theorem memWf_noteEntry {sid q : Nat} {gather : Bool} {l : List Piece} (h : s.memWf = true) :
    (s.noteEntry sid q gather l).memWf = true :=
  memWf_congr rfl (memWf_foldl h fun _ _ hu => memWf_noteAddr hu)

theorem memWf_portFault {sid q : Nat} {b : Bind} {va : Word} {c : Cause} {pos : Nat} (h : s.memWf = true) :
    (s.portFault sid q b va c pos).2.memWf = true := by
  unfold State.portFault
  exact memWf_faultRec h

theorem memWf_divert {sid q : Nat} {ca : Bool} {b : Bind} {va : Word} {c : Cause} (h : s.memWf = true) : (s.divert sid q ca b va c).memWf = true := by
  unfold State.divert
  dsimp only
  split <;> exact memWf_modPort (memWf_portFault h)

theorem memWf_pinSend {f : Fab} {wave : Nat} {t : Token} {k : PortSt → PortSt} (h : s.memWf = true) : FireWf (s.pinSend f wave t k) := by
  unfold State.pinSend
  dsimp only
  split
  · exact trivial
  · split
    · exact trivial
    · refine memWf_sent (memWf_sendAll h) fun u hu => memWf_setOpSt (memWf_modPort ?_)
      split <;> exact hu

/-- An element sent by a pin, and the port's binding closed where it was the last. -/
theorem memWf_pinSend_closeRead {f : Fab} {wave : Option Nat} {t : Token} {k : PortSt → PortSt} (h : s.memWf = true) :
    FireWf (match wave with | none => Fire.wait | some w => match s.pinSend f w t k with | .done v => .done (v.closeRead f.sid f.cell) | r => r) := by
  split
  · exact trivial
  · split
    · next e => exact memWf_closeRead (e ▸ memWf_pinSend h :)
    · exact memWf_pinSend h

theorem memWf_pinElem {f : Fab} {b : Bind} {wave : Option Nat} (h : s.memWf = true) : FireWf (s.pinElem f b wave) := by
  unfold State.pinElem
  extract_lets p send bad
  have hsend : ∀ (u : State) (t : Token), u.memWf = true → FireWf (send u t) := fun _ _ hu => memWf_pinSend_closeRead hu
  clear_value send bad
  split
  · exact trivial
  · split
    · next e => exact memWf_modPort (e ▸ hsend _ _ h :)
    · exact hsend _ _ h
  · split
    · exact memWf_closeRead h
    · exact memWf_divert h
    · split
      · next e => exact (e ▸ memWf_readPieces h :)
      · split
        · exact memWf_setOpSt h
        · split
          · exact trivial
          · exact hsend _ _ h
      · exact memWf_closeRead (memWf_divert (memWf_noteEntry h))
      · next e => exact hsend _ _ (memWf_noteEntry (e ▸ memWf_readPieces h :))

theorem memWf_execPin {w : FabW} (h : s.memWf = true) : OutWf (execPin w s) := by
  unfold execPin
  refine memWf_fabric h fun a0 => ?_
  dsimp only
  split
  · split
    · exact trivial
    · split
      · next e3 => exact memWf_closeRead (e3 ▸ memWf_pinSend h :)
      · exact memWf_pinSend h
  · exact trivial
  · split
    · exact trivial
    · split
      · exact trivial
      · split
        · exact trivial
        · exact memWf_pinElem h

theorem memWf_poutElem {f : Fab} {b : Bind} {src : BlkRef} {wave : Nat} {a : Token} {consume : State → Fire} (h : s.memWf = true)
    (hconsume : ∀ u, u.memWf = true → FireWf (consume u)) :
    FireWf (s.poutElem f b src wave a consume) := by
  unfold State.poutElem
  extract_lets p pieces
  split
  · exact trivial
  · exact trivial
  · split
    · exact trivial
    · exact trivial
    · exact memWf_modPort (memWf_portFault (memWf_noteEntry h))
    · split
      · exact trivial
      · extract_lets s1 s2 ended
        have h2 : s2.memWf = true := memWf_modPort (memWf_noteEntry (memWf_foldl h fun _ _ hu => memWf_holdStore hu))
        clear_value s2
        refine hconsume _ ?_
        split
        · exact memWf_modPort h2
        · exact h2

theorem memWf_poutTake {f : Fab} {src : BlkRef} {wave : Nat} {a : Token} {consume : State → Fire} (h : s.memWf = true)
    (hconsume : ∀ u, u.memWf = true → FireWf (consume u)) :
    FireWf (s.poutTake f src wave a consume) := by
  unfold State.poutTake
  split
  · exact hconsume _ (memWf_modPort h)
  · exact trivial
  · split
    · split
      · exact memWf_poutElem h hconsume
      · exact trivial
    · exact trivial

theorem memWf_poutRouted {f : Fab} (h : s.memWf = true) : FireWf (s.poutRouted f) := by
  unfold State.poutRouted
  split
  · exact trivial
  · split
    · exact memWf_regionFault h
    · split
      · exact trivial
      · exact memWf_poutTake h fun _ hu => hu

theorem memWf_execPout {w : FabW} (h : s.memWf = true) : OutWf (execPout w s) := by
  unfold execPout
  refine memWf_fabric h fun a0 => ?_
  split
  · exact memWf_poutRouted h
  · exact memWf_fireAt fun _ => memWf_poutTake h fun _ hu => memWf_pass hu

theorem memWf_replay {sid q : Nat} (h : s.memWf = true) : (s.replay sid q).memWf = true := by
  unfold State.replay
  dsimp only
  split
  · split
    · exact memWf_closeRead h
    · split
      · exact memWf_closeRead h
      · split
        · next e5 => exact memWf_closeRead (memWf_modPort (memWf_noteEntry (e5 ▸ memWf_readPieces h :)))
        · exact memWf_modPort (memWf_portFault (memWf_noteEntry h))
        · next e5 => exact (e5 ▸ memWf_readPieces h :)
        · exact memWf_closeRead h
  · exact h

theorem memWf_fetchSpilled {sid q : Nat} (h : s.memWf = true) : (s.fetchSpilled sid q).memWf = true := by
  unfold State.fetchSpilled
  dsimp only
  split
  · exact h
  · refine memWf_foldl h fun u a hu => ?_
    split
    · split
      · next e2 => exact memWf_modPort (memWf_noteEntry (e2 ▸ memWf_readPieces hu :))
      · exact hu
    · exact hu

end

end Sys2Proof.Machine
end

section
/-! PROOFS. The events of the fabric, configurations, power, answers and engine words keep memory in its canonical form. -/

namespace Sys2Proof.Machine

open Sys2Proof

section
variable {s : State}

/-! ### Waves and their stores -/

theorem memWf_forwardDrain {k : Bk} {slot id : Nat} (h : s.memWf = true) : (s.forwardDrain k slot id).memWf = true := by
  unfold State.forwardDrain
  refine memWf_foldl h fun u a hu => ?_
  dsimp only
  split <;> exact hu

theorem memWf_passDrains {b : BlkRef} (h : s.memWf = true) : (s.passDrains b).memWf = true := by
  unfold State.passDrains
  dsimp only
  split
  · exact h
  · split
    · exact h
    · refine memWf_foldl (memWf_foldl h fun u a hu => ?_) fun u a hu => ?_
      · split
        · exact memWf_forwardDrain hu
        · exact hu
      · split
        · exact hu
        · split
          · exact memWf_forwardDrain hu
          · exact hu

theorem memWf_fireWave {k : Bk} (h : s.memWf = true) : (s.fireWave k).memWf = true := by
  unfold State.fireWave
  refine memWf_modTask (memWf_modInst (memWf_foldl h fun u a hu => ?_))
  dsimp only
  split <;> exact hu

theorem memWf_execWaveFire {b : BlkRef} (h : s.memWf = true) : OutWf (execWaveFire b s) := by
  unfold execWaveFire
  dsimp only
  split
  · exact memWf_passDrains h
  · split
    · exact memWf_fireWave (memWf_passDrains h)
    · exact memWf_passDrains h

theorem memWf_modStore {p : PStore} {g : PStore → PStore} (h : s.memWf = true) : (s.modStore p g).memWf = true := h

theorem memWf_askStore {t : Task} {p : PStore} {a : Tgt} (h : s.memWf = true) :
    (s.askStore t p a).memWf = true :=
  memWf_congr rfl (memWf_modStore (memWf_faultRec h))

theorem memWf_meetStore {p : PStore} (h : s.memWf = true) : StrikeWf (s.meetStore p) := by
  unfold State.meetStore
  split
  · exact h
  · split
    · show State.memWf (ite _ _ _) = true
      split
      · exact h
      · exact memWf_askStore h
    · split
      · split
        · exact h
        · split <;> exact h
      · exact memWf_strike h

theorem memWf_meetStores {l : List PStore} (h : s.memWf = true) : (s.meetStores l).2.memWf = true := by
  induction l generalizing s with
  | nil => exact h
  | cons p l ih =>
    unfold State.meetStores
    split
    · exact ih h
    · split
      · next e => exact ih (e ▸ memWf_meetStore h :)
      · next e => exact (e ▸ memWf_meetStore h :)
      · next e => exact ih (memWf_modStore (e ▸ memWf_meetStore h :))

theorem memWf_lostStore {c : BitVec 8} {p : PStore} (h : s.memWf = true) : (s.lostStore c p).memWf = true := by
  unfold State.lostStore
  split
  · exact h
  · split
    · exact memWf_errorRec h
    · split <;> exact memWf_poisonRun h

theorem memWf_release {p : PStore} (h : s.memWf = true) : (s.release p).memWf = true := by
  unfold State.release
  dsimp only
  split
  · exact memWf_lostStore h
  · split
    · exact memWf_wrSome h
    · split
      · exact memWf_wrSome h
      · exact h
    · exact memWf_vCreate h

theorem memWf_releaseAll {task : Nat} {l : List PStore} (h : s.memWf = true) : (s.releaseAll task l).memWf = true := by
  unfold State.releaseAll
  dsimp only
  split
  · exact memWf_modTask (memWf_foldl h fun _ _ hu => memWf_release hu)
  · exact memWf_settleAt (memWf_modTask (memWf_foldl h fun _ _ hu => memWf_release hu))

theorem memWf_commit {b : BlkRef} {r : WaveRec} (h : s.memWf = true) :
    (s.commit b r).memWf = true :=
  memWf_congr rfl (memWf_passDrains (memWf_modTask (memWf_commitFlags h)))

theorem memWf_commitReleased {b : BlkRef} {n : Nat} (h : s.memWf = true) : (State.commitReleased b n s).memWf = true := by
  induction n generalizing s with
  | zero => exact h
  | succ n ih =>
    unfold State.commitReleased
    split
    · exact ih (memWf_commit h)
    · exact h

theorem memWf_execWaveCommit {b : BlkRef} {w : Nat} (h : s.memWf = true) : OutWf (execWaveCommit b w s) := by
  unfold execWaveCommit
  dsimp only
  split
  · exact h
  · split
    · exact h
    · split
      · exact memWf_commit h
      · split
        · exact h
        · split
          · next e4 => exact (e4 ▸ memWf_meetStores h :)
          · next e4 => exact memWf_commit (memWf_releaseAll (e4 ▸ memWf_meetStores h :))

theorem memWf_releaseShare {b : BlkRef} {w : Nat} {l : List PStore} (h : s.memWf = true) :
    (s.releaseShare b w l).memWf = true :=
  memWf_congr rfl (memWf_commitReleased (memWf_modWave (memWf_releaseAll h)))

theorem memWf_execOwnerShareRelease {b : BlkRef} {w owner : Nat} (h : s.memWf = true) : OutWf (execOwnerShareRelease b w owner s) := by
  unfold execOwnerShareRelease
  dsimp only
  split
  · exact h
  · split
    · exact h
    · split
      · split
        · split
          · exact h
          · split
            · next e5 => exact (e5 ▸ memWf_meetStores h :)
            · next e5 => exact memWf_releaseShare (e5 ▸ memWf_meetStores h :)
        · exact h
      · split
        · exact h
        · exact memWf_releaseShare h

theorem memWf_execThreadTokenDelivery {task pkt : Nat} (h : s.memWf = true) : OutWf (execThreadTokenDelivery task pkt s) := by
  unfold execThreadTokenDelivery
  dsimp only
  split
  · exact h
  · split
    · exact h
    · split
      · exact h
      · refine memWf_modTask ?_
        split
        · exact memWf_setPoison (memWf_wrWord _ _ h)
        · exact memWf_wrWord _ _ h

theorem memWf_execSpillReplay {sid : BitVec 8} {q : Port} (h : s.memWf = true) : OutWf (execSpillReplay sid q s) := by
  unfold execSpillReplay
  exact memWf_replay h

/-! ### Pre-emption -/

theorem memWf_startMarkers {t : Task} (h : s.memWf = true) : (s.startMarkers t).memWf = true := memWf_congr rfl (memWf_setTask (memWf_modSecs h))

theorem memWf_markRequest {task : Nat} (h : s.memWf = true) : (s.markRequest task).memWf = true := by
  unfold State.markRequest
  split
  · exact h
  · split
    · exact memWf_startMarkers h
    · exact memWf_startMarkers h
    · exact h

theorem memWf_schedRequest {task : Nat} (h : s.memWf = true) : (s.schedRequest task).memWf = true := by
  unfold State.schedRequest
  dsimp only
  split
  · exact h
  · split
    · exact h
    · split
      · exact memWf_modSecs h
      · exact memWf_startMarkers h

/-! ### Stream words -/

theorem memWf_noteFirst {sid q : Nat} {b : Bind} (h : s.memWf = true) : (s.noteFirst sid q b).memWf = true := by
  unfold State.noteFirst
  split
  · exact h
  · exact memWf_noteEntry h

theorem memWf_sbind {q : Port} {d : Desc} {v : Word} {write eos : Bool} (h : s.memWf = true) : ResWf (s.sbind q d v write eos) := by
  unfold State.sbind
  dsimp only
  split
  · unfold tagTrap
    exact trivial
  · split
    · exact trivial
    · split
      · exact trivial
      · split
        · exact trivial
        · split
          · exact trivial
          · refine memWf_advance (memWf_noteFirst ?_)
            split <;> exact h

theorem memWf_noteBar {id : Nat} {ports : List Nat} (h : s.memWf = true) : (s.noteBar id ports).memWf = true := by
  unfold State.noteBar
  refine memWf_foldl h fun u a hu => ?_
  split <;> exact hu

theorem memWf_execSbar {sel : BarSel} (h : s.memWf = true) : OutWf (execSbar sel s) := by
  unfold execSbar
  dsimp only
  split
  · show State.memWf _ = true
    split <;> exact h
  · show State.memWf _ = true
    split
    · exact memWf_advance (memWf_setWait (memWf_noteBar h))
    · exact memWf_setWait (memWf_noteBar h)

theorem memWf_passAll {task : Nat} (h : s.memWf = true) : (s.passAll task).memWf = true := by
  unfold State.passAll
  split
  · exact memWf_foldl h fun _ _ hu => memWf_passDrains hu
  · exact h

theorem memWf_execSbarComplete {sid : BitVec 8} (h : s.memWf = true) : OutWf (execSbarComplete sid s) := by
  unfold execSbarComplete
  split
  · next e =>
      split
      · exact memWf_execSbar (e ▸ memWf_ctlTurn (memWf_passAll h) :)
      · exact h
  · exact h

theorem memWf_execSeos {rd : Reg} {q : Port} (h : s.memWf = true) : OutWf (execSeos rd q s) := by
  unfold execSeos
  dsimp only
  split
  · exact h
  · split
    · exact h
    · split <;> exact h

theorem memWf_execTinjData {q : Port} {ra rb : Reg} {tag : BitVec 4} {bcast : Bool} (h : s.memWf = true) :
    OutWf (execTinjData q ra rb tag bcast s) := by
  unfold execTinjData
  dsimp only
  split <;> exact h

theorem memWf_execTinjThread {ra rb : Reg} (h : s.memWf = true) : OutWf (execTinjThread ra rb s) := by
  unfold execTinjThread
  refine memWf_finish h ?_
  split
  · exact trivial
  · split
    · exact trivial
    · next e1 => exact memWf_advance (e1 ▸ memWf_toGate h :)

theorem memWf_execMark {rd : Reg} (h : s.memWf = true) : OutWf (execMark rd s) := by
  unfold execMark
  split
  · exact h
  · split
    · exact h
    · exact memWf_markRequest h

/-! ### Configurations -/

theorem memWf_reown {sid : Nat} (h : s.memWf = true) : (s.reown sid).memWf = true := h

theorem memWf_takeParts {sid : Nat} {x0 : Sector} {hd : Share} (h : s.memWf = true) : (s.takeParts sid x0 hd).memWf = true := by
  unfold State.takeParts
  refine memWf_foldl h fun u a hu => memWf_foldl hu fun u a hu1 => ?_
  split <;> exact hu1

theorem memWf_swapSector {sid : Nat} (h : s.memWf = true) : (s.swapSector sid).memWf = true := by
  unfold State.swapSector
  dsimp only
  split
  · exact h
  · refine memWf_reown (memWf_modSec (memWf_foldl h fun u a hu => memWf_foldl hu fun u a hu1 => ?_))
    split <;> exact hu1

theorem memWf_promote {sid : Nat} (h : s.memWf = true) : (s.promote sid).memWf = true := by
  unfold State.promote
  dsimp only
  split <;> exact h

theorem memWf_afterSwitch {sid : Nat} {x0 : Sector} {ks : List Nat} {hd : Share} (h : s.memWf = true) :
    (s.afterSwitch sid x0 ks hd).memWf = true := by
  unfold State.afterSwitch
  refine memWf_promote (memWf_reown ?_)
  split
  · split
    · exact memWf_takeParts h
    · exact memWf_modSec (memWf_takeParts h)
  · split
    · exact memWf_takeParts h
    · exact memWf_modSec (memWf_takeParts h)

theorem memWf_switchSlots {sid : Nat} {hd : Share} {ks : List Nat} (h : s.memWf = true) :
    (s.switchSlots sid hd ks).memWf = true :=
  memWf_congr rfl (memWf_afterSwitch h)

theorem memWf_execGroupSwitch {sid : BitVec 8} {grp : Nat} (h : s.memWf = true) : OutWf (execGroupSwitch sid grp s) := by
  unfold execGroupSwitch
  dsimp only
  split
  · split
    · exact memWf_switchSlots h
    · exact h
  · exact h

theorem memWf_armSector {g sid : Nat} (h : s.memWf = true) : (s.armSector g sid).memWf = true := by
  unfold State.armSector
  extract_lets x
  split
  · exact h
  · exact memWf_afterSwitch (memWf_setSec h)

/-! ### Configuration words -/

theorem memWf_loadShadow {sid : Nat} {r : Word × Option Share} (h : s.memWf = true) : (s.loadShadow sid r).2.memWf = true := by
  unfold State.loadShadow
  split
  · exact h
  · split <;> exact h

theorem memWf_execCfgld {rd : Reg} {dr : DReg} {ra : Reg} (h : s.memWf = true) : OutWf (execCfgld rd dr ra s) := by
  unfold execCfgld
  refine memWf_finish h ?_
  dsimp only
  split
  · unfold tagTrap
    exact trivial
  · split
    · split
      · exact trivial
      · split
        · exact trivial
        · split
          · exact trivial
          · split
            · exact trivial
            · exact memWf_advance (memWf_wrS (memWf_loadShadow h))
    · exact trivial

theorem memWf_takeAnswer {k : Meet} {rd : Reg} (h : s.memWf = true) : OptWf (s.takeAnswer k rd) := by
  unfold State.takeAnswer
  split
  · split
    · exact h
    · exact trivial
  · exact trivial

theorem memWf_answerAll {sids : List Nat} {k : Meet} {v : Word} (h : s.memWf = true) :
    (s.answerAll sids k v).memWf = true :=
  memWf_congr rfl (memWf_modSecs h)

theorem memWf_whole {k : Meet} {rd : Reg} {act : State → State} (h : s.memWf = true) (hact : ∀ u, u.memWf = true → (act u).memWf = true) :
    OutWf (s.whole k rd act) := by
  have ha : ((s.arrive k).1).memWf = true := memWf_arrive h
  unfold State.whole
  split
  · exact memWf_takeTrap h
  · split
    · next e => exact (e ▸ memWf_takeAnswer h :)
    · dsimp only
      split
      · exact optWf_getD (memWf_takeAnswer (hact _ ha)) (hact _ ha)
      · exact ha

theorem memWf_modOwnInst {f : Inst → Inst} (h : s.memWf = true) : (s.modOwnInst f).memWf = true := h

theorem memWf_armAll (h : s.memWf = true) : s.armAll.memWf = true := by
  unfold State.armAll
  dsimp only
  split
  · exact memWf_answerAll h
  · split
    · exact memWf_answerAll h
    · exact memWf_answerAll (memWf_foldl h fun _ _ hu => memWf_armSector hu)

theorem memWf_execCfgarm {rd : Reg} (h : s.memWf = true) : OutWf (execCfgarm rd s) := by
  unfold execCfgarm
  exact memWf_whole h fun _ hu => memWf_armAll hu

theorem memWf_stopSources {sids : List Nat} {b : Bool} (h : s.memWf = true) : (s.stopSources sids b).memWf = true := memWf_congr rfl (memWf_modSecs h)

theorem memWf_swapAll (h : s.memWf = true) : s.swapAll.memWf = true := by
  unfold State.swapAll
  dsimp only
  split
  · exact memWf_answerAll h
  · exact memWf_modOwnInst (memWf_modSecs h)

theorem memWf_execCfgsw {rd : Reg} (h : s.memWf = true) : OutWf (execCfgsw rd s) := by
  unfold execCfgsw
  exact memWf_whole h fun _ hu => memWf_swapAll hu

theorem memWf_execSdrain {rd : Reg} (h : s.memWf = true) : OutWf (execSdrain rd s) := by
  unfold execSdrain
  exact memWf_whole h fun _ hu => memWf_modOwnInst (memWf_stopSources hu)

theorem memWf_execSdrainGo {rd : Reg} (h : s.memWf = true) : OutWf (execSdrainGo rd s) := by
  unfold execSdrainGo
  exact memWf_whole h fun _ hu => memWf_answerAll (memWf_stopSources hu)

theorem memWf_execDrainSwap {task k : Nat} (h : s.memWf = true) : OutWf (execDrainSwap task k s) := by
  unfold execDrainSwap
  dsimp only
  split
  · exact h
  · exact memWf_answerAll (memWf_modTask (memWf_foldl h fun _ _ hu => memWf_swapSector hu))

theorem memWf_execSdrainQuiescent {task k : Nat} (h : s.memWf = true) : OutWf (execSdrainQuiescent task k s) := by
  unfold execSdrainQuiescent
  split
  · exact h
  · exact memWf_answerAll h

theorem memWf_execBlockSchedulerDecision {task : Nat} (h : s.memWf = true) : OutWf (execBlockSchedulerDecision task s) := by
  unfold execBlockSchedulerDecision
  dsimp only
  split
  · exact h
  · split
    · exact h
    · split
      · exact h
      · split
        · exact h
        · split
          · exact h
          · exact memWf_stopSources h

theorem memWf_endDecision {task k : Nat} {sids : List Nat} {hd : HostSt} (h : s.memWf = true) :
    (s.endDecision task k sids hd).memWf = true :=
  memWf_congr rfl (memWf_stopSources h)

theorem memWf_loadHost {t : Task} {o : Obj} {c n : Nat} {l : List Nat} (h : s.memWf = true) : OptWf (s.loadHost t o c n l) := by
  induction l generalizing s with
  | nil => exact h
  | cons k l ih =>
    unfold State.loadHost
    dsimp only
    split
    · exact ih (memWf_modSec (memWf_loadShadow h))
    · exact trivial

theorem memWf_unload {sids : List Nat} (h : s.memWf = true) : (s.unload sids).memWf = true := memWf_congr rfl (memWf_modSecs h)

theorem memWf_execHostDrainSwap {task : Nat} (h : s.memWf = true) : OutWf (execHostDrainSwap task s) := by
  unfold execHostDrainSwap
  split
  · exact h
  · split
    · exact h
    · split
      · split
        · exact h
        · dsimp only
          split
          · exact h
          · split
            · exact memWf_endDecision h
            · split
              · next e =>
                have hu := (e ▸ memWf_loadHost (s := { s with nextId := s.nextId + 1 }) h :)
                exact memWf_endDecision (memWf_foldl hu fun _ _ hu => memWf_swapSector hu)
              · exact memWf_endDecision (memWf_unload h)
      · exact h

/-! ### Rail groups -/

theorem memWf_swapSections {g o : Nat} (h : s.memWf = true) : (s.swapSections g o).memWf = true := memWf_congr rfl (memWf_modSecs h)

theorem memWf_startMove {g : Nat} (h : s.memWf = true) : (s.startMove g).memWf = true := by
  unfold State.startMove
  dsimp only
  split
  · split
    · exact h
    · split
      · exact h
      · split
        · exact h
        · split <;> exact h
  · exact h

theorem memWf_endMove {g : Nat} (h : s.memWf = true) : (s.endMove g).memWf = true := memWf_congr rfl (memWf_startMove h)

theorem memWf_request {g t : Nat} {c : BitVec 8} (h : s.memWf = true) : (s.request g t c).memWf = true := by
  unfold State.request
  split
  · exact h
  · exact memWf_startMove h

/-! ### System words -/

theorem memWf_sysWrite {n : SysReg} {v : Word} (h : s.memWf = true) : (s.sysWrite n v).memWf = true := by
  unfold State.sysWrite
  dsimp only
  split
  · exact h
  · exact h
  · exact h
  · exact h
  · exact h
  · split <;> exact h
  · split <;> exact h
  · exact h

theorem memWf_execSyswr {n : SysReg} {ra : Reg} (h : s.memWf = true) : OutWf (execSyswr n ra s) := by
  unfold execSyswr
  exact memWf_advance (memWf_sysWrite h)

theorem memWf_execSvc {code : BitVec 16} (h : s.memWf = true) : OutWf (execSvc code s) := by
  unfold execSvc
  split
  · exact memWf_takeTrap h
  · exact h

theorem memWf_execTrap {code : BitVec 16} (h : s.memWf = true) : OutWf (execTrap code s) := by
  unfold execTrap
  exact memWf_takeTrap h

theorem memWf_execTret (h : s.memWf = true) : OutWf (execTret s) := by
  unfold execTret
  split
  · exact h
  · exact memWf_takeTrap h

theorem memWf_execTinv {sc : Scope} {ra : Reg} (h : s.memWf = true) : OutWf (execTinv sc ra s) := by
  unfold execTinv
  exact memWf_advance (memWf_foldl (memWf_modSecs (memWf_modSecs h)) fun _ _ hu => hu)

theorem memWf_execPwrq {t : OpPoint} {ra : Reg} (h : s.memWf = true) : OutWf (execPwrq t ra s) := by
  unfold execPwrq
  refine memWf_advance ?_
  split
  · exact h
  · exact memWf_request h

/-! ### Answers to records -/

theorem memWf_stopRest {task : Nat} (h : s.memWf = true) : (s.stopRest task).memWf = true := by
  unfold State.stopRest
  split
  · split
    · exact memWf_startMarkers h
    · exact h
  · exact h

theorem memWf_execTrapRecord {sid : BitVec 8} (h : s.memWf = true) : OutWf (execTrapRecord sid s) := by
  unfold execTrapRecord
  dsimp only
  split
  · split
    · exact h
    · exact memWf_stopRest (memWf_addRec (memWf_modThOf (memWf_newToken h)))
  · exact h

theorem memWf_modHolder {task : Nat} {p : Sector → Bool} {f : Sector → Sector} (h : s.memWf = true) : (s.modHolder task p f).memWf = true := by
  unfold State.modHolder
  split <;> exact h

theorem memWf_resolve {r : Rec} {retry : Bool} (h : s.memWf = true) : (s.resolve r retry).memWf = true := by
  unfold State.resolve
  dsimp only
  split
  · split
    · split
      · exact h
      · exact memWf_faultAt h
    · exact h
  · exact memWf_modHolder h
  · split
    · split
      · exact h
      · exact memWf_engFail h
    · split
      · split
        · exact h
        · exact memWf_engFail h
      · exact h
  · split <;> exact h
  · split
    · exact memWf_settle h
    · split <;> exact h
  · exact h

theorem memWf_execFaultRetry {m : Master} {token : BitVec 32} (h : s.memWf = true) : OutWf (execFaultRetry m token s) := by
  unfold execFaultRetry
  split
  · exact memWf_resolve h
  · exact h

theorem memWf_execFaultFail {m : Master} {token : BitVec 32} (h : s.memWf = true) : OutWf (execFaultFail m token s) := by
  unfold execFaultFail
  split
  · exact memWf_resolve h
  · exact h

theorem memWf_answerTrap {m : Master} {token : BitVec 32} {f : Thread → Thread} (h : s.memWf = true) : OutWf (s.answerTrap m token f) := by
  unfold State.answerTrap
  split
  · exact memWf_modHolder h
  · exact h

theorem memWf_execTraprespResume {m : Master} {token : BitVec 32} (h : s.memWf = true) : OutWf (execTraprespResume m token s) := by
  unfold execTraprespResume
  exact memWf_answerTrap h

theorem memWf_execTraprespSkip {m : Master} {token : BitVec 32} (h : s.memWf = true) : OutWf (execTraprespSkip m token s) := by
  unfold execTraprespSkip
  exact memWf_answerTrap h

theorem memWf_execTraprespHandle {m : Master} {token : BitVec 32} {toff : BitVec 29} (h : s.memWf = true) :
    OutWf (execTraprespHandle m token toff s) := by
  unfold execTraprespHandle
  dsimp only
  split
  · exact memWf_answerTrap h
  · exact h

theorem memWf_execTraprespFail {m : Master} {token : BitVec 32} (h : s.memWf = true) : OutWf (execTraprespFail m token s) := by
  unfold execTraprespFail
  split
  · split
    · exact memWf_answerTrap h
    · exact memWf_taskFail h
  · exact h

/-! ### Range entries -/

theorem memWf_startWake {pw : Nat} (h : s.memWf = true) : (s.startWake pw).memWf = true := h

theorem memWf_wake {old new : Nat} (h : s.memWf = true) : (s.wake old new).memWf = true := h

theorem memWf_useAll (h : s.memWf = true) : s.useAll.memWf = true := h

theorem memWf_dropCopies {c : BitVec 8} {idx : Nat} (h : s.memWf = true) : (s.dropCopies c idx).memWf = true := h

theorem memWf_moveSealed {c : BitVec 8} {pw frame pw2 frame2 : Nat} (h : s.memWf = true) : (s.moveSealed c pw frame pw2 frame2).memWf = true := h

theorem memWf_movePage {pw frame pw2 frame2 len : Nat} (h : s.memWf = true) : (s.movePage pw frame pw2 frame2 len).memWf = true := by
  refine tab_wf_foldl (tab_wf_filter _ h) fun m p hm => ?_
  split
  · exact tab_wf_set _ _ hm
  · exact hm

theorem memWf_moveWrites {c : BitVec 8} {idx pw frame : Nat} (h : s.memWf = true) : (s.moveWrites c idx pw frame).memWf = true := h

/-! ### Engine words -/

theorem memWf_copyOp {rd : Reg} {dh dm : DReg} {ra rb : Reg} {dst : EngDst} {kind : EngKind} {idx : Bool} (h : s.memWf = true) :
    ResWf (s.copyOp rd dh dm ra rb dst kind idx) := by
  unfold State.copyOp
  dsimp only
  split
  · unfold tagTrap
    exact trivial
  · split
    · unfold State.mapTrap
      exact trivial
    · exact memWf_engIssue h

theorem memWf_scatOp {rd : Reg} {dh dm : DReg} {ra rb : Reg} (h : s.memWf = true) : ResWf (s.scatOp rd dh dm ra rb) := by
  unfold State.scatOp
  dsimp only
  split
  · unfold tagTrap
    exact trivial
  · split
    · unfold State.mapTrap
      exact trivial
    · exact memWf_engIssue h

theorem memWf_execScat {rd : Reg} {dh dm : DReg} {ra rb : Reg} (h : s.memWf = true) : OutWf (execScat rd dh dm ra rb s) := by
  unfold execScat
  exact memWf_finish h (memWf_scatOp h)

theorem memWf_collOp {f : Nat} {fmt : BitVec 4} {sc : CollScope} {rd : Reg} {dh dm : DReg} {ra rb : Reg} (h : s.memWf = true) :
    ResWf (s.collOp f fmt sc rd dh dm ra rb) := by
  unfold State.collOp
  dsimp only
  split
  · unfold tagTrap
    exact trivial
  · unfold Res.bind
    dsimp only
    split
    · next e1 => exact memWf_modTh (e1 ▸ memWf_engIssue h :)
    · exact trivial
    · exact trivial

theorem memWf_statusWord {ea : Word} {k : State → Tgt → Res State} (h : s.memWf = true) (hk : ∀ u a1, u.memWf = true → ResWf (k u a1)) :
    ResWf (s.statusWord ea k) := by
  unfold State.statusWord
  split
  · exact trivial
  · split
    · exact trivial
    · exact trivial
    · exact trivial
    · split
      · exact hk _ _ (memWf_noteRc h)
      · exact trivial

theorem memWf_execPubl {rd : Reg} {dr : DReg} {ra rb : Reg} (h : s.memWf = true) : OutWf (execPubl rd dr ra rb s) := by
  unfold execPubl
  refine memWf_finish h ?_
  unfold Res.bind
  dsimp only
  split
  · exact memWf_statusWord h fun _ _ hu => hu
  · exact trivial
  · exact trivial

theorem memWf_execRstr {rd : Reg} {dh : DReg} {ra rb : Reg} (h : s.memWf = true) : OutWf (execRstr rd dh ra rb s) := by
  unfold execRstr
  split
  · exact h
  · split
    · exact memWf_advance (memWf_wrS (memWf_wrD (memWf_noteRcAt h)))
    · split
      · exact h
      · exact memWf_issueOp (memWf_startWake (memWf_setRt (memWf_noteRcAt h)))

theorem memWf_flashIssue {rd : Reg} {dh : DReg} {d : Desc} {rb : Reg} {kind : EngKind} {tgt : EngTo} {key : Option (BitVec 4)} (h : s.memWf = true) :
    ResWf (s.flashIssue rd dh d rb kind tgt key) := by
  unfold State.flashIssue
  refine memWf_statusWord h fun u a1 hu => ?_
  dsimp only
  split
  · exact trivial
  · exact memWf_issueOp hu

theorem memWf_execInst {rd : Reg} {dh dm : DReg} {ra rb : Reg} {key : Option (BitVec 4)} (h : s.memWf = true) :
    OutWf (execInst rd dh dm ra rb key s) := by
  unfold execInst
  refine memWf_finish h ?_
  unfold instMap
  split
  · unfold tagTrap
    exact trivial
  · split
    · exact trivial
    · split
      · exact trivial
      · split
        · exact trivial
        · split
          · exact trivial
          · exact memWf_flashIssue h

theorem memWf_execStage {rd : Reg} {dh dm : DReg} {rb : Reg} {key : Option (BitVec 4)} (h : s.memWf = true) :
    OutWf (execStage rd dh dm rb key s) := by
  unfold execStage
  refine memWf_finish h ?_
  unfold instMap
  split
  · unfold tagTrap
    exact trivial
  · split
    · exact trivial
    · split
      · exact trivial
      · split
        · exact trivial
        · exact memWf_flashIssue h

theorem memWf_waitUntil {t : Nat} (h : s.memWf = true) : (s.waitUntil t).memWf = true := by
  unfold State.waitUntil
  split <;> exact h

theorem memWf_execTwait {ra : Reg} (h : s.memWf = true) : OutWf (execTwait ra s) := by
  unfold execTwait
  exact memWf_waitUntil h

theorem memWf_execTwaitRel {ra : Reg} (h : s.memWf = true) : OutWf (execTwaitRel ra s) := by
  unfold execTwaitRel
  split <;> exact memWf_waitUntil h

theorem memWf_maskWait {ra rb rc : Reg} (h : s.memWf = true) : OutWf (s.maskWait ra rb rc) := by
  unfold State.maskWait
  dsimp only
  split
  · split
    · exact h
    · refine memWf_finish h ?_
      split
      · exact h
      · exact trivial
  · split
    · exact memWf_finish h trivial
    · split <;> exact h

theorem memWf_execBmwait {ra rb rc : Reg} (h : s.memWf = true) : OutWf (execBmwait ra rb rc s) := by
  unfold execBmwait
  exact memWf_maskWait h

theorem memWf_execTwaitDeadline {sid : BitVec 8} (h : s.memWf = true) : OutWf (execTwaitDeadline sid s) := by
  unfold execTwaitDeadline
  split
  · next e =>
      split
      · split
        · exact memWf_advance (e ▸ memWf_ctlTurn h :)
        · exact h
      · split
        · exact memWf_advance (e ▸ memWf_ctlTurn h :)
        · exact h
      · exact h
  · exact h

theorem memWf_execBmwaitDeadline {sid : BitVec 8} (h : s.memWf = true) : OutWf (execBmwaitDeadline sid s) := by
  unfold execBmwaitDeadline
  split
  · next e =>
      split
      · exact memWf_maskWait (e ▸ memWf_ctlTurn h :)
      · exact h
  · exact h
  · exact h

/-! ### Engine events -/

theorem memWf_pieceDone {id k : Nat} (h : s.memWf = true) : (s.pieceDone id k).memWf = true := by
  unfold State.pieceDone
  split <;> exact h

theorem memWf_movePiece {o : EngOp} {k : Nat} (h : s.memWf = true) : (s.movePiece o k).memWf = true := by
  unfold State.movePiece
  split
  · next e =>
      split
      · next e1 => exact memWf_pieceDone (e1 ▸ memWf_engPut (e ▸ memWf_engPiece h :) :)
      · exact memWf_stop (memWf_engPut (e ▸ memWf_engPiece h :))
  · exact memWf_stop (memWf_engPiece h)

theorem memWf_execChunkCommit {id k : Nat} (h : s.memWf = true) : OutWf (execChunkCommit id k s) := by
  unfold execChunkCommit
  split
  · exact h
  · split
    · exact h
    · split
      · split
        · exact memWf_collForm h
        · exact h
      · exact memWf_movePiece h

theorem memWf_putSlice {o : EngOp} (h : s.memWf = true) : (s.putSlice o).memWf = true := by
  unfold State.putSlice
  dsimp only
  split
  · exact memWf_congr rfl (memWf_foldl h fun _ _ hu => memWf_wrByte _ _ hu)
  · exact h

theorem memWf_execEngineComplete {id : Nat} (h : s.memWf = true) : OutWf (execEngineComplete id s) := by
  unfold execEngineComplete
  dsimp only
  split
  · exact h
  · split
    · exact h
    · exact memWf_noteEnded (memWf_setOp (memWf_putSlice h))

theorem memWf_meetShadow {o : EngOp} {l : List (Word × List (Option Byte))} (h : s.memWf = true) : (s.meetShadow o l).2.memWf = true := by
  induction l generalizing s with
  | nil => exact h
  | cons p l ih =>
    unfold State.meetShadow
    split
    · exact ih h
    · split
      · split
        · next e => exact ih (e ▸ memWf_strike h :)
        · next e => exact (e ▸ memWf_strike h :)
        · next e => exact ih (memWf_modOp (e ▸ memWf_strike h :))
      · exact ih h

theorem memWf_swapIn {o : EngOp} {l : List (Word × List (Option Byte))} (h : s.memWf = true) : EngWf (s.swapIn o l) := by
  induction l generalizing s with
  | nil => exact h
  | cons p l ih =>
    unfold State.swapIn
    split
    · exact h
    · exact h
    · exact h
    · split
      · exact h
      · split
        · exact ih (memWf_poisonRun h)
        · exact ih (memWf_wrSome h)

theorem memWf_pubFault {o : EngOp} {va : Word} {c : Cause} (h : s.memWf = true) :
    (s.pubFault o va c).memWf = true :=
  memWf_congr rfl (memWf_setOp (memWf_faultRec h))

theorem memWf_statusMade {o : EngOp} {t : Tgt} {bad : Bool} {w : Word} (h : s.memWf = true) : (s.statusMade o t bad w).memWf = true := by
  unfold State.statusMade
  dsimp only
  split
  · exact memWf_poisonRun h
  · exact memWf_makeVersion h

theorem memWf_execPublishStep {id : Nat} (h : s.memWf = true) : OutWf (execPublishStep id s) := by
  unfold execPublishStep
  dsimp only
  split
  · exact h
  · split
    · exact h
    · split
      · exact h
      · split
        · exact h
        · split
          · exact h
          · split
            · next e5 => exact (e5 ▸ memWf_meetShadow h :)
            · next e5 =>
                split
                · next e6 => exact (e6 ▸ memWf_meet (e5 ▸ memWf_meetShadow h :) :)
                · next e6 =>
                    split
                    · exact (e6 ▸ memWf_meet (e5 ▸ memWf_meetShadow h :) :)
                    · exact memWf_pubFault (e6 ▸ memWf_meet (e5 ▸ memWf_meetShadow h :) :)
                    · exact memWf_engFail (e6 ▸ memWf_meet (e5 ▸ memWf_meetShadow h :) :)
                    · next e7 => exact memWf_statusMade (memWf_setOp (e7 ▸ memWf_swapIn (e6 ▸ memWf_meet (e5 ▸ memWf_meetShadow h :) :) :))
                · next e6 =>
                    split
                    · exact (e6 ▸ memWf_meet (e5 ▸ memWf_meetShadow h :) :)
                    · exact memWf_pubFault (e6 ▸ memWf_meet (e5 ▸ memWf_meetShadow h :) :)
                    · exact memWf_engFail (e6 ▸ memWf_meet (e5 ▸ memWf_meetShadow h :) :)
                    · next e7 => exact memWf_statusMade (memWf_setOp (e7 ▸ memWf_swapIn (e6 ▸ memWf_meet (e5 ▸ memWf_meetShadow h :) :) :))

theorem memWf_execDupWritePerformed {i : Nat} (h : s.memWf = true) : OutWf (execDupWritePerformed i s) := by
  unfold execDupWritePerformed
  split
  · exact h
  · dsimp only
    split
    · exact h
    · split
      · next e => exact (e ▸ memWf_strike h :)
      · next e => exact memWf_dups (memWf_store _ _ (e ▸ memWf_strike h :))
      · next e => exact memWf_dups (memWf_poisonRun (e ▸ memWf_strike h :))

theorem memWf_meetMove {o : EngOp} {e : RtEnt} {pw frame : Nat} (h : s.memWf = true) : (s.meetMove o e pw frame).1.memWf = true := by
  unfold State.meetMove
  dsimp only
  split
  · exact memWf_foldl (memWf_forgetAll (memWf_meetPage (memWf_meetPage h))) fun _ _ hu => hu
  · exact memWf_meetPage (memWf_meetPage h)

theorem memWf_execCutOver {id : Nat} (h : s.memWf = true) : OutWf (execCutOver id s) := by
  unfold execCutOver
  split
  · exact h
  · extract_lets same e more pw fail
    have hf : fail.memWf = true := memWf_engFail (memWf_setRt (memWf_fresh h))
    clear_value same more pw fail
    split
    · exact h
    · split
      · exact memWf_setOp h
      · split
        · split
          · split
            · next hm => exact (hm ▸ memWf_meetMove h :)
            · next hm =>
              extract_lets s0 e2 s1 s2
              have h1 : s1.memWf = true := memWf_moveWrites (memWf_setRt (memWf_movePage (memWf_fresh (hm ▸ memWf_meetMove h :))))
              have h2 : s2.memWf = true := memWf_moveSealed (memWf_dropCopies h1)
              clear_value s2
              exact memWf_settle (memWf_flushRecs (memWf_noteEnded (memWf_setOp (memWf_wake h2))))
          · exact memWf_settle (memWf_flushRecs hf)
        · exact memWf_settle (memWf_flushRecs hf)

/-! ### Flash images -/

theorem memWf_execLeftRefill {c : BitVec 8} (h : s.memWf = true) : OutWf (execLeftRefill c s) := by
  unfold execLeftRefill
  dsimp only
  split <;> exact h

end

end Sys2Proof.Machine
end

section
/-! PROOFS. Save records, placement, launches, tables, flash and objects keep memory in its canonical form. -/

namespace Sys2Proof.Machine

open Sys2Proof

section
variable {s : State}

/-! ### Save records -/

theorem memWf_writeSave {t : Task} {r : SaveRec} {sid : Nat} (h : s.memWf = true) :
    (s.writeSave t r sid).memWf = true :=
  memWf_congr rfl (memWf_foldl (memWf_foldl (tab_wf_filter _ h) fun _ _ hu => memWf_foldl hu fun _ _ hu1 => memWf_wrByte _ _ hu1) fun _ _ hu => hu)

/-! ### Placement -/

theorem memWf_startScrub {c : BitVec 8} {sids : List Nat} (h : s.memWf = true) : (s.startScrub c sids).memWf = true := by
  unfold State.startScrub
  refine memWf_foldl h fun u a hu => ?_
  split <;> exact hu

theorem memWf_clearRange {a n : Nat} (h : s.memWf = true) : (s.clearRange a n).memWf = true := memWf_congr rfl (tab_wf_filter _ h)

theorem memWf_startTask {l : Launch} {insts : List Inst} (h : s.memWf = true) :
    (s.startTask l insts).memWf = true :=
  memWf_congr rfl (memWf_foldl h fun _ _ hu => hu)

theorem memWf_restoreSector {r : SaveRec} {sid : Nat} (h : s.memWf = true) : (s.restoreSector r sid).memWf = true :=
  memWf_foldl (tab_wf_foldl_set (tab_wf_filter _ h)) fun _ _ hu => hu

theorem memWf_replayChunks {ids : List Nat} (h : s.memWf = true) : (s.replayChunks ids).memWf = true := by
  unfold State.replayChunks
  refine memWf_foldl h fun u a hu => memWf_foldl hu fun u a hu1 => ?_
  split
  · split
    · exact memWf_movePiece hu1
    · exact hu1
  · exact hu1

theorem memWf_fetchPorts {sids : List Nat} (h : s.memWf = true) :
    (s.fetchPorts sids).memWf = true :=
  memWf_congr rfl (memWf_foldl h fun _ _ hu => memWf_foldl hu fun _ _ hu1 => memWf_fetchSpilled hu1)

theorem memWf_restoreTask {t : Task} {rects : List (Nat × Nat × Nat × Nat)} (h : s.memWf = true) : (s.restoreTask t rects).memWf = true := by
  unfold State.restoreTask
  dsimp only
  split
  · refine memWf_taskFail (memWf_drainTask (memWf_congr rfl (memWf_replayChunks (memWf_congr rfl (memWf_fetchPorts (memWf_foldl h fun u a hu => ?_))))))
    split
    · exact memWf_restoreSector hu
    · exact hu
  · refine memWf_drainTask (memWf_congr rfl (memWf_replayChunks (memWf_congr rfl (memWf_fetchPorts (memWf_foldl h fun u a hu => ?_)))))
    split
    · exact memWf_restoreSector hu
    · exact hu

theorem memWf_placedOne {l l1 : Launch} (h : s.memWf = true) : (s.placedOne l l1).memWf = true := h

theorem memWf_tryPlace {taken : List Nat} {l : Launch} (h : s.memWf = true) : PlacedWf (s.tryPlace taken l) := by
  unfold State.tryPlace
  dsimp only
  split
  · trivial
  · split
    · trivial
    · split
      · split
        · trivial
        · exact memWf_placedOne (memWf_startTask h)
        · show State.memWf _ = true
          split
          · split
            · exact memWf_placedOne (memWf_restoreTask h)
            · exact memWf_restoreTask h
          · exact memWf_restoreTask h
      · exact memWf_startScrub h

theorem memWf_turnAfter {e q : Nat} (h : s.memWf = true) : (s.turnAfter e q).memWf = true := by
  unfold State.turnAfter
  dsimp only
  split <;> exact h

theorem memWf_placeFirst {taken : List Nat} {l : List (Nat × Launch)} (h : s.memWf = true) : (s.placeFirst taken l).1.memWf = true := by
  induction l generalizing s taken with
  | nil => exact h
  | cons p l ih =>
    unfold State.placeFirst
    split
    · exact ih h
    · next e => exact ih (e ▸ memWf_tryPlace h :)
    · next e => exact memWf_turnAfter (e ▸ memWf_tryPlace h :)

theorem memWf_placeLoop {n : Nat} (h : s.memWf = true) : (State.placeLoop n s).memWf = true := by
  induction n generalizing s with
  | zero => exact h
  | succ n ih =>
    unfold State.placeLoop
    dsimp only
    split
    · exact ih (memWf_placeFirst h)
    · exact memWf_placeFirst h

theorem memWf_checkReserve (h : s.memWf = true) : s.checkReserve.memWf = true := by
  unfold State.checkReserve
  split
  · split <;> exact h
  · exact h

theorem memWf_pressReserve (h : s.memWf = true) : s.pressReserve.memWf = true := by
  unfold State.pressReserve
  split
  · exact h
  · split
    · exact h
    · split
      · split
        · exact memWf_schedRequest h
        · exact h
      · exact h

theorem memWf_placement (h : s.memWf = true) :
    s.placement.memWf = true :=
  memWf_congr rfl (memWf_pressReserve (memWf_placeLoop (memWf_checkReserve h)))

theorem memWf_freeSectors {t : Task} (h : s.memWf = true) : (s.freeSectors t).memWf = true := memWf_congr rfl (memWf_congr rfl (memWf_modSecs h))

/-! ### Launches and tasks -/

theorem memWf_queueFault {q : Nat} {f : BitVec 4} {cause : BitVec 8} {va : Word} {acc : Nat} (h : s.memWf = true) :
    (s.queueFault q f cause va acc).memWf = true := by
  unfold State.queueFault
  dsimp only
  split
  · exact memWf_addRec h
  · exact h

theorem memWf_checkOverrun {q : Nat} (h : s.memWf = true) : (s.checkOverrun q).memWf = true := by
  unfold State.checkOverrun
  dsimp only
  split
  · exact memWf_queueFault h
  · exact h

theorem memWf_execWqEnable {m : Master} {q : BitVec 11} {v : Word} (h : s.memWf = true) : OutWf (execWqEnable m q v s) := by
  unfold execWqEnable
  dsimp only
  split
  · exact h
  · exact memWf_checkOverrun h

theorem memWf_execWqDisable {m : Master} {q : BitVec 11} {v : Word} (h : s.memWf = true) : OutWf (execWqDisable m q v s) := by
  unfold execWqDisable
  dsimp only
  split <;> exact h

theorem memWf_execDoorbell {m : Master} {q : BitVec 11} {v : Word} (h : s.memWf = true) : OutWf (execDoorbell m q v s) := by
  unfold execDoorbell
  dsimp only
  split
  · exact h
  · exact memWf_checkOverrun h

theorem memWf_execWqFaultClear {m : Master} {q : BitVec 11} {v : Word} (h : s.memWf = true) : OutWf (execWqFaultClear m q v s) := by
  unfold execWqFaultClear
  dsimp only
  split
  · exact h
  · exact memWf_checkOverrun h

theorem memWf_addLaunch {q : Nat} {ws : List Word} (h : s.memWf = true) : (s.addLaunch q ws).memWf = true := memWf_congr rfl (memWf_settle h)

theorem memWf_execFetch {q : BitVec 11} (h : s.memWf = true) : OutWf (execFetch q s) := by
  unfold execFetch
  extract_lets k w va who poisoned
  have hp : ∀ u : State, u.memWf = true → OutWf (poisoned u) := fun _ hu => memWf_queueFault (memWf_endLink (memWf_forgetAll hu))
  clear_value poisoned va w
  split
  · exact h
  · split
    · exact memWf_queueFault h
    · split
      · exact h
      · exact memWf_queueFault h
      · exact memWf_queueFault h
      · split
        · exact h
        · split
          · split
            · next e => exact (e ▸ memWf_extLink h :)
            · exact hp _ h
          · split
            · next e => exact (e ▸ memWf_meet h :)
            · next e => exact hp _ (e ▸ memWf_meet h :)
            · next u e =>
              have hu : u.memWf = true := (e ▸ memWf_meet h :)
              split
              · exact hp _ hu
              · have hl := memWf_endLink (who := who) (memWf_forgetAll (who := who) hu)
                dsimp only
                split
                · exact hl
                · exact memWf_queueFault hl
                · exact memWf_addLaunch hl

theorem memWf_execScrubDone {sid : BitVec 8} (h : s.memWf = true) : OutWf (execScrubDone sid s) := by
  unfold execScrubDone
  dsimp only
  split
  · exact h
  · split
    · exact h
    · exact memWf_placeDue (memWf_setSec (memWf_clearRange h))

theorem memWf_execReservationStart {launch : Nat} (h : s.memWf = true) : OutWf (execReservationStart launch s) := by
  unfold execReservationStart
  split
  · exact h
  · split
    · exact h
    · split
      · exact h
      · exact memWf_pressReserve h

theorem memWf_countTask {launch : Nat} {failed : Option Nat} (h : s.memWf = true) : (s.countTask launch failed).memWf = true := by
  unfold State.countTask
  dsimp only
  split
  · exact h
  · split
    · exact h
    · split
      · exact memWf_settle h
      · exact h

theorem memWf_execTaskEnd {task : Nat} (h : s.memWf = true) : OutWf (execTaskEnd task s) := by
  unfold execTaskEnd
  dsimp only
  split
  · exact h
  · split
    · split
      · exact h
      · exact memWf_countTask h
    · split
      · exact h
      · exact memWf_countTask h

theorem memWf_dropOps {task : Nat} (h : s.memWf = true) : (s.dropOps task).memWf = true := h

theorem memWf_execSectorFree {task : Nat} (h : s.memWf = true) : OutWf (execSectorFree task s) := by
  unfold execSectorFree
  split
  · exact h
  · extract_lets s1 s2
    have h2 : s2.memWf = true := memWf_tasks (memWf_dropOps (memWf_freeSectors h))
    clear_value s2
    split
    · exact h2
    · split
      · exact memWf_countTask h2
      · exact h

/-! ### The range table -/

theorem memWf_rtStart {c : BitVec 8} {idx : Nat} {e : RtEnt} {code : BitVec 8} (h : s.memWf = true) : (s.rtStart c idx e code).memWf = true := by
  unfold State.rtStart
  dsimp only
  split <;> exact h

theorem memWf_execRtWrite {m : Master} {c : BitVec 8} {idx : BitVec 16} (h : s.memWf = true) : OutWf (execRtWrite m c idx s) := by
  unfold execRtWrite
  dsimp only
  split
  · exact h
  · split <;> exact memWf_rtStart h

theorem memWf_execRtClear {m : Master} {c : BitVec 8} {idx : BitVec 16} (h : s.memWf = true) : OutWf (execRtClear m c idx s) := by
  unfold execRtClear
  split
  · exact h
  · exact memWf_rtStart h

theorem memWf_execRtRead {m : Master} {c : BitVec 8} {idx : BitVec 16} (h : s.memWf = true) : OutWf (execRtRead m c idx s) := by
  unfold execRtRead
  dsimp only
  split
  · exact h
  · split <;> exact h

theorem memWf_execRtSwap (h : s.memWf = true) : OutWf (execRtSwap s) := by
  unfold execRtSwap
  dsimp only
  split
  · exact h
  · split
    · exact h
    · exact memWf_settle (memWf_flushRecs h)

/-! ### Contexts -/

theorem memWf_execCtxCreate {m : Master} {c : BitVec 8} {v : Word} (h : s.memWf = true) : OutWf (execCtxCreate m c v s) := by
  unfold execCtxCreate
  dsimp only
  split <;> exact h

theorem memWf_execCtxEnd {m : Master} {c : BitVec 8} {v : Word} (h : s.memWf = true) : OutWf (execCtxEnd m c v s) := by
  unfold execCtxEnd
  dsimp only
  split
  · exact h
  · split
    · exact memWf_settle h
    · exact h

theorem memWf_freeTasks {c : BitVec 8} (h : s.memWf = true) : (s.freeTasks c).memWf = true := by
  unfold State.freeTasks
  refine memWf_congr rfl (memWf_foldl h fun u a hu => ?_)
  split
  · exact memWf_freeSectors hu
  · exact hu

theorem memWf_dropAllCopies {c : BitVec 8} (h : s.memWf = true) : (s.dropAllCopies c).memWf = true := memWf_congr rfl (memWf_foldl h fun _ _ hu => hu)

theorem memWf_clearTables {c : BitVec 8} (h : s.memWf = true) : (s.clearTables c).memWf = true := by
  unfold State.clearTables
  extract_lets s1 s2 gone
  have h1 : s1.memWf = true := memWf_foldl (memWf_dropAllCopies h) fun _ _ hu => memWf_wake hu
  have h2 : s2.memWf = true := memWf_modCtx h1
  exact memWf_regs h2

theorem memWf_clearFlash {base len : Nat} (h : s.memWf = true) : (s.clearFlash base len).memWf = true := memWf_congr rfl (tab_wf_filter _ h)

theorem memWf_clearPools {c : BitVec 8} (h : s.memWf = true) :
    (s.clearPools c).memWf = true :=
  memWf_congr rfl (memWf_useAll (memWf_clearFlash (tab_wf_filter _ h)))

theorem memWf_execCtxFreed {c : BitVec 8} (h : s.memWf = true) : OutWf (execCtxFreed c s) := by
  unfold execCtxFreed
  split
  · exact h
  · exact memWf_modCtx (memWf_clearPools (memWf_clearTables (memWf_freeTasks (memWf_settle h))))

theorem memWf_execKeyLoad {m : Master} {c : BitVec 8} {slot : BitVec 4} (h : s.memWf = true) : OutWf (execKeyLoad m c slot s) := by
  unfold execKeyLoad
  dsimp only
  split <;> exact h

theorem memWf_execKeyClear {m : Master} {c : BitVec 8} {slot : BitVec 4} (h : s.memWf = true) : OutWf (execKeyClear m c slot s) := by
  unfold execKeyClear
  split <;> exact h

/-! ### Errors recovered -/

theorem memWf_wakeParty {r : Retry} (h : s.memWf = true) : (s.wakeParty r).memWf = true := by
  unfold State.wakeParty
  split
  · exact h
  · exact memWf_settle (memWf_flushRecs h)

theorem memWf_doneRetry {i : Nat} {r : Retry} (h : s.memWf = true) :
    (s.doneRetry i r).memWf = true :=
  memWf_congr rfl (memWf_wakeParty (memWf_endTransfer h))

theorem memWf_containRetry {i : Nat} {r : Retry} (h : s.memWf = true) : (s.containRetry i r).memWf = true := by
  unfold State.containRetry
  refine memWf_wakeParty (memWf_endTransfer ?_)
  dsimp only
  split <;> exact h

theorem memWf_execBusRetry {i : Nat} {bad : Option (BitVec 5)} (h : s.memWf = true) : OutWf (execBusRetry i bad s) := by
  unfold execBusRetry
  dsimp only
  split
  · exact h
  · split
    · exact h
    · split
      · exact memWf_doneRetry h
      · split
        · exact h
        · split
          · exact h
          · exact memWf_containRetry h

theorem memWf_execLaneSwapDone {i : Nat} {bad : Bool} (h : s.memWf = true) : OutWf (execLaneSwapDone i bad s) := by
  unfold execLaneSwapDone
  dsimp only
  split
  · exact h
  · split
    · exact h
    · split
      · exact memWf_containRetry h
      · split
        · exact memWf_wakeParty h
        · split
          · exact memWf_containRetry h
          · exact memWf_doneRetry h

theorem memWf_execRowSpareDone {i : Nat} (h : s.memWf = true) : OutWf (execRowSpareDone i s) := by
  unfold execRowSpareDone
  dsimp only
  split <;> exact h

theorem memWf_poisonLines {ls : List Nat} (h : s.memWf = true) : (s.poisonLines ls).memWf = true := h

theorem memWf_reportLost {ls : List Nat} (h : s.memWf = true) : (s.reportLost ls).memWf = true := by
  unfold State.reportLost
  refine memWf_foldl h fun u a hu => ?_
  dsimp only
  split
  · exact hu
  · exact memWf_errorRec hu

theorem memWf_writeBack {die layer : Nat} (h : s.memWf = true) : (s.writeBack die layer).2.memWf = true := by
  unfold State.writeBack
  refine List.foldlRecOn (motive := fun acc : List Nat × State => acc.2.memWf = true) _ _ h fun acc hacc u _ => ?_
  dsimp only
  split
  · split
    · split
      · exact memWf_upsets (memWf_countSite hacc)
      · exact hacc
    · exact hacc
  · exact hacc

theorem memWf_execLayerDisable {die layer : BitVec 2} (h : s.memWf = true) : OutWf (execLayerDisable die layer s) := by
  unfold execLayerDisable
  extract_lets here first wb ls s1 b r s2
  have h2 : s2.memWf = true := memWf_kept (n := s1.cyc) (o := s1.own) (memWf_poisonLines (memWf_writeBack h))
  clear_value s2
  split
  · exact h
  · exact memWf_settle (memWf_flushRecs (memWf_reportLost h2))

/-! ### Element operations -/

theorem memWf_begin {f : Fab} {t : TileRef} (h : s.memWf = true) : (s.begin f t).memWf = true := by
  unfold State.begin
  refine memWf_setTcw ?_
  dsimp only
  split
  · exact memWf_foldl h fun _ _ hu => hu
  · exact h

theorem memWf_doneMma {f : Fab} {t : TileRef} (h : s.memWf = true) : (s.doneMma f t).memWf = true := h

theorem memWf_mmaGroup {t : TileRef} {fmt : BitVec 4} {m q : Nat} {a : Pay} {sa : Option Pay} {panel scales : List Token} (h : s.memWf = true) :
    (s.mmaGroup t fmt m q a sa panel scales).memWf = true :=
  memWf_congr rfl (memWf_foldl h fun _ _ hu => memWf_addRow hu)

theorem memWf_noteTile {f : Fab} {t : TileRef} {waves : List Nat} (h : s.memWf = true) :
    (s.noteTile f t waves).memWf = true :=
  memWf_congr rfl (memWf_foldl h fun _ _ hu => hu)

theorem memWf_mmaOp {f : Fab} (h : s.memWf = true) : FireWf (s.mmaOp f) := by
  unfold State.mmaOp
  dsimp only
  split
  · split
    · exact trivial
    · split
      · exact memWf_checked h fun _ => trivial
      · split
        · exact trivial
        · split
          · exact trivial
          · split
            · refine memWf_fireAt fun a0 => memWf_pass ?_
              split
              · exact memWf_begin h
              · exact h
            · refine memWf_pass ?_
              split
              · exact memWf_begin h
              · exact h
  · split
    · split
      · exact trivial
      · split
        · exact trivial
        · exact memWf_pass h
    · split
      · split
        · exact trivial
        · exact trivial
        · split
          · exact memWf_setOpSt (memWf_noteTile (memWf_mmaGroup h))
          · split
            · exact memWf_pass (memWf_noteTile (memWf_mmaGroup h))
            · split
              · exact memWf_pass (memWf_noteTile (memWf_mmaGroup h))
              · exact memWf_pass (memWf_doneMma (memWf_noteTile (memWf_mmaGroup h)))
      · exact trivial

theorem memWf_mnrmOp {f : Fab} (h : s.memWf = true) : FireWf (s.mnrmOp f) := by
  unfold State.mnrmOp
  dsimp only
  split
  · refine memWf_checked h fun a0 => ?_
    split <;> exact memWf_pass h
  · split
    · exact memWf_setOpSt (memWf_normRowOf h)
    · exact memWf_pass h

theorem memWf_mrdOp {f : Fab} (h : s.memWf = true) : FireWf (s.mrdOp f) := by
  unfold State.mrdOp
  dsimp only
  split
  · refine memWf_checked h fun a0 => ?_
    split
    · exact trivial
    · split
      · exact trivial
      · exact memWf_pass (memWf_raise h)
  · split
    · exact trivial
    · split
      · next e2 =>
          refine memWf_raise ?_
          split
          · exact memWf_stepPhase (e2 ▸ memWf_pass h :)
          · exact (e2 ▸ memWf_pass h :)
      · exact memWf_pass h

theorem memWf_mdrnOp {f : Fab} (h : s.memWf = true) : FireWf (s.mdrnOp f) := by
  unfold State.mdrnOp
  dsimp only
  split
  · refine memWf_checked h fun a0 => ?_
    split
    · exact trivial
    · split
      · exact trivial
      · split
        · exact trivial
        · exact memWf_pass h
  · split
    · exact trivial
    · split
      · split
        · exact trivial
        · split
          · split
            · next e5 =>
                show State.memWf _ = true
                split
                · exact memWf_stepPhase (memWf_clearTile (e5 ▸ memWf_pass h :))
                · exact memWf_clearTile (e5 ▸ memWf_pass h :)
            · exact memWf_pass h
          · exact memWf_pass h
      · split
        · split
          · exact trivial
          · split
            · exact trivial
            · exact memWf_pass h
        · split
          · split
            · exact trivial
            · split
              · exact trivial
              · exact memWf_pass h
          · exact memWf_setOpSt (memWf_raise h)

theorem memWf_execMma {w : FabW} (h : s.memWf = true) : OutWf (execMma w s) := by
  unfold execMma
  exact memWf_fabric h fun _ => memWf_mmaOp h

theorem memWf_execMclr {w : FabW} (h : s.memWf = true) : OutWf (execMclr w s) := by
  unfold execMclr
  refine memWf_fabric h fun a0 => memWf_checked h fun a0 => ?_
  split
  · exact trivial
  · exact memWf_pass (memWf_clearTile h)

theorem memWf_execMnrm {w : FabW} (h : s.memWf = true) : OutWf (execMnrm w s) := by
  unfold execMnrm
  exact memWf_fabric h fun _ => memWf_mnrmOp h

theorem memWf_execMrd {w : FabW} (h : s.memWf = true) : OutWf (execMrd w s) := by
  unfold execMrd
  exact memWf_fabric h fun _ => memWf_mrdOp h

theorem memWf_execMdrn {w : FabW} (h : s.memWf = true) : OutWf (execMdrn w s) := by
  unfold execMdrn
  exact memWf_fabric h fun _ => memWf_mdrnOp h

/-! ### Flash -/

theorem memWf_setStaged {t : Tab Staged} (h : s.memWf = true) : (s.setStaged t).memWf = true := h

theorem memWf_stagePage {page : Nat} {p : Staged} (h : s.memWf = true) : OptWf (s.stagePage page p) := by
  unfold State.stagePage
  dsimp only
  split
  · exact h
  · split
    · split
      · exact trivial
      · exact h
    · exact trivial

theorem memWf_execStagingFill {stack : BitVec 2} {page : BitVec 26} (h : s.memWf = true) : OutWf (execStagingFill stack page s) := by
  unfold execStagingFill
  dsimp only
  split
  · exact h
  · exact optWf_getD (memWf_stagePage h) h

theorem memWf_rangeGo {o : EngOp} {r : RangeSt} {acc : Nat} (h : s.memWf = true) : OptWf (s.rangeGo o r acc) := by
  unfold State.rangeGo
  split
  · exact trivial
  · exact h
  · exact memWf_engFault h
  · exact memWf_engFail h

theorem memWf_installStart {o : EngOp} (h : s.memWf = true) : (s.installStart o).memWf = true := by
  unfold State.installStart
  dsimp only
  split
  · next e => exact (e ▸ memWf_rangeGo h :)
  · split
    · next e1 => exact (e1 ▸ memWf_rangeGo h :)
    · split
      · next e2 => exact (e2 ▸ memWf_engReadAll h :)
      · next e2 => exact memWf_engFail (e2 ▸ memWf_engReadAll h :)
      · next e2 => exact memWf_engFault (e2 ▸ memWf_engReadAll h :)
      · next e2 =>
          split
          · split
            · exact memWf_engFail (e2 ▸ memWf_engReadAll h :)
            · split
              · exact memWf_engFail (memWf_setCtx (e2 ▸ memWf_engReadAll h :))
              · split
                · exact memWf_engFail (memWf_setCtx (e2 ▸ memWf_engReadAll h :))
                · exact memWf_setOp (memWf_setCtx (e2 ▸ memWf_engReadAll h :))
          · split
            · exact memWf_engFail (e2 ▸ memWf_engReadAll h :)
            · split
              · exact memWf_engFail (memWf_setCtx (e2 ▸ memWf_engReadAll h :))
              · split
                · exact memWf_engFail (memWf_setCtx (e2 ▸ memWf_engReadAll h :))
                · exact memWf_setOp (memWf_setCtx (e2 ▸ memWf_engReadAll h :))

theorem memWf_installPage {o : EngOp} {bad bad2 : Bool} (h : s.memWf = true) : (s.installPage o bad bad2).memWf = true := by
  unfold State.installPage
  dsimp only
  split
  · exact h
  · split
    · exact memWf_engFail h
    · split
      · exact memWf_engFail h
      · exact h

theorem memWf_execInstallPageProgram {id : Nat} {bad bad2 : Bool} (h : s.memWf = true) : OutWf (execInstallPageProgram id bad bad2 s) := by
  unfold execInstallPageProgram
  split
  · exact h
  · split
    · exact h
    · split
      · exact memWf_installStart h
      · split
        · exact h
        · exact memWf_installPage h

theorem memWf_swapPages {c : BitVec 8} {l : List Word} {d : List Byte} (h : s.memWf = true) : (s.swapPages c l d).memWf = true := by
  induction l generalizing s d with
  | nil => exact h
  | cons va l ih =>
    unfold State.swapPages
    split
    · exact ih (memWf_setStaged (memWf_store _ _ h))
    · exact ih h

theorem memWf_refund {o : EngOp} (h : s.memWf = true) : (s.refund o).memWf = true := h

theorem memWf_statusVersion {o : EngOp} {v : Word} {f : State → State} (h : s.memWf = true) (hf : ∀ u, u.memWf = true → (f u).memWf = true) :
    (s.statusVersion o v f).memWf = true := by
  unfold State.statusVersion
  dsimp only
  split
  · exact memWf_noteEnded (memWf_setOp (hf _ h))
  · split
    · exact h
    · split
      · next e2 => exact (e2 ▸ memWf_meet h :)
      · next e2 => exact memWf_statusMade (memWf_noteEnded (memWf_setOp (hf _ (e2 ▸ memWf_meet h :))))
      · next e2 => exact memWf_statusMade (memWf_noteEnded (memWf_setOp (hf _ (e2 ▸ memWf_meet h :))))

theorem memWf_execInstallFinish {id : Nat} (h : s.memWf = true) : OutWf (execInstallFinish id s) := by
  unfold execInstallFinish
  split
  · exact h
  · extract_lets whole code
    split
    · exact h
    · split
      · split
        · exact memWf_pubFault h
        · exact memWf_engFail h
        · exact h
      · refine memWf_statusVersion h fun u hu => ?_
        split
        · exact memWf_swapPages hu
        · exact memWf_refund hu

theorem memWf_stageAll {o : EngOp} {mark : Option Bool} {l : List Word} (h : s.memWf = true) : OptWf (s.stageAll o mark l) := by
  induction l generalizing s with
  | nil => exact h
  | cons va l ih =>
    unfold State.stageAll
    split
    · dsimp only
      split
      · next e => exact ih (e ▸ memWf_stagePage h :)
      · exact trivial
    · exact trivial

theorem memWf_execStageBlock {id : Nat} (h : s.memWf = true) : OutWf (execStageBlock id s) := by
  unfold execStageBlock
  split
  · exact h
  · extract_lets k n
    split
    · exact h
    · split
      · next e => exact (e ▸ memWf_rangeGo h :)
      · split
        · exact memWf_engFail h
        · dsimp only
          split
          · exact h
          · next e =>
            show State.memWf (ite _ _ _) = true
            split
            · exact memWf_noteEnded (memWf_setOp (e ▸ memWf_stageAll h :))
            · exact memWf_setOp (e ▸ memWf_stageAll h :)

theorem memWf_execStageFinish {id : Nat} (h : s.memWf = true) : OutWf (execStageFinish id s) := by
  unfold execStageFinish
  split
  · exact h
  · split
    · exact h
    · exact memWf_statusVersion h fun _ hu => hu

/-! ### Handles and keys -/

theorem memWf_putObjects {t : Tgt} {b : List Byte} (h : s.memWf = true) : (s.putObjects t b).memWf = true := by
  unfold State.putObjects
  refine memWf_foldl h fun u a hu => memWf_vCreate ?_
  split
  · exact memWf_vRetire hu
  · exact hu

theorem memWf_putAt {c : BitVec 8} {l : List ((Tgt × Nat) × Bool)} {b : List Byte} (h : s.memWf = true) : (s.putAt c l b).memWf = true := by
  induction l generalizing s b with
  | nil => exact h
  | cons p l ih =>
    unfold State.putAt
    refine ih ?_
    split
    · exact memWf_errorRec h
    · split
      · exact h
      · split
        · exact memWf_putObjects h
        · exact memWf_store _ _ h

theorem memWf_putWaits {ts : List (Tgt × Nat)} (h : s.memWf = true) : OptWf (s.putWaits ts) := by
  cases e : s.putWaits ts with
  | none => trivial
  | some u =>
    obtain ⟨p, -, hp⟩ := List.exists_of_findSome?_eq_some e
    split at hp
    · exact (hp ▸ memWf_extLink h :)
    · exact nomatch hp

theorem memWf_putRun {c : BitVec 8} {ts : List (Tgt × Nat)} {b : List Byte} (h : s.memWf = true) : (s.putRun c ts b).1.memWf = true := by
  unfold State.putRun
  split
  · next e => exact (e ▸ memWf_putWaits h :)
  · split
    · next e1 => exact (e1 ▸ memWf_meetRuns h :)
    · next e1 => exact memWf_putAt (e1 ▸ memWf_meetRuns h :)

theorem memWf_loadOver {c slot : BitVec 8} {hd : Handle} {code : BitVec 8} (h : s.memWf = true) : (s.loadOver c slot hd code).memWf = true := h

theorem memWf_loadLater {r : LoadCmd} (h : s.memWf = true) : (s.loadLater r).memWf = true := h

theorem memWf_loadBytes {r : LoadCmd} {c slot : BitVec 8} {l : List Byte} {data : SecEnt} {hasData : Bool} (h : s.memWf = true) :
    (s.loadBytes r c slot l data hasData).memWf = true := by
  unfold State.loadBytes
  dsimp only
  split
  · exact memWf_loadLater (memWf_putRun h)
  · split
    · exact memWf_loadOver (memWf_congr rfl (memWf_putRun h))
    · split
      · split
        · exact memWf_loadLater (memWf_putRun (memWf_putRun h))
        · exact memWf_loadOver (memWf_congr rfl (memWf_putRun (memWf_putRun h)))
      · dsimp only
        split
        · exact memWf_loadLater (memWf_putRun h)
        · exact memWf_loadOver (memWf_congr rfl (memWf_putRun h))

theorem memWf_execHandleLoad {m : Master} {c slot : BitVec 8} (h : s.memWf = true) : OutWf (execHandleLoad m c slot s) := by
  unfold execHandleLoad
  dsimp only
  split
  · exact h
  · split
    · exact h
    · split <;> exact h

theorem memWf_loadStep (h : s.memWf = true) : s.loadStep.memWf = true := by
  unfold State.loadStep
  dsimp only
  split
  · split
    · exact h
    · split
      · next e3 => exact memWf_loadLater (e3 ▸ memWf_readRun h :)
      · next e3 => exact memWf_loadOver (e3 ▸ memWf_readRun h :)
      · next e3 =>
          split
          · next e4 => exact memWf_loadLater (e4 ▸ memWf_readRun (e3 ▸ memWf_readRun h :) :)
          · next e4 => exact memWf_loadOver (e4 ▸ memWf_readRun (e3 ▸ memWf_readRun h :) :)
          · next e4 =>
              split
              · exact memWf_loadLater (e4 ▸ memWf_readRun (e3 ▸ memWf_readRun h :) :)
              · split
                · exact memWf_loadOver (e4 ▸ memWf_readRun (e3 ▸ memWf_readRun h :) :)
                · split
                  · next e7 => exact memWf_loadLater (e7 ▸ memWf_readRun (e4 ▸ memWf_readRun (e3 ▸ memWf_readRun h :) :) :)
                  · next e7 => exact memWf_loadOver (e7 ▸ memWf_readRun (e4 ▸ memWf_readRun (e3 ▸ memWf_readRun h :) :) :)
                  · next e7 => exact memWf_loadBytes (e7 ▸ memWf_readRun (e4 ▸ memWf_readRun (e3 ▸ memWf_readRun h :) :) :)
  · exact h

theorem memWf_execHandleUnload {m : Master} {c slot : BitVec 8} (h : s.memWf = true) : OutWf (execHandleUnload m c slot s) := by
  unfold execHandleUnload
  dsimp only
  split
  · exact h
  · split
    · exact h
    · split <;> exact h

theorem memWf_execUnloadDone (h : s.memWf = true) : OutWf (execUnloadDone s) := by
  unfold execUnloadDone
  dsimp only
  split
  · exact h
  · split <;> exact h

end

end Sys2Proof.Machine
end

section
/-! PROOFS. Events from outside, resets, instructions and turns keep memory in its canonical form, and so does every step. -/

namespace Sys2Proof.Machine

open Sys2Proof

section
variable {s : State}

/-! ### Accesses from outside -/

theorem memWf_extOver {who : Nat} (h : s.memWf = true) : (s.extOver who).memWf = true := h

theorem memWf_extRead {c : BitVec 8} {who : Nat} {got : List Byte} {l : List Piece} (h : s.memWf = true) : ExtWf (s.extRead c who got l) := by
  induction l generalizing s got with
  | nil => exact memWf_extOver h
  | cons p l ih =>
    cases p with
    | const v n => exact ih h
    | slice a n => exact ih h
    | poison n => exact ih h
    | mem va n =>
      unfold State.extRead
      split
      · exact h
      · exact memWf_extOver h
      · exact memWf_extOver h
      · split
        · split
          · next e => exact (e ▸ memWf_extLink h :)
          · exact memWf_extOver h
        · split
          · exact h
          · split
            · next e => exact (e ▸ memWf_meet h :)
            · next e => exact memWf_extOver (e ▸ memWf_meet h :)
            · next u e =>
              have hu : u.memWf = true := (e ▸ memWf_meet h :)
              split
              · exact memWf_extOver hu
              · exact ih hu

/-- The answer of an access that is barred. -/
def OptExtWf : Option ExtGot → Prop
  | some r => ExtWf r
  | none => True

theorem memWf_extBarred {c : BitVec 8} {who : Nat} {l : List Piece} (h : s.memWf = true) : OptExtWf (s.extBarred c who l) := by
  induction l with
  | nil => exact trivial
  | cons p l ih =>
    cases p with
    | const v n => exact ih
    | slice a n => exact ih
    | poison n => exact ih
    | mem va n =>
      unfold State.extBarred
      split
      · exact h
      · exact memWf_extOver h
      · exact memWf_extOver h
      · split
        · exact memWf_extOver h
        · split
          · next e =>
            split at e
            · exact (e ▸ memWf_extLink h :)
            · exact nomatch e
          · exact ih

theorem memWf_extStore {c : BitVec 8} {who : Nat} {l : List ((Tgt × Nat) × Bool)} {b : List Byte} (h : s.memWf = true) :
    (s.extStore c who l b).memWf = true := by
  induction l generalizing s b with
  | nil => exact h
  | cons p l ih =>
    unfold State.extStore
    refine ih ?_
    split
    · exact memWf_errorRec h
    · split
      · exact memWf_poisonRun h
      · exact memWf_wrTgt h

theorem memWf_extWrite {c : BitVec 8} {who : Nat} {l : List Piece} {b : List Byte} (h : s.memWf = true) : ExtWf (s.extWrite c who l b) := by
  unfold State.extWrite
  split
  · next e => exact (e ▸ memWf_extBarred h :)
  · extract_lets ts
    split
    · next e => exact (e ▸ memWf_meetRuns h :)
    · next e => exact memWf_extOver (memWf_extStore (e ▸ memWf_meetRuns h :))

theorem memWf_extAtomic {c : BitVec 8} {who : Nat} {va : Word} {n : Nat} {g : Nat → Option Nat} (h : s.memWf = true) :
    ExtWf (s.extAtomic c who va n g) := by
  unfold State.extAtomic
  dsimp only
  split
  · exact h
  · split
    · exact h
    · exact h
    · exact h
    · split
      · exact h
      · split
        · split
          · next e4 => exact (e4 ▸ memWf_extLink h :)
          · exact h
        · split
          · exact h
          · split
            · next e5 => exact (e5 ▸ memWf_meet h :)
            · next e5 => exact memWf_extOver (e5 ▸ memWf_meet h :)
            · next e5 =>
                split
                · exact memWf_extOver (e5 ▸ memWf_meet h :)
                · split
                  · exact memWf_store _ _ (memWf_extOver (e5 ▸ memWf_meet h :))
                  · exact memWf_extOver (e5 ▸ memWf_meet h :)

theorem memWf_extAccess {c : BitVec 8} {who : Nat} {va : Word} {a : ExtAcc} (h : s.memWf = true) : ExtWf (s.extAccess c who va a) := by
  unfold State.extAccess
  dsimp only
  split
  · exact memWf_extRead h
  · exact memWf_extWrite h
  · exact memWf_extAtomic h
  · exact memWf_extAtomic h

theorem memWf_execHostWindowAccess {m : Master} {w : BitVec 3} {o : BitVec 36} {a : ExtAcc} (h : s.memWf = true) :
    OutWf (execHostWindowAccess m w o a s) := by
  unfold execHostWindowAccess
  dsimp only
  split
  · exact h
  · split
    · exact h
    · split
      · next e2 => exact (e2 ▸ memWf_extAccess h :)
      · next e2 => exact memWf_emit (e2 ▸ memWf_extAccess h :)
      · next e2 => exact memWf_emit (e2 ▸ memWf_extAccess h :)
      · next e2 => exact memWf_emit (e2 ▸ memWf_extAccess h :)

theorem memWf_peerFault {modn : BitVec 6} {c : Cause} (h : s.memWf = true) : (s.peerFault modn c).memWf = true := h

theorem memWf_execPeerAccess {modn : BitVec 6} {c : BitVec 8} {a : BitVec 57} {acc : ExtAcc} (h : s.memWf = true) :
    OutWf (execPeerAccess modn c a acc s) := by
  unfold execPeerAccess
  split
  · exact h
  · split
    · exact h
    · split
      · exact h
      · split
        · exact h
        · split
          · next e5 => exact (e5 ▸ memWf_extAccess h :)
          · next e5 => exact memWf_peerFault (e5 ▸ memWf_extAccess h :)
          · next e5 => exact memWf_peerFault (e5 ▸ memWf_extAccess h :)
          · next e5 => exact memWf_emit (e5 ▸ memWf_extAccess h :)

theorem memWf_execLinkTimeout {sid : BitVec 8} (h : s.memWf = true) : OutWf (execLinkTimeout sid s) := by
  unfold execLinkTimeout
  split
  · split <;> exact h
  · exact h

theorem memWf_execClaim {m : Master} {lease : BitVec 16} {force : Bool} (h : s.memWf = true) : OutWf (execClaim m lease force s) := by
  unfold execClaim
  split
  · exact h
  · split
    · exact h
    · split
      · exact h
      · split <;> exact h

theorem memWf_execRelease {m : Master} {lease : BitVec 16} (h : s.memWf = true) : OutWf (execRelease m lease s) := by
  unfold execRelease
  split <;> exact h

theorem memWf_execOffer {m : Master} {lease : BitVec 16} {target : Master} (h : s.memWf = true) : OutWf (execOffer m lease target s) := by
  unfold execOffer
  dsimp only
  split <;> exact h

theorem memWf_execOfferLapse (h : s.memWf = true) : OutWf (execOfferLapse s) := by
  unfold execOfferLapse
  dsimp only
  split
  · split <;> exact h
  · exact h

theorem memWf_execLeaseExpire (h : s.memWf = true) : OutWf (execLeaseExpire s) := by
  unfold execLeaseExpire
  split <;> exact h

theorem memWf_execAttestRequest {m : Master} {c : BitVec 8} {incl : Bool} (h : s.memWf = true) : OutWf (execAttestRequest m c incl s) := by
  unfold execAttestRequest
  dsimp only
  split <;> exact h

theorem memWf_execAttestReady (h : s.memWf = true) : OutWf (execAttestReady s) := by
  unfold execAttestReady
  dsimp only
  split <;> exact h

/-! ### Pre-emption events -/

theorem memWf_execGraceDeadline {task : Nat} (h : s.memWf = true) : OutWf (execGraceDeadline task s) := by
  unfold execGraceDeadline
  split
  · exact h
  · split
    · split
      · exact h
      · exact memWf_startMarkers h
    · exact h

theorem memWf_execTakeMarker {r : SlotRef} (h : s.memWf = true) : OutWf (execTakeMarker r s) := by
  unfold execTakeMarker
  dsimp only
  split
  · exact h
  · split <;> exact h

theorem memWf_execSaveSnapshot {task : Nat} (h : s.memWf = true) : OutWf (execSaveSnapshot task s) := by
  unfold execSaveSnapshot
  split
  · exact h
  · split <;> exact h

theorem memWf_writeSaves {t : Task} (h : s.memWf = true) :
    (s.writeSaves t).memWf = true :=
  memWf_congr rfl (memWf_foldl h fun _ _ hu => memWf_writeSave hu)

theorem memWf_execSaveDone {task : Nat} (h : s.memWf = true) : OutWf (execSaveDone task s) := by
  unfold execSaveDone
  dsimp only
  split
  · exact h
  · split
    · exact h
    · show State.memWf _ = true
      split
      · exact memWf_setLaunch (memWf_freeSectors (memWf_setTask (memWf_writeSaves h)))
      · exact memWf_freeSectors (memWf_setTask (memWf_writeSaves h))

/-! ### Power events -/

theorem memWf_execRailReached {g : BitVec 6} (h : s.memWf = true) : OutWf (execRailReached g s) := by
  unfold execRailReached
  dsimp only
  split
  · split <;> exact h
  · split
    · exact h
    · exact memWf_endMove h
  · exact h

theorem memWf_execOpSwap {g : BitVec 6} (h : s.memWf = true) : OutWf (execOpSwap g s) := by
  unfold execOpSwap
  dsimp only
  split <;> exact h

theorem memWf_execClockHoldEnd {g : BitVec 6} (h : s.memWf = true) : OutWf (execClockHoldEnd g s) := by
  unfold execClockHoldEnd
  extract_lets k r
  split
  · split
    · exact h
    · next s1 _ _ _ _ =>
      have h1 : s1.memWf = true := memWf_setRail (memWf_swapSections h)
      generalize s1 = u at h1
      show State.memWf _ = true
      split
      · exact memWf_endMove h1
      · exact memWf_placeDue h1
  · exact h

theorem memWf_execRegionStretch {sid : BitVec 8} (h : s.memWf = true) : OutWf (execRegionStretch sid s) := by
  unfold execRegionStretch
  dsimp only
  split <;> exact h

theorem memWf_execSentinelWindow (h : s.memWf = true) : OutWf (execSentinelWindow s) := by
  unfold execSentinelWindow
  dsimp only
  split <;> exact h

theorem memWf_execThrottleExpire {g : BitVec 6} (h : s.memWf = true) : OutWf (execThrottleExpire g s) := by
  unfold execThrottleExpire
  dsimp only
  split
  · split <;> exact h
  · exact h

theorem memWf_modRails {l : List Nat} {f : Nat → Rail → Rail} (h : s.memWf = true) :
    (s.modRails l f).memWf = true :=
  memWf_congr rfl (memWf_foldl h fun _ _ hu => hu)

theorem memWf_execThermalThrottle {die : BitVec 2} {reading : BitVec 16} {delay : BitVec 8} (h : s.memWf = true) :
    OutWf (execThermalThrottle die reading delay s) := by
  unfold execThermalThrottle
  exact memWf_modRails h

theorem memWf_emergency (h : s.memWf = true) : s.emergency.memWf = true := memWf_congr rfl (memWf_modRails h)

theorem memWf_ballastOver {above : Bool} (h : s.memWf = true) : (s.ballastOver above).memWf = true := by
  unfold State.ballastOver
  dsimp only
  split
  · exact memWf_emergency h
  · exact h

theorem memWf_execBallastStart {amps : BitVec 16} (h : s.memWf = true) : OutWf (execBallastStart amps s) := by
  unfold execBallastStart
  dsimp only
  split
  · exact h
  · split <;> exact h

theorem memWf_ballastEnds (h : s.memWf = true) : s.ballastEnds.memWf = true := by
  unfold State.ballastEnds
  split
  · split
    · exact h
    · exact memWf_ballastOver h
  · exact h

theorem memWf_execBallastLimit (h : s.memWf = true) : OutWf (execBallastLimit s) := by
  unfold execBallastLimit
  dsimp only
  split
  · split
    · exact h
    · split
      · exact memWf_ballastOver h
      · exact h
  · exact h

theorem memWf_execCapThrottle {power : BitVec 16} {delay : BitVec 8} (h : s.memWf = true) : OutWf (execCapThrottle power delay s) := by
  unfold execCapThrottle
  dsimp only
  split
  · exact h
  · show State.memWf _ = true
    split
    · exact memWf_ballastOver (memWf_modRails h)
    · exact memWf_modRails h

theorem memWf_execEnergyRepaid {delay : BitVec 8} (h : s.memWf = true) : OutWf (execEnergyRepaid delay s) := by
  unfold execEnergyRepaid
  dsimp only
  split
  · exact h
  · exact memWf_modRails h

theorem memWf_execEmergencyThrottle {power : BitVec 16} (h : s.memWf = true) : OutWf (execEmergencyThrottle power s) := by
  unfold execEmergencyThrottle
  split
  · exact h
  · exact memWf_ballastOver h

theorem memWf_execEmergencyEnd {power : BitVec 16} (h : s.memWf = true) : OutWf (execEmergencyEnd power s) := by
  unfold execEmergencyEnd
  dsimp only
  split
  · exact h
  · exact memWf_modRails h

theorem memWf_execSelfRefreshEnter {ch : BitVec 8} (h : s.memWf = true) : OutWf (execSelfRefreshEnter ch s) := by
  unfold execSelfRefreshEnter
  dsimp only
  split <;> exact h

/-! ### Resets and boot -/

theorem memWf_resetTo {carve : Nat} {cause : BitVec 4} (h : s.memWf = true) :
    (s.resetTo carve cause).memWf = true :=
  memWf_congr rfl (tab_wf_filter _ h)

theorem memWf_coldReset {carve : Nat} {cause : BitVec 4} (h : s.memWf = true) :
    (s.coldReset carve cause).memWf = true :=
  memWf_congr rfl (memWf_resetTo h)

theorem memWf_warmReset {cause : BitVec 4} {lost : Bool} (h : s.memWf = true) : (s.warmReset cause lost).memWf = true := by
  unfold State.warmReset
  extract_lets t
  have ht : t.memWf = true := memWf_resetTo h
  exact memWf_kept ht

theorem memWf_rstCtl {v : Word} (h : s.memWf = true) : (s.rstCtl v).memWf = true := by
  unfold State.rstCtl
  dsimp only
  split
  · exact memWf_warmReset h
  · exact memWf_coldReset h
  · exact h

theorem memWf_execColdReset {m : Master} {v : Word} (h : s.memWf = true) : OutWf (execColdReset m v s) := by
  unfold execColdReset
  split
  · exact h
  · exact memWf_rstCtl h

theorem memWf_execWarmReset {m : Master} {v : Word} (h : s.memWf = true) : OutWf (execWarmReset m v s) := by
  unfold execWarmReset
  split
  · exact h
  · exact memWf_rstCtl h

theorem memWf_execFatalReset {hostUp : Bool} (h : s.memWf = true) : OutWf (execFatalReset hostUp s) := by
  unfold execFatalReset
  exact memWf_warmReset h

theorem memWf_execFlscrub {m : Master} {v : Word} (h : s.memWf = true) : OutWf (execFlscrub m v s) := by
  unfold execFlscrub
  dsimp only
  split
  · exact h
  · exact memWf_congr rfl (memWf_clearFlash h)

theorem memWf_execFlscrubDone (h : s.memWf = true) : OutWf (execFlscrubDone s) := by
  unfold execFlscrubDone
  dsimp only
  split <;> exact h

theorem memWf_execBoot (h : s.memWf = true) : OutWf (execBoot s) := by
  unfold execBoot
  split
  · exact h
  · split <;> exact h

/-! ### Register writes -/

theorem memWf_writeTable {o : Nat} {v : Word} (h : s.memWf = true) : (s.writeTable o v).memWf = true := by
  unfold State.writeTable
  dsimp only
  split
  · exact h
  · exact h
  · exact h
  · split <;> exact h
  · exact h
  · exact h
  · split
    · exact h
    · exact h
    · exact h
    · exact h
    · exact h
    · exact h
    · exact h
    · exact h
    · exact h
    · split <;> exact h
    · split
      · exact h
      · exact memWf_rstCtl h
    · exact h

theorem memWf_plainWrite {m : Master} {off v : Word} (h : s.memWf = true) : (s.plainWrite m off v).memWf = true := by
  unfold State.plainWrite
  dsimp only
  split
  · split <;> exact h
  · split <;> exact h
  · exact h
  · split
    · exact memWf_flushRecs h
    · exact h
  · split
    · exact memWf_writeTable h
    · exact h

theorem memWf_execRegisterWrite {m : Master} {off v : Word} (h : s.memWf = true) : OutWf (execRegisterWrite m off v s) := by
  unfold execRegisterWrite
  exact memWf_plainWrite h

theorem memWf_busWrite {m : Master} {off v : Word} (h : s.memWf = true) : OutWf (s.busWrite m off v) := by
  unfold State.busWrite
  dsimp only
  split
  · split
    · exact memWf_execWqEnable h
    · exact memWf_execWqDisable h
  · exact memWf_execDoorbell h
  · exact memWf_execWqFaultClear h
  · split
    · exact memWf_execCtxCreate h
    · split
      · exact memWf_execCtxEnd h
      · exact memWf_plainWrite h
  · split
    · exact memWf_execRtWrite h
    · split
      · exact memWf_execRtClear h
      · split
        · exact memWf_execRtRead h
        · exact h
  · split
    · exact memWf_execFaultRetry h
    · split
      · exact memWf_execFaultFail h
      · exact h
  · split
    · exact memWf_execTraprespResume h
    · split
      · exact memWf_execTraprespSkip h
      · split
        · exact memWf_execTraprespHandle h
        · exact memWf_execTraprespFail h
  · split
    · exact memWf_execHandleLoad h
    · split
      · exact memWf_execHandleUnload h
      · exact h
  · split
    · exact memWf_execKeyLoad h
    · split
      · exact memWf_execKeyClear h
      · exact h
  · split
    · exact memWf_execClaim h
    · split
      · exact memWf_execRelease h
      · split
        · exact memWf_execOffer h
        · exact h
  · split
    · exact memWf_execAttestRequest h
    · exact h
  · exact memWf_execFlscrub h
  · exact memWf_plainWrite h

theorem memWf_withAck {r : Host.Outcome State Fault Refusal} {a : Out} (hr : OutWf r) : OutWf (withAck r a) := by
  unfold withAck
  split
  · exact hr
  · exact trivial
  · exact trivial

theorem memWf_execMctpWrite {tag : BitVec 8} {off data : Word} (h : s.memWf = true) : OutWf (execMctpWrite tag off data s) := by
  unfold execMctpWrite
  exact memWf_withAck (memWf_busWrite h)

/-! ### Every instruction -/

/-- Every instruction and every event. -/
theorem memWf_exec {i : Instr} (h : s.memWf = true) : OutWf (exec i s) := by
  cases i
  case add | sub | mul | mulh | mulhn | div | divn | rem | remn | and | or | xor | shl | shr | sra | min | max | minn | maxn | slt | sltn | clz | popc
    | sel | addi | andi | ori | xori | shli | shri | srai | slti | li | lhi =>
    exact memWf_putS h
  case cmp | cmpi | pand | por | pxor | pandn | porn | pmov | pnot => exact memWf_putP h
  case j | jal => exact memWf_jump h
  case jr => exact memWf_execJr h
  case jalr => exact memWf_execJalr h
  case bcc => exact memWf_execBcc h
  case loop => exact memWf_execLoop h
  case ld | ldn => exact memWf_finish h (memWf_load h fun _ _ hu => hu)
  case st => exact memWf_execSt h
  case amo | amoCas => exact memWf_finish h (memWf_atomic h)
  case ldv sc _ _ _ => exact memWf_execLdv (sc := sc) h
  case stv sc _ _ => exact memWf_execStv (sc := sc) h
  case vrcl => exact memWf_execVrcl h
  case fence | fenceLayer => exact memWf_execFenceLayer h
  case pfch | sstat | sysrd | nop | mctpRead | mctpCertRead => exact h
  case cfgld => exact memWf_execCfgld h
  case cfgarm => exact memWf_execCfgarm h
  case cfgsw => exact memWf_execCfgsw h
  case sdrain => exact memWf_execSdrain h
  case sdrainGo => exact memWf_execSdrainGo h
  case sbindRd | sbindWr => exact memWf_finish h (memWf_sbind h)
  case sbar => exact memWf_execSbar h
  case seos => exact memWf_execSeos h
  case tinjData => exact memWf_execTinjData h
  case tinjThread => exact memWf_execTinjThread h
  case mark => exact memWf_execMark h
  case tmap | tmapPat | tmapRing | tmapWin => exact memWf_form h
  case tmapCopy => exact memWf_execTmapCopy h
  case cpy | gath => exact memWf_finish h (memWf_copyOp h)
  case scat => exact memWf_execScat h
  case publ => exact memWf_execPubl h
  case inst => exact memWf_execInst h
  case stage => exact memWf_execStage h
  case rstr => exact memWf_execRstr h
  case collSum | collMax | collMin | collGather | collBcast => exact memWf_finish h (memWf_collOp h)
  case twait => exact memWf_execTwait h
  case twaitRel => exact memWf_execTwaitRel h
  case bmwait => exact memWf_execBmwait h
  case gbar => exact memWf_execGbar h
  case sig => exact memWf_execSig h
  case rwaitFill | rwaitFree => exact memWf_finish h (memWf_rwait h)
  case radvFill | radvFree => exact memWf_finish h (memWf_radv h)
  case syswr => exact memWf_execSyswr h
  case svc => exact memWf_execSvc h
  case trap => exact memWf_execTrap h
  case tret => exact memWf_execTret h
  case halt => exact memWf_execHalt h
  case tinv => exact memWf_execTinv h
  case pwrq => exact memWf_execPwrq h
  case vadd | vsub | vaddsat | vsubsat | vmul | vmulh | vmad | vabs | vneg | vmin | vmax | vand | vor | vxor | vnot | vshl | vshr | vsra | vclz |
    vpopc | vcmp | vsel | fadd | fsub | fmul | ffma | fmin | fmax | fabs | fneg | fcmp | frcp | frsq | fsqrt | fexp2 | flog2 | fldx | fexpo | cvt |
    pack | unpk | scl | amax | vred | fred | vshuf | vbc | vrot | vlane =>
    exact memWf_fabric h fun _ => memWf_fireElem h
  case mma => exact memWf_execMma h
  case mclr => exact memWf_execMclr h
  case mnrm => exact memWf_execMnrm h
  case mrd => exact memWf_execMrd h
  case mdrn => exact memWf_execMdrn h
  case steer => exact memWf_execSteer h
  case merge => exact memWf_execMerge h
  case carry | inv => exact memWf_fabric h fun _ => memWf_loopOp h
  case join | fan | sink | pass | dly => exact memWf_fabric h fun a0 => memWf_fireAt fun _ => memWf_pass h
  case iter => exact memWf_execIter h
  case mld => exact memWf_execMld h
  case mst => exact memWf_execMst h
  case matm => exact memWf_execMatm h
  case mldv => exact memWf_execMldv h
  case mstv => exact memWf_execMstv h
  case otok => exact memWf_execOtok h
  case pin => exact memWf_execPin h
  case pout => exact memWf_execPout h
  case const => exact memWf_execConst h
  case eosq => exact memWf_execEosq h
  case waveFire => exact memWf_execWaveFire h
  case waveCommit => exact memWf_execWaveCommit h
  case ownerShareRelease => exact memWf_execOwnerShareRelease h
  case regionStretch => exact memWf_execRegionStretch h
  case sentinelWindow => exact memWf_execSentinelWindow h
  case threadTokenDelivery => exact memWf_execThreadTokenDelivery h
  case wqEnable => exact memWf_execWqEnable h
  case wqDisable => exact memWf_execWqDisable h
  case doorbell => exact memWf_execDoorbell h
  case wqFaultClear => exact memWf_execWqFaultClear h
  case fetch => exact memWf_execFetch h
  case scrubDone => exact memWf_execScrubDone h
  case reservationStart => exact memWf_execReservationStart h
  case taskEnd => exact memWf_execTaskEnd h
  case sectorFree => exact memWf_execSectorFree h
  case blockSchedulerDecision => exact memWf_execBlockSchedulerDecision h
  case hostDrainSwap => exact memWf_execHostDrainSwap h
  case drainSwap => exact memWf_execDrainSwap h
  case sdrainQuiescent => exact memWf_execSdrainQuiescent h
  case groupSwitch => exact memWf_execGroupSwitch h
  case sbarComplete => exact memWf_execSbarComplete h
  case graceDeadline => exact memWf_execGraceDeadline h
  case takeMarker => exact memWf_execTakeMarker h
  case saveSnapshot => exact memWf_execSaveSnapshot h
  case saveDone => exact memWf_execSaveDone h
  case railReached => exact memWf_execRailReached h
  case opSwap => exact memWf_execOpSwap h
  case clockHoldEnd => exact memWf_execClockHoldEnd h
  case thermalThrottle => exact memWf_execThermalThrottle h
  case throttleExpire => exact memWf_execThrottleExpire h
  case ballastStart => exact memWf_execBallastStart h
  case ballastLimit => exact memWf_execBallastLimit h
  case capThrottle => exact memWf_execCapThrottle h
  case emergencyThrottle => exact memWf_execEmergencyThrottle h
  case emergencyEnd => exact memWf_execEmergencyEnd h
  case selfRefreshEnter => exact memWf_execSelfRefreshEnter h
  case chunkCommit => exact memWf_execChunkCommit h
  case engineComplete => exact memWf_execEngineComplete h
  case publishStep => exact memWf_execPublishStep h
  case dupWritePerformed => exact memWf_execDupWritePerformed h
  case cutOver => exact memWf_execCutOver h
  case stagingFill => exact memWf_execStagingFill h
  case installPageProgram => exact memWf_execInstallPageProgram h
  case installFinish => exact memWf_execInstallFinish h
  case stageBlock => exact memWf_execStageBlock h
  case stageFinish => exact memWf_execStageFinish h
  case leftRefill => exact memWf_execLeftRefill h
  case spillReplay => exact memWf_execSpillReplay h
  case faultRetry => exact memWf_execFaultRetry h
  case faultFail => exact memWf_execFaultFail h
  case trapRecord => exact memWf_execTrapRecord h
  case traprespResume => exact memWf_execTraprespResume h
  case traprespSkip => exact memWf_execTraprespSkip h
  case traprespHandle => exact memWf_execTraprespHandle h
  case traprespFail => exact memWf_execTraprespFail h
  case rtWrite => exact memWf_execRtWrite h
  case rtClear => exact memWf_execRtClear h
  case rtRead => exact memWf_execRtRead h
  case rtSwap => exact memWf_execRtSwap h
  case ctxCreate => exact memWf_execCtxCreate h
  case ctxEnd => exact memWf_execCtxEnd h
  case ctxFreed => exact memWf_execCtxFreed h
  case handleLoad => exact memWf_execHandleLoad h
  case handleUnload => exact memWf_execHandleUnload h
  case unloadDone => exact memWf_execUnloadDone h
  case keyLoad => exact memWf_execKeyLoad h
  case keyClear => exact memWf_execKeyClear h
  case hostWindowAccess => exact memWf_execHostWindowAccess h
  case claim => exact memWf_execClaim h
  case release => exact memWf_execRelease h
  case offer => exact memWf_execOffer h
  case offerLapse => exact memWf_execOfferLapse h
  case leaseExpire => exact memWf_execLeaseExpire h
  case peerAccess => exact memWf_execPeerAccess h
  case linkTimeout => exact memWf_execLinkTimeout h
  case attestRequest => exact memWf_execAttestRequest h
  case attestReady => exact memWf_execAttestReady h
  case mctpWrite => exact memWf_execMctpWrite h
  case busRetry => exact memWf_execBusRetry h
  case laneSwapDone => exact memWf_execLaneSwapDone h
  case rowSpareDone => exact memWf_execRowSpareDone h
  case layerDisable => exact memWf_execLayerDisable h
  case powerOn | pcieFundamentalReset => exact memWf_coldReset h
  case coldReset => exact memWf_execColdReset h
  case warmReset => exact memWf_execWarmReset h
  case fatalReset => exact memWf_execFatalReset h
  case boot => exact memWf_execBoot h
  case flscrub => exact memWf_execFlscrub h
  case flscrubDone => exact memWf_execFlscrubDone h
  case twaitDeadline => exact memWf_execTwaitDeadline h
  case bmwaitDeadline => exact memWf_execBmwaitDeadline h
  case registerWrite => exact memWf_execRegisterWrite h
  case energyRepaid => exact memWf_execEnergyRepaid h

/-! ### Inputs -/

theorem memWf_upset {x1 : Upset} (h : s.memWf = true) : (s.upset x1).memWf = true := by
  unfold State.upset
  dsimp only
  split
  · exact h
  · split <;> exact h
  · exact h
  · exact h
  · exact h
  · split
    · exact memWf_taskFail h
    · exact h
  · exact h
  · exact h
  · exact h
  · exact memWf_flushRecs h
  · split <;> exact h
  · exact h
  · exact h
  · split <;> exact h
  · exact h

/-! ### Turns -/

theorem memWf_recordLinkEnds (h : s.memWf = true) : s.recordLinkEnds.memWf = true := memWf_congr rfl (memWf_congr rfl (memWf_flushRecs h))

theorem memWf_runDue {d : Due} (h : s.memWf = true) : OutWf (runDue d s) := by
  unfold runDue
  split
  · exact memWf_execSentinelWindow h
  · exact memWf_execRailReached h
  · exact memWf_execClockHoldEnd h
  · exact memWf_execThrottleExpire h
  · exact memWf_execScrubDone h
  · exact memWf_execLinkTimeout h
  · exact memWf_execGraceDeadline h
  · exact memWf_execBallastLimit h
  · exact memWf_ballastEnds h
  · exact memWf_execReservationStart h
  · exact memWf_loadStep h
  · exact memWf_execOfferLapse h
  · exact memWf_execLeaseExpire h
  · exact memWf_execSelfRefreshEnter h
  · exact memWf_recordLinkEnds h

theorem memWf_nextTurn (h : s.memWf = true) : s.nextTurn.2.memWf = true := by
  unfold State.nextTurn
  split <;> exact h

theorem memWf_slotTurn {r : SlotRef} (h : s.memWf = true) : OutWf (s.slotTurn r) := by
  unfold State.slotTurn
  split
  · exact trivial
  · split
    · exact memWf_exec (s := { s with slot := r }) h
    · exact h

theorem memWf_noted {i : Instr} {r : Host.Outcome State Fault Refusal} (hr : OutWf r) : OutWf (s.noted i r) := by
  unfold State.noted
  split
  · exact hr
  · exact trivial
  · exact trivial

theorem memWf_perform {who : Agent} {i : Instr} (h : s.memWf = true) : OutWf (s.perform who i) := by
  unfold State.perform
  split
  · exact h
  · split
    · exact h
    · exact memWf_noted (memWf_exec h)

theorem memWf_threadTurn {sid : BitVec 8} (h : s.memWf = true) : OutWf (s.threadTurn sid) := by
  unfold State.threadTurn
  split
  · next e => exact memWf_perform (e ▸ memWf_ctlTurn h :)
  · next e => exact (e ▸ memWf_ctlTurn h :)

theorem memWf_act {a : Agent} (h : s.memWf = true) : OutWf (s.act a) := by
  unfold State.act
  split
  · exact memWf_threadTurn h
  · exact memWf_slotTurn h
  · split
    · exact memWf_perform h
    · exact h
  · exact memWf_upset h

theorem memWf_takeTurn {t : Turn} (h : s.memWf = true) : OutWf (s.takeTurn t) := by
  unfold State.takeTurn
  split
  · split
    · extract_lets now
      exact memWf_runDue (s := { s.atCyc now with agenda := ⟨t.dt - (now - s.cyc), t.who⟩ :: s.agenda }) h
    · exact memWf_act (s := s.atCyc _) h
  · exact memWf_act (s := s.atCyc _) h

theorem memWf_turnStep (h : s.memWf = true) : OutWf s.turnStep := by
  unfold State.turnStep
  split
  · exact memWf_placement h
  · split
    · next e => exact memWf_takeTurn (e ▸ memWf_nextTurn h :)
    · next e => exact (e ▸ memWf_nextTurn h :)

end

/-- Settles O56: whatever acts on a turn, its writes to memory are writes of bytes to the list, or bytes dropped from it, and both keep the list in its canonical form. -/
theorem everyStepKeepsMemoryCanonical : Obligations.EveryStepKeepsMemoryCanonical := by
  unfold Obligations.EveryStepKeepsMemoryCanonical
  intro s t h e
  have ht : OutWf (step s) := memWf_turnStep h
  rw [e] at ht
  exact ht

end Sys2Proof.Machine
end
